-- ==== Sys2Proof/Word.lean ====
section
/-! DEFINITION. The word types of the Voret machine (R4, R88, R120): a scalar register is 64 bits, a syllable 48, a
bundle 128, and a byte 8. -/

namespace Sys2Proof

/-- A 64-bit scalar register value. -/
abbrev W64 := BitVec 64

/-- A byte of memory. -/
abbrev Byte := BitVec 8

/-- A scalar register number, 0 to 63 (R120). -/
abbrev Reg := BitVec 6

/-- A 48-bit syllable (R112). -/
abbrev Syl := BitVec 48

end Sys2Proof
end

