-- ==== Sys2Proof/Config.lean ====
section
/-! DEFINITION. The free values: what the manual leaves open after an instruction that runs. Each is a constant with no
body, applied to `State.free`, a counter that the drawing step advances, so that nothing can be proved of a value
(DESIGN CHOICE, log 5). -/

namespace Sys2Proof.Config

/-- An unspecified 64-bit value: timing errors (R384, R496), estimates (R376, R380, R381), a context image's device format (R176). -/
opaque freeWord : Nat → W64

/-- An unspecified byte: the contents of a tile after `zclr.e` (R237), of tentative slots (R347), of slices after pre-emption (R48,
R464). -/
opaque freeByte : Nat → Byte

/-- What the fuses hold: byte 0 is the security version, bytes 1 to 57 the secret key of the identity pair, and bytes 256 to 319 the
digest of the public key that signs images (R399 to R401). From byte 64 on stand the measurements of the images that the device came
with. (DESIGN CHOICE, log 95.) -/
opaque fuseByte : Nat → Byte

/-- The parts of a firmware image, whose format is not stated (R399): the public key that it carries, its signature, what the signature
covers, and its security version. (DESIGN CHOICE, log 95.) -/
opaque imageKey : List Byte → List Byte
opaque imageSig : List Byte → List Byte
opaque imageBody : List Byte → List Byte
opaque imageVersion : List Byte → Nat

/-- How the stage-2 root and the paddock registers of a partition, each with its core and number, are laid out before they are hashed
(R401). (DESIGN CHOICE, log 95.) -/
opaque partBytes : W64 → List (Nat × Nat × W64) → List Byte

/-- Where Evden puts the tables of partition 0 at boot (R443). (DESIGN CHOICE, log 129.) -/
opaque bootPage : Nat

/-- The recovery status and its place in the window (R399). (DESIGN CHOICE, log 96.) -/
opaque recoveryOff : Nat
opaque recoveryStatus : W64

end Sys2Proof.Config
end

