-- ==== Sys2Proof/Syntax.lean ====
section
/-! DEFINITION. The instruction set as syntax: one constructor for each row of spec/opcode_table.json. A row that a
syllable or a header bit encodes carries its decoded fields (R113, R120 to R132). A row that is a step of the device, or
an input from outside it, carries the names of what it acts on and the data that comes with it. -/

namespace Sys2Proof

/-- The second source of an R-format scalar instruction (R127, R142): a register with its e bit, a 16-bit immediate, or
the 32-bit immediate bimm:imm16. -/
inductive Op2 where
  | reg (b : Reg) (eb : Bool)
  | imm (v : BitVec 16)
  | wide (v : BitVec 32)
  deriving DecidableEq, Repr

/-- Two-source R-format operands (R127). -/
structure RArgs where
  d : Reg
  a : Reg
  ea : Bool
  op2 : Op2
  deriving DecidableEq, Repr

/-- One-source R-format operands (R146). -/
structure UArgs where
  d : Reg
  a : Reg
  ea : Bool
  deriving DecidableEq, Repr

/-- Bit-field operands (R146): low bit p and width minus 1. -/
structure FArgs where
  d : Reg
  a : Reg
  ea : Bool
  p : BitVec 6
  wm1 : BitVec 6
  deriving DecidableEq, Repr

/-- The immediate of `movi` (R148): 24 bits, or the 40 bits bimm:imm24. -/
inductive MovImm where
  | narrow (v : BitVec 24)
  | wide (v : BitVec 40)
  deriving DecidableEq, Repr

/-- Operands of `br` (R150): the bit number is used by conditions 6 and 7 alone. -/
structure BrArgs where
  cond : BitVec 3
  a : Reg
  ea : Bool
  bit : BitVec 6
  disp : BitVec 30
  deriving DecidableEq, Repr

/-- A register source with its e bit. -/
structure Src where
  r : Reg
  e : Bool
  deriving DecidableEq, Repr

/-- Operands of `tlbi` (R171). -/
structure TlbiArgs where
  scope : BitVec 3
  a : Src
  b : Src
  deriving DecidableEq, Repr

/-- The location of a tagged access (R178): local with a displacement, or layout entry L. -/
inductive MLoc where
  | off (o : BitVec 16)
  | lay (l : BitVec 6)
  deriving DecidableEq, Repr

/-- Operands of the tagged memory instructions (R183). -/
structure MArgs where
  d : Reg
  a : Reg
  ea : Bool
  ed : Bool
  loc : MLoc
  deriving DecidableEq, Repr

/-- Operands of an atomic (R129, R184, R185). -/
structure AArgs where
  d : Reg
  a : Reg
  ea : Bool
  ed : Bool
  lay : Option (BitVec 6)
  w64 : Bool
  ord : BitVec 2
  scope : BitVec 3
  deriving DecidableEq, Repr

/-- A group or chute operand (R194): local form, or layout entry L with coordinates from x(a). -/
structure GArgs where
  a : Reg
  ea : Bool
  lay : Option (BitVec 6)
  deriving DecidableEq, Repr

/-- Operands of `tlwait` (R192): remote says imm16[3], so that x(a) names a logical core. -/
structure TlArgs where
  tl : BitVec 3
  scope : BitVec 3
  remote : Bool
  a : Src
  b : Src
  deriving DecidableEq, Repr

/-- E-format fields (R120). -/
structure EArgs where
  ui : Bool
  dn : Bool
  di : Bool
  uo : Bool
  rel : Bool
  arv : Bool
  a : Reg
  b : Reg
  c : Reg
  fn : BitVec 16
  deriving DecidableEq, Repr

/-- V-format fields (R120), with the token bits ui, do, di, uo taken from the bundle immediate (R123). -/
structure VArgs where
  d : Reg
  a : Reg
  b : Reg
  n : Reg
  ty : BitVec 4
  var : BitVec 4
  rnd : BitVec 2
  m : Reg
  tok : BitVec 4
  deriving DecidableEq, Repr

/-- One constructor for each row of spec/opcode_table.json. Contexts are named by their 12-bit `sr.ctx` value (R17),
cores by bits [11:3] of it, clusters by bits [11:6], dies by bits [11:10], functions by their partition number. -/
inductive Instr where
  -- scalar integer (R142 to R148)
  | add (r : RArgs)
  | sub (r : RArgs)
  | mul (r : RArgs)
  | mulh (n : Bool) (r : RArgs)
  | div (n : Bool) (r : RArgs)
  | rem (n : Bool) (r : RArgs)
  | madd (r : RArgs)
  | and (r : RArgs)
  | or (r : RArgs)
  | xor (r : RArgs)
  | andn (r : RArgs)
  | orn (r : RArgs)
  | shl (r : RArgs)
  | shr (r : RArgs)
  | sra (r : RArgs)
  | rot (r : RArgs)
  | min (n : Bool) (r : RArgs)
  | max (n : Bool) (r : RArgs)
  | abs (u : UArgs)
  | clz (u : UArgs)
  | ctz (u : UArgs)
  | popc (u : UArgs)
  | bfx (n : Bool) (f : FArgs)
  | bfi (f : FArgs)
  | sel (r : RArgs)
  | cmp (c : BitVec 3) (r : RArgs)
  | movi (d : Reg) (v : MovImm)
  | movh (d : Reg) (v : BitVec 24)
  | lea (sh : BitVec 2) (r : RArgs)
  -- control (R149 to R158)
  | br (b : BrArgs)
  | jmp (disp : BitVec 30)
  | jr (a : Src)
  | call (a : Reg) (disp : BitVec 30)
  | ret (a : Src)
  | loop (lc1 : Bool) (disp : BitVec 30)
  | ppt
  | step
  | tend
  | idle
  | trap (code : BitVec 24)
  | tret
  -- system registers (R159 to R166)
  | srr (d : Reg) (num : BitVec 12)
  | srw (a : Src) (num : BitVec 12)
  | paddockRegisterWrite (a : Src) (k : BitVec 2)
  | handlerLimitWrite (a : Src)
  | flagsW1cWrite (a : Src) (mx : Bool)
  | arrivalRegisterWrite (a : Src) (q : BitVec 3)
  -- layout (R167 to R169)
  | lview (d : BitVec 6) (a : BitVec 6) (b : Src)
  | lget (d : Reg) (a : BitVec 6) (w : BitVec 3)
  -- privileged (R170 to R177)
  | tlbiS1pg (t : TlbiArgs)
  | tlbiS1all (t : TlbiArgs)
  | tlbiS2pg (t : TlbiArgs)
  | tlbiPart (t : TlbiArgs)
  | tlbiAll (t : TlbiArgs)
  | quiesceHold (a : Src)
  | quiesceRel (a : Src)
  | pgrel (big : Bool) (d : Reg) (a : Src)
  | ctxsave (d : Reg) (a : Src) (b : Src)
  | ctxload (d : Reg) (a : Src) (b : Src)
  | ctxkill (d : Reg) (a : Src)
  -- power and profiles (R372 to R385)
  | pacq (n : BitVec 6)
  | prel
  | pvote (vp : BitVec 3)
  | aprof (n : BitVec 4)
  -- bundle forms (R124, R132, R55)
  | rep (cnt : BitVec 6) (dstep : BitVec 2) (astep : BitVec 2) (bstep : BitVec 2)
  | nop
  -- memory (R178 to R183)
  | ldl (w : BitVec 2) (n : Bool) (d : Reg) (a : Src) (off : BitVec 16)
  | stl (w : BitVec 2) (d : Src) (a : Src) (off : BitVec 16)
  | ldg (n : Bool) (d : Reg) (a : Src) (l : BitVec 6)
  | stg (d : Src) (a : Src) (l : BitVec 6)
  | ldf (m : MArgs)
  | ste (m : MArgs)
  | ldpk (m : MArgs)
  | stf (m : MArgs)
  | pref (a : Src) (l : BitVec 6)
  -- atomics (R184 to R189)
  | amoAdd (m : AArgs)
  | amoAnd (m : AArgs)
  | amoOr (m : AArgs)
  | amoXor (m : AArgs)
  | amoMin (n : Bool) (m : AArgs)
  | amoMax (n : Bool) (m : AArgs)
  | amoSwap (m : AArgs)
  | amoCas (m : AArgs)
  | amoIncw (m : AArgs)
  | amoAddb (m : AArgs)
  | amoFadd (m : AArgs)
  | amoSadd (m : AArgs)
  | remoteValueArrival (ctx : Nat) (r : Nat)
  | taggedWaitServed (ctx : Nat)
  -- synchronisation (R190 to R202)
  | fence (kind : BitVec 2) (scope : BitVec 3)
  | tlwait (t : TlArgs)
  | tlread (tl : BitVec 3) (d : Reg) (remote : Bool) (a : Src)
  | tlmark (tl : BitVec 3) (d : Reg)
  | gnew (d : Reg) (g : GArgs) (b : Src)
  | join (d : Reg) (g : GArgs)
  | leave (g : GArgs)
  | bar (g : GArgs)
  | arrive (d : Reg) (g : GArgs)
  | bwait (g : GArgs) (b : Src)
  | barrierPhaseReady (ctx : Nat)
  -- chutes, messages, jobs (R203 to R208)
  | cbind (port : BitVec 3) (g : GArgs)
  | cunbind (port : BitVec 3)
  | chutePop (port : BitVec 2)
  | chutePush (port : BitVec 2) (v : W64)
  | send (d : Reg) (a : Src) (b : Src) (n : BitVec 5)
  | sendLanding (core : Nat)
  | card (d : Reg) (a : Src)
  | jcancel (d : Reg) (a : Src)
  | jpoll (d : Reg) (a : Src)
  -- matrix engine (R233)
  | mcfg (e : EArgs)
  | mcfgr (e : EArgs)
  | mgo (e : EArgs)
  | mma (e : EArgs)
  | acz (e : EArgs)
  | acmvSt (e : EArgs)
  | acmvLd (e : EArgs)
  | zld (e : EArgs)
  | zst (e : EArgs)
  | zclrE (e : EArgs)
  | zclrZ (e : EArgs)
  | rrotUp (e : EArgs)
  | rrotDn (e : EArgs)
  | mtab (e : EArgs)
  -- vector engine (R252 to R271)
  | vadd (v : VArgs)
  | vsub (v : VArgs)
  | vmul (v : VArgs)
  | vfma (v : VArgs)
  | vdiv (v : VArgs)
  | vsqrt (v : VArgs)
  | vrsqrt (v : VArgs)
  | vmin (v : VArgs)
  | vmax (v : VArgs)
  | vabs (v : VArgs)
  | vneg (v : VArgs)
  | vand (v : VArgs)
  | vor (v : VArgs)
  | vxor (v : VArgs)
  | vshl (v : VArgs)
  | vshr (v : VArgs)
  | vsra (v : VArgs)
  | vcmp (v : VArgs)
  | vsel (v : VArgs)
  | vcvt (v : VArgs)
  | vsadd (v : VArgs)
  | vssub (v : VArgs)
  | vsmul (v : VArgs)
  | vsdiv (v : VArgs)
  | vsexp (v : VArgs)
  | vslog (v : VArgs)
  | vred (v : VArgs)
  | vscan (v : VArgs)
  | vperm (v : VArgs)
  | vshuf (v : VArgs)
  | vbcast (v : VArgs)
  | vepi (v : VArgs)
  | vfn (v : VArgs)
  | vtab (v : VArgs)
  | vfill (v : VArgs)
  | vmov (v : VArgs)
  | vlds (v : VArgs)
  | vsts (v : VArgs)
  -- copy engine (R282)
  | cpin (e : EArgs)
  | cpout (e : EArgs)
  | cpx (e : EArgs)
  | cgather (e : EArgs)
  | cscatter (e : EArgs)
  | cfill (e : EArgs)
  | cred (e : EArgs)
  | cmsg (e : EArgs)
  | cmirror (e : EArgs)
  | cpref (e : EArgs)
  -- generation engines (R341)
  | ctrOpen (e : EArgs)
  | ctrClose (e : EArgs)
  | ctrAppend (e : EArgs)
  | ctrProp (e : EArgs)
  | ctrSave (e : EArgs)
  | ctrLoad (e : EArgs)
  | ctrTrim (e : EArgs)
  | smpRun (e : EArgs)
  | smpAccept (e : EArgs)
  | kvtOpen (e : EArgs)
  | kvtCommit (e : EArgs)
  | kvtDrop (e : EArgs)
  -- graph parameters (R367)
  | gpgetGp (d : Reg) (a : Src) (gp : BitVec 4)
  | gpgetCm (d : Reg) (k : BitVec 2)
  | gpset (d : Reg) (a : Src) (b : Src) (gp : BitVec 4)
  | grepl (d : Reg) (a : Src)
  -- engine steps
  | mxCommandStart (core : Nat)
  | mxCommandComplete (core : Nat) (tl : Nat)
  | startTokenRefill (die : Nat)
  | mgoRelocation (owner : Nat) (sibling : Nat)
  | rrotCollectiveStart (cluster : Nat)
  | vxCommandStart (core : Nat)
  | vxCommandComplete (core : Nat)
  | copyCommandStart (core : Nat) (co : Bool)
  | copySectorPerform (core : Nat) (co : Bool) (tl : Nat)
  | copyCommandComplete (core : Nat) (co : Bool)
  | gxCommandStart (core : Nat)
  | samplerTake (cluster : Nat)
  | gxCommandComplete (core : Nat)
  -- contexts, units and jobs
  | handlerStart (core : Nat)
  | unitDispatch (core : Nat) (lane : Nat)
  | recordDeposit (core : Nat) (lane : Nat)
  | stepRelease (job : Nat)
  | launchCompletion (job : Nat)
  | preemptionRequest (victim : Nat) (job : Nat)
  | preemptionSave (ctx : Nat)
  | unitResumption (handle : Nat) (core : Nat) (lane : Nat)
  | watchdogExpiry (ctx : Nat)
  | forcedPreemptionSave (ctx : Nat)
  | handlerLimitExpiry (ctx : Nat)
  | wakeTimeReached (ctx : Nat)
  | asyncFaultDelivery (ctx : Nat)
  | cancelWaitTimeout (ctx : Nat)
  -- power and heat
  | pacqGrant (ctx : Nat)
  | levelRelease (ctx : Nat)
  | deferredRailFall (die : Nat) (low : Bool)
  | telemetryRecord (die : Nat)
  | patrolScrub (granule : Nat)
  -- dies
  | heartbeat (die : Nat)
  | heartbeatTimeout (die : Nat)
  -- host queues and packets
  | launchPacket (fn : Nat) (q : Nat)
  | replayPacket (fn : Nat) (q : Nat)
  | fencePacket (fn : Nat) (q : Nat)
  | fenceSatisfied (fn : Nat) (q : Nat)
  | fenceTimeout (fn : Nat) (q : Nat)
  | signalWritePacket (fn : Nat) (q : Nat)
  | copyPacket (fn : Nat) (q : Nat)
  | cancelPacket (fn : Nat) (q : Nat)
  | streamAdmitPacket (fn : Nat) (q : Nat)
  | streamModifyPacket (fn : Nat) (q : Nat)
  | streamRetirePacket (fn : Nat) (q : Nat)
  | boundsPacket (fn : Nat) (q : Nat)
  | graphDefinePacket (fn : Nat) (q : Nat)
  | graphDeletePacket (fn : Nat) (q : Nat)
  -- streams, graphs and the network
  | streamTimerRelease (stream : Nat)
  | graphNodeSubmit (graph : Nat) (node : Nat)
  | graphInstanceComplete (graph : Nat)
  | deadlineMiss (stream : Nat)
  -- security, clock, management
  | attestationDone (fn : Nat)
  -- translation, quarantine
  | pageRequestWrite (part : Nat)
  | pageReplyRead (part : Nat)
  | pageRequestTimeout (part : Nat) (rid : Nat)
  | launchUnitAnswer (ctx : Nat)
  -- inputs from outside, and steps without operands: last, so that the constructors that decoding builds come first
  | diePowerOff (die : Nat)
  | doorbell (fn : Nat) (q : Nat)
  | queueCreate (fn : Nat) (q : Nat) (qcb : W64)
  | queueDestroy (fn : Nat) (q : Nat)
  | inboundStreamMessage (flow : Nat) (payload : List Byte)
  | inboundCoreMessage (flow : Nat) (payload : List Byte)
  | flowWrite (fn : Nat)
  | portDown (port : Nat)
  | portUp (port : Nat)
  | attestationRequest (fn : Nat) (abuf : W64)
  | clockCorrection (offset : Int)
  | firstClockStep (offset : Int)
  | syncLoss
  | firmwareStage (kind : BitVec 2) (image : List Byte)
  | deviceReset
  | functionLevelReset (fn : Nat)
  | registerWrite (fn : Nat) (off : Nat) (v : W64)
  | quiescenceAdvance
  | quiescenceWordWrite
  | quarantineLeave
  | haltBundle
  | unassignedEncoding (w : Syl)
  | peerAcknowledgement (flow : Nat)
  | bar2Access (fn : Nat) (addr : Nat) (write : Bool) (data : List Byte)
  | softErrorEvent (key : Nat) (fatal : Bool)
  | thermalSample (core : Nat) (temp : Nat)
  | powerWindowEstimate (core : Nat) (est : Nat)
  deriving DecidableEq, Repr

end Sys2Proof
end

