-- ==== Sys2Proof/WellFormed.lean ====
section
/-! DEFINITION. Which terms of `Instr` are instructions: the limits that the encodings of R124 to R131 put on the fields,
and, for a row that is a step of the device, the ranges of the names it carries (R12, R14, R15, R17, R314, R329, R343). -/

namespace Sys2Proof

/-- A field of R146: p + w at most 64. -/
def FArgs.wf (f : FArgs) : Bool := decide (f.p.toNat + f.wm1.toNat + 1 ≤ 64)

/-- Only `bs` and `bc` take a bit number (R150). -/
def BrArgs.wf (b : BrArgs) : Bool := decide (6 ≤ b.cond.toNat) || b.bit == 0

/-- The scopes of R171. -/
def TlbiArgs.wf (t : TlbiArgs) : Bool := decide (2 ≤ t.scope.toNat ∧ t.scope.toNat ≤ 4)

/-- A scope of R129. -/
def scopeOk (s : BitVec 3) : Bool := decide (s.toNat ≤ 5)

/-- A timeline of R130. -/
def tlOk (t : BitVec 3) : Bool := decide (t.toNat ≤ 5)

/-- A core selection of R192. -/
def remoteOk (remote : Bool) (a : Src) : Bool := remote || (a.r == 0 && !a.e)

/-- A tagged access: `rd` says that d is read, so that ed may be 1. -/
def MArgs.wf (m : MArgs) (rd : Bool) : Bool := rd || !m.ed

/-- An atomic: scope at most 5, and d at most 62 where x(d+1) is used. -/
def AArgs.wf (m : AArgs) (pair : Bool) : Bool := scopeOk m.scope && !(pair && m.d == 63)

/-- A tile or accumulator number (R233). -/
def tileOk (r : Reg) : Bool := decide (r.toNat < 8)

/-- The E-format fields of an MX instruction that may carry tokens (R233). -/
def EArgs.mxOk (f : EArgs) (rel : Bool) : Bool := rel || !f.rel

/-- The E-format fields of a copy instruction (R280). -/
def EArgs.copyOk (f : EArgs) : Bool :=
  !f.rel && f.fn.extractLsb' 0 8 == 0 && decide ((f.fn.extractLsb' 13 3).toNat ≤ 4)

/-- The E-format fields of a GX instruction (R338). -/
def EArgs.gxOk (f : EArgs) : Bool :=
  !(f.ui || f.dn || f.di || f.uo || f.rel) && f.fn.extractLsb' 0 13 == 0 && decide ((f.fn.extractLsb' 13 3).toNat ≤ 4)

/-- The fields of `mma` (R234). -/
def EArgs.mmaOk (f : EArgs) : Bool :=
  let asrc := f.fn.getLsbD 15
  let bsrc := f.fn.getLsbD 13
  let sp := f.fn.extractLsb' 6 2
  !f.rel && f.fn.extractLsb' 0 6 == 0 && sp != 3 && tileOk f.c && !(asrc && f.fn.getLsbD 14) &&
    !(bsrc && f.fn.getLsbD 12) && decide ((f.fn.extractLsb' 8 4).toNat ≤ 2) &&
    !(!bsrc && f.fn.extractLsb' 8 4 == 2) && !(sp != 0 && !asrc) &&
    (if asrc then f.a != 63 else tileOk f.a) && (if bsrc then f.b != 63 else tileOk f.b)

/-- Whether a V-format field that an instruction does not use is zero. -/
def VArgs.unused (v : VArgs) (d a b n m : Bool) : Bool :=
  (d || v.d == 0) && (a || v.a == 0) && (b || v.b == 0) && (n || v.n == 0) && (m || v.m == 0)

/-- An element type below 6: an integer. -/
def VArgs.int (v : VArgs) : Bool := decide (v.ty.toNat < 6)

/-- bf16 or fp32. -/
def VArgs.fp (v : VArgs) : Bool := v.ty == 6 || v.ty == 7

/-- sli16 or sli32. -/
def VArgs.sli (v : VArgs) : Bool := v.ty == 8 || v.ty == 9

/-- Any listed type (R131). -/
def VArgs.any (v : VArgs) : Bool := decide (v.ty.toNat < 10)

/-- Variant 0 or `.x` (R252). -/
def VArgs.plainOrX (v : VArgs) : Bool := v.var == 0 || v.var == 2

/-- A rounding mode where the type is bf16 or fp32, and 0 elsewhere (R248). -/
def VArgs.rndFp (v : VArgs) : Bool := v.fp || v.rnd == 0

/-- Fields of `vadd`, `vsub`, `vmul`, `vfma` (R252). -/
def VArgs.arithOk (v : VArgs) : Bool :=
  ((v.int && decide (v.var.toNat < 4)) || (v.fp && v.plainOrX)) && v.rndFp

/-- Fields of a binary form of the given types with `.x` allowed and no rounding. -/
def VArgs.binOk (v : VArgs) (ty : Bool) : Bool := ty && v.plainOrX && v.rnd == 0

/-- Fields of `vabs` and `vneg` (R254). -/
def VArgs.absOk (v : VArgs) : Bool :=
  ((decide (v.ty.toNat < 3) && decide (v.var.toNat < 2)) || ((v.fp || v.sli) && v.var == 0)) && v.rnd == 0 &&
    v.unused true true false true true

/-- Fields of `vred` and `vscan` (R260). -/
def VArgs.redOk (v : VArgs) : Bool :=
  ((v.var == 0 && (v.int || v.fp)) || (v.var == 8 && v.int) || ((v.var == 1 || v.var == 2) && v.any) ||
    (v.var == 3 && v.sli)) && ((v.fp && v.var == 0) || v.rnd == 0) && v.unused true true false true true

/-- Fields of `vcvt` (R258). -/
def VArgs.cvtOk (v : VArgs) : Bool :=
  v.any && decide (v.var.toNat < 10) && v.ty != v.var &&
    ((decide (v.ty.toNat < 8) && !(v.int && decide (v.var.toNat < 6))) || v.rnd == 0) &&
    v.unused true true false true true

/-- A context of R17: twelve bits whose low three are below 6. -/
def ctxOk (c : Nat) : Bool := decide (c < 4096) && decide (c % 8 < 6)

/-- A core of R15. -/
def coreOk (c : Nat) : Bool := decide (c < 512)

/-- A die of R12. -/
def dieOk (d : Nat) : Bool := decide (d < 4)

/-- A host queue (R314, R398): function 0 to 32; queue 0 to 15, and the management queue 16 of the physical function. -/
def queueOk (fn q : Nat) : Bool := decide (fn < 33) && (decide (q < 16) || (fn == 0 && q == 16))

/-- Well-formedness of every instruction. -/
def Instr.wf : Instr → Bool
  | .bfx _ f | .bfi f => f.wf
  | .cmp c _ => decide (c.toNat ≤ 5)
  | .br b => b.wf
  | .srr _ n =>
    decide (n.toNat ≤ 0x004) || n == 0x008 || n == 0x009 || n == 0x010 || n == 0x011 || n == 0x018 || n == 0x020 ||
      n == 0x021 || n == 0x028 || decide (0x030 ≤ n.toNat ∧ n.toNat ≤ 0x03C) ||
      decide (0x040 ≤ n.toNat ∧ n.toNat ≤ 0x043) || n == 0x080 || decide (0x088 ≤ n.toNat ∧ n.toNat ≤ 0x08B)
  | .srw _ n => n == 0x009 || n == 0x010 || n == 0x011 || decide (0x031 ≤ n.toNat ∧ n.toNat ≤ 0x037)
  | .arrivalRegisterWrite _ q => decide (q.toNat ≤ 4)
  | .lview d a _ => decide (48 ≤ d.toNat ∧ d.toNat ≤ 62) && a != 63
  | .tlbiS1pg t | .tlbiS1all t | .tlbiS2pg t | .tlbiPart t | .tlbiAll t => t.wf
  | .pacq n => n != 0
  | .ldf m | .ldpk m => m.wf false
  | .ste m | .stf m => m.wf true
  | .amoAdd m | .amoAnd m | .amoOr m | .amoXor m | .amoMin _ m | .amoMax _ m | .amoSwap m | .amoIncw m => m.wf false
  | .amoCas m | .amoAddb m => m.wf true
  | .amoFadd m | .amoSadd m => m.wf false && !m.w64
  | .fence k sc => k != 0 && scopeOk sc
  | .tlwait t => tlOk t.tl && scopeOk t.scope && remoteOk t.remote t.a
  | .tlread tl _ r a => tlOk tl && remoteOk r a
  | .tlmark tl _ => tlOk tl
  | .mcfg f =>
    !(f.ui || f.dn || f.di || f.uo || f.arv || f.rel) && f.b == 0 && f.c == 0 && f.fn.extractLsb' 10 6 == 0 &&
      f.fn.extractLsb' 0 10 != 0
  | .mcfgr f =>
    !(f.ui || f.dn || f.di || f.uo || f.arv || f.rel) && f.b == 0 && f.c == 0 && f.fn.extractLsb' 6 10 == 0 &&
      decide ((f.fn.extractLsb' 0 6).toNat ≤ 45)
  | .mgo f => f.a == 0 && f.b == 0 && tileOk f.c && f.fn == 0
  | .mma f => f.mmaOk
  | .acz f => f.mxOk false && f.a == 0 && f.b == 0 && tileOk f.c && f.fn == 0
  | .acmvSt f => f.mxOk false && f.b == 0 && tileOk f.c && (f.fn == 0 || f.fn == 2)
  | .acmvLd f => f.mxOk false && f.b == 0 && tileOk f.c && f.fn == 1
  | .zld f => f.mxOk false && f.b == 0 && tileOk f.c && f.a != 63 && f.fn.extractLsb' 9 7 == 0
  | .zst f => f.mxOk false && f.b == 0 && tileOk f.c && f.a != 63 && f.fn.extractLsb' 9 6 == 0
  | .zclrE f => f.mxOk false && f.a == 0 && f.b == 0 && tileOk f.c && f.fn == 0
  | .zclrZ f => f.mxOk false && f.a == 0 && f.b == 0 && tileOk f.c && f.fn == 1
  | .rrotUp f => f.mxOk false && f.c == 0 && f.fn.extractLsb' 9 7 == 0
  | .rrotDn f => f.mxOk false && f.c == 0 && f.fn.extractLsb' 9 6 == 0 && f.fn.getLsbD 15
  | .mtab f => f.mxOk false && f.b == 0 && f.c == 0 && f.a != 63 && f.fn == 0
  | .vadd v | .vsub v | .vmul v | .vfma v => v.arithOk
  | .vdiv v => v.fp && v.plainOrX
  | .vsqrt v | .vrsqrt v => v.fp && v.var == 0 && v.unused true true false true true
  | .vmin v | .vmax v => v.binOk v.any
  | .vabs v | .vneg v => v.absOk
  | .vand v | .vor v | .vxor v | .vshl v | .vshr v | .vsra v => v.binOk v.int
  | .vcmp v => v.any && decide (v.var.toNat % 8 < 6) && v.rnd == 0
  | .vsel v => v.binOk v.any && v.m != 0
  | .vcvt v => v.cvtOk
  | .vsadd v | .vssub v | .vsmul v | .vsdiv v => v.binOk v.sli
  | .vsexp v | .vslog v => v.sli && v.var == 0 && v.rnd == 0 && v.unused true true false true true
  | .vred v | .vscan v => v.redOk
  | .vperm v | .vbcast v => v.any && v.var == 0 && v.rnd == 0
  | .vshuf v => v.any && decide (v.var.toNat < 5) && v.rnd == 0
  | .vepi v => v.any && decide (v.var.toNat < 2) && v.unused true true true false false
  | .vfn v => v.fp && decide (v.var.toNat < 8) && v.unused true true false true true
  | .vtab v => v.ty == 0 && decide (v.var.toNat < 8) && v.rnd == 0 && v.unused false true false false false
  | .vfill v => v.any && v.var == 0 && v.rnd == 0 && v.unused true false true true true
  | .vmov v => v.any && v.var == 0 && v.rnd == 0 && v.unused true true false true true
  | .vlds v | .vsts v => v.any && v.var == 0 && v.rnd == 0 && v.unused true true true false false
  | .cpin f | .cpout f => f.copyOk && f.fn.extractLsb' 8 3 == 0 && f.b == 0 && f.c == 0
  | .cpx f => f.copyOk && f.fn.extractLsb' 9 2 == 0 && f.c == 0
  | .cgather f | .cscatter f => f.copyOk && decide ((f.fn.extractLsb' 8 3).toNat ≤ 5) && f.c == 0
  | .cfill f | .cmirror f => f.copyOk && f.fn.extractLsb' 8 3 == 0 && f.c == 0
  | .cred f => f.copyOk && decide ((f.fn.extractLsb' 8 3).toNat ≤ 2) && f.b == 0 && f.c == 0
  | .cmsg f => !f.rel && f.fn == 0
  | .cpref f => !f.rel && f.fn == 0 && f.b == 0 && f.c == 0
  | .ctrOpen f | .ctrTrim f | .smpRun f | .smpAccept f => f.gxOk && f.c == 0
  | .ctrClose f | .kvtDrop f => f.gxOk && f.b == 0 && f.c == 0
  | .ctrAppend f | .ctrProp f | .ctrSave f | .ctrLoad f | .kvtOpen f | .kvtCommit f => f.gxOk
  | .remoteValueArrival c r => ctxOk c && decide (r < 64)
  | .taggedWaitServed c | .barrierPhaseReady c | .preemptionSave c | .watchdogExpiry c | .forcedPreemptionSave c
  | .handlerLimitExpiry c | .wakeTimeReached c | .asyncFaultDelivery c | .cancelWaitTimeout c | .pacqGrant c
  | .levelRelease c | .launchUnitAnswer c => ctxOk c
  | .sendLanding c | .mxCommandStart c | .vxCommandStart c | .vxCommandComplete c | .gxCommandStart c
  | .gxCommandComplete c | .handlerStart c | .powerWindowEstimate c _ | .thermalSample c _ => coreOk c
  | .mxCommandComplete c _ => coreOk c
  | .copyCommandStart c _ | .copySectorPerform c _ _ | .copyCommandComplete c _ => coreOk c
  | .startTokenRefill d | .deferredRailFall d _ | .telemetryRecord d | .heartbeat d | .heartbeatTimeout d
  | .diePowerOff d => dieOk d
  | .mgoRelocation o s => coreOk o && coreOk s && o / 8 == s / 8 && o != s
  | .rrotCollectiveStart c | .samplerTake c => decide (c < 64)
  | .unitDispatch c l | .recordDeposit c l => coreOk c && decide (l < 3)
  | .unitResumption _ c l => coreOk c && decide (l < 3)
  | .preemptionRequest v _ => ctxOk v
  | .doorbell fn q | .queueCreate fn q _ | .queueDestroy fn q | .launchPacket fn q | .replayPacket fn q
  | .fencePacket fn q | .fenceSatisfied fn q | .fenceTimeout fn q | .signalWritePacket fn q | .copyPacket fn q
  | .cancelPacket fn q | .streamAdmitPacket fn q | .streamModifyPacket fn q | .streamRetirePacket fn q
  | .boundsPacket fn q | .graphDefinePacket fn q | .graphDeletePacket fn q => queueOk fn q
  | .streamTimerRelease st | .deadlineMiss st => decide (st < 8192)
  | .graphNodeSubmit g n => decide (g < 4096) && decide (n < 256)
  | .graphInstanceComplete g => decide (g < 4096)
  | .flowWrite fn | .functionLevelReset fn | .registerWrite fn _ _ | .attestationRequest fn _ | .attestationDone fn
  | .bar2Access fn _ _ _ => decide (fn < 33)
  | .portDown p | .portUp p => decide (p < 4)
  | .pageRequestWrite p | .pageReplyRead p | .pageRequestTimeout p _ => decide (1 ≤ p ∧ p < 33)
  | _ => true

end Sys2Proof
end

