-- ==== Sys2Proof/Decode.lean ====
section
/-! DEFINITION. The decoder of bundles and syllables (R112, R113, R120 to R133), total on any bits, and the encoder
written from the same tables. A pattern that is not an instruction is rejected by name: `illegal` for what R133 calls
ILLEGAL_INSTR, `reserved` for what it calls RESERVED_FIELD. -/

namespace Sys2Proof

/-- Why a pattern is not an instruction (R133). -/
inductive DecodeError where
  /-- ILLEGAL_INSTR: an unassigned major, fn, cond, variant or element type. -/
  | illegal
  /-- RESERVED_FIELD: a field that must be zero is not, or a reserved value of an assigned field. -/
  | reserved
  deriving DecidableEq, Repr

/-- The fields of the R format (R120). -/
structure RF where
  d : Reg
  a : Reg
  b : Reg
  ea : Bool
  eb : Bool
  fn : BitVec 4
  imm : BitVec 16
  deriving DecidableEq, Repr

/-- The fields of the I format (R120). -/
structure IF where
  d : Reg
  a : Reg
  ea : Bool
  fn : BitVec 3
  imm : BitVec 24
  deriving DecidableEq, Repr

/-- The fields of the B format (R120). -/
structure BF where
  a : Reg
  ea : Bool
  cond : BitVec 3
  disp : BitVec 30
  deriving DecidableEq, Repr

/-- The fields of the M format (R120). -/
structure MF where
  d : Reg
  a : Reg
  l : BitVec 6
  ea : Bool
  ed : Bool
  fn : BitVec 4
  off : BitVec 16
  deriving DecidableEq, Repr

/-- The fields of the V format (R120). -/
structure VF where
  d : Reg
  a : Reg
  b : Reg
  n : Reg
  fn : BitVec 8
  rnd : BitVec 2
  m : Reg
  deriving DecidableEq, Repr

/-- The bits [39:0] of a syllable, read in the format that its major opcode fixes (R120). -/
inductive Fields where
  | r (f : RF)
  | i (f : IF)
  | b (f : BF)
  | m (f : MF)
  | e (f : EArgs)
  | v (f : VF)
  | x (v : BitVec 40)
  deriving DecidableEq, Repr

/-- The seven formats of R120. -/
inductive Format where
  | r | i | b | m | e | v | x
  deriving DecidableEq, Repr

/-- The low 40 bits of a syllable in the R format. -/
def packR (f : RF) : BitVec 40 :=
  f.d ++ f.a ++ f.b ++ BitVec.ofBool f.ea ++ BitVec.ofBool f.eb ++ f.fn ++ f.imm

/-- The low 40 bits of a syllable in the I format. -/
def packI (f : IF) : BitVec 40 :=
  f.d ++ f.a ++ BitVec.ofBool f.ea ++ f.fn ++ f.imm

/-- The low 40 bits of a syllable in the B format. -/
def packB (f : BF) : BitVec 40 :=
  f.a ++ BitVec.ofBool f.ea ++ f.cond ++ f.disp

/-- The low 40 bits of a syllable in the M format. -/
def packM (f : MF) : BitVec 40 :=
  f.d ++ f.a ++ f.l ++ BitVec.ofBool f.ea ++ BitVec.ofBool f.ed ++ f.fn ++ f.off

/-- The low 40 bits of a syllable in the E format. -/
def packE (f : EArgs) : BitVec 40 :=
  BitVec.ofBool f.ui ++ BitVec.ofBool f.dn ++ BitVec.ofBool f.di ++ BitVec.ofBool f.uo ++ BitVec.ofBool f.rel ++
    BitVec.ofBool f.arv ++ f.a ++ f.b ++ f.c ++ f.fn

/-- The low 40 bits of a syllable in the V format. -/
def packV (f : VF) : BitVec 40 :=
  f.d ++ f.a ++ f.b ++ f.n ++ f.fn ++ f.rnd ++ f.m

/-- Reads the R format. -/
def unpackR (w : BitVec 40) : RF where
  d := w.extractLsb' 34 6
  a := w.extractLsb' 28 6
  b := w.extractLsb' 22 6
  ea := w.getLsbD 21
  eb := w.getLsbD 20
  fn := w.extractLsb' 16 4
  imm := w.extractLsb' 0 16

/-- Reads the I format. -/
def unpackI (w : BitVec 40) : IF where
  d := w.extractLsb' 34 6
  a := w.extractLsb' 28 6
  ea := w.getLsbD 27
  fn := w.extractLsb' 24 3
  imm := w.extractLsb' 0 24

/-- Reads the B format. -/
def unpackB (w : BitVec 40) : BF where
  a := w.extractLsb' 34 6
  ea := w.getLsbD 33
  cond := w.extractLsb' 30 3
  disp := w.extractLsb' 0 30

/-- Reads the M format. -/
def unpackM (w : BitVec 40) : MF where
  d := w.extractLsb' 34 6
  a := w.extractLsb' 28 6
  l := w.extractLsb' 22 6
  ea := w.getLsbD 21
  ed := w.getLsbD 20
  fn := w.extractLsb' 16 4
  off := w.extractLsb' 0 16

/-- Reads the E format. -/
def unpackE (w : BitVec 40) : EArgs where
  ui := w.getLsbD 39
  dn := w.getLsbD 38
  di := w.getLsbD 37
  uo := w.getLsbD 36
  rel := w.getLsbD 35
  arv := w.getLsbD 34
  a := w.extractLsb' 28 6
  b := w.extractLsb' 22 6
  c := w.extractLsb' 16 6
  fn := w.extractLsb' 0 16

/-- Reads the V format. -/
def unpackV (w : BitVec 40) : VF where
  d := w.extractLsb' 34 6
  a := w.extractLsb' 28 6
  b := w.extractLsb' 22 6
  n := w.extractLsb' 16 6
  fn := w.extractLsb' 8 8
  rnd := w.extractLsb' 6 2
  m := w.extractLsb' 0 6

/-- The low 40 bits of a syllable with these fields. -/
def packFields : Fields → BitVec 40
  | .r f => packR f
  | .i f => packI f
  | .b f => packB f
  | .m f => packM f
  | .e f => packE f
  | .v f => packV f
  | .x v => v

/-- The fields of the low 40 bits of a syllable in a format. -/
def unpackFields (fm : Format) (w : BitVec 40) : Fields :=
  match fm with
  | .r => .r (unpackR w)
  | .i => .i (unpackI w)
  | .b => .b (unpackB w)
  | .m => .m (unpackM w)
  | .e => .e (unpackE w)
  | .v => .v (unpackV w)
  | .x => .x w

/-- The format of fields. -/
def Fields.format : Fields → Format
  | .r _ => .r
  | .i _ => .i
  | .b _ => .b
  | .m _ => .m
  | .e _ => .e
  | .v _ => .v
  | .x _ => .x

/-- The format of each major opcode (R127 to R131, R367); none for the unassigned majors of R133. -/
def formatOf (maj : Nat) : Option Format :=
  if maj = 0x00 then none
  else if maj ≤ 0x1A then some .r
  else if maj ≤ 0x1C then some .i
  else if maj = 0x1D then some .r
  else if maj ≤ 0x2F then none
  else if maj = 0x30 ∨ maj = 0x31 ∨ maj = 0x33 ∨ maj = 0x34 then some .b
  else if maj = 0x32 ∨ maj = 0x35 then some .r
  else if maj ≤ 0x39 then some .x
  else if maj = 0x3A then some .i
  else if maj = 0x3B then some .x
  else if maj ≤ 0x3D then some .i
  else if maj ≤ 0x3F then none
  else if maj ≤ 0x48 then some .m
  else if maj ≤ 0x4F then none
  else if maj ≤ 0x5B then some .m
  else if maj ≤ 0x5F then none
  else if maj = 0x60 then some .i
  else if maj ≤ 0x77 then some .r
  else if maj = 0x78 then some .i
  else if maj = 0x79 then some .x
  else if maj ≤ 0x7B then some .i
  else if maj ≤ 0x7F then none
  else if maj ≤ 0x8A then some .e
  else if maj ≤ 0x9F then none
  else if maj ≤ 0xC5 then some .v
  else if maj ≤ 0xCF then none
  else if maj ≤ 0xD9 then some .e
  else if maj ≤ 0xDF then none
  else if maj ≤ 0xEB then some .e
  else if maj ≤ 0xEE then some .r
  else if maj = 0xFE then some .x
  else if maj = 0xFF then some .x
  else none

/-- The result of decoding one syllable. -/
abbrev Dec := Except DecodeError Instr

/-- Two tests and a result: ILLEGAL_INSTR takes precedence over RESERVED_FIELD (R119). -/
def chk (illegal reserved : Bool) (i : Instr) : Dec :=
  if illegal then .error .illegal else if reserved then .error .reserved else .ok i

/-- The second source of R-format scalar instructions (R127), with whether its fields break a rule. -/
def decOp2 (f : RF) (bimm : BitVec 16) : Op2 × Bool :=
  if f.fn.getLsbD 3 then
    if f.b = 0 then (.imm f.imm, f.eb)
    else if f.b = 1 then (.wide (bimm ++ f.imm), f.eb)
    else (.imm f.imm, true)
  else (.reg f.b f.eb, f.imm != 0)

/-- The variant bits fn[2:0] of the R format. -/
def RF.var (f : RF) : Nat := (f.fn.extractLsb' 0 3).toNat

/-- A two-source scalar instruction whose only variant is 0. -/
def dec2 (f : RF) (bimm : BitVec 16) (mk : RArgs → Instr) : Dec :=
  let o := decOp2 f bimm
  chk (f.var != 0) o.2 (mk ⟨f.d, f.a, f.ea, o.1⟩)

/-- A two-source scalar instruction with variants .s and .n. -/
def dec2n (f : RF) (bimm : BitVec 16) (mk : Bool → RArgs → Instr) : Dec :=
  let o := decOp2 f bimm
  chk (decide (1 < f.var)) o.2 (mk (f.var == 1) ⟨f.d, f.a, f.ea, o.1⟩)

/-- A one-source scalar instruction (R146): b, eb, fn[3] and imm16 are zero. -/
def dec1 (f : RF) (mk : UArgs → Instr) : Dec :=
  chk (f.var != 0) (f.b != 0 || f.eb || f.fn.getLsbD 3 || f.imm != 0) (mk ⟨f.d, f.a, f.ea⟩)

/-- The field position and width rule of `bfx` and `bfi` (R146, R426). -/
def badField (f : RF) : Bool :=
  decide (64 < (f.imm.extractLsb' 0 6).toNat + (f.imm.extractLsb' 6 6).toNat + 1) ||
    f.imm.extractLsb' 12 4 != 0 || f.fn.getLsbD 3 || f.b != 0 || f.eb

/-- The operands of `bfx` and `bfi`. -/
def fargs (f : RF) : FArgs := ⟨f.d, f.a, f.ea, f.imm.extractLsb' 0 6, f.imm.extractLsb' 6 6⟩

/-- The group operand of R194 and whether its fields break a rule; `m` says which bits of fn must be zero. -/
def decG (f : RF) : GArgs × Bool :=
  if f.imm.getLsbD 15 then
    (⟨f.a, f.ea, some (f.imm.extractLsb' 0 6)⟩, f.imm.extractLsb' 6 9 != 0)
  else (⟨f.a, f.ea, none⟩, f.imm != 0)

/-- The core selection of `tlwait` and `tlread` (R192): whether it breaks a rule. -/
def badTl (f : RF) : Bool :=
  f.fn.getLsbD 3 || f.imm.extractLsb' 4 12 != 0 || (!f.imm.getLsbD 3 && (f.a != 0 || f.ea))

/-- The constructor of the kinds of `tlbi` (R171). -/
def tlbiOf (k : Nat) (t : TlbiArgs) : Instr :=
  match k with
  | 0 => .tlbiS1pg t
  | 1 => .tlbiS1all t
  | 2 => .tlbiS2pg t
  | 3 => .tlbiPart t
  | _ => .tlbiAll t

/-- Decodes an R-format syllable (R127, R128, R130, R167 to R177, R190 to R208, R367). -/
def decodeR (maj : Nat) (f : RF) (bimm : BitVec 16) : Dec :=
  let a : Src := ⟨f.a, f.ea⟩
  let b : Src := ⟨f.b, f.eb⟩
  let g := decG f
  let bz := f.b != 0 || f.eb
  let az := f.a != 0 || f.ea
  let dz := f.d != 0
  let fz := f.fn != 0
  let iz := f.imm != 0
  match maj with
  | 0x01 => dec2 f bimm .add
  | 0x02 => dec2 f bimm .sub
  | 0x03 => dec2 f bimm .mul
  | 0x04 => dec2n f bimm .mulh
  | 0x05 => dec2n f bimm .div
  | 0x06 => dec2n f bimm .rem
  | 0x07 => dec2 f bimm .madd
  | 0x08 => dec2 f bimm .and
  | 0x09 => dec2 f bimm .or
  | 0x0A => dec2 f bimm .xor
  | 0x0B => dec2 f bimm .andn
  | 0x0C => dec2 f bimm .orn
  | 0x0D => dec2 f bimm .shl
  | 0x0E => dec2 f bimm .shr
  | 0x0F => dec2 f bimm .sra
  | 0x10 => dec2 f bimm .rot
  | 0x11 => dec2n f bimm .min
  | 0x12 => dec2n f bimm .max
  | 0x13 => dec1 f .abs
  | 0x14 => dec1 f .clz
  | 0x15 => dec1 f .ctz
  | 0x16 => dec1 f .popc
  | 0x17 => chk (decide (1 < f.var)) (badField f) (.bfx (f.var == 1) (fargs f))
  | 0x18 => chk (f.var != 0) (badField f) (.bfi (fargs f))
  | 0x19 => dec2 f bimm .sel
  | 0x1A =>
    let o := decOp2 f bimm
    chk (decide (5 < f.var)) o.2 (.cmp (f.fn.extractLsb' 0 3) ⟨f.d, f.a, f.ea, o.1⟩)
  | 0x1D =>
    let o := decOp2 f bimm
    chk (decide (3 < f.var)) o.2 (.lea (f.fn.extractLsb' 0 2) ⟨f.d, f.a, f.ea, o.1⟩)
  | 0x32 => chk false (dz || bz || fz || iz) (.jr a)
  | 0x35 => chk false (dz || bz || fz || iz) (.ret a)
  | 0x61 =>
    chk (decide (5 < f.var)) (dz || badTl f || decide (5 < (f.imm.extractLsb' 0 3).toNat))
      (.tlwait ⟨f.fn.extractLsb' 0 3, f.imm.extractLsb' 0 3, f.imm.getLsbD 3, a, b⟩)
  | 0x62 =>
    chk (decide (5 < f.var)) (bz || badTl f || f.imm.extractLsb' 0 3 != 0)
      (.tlread (f.fn.extractLsb' 0 3) f.d (f.imm.getLsbD 3) a)
  | 0x63 =>
    chk (decide (5 < f.var)) (az || bz || f.fn.getLsbD 3 || iz) (.tlmark (f.fn.extractLsb' 0 3) f.d)
  | 0x64 => chk false (fz || g.2) (.gnew f.d g.1 b)
  | 0x65 => chk false (fz || g.2 || bz) (.join f.d g.1)
  | 0x66 => chk false (fz || g.2 || bz || dz) (.leave g.1)
  | 0x67 => chk false (fz || g.2 || bz || dz) (.bar g.1)
  | 0x68 => chk false (fz || g.2 || bz) (.arrive f.d g.1)
  | 0x69 => chk false (fz || g.2 || dz) (.bwait g.1 b)
  | 0x6A => chk false (f.fn.getLsbD 3 || g.2 || bz || dz) (.cbind (f.fn.extractLsb' 0 3) g.1)
  | 0x6B => chk false (f.fn.getLsbD 3 || az || bz || dz || iz) (.cunbind (f.fn.extractLsb' 0 3))
  | 0x6C => chk false (fz || f.imm.extractLsb' 5 11 != 0) (.send f.d a b (f.imm.extractLsb' 0 5))
  | 0x6D => chk false (fz || bz || iz) (.card f.d a)
  | 0x6E => chk false (fz || bz || iz) (.jcancel f.d a)
  | 0x6F => chk false (fz || bz || iz) (.jpoll f.d a)
  | 0x70 =>
    chk false (f.ea || fz || iz || decide (f.d.toNat < 48) || decide (62 < f.d.toNat) || f.a == 63)
      (.lview f.d f.a b)
  | 0x71 => chk false (bz || f.ea || fz || f.imm.extractLsb' 3 13 != 0) (.lget f.d f.a (f.imm.extractLsb' 0 3))
  | 0x72 =>
    chk (decide (4 < f.var))
      (dz || f.fn.getLsbD 3 || f.imm.extractLsb' 3 13 != 0 || decide ((f.imm.extractLsb' 0 3).toNat < 2) ||
        decide (4 < (f.imm.extractLsb' 0 3).toNat))
      (tlbiOf f.var ⟨f.imm.extractLsb' 0 3, a, b⟩)
  | 0x73 =>
    chk (decide (1 < f.var)) (dz || bz || iz || f.fn.getLsbD 3)
      (if f.var = 0 then .quiesceHold a else .quiesceRel a)
  | 0x74 => chk false (f.fn.extractLsb' 1 3 != 0 || bz || iz) (.pgrel (f.fn.getLsbD 0) f.d a)
  | 0x75 => chk false (fz || iz) (.ctxsave f.d a b)
  | 0x76 => chk false (fz || iz) (.ctxload f.d a b)
  | 0x77 => chk false (fz || bz || iz) (.ctxkill f.d a)
  | 0xEC =>
    if f.var = 0 then chk false (f.fn.getLsbD 3 || bz || f.imm.extractLsb' 4 12 != 0) (.gpgetGp f.d a (f.imm.extractLsb' 0 4))
    else chk (f.var != 1) (f.fn.getLsbD 3 || bz || az || f.imm.extractLsb' 2 14 != 0) (.gpgetCm f.d (f.imm.extractLsb' 0 2))
  | 0xED => chk false (fz || f.imm.extractLsb' 4 12 != 0) (.gpset f.d a b (f.imm.extractLsb' 0 4))
  | 0xEE => chk false (fz || bz || iz) (.grepl f.d a)
  | _ => .error .illegal

/-- The registers of R160, as (number, writable, supervisor only). A number absent from it names no register. -/
def sysRegKnown (n : Nat) : Bool :=
  n ≤ 0x004 || n == 0x008 || n == 0x009 || n == 0x010 || n == 0x011 || n == 0x018 || n == 0x020 || n == 0x021 ||
    n == 0x028 || (0x030 ≤ n && n ≤ 0x03C) || (0x040 ≤ n && n ≤ 0x043) || n == 0x080 || (0x088 ≤ n && n ≤ 0x08B)

/-- The registers of R160 that have a writable field (R159). -/
def sysRegWritable (n : Nat) : Bool :=
  n == 0x009 || n == 0x010 || n == 0x011 || n == 0x020 || n == 0x021 || (0x031 ≤ n && n ≤ 0x03C) || n == 0x080 ||
    (0x088 ≤ n && n ≤ 0x08B)

/-- Which constructor stands for an `srw` to register number n (R159; rows of the opcode table). -/
def srwOf (a : Src) (n : BitVec 12) : Instr :=
  match n.toNat with
  | 0x020 => .flagsW1cWrite a false
  | 0x021 => .flagsW1cWrite a true
  | 0x038 => .arrivalRegisterWrite a 0
  | 0x039 => .arrivalRegisterWrite a 1
  | 0x03A => .arrivalRegisterWrite a 2
  | 0x03B => .arrivalRegisterWrite a 3
  | 0x03C => .arrivalRegisterWrite a 4
  | 0x080 => .handlerLimitWrite a
  | 0x088 => .paddockRegisterWrite a 0
  | 0x089 => .paddockRegisterWrite a 1
  | 0x08A => .paddockRegisterWrite a 2
  | 0x08B => .paddockRegisterWrite a 3
  | _ => .srw a n

/-- Decodes an I-format syllable (R127, R128, R130). -/
def decodeI (maj : Nat) (f : IF) (bimm : BitVec 16) : Dec :=
  let a : Src := ⟨f.a, f.ea⟩
  let az := f.a != 0 || f.ea
  let dz := f.d != 0
  let fz := f.fn != 0
  let n := f.imm.extractLsb' 0 12
  match maj with
  | 0x1B =>
    chk (decide (1 < f.fn.toNat)) az
      (.movi f.d (if f.fn = 0 then .narrow f.imm else .wide (bimm ++ f.imm)))
  | 0x1C => chk fz az (.movh f.d f.imm)
  | 0x3A => chk false (dz || az || fz) (.trap f.imm)
  | 0x3C => chk (!sysRegKnown n.toNat) (az || fz || f.imm.extractLsb' 12 12 != 0) (.srr f.d n)
  | 0x3D => chk (!sysRegWritable n.toNat) (dz || fz || f.imm.extractLsb' 12 12 != 0) (srwOf a n)
  | 0x60 =>
    chk (decide (f.fn.toNat = 0 ∨ 3 < f.fn.toNat))
      (dz || az || f.imm.extractLsb' 3 21 != 0 || decide (5 < (f.imm.extractLsb' 0 3).toNat))
      (.fence (f.fn.extractLsb' 0 2) (f.imm.extractLsb' 0 3))
  | 0x78 => chk false (dz || az || fz || f.imm.extractLsb' 6 18 != 0 || f.imm == 0) (.pacq (f.imm.extractLsb' 0 6))
  | 0x7A => chk false (dz || az || fz || f.imm.extractLsb' 3 21 != 0) (.pvote (f.imm.extractLsb' 0 3))
  | 0x7B => chk false (dz || az || fz || f.imm.extractLsb' 4 20 != 0) (.aprof (f.imm.extractLsb' 0 4))
  | _ => .error .illegal

/-- Decodes a B-format syllable (R128). -/
def decodeB (maj : Nat) (f : BF) (bimm : BitVec 16) : Dec :=
  match maj with
  | 0x30 => .ok (.br ⟨f.cond, f.a, f.ea, if 6 ≤ f.cond.toNat then bimm.extractLsb' 0 6 else 0, f.disp⟩)
  | 0x31 => chk false (f.a != 0 || f.ea || f.cond != 0) (.jmp f.disp)
  | 0x33 => chk false (f.ea || f.cond != 0) (.call f.a f.disp)
  | 0x34 => chk false (f.ea || f.cond != 0 || decide (1 < f.a.toNat)) (.loop (f.a == 1) f.disp)
  | _ => .error .illegal

/-- The location of a tagged access (R178), with whether it breaks a rule. -/
def decMLoc (f : MF) : MLoc × Bool :=
  if f.fn.getLsbD 3 then (.lay f.l, f.off != 0) else (.off f.off, f.l != 0)

/-- The variant bits fn[2:0] of the M format. -/
def MF.var (f : MF) : Nat := (f.fn.extractLsb' 0 3).toNat

/-- A tagged instruction (R183); `rd` says that d is read, so that ed applies to it. -/
def decTag (f : MF) (rd : Bool) (mk : MArgs → Instr) : Dec :=
  let l := decMLoc f
  chk false (f.var != 0 || l.2 || (!rd && f.ed)) (mk ⟨f.d, f.a, f.ea, f.ed, l.1⟩)

/-- The operands of an atomic (R129, R184, R185). -/
def aargs (f : MF) : AArgs where
  d := f.d
  a := f.a
  ea := f.ea
  ed := f.ed
  lay := if f.fn.getLsbD 3 then some f.l else none
  w64 := f.fn.getLsbD 0
  ord := f.off.extractLsb' 0 2
  scope := f.off.extractLsb' 2 3

/-- What every atomic must have zero or in range (R129, R428). -/
def badAtomic (f : MF) : Bool :=
  decide (5 < (f.off.extractLsb' 2 3).toNat) || f.off.extractLsb' 5 11 != 0 || f.fn.getLsbD 2 ||
    (!f.fn.getLsbD 3 && f.l != 0)

/-- An atomic with a width bit and no .n bit; `pair` says that x(d+1) is read too. -/
def decAmo (f : MF) (pair : Bool) (mk : AArgs → Instr) : Dec :=
  chk false (badAtomic f || f.fn.getLsbD 1 || (pair && f.d == 63)) (mk (aargs f))

/-- Decodes an M-format syllable (R129, R180 to R189). -/
def decodeM (maj : Nat) (f : MF) : Dec :=
  let a : Src := ⟨f.a, f.ea⟩
  let d : Src := ⟨f.d, f.ed⟩
  let lay := f.fn.getLsbD 3
  match maj with
  | 0x40 => chk lay (f.l != 0 || f.ed) (.ldl (f.fn.extractLsb' 0 2) (f.fn.getLsbD 2) f.d a f.off)
  | 0x41 => chk lay (f.l != 0 || f.fn.getLsbD 2) (.stl (f.fn.extractLsb' 0 2) d a f.off)
  | 0x42 => chk (!lay) (f.off != 0 || f.fn.extractLsb' 0 2 != 0 || f.ed) (.ldg (f.fn.getLsbD 2) f.d a f.l)
  | 0x43 => chk (!lay) (f.off != 0 || f.var != 0) (.stg d a f.l)
  | 0x44 => decTag f false .ldf
  | 0x45 => decTag f true .ste
  | 0x46 => decTag f false .ldpk
  | 0x47 => decTag f true .stf
  | 0x48 => chk (!lay) (f.off != 0 || f.var != 0 || f.d != 0 || f.ed) (.pref a f.l)
  | 0x50 => decAmo f false .amoAdd
  | 0x51 => decAmo f false .amoAnd
  | 0x52 => decAmo f false .amoOr
  | 0x53 => decAmo f false .amoXor
  | 0x54 => chk false (badAtomic f) (.amoMin (f.fn.getLsbD 1) (aargs f))
  | 0x55 => chk false (badAtomic f) (.amoMax (f.fn.getLsbD 1) (aargs f))
  | 0x56 => decAmo f false .amoSwap
  | 0x57 => decAmo f true .amoCas
  | 0x58 => decAmo f false .amoIncw
  | 0x59 => decAmo f true .amoAddb
  | 0x5A => chk false (badAtomic f || f.fn.getLsbD 1 || f.fn.getLsbD 0) (.amoFadd (aargs f))
  | 0x5B => chk false (badAtomic f || f.fn.getLsbD 1 || f.fn.getLsbD 0) (.amoSadd (aargs f))
  | _ => .error .illegal

/-- Bits [5:3] of a tile or accumulator number (R233). -/
def badTile (r : Reg) : Bool := r.extractLsb' 3 3 != 0

/-- What the operand forms of `mma` require to be zero or in range (R234, R430). -/
def badMma (f : EArgs) : Bool :=
  let asrc := f.fn.getLsbD 15
  let bsrc := f.fn.getLsbD 13
  let sp := f.fn.extractLsb' 6 2
  f.fn.extractLsb' 0 6 != 0 || sp == 3 || badTile f.c || (asrc && f.fn.getLsbD 14) || (bsrc && f.fn.getLsbD 12) ||
    (!bsrc && f.fn.extractLsb' 8 4 == 2) || (sp != 0 && !asrc) ||
    (if asrc then f.a == 63 else badTile f.a) || (if bsrc then f.b == 63 else badTile f.b)

/-- Fields [7:0] zero and scope at most 4: common to the copy instructions but `cmsg` and `cpref` (R280). -/
def badCopyFn (f : EArgs) : Bool :=
  f.fn.extractLsb' 0 8 != 0 || decide (4 < (f.fn.extractLsb' 13 3).toNat) || f.rel

/-- What every GX command requires to be zero (R338). -/
def badGx (f : EArgs) : Bool :=
  f.ui || f.dn || f.di || f.uo || f.rel || f.fn.extractLsb' 0 13 != 0 || decide (4 < (f.fn.extractLsb' 13 3).toNat)

/-- Decodes an E-format syllable (R131, R233, R280, R341). -/
def decodeE (maj : Nat) (f : EArgs) : Dec :=
  let az := f.a != 0
  let bz := f.b != 0
  let cz := f.c != 0
  let tk := f.ui || f.dn || f.di || f.uo || f.arv
  let sel := f.fn.extractLsb' 8 3
  match maj with
  | 0x80 =>
    chk false (tk || f.rel || bz || cz || f.fn.extractLsb' 10 6 != 0 || f.fn.extractLsb' 0 10 == 0) (.mcfg f)
  | 0x81 =>
    chk false (tk || f.rel || bz || cz || f.fn.extractLsb' 6 10 != 0 || decide (45 < (f.fn.extractLsb' 0 6).toNat))
      (.mcfgr f)
  | 0x82 => chk false (az || bz || badTile f.c || f.fn != 0) (.mgo f)
  | 0x83 => chk (decide (2 < (f.fn.extractLsb' 8 4).toNat)) (f.rel || badMma f) (.mma f)
  | 0x84 => chk false (f.rel || az || bz || badTile f.c || f.fn != 0) (.acz f)
  | 0x85 =>
    chk false (f.rel || bz || badTile f.c || f.fn.extractLsb' 2 14 != 0 || f.fn == 3)
      (if f.fn.getLsbD 0 then .acmvLd f else .acmvSt f)
  | 0x86 => chk false (f.rel || bz || badTile f.c || f.a == 63 || f.fn.extractLsb' 9 7 != 0) (.zld f)
  | 0x87 => chk false (f.rel || bz || badTile f.c || f.a == 63 || f.fn.extractLsb' 9 6 != 0) (.zst f)
  | 0x88 =>
    chk false (f.rel || az || bz || badTile f.c || f.fn.extractLsb' 1 15 != 0)
      (if f.fn.getLsbD 0 then .zclrZ f else .zclrE f)
  | 0x89 =>
    chk false (f.rel || cz || f.fn.extractLsb' 9 6 != 0) (if f.fn.getLsbD 15 then .rrotDn f else .rrotUp f)
  | 0x8A => chk false (f.rel || bz || cz || f.a == 63 || f.fn != 0) (.mtab f)
  | 0xD0 => chk false (badCopyFn f || sel != 0 || bz || cz) (.cpin f)
  | 0xD1 => chk false (badCopyFn f || sel != 0 || bz || cz) (.cpout f)
  | 0xD2 => chk false (badCopyFn f || f.fn.extractLsb' 9 2 != 0 || cz) (.cpx f)
  | 0xD3 => chk false (badCopyFn f || decide (5 < sel.toNat) || cz) (.cgather f)
  | 0xD4 => chk false (badCopyFn f || decide (5 < sel.toNat) || cz) (.cscatter f)
  | 0xD5 => chk false (badCopyFn f || sel != 0 || cz) (.cfill f)
  | 0xD6 => chk (decide (2 < sel.toNat)) (badCopyFn f || bz || cz) (.cred f)
  | 0xD7 => chk false (f.rel || f.fn != 0) (.cmsg f)
  | 0xD8 => chk false (badCopyFn f || sel != 0 || cz) (.cmirror f)
  | 0xD9 => chk false (f.rel || f.fn != 0 || bz || cz) (.cpref f)
  | 0xE0 => chk false (badGx f || cz) (.ctrOpen f)
  | 0xE1 => chk false (badGx f || bz || cz) (.ctrClose f)
  | 0xE2 => chk false (badGx f) (.ctrAppend f)
  | 0xE3 => chk false (badGx f) (.ctrProp f)
  | 0xE4 => chk false (badGx f) (.ctrSave f)
  | 0xE5 => chk false (badGx f) (.ctrLoad f)
  | 0xE6 => chk false (badGx f || cz) (.ctrTrim f)
  | 0xE7 => chk false (badGx f || cz) (.smpRun f)
  | 0xE8 => chk false (badGx f || cz) (.smpAccept f)
  | 0xE9 => chk false (badGx f) (.kvtOpen f)
  | 0xEA => chk false (badGx f) (.kvtCommit f)
  | 0xEB => chk false (badGx f || bz || cz) (.kvtDrop f)
  | _ => .error .illegal

/-- The constructor of a V-format major (R131). -/
def vecOf (maj : Nat) (v : VArgs) : Instr :=
  match maj with
  | 0xA0 => .vadd v
  | 0xA1 => .vsub v
  | 0xA2 => .vmul v
  | 0xA3 => .vfma v
  | 0xA4 => .vdiv v
  | 0xA5 => .vsqrt v
  | 0xA6 => .vrsqrt v
  | 0xA7 => .vmin v
  | 0xA8 => .vmax v
  | 0xA9 => .vabs v
  | 0xAA => .vneg v
  | 0xAB => .vand v
  | 0xAC => .vor v
  | 0xAD => .vxor v
  | 0xAE => .vshl v
  | 0xAF => .vshr v
  | 0xB0 => .vsra v
  | 0xB1 => .vcmp v
  | 0xB2 => .vsel v
  | 0xB3 => .vcvt v
  | 0xB4 => .vsadd v
  | 0xB5 => .vssub v
  | 0xB6 => .vsmul v
  | 0xB7 => .vsdiv v
  | 0xB8 => .vsexp v
  | 0xB9 => .vslog v
  | 0xBA => .vred v
  | 0xBB => .vscan v
  | 0xBC => .vperm v
  | 0xBD => .vshuf v
  | 0xBE => .vbcast v
  | 0xBF => .vepi v
  | 0xC0 => .vfn v
  | 0xC1 => .vtab v
  | 0xC2 => .vfill v
  | 0xC3 => .vmov v
  | 0xC4 => .vlds v
  | _ => .vsts v

/-- Whether a type and variant are listed for a V-format major (R248, R252 to R271, R432). -/
def vecListed (maj ty var : Nat) : Bool :=
  let int := decide (ty < 6)
  let fp := ty == 6 || ty == 7
  let sli := ty == 8 || ty == 9
  if maj ≤ 0xA3 then (int && decide (var < 4)) || (fp && (var == 0 || var == 2))
  else if maj = 0xA4 then fp && (var == 0 || var == 2)
  else if maj ≤ 0xA6 then fp && var == 0
  else if maj ≤ 0xA8 then decide (ty < 10) && (var == 0 || var == 2)
  else if maj ≤ 0xAA then (decide (ty < 3) && decide (var < 2)) || ((fp || sli) && var == 0)
  else if maj ≤ 0xB0 then int && (var == 0 || var == 2)
  else if maj = 0xB1 then decide (ty < 10) && decide (var % 8 < 6)
  else if maj = 0xB2 then decide (ty < 10) && (var == 0 || var == 2)
  else if maj = 0xB3 then decide (ty < 10) && decide (var < 10) && ty != var
  else if maj ≤ 0xB7 then sli && (var == 0 || var == 2)
  else if maj ≤ 0xB9 then sli && var == 0
  else if maj ≤ 0xBB then
    (var == 0 && (int || fp)) || (var == 8 && int) || ((var == 1 || var == 2) && decide (ty < 10)) || (var == 3 && sli)
  else if maj = 0xBC then decide (ty < 10) && var == 0
  else if maj = 0xBD then decide (ty < 10) && decide (var < 5)
  else if maj = 0xBE then decide (ty < 10) && var == 0
  else if maj = 0xBF then decide (ty < 10) && decide (var < 2)
  else if maj = 0xC0 then fp && decide (var < 8)
  else if maj = 0xC2 ∨ maj = 0xC3 then decide (ty < 10) && var == 0
  else if maj = 0xC4 ∨ maj = 0xC5 then decide (ty < 10) && var == 0
  else decide (ty < 10)

/-- Whether the command of a major rounds, so that rnd names a mode (R248); elsewhere rnd must be 0. -/
def vecRounds (maj ty var : Nat) : Bool :=
  let fp := ty == 6 || ty == 7
  if maj ≤ 0xA6 then fp
  else if maj = 0xB3 then decide (ty < 8) && !(decide (ty < 6) && decide (var < 6)) && !(ty == 7 && var == 6)
  else if maj = 0xBA ∨ maj = 0xBB then fp && decide (var < 3)
  else maj == 0xBF || maj == 0xC0

/-- The register fields that a V-format major uses, as (d, a, b, n, m). -/
def vecUses (maj var : Nat) : Bool × Bool × Bool × Bool × Bool :=
  if maj = 0xA5 ∨ maj = 0xA6 ∨ maj = 0xA9 ∨ maj = 0xAA then (true, true, false, true, true)
  else if maj = 0xB3 ∨ maj = 0xB8 ∨ maj = 0xB9 ∨ maj = 0xBA ∨ maj = 0xBB ∨ maj = 0xC0 ∨ maj = 0xC3 then
    (true, true, false, true, true)
  else if maj = 0xBF ∨ maj = 0xC4 ∨ maj = 0xC5 then (true, true, true, false, false)
  else if maj = 0xC1 then (false, true, false, false, false)
  else if maj = 0xC2 then (true, false, true, true, true)
  else (true, true, true, true, var ≤ 15)

/-- What a V-format syllable must have zero (R248, R257, R266, R268, R269). (DEDUCED, log 101.) -/
def vecReserved (maj : Nat) (f : VF) : Bool :=
  let ty := (f.fn.extractLsb' 4 4).toNat
  let var := (f.fn.extractLsb' 0 4).toNat
  let u := vecUses maj var
  (!u.1 && f.d != 0) || (!u.2.1 && f.a != 0) || (!u.2.2.1 && f.b != 0) || (!u.2.2.2.1 && f.n != 0) ||
    (!u.2.2.2.2 && f.m != 0) || (f.rnd != 0 && !vecRounds maj ty var) || (maj == 0xB2 && f.m == 0) ||
    (maj == 0xC1 && (decide (7 < var) || ty != 0))

/-- The token bits of a V syllable (R120): bimm[7:4] for slot 0, bimm[3:0] for slot 1. -/
def vecTok (slot1 : Bool) (bimm : BitVec 16) : BitVec 4 :=
  if slot1 then bimm.extractLsb' 0 4 else bimm.extractLsb' 4 4

/-- Decodes a V-format syllable (R131, R248). -/
def decodeV (maj : Nat) (slot1 : Bool) (f : VF) (bimm : BitVec 16) : Dec :=
  let ty := f.fn.extractLsb' 4 4
  let var := f.fn.extractLsb' 0 4
  chk (!vecListed maj ty.toNat var.toNat) (vecReserved maj f)
    (vecOf maj ⟨f.d, f.a, f.b, f.n, ty, var, f.rnd, f.m, vecTok slot1 bimm⟩)

/-- Decodes an X-format syllable (R124, R128, R132). REP stands only in slot 0 (R125). -/
def decodeX (maj : Nat) (slot1 : Bool) (v : BitVec 40) : Dec :=
  match maj with
  | 0x36 => chk false (v != 0) .ppt
  | 0x37 => chk false (v != 0) .step
  | 0x38 => chk false (v != 0) .tend
  | 0x39 => chk false (v != 0) .idle
  | 0x3B => chk false (v != 0) .tret
  | 0x79 => chk false (v != 0) .prel
  | 0xFE =>
    chk slot1 (v.extractLsb' 0 28 != 0)
      (.rep (v.extractLsb' 34 6) (v.extractLsb' 32 2) (v.extractLsb' 30 2) (v.extractLsb' 28 2))
  | 0xFF => chk (v != BitVec.allOnes 40) false .nop
  | _ => .error .illegal

/-- Decodes the fields of a syllable. -/
def decodeFields (maj : Nat) (slot1 : Bool) (f : Fields) (bimm : BitVec 16) : Dec :=
  match f with
  | .r f => decodeR maj f bimm
  | .i f => decodeI maj f bimm
  | .b f => decodeB maj f bimm
  | .m f => decodeM maj f
  | .e f => decodeE maj f
  | .v f => decodeV maj slot1 f bimm
  | .x v => decodeX maj slot1 v

/-- Decodes a syllable (R120 to R133), given the slot it stands in and the bundle immediate. -/
def decodeSyllable (slot1 : Bool) (bimm : BitVec 16) (w : Syl) : Dec :=
  let maj := (w.extractLsb' 40 8).toNat
  match formatOf maj with
  | none => .error .illegal
  | some fm => decodeFields maj slot1 (unpackFields fm (w.extractLsb' 0 40)) bimm

/-- The header of a bundle (R113). -/
structure Header where
  h : Bool
  s : Bool
  wsel : BitVec 3
  wimm : BitVec 11
  bimm : BitVec 16
  deriving DecidableEq, Repr

/-- The 32 bits of a header. -/
def packHeader (h : Header) : BitVec 32 :=
  BitVec.ofBool h.h ++ BitVec.ofBool h.s ++ h.wsel ++ h.wimm ++ h.bimm

/-- Reads a header. -/
def unpackHeader (w : BitVec 32) : Header where
  h := w.getLsbD 31
  s := w.getLsbD 30
  wsel := w.extractLsb' 27 3
  wimm := w.extractLsb' 16 11
  bimm := w.extractLsb' 0 16

/-- The header of a bundle with nothing set. -/
def Header.zero : Header := ⟨false, false, 0, 0, 0⟩

/-- A bundle (R112): header in [31:0], slot 0 in [79:32], slot 1 in [127:80]. -/
structure Bundle where
  hdr : BitVec 32
  s0 : Syl
  s1 : Syl
  deriving DecidableEq, Repr

/-- Reads the 128 bits of a bundle. -/
def unpackBundle (w : BitVec 128) : Bundle where
  hdr := w.extractLsb' 0 32
  s0 := w.extractLsb' 32 48
  s1 := w.extractLsb' 80 48

/-- The 128 bits of a bundle. -/
def packBundle (b : Bundle) : BitVec 128 := b.s1 ++ b.s0 ++ b.hdr

/-- The little-endian value of bytes, lowest address first (R4). -/
def bytesToNat : List Byte → Nat
  | [] => 0
  | b :: t => b.toNat + 256 * bytesToNat t

/-- The n little-endian bytes of a value. -/
def natToBytes : Nat → Nat → List Byte
  | 0, _ => []
  | n + 1, v => BitVec.ofNat 8 v :: natToBytes n (v / 256)

/-- Reads a bundle from its sixteen bytes (R112). -/
def bundleOfBytes (bs : List Byte) : Bundle := unpackBundle (BitVec.ofNat 128 (bytesToNat bs))

/-- The NOP (R132). -/
def nopSyl : Syl := BitVec.allOnes 48

/-- An encoded syllable: major opcode, fields, and the bits of the bundle immediate it wants. -/
structure Enc where
  maj : BitVec 8
  f : Fields
  bimm : BitVec 16
  deriving DecidableEq, Repr

/-- The 48 bits of an encoded syllable. -/
def Enc.word (e : Enc) : Syl := e.maj ++ packFields e.f

/-- R-format fields of a two-source scalar instruction with variant v. -/
def encR (maj : BitVec 8) (v : BitVec 3) (r : RArgs) : Enc :=
  match r.op2 with
  | .reg b eb => ⟨maj, .r ⟨r.d, r.a, b, r.ea, eb, 0#1 ++ v, 0⟩, 0⟩
  | .imm i => ⟨maj, .r ⟨r.d, r.a, 0, r.ea, false, 1#1 ++ v, i⟩, 0⟩
  | .wide i => ⟨maj, .r ⟨r.d, r.a, 1, r.ea, false, 1#1 ++ v, i.extractLsb' 0 16⟩, i.extractLsb' 16 16⟩

/-- R-format fields of a one-source scalar instruction. -/
def encU (maj : BitVec 8) (u : UArgs) : Enc := ⟨maj, .r ⟨u.d, u.a, 0, u.ea, false, 0, 0⟩, 0⟩

/-- R-format fields of a bit-field instruction. -/
def encF (maj : BitVec 8) (v : BitVec 4) (f : FArgs) : Enc :=
  ⟨maj, .r ⟨f.d, f.a, 0, f.ea, false, v, 0#4 ++ f.wm1 ++ f.p⟩, 0⟩

/-- The R-format fields of an instruction with two sources, a selector and an immediate. -/
def encP (maj : BitVec 8) (d : Reg) (a b : Src) (fn : BitVec 4) (imm : BitVec 16) : Enc :=
  ⟨maj, .r ⟨d, a.r, b.r, a.e, b.e, fn, imm⟩, 0⟩

/-- The zero source. -/
def Src.zero : Src := ⟨0, false⟩

/-- R-format fields of a group or chute instruction (R194). -/
def encG (maj : BitVec 8) (d : Reg) (g : GArgs) (b : Src) (fn : BitVec 4) : Enc :=
  match g.lay with
  | none => ⟨maj, .r ⟨d, g.a, b.r, g.ea, b.e, fn, 0⟩, 0⟩
  | some l => ⟨maj, .r ⟨d, g.a, b.r, g.ea, b.e, fn, 1#1 ++ 0#9 ++ l⟩, 0⟩

/-- The I-format fields of an instruction. -/
def encI (maj : BitVec 8) (d : Reg) (a : Src) (fn : BitVec 3) (imm : BitVec 24) : Enc := ⟨maj, .i ⟨d, a.r, a.e, fn, imm⟩, 0⟩

/-- M-format fields of a tagged instruction. -/
def encT (maj : BitVec 8) (m : MArgs) : Enc :=
  match m.loc with
  | .off o => ⟨maj, .m ⟨m.d, m.a, 0, m.ea, m.ed, 0, o⟩, 0⟩
  | .lay l => ⟨maj, .m ⟨m.d, m.a, l, m.ea, m.ed, 8, 0⟩, 0⟩

/-- M-format fields of an atomic with its .n bit. -/
def encA (maj : BitVec 8) (n : Bool) (m : AArgs) : Enc :=
  let fn (lay : BitVec 1) : BitVec 4 := lay ++ 0#1 ++ BitVec.ofBool n ++ BitVec.ofBool m.w64
  let off : BitVec 16 := 0#11 ++ m.scope ++ m.ord
  match m.lay with
  | none => ⟨maj, .m ⟨m.d, m.a, 0, m.ea, m.ed, fn 0, off⟩, 0⟩
  | some l => ⟨maj, .m ⟨m.d, m.a, l, m.ea, m.ed, fn 1, off⟩, 0⟩

/-- E-format fields. -/
def encE (maj : BitVec 8) (f : EArgs) : Enc := ⟨maj, .e f, 0⟩

/-- V-format fields; the token bits go to the bundle immediate (R120). -/
def encV (slot1 : Bool) (maj : BitVec 8) (v : VArgs) : Enc :=
  ⟨maj, .v ⟨v.d, v.a, v.b, v.n, v.ty ++ v.var, v.rnd, v.m⟩,
    if slot1 then 0#12 ++ v.tok else 0#8 ++ v.tok ++ 0#4⟩

/-- X-format fields. -/
def encX (maj : BitVec 8) (v : BitVec 40) : Enc := ⟨maj, .x v, 0⟩

/-- `tlwait` and `tlread` core selection, imm16[3]. -/
def tlImm (scope : BitVec 3) (remote : Bool) : BitVec 16 := 0#12 ++ BitVec.ofBool remote ++ scope

/-- An `srw` to system register n. -/
def encSrw (a : Src) (n : BitVec 12) : Enc := encI 0x3D 0 a 0 (0#12 ++ n)

/-- The encoding of an instruction that has one (R127 to R132), in slot 0 or slot 1. Rows that are steps of the device or
inputs from outside have none. (DESIGN CHOICE, log 110.) -/
def encode (slot1 : Bool) : Instr → Option Enc
  | .add r => some (encR 0x01 0 r)
  | .sub r => some (encR 0x02 0 r)
  | .mul r => some (encR 0x03 0 r)
  | .mulh n r => some (encR 0x04 (0#2 ++ BitVec.ofBool n) r)
  | .div n r => some (encR 0x05 (0#2 ++ BitVec.ofBool n) r)
  | .rem n r => some (encR 0x06 (0#2 ++ BitVec.ofBool n) r)
  | .madd r => some (encR 0x07 0 r)
  | .and r => some (encR 0x08 0 r)
  | .or r => some (encR 0x09 0 r)
  | .xor r => some (encR 0x0A 0 r)
  | .andn r => some (encR 0x0B 0 r)
  | .orn r => some (encR 0x0C 0 r)
  | .shl r => some (encR 0x0D 0 r)
  | .shr r => some (encR 0x0E 0 r)
  | .sra r => some (encR 0x0F 0 r)
  | .rot r => some (encR 0x10 0 r)
  | .min n r => some (encR 0x11 (0#2 ++ BitVec.ofBool n) r)
  | .max n r => some (encR 0x12 (0#2 ++ BitVec.ofBool n) r)
  | .abs u => some (encU 0x13 u)
  | .clz u => some (encU 0x14 u)
  | .ctz u => some (encU 0x15 u)
  | .popc u => some (encU 0x16 u)
  | .bfx n f => some (encF 0x17 (0#3 ++ BitVec.ofBool n) f)
  | .bfi f => some (encF 0x18 0 f)
  | .sel r => some (encR 0x19 0 r)
  | .cmp c r => some (encR 0x1A c r)
  | .movi d (.narrow v) => some (encI 0x1B d .zero 0 v)
  | .movi d (.wide v) => some { encI 0x1B d .zero 1 (v.extractLsb' 0 24) with bimm := v.extractLsb' 24 16 }
  | .movh d i => some (encI 0x1C d .zero 0 i)
  | .lea sh r => some (encR 0x1D (0#1 ++ sh) r)
  | .br b => some ⟨0x30, .b ⟨b.a, b.ea, b.cond, b.disp⟩, if 6 ≤ b.cond.toNat then 0#10 ++ b.bit else 0⟩
  | .jmp disp => some ⟨0x31, .b ⟨0, false, 0, disp⟩, 0⟩
  | .jr a => some (encP 0x32 0 a .zero 0 0)
  | .call a disp => some ⟨0x33, .b ⟨a, false, 0, disp⟩, 0⟩
  | .ret a => some (encP 0x35 0 a .zero 0 0)
  | .loop lc1 disp => some ⟨0x34, .b ⟨if lc1 then 1 else 0, false, 0, disp⟩, 0⟩
  | .ppt => some (encX 0x36 0)
  | .step => some (encX 0x37 0)
  | .tend => some (encX 0x38 0)
  | .idle => some (encX 0x39 0)
  | .trap c => some (encI 0x3A 0 .zero 0 c)
  | .tret => some (encX 0x3B 0)
  | .srr d n => some (encI 0x3C d .zero 0 (0#12 ++ n))
  | .srw a n => some (encSrw a n)
  | .paddockRegisterWrite a k => some (encSrw a (0x022#10 ++ k))
  | .handlerLimitWrite a => some (encSrw a 0x080)
  | .flagsW1cWrite a mx => some (encSrw a (if mx then 0x021 else 0x020))
  | .arrivalRegisterWrite a q => some (encSrw a (0x038 + q.setWidth 12))
  | .lview d a b => some (encP 0x70 d ⟨a, false⟩ b 0 0)
  | .lget d a w => some (encP 0x71 d ⟨a, false⟩ .zero 0 (0#13 ++ w))
  | .tlbiS1pg t => some (encP 0x72 0 t.a t.b 0 (0#13 ++ t.scope))
  | .tlbiS1all t => some (encP 0x72 0 t.a t.b 1 (0#13 ++ t.scope))
  | .tlbiS2pg t => some (encP 0x72 0 t.a t.b 2 (0#13 ++ t.scope))
  | .tlbiPart t => some (encP 0x72 0 t.a t.b 3 (0#13 ++ t.scope))
  | .tlbiAll t => some (encP 0x72 0 t.a t.b 4 (0#13 ++ t.scope))
  | .quiesceHold a => some (encP 0x73 0 a .zero 0 0)
  | .quiesceRel a => some (encP 0x73 0 a .zero 1 0)
  | .pgrel big d a => some (encP 0x74 d a .zero (0#3 ++ BitVec.ofBool big) 0)
  | .ctxsave d a b => some (encP 0x75 d a b 0 0)
  | .ctxload d a b => some (encP 0x76 d a b 0 0)
  | .ctxkill d a => some (encP 0x77 d a .zero 0 0)
  | .pacq n => some (encI 0x78 0 .zero 0 (0#18 ++ n))
  | .prel => some (encX 0x79 0)
  | .pvote vp => some (encI 0x7A 0 .zero 0 (0#21 ++ vp))
  | .aprof n => some (encI 0x7B 0 .zero 0 (0#20 ++ n))
  | .rep cnt ds as bs => some (encX 0xFE (cnt ++ ds ++ as ++ bs ++ 0#28))
  | .nop => some (encX 0xFF (BitVec.allOnes 40))
  | .ldl w n d a off => some ⟨0x40, .m ⟨d, a.r, 0, a.e, false, 0#1 ++ BitVec.ofBool n ++ w, off⟩, 0⟩
  | .stl w d a off => some ⟨0x41, .m ⟨d.r, a.r, 0, a.e, d.e, 0#2 ++ w, off⟩, 0⟩
  | .ldg n d a l => some ⟨0x42, .m ⟨d, a.r, l, a.e, false, 1#1 ++ BitVec.ofBool n ++ 0#2, 0⟩, 0⟩
  | .stg d a l => some ⟨0x43, .m ⟨d.r, a.r, l, a.e, d.e, 8, 0⟩, 0⟩
  | .ldf m => some (encT 0x44 m)
  | .ste m => some (encT 0x45 m)
  | .ldpk m => some (encT 0x46 m)
  | .stf m => some (encT 0x47 m)
  | .pref a l => some ⟨0x48, .m ⟨0, a.r, l, a.e, false, 8, 0⟩, 0⟩
  | .amoAdd m => some (encA 0x50 false m)
  | .amoAnd m => some (encA 0x51 false m)
  | .amoOr m => some (encA 0x52 false m)
  | .amoXor m => some (encA 0x53 false m)
  | .amoMin n m => some (encA 0x54 n m)
  | .amoMax n m => some (encA 0x55 n m)
  | .amoSwap m => some (encA 0x56 false m)
  | .amoCas m => some (encA 0x57 false m)
  | .amoIncw m => some (encA 0x58 false m)
  | .amoAddb m => some (encA 0x59 false m)
  | .amoFadd m => some (encA 0x5A false m)
  | .amoSadd m => some (encA 0x5B false m)
  | .fence k sc => some (encI 0x60 0 .zero (0#1 ++ k) (0#21 ++ sc))
  | .tlwait t => some (encP 0x61 0 t.a t.b (0#1 ++ t.tl) (tlImm t.scope t.remote))
  | .tlread tl d r a => some (encP 0x62 d a .zero (0#1 ++ tl) (tlImm 0 r))
  | .tlmark tl d => some (encP 0x63 d .zero .zero (0#1 ++ tl) 0)
  | .gnew d g b => some (encG 0x64 d g b 0)
  | .join d g => some (encG 0x65 d g .zero 0)
  | .leave g => some (encG 0x66 0 g .zero 0)
  | .bar g => some (encG 0x67 0 g .zero 0)
  | .arrive d g => some (encG 0x68 d g .zero 0)
  | .bwait g b => some (encG 0x69 0 g b 0)
  | .cbind p g => some (encG 0x6A 0 g .zero (0#1 ++ p))
  | .cunbind p => some (encP 0x6B 0 .zero .zero (0#1 ++ p) 0)
  | .send d a b n => some (encP 0x6C d a b 0 (0#11 ++ n))
  | .card d a => some (encP 0x6D d a .zero 0 0)
  | .jcancel d a => some (encP 0x6E d a .zero 0 0)
  | .jpoll d a => some (encP 0x6F d a .zero 0 0)
  | .mcfg f => some (encE 0x80 f)
  | .mcfgr f => some (encE 0x81 f)
  | .mgo f => some (encE 0x82 f)
  | .mma f => some (encE 0x83 f)
  | .acz f => some (encE 0x84 f)
  | .acmvSt f => some (encE 0x85 f)
  | .acmvLd f => some (encE 0x85 f)
  | .zld f => some (encE 0x86 f)
  | .zst f => some (encE 0x87 f)
  | .zclrE f => some (encE 0x88 f)
  | .zclrZ f => some (encE 0x88 f)
  | .rrotUp f => some (encE 0x89 f)
  | .rrotDn f => some (encE 0x89 f)
  | .mtab f => some (encE 0x8A f)
  | .vadd v => some (encV slot1 0xA0 v)
  | .vsub v => some (encV slot1 0xA1 v)
  | .vmul v => some (encV slot1 0xA2 v)
  | .vfma v => some (encV slot1 0xA3 v)
  | .vdiv v => some (encV slot1 0xA4 v)
  | .vsqrt v => some (encV slot1 0xA5 v)
  | .vrsqrt v => some (encV slot1 0xA6 v)
  | .vmin v => some (encV slot1 0xA7 v)
  | .vmax v => some (encV slot1 0xA8 v)
  | .vabs v => some (encV slot1 0xA9 v)
  | .vneg v => some (encV slot1 0xAA v)
  | .vand v => some (encV slot1 0xAB v)
  | .vor v => some (encV slot1 0xAC v)
  | .vxor v => some (encV slot1 0xAD v)
  | .vshl v => some (encV slot1 0xAE v)
  | .vshr v => some (encV slot1 0xAF v)
  | .vsra v => some (encV slot1 0xB0 v)
  | .vcmp v => some (encV slot1 0xB1 v)
  | .vsel v => some (encV slot1 0xB2 v)
  | .vcvt v => some (encV slot1 0xB3 v)
  | .vsadd v => some (encV slot1 0xB4 v)
  | .vssub v => some (encV slot1 0xB5 v)
  | .vsmul v => some (encV slot1 0xB6 v)
  | .vsdiv v => some (encV slot1 0xB7 v)
  | .vsexp v => some (encV slot1 0xB8 v)
  | .vslog v => some (encV slot1 0xB9 v)
  | .vred v => some (encV slot1 0xBA v)
  | .vscan v => some (encV slot1 0xBB v)
  | .vperm v => some (encV slot1 0xBC v)
  | .vshuf v => some (encV slot1 0xBD v)
  | .vbcast v => some (encV slot1 0xBE v)
  | .vepi v => some (encV slot1 0xBF v)
  | .vfn v => some (encV slot1 0xC0 v)
  | .vtab v => some (encV slot1 0xC1 v)
  | .vfill v => some (encV slot1 0xC2 v)
  | .vmov v => some (encV slot1 0xC3 v)
  | .vlds v => some (encV slot1 0xC4 v)
  | .vsts v => some (encV slot1 0xC5 v)
  | .cpin f => some (encE 0xD0 f)
  | .cpout f => some (encE 0xD1 f)
  | .cpx f => some (encE 0xD2 f)
  | .cgather f => some (encE 0xD3 f)
  | .cscatter f => some (encE 0xD4 f)
  | .cfill f => some (encE 0xD5 f)
  | .cred f => some (encE 0xD6 f)
  | .cmsg f => some (encE 0xD7 f)
  | .cmirror f => some (encE 0xD8 f)
  | .cpref f => some (encE 0xD9 f)
  | .ctrOpen f => some (encE 0xE0 f)
  | .ctrClose f => some (encE 0xE1 f)
  | .ctrAppend f => some (encE 0xE2 f)
  | .ctrProp f => some (encE 0xE3 f)
  | .ctrSave f => some (encE 0xE4 f)
  | .ctrLoad f => some (encE 0xE5 f)
  | .ctrTrim f => some (encE 0xE6 f)
  | .smpRun f => some (encE 0xE7 f)
  | .smpAccept f => some (encE 0xE8 f)
  | .kvtOpen f => some (encE 0xE9 f)
  | .kvtCommit f => some (encE 0xEA f)
  | .kvtDrop f => some (encE 0xEB f)
  | .gpgetGp d a gp => some (encP 0xEC d a .zero 0 (0#12 ++ gp))
  | .gpgetCm d k => some (encP 0xEC d .zero .zero 1 (0#14 ++ k))
  | .gpset d a b gp => some (encP 0xED d a b 0 (0#12 ++ gp))
  | .grepl d a => some (encP 0xEE d a .zero 0 0)
  | _ => none

/-- The bits of bimm that an instruction in a slot consumes (R123). -/
def bimmMask (slot1 : Bool) (i : Instr) : BitVec 16 :=
  let op (o : Op2) : BitVec 16 := match o with
    | .wide _ => 0xFFFF
    | _ => 0
  match i with
  | .add r | .sub r | .mul r | .mulh _ r | .div _ r | .rem _ r | .madd r | .and r | .or r | .xor r | .andn r | .orn r
  | .shl r | .shr r | .sra r | .rot r | .min _ r | .max _ r | .sel r | .cmp _ r | .lea _ r => op r.op2
  | .movi _ (.wide _) => 0xFFFF
  | .br b => if 6 ≤ b.cond.toNat then 0x003F else 0
  | _ =>
    match encode slot1 i with
    | some ⟨_, .v _, _⟩ => if slot1 then 0x000F else 0x00F0
    | _ => 0

/-- The host's numbering of an instruction's bits: bit 0 is the least significant bit of the first word. Up to 48 bits are
a syllable, decoded in slot 0 with a bundle immediate of zero; more bits are a bundle, whose slot 0 is decoded with its
own bundle immediate (R112, R113). A halt bundle's own row is the header bit H alone (R55). -/
def decodeTableWord (nbits w : Nat) : Option Instr :=
  if nbits ≤ 48 then
    match decodeSyllable false 0 (BitVec.ofNat 48 w) with
    | .ok i => some i
    | .error _ => none
  else
    let b := unpackBundle (BitVec.ofNat 128 w)
    match decodeSyllable false (unpackHeader b.hdr).bimm b.s0 with
    | .ok i => some i
    | .error _ => none

end Sys2Proof
end

