-- ==== Sys2Proof/Machine/Map.lean ====
section
/-! DEFINITION. Sparse data by key: a list of (key, value) pairs with strictly rising keys and no entry equal to the value
that an unlisted key reads as. -/

namespace Sys2Proof.Machine

/-- What key k holds; d where nothing is listed. -/
def mapGet {α : Type} (d : α) : List (Nat × α) → Nat → α
  | [], _ => d
  | (k, v) :: t, i => if i = k then v else mapGet d t i

/-- Lists v at key i, keeping the keys rising. -/
def mapPut {α : Type} (i : Nat) (v : α) : List (Nat × α) → List (Nat × α)
  | [] => [(i, v)]
  | (k, w) :: t =>
    if i < k then (i, v) :: (k, w) :: t
    else if i = k then (i, v) :: t
    else (k, w) :: mapPut i v t

/-- Unlists key i. -/
def mapDel {α : Type} (i : Nat) : List (Nat × α) → List (Nat × α)
  | [] => []
  | (k, w) :: t => if i = k then mapDel i t else (k, w) :: mapDel i t

/-- Sets key i to v: a value equal to the unlisted one is not listed. -/
def mapSet {α : Type} [DecidableEq α] (d : α) (m : List (Nat × α)) (i : Nat) (v : α) : List (Nat × α) :=
  if v = d then mapDel i m else mapPut i v m

/-- Keys strictly rise. -/
def keysRise {α : Type} : List (Nat × α) → Bool
  | [] => true
  | [_] => true
  | (k, _) :: (k', v') :: t => decide (k < k') && keysRise ((k', v') :: t)

/-- The canonical form: keys rise and no listed value is the unlisted one. -/
def mapWf {α : Type} [DecidableEq α] (d : α) (m : List (Nat × α)) : Bool :=
  keysRise m && m.all fun p => decide (p.2 ≠ d)

/-- Adds a number to a strictly rising set. -/
def setIns (i : Nat) : List Nat → List Nat
  | [] => [i]
  | k :: t => if i < k then i :: k :: t else if i = k then k :: t else k :: setIns i t

/-- Takes a number out of a set. -/
def setDel (i : Nat) (l : List Nat) : List Nat := l.filter fun k => k != i

/-- Replaces the element at position i of a list, if there is one. -/
def listSet {α : Type} : List α → Nat → α → List α
  | [], _, _ => []
  | _ :: t, 0, v => v :: t
  | h :: t, i + 1, v => h :: listSet t i v

/-- The numbers i, i + 1, … , i + n - 1. -/
def rangeFrom (i : Nat) : Nat → List Nat
  | 0 => []
  | n + 1 => i :: rangeFrom (i + 1) n

end Sys2Proof.Machine
end

