-- ==== Sys2Proof/Machine/State.lean ====
section
/-! DEFINITION. The state of the part: everything the manual names, as plain data. Large sparse things are lists of (key,
value) pairs in the canonical form of Machine/Map.lean. Contexts are keyed by their `sr.ctx` value (R17), cores by bits
[11:3] of it, clusters by bits [11:6], dies by bits [11:10]. -/

namespace Sys2Proof.Machine

/-- What stops the machine for good: nothing does. -/
inductive Fault where
  deriving DecidableEq, Repr

/-- What the model declines. -/
inductive Refusal where
  /-- Raised by an arm of `exec` whose instruction has no meaning yet, by its mnemonic. Safe. -/
  | notModelled (mnemonic : String)
  deriving DecidableEq, Repr

/-- A layout entry as its eight stored words (R70). An invalid entry is all zero, as `lget` reads it (R169). -/
structure Layout where
  w0 : W64 := 0
  w1 : W64 := 0
  w2 : W64 := 0
  w3 : W64 := 0
  w4 : W64 := 0
  w5 : W64 := 0
  w6 : W64 := 0
  w7 : W64 := 0
  deriving DecidableEq, Repr, Inhabited

/-- One level of the trap stack (R162 to R164). -/
structure TrapBank where
  cause : W64 := 0
  epc : W64 := 0
  eval : W64 := 0
  deriving DecidableEq, Repr, Inhabited

/-- A membership-list entry (R35, R194): the object, the generation joined, and the epoch in which the member arrived. -/
structure Member where
  obj : Nat
  gen : BitVec 32
  arrived : Option (BitVec 32)
  deriving DecidableEq, Repr, Inhabited

/-- What a context is doing (R26, R31, R46, R47, R55, R410). -/
inductive Run where
  /-- no unit, or a dormant handler -/
  | off
  /-- issues its next bundle when ready -/
  | live
  /-- stands at `step` (R154) -/
  | atStep
  /-- retired `tend` and waits for the rest of its triple (R29) -/
  | ended
  /-- stands at a pre-emption point with a pre-emption pending (R47) -/
  | stopped
  /-- issued `idle` (R156) -/
  | idle
  /-- retired a halt bundle, or stopped by a cancel (R55, R420) -/
  | halted
  /-- killed (R410) -/
  | killed
  deriving DecidableEq, Repr, Inhabited

/-- A request that a context has put to the launch unit and holds for (R206, R367). -/
inductive LaunchReq where
  | card (off : Nat)
  | gpget (graph gp : Nat)
  | gpset (graph gp : Nat) (v : W64)
  | grepl (graph : Nat)
  deriving DecidableEq, Repr

/-- The launch unit's answer (R206, R367). -/
inductive Answer where
  | value (v : W64)
  | cancelled
  | rights
  deriving DecidableEq, Repr

/-- What a syllable that has begun to wait keeps between tries. -/
inductive Wait where
  | none
  /-- `bar` has arrived and waits for the episode after this ticket (R199) -/
  | bar (obj : Nat) (gen ticket : BitVec 32)
  /-- a context waiting in `bwait` or `bar` whose episode was released and whose phase has not come (R200) -/
  | phase (obj : Nat) (gen ticket : BitVec 32)
  /-- the phase of a released waiter has come (R200) -/
  | ready (obj : Nat) (ticket : BitVec 32)
  /-- a group changed by `gnew` ends the wait with a fault (R459) -/
  | regrouped (gen : BitVec 32)
  /-- `bwait` waits, with the generation of its membership (R199) -/
  | bwait (obj : Nat) (gen ticket : BitVec 32)
  /-- a request to the launch unit without an answer yet -/
  | launch (r : LaunchReq)
  /-- the launch unit's answer, not yet consumed -/
  | answered (a : Answer)
  /-- a `pacq` waits at the die's arbiter (R374) -/
  | pacq (n : Nat) (since : Nat)
  /-- the arbiter has granted the level -/
  | granted (n : Nat)
  /-- `vlds` waits for its command (R271) -/
  | vlds (num : Nat)
  /-- its element, which is in x(d) once the command has completed (R271) -/
  | vldsDone (num : Nat) (v : W64)
  /-- `ctxsave` waits until the unit is saved (R174) -/
  | ctxsave (target : Nat)
  /-- the unit has been saved under this handle (R174) -/
  | saved (handle : Nat) (target : Nat)
  deriving DecidableEq, Repr

/-- An effect of a syllable that takes hold after its bundle (R117, R159, R167, R203, R385). -/
inductive Late where
  | sys (num : Nat) (v : W64)
  | view (l : Nat) (e : Layout)
  | bind (port : Nat) (obj : Nat) (chk : Bool)
  | prof (n : Nat)
  deriving DecidableEq, Repr

/-- Where a context goes when its bundle has finished (R118). -/
inductive Leave where
  /-- the bundle at address + 16 -/
  | next
  | jump (pc : BitVec 57)
  /-- SOFTWARE_TRAP after the bundle (R157) -/
  | trap (code : BitVec 24)
  /-- the return from an exception, with the bank that `tret` has read (R158) -/
  | tret (b : TrapBank)
  | ppt
  | step
  | tend
  | idle
  deriving DecidableEq, Repr

/-- The bundle in issue (R116, R117). -/
structure Issue where
  hdr : BitVec 32 := 0
  s0 : Syl := nopSyl
  s1 : Syl := nopSyl
  /-- slot 0 has executed -/
  slot1 : Bool := false
  /-- the REP prefix of slot 0 and the repetition reached (R125) -/
  rep : Option (BitVec 6 × BitVec 2 × BitVec 2 × BitVec 2) := none
  j : BitVec 6 := 0
  /-- slot 1's source registers where S = 0 (R117) -/
  snap : Option (Vector W64 64) := none
  /-- a source popped a chute of another slice, so the destination is empty until the value arrives (R121) -/
  remote : Bool := false
  /-- the ports of those chutes (R204) -/
  pops : BitVec 4 := 0
  late : List Late := []
  leave : Leave := .next
  /-- the syllable being executed, with the stepped fields of its repetition -/
  syl : Syl := nopSyl
  /-- the syllable releases or acquires, so the region count advances after it (R303) -/
  sync : Bool := false
  /-- both syllables of a halt bundle have executed (R55) -/
  halting : Bool := false
  /-- slot 1 has come to its turn and waits (R408) -/
  waited : Bool := false
  /-- both syllables have executed and a SOFTWARE_TRAP waits for a register write (R157, R409) -/
  leaving : Bool := false
  deriving DecidableEq, Repr

/-- A value on its way to a register (R121), with the flags that come back with it (R189). -/
structure Pend where
  r : Nat
  v : W64
  fl : W64 := 0
  /-- the ports through which the value was popped (R204) -/
  pops : BitVec 4 := 0
  deriving DecidableEq, Repr, Inhabited

/-- A thread context (R17, R26, R160). -/
structure Ctx where
  run : Run := .off
  x : Vector W64 64 := Vector.replicate 64 0
  /-- bit i is 1 while register i is empty (R121) -/
  empty : BitVec 64 := 0
  /-- values on their way to registers (R121), oldest first -/
  pend : List Pend := []
  pc : BitVec 57 := 0
  /-- resume at slot 1, and at this repetition (R162) -/
  slot : Bool := false
  rep : BitVec 6 := 0
  iss : Option Issue := none
  tlevel : BitVec 2 := 0
  tvec : W64 := 0
  bank1 : TrapBank := {}
  bank2 : TrapBank := {}
  lc0 : W64 := 0
  lc1 : W64 := 0
  wake : W64 := 0
  wdog : BitVec 48 := 0
  disc : BitVec 4 := 0
  vflags : W64 := 0
  mflags : W64 := 0
  region : Nat := 0
  arv : Vector W64 5 := Vector.replicate 5 0
  tlbase : Vector W64 6 := Vector.replicate 6 0
  /-- the slice key of the control word bound to each port (R81): 0-3 qi, 4-7 qo -/
  ports : Vector (Option Nat) 8 := Vector.replicate 8 none
  /-- bit i is 1 where port i was bound through a layout entry whose accesses are not checked (R75, R302) -/
  unchecked : BitVec 8 := 0
  /-- a value popped ahead of the syllable that reads it (CHUTE_POP) -/
  latch : Vector (Option W64) 4 := Vector.replicate 4 none
  groups : List Member := []
  held : Nat := 0
  /-- the setting at which the context's rail stood when the level was granted (R491) -/
  heldAt : Nat := 0
  /-- the flow and ring slot whose message the handler serves (R392) -/
  ring : Option (Nat × Nat) := none
  /-- `prel` was executed: the commands that must complete before the level falls (R375) -/
  release : Option (List (Nat × Nat)) := none
  prof : BitVec 4 := 0
  cm : Vector W64 4 := Vector.replicate 4 0
  /-- L48 to L62 (R69) -/
  view : Vector Layout 15 := Vector.replicate 15 {}
  /-- L63 (R413) -/
  save : Layout := {}
  job : Nat := 0
  lcore : Nat := 0
  /-- a fault to be taken before the next bundle issues: cause and value (R376, R49) -/
  before : Option (BitVec 8 × W64) := none
  /-- what a waiting syllable keeps, one for each trap level, so that a bundle abandoned for an asynchronous fault finds it
  again after the return (R408) -/
  waits : Vector Wait 3 := Vector.replicate 3 .none
  /-- the point that a fault made the context leave, to which its return brings it back: what it did, and its pc (R408) -/
  back : Option (Run × BitVec 57) := none
  /-- a DEADLINE_MISS to be delivered at level 0: the stream number (R473) -/
  miss : Option W64 := none
  /-- watchdog or handler-limit expiries since the count was last zero (R49, R461) -/
  expired : Nat := 0
  /-- the rendezvous that the context waits for at `step` has been released (R154) -/
  stepGo : Bool := false
  /-- the header wait of the bundle that waits at issue has been met, and the region count has advanced for it (R303) -/
  acq : Bool := false
  /-- the transfer that slot 0 made in a bundle abandoned in slot 1, with the bundle's address, for each trap level (R118, R119) -/
  transfers : Vector (Option (BitVec 57 × Leave)) 3 := Vector.replicate 3 none
  /-- the handler limit in force when the handler started (R166) -/
  hlimit : W64 := 0
  deriving DecidableEq, Repr

/-- A tile of an accumulator name (R219): its number within the name, open or fresh, the exact sums of its chain by 128 m + n (none
while fresh; R106), and for each row how many low bits haze has left unspecified, with the free value that stands for them (R106, R384). -/
structure AccTile where
  id : Nat := 0
  isOpen : Bool := false
  el : List Int := []
  haze : List (Nat × Nat) := []
  deriving DecidableEq, Repr, Inhabited

/-- An engine command's progress (R213, R249, R408, R417). -/
inductive CmdPhase where
  | queued
  | running
  /-- waits on a page request (R448) -/
  | waiting
  /-- failed, its fault not yet delivered (R408) -/
  | failed
  /-- failed, its fault delivered and not yet resolved (R417) -/
  | delivered
  /-- complete, waiting for lower numbers (R213) -/
  | finished
  deriving DecidableEq, Repr, Inhabited

/-- What is left for a command that has performed its writes (R456, R460). -/
inductive Rest where
  | all
  | push
  | arrival
  deriving DecidableEq, Repr, Inhabited

/-- Part of a footprint (R215, R249, R275): bytes of the physical key space. -/
structure Foot where
  lo : Nat
  len : Nat
  write : Bool
  checked : Bool
  atomic : Bool := false
  deriving DecidableEq, Repr, Inhabited

/-- An engine command in a queue (R213, R249, R273, R338). -/
structure Cmd where
  instr : Instr
  /-- 0 = CI, 1 = MX, 2 = VX, 3 = CO, 4 = GX -/
  q : Nat
  /-- its physical timeline number (R191) -/
  num : Nat
  /-- how many commands the core had been given before it (R376) -/
  born : Nat := 0
  ctx : Nat
  job : Nat
  lcore : Nat
  set : Nat
  tok : BitVec 4 := 0
  /-- values captured at enqueue -/
  vals : List W64 := []
  ents : List Layout := []
  desc : List W64 := []
  /-- the group object and generation of an arrival (R202) -/
  arv : Option (Nat × BitVec 32) := none
  prof : BitVec 4 := 0
  phase : CmdPhase := .queued
  rest : Rest := .all
  done : Nat := 0
  total : Nat := 0
  pend : List Nat := []
  first : List Nat := []
  cause : BitVec 8 := 0
  faddr : W64 := 0
  order : Nat := 0
  foot : List Foot := []
  runner : Option Nat := none
  moved : Bool := false
  vflags : W64 := 0
  mflags : W64 := 0
  cfg : List (Nat × W64) := []
  idx : List Nat := []
  rid : Option (Nat × Nat) := none
  stamp : Nat := 0
  quiet : Bool := false
  value : W64 := 0
  started : Bool := false
  /-- the first matrix command of its task (R218, R219, R234) -/
  fresh : Bool := false
  /-- the place of an `rrot` among those that its launch has enqueued on its core (R240) -/
  nth : Nat := 0
  /-- tile registers and accumulator tiles that an MX command reads and writes (R214) -/
  rd : List Nat := []
  wr : List Nat := []
  /-- the output tile that a nest in cmode 0 is summing (R227) -/
  stage : AccTile := {}
  deriving DecidableEq, Repr

/-- A unit on a core (R28, R43 to R47). -/
structure UnitSt where
  job : Nat
  triple : Bool
  lcore : Nat
  /-- next record of the chunk and how many are left (R43) -/
  next : Nat := 0
  left : Nat := 0
  /-- tasks started, so that the j-th takes buffer j mod 2 (R44) -/
  tasks : Nat := 0
  cur : Nat := 0
  /-- when the current task started (R333) -/
  began : Nat := 0
  /-- the record that the dealer has put into the other buffer -/
  deposited : Option Nat := none
  ended : BitVec 3 := 0
  closing : Bool := false
  /-- no matrix command of the task has been enqueued: the first one empties what the task before it left (R218, R219, R234) -/
  stale : Bool := false
  /-- a task boundary is pending: the next record starts at resumption (R47) -/
  atTend : Bool := false
  req : Option Nat := none
  migrate : Bool := false
  forced : Bool := false
  /-- the context whose `ctxsave` asked for the unit (R174) -/
  saver : Option Nat := none
  deriving DecidableEq, Repr, Inhabited

/-- A tile register (R218); bytes past the end of `img` are zero. -/
structure ZTile where
  full : Bool := false
  img : List Byte := []
  deriving DecidableEq, Repr, Inhabited

/-- The matrix engine's architectural state, which one unit owns (R212). -/
structure Mx where
  z : Vector ZTile 8 := Vector.replicate 8 {}
  acc : Vector (List AccTile) 8 := Vector.replicate 8 [{}]
  active : List (Nat × W64) := []
  shadow : List (Nat × W64) := []
  itab : List Byte := []
  deriving DecidableEq, Repr

/-- A message in flight to a slice (R205, R288). -/
structure Msg where
  num : Nat
  ctx : Nat
  job : Nat
  core : Nat
  off : Nat
  data : List Byte
  handler : W64
  stamp : Nat := 0
  deriving DecidableEq, Repr

/-- An arrival that starts a handler (R31 to R33). -/
structure Arrival where
  addr : W64
  x1 : W64
  x2 : W64
  x3 : W64
  job : Nat
  /-- the flow and ring slot of a message from the network (R392) -/
  ring : Option (Nat × Nat) := none
  deriving DecidableEq, Repr

/-- A core (R15). -/
structure Core where
  /-- CI, MX, VX, CO, GX; oldest first -/
  qs : Vector (List Cmd) 5 := Vector.replicate 5 []
  /-- last number given and last number reached, for ci, mx, vx, co, gx, ms (R191) -/
  tlNext : Vector Nat 6 := Vector.replicate 6 0
  tlDone : Vector Nat 6 := Vector.replicate 6 0
  /-- token sets 0-2 by lane and 3-5 by handler; forward ci mx vx co, then reverse (R216, R505) -/
  tok : Vector (Vector Nat 8) 6 := Vector.replicate 6 (Vector.replicate 8 0)
  /-- function tables by 8 set + slot (R267, R505) -/
  ftab : List (Nat × List Byte) := []
  mx : Mx := {}
  paddock : Vector W64 4 := Vector.replicate 4 0
  hlimit : W64 := 0x10000
  arrivals : List Arrival := []
  /-- the context that holds the slice by `quiesce` (R172) -/
  holder : Option Nat := none
  sends : List Msg := []
  units : Vector (Option UnitSt) 3 := Vector.replicate 3 none
  temp : Nat := 0
  trips : Nat := 0
  /-- the context whose POWER_OVERDRAW holds back starts (R490) -/
  overBy : Option Nat := none
  /-- the array between commands: 0 idle, 1 in ballast, 2 followed at once by the next command (R243, R379) -/
  array : Nat := 0
  /-- tile registers (0 to 7) and accumulator tiles with an uncorrectable error (R498), by the numbers that `Cmd.rd` uses -/
  badTiles : List Nat := []
  deriving DecidableEq, Repr

/-- A cluster (R370, R380, R359, R496). -/
structure Cluster where
  /-- replay-mode passes of the telemetry interval, those run again, and the end of the replay clock (R496) -/
  passes : Nat := 0
  reruns : Nat := 0
  ban : Bool := false
  /-- bit i: core i of the cluster stands above the throttle trip (R380) -/
  throttle : Nat := 0
  /-- throttled at some time in the telemetry interval, and the highest sample of it (R381) -/
  tripped : Bool := false
  maxTemp : Nat := 0
  smpLast : Nat := 7
  deriving DecidableEq, Repr

/-- A sequence slot of a Contrail unit (R343 to R357). -/
structure Seq where
  gen : Nat := 0
  isOpen : Bool := false
  part : Nat := 0
  desc : List W64 := []
  clen : Nat := 0
  hlen : Nat := 0
  wstart : Nat := 0
  /-- software has written into the unit's regions: later results are unspecified (R345) -/
  taint : Bool := false
  /-- the descriptor's virtual address, where clen is written back -/
  dva : Nat := 0
  txids : Nat := 0
  /-- the open transaction: its txid, its capacity and the job that opened it (R347, R485) -/
  tx : Option (Nat × Nat × Nat) := none
  deriving DecidableEq, Repr

/-- A rail of a die (R369, R491): its setting, what counted in it (partition and vote), and a fall that is deferred: since when, and
the contexts whose levels it waits for. -/
structure Rail where
  setting : Nat := 0
  counted : List (Nat × Nat) := []
  fall : Option (Nat × List Nat) := none
  deriving DecidableEq, Repr

/-- A compute die (R14). -/
structure Die where
  lost : Bool := false
  lastBeat : Nat := 0
  bucket : Nat := 8
  votes : List (Nat × Nat) := []
  high : Rail := {}
  low : Rail := {}
  /-- telemetry records produced, and the millisecond in which the last interval ended (R381) -/
  telem : Nat := 0
  telemMs : Nat := 0
  energy : List (Nat × Nat) := []
  /-- partitions that have worked on the die in the telemetry interval (R382, R500) -/
  worked : List Nat := []
  bounds : List (Nat × Nat) := []
  waiters : List (Nat × Nat) := []
  seqs : List (Nat × Seq) := []
  /-- one more than the place in acceptance order of the job last dealt at each of P1 to P7 (R332) -/
  turns : List (Nat × Nat) := []
  deriving DecidableEq, Repr

/-- A job (R39 to R43, R335, R419). -/
structure Job where
  card : List W64 := []
  parent : Nat := 0
  fn : Nat := 0
  priv : Bool := false
  prio : Nat := 0
  /-- stream class (R84): 0 fast, 1 slow, 2 batch, 3 system -/
  cls : Nat := 2
  seq : Nat := 0
  stream : Option Nat := none
  graph : Option (Nat × Nat) := none
  entry : BitVec 57 := 0
  masks : List Nat := []
  /-- heat words in force, by place in `dies` like the masks (R336) -/
  heat : List W64 := []
  /-- the host queue that launched it (R484) -/
  queue : Option Nat := none
  /-- the chosen placement's entry (R40) -/
  plc : List W64 := []
  dies : List Nat := []
  next : Nat := 0
  rem : Nat := 0
  returned : List (Nat × Nat) := []
  lays : List Layout := []
  tmpl : Layout := {}
  profs : List W64 := []
  /-- logical core to the physical core that holds it (R50) -/
  cores : List (Nat × Nat) := []
  /-- presented offsets and floors by 8 × (512 lcore + core) + timeline (R191) -/
  tloff : List (Nat × (Int × Nat)) := []
  /-- how many `rrot`s the launch has enqueued, by core (R240) -/
  rrots : List (Nat × Nat) := []
  nkill : Nat := 0
  halted : Nat := 0
  /-- 0 running, 1 completed, 2 cancelled (R419) -/
  fin : Nat := 0
  cancelled : Bool := false
  level : Nat := 0
  started : Bool := false
  deriving DecidableEq, Repr

/-- A suspended or pre-empted unit with its saved state (R48, R174, R464). -/
structure SavedUnit where
  handle : Nat
  unit : UnitSt
  lane : Nat
  core : Nat
  ctxs : List (Nat × Ctx)
  tl : List (Nat × Nat)
  mx : Option Mx
  tok : Vector Nat 8
  ftab : List (Nat × List Byte)
  bytes : List (Nat × Byte)
  tags : List Nat
  poison : List Nat := []
  regions : List (Nat × Nat)
  cmds : List Cmd
  levels : List (Nat × Nat)
  suspended : Bool := false
  image : List W64 := []
  named : Nat := 0
  displaced : Bool := false
  /-- saved for a migration: arrivals addressed to it wait at their sources (R493) -/
  migrating : Bool := false
  deriving DecidableEq, Repr

/-- A stream-table entry (R319 to R328, R473 to R482): status 0 FREE, 1 IDLE, 2 LIVE, 3 SUSPENDED, 4 RETIRING. -/
structure Stream where
  status : Nat := 0
  fn : Nat := 0
  desc : List W64 := []
  /-- the descriptor of a modify that applies from the next release (R324) -/
  newDesc : List W64 := []
  /-- the descriptor's virtual address, whose word 0x60 the device writes -/
  dva : Nat := 0
  /-- current level -/
  level : Nat := 0
  /-- the latest release and, for a timer, its instance number plus one -/
  release : Nat := 0
  inst : Nat := 0
  /-- the live instance: its release, its deadline and the level it was released with -/
  live : Option (Nat × Nat × Nat) := none
  /-- DEADLINE_MISS has been raised for the live instance -/
  late : Bool := false
  misses : Nat := 0
  /-- the marker of the last `cmirror` of the instance -/
  tile : W64 := 0xFFFFFFFFFFFFFFFF
  moved : Bool := false
  die : Nat := 0
  /-- the clusters of a die that the placements of its nodes' cards name, as a mask, at the admission or the last modify (R369) -/
  clusters : Nat := 0
  /-- the live instance was continued after a die's loss, and is exempt from its deadline until release + T (R480) -/
  exempt : Bool := false
  /-- sensor messages that have not released an instance yet, oldest first (R320): flow, ring slot, length, address and ingress
  time -/
  msgs : List (Nat × Nat × Nat × Nat × Nat) := []
  /-- ring slots, with their flows, that the completion of the live instance frees: its own and those of messages skipped before it
  started (R321, R392) -/
  slots : List (Nat × Nat) := []
  /-- those of messages skipped since -/
  skipped : List (Nat × Nat) := []
  deriving DecidableEq, Repr

/-- A command graph (R329 to R331): the live instance names the queue or the job that it comes from, or its stream. -/
structure Graph where
  defined : Bool := false
  fn : Nat := 0
  image : List W64 := []
  /-- a definition made while an instance is live, which the next instance takes -/
  next : List W64 := []
  gp : Vector W64 16 := Vector.replicate 16 0
  snap : Vector W64 16 := Vector.replicate 16 0
  live : Bool := false
  origin : Option Nat := none
  parent : Nat := 0
  stream : Option Nat := none
  /-- nodes submitted, with their jobs -/
  nodes : List (Nat × Nat) := []
  /-- the pending replay: its queue and its parent job -/
  pending : Option (Option Nat × Nat) := none
  /-- instances completed -/
  count : Nat := 0
  deriving DecidableEq, Repr

/-- A host queue (R314, R388). -/
structure HostQ where
  live : Bool := false
  qcb : Nat := 0
  ring : Nat := 0
  lgsz : Nat := 0
  head : Nat := 0
  /-- the tail last read, at a doorbell (R388) -/
  tail : Nat := 0
  stop : Bool := false
  /-- the fence that the queue waits in (R318): when it was parsed, its timeout and its counters with their values -/
  fence : Option (Nat × Nat × List (Nat × Nat)) := none
  deriving DecidableEq, Repr

/-- A flow-table entry (R391 to R393): its descriptor, the function that applied it and the ring slots in use. -/
structure Flow where
  applied : Bool := false
  owner : Nat := 0
  desc : List W64 := []
  /-- the job of a core binding has ended, so the binding is cleared (R392) -/
  unbound : Bool := false
  slots : List Nat := []
  /-- the slot after the one that the last message took -/
  nxt : Nat := 0
  /-- messages of a core binding that wait in their slots for a place in the arrival queue of a core (R392) -/
  waiting : List (Nat × Arrival) := []
  deriving DecidableEq, Repr

/-- A cached translation (R442, R171): which stage-1 page and which stage-2 or mirror page it came through, and the piece
of virtual space, of length len from lo, that it maps to out. -/
structure Tlb where
  cluster : Nat
  part : Nat
  mirror : Bool
  s1lo : Nat
  s1len : Nat
  ipa : Nat
  s2lo : Nat
  s2len : Nat
  lo : Nat
  len : Nat
  out : Nat
  host : Bool
  r : Bool
  w : Bool
  x : Bool
  deriving DecidableEq, Repr

/-- A page request (R446): its id once written to the ring, the accesses waiting on it (who waits, and
the virtual address of the access), and its answer (true = retry). -/
structure PageReq where
  part : Nat
  ipa : Nat
  rid : Option Nat
  kind : Nat
  va : Nat
  waiters : List (Nat × Nat × Nat)
  time : Nat
  sent : Nat := 0
  answer : Option Bool := none
  deriving DecidableEq, Repr

/-- A detector tag (R304). -/
structure Tag where
  ctx : Nat
  region : Nat
  atomic : Bool
  mask : BitVec 8
  deriving DecidableEq, Repr

/-- The detector state of a granule (R304). -/
structure Det where
  writer : Option Tag := none
  r0 : Option Tag := none
  r1 : Option Tag := none
  ovf : Bool := false
  deriving DecidableEq, Repr

/-- A quarantine entry (R312). -/
structure Quar where
  page : Nat
  big : Bool
  v : Nat
  deriving DecidableEq, Repr

/-- A tagged operation that waits for a word's tag (R79), oldest first: `here` holds its bundle at issue, the others wait at the
owning bank. -/
structure BankWait where
  ctx : Nat
  key : Nat
  ste : Bool
  here : Bool
  d : Nat
  v : W64
  /-- the quiescence count when the access issued (R311) -/
  stamp : Nat := 0
  /-- the job of the context when it issued the access -/
  job : Nat := 0
  deriving DecidableEq, Repr

/-- Steps of the device and inputs from outside that are still to come, in order: the schedule that the model reads. -/
inductive Sched where
  | event (i : Instr)
  | issue (ctx : Nat)
  | elapse (ns : Nat)
  deriving DecidableEq, Repr

/-- The whole part. -/
structure State where
  mem : List Host.Cell
  tags : List Nat
  bank : List BankWait
  poison : List Nat
  /-- granules with an error that the next patrol corrects (R497, R499) -/
  latent : List Nat
  det : List (Nat × Det)
  time : Nat
  cst : Nat
  cofs : Int
  slew : Int
  /-- nanoseconds of slewing not yet turned into a correction (R396) -/
  slewAcc : Nat
  stepped : Bool
  cores : List (Nat × Core)
  ctxs : List (Nat × Ctx)
  clusters : List (Nat × Cluster)
  dies : List (Nat × Die)
  jobs : List (Nat × Job)
  nextJob : Nat
  jobSeq : Nat
  saved : List SavedUnit
  nextHandle : Nat
  streams : List (Nat × Stream)
  graphs : List (Nat × Graph)
  queues : List (Nat × HostQ)
  flows : List (Nat × Flow)
  pf : List (Nat × W64)
  chunkNo : List (Nat × Nat)
  ports : BitVec 4
  outKept : List (Nat × List Byte)
  sent : List (Nat × List Byte)
  served : Nat
  msix : List (Nat × Nat)
  reqs : List PageReq
  rid : List (Nat × Nat)
  tlb : List Tlb
  qcount : Nat
  quarantine : List Quar
  /-- the latest telemetry record of each die, as the Evden controller holds it (R381, R398) -/
  records : List (Nat × List W64)
  /-- stops of the management queue reported over the sideband, oldest first: err and errpos (R398) -/
  sideband : List (Nat × Nat)
  fw : List (Nat × List Byte)
  recovery : Bool
  attn : List (Nat × Nat)
  cur : Nat
  agenda : List Sched
  free : Nat
  failures : Nat
  deriving DecidableEq, Repr

/-- The machine right after reset. Memory lists nothing; every slot, queue and table is empty; the Reset column's values
of R160, R387 and the other maps stand in the defaults of the structures. Values that the manual does not state are those
of log entries 2 to 5. (DESIGN CHOICE, log 3.) (DESIGN CHOICE, log 4.) -/
def State.reset : State where
  mem := []
  tags := []
  bank := []
  poison := []
  latent := []
  det := []
  time := 0
  cst := 0
  cofs := 0
  slew := 0
  slewAcc := 0
  stepped := false
  cores := []
  ctxs := []
  clusters := []
  dies := []
  jobs := []
  nextJob := 1
  jobSeq := 0
  saved := []
  nextHandle := 1
  streams := []
  graphs := []
  queues := []
  flows := []
  pf := []
  chunkNo := []
  ports := 0xF
  outKept := []
  sent := []
  served := 0
  msix := []
  reqs := []
  rid := []
  tlb := []
  qcount := 0
  quarantine := []
  records := []
  sideband := []
  fw := []
  recovery := false
  attn := []
  cur := 0
  agenda := []
  free := 0
  failures := 0

end Sys2Proof.Machine
end

