-- ==== Sys2Proof/Machine/Prim.lean ====
section
/-! DEFINITION. Reading and writing the parts of the state: contexts, cores, jobs, memory bytes, layout fields; and the
form in which a meaning is written: a computation on the state that ends in a value or in one of the ways a syllable can
stop. -/

namespace Sys2Proof.Machine

/-- The ways in which a syllable stops short of its effect. -/
inductive Stop where
  /-- an execution-time fault (R119): cause and `sr.eval` -/
  | trap (cause : BitVec 8) (eval : W64)
  /-- an issue-time fault (R119): cause and `sr.eval` -/
  | issueTrap (cause : BitVec 8) (eval : W64)
  /-- the bundle waits at issue (R26, R116) and nothing changes -/
  | wait
  /-- the bundle waits, and the state records what its waiting needs: a change of the state before the syllable -/
  | hold (f : State → State)
  /-- the machine stops -/
  | stuck (f : Fault)

/-- A computation on the state. -/
abbrev M := StateT State (Except Stop)

/-- An execution-time fault. -/
def trapM {α : Type} (cause : BitVec 8) (eval : W64) : M α := throw (.trap cause eval)

/-- An issue-time fault. -/
def issueTrapM {α : Type} (cause : BitVec 8) (eval : W64) : M α := throw (.issueTrap cause eval)

/-- Waits at issue. -/
def waitM {α : Type} : M α := throw .wait

/-- Waits at issue, keeping the state as it stands now. -/
def holdM {α : Type} : M α := fun s => .error (.hold fun _ => s)

/-- Waits at issue, with a change made to the state from before the syllable. -/
def holdWith {α : Type} (f : State → State) : M α := throw (.hold f)

/-- A test that traps when it fails. -/
def check (ok : Bool) (cause : BitVec 8) (eval : W64) : M Unit := if ok then pure () else trapM cause eval

/-- A test that waits when it fails. -/
def await (ok : Bool) : M Unit := if ok then pure () else waitM

/-- Cause codes (R415). -/
def cIllegal : BitVec 8 := 0x01
/-- RESERVED_FIELD. -/
def cReserved : BitVec 8 := 0x02
/-- REG_EMPTY. -/
def cRegEmpty : BitVec 8 := 0x03
/-- PRIVILEGE. -/
def cPrivilege : BitVec 8 := 0x04
/-- INT_DIV_ZERO. -/
def cDivZero : BitVec 8 := 0x05
/-- INT_DIV_OVERFLOW. -/
def cDivOverflow : BitVec 8 := 0x06
/-- MISALIGNED. -/
def cMisaligned : BitVec 8 := 0x08
/-- LAYOUT_BOUNDS. -/
def cBounds : BitVec 8 := 0x09
/-- LAYOUT_RIGHTS. -/
def cRights : BitVec 8 := 0x0A
/-- XLATE_S1. -/
def cXlateS1 : BitVec 8 := 0x10
/-- XLATE_S2. -/
def cXlateS2 : BitVec 8 := 0x11
/-- XLATE_PERM. -/
def cXlatePerm : BitVec 8 := 0x12
/-- RACE. -/
def cRace : BitVec 8 := 0x18
/-- RACE_POSSIBLE. -/
def cRacePossible : BitVec 8 := 0x19
/-- POWER_OVERDRAW. -/
def cOverdraw : BitVec 8 := 0x20
/-- WATCHDOG. -/
def cWatchdog : BitVec 8 := 0x21
/-- CANCELLED. -/
def cCancelled : BitVec 8 := 0x22
/-- DEADLINE_MISS. -/
def cDeadline : BitVec 8 := 0x23
/-- POISON_CONSUMED. -/
def cPoison : BitVec 8 := 0x28
/-- ENGINE_FAULT. -/
def cEngine : BitVec 8 := 0x30
/-- TOKEN_FIFO_OVERFLOW. -/
def cTokens : BitVec 8 := 0x31
/-- BARRIER_OBJECT. -/
def cBarrier : BitVec 8 := 0x32
/-- CHUTE_FAULT. -/
def cChute : BitVec 8 := 0x38
/-- SOFTWARE_TRAP. -/
def cSoftware : BitVec 8 := 0x3F

/-- A natural number as a 64-bit value, modulo 2^64. -/
def w64 (n : Nat) : W64 := BitVec.ofNat 64 n

/-- Bits [hi:lo] of a value as a number (R4). -/
def bits (v : W64) (hi lo : Nat) : Nat := v.toNat / 2 ^ lo % 2 ^ (hi + 1 - lo)

/-- One bit of a value. -/
def bit (v : W64) (i : Nat) : Bool := v.getLsbD i

/-- v with bits [hi:lo] replaced by n. -/
def setBits (v : W64) (hi lo n : Nat) : W64 :=
  w64 (v.toNat - (v.toNat / 2 ^ lo % 2 ^ (hi + 1 - lo)) * 2 ^ lo + n % 2 ^ (hi + 1 - lo) * 2 ^ lo)

/-- A w-bit pattern read as a signed integer (sext of chapter 6). -/
def sx (w n : Nat) : Int := if n % 2 ^ w < 2 ^ (w - 1) then (n % 2 ^ w : Int) else (n % 2 ^ w : Int) - 2 ^ w

/-- An integer as a w-bit pattern, modulo 2^w. -/
def wrapN (w : Nat) (v : Int) : Nat := (v % (2 ^ w : Int)).toNat

/-- The least integer not below a / b (R43). -/
def ceilDiv (a b : Nat) : Nat := (a + b - 1) / b

/-- The core of a context (R17). -/
def coreOf (c : Nat) : Nat := c / 8
/-- The cluster of a context. -/
def clusterOf (c : Nat) : Nat := c / 64
/-- The die of a context. -/
def dieOf (c : Nat) : Nat := c / 1024
/-- A handler context: context number 3 to 5 (R15). -/
def isHandler (c : Nat) : Bool := decide (3 ≤ c % 8)
/-- The lane of a context (R26). -/
def laneOf (c : Nat) : Nat := c % 8 % 3

/-- A context. -/
def State.ctx (s : State) (c : Nat) : Ctx := mapGet {} s.ctxs c
/-- Replaces a context. -/
def State.setCtx (s : State) (c : Nat) (v : Ctx) : State := { s with ctxs := mapSet {} s.ctxs c v }
/-- A core. -/
def State.core (s : State) (c : Nat) : Core := mapGet {} s.cores c
/-- Replaces a core. -/
def State.setCore (s : State) (c : Nat) (v : Core) : State := { s with cores := mapSet {} s.cores c v }
/-- A cluster. -/
def State.cluster (s : State) (c : Nat) : Cluster := mapGet {} s.clusters c
/-- Replaces a cluster. -/
def State.setCluster (s : State) (c : Nat) (v : Cluster) : State := { s with clusters := mapSet {} s.clusters c v }
/-- A die. -/
def State.die (s : State) (d : Nat) : Die := mapGet {} s.dies d
/-- Replaces a die. -/
def State.setDie (s : State) (d : Nat) (v : Die) : State := { s with dies := mapSet {} s.dies d v }
/-- A job; number 0 names none. -/
def State.job (s : State) (j : Nat) : Job := mapGet {} s.jobs j
/-- Replaces a job. -/
def State.setJob (s : State) (j : Nat) (v : Job) : State := { s with jobs := mapSet {} s.jobs j v }
/-- A stream-table entry. -/
def State.stream (s : State) (n : Nat) : Stream := mapGet {} s.streams n
/-- Replaces a stream-table entry. -/
def State.setStream (s : State) (n : Nat) (v : Stream) : State := { s with streams := mapSet {} s.streams n v }
/-- A graph. -/
def State.graph (s : State) (n : Nat) : Graph := mapGet {} s.graphs n
/-- Replaces a graph. -/
def State.setGraph (s : State) (n : Nat) (v : Graph) : State := { s with graphs := mapSet {} s.graphs n v }
/-- A host queue, by 32 × function + queue number. -/
def State.queue (s : State) (n : Nat) : HostQ := mapGet {} s.queues n
/-- Replaces a host queue. -/
def State.setQueue (s : State) (n : Nat) (v : HostQ) : State := { s with queues := mapSet {} s.queues n v }
/-- A flow-table entry. -/
def State.flow (s : State) (n : Nat) : Flow := mapGet {} s.flows n
/-- Replaces a flow-table entry. -/
def State.setFlow (s : State) (n : Nat) (v : Flow) : State := { s with flows := mapSet {} s.flows n v }

/-- The context whose syllable runs. -/
def State.me (s : State) : Ctx := s.ctx s.cur
/-- Replaces the running context. -/
def State.setMe (s : State) (c : Ctx) : State := s.setCtx s.cur c

/-- Changes a context. -/
def State.updCtx (s : State) (c : Nat) (f : Ctx → Ctx) : State := s.setCtx c (f (s.ctx c))
/-- Changes a core. -/
def State.updCore (s : State) (c : Nat) (f : Core → Core) : State := s.setCore c (f (s.core c))
/-- Changes a job. -/
def State.updJob (s : State) (j : Nat) (f : Job → Job) : State := s.setJob j (f (s.job j))
/-- Changes a die. -/
def State.updDie (s : State) (d : Nat) (f : Die → Die) : State := s.setDie d (f (s.die d))
/-- Changes a cluster. -/
def State.updCluster (s : State) (c : Nat) (f : Cluster → Cluster) : State := s.setCluster c (f (s.cluster c))
/-- Changes a stream. -/
def State.updStream (s : State) (c : Nat) (f : Stream → Stream) : State := s.setStream c (f (s.stream c))

/-- What the running syllable of a context waits in, at its trap level. -/
def Ctx.wait (c : Ctx) : Wait := c.waits.toList.getD c.tlevel.toNat .none
/-- Sets it. -/
def Ctx.setWait (c : Ctx) (w : Wait) : Ctx := { c with waits := c.waits.set! c.tlevel.toNat w }

/-- The running context, as a computation. -/
def getMe : M Ctx := do return (← get).me
/-- Changes the running context. -/
def modMe (f : Ctx → Ctx) : M Unit := modify fun s => s.setMe (f s.me)
/-- The core of the running context. -/
def myCore : M Nat := do return coreOf (← get).cur

/-- The next free value. -/
def drawWord : M W64 := do
  let s ← get
  set { s with free := s.free + 1 }
  return Config.freeWord s.free

/-- The physical key of offset o of a core's slice: the SRAM global address (R62). (DESIGN CHOICE, log 103.) -/
def sliceKey (core off : Nat) : Nat := core * 2 ^ 23 + off % 2 ^ 23
/-- The physical key of a device-memory address. -/
def devKey (pa : Nat) : Nat := 2 ^ 58 + pa
/-- The physical key of a host-memory address (R386). -/
def hostKey (a : Nat) : Nat := 2 ^ 59 + a
/-- Whether a key lies in a slice. -/
def isSlice (k : Nat) : Bool := decide (k < 2 ^ 32)
/-- Whether a key lies in host memory. -/
def isHost (k : Nat) : Bool := decide (2 ^ 59 ≤ k)
/-- The core whose slice holds a key. -/
def keyCore (k : Nat) : Nat := k / 2 ^ 23
/-- The offset of a key in its slice. -/
def keyOff (k : Nat) : Nat := k % 2 ^ 23

/-- A byte of memory. (DESIGN CHOICE, log 2.) -/
def readByte (s : State) (k : Nat) : Byte := mapGet 0 s.mem k
/-- Writes a byte of memory. -/
def writeByte (s : State) (k : Nat) (b : Byte) : State := { s with mem := mapSet 0 s.mem k b }
/-- n bytes from a key upwards. -/
def readBytes (s : State) (k : Nat) : Nat → List Byte
  | 0 => []
  | n + 1 => readByte s k :: readBytes s (k + 1) n
/-- Writes bytes from a key upwards. -/
def writeBytes (s : State) (k : Nat) : List Byte → State
  | [] => s
  | b :: t => writeBytes (writeByte s k b) (k + 1) t
/-- The n-byte little-endian value at a key (R4). -/
def readNat (s : State) (k n : Nat) : Nat := bytesToNat (readBytes s k n)
/-- Writes the low n bytes of a value. -/
def writeNat (s : State) (k n v : Nat) : State := writeBytes s k (natToBytes n v)
/-- The 64-bit word at a key. -/
def readW (s : State) (k : Nat) : W64 := w64 (readNat s k 8)
/-- n consecutive 64-bit words. -/
def readWs (s : State) (k : Nat) : Nat → List W64
  | 0 => []
  | n + 1 => readW s k :: readWs s (k + 8) n

/-- Whether memory stands in its one canonical form. -/
abbrev Memory.wf (m : List Host.Cell) : Bool := mapWf (0 : Byte) m

/-- Layout fields (R70). -/
def Layout.base (e : Layout) : Nat := bits e.w0 56 0
/-- Space code. -/
def Layout.space (e : Layout) : Nat := bits e.w1 2 0
/-- Rank. -/
def Layout.rank (e : Layout) : Nat := bits e.w1 10 8
/-- Format code. -/
def Layout.fmt (e : Layout) : Nat := bits e.w1 23 16
/-- Permutation code. -/
def Layout.perm (e : Layout) : Nat := bits e.w1 31 28
/-- Read right. -/
def Layout.rd (e : Layout) : Bool := bit e.w1 32
/-- Write right. -/
def Layout.wr (e : Layout) : Bool := bit e.w1 33
/-- Race-checked. -/
def Layout.chk (e : Layout) : Bool := bit e.w1 34
/-- Discardable. -/
def Layout.dis (e : Layout) : Bool := bit e.w1 35
/-- Mirrored. -/
def Layout.mir (e : Layout) : Bool := bit e.w1 36
/-- Names a transaction. -/
def Layout.kv (e : Layout) : Bool := bit e.w1 37
/-- Transaction id. -/
def Layout.txid (e : Layout) : Nat := bits e.w1 63 48
/-- Extent i. -/
def Layout.ext (e : Layout) (i : Nat) : Nat :=
  match i with
  | 0 => bits e.w2 31 0
  | 1 => bits e.w2 63 32
  | 2 => bits e.w3 31 0
  | 3 => bits e.w3 63 32
  | 4 => bits e.w4 31 0
  | _ => bits e.w4 63 32
/-- Stride i, signed. -/
def Layout.str (e : Layout) (i : Nat) : Int :=
  sx 32 (match i with
    | 0 => bits e.w5 31 0
    | 1 => bits e.w5 63 32
    | 2 => bits e.w6 31 0
    | 3 => bits e.w6 63 32
    | 4 => bits e.w7 31 0
    | _ => bits e.w7 63 32)
/-- An entry is valid when it is not the all-zero image that stands for an invalid one. -/
def Layout.valid (e : Layout) : Bool := e != {}
/-- The eight words. -/
def Layout.words (e : Layout) : List W64 := [e.w0, e.w1, e.w2, e.w3, e.w4, e.w5, e.w6, e.w7]
/-- An entry from eight words. -/
def Layout.ofWords (l : List W64) : Layout :=
  ⟨l.getD 0 0, l.getD 1 0, l.getD 2 0, l.getD 3 0, l.getD 4 0, l.getD 5 0, l.getD 6 0, l.getD 7 0⟩

/-- Element size of a format code (R72); 0 for a code not listed. -/
def fmtSize (f : Nat) : Nat :=
  match f with
  | 0x01 | 0x05 | 0x10 | 0x11 | 0x18 => 1
  | 0x02 | 0x06 | 0x20 | 0x28 => 2
  | 0x03 | 0x07 | 0x21 | 0x29 => 4
  | 0x04 | 0x08 => 8
  | _ => 0

/-- Element size of an entry. -/
def Layout.es (e : Layout) : Nat := fmtSize e.fmt

/-- The spaces of R61. -/
def spLocal : Nat := 0
/-- CLUSTER. -/
def spCluster : Nat := 1
/-- SRAM. -/
def spSram : Nat := 2
/-- VM. -/
def spVm : Nat := 3
/-- HOST. -/
def spHost : Nat := 4
/-- NET. -/
def spNet : Nat := 5
/-- KV. -/
def spKv : Nat := 6

/-- Whether an entry's space is one of the slices. -/
def Layout.inSram (e : Layout) : Bool := decide (e.space ≤ 2)

/-- Validity of an entry (R73), for a core that installs it. -/
def layoutOk (core : Nat) (e : Layout) : Bool :=
  bits e.w0 63 57 == 0 && bits e.w1 47 38 == 0 && bits e.w1 27 24 == 0 && bits e.w1 15 11 == 0 && bits e.w1 7 3 == 0 &&
  decide (e.space < 7) && decide (1 ≤ e.rank ∧ e.rank ≤ 6) && e.es != 0 &&
  ((List.range e.rank).all fun i => e.ext i != 0) &&
  decide (e.perm ≤ 5) && (e.perm == 0 || e.inSram) &&
  (decide (spNet ≤ e.space) || e.base % e.es == 0) &&
  (match e.space with
    | 0 => decide (e.base < 2 ^ 23)
    | 1 => decide (e.base < 2 ^ 26) && e.base / 2 ^ 23 != core % 8
    | 2 => decide (e.base < 2 ^ 32)
    | 5 => decide (e.base < 2 ^ 16) && !e.rd
    | 6 => decide (e.base < 2 ^ 32)
    | _ => true) &&
  (!e.kv || e.space == spKv) && (e.kv || e.txid == 0) && (!e.mir || e.space == spVm)

/-- Installs an entry: an invalid one is stored as all zero (R73). -/
def install (core : Nat) (e : Layout) : Layout := if layoutOk core e then e else {}

/-- The core that the base field of a slice-space entry names (R71). -/
def Layout.core (e : Layout) (core : Nat) : Nat :=
  match e.space with
  | 0 => core
  | 1 => core / 8 * 8 + e.base / 2 ^ 23 % 8
  | _ => e.base / 2 ^ 23

/-- Bank permutation (R66). -/
def swz (o c : Nat) : Nat :=
  if c = 0 then o
  else
    let m := 2 ^ c - 1
    o - o / 64 % 32 * 64 + (o / 64 % 32 ^^^ (o / 2048 % 32 &&& m)) * 64

/-- Rotation (R67): q and phase of the operand, row i. -/
def rot (o i q phi : Nat) : Nat :=
  if q = 0 then o else o - o / 64 % 32 * 64 + (o / 64 % 32 + (i + phi) * q) % 32 * 64

/-- Layout entry l of a context (R69): L0 to L47 from the job's table as installed on the core, L48 to L62 the context's
own, L63 its save area. Handlers have no L48 to L62 (R167). -/
def entryOf (s : State) (c : Nat) (l : Nat) : Layout :=
  let x := s.ctx c
  if l < 48 then install (coreOf c) ((s.job x.job).lays.getD l {})
  else if l < 63 then (if isHandler c then {} else x.view.toList.getD (l - 48) {})
  else x.save

/-- Supervisor privilege (R161, R170). -/
def isPriv (s : State) (c : Nat) : Bool := (s.job (s.ctx c).job).priv

/-- The partition of a context: the function of its launch (R83). -/
def partOf (s : State) (c : Nat) : Nat := (s.job (s.ctx c).job).fn

/-- Signals an MSI-X vector of a function (R386). -/
def signal (s : State) (fn vec : Nat) : State := { s with msix := s.msix ++ [(fn, vec)] }

/-- Advances the region count of a context (R303). -/
def bumpRegion (s : State) (c : Nat) : State := s.updCtx c fun x => { x with region := x.region + 1 }

/-- Whether a job's lineage contains job a (R59); the fuel is the number of jobs. -/
def descends (s : State) (a : Nat) : Nat → Nat → Bool
  | 0, _ => false
  | n + 1, j => if j = 0 then false else j == a || descends s a n (s.job j).parent

/-- Whether job j descends from, or is, job a. -/
def inLineage (s : State) (a j : Nat) : Bool := descends s a (s.jobs.length + 1) j

end Sys2Proof.Machine
end

