-- ==== Sys2Proof/Machine/Flags.lean ====
section
/-! DEFINITION. The flag registers `sr.vflags` and `sr.mflags` (R95, R96, R107): their bits, OR-ing in and clearing. -/

namespace Sys2Proof.Machine

/-- invalid operation -/
def fNv : W64 := 0x001
/-- division by zero, or an exact infinite result -/
def fDz : W64 := 0x002
/-- overflow -/
def fOf : W64 := 0x004
/-- underflow -/
def fUf : W64 := 0x008
/-- inexact -/
def fNx : W64 := 0x010
/-- SLI level crossing -/
def fLx : W64 := 0x020
/-- SLI r-flip -/
def fRf : W64 := 0x040
/-- range clamp -/
def fRc : W64 := 0x080
/-- an integer result was saturated -/
def fSat : W64 := 0x100
/-- a reserved trit code was read -/
def mTfmt : W64 := 0x1
/-- an accumulator chain wrapped -/
def mAwrap : W64 := 0x2
/-- a block-scale shift outside -8 to 15 -/
def mSrng : W64 := 0x4
/-- an E8M0 scale of 0xFF -/
def mSnan : W64 := 0x8

/-- A flag where a condition holds. -/
def flagIf (b : Bool) (f : W64) : W64 := if b then f else 0

/-- ORs flags into those of a context (R96). -/
def orFlags (s : State) (c : Nat) (v m : W64) : State :=
  s.updCtx c fun x => { x with vflags := x.vflags ||| (v &&& 0x1FF), mflags := x.mflags ||| (m &&& 0xF) }

/-- The value of a W1C register after a write (R8). -/
def w1c (old v : W64) : W64 := old &&& ~~~ v

end Sys2Proof.Machine
end

