-- ==== Sys2Proof/Machine/Race.lean ====
section
/-! DEFINITION. The race detector (R302 to R306, R454, R455): the granule tags, the footprints in flight, and the test and
record of a checked thread access; and the paddock and poison tests that stand beside it (R84, R498). -/

namespace Sys2Proof.Machine

/-- The word mask of the bytes [k, k + n) in granule g (R304). -/
def wordMask (g k n : Nat) : BitVec 8 :=
  BitVec.ofFnLE fun i => decide (g * 64 + 8 * i < k + n ∧ k < g * 64 + 8 * i + 8)

/-- The granules that the bytes [k, k + n) meet. -/
def granules (k n : Nat) : List Nat := if n = 0 then [] else rangeFrom (k / 64) ((k + n - 1) / 64 - k / 64 + 1)

/-- The detector state of a granule. -/
def State.detOf (s : State) (g : Nat) : Det := mapGet {} s.det g

/-- The region that a tag names is open (R303). -/
def tagOpen (s : State) (t : Tag) : Bool := (s.ctx t.ctx).region == t.region

/-- A tag matches an access (R304). `c` is the accessing context, or none for an engine command. -/
def tagMatch (s : State) (c : Option Nat) (m : BitVec 8) (atomic : Bool) (t : Option Tag) : Option Tag :=
  match t with
  | none => none
  | some t => if some t.ctx ≠ c ∧ tagOpen s t ∧ t.mask &&& m ≠ 0 ∧ ¬ (t.atomic ∧ atomic) then some t else none

/-- The value of R306 for a recorded tag. -/
def raceTag (t : Tag) (words : BitVec 8) : W64 :=
  w64 (t.ctx * 2 ^ 52 + t.region % 1024 * 2 ^ 42 + words.toNat)

/-- The value of R306 for a footprint in flight. -/
def raceFoot (ctx queue : Nat) (words : BitVec 8) : W64 :=
  w64 (ctx * 2 ^ 52 + 2 ^ 41 + queue * 2 ^ 38 + words.toNat)

/-- The first definite match in a granule (R304): the tag, and whether it is a reader's. -/
def definiteTag (s : State) (c : Option Nat) (g : Nat) (m : BitVec 8) (write atomic : Bool) : Option (Tag × Bool) :=
  let d := s.detOf g
  match tagMatch s c m atomic d.writer with
  | some t => some (t, false)
  | none =>
    if write then
      match tagMatch s c m atomic d.r0 with
      | some t => some (t, true)
      | none => (tagMatch s c m atomic d.r1).map fun t => (t, true)
    else none

/-- What the first definite match in a granule reports (R306). -/
def definite (s : State) (c : Option Nat) (g : Nat) (m : BitVec 8) (write atomic : Bool) : Option W64 :=
  (definiteTag s c g m write atomic).map fun t => raceTag t.1 (t.1.mask &&& m)

/-- The possible condition of R304, and the reader tag that R455 names. -/
def possible (s : State) (c : Option Nat) (g : Nat) (m : BitVec 8) (write : Bool) : Option W64 :=
  let d := s.detOf g
  let live (t : Option Tag) : Option Tag := match t with
    | some t => if some t.ctx ≠ c ∧ tagOpen s t then some t else none
    | none => none
  if write && d.ovf then
    match live d.r0 with
    | some t => some (raceTag t m)
    | none => (live d.r1).map fun t => raceTag t m
  else none

/-- Records an access in a granule (R304). -/
def record (s : State) (c g : Nat) (m : BitVec 8) (write atomic : Bool) : State :=
  let d := s.detOf g
  let r := (s.ctx c).region
  let new : Tag := ⟨c, r, atomic, m⟩
  let own (t : Tag) : Tag := if t.region = r then ⟨c, r, t.atomic && atomic, t.mask ||| m⟩ else new
  let put (d : Det) : State := { s with det := mapSet {} s.det g d }
  let free (t : Option Tag) : Bool := match t with
    | none => true
    | some t => !tagOpen s t
  let mine (t : Option Tag) : Bool := match t with
    | none => false
    | some t => t.ctx == c
  if write then put { writer := some new, r0 := none, r1 := none, ovf := false }
  else if mine d.r0 then put { d with r0 := d.r0.map own }
  else if mine d.r1 then put { d with r1 := d.r1.map own }
  else if free d.r0 then put { d with r0 := some new }
  else if free d.r1 then put { d with r1 := some new }
  else put { d with ovf := true }

/-- A footprint in flight with its context, the queue code of R306 and the agent it belongs to (R292). -/
structure Live where
  ctx : Nat
  queue : Nat
  agent : Nat
  foot : Foot
  deriving DecidableEq, Repr

/-- Whether an MX command runs on the array (R213): `mma` and `mgo`. -/
def onArray (i : Instr) : Bool :=
  match i with
  | .mma _ | .mgo _ => true
  | _ => false

/-- The agent of a command (R292): CI 0, MX array 1, VX 2, CO 3, GX 4, MX tile port 5, on its core. -/
def agentOf (core : Nat) (c : Cmd) : Nat := 8 * core + (if c.q = 1 ∧ ¬ onArray c.instr then 5 else c.q)

/-- A command is in flight from its start to its completion (R305). -/
def Cmd.inFlight (c : Cmd) : Bool :=
  c.started && c.phase != .finished && c.phase != .queued

/-- The footprints in flight of one core: its commands (a relocated one stays with its owner), its dealer buffers and the messages on
their way to it (R44, R205, R305). -/
def coreLive (core : Nat) (k : Core) : List Live :=
  ((k.qs.toList.flatMap id).flatMap fun c =>
    if c.inFlight then c.foot.map fun f => ⟨c.ctx, c.q, agentOf core c, f⟩ else []) ++
  ((k.units.toList.zipIdx).flatMap fun (u, lane) =>
    match u with
    | none => []
    | some u =>
      if u.tasks = 0 then []
      else [⟨8 * core + lane, 5, 2 ^ 20 + core, ⟨sliceKey core (0x7FFA00 + (2 * lane + u.tasks % 2) * 256), 256, true, true, false⟩⟩]) ++
  (k.sends.map fun m => ⟨m.ctx, 6, 2 ^ 21 + m.ctx, ⟨sliceKey m.core m.off, m.data.length, true, true, false⟩⟩)

/-- Every footprint in flight. -/
def allLive (s : State) : List Live := s.cores.flatMap fun (i, k) => coreLive i k

/-- The words of granule g in which an access conflicts with a footprint (R305). -/
def footWords (g k n : Nat) (write atomic : Bool) (f : Foot) : BitVec 8 :=
  if f.checked && (write || f.write) && !(atomic && f.atomic) then wordMask g k n &&& wordMask g f.lo f.len else 0

/-- The words of granule g in which an access conflicts with any part of the footprint that `l` belongs to (R306). -/
def liveWords (s : State) (l : Live) (g k n : Nat) (write atomic : Bool) : BitVec 8 :=
  ((allLive s).filter fun o => o.ctx == l.ctx && o.queue == l.queue && o.agent == l.agent).foldl
    (fun w o => w ||| footWords g k n write atomic o.foot) 0

/-- The first conflict of a thread access in granule g with a footprint in flight. -/
def footHit (s : State) (c g k n : Nat) (write atomic : Bool) : Option W64 :=
  (allLive s).findSome? fun l =>
    if footWords g k n write atomic l.foot = 0 ∨ (l.queue = 6 ∧ l.ctx = c) then none
    else some (raceFoot l.ctx l.queue (liveWords s l g k n write atomic))

/-- The test of a checked thread access (R304, R305): cause and value of the first condition met. -/
def raceTest (s : State) (c k n : Nat) (write atomic : Bool) : Option (BitVec 8 × W64) :=
  let gs := granules k n
  match gs.findSome? fun g => definite s (some c) g (wordMask g k n) write atomic with
  | some v => some (cRace, v)
  | none =>
    match gs.findSome? fun g => footHit s c g k n write atomic with
    | some v => some (cRace, v)
    | none => (gs.findSome? fun g => possible s (some c) g (wordMask g k n) write).map fun v => (cRacePossible, v)

/-- Tests and records a checked access of the running context to slice bytes (R304). -/
def raceM (k n : Nat) (write atomic : Bool) : M Unit := do
  let s ← get
  match raceTest s s.cur k n write atomic with
  | some (c, v) => trapM c v
  | none => set ((granules k n).foldl (fun s g => record s s.cur g (wordMask g k n) write atomic) s)

/-- The class and partition of a job against a paddock (R84). -/
def paddockHit (s : State) (core off n job : Nat) : Bool :=
  (s.core core).paddock.toList.any fun p =>
    bit p 63 && decide (bits p 22 0 < off + n ∧ off < bits p 47 24) &&
      !(bits p 53 48 == (s.job job).fn && bits p 59 58 == (s.job job).cls)

/-- The paddock test of an access of the running context to slice bytes (R84). -/
def paddockM (k n : Nat) (eval : W64) : M Unit := do
  let s ← get
  check (!paddockHit s (keyCore k) (keyOff k) n s.me.job) cRights eval

/-- A slice that another context holds by `quiesce` makes an access wait at its source (R172). -/
def quiesceM (k : Nat) : M Unit := do
  let s ← get
  match (s.core (keyCore k)).holder with
  | none => pure ()
  | some c => await (c == s.cur)

/-- Whether any granule of [k, k + n) is poisoned (R498). -/
def poisoned (s : State) (k n : Nat) : Bool := (granules k n).any fun g => s.poison.contains g

/-- A key of device memory on a stack of a lost die (R18, R477). -/
def lostKey (s : State) (k : Nat) : Bool := decide (2 ^ 58 ≤ k ∧ k < 2 ^ 59) && (s.die ((k - 2 ^ 58) / 2 ^ 37)).lost

/-- A write that covers a whole granule clears its poison (R498). -/
def clearPoison (s : State) (k n : Nat) : State :=
  if s.poison = [] then s
  else { s with poison := s.poison.filter fun g => !decide (k ≤ g * 64 ∧ g * 64 + 64 ≤ k + n) }

end Sys2Proof.Machine
end

