-- ==== Sys2Proof/Machine/Xlate.lean ====
section
/-! DEFINITION. Address translation (R439 to R445): the walk of both stages, the mirror table, the cached translations, and
the page requests that an access joins when a stage-2 miss can be served (R446 to R448). -/

namespace Sys2Proof.Machine

/-- A leaf found by a walk: the address it gives, its page, and its rights (R440). -/
structure Leaf where
  out : Nat
  lo : Nat
  len : Nat
  host : Bool
  r : Bool
  w : Bool
  x : Bool
  deriving DecidableEq, Repr

/-- Why a walk of one table fails. -/
inductive WalkErr where
  | invalid
  | malformed
  /-- the read of a node failed in the other stage -/
  | other (cause : BitVec 8)
  /-- the read of a node missed in stage 2 where misses raise page requests -/
  | miss (ipa : Nat)
  deriving DecidableEq, Repr

/-- The levels of R439: shift, index bits and whether a leaf may or must stand there. -/
def walkLevels : List (Nat × Nat × Bool × Bool) :=
  [(55, 2, false, false), (42, 13, false, false), (29, 13, true, false), (16, 13, true, true)]

/-- A malformed entry (R440) at a level where a leaf may or must stand. -/
def xentryBad (e : W64) (may must : Bool) : Bool :=
  bits e 63 57 != 0 || bits e 15 6 != 0 || (bit e 1 && !may) || (!bit e 1 && must) ||
    (bit e 1 && !must && bits e 28 16 != 0) || (!bit e 1 && bits e 5 2 != 0)

/-- Walks one table from a base address, reading entries with `rd` (R439, R440). -/
def walk (rd : Nat → Except WalkErr W64) (va : Nat) : List (Nat × Nat × Bool × Bool) → Nat → Except WalkErr Leaf
  | [], _ => .error .malformed
  | (sh, nb, may, must) :: rest, base =>
    match rd (base + 8 * (va / 2 ^ sh % 2 ^ nb)) with
    | .error e => .error e
    | .ok e =>
      if !bit e 0 then .error .invalid
      else if xentryBad e may must then .error .malformed
      else if bit e 1 then
        let addr := bits e 56 16 * 2 ^ 16
        .ok ⟨addr + va % 2 ^ sh, va - va % 2 ^ sh, 2 ^ sh, bit e 5, bit e 2, bit e 3, bit e 4⟩
      else walk rd va rest (bits e 56 16 * 2 ^ 16)

/-- The partition-table entry of a partition, as eight words (R443). -/
def partEntry (s : State) (p : Nat) : List W64 := readWs s (devKey (64 * p)) 8

/-- A malformed partition-table entry (R443, R444). -/
def partBad (p : Nat) (e : List W64) : Bool :=
  bits (e.getD 0 0) 61 57 != 0 || bits (e.getD 0 0) 56 0 % 32 != 0 || (p == 0 && bit (e.getD 0 0) 63) ||
    bits (e.getD 1 0) 63 57 != 0 || bits (e.getD 1 0) 56 0 % 32 != 0

/-- What is asked of a translation. -/
structure XReq where
  part : Nat
  /-- the cluster whose translation cache serves the access; none for the I/O die -/
  cluster : Option Nat
  va : Nat
  r : Bool := false
  w : Bool := false
  x : Bool := false
  /-- HOST space: the leaf must name host memory (R441) -/
  host : Bool := false
  /-- the mirror table in place of stage 2 (R445) -/
  mirror : Bool := false
  /-- for a mirrored write, the writing die, whose partner must hold the page -/
  die : Option Nat := none
  /-- who waits if the walk misses: (0, context) or (1 + 5 core + queue, number) -/
  waiter : Nat × Nat := (0, 0)
  deriving Repr

/-- The answer of a translation. -/
inductive XRes where
  | ok (key : Nat) (fill : Option Tlb)
  | fail (cause : BitVec 8)
  | miss (ipa : Nat)
  deriving Repr

/-- The physical key of a last-stage output. -/
def outKey (host : Bool) (a : Nat) : Nat := if host then hostKey a else devKey a

/-- Reads an entry of a table in device memory. -/
def rdDev (s : State) (a : Nat) : Except WalkErr W64 := .ok (readW s (devKey a))

/-- Stage 2 of a partition for an intermediate address (R441, R444). -/
def stage2 (s : State) (e : List W64) (ipa : Nat) : Except WalkErr Leaf :=
  match walk (rdDev s) ipa walkLevels (bits (e.getD 1 0) 56 0) with
  | .ok l => .ok l
  | .error .invalid => if bit (e.getD 0 0) 62 then .error (.miss ipa) else .error (.other cXlateS2)
  | .error _ => .error (.other cXlateS2)

/-- The mirror table of a partition (R445): every failure is XLATE_S2. -/
def mirror2 (s : State) (e : List W64) (die : Option Nat) (wantW : Bool) (ipa : Nat) : Except WalkErr Leaf :=
  let root := bits (e.getD 7 0) 56 0
  if root = 0 ∨ bits (e.getD 7 0) 63 57 ≠ 0 ∨ root % 32 ≠ 0 then .error (.other cXlateS2)
  else
    match walk (rdDev s) ipa walkLevels root with
    | .error _ => .error (.other cXlateS2)
    | .ok l =>
      match die with
      | none => .ok l
      | some d =>
        if l.host || (wantW && !l.w) || l.out / 2 ^ 36 / 2 != (d ^^^ 1) then .error (.other cXlateS2) else .ok l

/-- Stage 1 of a partition (R441): node addresses pass through stage 2 where it is in force. -/
def stage1 (s : State) (e : List W64) (s2 : Bool) (va : Nat) : Except WalkErr Leaf :=
  let rd (a : Nat) : Except WalkErr W64 :=
    if s2 then
      match stage2 s e a with
      | .ok l => .ok (readW s (outKey l.host l.out))
      | .error x => .error x
    else .ok (readW s (devKey a))
  match walk rd va walkLevels (bits (e.getD 0 0) 56 0) with
  | .error .invalid => .error (.other cXlateS1)
  | .error .malformed => .error (.other cXlateS1)
  | r => r

/-- Whether a cached translation serves a request. -/
def Tlb.serves (t : Tlb) (q : XReq) : Bool :=
  (match q.cluster with
    | some c => t.cluster == c
    | none => false) && t.part == q.part && t.mirror == q.mirror && decide (t.lo ≤ q.va ∧ q.va < t.lo + t.len)

/-- The rights of an access against a leaf's or a cached entry's (R441). -/
def rightsOk (q : XReq) (r w x host : Bool) : Bool :=
  (!q.r || r) && (!q.w || w) && (!q.x || x) && (!q.host || host)

/-- Translates a virtual address (R441, R442, R444, R445). A cached translation is used until a `tlbi` removes it. (DEDUCED, log 20.) -/
def translate (s : State) (q : XReq) : XRes :=
  match s.tlb.find? fun t => t.serves q with
  | some t =>
    if rightsOk q t.r t.w t.x t.host then .ok (outKey t.host (t.out + (q.va - t.lo))) none else .fail cXlatePerm
  | none =>
    let e := partEntry s q.part
    let s2 := q.part != 0 && bit (e.getD 0 0) 63
    if partBad q.part e then .fail cXlateS1
    else
      match stage1 s e s2 q.va with
      | .error (.other c) => .fail c
      | .error (.miss i) => .miss i
      | .error _ => .fail cXlateS1
      | .ok l1 =>
        let second : Except WalkErr Leaf :=
          if q.mirror then mirror2 s e q.die q.w l1.out
          else if s2 then stage2 s e l1.out
          else .ok { l1 with lo := l1.out - (q.va - l1.lo) }
        match second with
        | .error (.other c) => .fail c
        | .error (.miss i) => .miss i
        | .error _ => .fail cXlateS2
        | .ok l2 =>
          let r := l1.r && l2.r
          let w := l1.w && l2.w
          let x := l1.x && l2.x
          let len := min l1.len l2.len
          let lo := q.va - q.va % len
          let fill := q.cluster.map fun c =>
            (⟨c, q.part, q.mirror, l1.lo, l1.len, l1.out, l2.lo, l2.len, lo, len, l2.out - q.va % len, l2.host, r, w, x⟩ : Tlb)
          if rightsOk q r w x l2.host then .ok (outKey l2.host l2.out) fill else .fail cXlatePerm

/-- The kind field of a request entry (R446). (DEDUCED, log 17.) -/
def reqKind (q : XReq) : Nat := if q.x then 3 else if q.r && q.w then 2 else if q.w then 1 else 0

/-- The access as the page requests name it. -/
def XReq.access (q : XReq) : Nat × Nat × Nat := (q.waiter.1, q.waiter.2, q.va)

/-- Joins the request outstanding for an intermediate page, or raises one (R446). -/
def joinReq (s : State) (q : XReq) (ipa : Nat) : State :=
  let page := ipa - ipa % 2 ^ 16
  if s.reqs.any fun r => r.part == q.part && r.ipa == page && r.answer.isNone then
    { s with reqs := s.reqs.map fun r =>
        if r.part = q.part ∧ r.ipa = page ∧ r.answer.isNone ∧ ¬ r.waiters.contains q.access
        then { r with waiters := r.waiters ++ [q.access] } else r }
  else { s with reqs := s.reqs ++ [⟨q.part, page, none, reqKind q, q.va, [q.access], s.time, 0, none⟩] }

/-- Whether a request that an access waits on has been answered with fail (R447). -/
def failedWait (s : State) (q : XReq) : Bool :=
  s.reqs.any fun r => r.part == q.part && r.answer == some false && r.waiters.contains q.access

/-- Whether an access waits on a request that is still to be answered, before which it does not walk again (R447, R448). (DEDUCED, log 18.) -/
def openWait (s : State) (q : XReq) : Bool :=
  s.reqs.any fun r => r.part == q.part && r.answer.isNone && r.waiters.contains q.access

/-- Takes a waiter off the failed requests, and drops those that nobody waits on. -/
def dropFailed (s : State) (w : Nat × Nat) : State :=
  let rs := s.reqs.map fun r => if r.answer = some false then { r with waiters := r.waiters.filter fun x => (x.1, x.2.1) != w } else r
  { s with reqs := rs.filter (fun r => !(r.answer == some false && r.waiters.isEmpty)) }

/-- Device memory past the 512 GiB that R18 gives the part. No rule makes an access there fault (R422): it is performed, what it reads is a
free value, and what it writes is never read. (DESIGN CHOICE, log 108.) -/
def noMemory (k : Nat) : Bool := decide (2 ^ 58 + 2 ^ 39 ≤ k ∧ k < 2 ^ 59)

/-- Free bytes. -/
def freeBytes : Nat → M (List Byte)
  | 0 => pure []
  | n + 1 => do
    let s ← get
    set { s with free := s.free + 1 }
    let l ← freeBytes n
    return Config.freeByte s.free :: l

/-- Reads n bytes at a translated key. -/
def readAt (k n : Nat) : M (List Byte) := do
  if noMemory k then freeBytes n else return readBytes (← get) k n

/-- A translation as a computation: the physical key, or the cause of the fault. A miss that a page request can serve joins
the request and waits. -/
def xlateM (q : XReq) : M (Except (BitVec 8) Nat) := do
  let s ← get
  if openWait s q then waitM
  if failedWait s q then
    set (dropFailed s q.waiter)
    return .error cXlateS2
  match translate s q with
  | .ok k fill =>
    match fill with
    | some t => modify fun s => { s with tlb := t :: s.tlb }
    | none => pure ()
    return .ok k
  | .fail c => return .error c
  | .miss i => holdWith fun s => joinReq s q i

/-- A translation by a thread: a failure traps with the virtual address (R444). -/
def xlateT (q : XReq) : M Nat := do
  match ← xlateM q with
  | .ok k => return k
  | .error c => trapM c (w64 q.va)

/-- A translation by the device on its own behalf, uncached (R452): none where it fails, or names no memory. -/
def xlateDev (s : State) (part va : Nat) (r w : Bool) : Option Nat :=
  match translate s { part, cluster := none, va, r, w } with
  | .ok k _ => if noMemory k then none else some k
  | _ => none

/-- The device reads n 64-bit words at a virtual address of a partition; none where a page does not translate. -/
def devReadWs (s : State) (part va : Nat) : Nat → Option (List W64)
  | 0 => some []
  | n + 1 =>
    match xlateDev s part va true false, devReadWs s part (va + 8) n with
    | some k, some t => some (readW s k :: t)
    | _, _ => none

/-- The device writes 64-bit words at a virtual address of a partition; none where a page does not translate. -/
def devWriteWs (s : State) (part va : Nat) : List W64 → Option State
  | [] => some s
  | v :: t =>
    match xlateDev s part va false true with
    | some k => devWriteWs (writeNat s k 8 v.toNat) part (va + 8) t
    | none => none

/-- The device writes n bytes of a value at a virtual address; the write is lost where it does not translate (R452). -/
def devStore (s : State) (part va n v : Nat) : State :=
  match xlateDev s part va false true with
  | some k => writeNat s k n v
  | none => s

end Sys2Proof.Machine
end

