-- ==== Sys2Proof/Machine/Access.lean ====
section
/-! DEFINITION. Where a layout access reaches (R71, R74, R86, R346) and the checked load and store of a thread (R75, R84,
R302 to R306, R423, R445, R498). -/

namespace Sys2Proof.Machine

/-- Where an element lies: in a slice, or at a virtual address, through a HOST entry, through a discardable entry without a
mirror. -/
inductive Place where
  | slice (k : Nat)
  | virt (va : Nat) (host : Bool) (gone : Bool)
  deriving DecidableEq, Repr

/-- The byte offset of an element from its entry's base, where every coordinate is below its extent (R74). -/
def elemOff (e : Layout) (coords : List Nat) : Option Int :=
  (List.range e.rank).foldl (fun a i =>
    match a with
    | none => none
    | some v => if coords.getD i 0 < e.ext i then some (v + (coords.getD i 0 : Int) * e.str i * (e.es : Int)) else none)
    (some 0)

/-- The die that a sequence handle names (R343). -/
def handleDie (h : Nat) : Nat := h / 2 ^ 30 % 4
/-- The generation of a handle. -/
def handleGen (h : Nat) : Nat := h / 2 ^ 16 % 2 ^ 14
/-- The slot of a handle. -/
def handleSlot (h : Nat) : Nat := h % 2 ^ 11

/-- The sequence that a slot of a die holds. -/
def State.seq (s : State) (d slot : Nat) : Seq := mapGet {} (s.die d).seqs slot
/-- Replaces a sequence. -/
def State.setSeq (s : State) (d slot : Nat) (q : Seq) : State :=
  s.updDie d fun x => { x with seqs := mapSet {} x.seqs slot q }

/-- The handle check of R343. -/
def handleOk (s : State) (part h : Nat) : Bool :=
  let q := s.seq (handleDie h) (handleSlot h)
  q.isOpen && q.gen == handleGen h && q.part == part && h / 2 ^ 11 % 2 ^ 5 == 0 && !(s.die (handleDie h)).lost

/-- Descriptor fields of a sequence (R344). -/
def Seq.histVa (q : Seq) : Nat := bits (q.desc.getD 0 0) 56 0
/-- The index region. -/
def Seq.idxVa (q : Seq) : Nat := bits (q.desc.getD 1 0) 56 0
/-- The committed page table. -/
def Seq.ptab (q : Seq) : Nat := bits (q.desc.getD 2 0) 56 0
/-- The tentative page table. -/
def Seq.tptab (q : Seq) : Nat := bits (q.desc.getD 3 0) 56 0
/-- Positions covered by the page table. -/
def Seq.maxpos (q : Seq) : Nat := bits (q.desc.getD 4 0) 63 32
/-- Largest tentative capacity. -/
def Seq.tmax (q : Seq) : Nat := bits (q.desc.getD 5 0) 41 32 + 1
/-- Bytes per position, as a power of two. -/
def Seq.lgpb (q : Seq) : Nat := bits (q.desc.getD 5 0) 20 16
/-- Index entries, as a power of two. -/
def Seq.lgI (q : Seq) : Nat := bits (q.desc.getD 5 0) 12 8
/-- Window, as a power of two. -/
def Seq.lgW (q : Seq) : Nat := bits (q.desc.getD 5 0) 4 0

/-- The page-table entry of a committed position or tentative slot: its address where it is valid (R346). -/
def kvPage (s : State) (part : Nat) (q : Seq) (tent : Bool) (n : Nat) : Option Nat :=
  match xlateDev s part ((if tent then q.tptab else q.ptab) + 8 * (n / 2 ^ (16 - q.lgpb))) true false with
  | none => none
  | some k =>
    let e := readW s k
    if bit e 0 && (tent || decide (n < q.maxpos)) then
      some (bits e 56 16 * 2 ^ 16 + n % 2 ^ (16 - q.lgpb) * 2 ^ q.lgpb)
    else none

/-- The tentative slots of a sequence's open transaction hold unspecified bytes (R347, R348): when it opens and when it ends, they take free
values, which a slot keeps until something writes it. -/
def looseSlots (s : State) (q : Seq) : State :=
  match q.tx with
  | none => s
  | some (_, cap, _) => (List.range cap).foldl (fun s n =>
      match (kvPage s q.part q true n).bind fun a => xlateDev s q.part a false true with
      | some k =>
        let m := 2 ^ q.lgpb
        writeBytes { s with free := s.free + m } k ((List.range m).map fun i => Config.freeByte (s.free + i))
      | none => s) s

/-- A sequence closes (R345): its transaction is dropped, clen goes back to the descriptor, the slot is freed. -/
def closeSeq (s : State) (die slot : Nat) : State :=
  let q := s.seq die slot
  (devStore (looseSlots s q) q.part (q.dva + 0x20) 4 q.clen).setSeq die slot { gen := (q.gen + 1) % 2 ^ 14 }

/-- Where an element of a KV entry lies (R86, R346). (DEDUCED, log 26.) -/
def kvPlace (s : State) (part : Nat) (e : Layout) (coords : List Nat) (write : Bool) : Except (BitVec 8) Place :=
  let q := s.seq (handleDie e.base) (handleSlot e.base)
  let p := coords.getD (e.rank - 1) 0
  if !handleOk s part e.base then .error cRights
  else
    let open? : Option Nat := match q.tx with
      | some (t, cap, _) => if t = e.txid then some cap else none
      | none => none
    if write && !e.kv then .error cRights
    else if e.kv && open?.isNone then .error cRights
    else if write && decide (p < q.clen) then .error cRights
    else if (List.range (e.rank - 1)).any fun i => decide (e.ext i ≤ coords.getD i 0) then .error cBounds
    else if !decide (p < q.clen) && !(e.kv && decide (p < q.clen + open?.getD 0)) then .error cBounds
    else
      let inner : Int := (List.range (e.rank - 1)).foldl
        (fun a i => a + (coords.getD i 0 : Int) * e.str i * (e.es : Int)) 0
      if inner < 0 ∨ (2 ^ q.lgpb : Int) < inner + (e.es : Int) then .error cBounds
      else
        match kvPage s part q (decide (q.clen ≤ p)) (if p < q.clen then p else p - q.clen) with
        | none => .error cBounds
        | some a => .ok (.virt (a + inner.toNat) false (e.dis && !e.mir))

/-- Where n bytes at an element of an entry lie, for an access by a context of core `core` and partition `part`. Rights
come before bounds (R423). -/
def placeOf (s : State) (core part : Nat) (e : Layout) (coords : List Nat) (n : Nat) (rd wr : Bool) :
    Except (BitVec 8) Place :=
  if !e.valid || (rd && !e.rd) || (wr && !e.wr) then .error cRights
  else if e.space = spKv then kvPlace s part e coords wr
  else if e.space = spNet then .error cRights
  else
    match elemOff e coords with
    | none => .error cBounds
    | some off =>
      if e.inSram then
        let o : Int := (e.base % 2 ^ 23 : Nat) + off
        if o < 0 ∨ (2 ^ 23 : Int) < o + n then .error cBounds
        else .ok (.slice (sliceKey (e.core core) (swz o.toNat e.perm)))
      else
        let a : Int := (e.base : Nat) + off
        if a < 0 ∨ (2 ^ 57 : Int) < a + n then .error cBounds
        else .ok (.virt a.toNat (e.space == spHost) (e.dis && !e.mir))

/-- Whether a job's stream has moved to its partner die (R445, R478). -/
def movedJob (s : State) (j : Nat) : Bool :=
  match (s.job j).stream with
  | some n => (s.stream n).moved
  | none => false

/-- The Contrail regions of open sequences, as (die, slot), that virtual bytes of a partition meet (R345). (DESIGN CHOICE, log 25.) -/
def seqRegions (s : State) (part va n : Nat) : List (Nat × Nat) :=
  s.dies.flatMap fun (d, x) => x.seqs.filterMap fun (i, q) =>
    let hit (lo len : Nat) : Bool := decide (lo < va + n ∧ va < lo + len)
    if q.isOpen && q.part == part && (hit q.histVa (4 * 2 ^ q.lgW) || hit q.idxVa (8 * 2 ^ q.lgI)) then some (d, i)
    else none

/-- The translation request of a thread of the running context. -/
def threadReq (s : State) (va : Nat) (rd wr host mirror : Bool) : XReq :=
  { part := partOf s s.cur, cluster := some (clusterOf s.cur), va, r := rd, w := wr, host, mirror, waiter := (0, s.cur) }

/-- The accesses of a moved stream, through a discardable entry without a mirror, to a page of a lost die (R482). -/
def goneHit (s : State) (k : Nat) (gone : Bool) : Bool := gone && lostKey s k && movedJob s s.me.job

/-- An access to a page of a lost die takes POISON_CONSUMED (R477). -/
def lostM (k va : Nat) : M Unit := do
  let s ← get
  check (!lostKey s k) cPoison (w64 (va - va % 64))

/-- A poisoned granule stops a thread's read (R498). -/
def poisonM (k n va : Nat) : M Unit := do
  let s ← get
  match (granules k n).find? fun g => s.poison.contains g with
  | none => pure ()
  | some g => trapM cPoison (w64 (if isSlice k then keyOff (g * 64) else va - va % 64))

/-- A thread's checked load of n bytes (R423 order 5 to 8); an atomic asks both rights of the page (R444). `ev` is the value that a paddock fault reports. -/
def loadPlace (p : Place) (n : Nat) (chk atomic : Bool) (ev : W64) (mirror : Bool) : M Nat := do
  match p with
  | .slice k =>
    paddockM k n ev
    quiesceM k
    if chk then raceM k n false atomic
    poisonM k n 0
    return readNat (← get) k n
  | .virt va host gone =>
    let s ← get
    let k ← xlateT (threadReq s va true atomic host mirror)
    if goneHit s k gone then return 0
    lostM k va
    poisonM k n va
    let s ← get
    if seqRegions s (partOf s s.cur) va n = [] && !noMemory k then return readNat s k n
    else return (← drawWord).toNat % 256 ^ n

/-- Marks the sequences whose regions a write meets (R345). -/
def taintSeqs (s : State) (part va n : Nat) : State :=
  (seqRegions s part va n).foldl (fun s (d, i) => s.setSeq d i { s.seq d i with taint := true }) s

/-- A thread's checked store of n bytes (R75, R445, R477, R481, R482). -/
def storePlace (p : Place) (n v : Nat) (chk atomic : Bool) (ev : W64) (mir moved : Bool) : M Unit := do
  match p with
  | .slice k =>
    paddockM k n ev
    quiesceM k
    if chk then raceM k n true atomic
    modify fun s => clearPoison (writeNat s k n v) k n
  | .virt va host gone =>
    let s ← get
    let k ← xlateT (threadReq s va false true host (mir && moved))
    if goneHit s k gone then return
    lostM k va
    let k2 ←
      if mir && !moved && !(s.die (dieOf s.cur ^^^ 1)).lost then do
        let k2 ← xlateT { threadReq s va false true host true with die := some (dieOf s.cur) }
        pure (some k2)
      else pure none
    modify fun s => taintSeqs (clearPoison (writeNat s k n v) k n) (partOf s s.cur) va n
    match k2 with
    | some k2 => modify fun s => clearPoison (writeNat s k2 n v) k2 n
    | none => pure ()

/-- A load of the running context by local offset, always checked (R75, R180). -/
def loadLocal (off n : Nat) (atomic : Bool) : M Nat := do
  let core ← myCore
  loadPlace (.slice (sliceKey core off)) n true atomic (w64 off) false

/-- A store of the running context by local offset. -/
def storeLocal (off n v : Nat) (atomic : Bool) : M Unit := do
  let core ← myCore
  storePlace (.slice (sliceKey core off)) n v true atomic (w64 off) false false

/-- A full/empty tag of the word at a key (R78): the full ones are listed. -/
def tagFull (s : State) (k : Nat) : Bool := s.tags.contains (k / 8)
/-- Sets a tag full. -/
def setFull (s : State) (k : Nat) : State := { s with tags := setIns (k / 8) s.tags }
/-- Sets a tag empty. -/
def setEmpty (s : State) (k : Nat) : State := { s with tags := setDel (k / 8) s.tags }

/-- A context has a register write on its way that waits at a bank (R79, R121). -/
def banked (s : State) (c : Nat) : Bool := s.bank.any fun b => b.ctx == c && !b.here && !b.ste

/-- Whether a tagged operation on a word can be served (R79): its tag allows it, and nothing of its kind waits there before
it. `mine` says which waiting operation, if any, is its own. -/
def tagReady (s : State) (k : Nat) (ste : Bool) (mine : BankWait → Bool) : Bool :=
  tagFull s k != ste &&
    (match s.bank.find? fun b => b.key == k && b.ste == ste with
      | none => true
      | some b => mine b)

end Sys2Proof.Machine
end

