-- ==== Sys2Proof/Machine/Operands.lean ====
section
/-! DEFINITION. Operand forms: scalar registers with their full/empty bits (R121, R122), chute ports (R81, R457),
immediates (R123, R142), coordinates (R178), group objects and chutes (R194, R203). -/

namespace Sys2Proof.Machine

/-- The bundle in issue of the running context. -/
def getIss : M Issue := do return (← getMe).iss.getD {}

/-- Changes the bundle in issue. -/
def modIss (f : Issue → Issue) : M Unit := modMe fun c => { c with iss := some (f (c.iss.getD {})) }

/-- The syllable being executed, zero-extended: what `sr.eval` receives for a reserved field (R119, R424). -/
def sylValue : M W64 := do return (← getIss).syl.setWidth 64

/-- A register value outside its limits (R424): RESERVED_FIELD at execution. -/
def limit (ok : Bool) : M Unit := do
  let w ← sylValue
  check ok cReserved w

/-- A field or limit that makes an issue-time RESERVED_FIELD. -/
def reservedUnless (ok : Bool) : M Unit := do
  let w ← sylValue
  if ok then pure () else issueTrapM cReserved w

/-- The syllable releases or acquires (R303). (DEDUCED, log 32.) -/
def markSync : M Unit := modIss fun i => { i with sync := true }

/-- The port that a register number names: 0-3 for qi0-qi3, 4-7 for qo0-qo3 (R81). -/
def portNo (r : Reg) : Option (Fin 8) :=
  if h : 56 ≤ r.toNat then some ⟨r.toNat - 56, by have := r.isLt; omega⟩ else none

/-- The chute bound to a register of a context. -/
def boundPort (c : Ctx) (r : Reg) : Option (Fin 8 × Nat) :=
  match portNo r with
  | none => none
  | some p => (c.ports.get p).map fun k => (p, k)

/-- Fields of a chute control word (R80). -/
def chuteSize (w : W64) : Nat := bits w 11 0
/-- Next slot to read. -/
def chuteHead (w : W64) : Nat := bits w 23 12
/-- Next slot to write. -/
def chuteTail (w : W64) : Nat := bits w 35 24
/-- Elements held. -/
def chuteCount (w : W64) : Nat := bits w 48 36

/-- The validity tests of a control word at a slice key (R203). -/
def chuteOk (k : Nat) (w : W64) : Bool :=
  chuteSize w != 0 && decide (chuteCount w ≤ chuteSize w + 1) && decide (chuteHead w ≤ chuteSize w) &&
    decide (chuteTail w ≤ chuteSize w) && bits w 63 62 == 0 && bits w 59 49 == 0 &&
    decide (keyOff k + 8 + 8 * (chuteSize w + 1) ≤ 2 ^ 23)

/-- A pop or push through a chute ends the `idle` of the contexts bound to it (R156). -/
def wakePorts (s : State) (k : Nat) : State :=
  { s with ctxs := s.ctxs.map fun (i, c) => (i, if c.run == .idle && c.ports.toList.contains (some k) then { c with run := .live } else c) }

/-- Pops the chute bound to a qi port (R81, R302, R457): waits while it is empty, and its context with it, at a chute of another slice too
(DEDUCED, log 130). `chk` says whether its accesses are checked. -/
def popChute (k : Nat) (chk : Bool) : M W64 := do
  quiesceM k
  paddockM k 8 (w64 (keyOff k))
  let w := readW (← get) k
  check (chuteOk k w && bit w 60) cChute w
  await (chuteCount w != 0)
  let sk := k + 8 + 8 * chuteHead w
  paddockM sk 8 (w64 (keyOff sk))
  if chk then raceM k 8 true true
  if chk then raceM sk 8 false true
  poisonM k 8 0
  poisonM sk 8 0
  let v := readW (← get) sk
  let w1 := setBits (setBits w 23 12 ((chuteHead w + 1) % (chuteSize w + 1))) 48 36 (chuteCount w - 1)
  modify fun s => wakePorts (writeNat s k 8 w1.toNat) k
  let core ← myCore
  modIss fun i => { i with sync := true, remote := i.remote || keyCore k != core }
  return v

/-- Pushes to the chute bound to a qo port (R81, R302, R457): waits while it is full. -/
def pushChute (k : Nat) (chk : Bool) (v : W64) : M Unit := do
  quiesceM k
  paddockM k 8 (w64 (keyOff k))
  let w := readW (← get) k
  check (chuteOk k w && bit w 61) cChute w
  await (decide (chuteCount w < chuteSize w + 1))
  let sk := k + 8 + 8 * chuteTail w
  paddockM sk 8 (w64 (keyOff sk))
  if chk then raceM k 8 true true
  if chk then raceM sk 8 true true
  poisonM k 8 0
  modify fun s => writeNat s sk 8 v.toNat
  let w1 := setBits (setBits w 35 24 ((chuteTail w + 1) % (chuteSize w + 1))) 48 36 (chuteCount w + 1)
  modify fun s => wakePorts (writeNat s k 8 w1.toNat) k
  markSync

/-- The accesses through a port are checked (R75, R302). -/
def Ctx.portChk (c : Ctx) (p : Fin 8) : Bool := !c.unchecked.getLsbD p.val

/-- A value popped ahead by CHUTE_POP is taken before the chute is popped again. -/
def popPort (p : Fin 8) (k : Nat) : M W64 := do
  let c ← getMe
  match c.latch.toList.getD p.val none with
  | some v =>
    modMe fun c => { c with latch := c.latch.set! p.val none }
    markSync
    return v
  | none => do
    let v ← popChute k (c.portChk p)
    let core ← myCore
    if keyCore k != core then modIss fun i => { i with pops := i.pops ||| BitVec.twoPow 4 p.val }
    return v

/-- Reads a source register with its e bit (R121, R122, R81). -/
def readReg (r : Reg) (e : Bool) : M W64 := do
  let c ← getMe
  if r = 0 then return 0
  else
    match boundPort c r with
    | some (p, k) =>
      if p.val < 4 then popPort p k
      else do
        let w := readW (← get) k
        trapM cChute w
    | none =>
      match (c.iss.getD {}).snap with
      | some v => return v.get r.toFin
      | none =>
        if c.empty.getLsbD r.toNat then
          if e then issueTrapM cRegEmpty (r.setWidth 64) else waitM
        else return c.x.get r.toFin

/-- Reads a source. -/
def readSrc (a : Src) : M W64 := readReg a.r a.e

/-- ORs flags into those of the running context. -/
def flagMe (fl : W64) : M Unit := modMe fun c => { c with vflags := c.vflags ||| fl }

/-- Marks a register empty with a value on its way, and the flags that come with it (R121, R189); a bound port is pushed, and x0
discards. -/
def pendRegF (r : Reg) (v fl : W64) : M Unit := do
  let c ← getMe
  if r = 0 then flagMe fl
  else
    match boundPort c r with
    | some (p, k) =>
      if 4 ≤ p.val then do
        pushChute k (c.portChk p) v
        flagMe fl
      else do
        let w := readW (← get) k
        trapM cChute w
    | none =>
      if c.empty.getLsbD r.toNat then waitM
      else modMe fun c => { c with empty := c.empty ||| BitVec.twoPow 64 r.toNat, pend := c.pend ++ [⟨r.toNat, v, fl, (c.iss.getD {}).pops⟩] }

/-- Marks a register empty with a value on its way. -/
def pendReg (r : Reg) (v : W64) : M Unit := pendRegF r v 0

/-- Writes a destination register (R121, R81): x0 discards, a bound qo port pushes, and a register with a write on its way
waits for it. A value that came through a chute of another slice arrives later. -/
def writeReg (r : Reg) (v : W64) : M Unit := do
  let c ← getMe
  if r = 0 then pure ()
  else
    match boundPort c r with
    | some (p, k) =>
      if 4 ≤ p.val then pushChute k (c.portChk p) v
      else do
        let w := readW (← get) k
        trapM cChute w
    | none =>
      if c.empty.getLsbD r.toNat then waitM
      else if (c.iss.getD {}).remote then pendReg r v
      else modMe fun c => { c with x := c.x.set r.toNat v }

/-- The arrival of the oldest value on its way to register r of a context. -/
def arrive1 (c : Ctx) (r : Nat) : Ctx :=
  match c.pend.find? fun p => p.r == r with
  | none => c
  | some p =>
    let rest := c.pend.eraseP fun p => p.r == r
    { c with
      x := c.x.set! (r % 64) p.v
      pend := rest
      vflags := c.vflags ||| p.fl
      empty := if rest.any fun p => p.r == r then c.empty else c.empty &&& ~~~ BitVec.twoPow 64 r }

/-- Every value on its way arrives (R409). -/
def arriveAll (c : Ctx) : Ctx := (c.pend.map (·.r)).foldl arrive1 c

/-- The second source of R-format scalar instructions (R142). -/
def readOp2 (o : Op2) : M W64 :=
  match o with
  | .reg b eb => readReg b eb
  | .imm v => pure (v.signExtend 64)
  | .wide v => pure (v.signExtend 64)

/-- Both sources of an R-format scalar instruction, a before b (R81, R142). -/
def readOps (r : RArgs) : M (W64 × W64) := do
  let a ← readReg r.a r.ea
  let b ← readOp2 r.op2
  return (a, b)

/-- Consecutive registers after the first, which have no e bit (R122, R178). -/
def readRun (a : Reg) : Nat → M (List W64)
  | 0 => pure []
  | n + 1 => do
    let v ← readReg a false
    let t ← readRun (a + 1) n
    return v :: t

/-- The coordinates of a layout access: x(a) with its e bit, then the following registers up to the rank (R74, R178). A
form that would run past x63 is reserved. -/
def readCoords (a : Reg) (ea : Bool) (rank : Nat) : M (List Nat) := do
  reservedUnless (decide (a.toNat + (rank - 1) ≤ 63))
  let v ← readReg a ea
  let t ← readRun (a + 1) (rank - 1)
  return (v :: t).map BitVec.toNat

/-- A register pair (R232). -/
def readPair (a : Reg) : M (W64 × W64) := do
  let v ← readReg a false
  let w ← readReg (a + 1) false
  return (v, w)

/-- A layout entry of the running context. -/
def getEntry (l : Nat) : M Layout := do
  let s ← get
  return entryOf s s.cur l

/-- Where n bytes at an element of entry l lie; a fault reports the entry number (R415, R428). -/
def placeM (l : Nat) (e : Layout) (coords : List Nat) (n : Nat) (rd wr : Bool) : M Place := do
  let s ← get
  match placeOf s (coreOf s.cur) (partOf s s.cur) e coords n rd wr with
  | .ok p => return p
  | .error c => trapM c (w64 l)

/-- The spaces that a family accepts (R178). -/
def spaceM (l : Nat) (e : Layout) (ok : Bool) : M Unit := check (e.valid && ok) cRights (w64 l)

/-- Every element that n bytes from an element of an entry cover has its coordinates within the extents (R74): the elements that lie
one after another run along the first dimension of stride 1. (DEDUCED, log 118.) -/
def coversOk (e : Layout) (coords : List Nat) (n : Nat) : Bool :=
  match (List.range e.rank).find? fun i => e.str i == 1 with
  | some i => decide (coords.getD i 0 + (n + e.es - 1) / e.es ≤ e.ext i)
  | none => true

/-- The slice key of a group object or chute control word of n bytes, aligned to al, and whether the access is checked
(R74, R194, R203). -/
def objectM (g : GArgs) (n al : Nat) : M (Nat × Bool) := do
  match g.lay with
  | none =>
    let v ← readReg g.a g.ea
    limit (decide (v.toNat < 2 ^ 23))
    check (v.toNat % al == 0) cMisaligned v
    check (decide (v.toNat + n ≤ 2 ^ 23)) cBounds v
    let core ← myCore
    return (sliceKey core v.toNat, true)
  | some l =>
    let e ← getEntry l.toNat
    let coords ← readCoords g.a g.ea (max e.rank 1)
    spaceM l.toNat e e.inSram
    match ← placeM l.toNat e coords n true true with
    | .slice k =>
      check (coversOk e coords n) cBounds (w64 l.toNat)
      check (k % al == 0) cMisaligned (w64 (keyOff k))
      return (k, e.chk)
    | .virt _ _ _ => trapM cRights (w64 l.toNat)

end Sys2Proof.Machine
end

