-- ==== Sys2Proof/Machine/Units.lean ====
section
/-! DEFINITION. Units and tasks (R28, R29, R43 to R46, R54), timelines (R191), the end of a context's stay in groups,
chutes and engine queues (R38, R197, R200, R204, R418), cancels (R420) and kills (R410, R419). -/

namespace Sys2Proof.Machine

/-- Fields of a job card (R39). -/
def Job.w (j : Job) (i : Nat) : W64 := j.card.getD i 0
/-- Record size in bytes. -/
def Job.recsz (j : Job) : Nat := bits (j.w 0) 55 48 + 1
/-- Dealing factor. -/
def Job.k (j : Job) : Nat := bits (j.w 0) 35 32 + 1
/-- A kill cancels the launch. -/
def Job.kcancel (j : Job) : Bool := bit (j.w 0) 31
/-- Role triple. -/
def Job.triple (j : Job) : Bool := bit (j.w 0) 21
/-- Stream work. -/
def Job.strm (j : Job) : Bool := bit (j.w 0) 22
/-- Argument array. -/
def Job.args (j : Job) : Nat := bits (j.w 2) 56 0
/-- Minimum chunk. -/
def Job.cmin (j : Job) : Nat := bits (j.w 3) 63 48
/-- Cycle limit per task. -/
def Job.climit (j : Job) : Nat := bits (j.w 4) 47 0
/-- Placement table. -/
def Job.plctab (j : Job) : Nat := bits (j.w 8) 56 0
/-- Completion signal word. -/
def Job.csig (j : Job) : Nat := bits (j.w 10) 56 0
/-- Tile registers live across tasks. -/
def Job.livez (j : Job) (i : Nat) : Bool := bit (j.w 12) i
/-- Accumulators live across tasks. -/
def Job.liveacc (j : Job) (i : Nat) : Bool := bit (j.w 12) (8 + i)
/-- Live regions as (offset, length, discardable). -/
def Job.regions (j : Job) : List (Nat × Nat × Bool) :=
  (List.range (bits (j.w 12) 22 20)).map fun i => (bits (j.w (13 + i)) 22 0, bits (j.w (13 + i)) 47 24, bit (j.w 12) (16 + i))
/-- The launch still has records to deal. -/
def Job.dealing (j : Job) : Bool := !j.cancelled && (j.rem != 0 || j.returned != [])

/-- The key of a timeline's offset: units of one logical core may stand on two cores after a move (R50). -/
def tlKey (lcore core tl : Nat) : Nat := 8 * (512 * lcore + core) + tl

/-- The presented value of a timeline for a logical core of a job, on a core that holds it (R191). (DEDUCED, log 29.) -/
def presented (s : State) (job lcore core tl : Nat) : Nat :=
  let (o, f) := mapGet (0, 0) (s.job job).tloff (tlKey lcore core tl)
  max f (((s.core core).tlDone.toList.getD tl 0 : Nat) + o).toNat

/-- The presented number of a command's physical number. -/
def presentNum (s : State) (job lcore core tl num : Nat) : Nat :=
  let (o, _) := mapGet (0, 0) (s.job job).tloff (tlKey lcore core tl)
  ((num : Int) + o).toNat

/-- The presented value of a timeline of the running context's own core. -/
def myTl (s : State) (c tl : Nat) : Nat := presented s (s.ctx c).job (s.ctx c).lcore (coreOf c) tl

/-- Takes finished commands off the front of a queue, and the timeline with them (R213, R418). -/
def drainList : List Cmd → Nat → List Cmd × Nat
  | [], d => ([], d)
  | c :: t, d => if c.phase = .finished then drainList t c.num else (c :: t, d)

/-- The commands of queue q of a core, oldest first. A command that a sibling runs (R230) stays in place, with its runner
named, and takes no entry. -/
def Core.queue (k : Core) (q : Nat) : List Cmd := k.qs.toList.getD q []

/-- The timeline of queue q of a core follows its finished commands (R213). -/
def drainQ (k : Core) (q : Nat) : Core :=
  let (l, d) := drainList (k.queue q) (k.tlDone.toList.getD q 0)
  { k with qs := k.qs.set! q l, tlDone := k.tlDone.set! q d }

/-- Entries of a queue in use (R213). -/
def Core.used (k : Core) (q : Nat) : Nat :=
  ((k.queue q).filter fun c => c.phase != .finished && c.runner.isNone).length

/-- Replaces the command of a number in a queue. -/
def Core.putCmd (k : Core) (c : Cmd) : Core :=
  { k with qs := k.qs.set! c.q ((k.queue c.q).map fun x => if x.num = c.num then c else x) }

/-- The command with a number in a queue. -/
def Core.cmd (k : Core) (q num : Nat) : Option Cmd := (k.queue q).find? fun c => c.num == num

/-- The commands of a context that have not completed, as (queue, number). -/
def ownCmds (s : State) (c : Nat) : List (Nat × Nat) :=
  let k := s.core (coreOf c)
  ((k.qs.toList.flatMap id).filter fun x => x.ctx == c && x.phase != .finished).map fun x => (x.q, x.num)

/-- Work of a partition on a die, to whose account its energy goes (R382, R500). -/
def charge (s : State) (die fn : Nat) : State := s.updDie die fun d => { d with worked := setIns fn d.worked }

/-- Ends the high-current interval of a context (R375): the level falls once its commands have completed. -/
def endLevel (s : State) (c : Nat) : State :=
  if (s.ctx c).held = 0 then s
  else
    let l := ownCmds s c
    s.updCtx c fun x => if l = [] then { x with held := 0, release := none } else { x with release := some l }

/-- Words of a group object (R37). -/
structure Group where
  w0 : W64
  w1 : W64
  w2 : W64
  w3 : W64

/-- Reads a group object. -/
def readGroup (s : State) (k : Nat) : Group := ⟨readW s k, readW s (k + 8), readW s (k + 16), readW s (k + 24)⟩
/-- Writes the words of a group object that the device changes. -/
def writeGroup (s : State) (k : Nat) (g : Group) : State :=
  writeNat (writeNat (writeNat (writeNat s k 8 g.w0.toNat) (k + 8) 8 g.w1.toNat) (k + 16) 8 g.w2.toNat) (k + 24) 8 g.w3.toNat
/-- Generation. -/
def Group.gen (g : Group) : BitVec 32 := g.w0.extractLsb' 0 32
/-- Members. -/
def Group.members (g : Group) : Nat := bits g.w0 47 32
/-- Arrivals in the episode. -/
def Group.arrived (g : Group) : Nat := bits g.w0 63 48
/-- Scope field. -/
def Group.scope (g : Group) : Nat := bits g.w1 2 0
/-- Live. -/
def Group.valid (g : Group) : Bool := bit g.w1 3
/-- Release phases. -/
def Group.phases (g : Group) : Nat := bits g.w1 7 4 + 1
/-- Completed episodes. -/
def Group.epoch (g : Group) : BitVec 32 := g.w1.extractLsb' 32 32
/-- Sets the member count. -/
def Group.setMembers (g : Group) (n : Nat) : Group := { g with w0 := setBits g.w0 47 32 n }
/-- Sets the arrival count. -/
def Group.setArrived (g : Group) (n : Nat) : Group := { g with w0 := setBits g.w0 63 48 n }
/-- Sets the epoch. -/
def Group.setEpoch (g : Group) (n : Nat) : Group := { g with w1 := setBits g.w1 63 32 n }

/-- The consistency tests of R458. -/
def Group.sound (g : Group) : Bool :=
  bits g.w1 15 8 == 0 && bits g.w2 63 32 == 0 && g.w3 == 0 && decide (g.scope < 6) && decide (g.arrived ≤ g.members) &&
    decide (g.members ≤ 3072)

/-- What contexts wait in changes, those of saved units among them (R199). -/
def mapWaits (s : State) (f : Wait → Wait) : State :=
  { s with
    ctxs := s.ctxs.map fun p => (p.1, { p.2 with waits := p.2.waits.map f })
    saved := s.saved.map fun v => { v with ctxs := v.ctxs.map fun p => (p.1, { p.2 with waits := p.2.waits.map f }) } }

/-- Releases the episode of an object (R200): epoch + 1, no arrivals, and every context that waits for it enters its
phase delay. -/
def releaseEpisode (s : State) (k : Nat) : State :=
  let g := readGroup s k
  let s := writeGroup s k ((g.setArrived 0).setEpoch ((g.epoch + 1).toNat))
  mapWaits s fun w =>
    match w with
    | .bar o n t => if o = k ∧ t = g.epoch then .phase o n t else w
    | .bwait o n t => if o = k ∧ t = g.epoch then .phase o n t else w
    | _ => w

/-- A context leaves a group (R197): the list entry goes; a stale generation leaves the object alone. -/
def leaveGroup (s : State) (c : Nat) (m : Member) : State :=
  let s := s.updCtx c fun x => { x with groups := x.groups.filter (· != m) }
  let g := readGroup s m.obj
  if g.gen ≠ m.gen ∨ ¬ g.sound then s
  else
    let g1 := if m.arrived = some g.epoch ∧ g.arrived ≠ 0 then g.setArrived (g.arrived - 1) else g
    let g2 := g1.setMembers (g1.members - 1)
    let s := writeGroup s m.obj g2
    if g2.members ≠ 0 ∧ g2.arrived = g2.members then releaseEpisode s m.obj else s

/-- A context leaves every group, in list order (R38). -/
def leaveAll (s : State) (c : Nat) : State := (s.ctx c).groups.foldl (fun s m => leaveGroup s c m) s

/-- Clears the bound bit of a port's chute and frees the port (R204): the register holds 0 and is full. -/
def unbindPort (s : State) (c : Nat) (p : Fin 8) : State :=
  match (s.ctx c).ports.get p with
  | none => s
  | some k =>
    let w := readW s k
    let s := writeNat s k 8 (setBits w (if p.val < 4 then 60 else 61) (if p.val < 4 then 60 else 61) 0).toNat
    s.updCtx c fun x => { x with
      ports := x.ports.set p.val none
      x := x.x.set! (56 + p.val) 0
      empty := x.empty &&& ~~~ BitVec.twoPow 64 (56 + p.val)
      latch := if p.val < 4 then x.latch.set! p.val none else x.latch }

/-- Unbinds every port of a context (R204). -/
def unbindAll (s : State) (c : Nat) : State :=
  (List.finRange 8).foldl (fun s p => unbindPort s c p) s

/-- Ends the holds of a context on slices (R172), and on the starts of its core's engines (R490). -/
def dropHolds (s : State) (c : Nat) : State :=
  { s with cores := s.cores.map fun (i, k) =>
      (i, { k with
        holder := if k.holder = some c then none else k.holder
        overBy := if k.overBy = some c then none else k.overBy }) }

/-- Discards the commands of a core that satisfy a test and have not started or have failed (R418): nothing is performed,
no token is pushed and no arrival made, and the number is reached. Those that run complete and make no arrival. -/
def discardCmds (s : State) (core : Nat) (p : Cmd → Bool) : State :=
  let f (x : Cmd) : Cmd :=
    if !p x then x
    else
      match x.phase with
      | .queued | .failed | .delivered => { x with phase := .finished, quiet := true }
      | _ => { x with quiet := true }
  s.updCore core fun k =>
    (List.range 5).foldl drainQ { k with qs := k.qs.map (·.map f) }

/-- A context waits at no tag any longer; a store that has retired and waits at another core's bank stays there (R79). (DESIGN CHOICE, log 16.) -/
def leaveBank (s : State) (c : Nat) : State := { s with bank := s.bank.filter fun b => b.ctx != c || (b.ste && !b.here) }

/-- A context waits at its die's arbiter no longer. -/
def leaveArbiter (s : State) (c : Nat) : State :=
  s.updDie (dieOf c) fun d => { d with waiters := d.waiters.filter fun w => w.1 != c }

/-- What every stopped context does (R419, R420): it leaves its groups, unbinds its chutes, releases its levels and its
holds, and its region closes (R303). -/
def retireCtx (s : State) (c : Nat) : State :=
  bumpRegion (leaveArbiter (leaveBank (dropHolds (endLevel (unbindAll (leaveAll s c) c) c) c) c) c) c

/-- The name under which a context of a saved unit holds a slice (R172): no context has it. -/
def savedName (handle n : Nat) : Nat := 2 ^ 20 + 8 * handle + n

/-- The operations of a context that wait at banks pass to another name (R79). -/
def renameBank (s : State) (a b : Nat) : State :=
  { s with bank := s.bank.map fun w => if w.ctx = a then { w with ctx := b } else w }

/-- The hold of a context on slices passes to another name (R172). -/
def renameHolder (s : State) (a b : Nat) : State :=
  { s with cores := s.cores.map fun (i, k) => (i, { k with holder := if k.holder = some a then some b else k.holder }) }

/-- The contexts of a saved unit that will not resume leave their groups, unbind their chutes and end their holds (R52, R172, R477). -/
def leaveSaved (s : State) (sv : SavedUnit) : State :=
  sv.ctxs.foldl (fun s (n, x) =>
    let c := 8 * sv.core + n
    let old := s.ctx c
    dropHolds ((unbindAll (leaveAll (s.setCtx c x) c) c).setCtx c old) (savedName sv.handle n)) s

/-- Frees a slot of a flow's receive ring (R392). -/
def freeSlot (s : State) (flow slot : Nat) : State :=
  let f := s.flow flow
  s.setFlow flow { f with slots := f.slots.filter (· != slot) }

/-- A discarded message from the network leaves its ring slot (R392). -/
def freeRing (s : State) (a : Arrival) : State :=
  match a.ring with
  | some (f, n) => freeSlot s f n
  | none => s

/-- Commands of cancelled jobs that have not started, that wait on a page request, or that have failed, are discarded (R420, R453). -/
def discardJob (s : State) (j : Nat) : State :=
  s.cores.foldl (fun s (i, _) =>
    let s := ((s.core i).arrivals.filter fun a => a.job == j).foldl freeRing s
    let s := s.updCore i fun k => { k with arrivals := k.arrivals.filter fun a => !(a.job == j) }
    s.updCore i fun k =>
      let f (x : Cmd) : Cmd := if x.job = j ∧ x.phase ≠ .running ∧ x.phase ≠ .finished then { x with phase := .finished, quiet := true } else x
      (List.range 5).foldl drainQ { k with qs := k.qs.map (·.map f) }) s

/-- The saved units of a job stand at a point where a cancel stops them (R420): they do not resume. -/
def dropSaved (s : State) (j : Nat) : State :=
  let s := (s.saved.filter fun v => v.unit.job == j).foldl leaveSaved s
  { s with saved := s.saved.filter fun v => v.unit.job != j }

/-- A cancel of a job reaches every live job of its lineage (R59, R420). (DEDUCED, log 43.) -/
def cancelJob (s : State) (j : Nat) : State :=
  let hit := (s.jobs.map (·.1)).filter fun i => inLineage s j i && (s.job i).fin == 0
  let s := { s with jobs := s.jobs.map fun (i, x) =>
    (i, if hit.contains i then { x with cancelled := true, rem := 0, returned := [] } else x) }
  hit.foldl (fun s i => discardJob (dropSaved s i) i) s

/-- The resume point of R162. -/
def epcWord (pc : BitVec 57) (slot : Bool) (rep : BitVec 6) : W64 :=
  w64 (rep.toNat * 2 ^ 58 + pc.toNat / 16 * 16 + (if slot then 1 else 0))

/-- The contexts of a unit (R28). -/
def unitCtxs (core lane : Nat) (u : UnitSt) : List Nat :=
  if u.triple then [8 * core, 8 * core + 1, 8 * core + 2] else [8 * core + lane]

/-- A context that will issue nothing more for its unit. -/
def Ctx.over_ (x : Ctx) : Bool := x.run == .halted || x.run == .killed

/-- A unit whose contexts have all halted, been killed or been stopped leaves its core (R56). -/
def freeUnits (s : State) (core : Nat) : State :=
  let gone (lane : Nat) : Bool :=
    match (s.core core).units.toList.getD lane none with
    | some u => (unitCtxs core lane u).all fun c => (s.ctx c).over_
    | none => false
  (List.range 3).foldl (fun s lane => if gone lane then s.updCore core fun k => { k with units := k.units.set! lane none } else s) s

/-- Kills a context (R410, R419): kind, cause, resume point and value of the final fault go to the supervisor record. (DEDUCED, log 109.) -/
def killCtx (s : State) (c kind : Nat) (cause : BitVec 8) (epc eval : W64) : State :=
  let x := s.ctx c
  let s := retireCtx s c
  let s := discardCmds s (coreOf c) fun y => y.ctx == c
  let s := s.updJob x.job fun j => { j with nkill := (j.nkill + 1) % 2 ^ 32 }
  let j := s.job x.job
  let rec8 := w64 (c % 4096 * 2 ^ 52 + x.lcore % 2 ^ 16 * 2 ^ 36 + 0x3E * 2 ^ 24 + x.tlevel.toNat * 2 ^ 16 + kind * 2 ^ 8 +
    cause.toNat)
  let s := match devWriteWs s j.fn (j.plctab + 0x240)
      [w64 (j.nkill * 2 ^ 32 + j.fin), rec8, epc, eval, w64 s.time, 0, 0, 0] with
    | some s' => s'
    | none => s
  let s := s.updCtx c fun y => { y with
    run := if isHandler c then .off else .killed
    iss := none
    waits := Vector.replicate 3 .none
    before := none
    pend := []
    empty := 0 }
  let s := freeUnits s (coreOf c)
  if j.kcancel then cancelJob s x.job else s

/-- A context that a cancel stops (R420): no trap is taken and it is not counted in nkill. -/
def stopCancelled (s : State) (c : Nat) : State :=
  let s := retireCtx s c
  freeUnits (s.updCtx c fun y => { y with run := .halted, iss := none, waits := Vector.replicate 3 .none, before := none })
    (coreOf c)

/-- The lane of the unit that holds a role context, and the unit (R28). -/
def unitOf (s : State) (c : Nat) : Option (Nat × UnitSt) :=
  let k := s.core (coreOf c)
  match k.units.toList.getD (c % 8) none with
  | some u => if isHandler c then none else some (c % 8, u)
  | none =>
    match k.units.toList.getD 0 none with
    | some u => if u.triple && !isHandler c then some (0, u) else none
    | none => none

/-- A unit of a launch stands on a logical core of it (R50). -/
def unitOfLcore (s : State) (job lcore : Nat) : Bool :=
  s.cores.any fun p => p.2.units.toList.any fun u => match u with
    | some u => u.job == job && u.lcore == lcore
    | none => false

/-- A launch holds a logical core (R205): a unit of it stands there, or was saved from there. -/
def holdsLcore (s : State) (job lcore : Nat) : Bool :=
  unitOfLcore s job lcore || s.saved.any fun v => v.unit.job == job && v.unit.lcore == lcore

/-- Replaces the unit of a lane. -/
def setUnit (s : State) (core lane : Nat) (u : Option UnitSt) : State :=
  s.updCore core fun k => { k with units := k.units.set! lane u }

/-- Units that hold a launch, on all dies (R43). -/
def holders (s : State) (job : Nat) : Nat :=
  (s.cores.map fun (_, k) => (k.units.toList.filter fun u => match u with
    | some u => u.job == job
    | none => false).length).sum

/-- Records not yet dealt, the returned ones included (R54). -/
def Job.left (j : Job) : Nat := j.rem + (j.returned.map (·.2)).sum

/-- After a chunk of a job, the next at its fixed level goes to the job after it (R332). -/
def passTurn (s : State) (d : Nat) (j : Job) : State :=
  if 1 ≤ j.prio ∧ j.prio ≤ 7 then s.updDie d fun x => { x with turns := mapSet 0 x.turns j.prio (j.seq + 1) } else s

/-- A unit of die d takes a chunk from the launch's record counter (R43, R54, R332): first record and length. -/
def takeChunk (s : State) (d job : Nat) : Option (Nat × Nat × State) :=
  let j := s.job job
  if !j.dealing then none
  else
    let s := passTurn s d j
    let want := max j.cmin (ceilDiv j.left (j.k * max 1 (holders s job)))
    match j.returned with
    | (f, n) :: t =>
      let m := min n (min j.left want)
      let t' := if m < n then (f + m, n - m) :: t else t
      some (f, m, s.setJob job { j with returned := t' })
    | [] =>
      let m := min j.rem want
      some (j.next, m, s.setJob job { j with next := j.next + m, rem := j.rem - m })

/-- The slice offset of buffer b of the unit on a lane (R44). -/
def bufOff (lane b : Nat) : Nat := 0x7FFA00 + (2 * lane + b) * 256

/-- The dealer deposits record `idx` into buffer b (R44): the record's bytes of the packed argument array. A record whose
bytes do not translate leaves free bytes (no rule states what the buffer then holds). -/
def depositRecord (s : State) (core lane job idx b : Nat) : State :=
  let j := s.job job
  let dst := sliceKey core (bufOff lane b)
  (List.range j.recsz).foldl (fun s i =>
    match xlateDev s j.fn (j.args + idx * j.recsz + i) true false with
    | some k => writeByte s (dst + i) (readByte s k)
    | none => writeByte { s with free := s.free + 1 } (dst + i) (Config.freeByte s.free)) s

/-- The save area of a context (R413): the template, moved to the context's own 512 bytes. -/
def saveArea (job : Job) (core lcore ctxNo : Nat) : Layout :=
  let t := job.tmpl
  let e := { t with
    w0 := w64 (t.base + 512 * (6 * lcore + ctxNo))
    w2 := setBits t.w2 31 0 512 }
  let okT := layoutOk core t && (t.space == spVm || t.space == spLocal) && t.rank == 1 && t.fmt == 0x05 && t.rd && t.wr
  if okT then install core e else {}

/-- The state of a context when its unit starts the first task of a launch (R45), but for x1 to x3 and the pc. A level that waits for
commands enqueued before falls once they have completed (R375). (DESIGN CHOICE, log 28.) -/
def freshCtx (s : State) (c job lcore : Nat) : Ctx :=
  let o := s.ctx c
  { run := .live
    region := o.region
    held := if o.release.isSome then o.held else 0
    heldAt := o.heldAt
    release := o.release
    job := job
    lcore := lcore
    tlbase := Vector.ofFn fun i : Fin 6 => w64 (presented s job lcore (coreOf c) i.val)
    save := saveArea (s.job job) (coreOf c) lcore (c % 8) }

/-- Starts a task on a unit (R45, R46): x1, x2, x3, the entry, a cleared watchdog and a new region. What is on its way to a register
arrives first, so that the task's values land last (R121). (DESIGN CHOICE, log 27.) -/
def startTask (s : State) (core lane : Nat) (u : UnitSt) (idx : Nat) (again : Bool) : State :=
  let b := u.tasks % 2
  let s := if u.deposited = some idx then s else depositRecord s core lane u.job idx b
  let u' := { u with tasks := u.tasks + 1, cur := idx, began := s.time, deposited := none, ended := 0, atTend := false, stale := true }
  let s := charge (setUnit s core lane (some u')) (core / 128) (s.job u.job).fn
  (unitCtxs core lane u).foldl (fun s c =>
    let base := if again then arriveAll (s.ctx c) else freshCtx s c u.job u.lcore
    let off := if u.triple then 16 * (c % 8) else 0
    s.setCtx c { base with
      run := .live
      iss := none
      acq := false
      transfers := Vector.replicate 3 none
      x := ((base.x.set 1 (w64 (bufOff lane b))).set 2 (w64 idx)).set 3 (w64 u.job)
      pc := (s.job u.job).entry + BitVec.ofNat 57 off
      slot := false
      rep := 0
      wdog := 0
      expired := 0
      disc := 0
      prof := 0
      region := base.region + 1 }) s

/-- What a unit does at the end of a task (R46): the next record of its chunk, a new chunk, or its closing code. -/
def nextRecord (s : State) (core lane : Nat) (u : UnitSt) : State :=
  let close (s : State) (u : UnitSt) : State :=
    let s := setUnit s core lane (some { u with ended := 0, closing := true, atTend := false })
    (unitCtxs core lane u).foldl (fun s c => s.updCtx c fun x => { x with run := .live, iss := none }) s
  if u.left ≠ 0 then startTask s core lane { u with next := u.next + 1, left := u.left - 1 } u.next true
  else
    match takeChunk s (core / 128) u.job with
    | some (f, n, s) =>
      if n = 0 then close s u else startTask s core lane { u with next := f + 1, left := n - 1 } f true
    | none => close s u

/-- Whether a core has the lanes that a unit of a kind needs (R28). A unit keeps its lane: one that is suspended or pre-empted resumes in the
lane that it was saved from, whatever other lane is free (R175). (DESIGN CHOICE, log 127.) -/
def laneFree (s : State) (core lane : Nat) (triple : Bool) : Bool :=
  let u (i : Nat) : Option UnitSt := (s.core core).units.toList.getD i none
  let tri := match u 0 with
    | some x => x.triple
    | none => false
  !(s.die (core / 128)).lost &&
    (if triple then (u 0).isNone && (u 1).isNone && (u 2).isNone else (u lane).isNone && !tri)

/-- The core to which a unit would migrate (R380, R492): of its die's other cores with a free unit of the kind and a latest sample below
90 °C, that of the lowest sample, the lowest number among equals. -/
def migTarget (s : State) (core lane : Nat) (triple : Bool) : Option Nat :=
  let cs := ((List.range 128).map fun i => core / 128 * 128 + i).filter fun k =>
    k != core && laneFree s k lane triple && decide ((s.core k).temp < 90)
  match cs with
  | [] => none
  | a :: t => some (t.foldl (fun b k => if (s.core k).temp < (s.core b).temp then k else b) a)

/-- Whether a pre-emption or migration of a unit is pending (R47); a migration that has no target waits without stopping the unit
(R380). -/
def pendingFor (s : State) (core lane : Nat) (u : UnitSt) : Bool :=
  u.req.isSome || u.saver.isSome || (u.migrate && (migTarget s core lane u.triple).isSome)

/-- Whether a command is an `rrot` (R240). -/
def isRrot (i : Instr) : Bool :=
  match i with
  | .rrotUp _ | .rrotDn _ => true
  | _ => false

/-- The commands of a launch in the queues of a cluster's cores, with their cores. -/
def clusterCmds (s : State) (cluster : Nat) (p : Cmd → Bool) : List (Nat × Cmd) :=
  (List.range 8).flatMap fun i =>
    (((s.core (8 * cluster + i)).qs.toList.flatMap id).filter p).map fun c => (8 * cluster + i, c)

/-- A launch has an `rrot` on a cluster that has not completed (R241). -/
def rrotOpen (s : State) (job cluster : Nat) : Bool :=
  clusterCmds s cluster (fun c => c.job == job && isRrot c.instr && c.phase != .finished) != []

/-- A unit stops at its next pre-emption point (R47): a request that an `rrot` of its launch on the cluster holds back stays pending
(R241). -/
def stopsFor (s : State) (core lane : Nat) (u : UnitSt) : Bool := pendingFor s core lane u && !rrotOpen s u.job (core / 8)

/-- The end of a unit's task (R46, R47, R420). -/
def endTask (s : State) (core lane : Nat) (u : UnitSt) : State :=
  let cs := unitCtxs core lane u
  let s := cs.foldl endLevel s
  if (s.job u.job).cancelled then cs.foldl stopCancelled s
  else if stopsFor s core lane u then
    let s := setUnit s core lane (some { u with atTend := true })
    cs.foldl (fun s c => s.updCtx c fun x => { x with run := .stopped, iss := none }) s
  else nextRecord s core lane u

/-- `tend` retires in a context (R29, R32, R46). The pc already names the bundle after it. A handler that served a message from the
network frees its slot (R392). -/
def retireTend (s : State) (c : Nat) : State :=
  if isHandler c then
    let s := match (s.ctx c).ring with
      | some (f, n) => freeSlot s f n
      | none => s
    s.updCtx c fun x => { x with run := .off, iss := none, region := x.region + 1, ring := none }
  else
    let s := s.updCtx c fun x => { x with iss := none }
    match unitOf s c with
    | none => s
    | some (lane, u) =>
      if u.triple then
        let u := { u with ended := u.ended ||| BitVec.twoPow 3 (c % 8) }
        if u.ended = 7 then endTask s (coreOf c) lane u
        else (setUnit s (coreOf c) lane (some u)).updCtx c fun x => { x with run := .ended }
      else endTask s (coreOf c) lane u

/-- `ppt` retires in a context (R47, R153, R420). -/
def retirePpt (s : State) (c : Nat) : State :=
  if isHandler c then s
  else
    let s := s.updCtx c fun x => { x with wdog := 0, expired := 0 }
    if (s.job (s.ctx c).job).cancelled then stopCancelled s c
    else
      match unitOf s c with
      | some (lane, u) => if stopsFor s (coreOf c) lane u then s.updCtx c fun x => { x with run := .stopped } else s
      | none => s

/-- `step` retires (R154): its watchdog starts again. -/
def retireStep (s : State) (c : Nat) : State := s.updCtx c fun x => { x with wdog := 0, expired := 0, stepGo := false }

/-- `idle` makes its context not ready (R156). -/
def retireIdle (s : State) (c : Nat) : State := s.updCtx c fun x => { x with run := .idle }

/-- Ends the `idle` of the contexts of a unit for which a request has become pending (R156). -/
def wakeUnit (s : State) (core lane : Nat) (u : UnitSt) : State :=
  (unitCtxs core lane u).foldl (fun s c => if (s.ctx c).run = .idle then s.updCtx c fun x => { x with run := .live } else s) s

/-- Ends the `idle` of every context of a core (R156). -/
def wakeCore (s : State) (core : Nat) : State :=
  (List.range 6).foldl (fun s i =>
    if (s.ctx (8 * core + i)).run = .idle then s.updCtx (8 * core + i) fun x => { x with run := .live } else s) s

end Sys2Proof.Machine
end

