-- ==== Sys2Proof/Machine/Engine.lean ====
section
/-! DEFINITION. What every engine command shares: dependence tokens (R216, R217, R456, R505), arrivals (R202, R460),
failure and completion (R213, R279, R408, R416 to R418), and the tests at a command's start (R305, R84, R498). -/

namespace Sys2Proof.Machine

/-- The FIFOs of a token set that a queue's token bits act on (R216, R217), in the ring CI, MX, VX, CO: FIFO q carries
tokens forward from queue q to the next, FIFO 4 + q in reverse from the next queue to q. -/
structure Fifos where
  popUp : Nat
  pushDown : Nat
  popDown : Nat
  pushUp : Nat

/-- The FIFOs of queue q. -/
def fifosOf (q : Nat) : Fifos := ⟨(q + 3) % 4, q, 4 + q, 4 + (q + 3) % 4⟩

/-- Tokens in FIFO i of a set. -/
def tokens (k : Core) (set i : Nat) : Nat := ((k.tok.toList.getD set (Vector.replicate 8 0)).toList).getD i 0

/-- Sets the count of a FIFO. -/
def setTokens (k : Core) (set i n : Nat) : Core :=
  { k with tok := k.tok.set! set (((k.tok.toList.getD set (Vector.replicate 8 0))).set! i n) }

/-- The pop tokens of a command are present (R217): ui is bit 3, do bit 2, di bit 1, uo bit 0. -/
def tokensReady (k : Core) (c : Cmd) : Bool :=
  let f := fifosOf c.q
  c.q == 4 || ((!c.tok.getLsbD 3 || tokens k c.set f.popUp != 0) && (!c.tok.getLsbD 1 || tokens k c.set f.popDown != 0))

/-- Pops the tokens of a command at its start. -/
def popTokens (k : Core) (c : Cmd) : Core :=
  if c.q = 4 then k
  else
    let f := fifosOf c.q
    let k := if c.tok.getLsbD 3 then setTokens k c.set f.popUp (tokens k c.set f.popUp - 1) else k
    if c.tok.getLsbD 1 then setTokens k c.set f.popDown (tokens k c.set f.popDown - 1) else k

/-- The full FIFOs that a command would push into (R456): bit 0 for do, bit 1 for uo. -/
def fullFifos (k : Core) (c : Cmd) : Nat :=
  let f := fifosOf c.q
  (if c.tok.getLsbD 2 ∧ 8 ≤ tokens k c.set f.pushDown then 1 else 0) +
    (if c.tok.getLsbD 0 ∧ 8 ≤ tokens k c.set f.pushUp then 2 else 0)

/-- Pushes the tokens of a command; a full FIFO takes none (R456). -/
def pushTokens (k : Core) (c : Cmd) : Core :=
  if c.q = 4 then k
  else
    let f := fifosOf c.q
    let k := if c.tok.getLsbD 2 then setTokens k c.set f.pushDown (min 8 (tokens k c.set f.pushDown + 1)) else k
    if c.tok.getLsbD 0 then setTokens k c.set f.pushUp (min 8 (tokens k c.set f.pushUp + 1)) else k

/-- Replaces a command of a core. -/
def putCmd (s : State) (core : Nat) (c : Cmd) : State := s.updCore core fun k => k.putCmd c

/-- A command reaches its number (R213). -/
def finishCmd (s : State) (core : Nat) (c : Cmd) : State :=
  wakeCore ((putCmd s core { c with phase := .finished, vflags := 0, mflags := 0 }).updCore core fun k => drainQ k c.q) core

/-- A command fails (R279, R408): it keeps its number, and its fault waits to be delivered in the order of failures. Of a context that
has been killed, or of a cancelled job, it is discarded at once (R418, R420). -/
def failCmd (s : State) (core : Nat) (c : Cmd) (cause : BitVec 8) (faddr : W64) : State :=
  if c.quiet || (s.job c.job).cancelled then finishCmd s core c else
  let s := { s with failures := s.failures + 1 }
  wakeCore (putCmd s core { c with phase := .failed, cause, faddr, order := s.failures }) core

/-- The latest entry of a context's membership list for an object (R194). -/
def memberOf (x : Ctx) (obj : Nat) : Option Member := x.groups.reverse.find? fun m => m.obj == obj

/-- An arrival of a context at a group object (R198, R202, R458): the new state, or the value that BARRIER_OBJECT reports. -/
def arriveAt (s : State) (ctx obj : Nat) (gen : BitVec 32) : Except W64 State :=
  let g := readGroup s obj
  match memberOf (s.ctx ctx) obj with
  | none => .error (g.gen.setWidth 64)
  | some m =>
    if ¬ g.valid ∨ ¬ g.sound ∨ g.gen ≠ gen ∨ m.gen ≠ gen then .error (g.gen.setWidth 64)
    else if m.arrived = some g.epoch then .error (g.epoch.setWidth 64)
    else
      let s := s.updCtx ctx fun x =>
        { x with groups := x.groups.map fun y => if y = m then { y with arrived := some g.epoch } else y }
      let g := g.setArrived (g.arrived + 1)
      let s := writeGroup s obj g
      .ok (if g.arrived = g.members then releaseEpisode s obj else s)

/-- The arrival of a command at its group object, on behalf of its context (R84, R202, R460): cause and value where it fails. A command
whose context was killed makes none (R418). -/
def cmdArrives (s : State) (c : Cmd) : Except (BitVec 8 × W64) State :=
  match c.arv with
  | none => .ok s
  | some (obj, gen) =>
    if c.quiet then .ok s
    else if paddockHit s (keyCore obj) (keyOff obj) 32 c.job then .error (cRights, w64 (keyOff obj))
    else
      match arriveAt s c.ctx obj gen with
      | .ok s => .ok s
      | .error v => .error (cBarrier, v)

/-- A `cpref` meets no execution-time fault (R290, R435). -/
def neverFails (i : Instr) : Bool :=
  match i with
  | .cpref _ => true
  | _ => false

/-- The end of a command that has performed its writes (R213, R217, R456, R460): flags, tokens, arrival, number. -/
def completeCmd (s : State) (core : Nat) (c : Cmd) : State :=
  let s := orFlags s c.ctx c.vflags c.mflags
  let c' := { c with done := c.total, first := [], pend := [], vflags := 0, mflags := 0 }
  let full := if c.rest = .arrival then 0 else fullFifos (s.core core) c
  if full ≠ 0 ∧ c.q ≠ 4 ∧ ¬ neverFails c.instr then failCmd s core { c' with rest := .push } cTokens (w64 full)
  else
    let s := if c.rest = .arrival then s else s.updCore core fun k => pushTokens k c
    match cmdArrives s c with
    | .ok s => finishCmd s core c
    | .error (cause, v) =>
      if neverFails c.instr then finishCmd s core c else failCmd s core { c' with rest := .arrival } cause v

/-- A discard under R417: the number is reached, tokens are pushed and the arrival made, but for the two refinements of R456
and R460. -/
def discardCmd (s : State) (core : Nat) (c : Cmd) : State :=
  if c.rest = .arrival then finishCmd s core c
  else
    let s := s.updCore core fun k => pushTokens k c
    match cmdArrives s c with
    | .ok s => finishCmd s core c
    | .error _ => finishCmd s core c

/-- The failed command of a context whose fault has been delivered and not resolved (R417). -/
def deliveredCmd (s : State) (ctx : Nat) : Option Cmd :=
  ((s.core (coreOf ctx)).qs.toList.flatMap id).find? fun c => c.ctx == ctx && c.phase == .delivered

/-- Resolves a delivered command (R417): a code other than 0 retries it, 0 discards it. -/
def resolveCmd (s : State) (ctx : Nat) (code : BitVec 8) : State :=
  match deliveredCmd s ctx with
  | none => s
  | some c =>
    if code = 0 then discardCmd s (coreOf ctx) c
    else putCmd s (coreOf ctx) { c with phase := .queued, started := false, runner := none, moved := true, cause := 0, faddr := 0 }

/-- The failed commands of a context still to be delivered, the earliest failure first (R408). -/
def nextFailed (s : State) (ctx : Nat) : Option Cmd :=
  ((s.core (coreOf ctx)).qs.toList.flatMap id).foldl (fun best c =>
    if c.ctx = ctx ∧ c.phase = .failed then
      match best with
      | none => some c
      | some b => if c.order < b.order then some c else best
    else best) none

/-- The words of granule g in which parts of a footprint meet a tag (R304, R306): a reader's tag meets written parts alone. -/
def tagWords (own : List Foot) (g : Nat) (t : Tag) (reader : Bool) : BitVec 8 :=
  own.foldl (fun w f => if (reader && !f.write) || (t.atomic && f.atomic) then w else w ||| (t.mask &&& wordMask g f.lo f.len)) 0

/-- The race test of a command's footprint at its start (R305): cause and value, definite before footprint before
possible. -/
def startRace (s : State) (core : Nat) (c : Cmd) (foot : List Foot) : Option (BitVec 8 × W64) :=
  let me := agentOf core c
  let own := foot.filter (·.checked)
  let gr (f : Foot) : List Nat := if isSlice f.lo then granules f.lo f.len else []
  match own.findSome? fun f => (gr f).findSome? fun g =>
      (definiteTag s none g (wordMask g f.lo f.len) f.write f.atomic).map fun t => raceTag t.1 (tagWords own g t.1 t.2) with
  | some v => some (cRace, v)
  | none =>
    let others := (allLive s).filter fun l => l.agent != me
    let hit := own.findSome? fun f => others.findSome? fun l =>
      if f.len = 0 ∨ l.foot.len = 0 then none
      else
        (granules (max f.lo l.foot.lo) (min (f.lo + f.len) (l.foot.lo + l.foot.len) + 8 - max f.lo l.foot.lo)).findSome? fun g =>
          if footWords g f.lo f.len f.write f.atomic l.foot = 0 then none
          else some (raceFoot l.ctx l.queue (own.foldl (fun w f => w ||| liveWords s l g f.lo f.len f.write f.atomic) 0))
    match hit with
    | some v => some (cRace, v)
    | none =>
      let written (g : Nat) : BitVec 8 := (own.filter (·.write)).foldl (fun w f => w ||| wordMask g f.lo f.len) 0
      (own.findSome? fun f => (gr f).findSome? fun g => possible s none g (written g) f.write).map fun v => (cRacePossible, v)

/-- The first footprint that a paddock forbids (R84): its local offset. -/
def startPaddock (s : State) (c : Cmd) (foot : List Foot) : Option W64 :=
  (foot.find? fun f => isSlice f.lo && paddockHit s (keyCore f.lo) (keyOff f.lo) f.len c.job).map fun f => w64 (keyOff f.lo)

/-- The first poisoned granule that a command reads in a slice (R498). -/
def startPoison (s : State) (foot : List Foot) : Option W64 :=
  foot.findSome? fun f =>
    if f.write ∨ ¬ isSlice f.lo then none
    else ((granules f.lo f.len).find? fun g => s.poison.contains g).map fun g => w64 (keyOff (g * 64))

/-- The tests at a command's start, in the order of R423: paddock, race, poison. -/
def startTests (s : State) (core : Nat) (c : Cmd) (foot : List Foot) (poison : Bool) : Option (BitVec 8 × W64) :=
  match startPaddock s c foot with
  | some v => some (cRights, v)
  | none =>
    match startRace s core c foot with
    | some r => some r
    | none => if poison then (startPoison s foot).map fun v => (cPoison, v) else none

/-- A slice that a footprint names is held by `quiesce`, so the command waits at its queue's head (R172): an engine is another agent than
the context that holds the slice (R292). -/
def heldFoot (s : State) (foot : List Foot) : Bool := foot.any fun f => isSlice f.lo && (s.core (keyCore f.lo)).holder.isSome

/-- The engines have stopped serving the commands of a unit that is forcibly pre-empted (R462, R463). -/
def stopServing (s : State) (c : Cmd) : Bool :=
  match unitOf s c.ctx with
  | some (_, u) => u.forced
  | none => false

/-- The oldest command of a queue that has not finished. -/
def headCmd (k : Core) (q : Nat) : Option Cmd := (k.queue q).find? fun c => c.phase != .finished

/-- The token set of a context (R216, R505). -/
def tokenSet (s : State) (c : Nat) : Nat :=
  if isHandler c then c % 8
  else match unitOf s c with
    | some (_, u) => if u.triple then 0 else c % 8
    | none => c % 8

/-- The timeline number that the next command of queue q takes. -/
def nextNum (k : Core) (q : Nat) : Nat := k.tlNext.toList.getD q 0 + 1

/-- The group object that an arrival register names (R194, R202): its slice key. -/
def arvKey (s : State) (c : Nat) (r : W64) : Option Nat :=
  if bit r 30 then
    let e := entryOf s c (bits r 29 24)
    if e.valid && e.inSram && e.rank == 1 then
      match placeOf s (coreOf c) (partOf s c) e [bits r 22 0] 32 true true with
      | .ok (.slice k) => if k % 32 = 0 then some k else none
      | _ => none
    else none
  else if bits r 22 0 % 32 = 0 then some (sliceKey (coreOf c) (bits r 22 0))
  else none

/-- The arrival register of queue q of the running context, captured with its object (R202): BARRIER_OBJECT, with the register as its
value, where it names none or its location fails R194. (DESIGN CHOICE, log 119.) -/
def captureArv (q : Nat) : M (Nat × BitVec 32) := do
  let s ← get
  let r := s.me.arv.toList.getD q 0
  match (if bit r 31 then arvKey s s.cur r else none) with
  | some k => return (k, r.extractLsb' 32 32)
  | none => trapM cBarrier r

/-- Enqueues a command of the running context (R116, R213, R217, R248, R280): a full queue waits; the command takes the next
timeline number; enqueuing releases (R303). -/
def enqueue (c : Cmd) (arv : Bool) : M Nat := do
  let a ← if arv then do
      let r ← captureArv c.q
      pure (some r)
    else pure none
  let s ← get
  let core := coreOf s.cur
  let k := s.core core
  await (decide (k.used c.q < 16))
  let me := s.me
  let n := nextNum k c.q
  let c := { c with num := n, born := k.tlNext.toList.sum, ctx := s.cur, job := me.job, lcore := me.lcore, set := tokenSet s s.cur, arv := a, prof := me.prof }
  modify fun s => s.updCore core fun k => { k with tlNext := k.tlNext.set! c.q n, qs := k.qs.set! c.q (k.queue c.q ++ [c]) }
  markSync
  return n

/-- ENGINE_FAULT for a value that breaks a limit at enqueue (R231, R248, R277, R339). -/
def engine (ok : Bool) (v : W64) : M Unit := check ok cEngine v
/-- MISALIGNED at enqueue. -/
def aligned (ok : Bool) (v : W64) : M Unit := check ok cMisaligned v
/-- LAYOUT_BOUNDS at enqueue. -/
def within (ok : Bool) (v : W64) : M Unit := check ok cBounds v

end Sys2Proof.Machine
end

