-- ==== Sys2Proof/Machine/Ops.lean ====
section
/-! DEFINITION. The operations that every meaning shares: taking an exception (R407 to R411, R419), returning from one
(R158, R417), finishing a syllable and a bundle (R116 to R118, R125), and running a syllable. -/

namespace Sys2Proof.Machine

/-- Writes system register n as software does (R159 to R164): RO and reserved fields keep their values. -/
def writeSysReg (x : Ctx) (n : Nat) (v : W64) : Ctx :=
  match n with
  | 0x009 => { x with wake := v }
  | 0x010 => { x with lc0 := v }
  | 0x011 => { x with lc1 := v }
  | 0x020 => { x with vflags := w1c x.vflags v }
  | 0x021 => { x with mflags := w1c x.mflags v }
  | 0x031 => { x with tvec := v &&& 0x01FFFFFFFFFFFFF0 }
  | 0x032 => { x with bank1 := { x.bank1 with cause := v &&& 0x3FF } }
  | 0x033 => { x with bank1 := { x.bank1 with epc := v &&& 0xFDFFFFFFFFFFFFF1 } }
  | 0x034 => { x with bank1 := { x.bank1 with eval := v } }
  | 0x035 => { x with bank2 := { x.bank2 with cause := v &&& 0x3FF } }
  | 0x036 => { x with bank2 := { x.bank2 with epc := v &&& 0xFDFFFFFFFFFFFFF1 } }
  | 0x037 => { x with bank2 := { x.bank2 with eval := v } }
  | 0x038 => { x with arv := x.arv.set 0 v }
  | 0x039 => { x with arv := x.arv.set 1 v }
  | 0x03A => { x with arv := x.arv.set 2 v }
  | 0x03B => { x with arv := x.arv.set 3 v }
  | 0x03C => { x with arv := x.arv.set 4 v }
  | _ => x

/-- Writes a per-core system register (R83, R160, R166): a paddock as it is stored, and the handler limit. -/
def writeCoreReg (k : Core) (n : Nat) (v : W64) : Core :=
  if n = 0x080 then { k with hlimit := if bits v 31 0 = 0 then 1 else w64 (bits v 31 0) }
  else if 0x088 ≤ n ∧ n ≤ 0x08B then { k with paddock := k.paddock.set! (n - 0x088) v }
  else k

/-- One effect that takes hold after its bundle (R117, R159, R167, R203, R385). -/
def applyLate (s : State) (c : Nat) (l : Late) : State :=
  match l with
  | .sys n v => if 0x080 ≤ n then s.updCore (coreOf c) fun k => writeCoreReg k n v else s.updCtx c fun x => writeSysReg x n v
  | .view i e => s.updCtx c fun x => { x with view := x.view.set! (i - 48) e }
  | .bind p k chk => s.updCtx c fun x => { x with
      ports := x.ports.set! p (some k)
      unchecked := if chk then x.unchecked &&& ~~~ BitVec.twoPow 8 p else x.unchecked ||| BitVec.twoPow 8 p }
  | .prof n => s.updCtx c fun x => { x with prof := BitVec.ofNat 4 n }

/-- The effects that a bundle's executed syllables leave for its end. -/
def applyLates (s : State) (c : Nat) : State :=
  ((s.ctx c).iss.getD {}).late.foldl (fun s l => applyLate s c l) s

/-- Leaves an effect for the end of the bundle. -/
def lateM (l : Late) : M Unit := modIss fun i => { i with late := i.late ++ [l] }

/-- The bundle in issue has S = 1 (R113). -/
def serialM : M Bool := do return (unpackHeader (← getIss).hdr).s

/-- Writes a system register (R159): at the end of the bundle, or, with S = 1, before slot 1 reads (R117). (DEDUCED, log 13.) -/
def sysWrite (n : Nat) (v : W64) : M Unit := do
  if ← serialM then modify fun s => applyLate s s.cur (.sys n v) else lateM (.sys n v)

/-- A context that stands between bundles, or at a bundle or a halt that waits (R408): there a fault of an engine reaches it. (DEDUCED, log 11.) -/
def Ctx.between (x : Ctx) : Bool :=
  match x.iss with
  | some i => i.halting || i.waited
  | none => true

/-- Where a context stands: the bundle in issue, or the bundle, slot and repetition it will issue next (R411). -/
def resumePoint (x : Ctx) : Bool × BitVec 6 :=
  match x.iss with
  | some i =>
    if i.halting then (false, 0) else (i.slot1, if i.slot1 then i.j else 0)
  | none => (x.slot, x.rep)

/-- The transfer that outlasts the abandonment of a context's bundle (R118, R119): the one that slot 0 has made, or that the bundle
resumed at slot 1 came with. (DEDUCED, log 13.) -/
def Ctx.transfer (x : Ctx) : Option (BitVec 57 × Leave) :=
  match x.iss with
  | none => x.transfers.toList.getD x.tlevel.toNat none
  | some i => if i.slot1 && !i.halting && i.leave != .next then some (x.pc, i.leave) else none

/-- Where the bundle that resumes at slot 1 goes when it has finished: the transfer of its slot 0, kept since it was abandoned. -/
def Ctx.keptLeave (x : Ctx) : Leave :=
  match x.transfers.toList.getD x.tlevel.toNat none with
  | some (pc, l) => if pc = x.pc then l else .next
  | none => .next

/-- A `pacq` that has not been granted asks again when its bundle issues again (R374, R408). -/
def Ctx.dropAsk (x : Ctx) : Ctx :=
  match x.wait with
  | .pacq _ _ => x.setWait .none
  | _ => x

/-- Enters the next trap level of a context (R409), every value on its way having arrived. -/
def enterTrap (x : Ctx) (cause : BitVec 8) (async islot : Bool) (epc eval : W64) : Ctx :=
  let c := w64 (cause.toNat + (if async then 256 else 0) + (if islot then 512 else 0))
  let b : TrapBank := ⟨c, epc, eval⟩
  let y := (arriveAll x).dropAsk
  let halting := match x.iss with
    | some i => i.halting
    | none => false
  let x := { y with
    back := if halting && x.tlevel == 0 then some (.halted, x.pc) else y.back
    transfers := x.transfers.set! x.tlevel.toNat x.transfer
    acq := false
    iss := none
    slot := false
    rep := 0
    pc := BitVec.ofNat 57 (x.tvec.toNat / 16 % 2 ^ 53 * 16) }
  if x.tlevel == 0 then { x with tlevel := 1, bank1 := b } else { x with tlevel := 2, bank2 := b }

/-- A bundle that has not issued leaves no trace but that its header wait has been met (R303); one whose slot 0 has executed stays
(R116, R408). -/
def unissue (s : State) (c : Nat) : State :=
  s.updCtx c fun x =>
    match x.iss with
    | some i => if i.slot1 then { x with iss := some { i with waited := true } } else { x with iss := none }
    | none => x

/-- What an abandoned bundle waited for at a page, at a tag or at the arbiter is withdrawn. -/
def withdraw (s : State) (c : Nat) : State :=
  leaveArbiter { dropFailed s (0, c) with bank := s.bank.filter fun b => !(b.ctx == c && b.here) } c

/-- Taking an exception (R409, R410): the context enters the next level at its vector, or is killed where it has no level or no
vector left. Effects that slot 0 left for the bundle's end stand when slot 1 faults (R119); what the abandoned bundle waited
for at the arbiter or at a tag is withdrawn. POWER_OVERDRAW also takes the context's level and holds back the engines' starts
(R490). A register write that still waits at a bank holds the entry (R409). (DEDUCED, log 98.) -/
def takeTrap (s : State) (c : Nat) (cause : BitVec 8) (async islot : Bool) (epc eval : W64) : State :=
  if banked s c then unissue s c else
  let s := withdraw (applyLates s c) c
  let x := s.ctx c
  if x.tlevel = 2 then killCtx s c 0 cause epc eval
  else if x.tvec.toNat / 16 % 2 ^ 53 = 0 then killCtx s c 1 cause epc eval
  else
    let s := s.setCtx c (enterTrap x cause async islot epc eval)
    if cause = cOverdraw ∧ ¬ async then
      (s.updCtx c fun x => { x with held := 0, release := none }).updCore (coreOf c) fun k => { k with overBy := some c }
    else s

/-- The hold on the starts of a core's engines that a context's POWER_OVERDRAW began ends (R490). -/
def endOverdraw (s : State) (c : Nat) : State :=
  if (s.core (coreOf c)).overBy = some c then s.updCore (coreOf c) fun k => { k with overBy := none } else s

/-- A precise fault of the syllable that a context executes (R411). Inside slot 1 the resume point names slot 1 and the
repetition; an issue-time fault of a whole bundle names slot 0, since neither syllable has run. What the syllable waited for is
answered by its fault. -/
def faultHere (s : State) (c : Nat) (cause : BitVec 8) (issueTime : Bool) (eval : W64) : State :=
  let s := { s with free := s.free + 1 }.updCtx c fun x => x.setWait .none
  let x := s.ctx c
  let i := x.iss.getD {}
  let (slot, rep) := resumePoint x
  takeTrap s c cause false (issueTime && i.slot1) (epcWord x.pc slot rep) eval

/-- The keys that a device write through a context's L63 reaches at a virtual address (R75, R445, R477, R478): the page, and the mirror
copy where there is one. No key where the data may be dropped with a lost die (R482); none at all where the write cannot be performed. -/
def saveKeys (s : State) (c va : Nat) (e : Layout) : Option (List Nat) :=
  let moved := movedJob s (s.ctx c).job
  let req : XReq := { part := partOf s c, cluster := none, va, r := false, w := true, mirror := e.mir && moved }
  let key (q : XReq) : Option Nat := match translate s q with
    | .ok k _ => if noMemory k then none else some k
    | _ => none
  match key req with
  | none => none
  | some k =>
    if lostKey s k then (if moved && e.dis && !e.mir then some [] else none)
    else if e.mir && !moved && !(s.die (dieOf c ^^^ 1)).lost then
      (key { req with mirror := true, die := some (dieOf c) }).map fun k2 => [k, k2]
    else some [k]

/-- One byte of a save area, through the context's L63 (R66, R74, R84, R416). -/
def saveByte (s : State) (c off : Nat) (b : Byte) : Option State :=
  let x := s.ctx c
  match placeOf s (coreOf c) (partOf s c) x.save [off] 1 false true with
  | .ok (.slice k) => if paddockHit s (keyCore k) (keyOff k) 1 x.job then none else some (clearPoison (writeByte s k b) k 1)
  | .ok (.virt va _ _) => (saveKeys s c va x.save).map fun ks => ks.foldl (fun s k => writeByte s k b) s
  | .error _ => none

/-- The save-area write of an asynchronous fault (R416): the completion record at bytes 0x1C0 of L63; none where it cannot be performed. -/
def writeRecord (s : State) (c : Nat) (r : List W64) : Option State :=
  ((r.flatMap fun v => natToBytes 8 v.toNat).zipIdx).foldl (fun o p => o.bind fun s => saveByte s c (0x1C0 + p.2) p.1) (some s)

/-- A tagged major opcode of a command, for its record (R279). -/
def majorOf (i : Instr) : Nat :=
  match encode false i with
  | some e => e.maj.toNat
  | none => 0

/-- The completion record of a failed command (R279). -/
def recordOf (s : State) (c : Cmd) : List W64 :=
  let first (i : Nat) : Nat := c.first.getD i 0
  [w64 (presentNum s c.job c.lcore (coreOf c.ctx) c.q c.num),
   w64 (c.cause.toNat * 2 ^ 48 + (if c.q = 3 then 2 ^ 40 else 0) + majorOf c.instr * 2 ^ 32 + c.done % 2 ^ 32),
   w64 (first 0 % 2 ^ 32 + first 1 % 2 ^ 32 * 2 ^ 32), w64 (first 2 % 2 ^ 32 + first 3 % 2 ^ 32 * 2 ^ 32),
   w64 (first 4 % 2 ^ 32 + first 5 % 2 ^ 32 * 2 ^ 32),
   w64 ((c.pend.map fun b => 2 ^ (b % 64)).sum), c.faddr, 0]

/-- A context that stands at a pre-emption point or waits for its triple leaves the point to take a fault (R408); an `idle` and a
wait at `step` end, and their bundle or the next issues after the return. -/
def leavePoint (s : State) (c : Nat) : State :=
  let x := s.ctx c
  match x.run with
  | .stopped => s.setCtx c { x with run := .live, back := some (.stopped, x.pc) }
  | .ended =>
    let s := match unitOf s c with
      | some (lane, u) => setUnit s (coreOf c) lane (some { u with ended := u.ended &&& ~~~ BitVec.twoPow 3 (c % 8) })
      | none => s
    s.setCtx c { x with run := .live, back := some (.ended, x.pc) }
  | .atStep | .idle => s.setCtx c { x with run := .live }
  | _ => s

/-- The return to the point that a fault made a context leave (R408): a `ppt` or `tend` that has retired does not run again, nor
do the syllables of a halt bundle. -/
def comeBack (s : State) (c : Nat) : State :=
  let x := s.ctx c
  match x.back with
  | none => s
  | some (r, pc) =>
    if x.tlevel ≠ 0 then s
    else
      let s := s.setCtx c { x with back := none }
      if x.pc ≠ pc ∨ x.slot ∨ x.rep ≠ 0 then s
      else
        match r with
        | .ended => retireTend s c
        | .stopped =>
          match unitOf s c with
          | some (lane, u) => if stopsFor s (coreOf c) lane u || u.atTend then s.updCtx c fun y => { y with run := .stopped } else s
          | none => s
        | .halted => s.updCtx c fun y => { y with iss := some { halting := true, slot1 := true } }
        | _ => s

/-- Delivers the earliest asynchronous fault of a context (R408, R416): its record is written, then the trap is taken. A
record that cannot be written kills the context with kind 3. -/
def deliverAsync (s : State) (c : Nat) : State :=
  if banked s c then s else
  match nextFailed s c with
  | none => s
  | some cmd =>
    let s := leavePoint s c
    let s := orFlags s c cmd.vflags cmd.mflags
    let s := putCmd s (coreOf c) { cmd with phase := .delivered, vflags := 0, mflags := 0 }
    let x := s.ctx c
    let (slot, rep) := resumePoint x
    let epc := epcWord x.pc slot rep
    let num := w64 (presentNum s cmd.job cmd.lcore (coreOf c) cmd.q cmd.num)
    match writeRecord s c (recordOf s cmd) with
    | none => killCtx s c 3 cmd.cause epc num
    | some s => takeTrap s c cmd.cause true false epc num

/-- The bank of a context's own trap level (R162). -/
def Ctx.bank (x : Ctx) : TrapBank := if x.tlevel = 2 then x.bank2 else x.bank1

/-- The return from an exception (R158, R411, R417), with the bank that `tret` has read: the level falls by one, the delivered command
of an asynchronous fault is resolved, and the context continues at the recorded bundle, slot and repetition. -/
def trapReturn (s : State) (c : Nat) (b : TrapBank) : State :=
  let x := s.ctx c
  let s := if x.tlevel = 1 ∧ bit b.cause 8 then resolveCmd s c (b.cause.extractLsb' 0 8) else s
  let s := endOverdraw s c
  comeBack (s.updCtx c fun x => { x with
    tlevel := x.tlevel - 1
    pc := BitVec.ofNat 57 (bits b.epc 56 4 * 16)
    slot := bit b.epc 0
    rep := b.epc.extractLsb' 58 6
    iss := none }) c

/-- Delivers a DEADLINE_MISS (R473): an asynchronous fault without a record. A context without a vector drops it. -/
def deliverMiss (s : State) (c : Nat) (v : W64) : State :=
  if banked s c then s
  else
    let s := s.updCtx c fun x => { x with miss := none }
    if (s.ctx c).tvec.toNat / 16 % 2 ^ 53 = 0 then s
    else
      let s := leavePoint s c
      let x := s.ctx c
      let (slot, rep) := resumePoint x
      takeTrap s c cDeadline true false (epcWord x.pc slot rep) v

/-- The address of the bundle after a context's (R118). -/
def nextPc (x : Ctx) : BitVec 57 := x.pc + 16

/-- The transfer of a bundle is a SOFTWARE_TRAP that a register write on its way holds back (R157, R409). -/
def trapHeld (s : State) (c : Nat) (l : Leave) : Bool :=
  match l with
  | .trap _ => banked s c
  | _ => false

/-- The end of a bundle whose syllables have executed (R118): the effects left for its end, then the transfer. -/
def leaveBundle (s : State) (c : Nat) : State :=
  let i := (s.ctx c).iss.getD {}
  if trapHeld s c i.leave then s.updCtx c fun x => { x with iss := some { i with leaving := true } } else
  let s := applyLates s c
  let x := s.ctx c
  let pc := match i.leave with
    | .jump t => t
    | _ => nextPc x
  let s := s.setCtx c { x with iss := none, slot := false, rep := 0, pc := pc }
  match i.leave with
  | .next | .jump _ => s
  | .trap code => takeTrap s c cSoftware false false (epcWord pc false 0) (code.setWidth 64)
  | .tret b => trapReturn s c b
  | .ppt => retirePpt s c
  | .step => retireStep s c
  | .tend => retireTend s c
  | .idle => retireIdle s c

/-- What follows an executed syllable (R116, R125): slot 1 after slot 0, the next repetition, the halt of a halt bundle, or
the end of the bundle. -/
def advance (s : State) (c : Nat) : State :=
  let x := (s.ctx c).setWait .none
  let i := x.iss.getD {}
  let x := { x with region := if i.sync then x.region + 1 else x.region, acq := false }
  let i := { i with sync := false, remote := false, pops := 0, waited := false }
  if !i.slot1 then s.setCtx c { x with iss := some { i with slot1 := true } }
  else
    match i.rep with
    | some (cnt, _, _, _) =>
      if i.j < cnt then s.setCtx c { x with iss := some { i with j := i.j + 1 } }
      else if (unpackHeader i.hdr).h then s.setCtx c { x with iss := some { i with halting := true } }
      else leaveBundle (s.setCtx c { x with iss := some i }) c
    | none =>
      if (unpackHeader i.hdr).h then s.setCtx c { x with iss := some { i with halting := true } }
      else leaveBundle (s.setCtx c { x with iss := some i }) c

/-- The layout operand of a memory, tagged, atomic or object form: first coordinate register and entry (R178). -/
def layoutUse (i : Instr) : Option (Reg × Nat) :=
  let m (x : MArgs) : Option (Reg × Nat) := match x.loc with
    | .lay l => some (x.a, l.toNat)
    | .off _ => none
  let a (x : AArgs) : Option (Reg × Nat) := x.lay.map fun l => (x.a, l.toNat)
  let g (x : GArgs) : Option (Reg × Nat) := x.lay.map fun l => (x.a, l.toNat)
  match i with
  | .ldg _ _ r l | .stg _ r l | .pref r l => some (r.r, l.toNat)
  | .ldf x | .ste x | .ldpk x | .stf x => m x
  | .amoAdd x | .amoAnd x | .amoOr x | .amoXor x | .amoMin _ x | .amoMax _ x | .amoSwap x | .amoCas x | .amoIncw x
  | .amoAddb x | .amoFadd x | .amoSadd x => a x
  | .gnew _ x _ | .join _ x | .leave x | .bar x | .arrive _ x | .bwait x _ | .cbind _ x => g x
  | _ => none

/-- A layout form whose coordinates would run past x63 (R178). -/
def coordsPast (s : State) (c : Nat) (i : Instr) : Bool :=
  match layoutUse i with
  | none => false
  | some (a, l) => decide (63 < a.toNat + ((entryOf s c l).rank - 1))

/-- Instructions of supervisor privilege (R159, R160, R170). -/
def needsPriv (i : Instr) : Bool :=
  match i with
  | .tlbiS1pg _ | .tlbiS1all _ | .tlbiS2pg _ | .tlbiPart _ | .tlbiAll _ | .quiesceHold _ | .quiesceRel _ | .pgrel _ _ _
  | .ctxsave _ _ _ | .ctxload _ _ _ | .ctxkill _ _ | .paddockRegisterWrite _ _ | .handlerLimitWrite _ => true
  | .srr _ n => decide (0x080 ≤ n.toNat)
  | _ => false

/-- The issue-time faults of a decoded syllable that depend on the state, but for REG_EMPTY, in the order of R119. -/
def issueFault (s : State) (c : Nat) (i : Instr) : Option (BitVec 8) :=
  let lvl := (s.ctx c).tlevel != 0
  let illegal := match i with
    | .tret => !lvl
    | .tend => lvl
    | .step => lvl || isHandler c
    | .pacq _ => isHandler c
    | _ => false
  if illegal then some cIllegal
  else if coordsPast s c i then some cReserved
  else if needsPriv i && !isPriv s c then some cPrivilege
  else none

/-- The outcome of a syllable's computation (R119, R411): its effect and the advance of the bundle, the exception it takes,
or the wait at issue. -/
def outcome (s : State) : Except Stop (Unit × State) → Host.Outcome State Fault Refusal
  | .ok (_, s') => .next (advance s' s.cur)
  | .error (.trap c v) => .next (faultHere s s.cur c false v)
  | .error (.issueTrap c v) => .next (faultHere s s.cur c true v)
  | .error .wait => .next (unissue s s.cur)
  | .error (.hold f) => .next (unissue (f s) s.cur)
  | .error (.stuck f) => .fault f

/-- Runs a syllable of the running context: its state-dependent issue-time fault, or its effect. -/
def runSyl (i : Instr) (m : M Unit) (s : State) : Host.Outcome State Fault Refusal :=
  match issueFault s s.cur i with
  | some c => .next (faultHere s s.cur c true ((s.me.iss.getD {}).syl.setWidth 64))
  | none => outcome s (m s)

/-- Runs a step of the device or an input from outside: where its condition does not hold, nothing changes. (DESIGN CHOICE, log 107.) -/
def runEvent (m : M Unit) (s : State) : Host.Outcome State Fault Refusal :=
  match m s with
  | .ok (_, s') => .next s'
  | .error (.hold f) => .next (f s)
  | .error (.stuck f) => .fault f
  | .error _ => .next s

end Sys2Proof.Machine
end

