-- ==== Sys2Proof/Machine/Num.lean ====
section
/-! DEFINITION. Numbers (R88 to R96, R105, R253, R254): integers wrapped and saturated, FP32 and BF16 computed exactly and
rounded once, with the flags of IEEE 754 and the choices of R93. -/

namespace Sys2Proof.Machine

/-- v clamped to the signed w-bit range (R88). -/
def satS (v : Int) (w : Nat) : Int := max (-(2 ^ (w - 1) : Int)) (min v (2 ^ (w - 1) - 1))
/-- v clamped to the unsigned w-bit range (R88). -/
def satN (v : Int) (w : Nat) : Int := max 0 (min v (2 ^ w - 1))

/-- The digits of a number in base 2 (0 for 0). -/
def bitLen (m : Nat) : Nat := if m = 0 then 0 else Nat.log2 m + 1

/-- A floating-point format: precision and width (R93). -/
structure Fp where
  p : Nat
  w : Nat
  deriving DecidableEq, Repr

/-- IEEE 754 binary32. -/
def fp32 : Fp := ⟨24, 32⟩
/-- The upper half of binary32. -/
def bf16 : Fp := ⟨8, 16⟩

/-- A decoded value: a NaN (signalling or quiet), an infinity, or ±m·2^e. -/
inductive FV where
  | nan (sig : Bool)
  | inf (neg : Bool)
  | fin (neg : Bool) (m : Nat) (e : Int)
  deriving DecidableEq, Repr

/-- A result: the pattern and the flags that its computation sets. -/
abbrev FRes := Nat × W64

/-- The canonical NaN (R93). -/
def Fp.qnan (t : Fp) : Nat := 0x1FF * 2 ^ (t.p - 2)
/-- An infinity. -/
def Fp.infPat (t : Fp) (neg : Bool) : Nat := 0xFF * 2 ^ (t.p - 1) + (if neg then 2 ^ (t.w - 1) else 0)
/-- The largest finite magnitude with a sign. -/
def Fp.maxPat (t : Fp) (neg : Bool) : Nat := 0xFF * 2 ^ (t.p - 1) - 1 + (if neg then 2 ^ (t.w - 1) else 0)
/-- A zero with a sign. -/
def Fp.zeroPat (t : Fp) (neg : Bool) : Nat := if neg then 2 ^ (t.w - 1) else 0
/-- The exponent of the least quantum. -/
def Fp.qmin (t : Fp) : Int := -126 - ((t.p : Int) - 1)

/-- Decodes a pattern. -/
def Fp.dec (t : Fp) (v : Nat) : FV :=
  let neg := v / 2 ^ (t.w - 1) % 2 == 1
  let ex := v / 2 ^ (t.p - 1) % 256
  let fr := v % 2 ^ (t.p - 1)
  if ex = 255 then (if fr = 0 then .inf neg else .nan (fr / 2 ^ (t.p - 2) % 2 == 0))
  else if ex = 0 then .fin neg fr t.qmin
  else .fin neg (fr + 2 ^ (t.p - 1)) (t.qmin + (ex - 1 : Nat))

/-- Whether rounding goes up in magnitude (R94): mode, sign, odd quotient, remainder against half of the divisor. -/
def roundUp (mode : Nat) (neg odd : Bool) (rem half : Nat) (st : Bool) : Bool :=
  match mode with
  | 0 => decide (half < rem) || (rem == half && (st || odd))
  | 1 => false
  | 2 => !neg && (rem != 0 || st)
  | _ => neg && (rem != 0 || st)

/-- m·2^e, with more below it where st is set, as a multiple of 2^q: the quotient rounded in a mode, and whether inexact. -/
def quantise (mode : Nat) (neg : Bool) (m : Nat) (e q : Int) (st : Bool) : Nat × Bool :=
  if q ≤ e then
    let k := m * 2 ^ (e - q).toNat
    (if st ∧ ((mode = 2 ∧ ¬ neg) ∨ (mode = 3 ∧ neg)) then k + 1 else k, st)
  else
    let d := 2 ^ (q - e).toNat
    let k := m / d
    let r := m % d
    (if roundUp mode neg (k % 2 == 1) (2 * r) d st then k + 1 else k, r != 0 || st)

/-- rnd_fp (R93, R94) of ±(m·2^e, and more below it where st is set): of, uf and nx as IEEE 754, tininess after rounding. -/
def Fp.round (t : Fp) (mode : Nat) (neg : Bool) (m : Nat) (e : Int) (st : Bool) : FRes :=
  if m = 0 ∧ ¬ st then (t.zeroPat neg, 0)
  else
    let top : Int := e + bitLen m - 1
    let qn : Int := top - ((t.p : Int) - 1)
    let q := max qn t.qmin
    let (k, nx) := quantise mode neg m e q st
    let sign := if neg then 2 ^ (t.w - 1) else 0
    let pat := (q - t.qmin).toNat * 2 ^ (t.p - 1) + k
    if 0xFF * 2 ^ (t.p - 1) ≤ pat then
      let toInf := mode == 0 || (mode == 2 && !neg) || (mode == 3 && neg)
      (if toInf then t.infPat neg else t.maxPat neg, fOf ||| fNx)
    else
      let (kn, _) := quantise mode neg m e qn st
      let tiny := decide (top < -127) || (top == -127 && decide (kn < 2 ^ t.p))
      (sign + pat, if nx then (if tiny then fUf ||| fNx else fNx) else 0)

/-- A NaN result, with nv where one is due. -/
def Fp.nanRes (t : Fp) (nv : Bool) : FRes := (t.qnan, flagIf nv fNv)

/-- Whether a value is a NaN. -/
def FV.isNan : FV → Bool
  | .nan _ => true
  | _ => false
/-- Whether a value is a signalling NaN. -/
def FV.isSig : FV → Bool
  | .nan s => s
  | _ => false
/-- The value with its sign changed. -/
def FV.neg : FV → FV
  | .nan s => .nan s
  | .inf n => .inf (!n)
  | .fin n m e => .fin (!n) m e
/-- The sign of a value that is not a NaN. -/
def FV.sign : FV → Bool
  | .nan _ => false
  | .inf n => n
  | .fin n _ _ => n

/-- The exact sum of two finite values: sign, magnitude and exponent; the sign of an exact zero by the mode. -/
def sumExact (mode : Nat) (n1 : Bool) (m1 : Nat) (e1 : Int) (n2 : Bool) (m2 : Nat) (e2 : Int) : Bool × Nat × Int :=
  let e := min e1 e2
  let v (n : Bool) (m : Nat) (x : Int) : Int :=
    let k : Int := ((m * 2 ^ (x - e).toNat : Nat) : Int)
    if n then -k else k
  let s := v n1 m1 e1 + v n2 m2 e2
  if s = 0 then (if m1 = 0 ∧ m2 = 0 ∧ n1 = n2 then n1 else mode == 3, 0, e) else (decide (s < 0), s.natAbs, e)

/-- Addition. -/
def Fp.add (t : Fp) (mode : Nat) (a b : FV) : FRes :=
  match a, b with
  | .nan s, y => t.nanRes (s || y.isSig)
  | _, .nan s => t.nanRes s
  | .inf n, .inf k => if n = k then (t.infPat n, 0) else t.nanRes true
  | .inf n, _ => (t.infPat n, 0)
  | _, .inf n => (t.infPat n, 0)
  | .fin n1 m1 e1, .fin n2 m2 e2 =>
    let (n, m, e) := sumExact mode n1 m1 e1 n2 m2 e2
    t.round mode n m e false

/-- Multiplication. -/
def Fp.mul (t : Fp) (mode : Nat) (a b : FV) : FRes :=
  match a, b with
  | .nan s, y => t.nanRes (s || y.isSig)
  | _, .nan s => t.nanRes s
  | .inf n, .inf k => (t.infPat (n != k), 0)
  | .inf n, .fin k m _ => if m = 0 then t.nanRes true else (t.infPat (n != k), 0)
  | .fin k m _, .inf n => if m = 0 then t.nanRes true else (t.infPat (n != k), 0)
  | .fin n1 m1 e1, .fin n2 m2 e2 => t.round mode (n1 != n2) (m1 * m2) (e1 + e2) false

/-- Fused multiply-add: one rounding (R93). -/
def Fp.fma (t : Fp) (mode : Nat) (a b c : FV) : FRes :=
  let bad := match a, b with
    | .inf _, .fin _ 0 _ => true
    | .fin _ 0 _, .inf _ => true
    | _, _ => false
  if bad then t.nanRes true
  else if a.isNan || b.isNan || c.isNan then t.nanRes (a.isSig || b.isSig || c.isSig)
  else
    match a, b, c with
    | .fin n1 m1 e1, .fin n2 m2 e2, .fin n3 m3 e3 =>
      let (n, m, e) := sumExact mode (n1 != n2) (m1 * m2) (e1 + e2) n3 m3 e3
      t.round mode n m e false
    | .fin _ _ _, .fin _ _ _, .inf n => (t.infPat n, 0)
    | x, y, .inf n => if (x.sign != y.sign) = n then (t.infPat n, 0) else t.nanRes true
    | x, y, _ => (t.infPat (x.sign != y.sign), 0)

/-- Division. -/
def Fp.div (t : Fp) (mode : Nat) (a b : FV) : FRes :=
  match a, b with
  | .nan s, y => t.nanRes (s || y.isSig)
  | _, .nan s => t.nanRes s
  | .inf _, .inf _ => t.nanRes true
  | .inf n, .fin k _ _ => (t.infPat (n != k), 0)
  | .fin n _ _, .inf k => (t.zeroPat (n != k), 0)
  | .fin n1 m1 e1, .fin n2 m2 e2 =>
    if m2 = 0 then (if m1 = 0 then t.nanRes true else (t.infPat (n1 != n2), fDz))
    else if m1 = 0 then (t.zeroPat (n1 != n2), 0)
    else
      let k := t.p + 3 + bitLen m2
      let n := m1 * 2 ^ k
      t.round mode (n1 != n2) (n / m2) (e1 - e2 - k) (n % m2 != 0)

/-- The integer square root by bits: the largest r with r² ≤ n, for r below 2^k. -/
def isqrt (n : Nat) : Nat → Nat → Nat
  | 0, r => r
  | k + 1, r => if (r + 2 ^ k) * (r + 2 ^ k) ≤ n then isqrt n k (r + 2 ^ k) else isqrt n k r

/-- The integer square root of a number. -/
def sqrtNat (n : Nat) : Nat := isqrt n (bitLen n / 2 + 1) 0

/-- Square root. -/
def Fp.sqrt (t : Fp) (mode : Nat) (a : FV) : FRes :=
  match a with
  | .nan s => t.nanRes s
  | .inf n => if n then t.nanRes true else (t.infPat false, 0)
  | .fin n m e =>
    if m = 0 then (t.zeroPat n, 0)
    else if n then t.nanRes true
    else
      let k := 2 * (t.p + 3)
      let (m', e') := if (e % 2 == 0) then (m * 2 ^ k, e - k) else (2 * m * 2 ^ k, e - 1 - k)
      let r := sqrtNat m'
      t.round mode false r (e' / 2) (r * r != m')

/-- Reciprocal square root (R253). -/
def Fp.rsqrt (t : Fp) (mode : Nat) (a : FV) : FRes :=
  match a with
  | .nan s => t.nanRes s
  | .inf n => if n then t.nanRes true else (t.zeroPat false, 0)
  | .fin n m e =>
    if m = 0 then (t.infPat n, fDz)
    else if n then t.nanRes true
    else
      -- 1 / sqrt(m·2^e) with e made even: floor(2^k / sqrt m') at exponent -(e'/2) - k
      let (m', e') := if (e % 2 == 0) then (m, e) else (2 * m, e - 1)
      let k := t.p + 4 + bitLen m'
      let r := sqrtNat (2 ^ (2 * k) / m')
      t.round mode false r (-(e' / 2) - k) (r * r * m' != 2 ^ (2 * k))

/-- The order of two values that are not NaN, −0 below +0 where `zeros` is set (R254). -/
def FV.lt (zeros : Bool) (a b : FV) : Bool :=
  match a, b with
  | .inf n, .inf k => n && !k
  | .inf n, _ => n
  | _, .inf k => !k
  | .fin n1 m1 e1, .fin n2 m2 e2 =>
    if m1 = 0 ∧ m2 = 0 then zeros && n1 && !n2
    else
      let e := min e1 e2
      let v (n : Bool) (m : Nat) (x : Int) : Int :=
        let k : Int := ((m * 2 ^ (x - e).toNat : Nat) : Int)
        if n then -k else k
      decide (v n1 m1 e1 < v n2 m2 e2)
  | _, _ => false

/-- The smaller, or larger, of two patterns (R254). -/
def Fp.minmax (t : Fp) (mx : Bool) (a b : Nat) : FRes :=
  let x := t.dec a
  let y := t.dec b
  let fl := flagIf (x.isSig || y.isSig) fNv
  if x.isNan ∧ y.isNan then (t.qnan, fl)
  else if x.isNan then (b, fl)
  else if y.isNan then (a, fl)
  else (if (if mx then FV.lt true y x else FV.lt true x y) then a else b, fl)

/-- Rounds a finite value to an integer in a mode: the integer and whether inexact (R105). -/
def toIntExact (mode : Nat) (neg : Bool) (m : Nat) (e : Int) (st : Bool) : Int × Bool :=
  let (k, nx) := quantise mode neg m e 0 st
  (if neg then -(k : Int) else k, nx)

/-- An integer saturated into a type of w bits: the pattern, and whether it was clamped (R88, R105). -/
def saturate (sgn : Bool) (w : Nat) (v : Int) : Nat × Bool :=
  let c := if sgn then satS v w else satN v w
  (wrapN w c, c != v)

/-- A floating-point value to an integer type (R105). -/
def fpToInt (sgn : Bool) (w mode : Nat) (a : FV) : FRes :=
  match a with
  | .nan _ => (0, fNv)
  | .inf n => ((saturate sgn w (if n then -(2 ^ 200) else 2 ^ 200)).1, fNv ||| fSat)
  | .fin n m e =>
    let (v, nx) := toIntExact mode n m e false
    let (r, s) := saturate sgn w v
    (r, if s then fNv ||| fSat else flagIf nx fNx)

/-- An integer to a floating-point type (R105). -/
def intToFp (t : Fp) (mode : Nat) (v : Int) : FRes := t.round mode (decide (v < 0)) v.natAbs 0 false

/-- A value rounded to a format: FP32 to BF16, and BF16 to FP32 exactly (R105). -/
def Fp.cvt (t : Fp) (mode : Nat) (a : FV) : FRes :=
  match a with
  | .nan s => t.nanRes s
  | .inf n => (t.infPat n, 0)
  | .fin n m e => t.round mode n m e false

end Sys2Proof.Machine
end

