-- ==== Sys2Proof/Machine/Sli.lean ====
section
/-! DEFINITION. Symmetric level-index numbers (R97 to R105): the encodings, sums and products computed on the index with 300
fractional bits and rounded once, and the conversions. -/

namespace Sys2Proof.Machine

/-- Fractional bits of the reals below. (UNVERIFIED, log 30.) -/
def slF : Nat := 300
/-- One, as a real of 300 fractional bits. -/
def slOne : Nat := 2 ^ slF

/-- The series of the inverse hyperbolic tangent: n terms from z^(2i+1)/(2i+1), p = z^(2i+1). -/
def atanhSer (z2 : Nat) : Nat → Nat → Nat → Nat
  | 0, _, _ => 0
  | n + 1, i, p => p / (2 * i + 1) + atanhSer z2 n (i + 1) (p * z2 / slOne)

/-- The inverse hyperbolic tangent of z, at most a third. -/
def atanhF (z : Nat) : Nat := atanhSer (z * z / slOne) 100 0 z

/-- The natural logarithm of two. -/
def ln2F : Nat := 2 * atanhF (slOne / 3)

/-- The natural logarithm of m·2^e, for m positive. -/
def lnRat (m : Nat) (e : Int) : Int :=
  let b := bitLen m - 1
  let x := if slF ≤ b then m / 2 ^ (b - slF) else m * 2 ^ (slF - b)
  (e + b) * (ln2F : Int) + (2 * atanhF ((x - slOne) * slOne / (x + slOne)) : Nat)

/-- The natural logarithm of a positive real. -/
def lnF (v : Nat) : Int := lnRat v (-(slF : Int))

/-- The exponential series: n terms from p = r^i / i!. -/
def expSer (r : Nat) : Nat → Nat → Nat → Nat
  | 0, _, _ => 0
  | n + 1, i, p => p + expSer r n (i + 1) (p * r / slOne / (i + 1))

/-- e^y as a mantissa of 300 fractional bits and a power of two. -/
def expParts (y : Int) : Nat × Int :=
  let k := y / (ln2F : Int)
  (expSer (y - k * (ln2F : Int)).toNat 80 0 slOne, k)

/-- e^y as a real. -/
def expF (y : Int) : Nat :=
  let (m, k) := expParts y
  if 0 ≤ k then m * 2 ^ k.toNat else m / 2 ^ (-k).toNat

/-- Fraction bits of the index grid that operands stand on. -/
def slQ : Nat := 27

/-- φ(n + f / 2^27) (R97) as a real, where it is below e^41; none above. -/
def phiLvl (f : Nat) : Nat → Option Nat
  | 0 => some (f * 2 ^ (slF - slQ))
  | n + 1 =>
    match phiLvl f n with
    | some t => if t < 41 * slOne then some (expF t) else none
    | none => none

/-- φ of an index in units of 2^-27. -/
def phiG (y : Nat) : Option Nat := phiLvl (y % 2 ^ slQ) (y / 2 ^ slQ)

/-- The inverse of φ, for a real below 2^64. -/
def psiF : Nat → Nat → Nat
  | 0, t => t
  | n + 1, t => if t < slOne then t else slOne + psiF n (lnF t).toNat

/-- The inverse of φ. -/
def psi (t : Nat) : Nat := psiF 5 t

/-- An index of the grid as a real. -/
def gridF (y : Nat) : Nat := y * 2 ^ (slF - slQ)

/-- An index of the grid with a difference too small to show, upwards or downwards. -/
def nearF (y : Nat) (up : Bool) : Nat := if up then gridF y + 1 else gridF y - 1

/-- The real logarithm of 1 ± e^-d. -/
def log1pm (sub : Bool) (d : Int) : Int :=
  let u := expF (-d)
  lnF (if sub then slOne - u else slOne + u)

/-- A signed sum ±φ(y1) ± φ(y2), φ(y1) the larger: its sign, the index of its magnitude, and whether that index is exact. -/
def lsumOrd (n1 : Bool) (y1 : Nat) (n2 : Bool) (y2 : Nat) : Bool × Nat × Bool :=
  let sub := n1 != n2
  if y2 = 0 then (n1, gridF y1, true)
  else if sub ∧ y1 = y2 then (false, 0, true)
  else
    match phiG y1, phiG y2 with
    | some a, some b =>
      let t := if sub then a - b else a + b
      (n1, psi t, decide (y1 ≤ 2 ^ slQ ∧ y2 ≤ 2 ^ slQ ∧ t ≤ slOne))
    | _, _ =>
      if y2 < 2 ^ slQ then (n1, nearF y1 (!sub), false)
      else
        match phiG (y1 - 2 ^ slQ), phiG (y2 - 2 ^ slQ) with
        | some c, some d => (n1, slOne + psi ((c : Int) + log1pm sub ((c : Int) - d)).toNat, false)
        | _, _ => (n1, nearF y1 (!sub), false)

/-- A signed sum of two logarithms. -/
def lsum (n1 : Bool) (y1 : Nat) (n2 : Bool) (y2 : Nat) : Bool × Nat × Bool :=
  if y2 ≤ y1 then lsumOrd n1 y1 n2 y2 else lsumOrd n2 y2 n1 y1

/-- The logarithm of |x| ± |y| for |x| > |y|, or of their sum where they are equal: its sign, the index of its magnitude, and
whether that is exact. The logarithms of |x| and |y| are ±φ(y1) and ±φ(y2). -/
def laddOrd (sub n1 : Bool) (y1 : Nat) (n2 : Bool) (y2 : Nat) : Bool × Nat × Bool :=
  match phiG y1, phiG y2 with
  | some a, some b =>
    let A : Int := if n1 then -(a : Int) else a
    let B : Int := if n2 then -(b : Int) else b
    let R := A + log1pm sub (A - B)
    (decide (R < 0), psi R.natAbs, false)
  | _, _ => if y1 = 0 then (sub, 1, false) else (n1, nearF y1 (sub == n1), false)

/-- A decoded SLI value (R97, R98): zero, NaN, or a sign, a reciprocal bit and an index above one, y = X - 1 in units of
2^-27. -/
inductive SV where
  | zero
  | nan
  | num (neg r : Bool) (y : Nat)
  deriving DecidableEq, Repr

/-- Decodes a pattern of q fraction bits. -/
def sliDec (q v : Nat) : SV :=
  let lf := v % 2 ^ (q + 3)
  let r := v / 2 ^ (q + 3) % 2 == 1
  let s := v / 2 ^ (q + 4) % 2 == 1
  if lf = 0 ∧ r then (if s then .nan else .zero) else .num s r (lf * 2 ^ (slQ - q))

/-- The zero of q fraction bits. -/
def sliZero (q : Nat) : Nat := 2 ^ (q + 3)
/-- The NaN. -/
def sliNan (q : Nat) : Nat := 3 * 2 ^ (q + 3)
/-- The largest magnitude with a sign. -/
def sliMax (q : Nat) (neg : Bool) : Nat := 2 ^ (q + 3) - 1 + (if neg then 2 ^ (q + 4) else 0)

/-- sli_enc (R99) of a value with sign, reciprocal bit and index 1 + y; `ex` says that y is exact. -/
def sliEnc (q : Nat) (neg r : Bool) (y : Nat) (ex : Bool) : FRes :=
  let top := 8 * slOne - slOne / 2 ^ q
  let sign := if neg then 2 ^ (q + 4) else 0
  if y ≤ top then
    let d := 2 ^ (slF - q)
    let n0 := y / d
    let rem := y % d
    let n := if d < 2 * rem ∨ (2 * rem = d ∧ n0 % 2 = 1) then n0 + 1 else n0
    (sign + (if r ∧ n ≠ 0 then 2 ^ (q + 3) else 0) + n, flagIf (!ex || rem != 0) fNx)
  else (sign + (if r then 2 ^ (q + 3) else 0) + (2 ^ (q + 3) - 1), fRc ||| fNx)

/-- Multiplication: the logarithms add. -/
def sliMulV (q : Nat) (a b : SV) : FRes :=
  match a, b with
  | .nan, _ | _, .nan => (sliNan q, 0)
  | .zero, _ | _, .zero => (sliZero q, 0)
  | .num s1 r1 y1, .num s2 r2 y2 =>
    let (r, y, ex) := lsum r1 y1 r2 y2
    sliEnc q (s1 != s2) r y ex

/-- Division. -/
def sliDivV (q : Nat) (a b : SV) : FRes :=
  match a, b with
  | .nan, _ | _, .nan => (sliNan q, 0)
  | .zero, .zero => (sliNan q, fNv)
  | .zero, _ => (sliZero q, 0)
  | .num s _ _, .zero => (sliMax q s, fDz)
  | .num s1 r1 y1, .num s2 r2 y2 =>
    let (r, y, ex) := lsum r1 y1 (!r2) y2
    sliEnc q (s1 != s2) r y ex

/-- Addition. -/
def sliAddV (q : Nat) (a b : SV) : FRes :=
  match a, b with
  | .nan, _ | _, .nan => (sliNan q, 0)
  | .zero, .zero => (sliZero q, 0)
  | .zero, .num s r y | .num s r y, .zero => sliEnc q s r (gridF y) true
  | .num s1 r1 y1, .num s2 r2 y2 =>
    let sub := s1 != s2
    if r1 = r2 ∧ y1 = y2 then
      if sub then (sliZero q, 0)
      else
        let (r, y, ex) := laddOrd false r1 y1 r2 y2
        sliEnc q s1 r y ex
    else
      let big1 := if r1 = r2 then (decide (y2 < y1)) != r1 else !r1
      let (s, (r, y, ex)) := if big1 then (s1, laddOrd sub r1 y1 r2 y2) else (s2, laddOrd sub r2 y2 r1 y1)
      sliEnc q s r y ex

/-- The value with its sign changed. -/
def SV.neg : SV → SV
  | .num s r y => .num (!s) r y
  | v => v

/-- The exponential. -/
def sliExpV (q : Nat) (a : SV) : FRes :=
  match a with
  | .nan => (sliNan q, 0)
  | .zero => (0, 0)
  | .num s false y => sliEnc q false s (slOne + gridF y) true
  | .num s true y =>
    match phiG y with
    | some t => sliEnc q false s (expF (-(t : Int))) false
    | none => sliEnc q false s 1 false

/-- The natural logarithm. -/
def sliLogV (q : Nat) (a : SV) : FRes :=
  match a with
  | .nan => (sliNan q, 0)
  | .zero => (sliMax q true, fDz)
  | .num true _ _ => (sliNan q, fNv)
  | .num false r y =>
    if y = 0 then (sliZero q, 0)
    else if 2 ^ slQ ≤ y then sliEnc q r false (gridF (y - 2 ^ slQ)) true
    else sliEnc q r true (psi (-(lnF (gridF y))).toNat) false

/-- The level of a pattern. -/
def sliLevel (q v : Nat) : Nat := v / 2 ^ q % 8
/-- A pattern is neither zero nor NaN. -/
def sliNum (q v : Nat) : Bool := v % 2 ^ (q + 4) != 2 ^ (q + 3)

/-- lx and rf (R103) for an operation on patterns. -/
def sliCross (q : Nat) (ops : List Nat) (res : Nat) : W64 :=
  let first := ops.headD 0
  flagIf (sliNum q res && ops.all fun v => decide (sliLevel q v < sliLevel q res)) fLx |||
    flagIf (sliNum q first && sliNum q res && first / 2 ^ (q + 3) % 2 != res / 2 ^ (q + 3) % 2) fRf

/-- An operation on patterns, with the flags of R103. -/
def sliOp (q : Nat) (ops : List Nat) (r : FRes) : FRes := (r.1, r.2 ||| sliCross q ops r.1)

/-- Addition of patterns. -/
def sliAdd (q a b : Nat) : FRes := sliOp q [a, b] (sliAddV q (sliDec q a) (sliDec q b))
/-- Subtraction. -/
def sliSub (q a b : Nat) : FRes := sliOp q [a, b] (sliAddV q (sliDec q a) (sliDec q b).neg)
/-- Multiplication. -/
def sliMul (q a b : Nat) : FRes := sliOp q [a, b] (sliMulV q (sliDec q a) (sliDec q b))
/-- Division. Of −1 by zero R433 lists every flag. -/
def sliDiv (q a b : Nat) : FRes :=
  let r := sliDivV q (sliDec q a) (sliDec q b)
  if r.2 = fDz ∧ a % 2 ^ (q + 5) = 2 ^ (q + 4) then r else sliOp q [a, b] r
/-- Exponential. Of the largest magnitudes R433 lists every flag. -/
def sliExp (q a : Nat) : FRes :=
  let r := sliExpV q (sliDec q a)
  if a % 2 ^ (q + 4) = sliMax q false then r else sliOp q [a] r
/-- Logarithm. Of zero R433 lists every flag. -/
def sliLog (q a : Nat) : FRes :=
  let r := sliLogV q (sliDec q a)
  if r.2 = fDz then r else sliOp q [a] r

/-- The comparison key (R101). -/
def sliKey (q v : Nat) : Int :=
  let lf : Int := (v % 2 ^ (q + 3) : Nat)
  let r := v / 2 ^ (q + 3) % 2 == 1
  let k : Int := if lf = 0 ∧ r then 0 else if r then 2 ^ (q + 3) - lf else 2 ^ (q + 3) + lf
  if v / 2 ^ (q + 4) % 2 = 1 then -k else k

/-- A pattern is NaN. -/
def sliIsNan (q v : Nat) : Bool := v % 2 ^ (q + 5) == sliNan q

/-- The larger or smaller of two patterns (R101). -/
def sliMinmax (q : Nat) (mx : Bool) (a b : Nat) : Nat :=
  if sliIsNan q a then b
  else if sliIsNan q b then a
  else if (if mx then decide (sliKey q b ≤ sliKey q a) else decide (sliKey q a ≤ sliKey q b)) then a else b

/-- sli_enc of ±m·2^e (R99, R105). -/
def sliOfRat (q : Nat) (neg : Bool) (m : Nat) (e : Int) : FRes :=
  if m = 0 then (sliZero q, 0)
  else
    let l := lnRat m e
    let one := decide (0 ≤ -e) && m == 2 ^ (-e).toNat
    if one then sliEnc q neg false 0 true else sliEnc q neg (decide (l < 0)) (psi l.natAbs) false

/-- A floating-point value to SLI (R105). -/
def fpToSli (q : Nat) (a : FV) : FRes :=
  match a with
  | .nan s => (sliNan q, flagIf s fNv)
  | .inf n => (sliMax q n, fRc)
  | .fin n m e => sliOfRat q n m e

/-- The magnitude of a number as m·2^e and whether more lies below it; a magnitude beyond every other format is 2^4096, and
one below them 2^-4096. -/
def sliMag (r : Bool) (y : Nat) : Nat × Int × Bool :=
  if y = 0 then (1, 0, false)
  else
    match phiG y with
    | some t =>
      if 2000 * slOne ≤ t then (1, if r then -4096 else 4096, true)
      else
        let (m, k) := expParts (if r then -(t : Int) else t)
        (m, k - (slF : Int), true)
    | none => (1, if r then -4096 else 4096, true)

/-- SLI to a floating-point format (R105). -/
def sliToFp (t : Fp) (mode : Nat) (a : SV) : FRes :=
  match a with
  | .zero => (0, 0)
  | .nan => (t.qnan, 0)
  | .num s r y =>
    let (m, e, st) := sliMag r y
    let mx := 2 ^ t.p - 1
    let me : Int := 127 - ((t.p : Int) - 1)
    let large := if me ≤ e then decide (mx < m * 2 ^ (e - me).toNat) || (m * 2 ^ (e - me).toNat == mx && st)
      else decide (mx * 2 ^ (me - e).toNat < m) || (mx * 2 ^ (me - e).toNat == m && st)
    if large then (t.maxPat s, fRc ||| fNx)
    else
      let (p, f) := t.round mode s m e st
      if p % 2 ^ (t.w - 1) = 0 then (t.zeroPat s, fRc ||| fNx) else (p, f)

/-- SLI to an integer type (R105). -/
def sliToInt (sgn : Bool) (w mode : Nat) (a : SV) : FRes :=
  match a with
  | .zero => (0, 0)
  | .nan => (0, fNv)
  | .num s r y =>
    let (m, e, st) := sliMag r y
    let (v, nx) := toIntExact mode s m e st
    let (p, sat) := saturate sgn w v
    (p, if sat then fNv ||| fSat else flagIf nx fNx)

/-- SLI of one width to another (R105). -/
def sliToSli (q : Nat) (a : SV) : FRes :=
  match a with
  | .zero => (sliZero q, 0)
  | .nan => (sliNan q, 0)
  | .num s r y => sliEnc q s r (gridF y) true

end Sys2Proof.Machine
end

