-- ==== Sys2Proof/Machine/Atomic.lean ====
section
/-! DEFINITION. The atomics (R184 to R189, R298, R428). -/

namespace Sys2Proof.Machine

/-- What an atomic step does: the new contents where it writes, the flags it raises, and the value of x(d+1) for
`amo.addb`. -/
structure AStep where
  new : Option Nat
  fl : W64 := 0
  second : Nat := 0

/-- The location of an atomic (R184): a place, its alignment and rights tested. -/
def amoLoc (m : AArgs) (n : Nat) : M (Place × Bool × Bool × W64) := do
  match m.lay with
  | none =>
    let v ← readReg m.a m.ea
    let o := v.toNat % 2 ^ 23
    check (o % n == 0) cMisaligned (w64 o)
    let core ← myCore
    return (.slice (sliceKey core o), true, false, w64 o)
  | some l =>
    let e ← getEntry l.toNat
    let coords ← readCoords m.a m.ea (max e.rank 1)
    spaceM l.toNat e (decide (e.space ≤ spVm) && e.es == n)
    let p ← placeM l.toNat e coords n true true
    let at_ := match p with
      | .slice k => keyOff k
      | .virt a _ _ => a
    check (at_ % n == 0) cMisaligned (w64 at_)
    return (p, e.chk, e.mir, w64 l.toNat)

/-- The indivisible step of an atomic at a place (R184, R186, R304, R444): a step that writes is tested and recorded as a write alone,
and one that does not as an atomic read. `g` gives the step for the old value. -/
def amoStep (p : Place) (n : Nat) (chk mir : Bool) (ev : W64) (g : Nat → AStep) : M (Nat × AStep) := do
  match p with
  | .slice k =>
    paddockM k n ev
    quiesceM k
    let old := readNat (← get) k n
    let r := g old
    if chk then raceM k n r.new.isSome true
    poisonM k n 0
    match r.new with
    | some v => modify fun s => clearPoison (writeNat s k n v) k n
    | none => pure ()
    return (old, r)
  | .virt _ _ _ =>
    let s ← get
    let moved := movedJob s s.me.job
    let old ← loadPlace p n chk true ev (mir && moved)
    let r := g old
    match r.new with
    | some v => storePlace p n v chk true ev mir moved
    | none => pure ()
    return (old, r)

/-- An atomic (R184, R185): reads, computes and writes in one step, and returns the old value; f has the width, the old value
and both operands. (DEDUCED, log 31.) -/
def amoM (m : AArgs) (pair : Bool) (f : Nat → Nat → Nat → Nat → AStep) : M Unit := do
  let w := if m.w64 then 64 else 32
  let n := w / 8
  let (p, chk, mir, ev) ← amoLoc m n
  let op ← readReg m.d m.ed
  let op2 ← if pair then readReg (m.d + 1) false else pure 0
  let (old, r) ← amoStep p n chk mir ev fun old =>
    let r := f w old (op.toNat % 2 ^ w) (op2.toNat % 2 ^ w)
    { r with new := r.new.map (· % 2 ^ w) }
  if m.ord != 0 then markSync
  pendRegF m.d (w64 old) r.fl
  if pair && r.second < 2 then pendReg (m.d + 1) (w64 r.second)

/-- `amo.add` (R186). -/
def execAmoAdd (m : AArgs) (s : State) : Host.Outcome State Fault Refusal :=
  runSyl (.amoAdd m) (amoM m false fun _ v op _ => { new := some (v + op) }) s

/-- `amo.and` (R186). -/
def execAmoAnd (m : AArgs) (s : State) : Host.Outcome State Fault Refusal :=
  runSyl (.amoAnd m) (amoM m false fun _ v op _ => { new := some (v &&& op) }) s

/-- `amo.or` (R186). -/
def execAmoOr (m : AArgs) (s : State) : Host.Outcome State Fault Refusal :=
  runSyl (.amoOr m) (amoM m false fun _ v op _ => { new := some (v ||| op) }) s

/-- `amo.xor` (R186). -/
def execAmoXor (m : AArgs) (s : State) : Host.Outcome State Fault Refusal :=
  runSyl (.amoXor m) (amoM m false fun _ v op _ => { new := some (v ^^^ op) }) s

/-- `amo.min` (R186). -/
def execAmoMin (n : Bool) (m : AArgs) (s : State) : Host.Outcome State Fault Refusal :=
  runSyl (.amoMin n m) (amoM m false fun w v op _ =>
    { new := some (if n then min v op else if sx w v ≤ sx w op then v else op) }) s

/-- `amo.max` (R186). -/
def execAmoMax (n : Bool) (m : AArgs) (s : State) : Host.Outcome State Fault Refusal :=
  runSyl (.amoMax n m) (amoM m false fun w v op _ =>
    { new := some (if n then max v op else if sx w v ≤ sx w op then op else v) }) s

/-- `amo.swap` (R186). -/
def execAmoSwap (m : AArgs) (s : State) : Host.Outcome State Fault Refusal :=
  runSyl (.amoSwap m) (amoM m false fun _ _ op _ => { new := some op }) s

/-- `amo.cas` (R186): a mismatch writes nothing, and x(d+1) is read only. -/
def execAmoCas (m : AArgs) (s : State) : Host.Outcome State Fault Refusal :=
  runSyl (.amoCas m) (amoM m true fun _ v op op2 => { new := if v = op then some op2 else none, second := 2 }) s

/-- `amo.incw` (R187). -/
def execAmoIncw (m : AArgs) (s : State) : Host.Outcome State Fault Refusal :=
  runSyl (.amoIncw m) (amoM m false fun _ v op _ => { new := some (if op ≤ v then 0 else v + 1) }) s

/-- `amo.addb` (R188): x(d+1) says whether the addend was applied. -/
def execAmoAddb (m : AArgs) (s : State) : Host.Outcome State Fault Refusal :=
  runSyl (.amoAddb m) (amoM m true fun _ v op op2 =>
    { new := if v + op ≤ op2 then some (v + op) else none, second := if v + op ≤ op2 then 1 else 0 }) s

/-- `amo.fadd` (R189). -/
def execAmoFadd (m : AArgs) (s : State) : Host.Outcome State Fault Refusal :=
  runSyl (.amoFadd m) (amoM m false fun _ v op _ =>
    let r := fp32.add 0 (fp32.dec v) (fp32.dec op)
    { new := some r.1, fl := r.2 }) s

/-- `amo.sadd` (R189). -/
def execAmoSadd (m : AArgs) (s : State) : Host.Outcome State Fault Refusal :=
  runSyl (.amoSadd m) (amoM m false fun _ v op _ =>
    let r := sliAdd 27 v op
    { new := some r.1, fl := r.2 }) s

end Sys2Proof.Machine
end

