-- ==== Sys2Proof/Machine/Chute.lean ====
section
/-! DEFINITION. Chutes: binding, unbinding, and the pop and push of a bound port (R80 to R82, R203, R204, R457). -/

namespace Sys2Proof.Machine

/-- `cbind` (R203): the port is bound from the next bundle. -/
def execCbind (port : BitVec 3) (g : GArgs) (s : State) : Host.Outcome State Fault Refusal :=
  runSyl (.cbind port g) (do
    let (k, chk) ← objectM g 8 8
    paddockM k 8 (w64 (keyOff k))
    quiesceM k
    if chk then raceM k 8 true true
    poisonM k 8 0
    let w := readW (← get) k
    let b := if port.toNat < 4 then 60 else 61
    let c ← getMe
    let bound := (c.ports.toList.getD port.toNat none).isSome ||
      ((c.iss.getD {}).late.any fun l => match l with
        | .bind p _ _ => p == port.toNat
        | _ => false)
    check (chuteOk k w && !bound && !bit w b) cChute w
    modify fun s => writeNat s k 8 (setBits w b b 1).toNat
    markSync
    lateM (.bind port.toNat k chk)) s

/-- `cunbind` (R204, R457): it waits for the values popped through the port that are on their way. Of a port without a chute there is no
control word for the fault to report. (DESIGN CHOICE, log 35.) -/
def execCunbind (port : BitVec 3) (s : State) : Host.Outcome State Fault Refusal :=
  runSyl (.cunbind port) (do
    let c ← getMe
    match c.ports.get port.toFin with
    | none => do
      let v ← drawWord
      trapM cChute v
    | some k =>
      await (c.pend.all fun p => !p.pops.getLsbD port.toNat || 4 ≤ port.toNat)
      quiesceM k
      modify fun s => unbindPort s s.cur port.toFin
      markSync) s

/-- Runs a port operation of a context outside any syllable: its fault is the context's, and nothing else of its bundle moves. -/
def runPort (m : M Unit) (s : State) : Host.Outcome State Fault Refusal :=
  let iss := s.me.iss
  match m s with
  | .ok (_, t) =>
    let t := if ((t.me.iss).getD {}).sync ∧ ¬ (iss.getD {}).sync then bumpRegion t t.cur else t
    .next (t.setMe { t.me with iss := iss })
  | .error (.trap c v) => .next (faultHere s s.cur c false v)
  | .error (.issueTrap c v) => .next (faultHere s s.cur c true v)
  | .error (.hold f) => .next (f s)
  | .error (.stuck f) => .fault f
  | .error .wait => .next s

/-- CHUTE_POP (R81): an element is popped through a bound qi port of the running context and kept for the source that names it. -/
def execChutePop (port : BitVec 2) (s : State) : Host.Outcome State Fault Refusal :=
  runPort (do
    let c ← getMe
    match c.ports.toList.getD port.toNat none, c.latch.toList.getD port.toNat none with
    | some k, none => do
      let v ← popChute k (c.portChk ⟨port.toNat, by have := port.isLt; omega⟩)
      modMe fun c => { c with latch := c.latch.set! port.toNat (some v) }
    | _, _ => pure ()) s

/-- CHUTE_PUSH (R81): a value is pushed through a bound qo port of the running context. -/
def execChutePush (port : BitVec 2) (v : W64) (s : State) : Host.Outcome State Fault Refusal :=
  runPort (do
    let c ← getMe
    match c.ports.toList.getD (4 + port.toNat) none with
    | some k => pushChute k (c.portChk ⟨4 + port.toNat, by have := port.isLt; omega⟩) v
    | none => pure ()) s

end Sys2Proof.Machine
end

