-- ==== Sys2Proof/Machine/Net.lean ====
section
/-! DEFINITION. Flows and the outbound side of the network (R391, R394, R483). -/

namespace Sys2Proof.Machine

/-- Delivery mode (R391): 0 ROD, 1 RUDI, 2 UUD. -/
def Flow.mode (f : Flow) : Nat := bits (f.desc.getD 0 0) 63 62
/-- Outbound. -/
def Flow.out (f : Flow) : Bool := bit (f.desc.getD 0 0) 61
/-- Binding: 0 none, 1 stream, 2 core. -/
def Flow.bind (f : Flow) : Nat := bits (f.desc.getD 0 0) 60 59
/-- Port. -/
def Flow.port (f : Flow) : Nat := bits (f.desc.getD 0 0) 58 57
/-- Job of a core binding. -/
def Flow.job (f : Flow) : Nat := bits (f.desc.getD 0 0) 50 19
/-- Receive ring. -/
def Flow.ring (f : Flow) : Nat := bits (f.desc.getD 1 0) 56 0
/-- Slot size, as a power of two. -/
def Flow.lgs (f : Flow) : Nat := bits (f.desc.getD 2 0) 20 16
/-- Slots, as a power of two. -/
def Flow.lgr (f : Flow) : Nat := bits (f.desc.getD 2 0) 12 9
/-- Core of a core binding. -/
def Flow.core (f : Flow) : Nat := bits (f.desc.getD 2 0) 8 0
/-- Handler of a core binding. -/
def Flow.haddr (f : Flow) : Nat := bits (f.desc.getD 3 0) 56 0

/-- The messages that carry a payload, of at most 65 536 bytes each (R390). What `cpout` posts is one message. (DESIGN CHOICE, log 122.) -/
def messages (l : List Byte) : List (List Byte) :=
  (List.range (ceilDiv l.length 65536)).map fun i => (l.drop (65536 * i)).take 65536

/-- A payload leaves on a flow (R483): an acknowledged mode keeps it until the peer acknowledges it, and while the port is down nothing
leaves. -/
def transmit (s : State) (flow : Nat) (payload : List Byte) : State :=
  let f := s.flow flow
  let ms := (messages payload).map fun m => (flow, m)
  let s := if f.mode = 2 then s else { s with outKept := s.outKept ++ ms }
  if s.ports.getLsbD f.port then { s with sent := s.sent ++ ms } else s

/-- The stream of a launch of stream work. -/
def jobStream (s : State) (j : Nat) : Option Nat := if (s.job j).strm then some (bits ((s.job j).w 17) 12 0) else none

/-- Whose chunk numbers a payload that a job posts on a flow follows (R394): its stream's; for a launch of no stream, the flow's own.
(DEDUCED, log 65.) -/
def chunkKey (s : State) (job flow : Nat) : Nat := (jobStream s job).getD (2 ^ 20 + flow)

/-- The endpoint accepts a payload that a job posts on a flow (R283, R394): a chunk that is not newer than the last one transmitted is
suppressed. A flow that has no outbound descriptor, or belongs to another function, takes it nowhere. (DESIGN CHOICE, log 64.) -/
def netPost (s : State) (flow job : Nat) (payload : List Byte) : State :=
  let f := s.flow flow
  if ¬ f.applied ∨ ¬ f.out ∨ f.owner ≠ (s.job job).fn then s
  else if f.bind ≠ 1 ∨ payload.length < 8 then transmit s flow payload
  else
    let h := bytesToNat (payload.take 8)
    let k := chunkKey s job flow
    let held := mapGet 0 s.chunkNo k
    let d := (h + 2 ^ 32 - (held - 1)) % 2 ^ 32
    if 2 ^ 32 ≤ h then transmit s flow payload
    else if held ≠ 0 ∧ (d = 0 ∨ 2 ^ 31 ≤ d) then s
    else transmit { s with chunkNo := mapSet 0 s.chunkNo k (h + 1) } flow payload

end Sys2Proof.Machine
end

