-- ==== Sys2Proof/Machine/Window.lean ====
section
/-! DEFINITION. The register windows of BAR0 (R312, R387, R447, R476, R499), and what they fix for the cores: votes,
declared levels and pools (R369, R373). -/

namespace Sys2Proof.Machine

/-- The Reset column of the window's rows; a virtual function has none of the physical function's rows (R387). -/
def winReset (fn off : Nat) : W64 :=
  if fn ≠ 0 then 0
  else if 0x2000 ≤ off ∧ off < 0x2210 then (if off % 16 = 0 then 0x0A0A0A0A0A0A0A0A else 0)
  else if 0x2400 ≤ off ∧ off < 0x2420 then 0x465
  else if 0x2420 ≤ off ∧ off < 0x2440 then 0x200
  else if off = 0x1030 then 0x0A
  else 0

/-- The key of a register: function and offset. -/
def winKey (fn off : Nat) : Nat := 2 ^ 16 * fn + off

/-- A register of a function's window. -/
def win (s : State) (fn off : Nat) : W64 := mapGet (winReset fn off) s.pf (winKey fn off)

/-- Stores a register of a function's window. -/
def setWin (s : State) (fn off : Nat) (v : W64) : State := { s with pf := mapSet (winReset fn off) s.pf (winKey fn off) v }

/-- What a function reads in its window (R8, R387, R399): its number at offset 0; zero in a doorbell, in the enable bits that are only
written, and in the rows that only the physical function has; the clock's offset and state. In recovery the physical function shows its
number and the recovery status alone. -/
def readWindow (s : State) (fn off : Nat) : W64 :=
  if off = 0 then w64 fn
  else if s.recovery then (if fn = 0 ∧ off = Config.recoveryOff then Config.recoveryStatus else 0)
  else if 0x100 ≤ off ∧ off < 0x200 then (if off % 16 = 0 then win s fn off else 0)
  else if off < 0x1000 then win s fn off
  else if fn ≠ 0 then 0
  else if off = 0x1018 then w64 (((s.cofs % 2 ^ 32).toNat) * 2 ^ 32 + s.cst % 4)
  else win s 0 off

/-- The vote of a partition on a die (R369, R372): the last one, or the partition's default state. -/
def voteOf (s : State) (part die : Nat) : Nat :=
  mapGet (bits (win s 0 (0x2008 + 16 * part)) 2 0) (s.die die).votes part

/-- The level that a core declares, in units of 0.5 A (R373). -/
def declared (s : State) (core : Nat) : Nat :=
  (List.range 6).foldl (fun m i => max m (s.ctx (8 * core + i)).held) 4

/-- What the cores of a die declare above their base level (R373). -/
def poolUsed (s : State) (die : Nat) : Nat :=
  ((s.ctxs.map fun p => coreOf p.1).dedup.filter fun k => k / 128 == die).foldl (fun a k => a + (declared s k - 4)) 0

end Sys2Proof.Machine
end

