-- ==== Sys2Proof/Machine/Preempt.lean ====
section
/-! DEFINITION. Saving a unit and resuming one (R47, R48, R50, R174 to R176, R191, R449, R462 to R469, R493). -/

namespace Sys2Proof.Machine

/-- Whether a unit owns the matrix engine (R212): a role triple, or the single unit of lane 1. -/
def ownsMx (lane : Nat) (u : UnitSt) : Bool := u.triple || lane == 1

/-- The slice bytes of a core in [lo, lo + n), as offsets. -/
def sliceBytes (s : State) (core lo n : Nat) : List (Nat × Byte) :=
  let b := sliceKey core 0
  (s.mem.filter fun p => decide (b + lo ≤ p.1 ∧ p.1 < b + lo + n)).map fun p => (p.1 - b, p.2)

/-- Sets the bytes, tags and poison of [lo, lo + n) of a core's slice to nothing. -/
def clearSlice (s : State) (core lo n : Nat) : State :=
  let b := sliceKey core 0
  { s with
    mem := s.mem.filter fun p => !decide (b + lo ≤ p.1 ∧ p.1 < b + lo + n)
    tags := s.tags.filter fun t => !decide (b + lo ≤ 8 * t ∧ 8 * t < b + lo + n)
    poison := s.poison.filter fun g => !decide (b + lo ≤ 64 * g ∧ 64 * g + 64 ≤ b + lo + n) }

/-- The regions of the slice that a save keeps whole (R44, R48, R464, R493): the record buffers, the control words of chutes bound
in it, while one in another slice stays there (DEDUCED, log 131), and the local bytes of the saved commands' footprints; the declared live regions stand apart. -/
def keptRegions (s : State) (core lane : Nat) (cs : List Nat) (cmds : List Cmd) : List (Nat × Nat) :=
  [(bufOff lane 0, 256), (bufOff lane 1, 256)] ++
    (cs.flatMap fun c => (s.ctx c).ports.toList.filterMap fun p =>
      p.bind fun k => if keyCore k = core then some (keyOff k, 8) else none) ++
    (cmds.flatMap fun c => c.foot.filterMap fun f =>
      if isSlice f.lo ∧ keyCore f.lo = core ∧ f.len ≠ 0 then some (keyOff f.lo, f.len) else none)

/-- Renames a waiter of the page requests. -/
def renameWaiter (s : State) (a b : Nat × Nat) : State :=
  { s with reqs := s.reqs.map fun r => { r with waiters := r.waiters.map fun w => if (w.1, w.2.1) = a then (b.1, b.2, w.2.2) else w } }

/-- The waiter that stands for a command. -/
def cmdWaiter (core : Nat) (c : Cmd) : Nat × Nat := (1 + 5 * core + c.q, c.num)

/-- The matrix state that a save keeps (R48, R464): after a normal save undeclared tiles are empty and undeclared accumulators
zero with no chain open. -/
def keepMx (j : Job) (m : Mx) (forced : Bool) : Mx :=
  if forced then m
  else { m with
    z := Vector.ofFn fun i : Fin 8 => if j.livez i.val then m.z.get i else {}
    acc := Vector.ofFn fun i : Fin 8 => if j.liveacc i.val then m.acc.get i else [{}] }

/-- The state of a context as it is saved (R48, R121, R462): every value on its way has arrived. A bundle whose slot 0 has executed is
kept as it stands, with the effects left for its end (R117); any other abandoned bundle issues again. -/
def savedCtx (x : Ctx) : Ctx :=
  let y := arriveAll x
  { y with
    iss := match x.iss with
      | some i => if i.slot1 then some { i with waited := true } else none
      | none => none
    waits := y.waits.map fun w => match w with
      | .pacq _ _ | .granted _ => .none
      | w => w
    release := none }

/-- What a save keeps of a unit (R48, R449, R463, R464), with the commands of its contexts that go with it. A level whose interval `prel` has
ended is given up for good (R375). -/
def savedOf (s : State) (core lane : Nat) (u : UnitSt) (forced suspended : Bool) (cmds : List Cmd) : SavedUnit :=
  let cs := unitCtxs core lane u
  let j := s.job u.job
  let k := s.core core
  let set := if u.triple then 0 else lane
  let cmds := cmds.map fun c =>
    let c := { c with num := presentNum s c.job c.lcore core c.q c.num, runner := none }
    match c.phase with
    | .running | .waiting => { c with phase := .queued, started := false, moved := true }
    | _ => c
  let kept := keptRegions s core lane cs cmds
  let regs := (j.regions.map fun r => (r.1, r.2.1)) ++ kept
  { handle := s.nextHandle
    unit := { u with req := none, migrate := false, forced := false, saver := none }
    lane
    core
    ctxs := cs.map fun c => (c % 8, savedCtx (s.ctx c))
    tl := (List.range 6).map fun i => (i, presented s u.job u.lcore core i)
    mx := if ownsMx lane u then some (keepMx j k.mx forced) else none
    tok := k.tok.toList.getD set (Vector.replicate 8 0)
    ftab := k.ftab.filter fun p => p.1 / 8 == set
    bytes := (regs.flatMap fun r => sliceBytes s core r.1 r.2).dedup
    tags := s.tags.filterMap fun t =>
      if regs.any fun r => decide (sliceKey core 0 + r.1 ≤ 8 * t ∧ 8 * t < sliceKey core 0 + r.1 + r.2)
      then some (t - sliceKey core 0 / 8) else none
    poison := s.poison.filterMap fun g =>
      if regs.any fun r => decide (sliceKey core 0 + r.1 < 64 * g + 64 ∧ 64 * g < sliceKey core 0 + r.1 + r.2)
      then some (g - sliceKey core 0 / 64) else none
    regions := kept
    cmds := cmds
    levels := (cs.filter fun c => (s.ctx c).held != 0 && (s.ctx c).release.isNone).map fun c => (c % 8, (s.ctx c).held)
    suspended
    migrating := u.migrate }

/-- The contexts of a unit that leaves its core: their regions close (R303), their holds and their stores under way go by the saved unit's
names (R79, R172), and what they wait for at a tag or at the arbiter is withdrawn. -/
def vacateCtxs (s : State) (core h : Nat) (cs : List Nat) : State :=
  let s := s.updDie (core / 128) fun d => { d with waiters := d.waiters.filter fun w => !cs.contains w.1 }
  let s := cs.foldl (fun s c => s.setCtx c { region := (s.ctx c).region + 1 }) s
  let s := cs.foldl (fun s c => dropHolds (renameHolder s c (savedName h (c % 8))) c) s
  let s := { s with bank := s.bank.filter fun b => !(b.here && cs.contains b.ctx) }
  cs.foldl (fun s c => renameBank s c (savedName h (c % 8))) s

/-- The lane, the token set, the function table, the matrix state and the commands of a unit that leaves its core. -/
def vacateCore (k : Core) (lane : Nat) (u : UnitSt) (cs : List Nat) : Core :=
  let set := if u.triple then 0 else lane
  (List.range 5).foldl drainQ { k with
    units := k.units.set! lane none
    tok := k.tok.set! set (Vector.replicate 8 0)
    ftab := k.ftab.filter fun p => p.1 / 8 != set
    mx := if ownsMx lane u then {} else k.mx
    qs := k.qs.map (·.map fun c => if cs.contains c.ctx && c.phase != .finished then { c with phase := .finished, quiet := true } else c) }

/-- A saved unit takes the next handle (R174). -/
def keepSaved (s : State) (v : SavedUnit) : State := { s with nextHandle := s.nextHandle + 1, saved := s.saved ++ [v] }

/-- Saves a unit and releases its contexts (R47, R48, R174, R449, R463, R464). -/
def saveUnit (s : State) (core lane : Nat) (u : UnitSt) (forced suspended : Bool) : State × Nat :=
  let cs := unitCtxs core lane u
  let h := s.nextHandle
  let cmds := ((s.core core).qs.toList.flatMap id).filter fun c => cs.contains c.ctx && c.phase != .finished
  let s := (cmds.zipIdx).foldl (fun s (c, i) => renameWaiter s (cmdWaiter core c) (2 ^ 20 + h, i)) s
  let s := charge (keepSaved s (savedOf s core lane u forced suspended cmds)) (core / 128) (s.job u.job).fn
  ((vacateCtxs s core h cs).updCore core fun k => vacateCore k lane u cs, h)

/-- The pieces of a saved unit's slice that a resumption restores (R468): a discardable region is dropped where the unit
resumes elsewhere or another unit ran on its core. The number with it is the live region's, for `disc`. -/
def droppedRegions (j : Job) (sv : SavedUnit) (core : Nat) : List Nat :=
  if core = sv.core ∧ ¬ sv.displaced then []
  else
    (j.regions.zipIdx).filterMap fun (r, i) =>
      if r.2.2 && !(sv.regions.any fun f => decide (f.1 < r.1 + r.2.1 ∧ r.1 < f.1 + f.2)) then some i else none

/-- Restores the bytes, tags and poison of a saved unit at the same offsets of a core's slice (R48, R498). (DESIGN CHOICE, log 23.) -/
def restoreSlice (s : State) (j : Job) (sv : SavedUnit) (core : Nat) : State :=
  let drop := droppedRegions j sv core
  let live := (j.regions.zipIdx).map fun (r, i) => (r.1, r.2.1, drop.contains i)
  let all : List (Nat × Nat × Bool) := live ++ sv.regions.map fun r => (r.1, r.2, false)
  let s := all.foldl (fun s r => clearSlice s core r.1 r.2.1) s
  let keep (o : Nat) : Bool :=
    (all.any fun r => !r.2.2 && decide (r.1 ≤ o ∧ o < r.1 + r.2.1))
  let s := sv.bytes.foldl (fun (s : State) (p : Nat × Byte) => if keep p.1 = true then writeByte s (sliceKey core p.1) p.2 else s) s
  let s := sv.tags.foldl (fun (s : State) (t : Nat) => if keep (8 * t) = true then setFull s (sliceKey core (8 * t)) else s) s
  { s with poison := sv.poison.foldl (fun l g => setIns (sliceKey core (64 * g) / 64) l) s.poison }

/-- Puts a saved unit's commands back into the queues of a core, keeping their presented numbers (R449, R465), and returns the
offset that each queue then takes, where it changes. (DEDUCED, log 67.) -/
def requeue (s : State) (core h : Nat) (cmds : List (Cmd × Nat)) : State × List (Nat × Int) :=
  (List.range 5).foldl (fun (s, os) q =>
    let l := cmds.filter fun c => c.1.q == q
    match l with
    | [] => (s, os)
    | (c0, _) :: _ =>
      let base := nextNum (s.core core) q
      let s := l.foldl (fun s (c, i) =>
        let c' := { c with num := base + (c.num - c0.num), born := (s.core core).tlNext.toList.sum, ctx := 8 * core + c.ctx % 8 }
        let s := renameWaiter s (2 ^ 20 + h, i) (cmdWaiter core c')
        s.updCore core fun k => { k with qs := k.qs.set! q (k.queue q ++ [c']), tlNext := k.tlNext.set! q c'.num }) s
      (s, os ++ [(q, (c0.num : Int) - base)])) (s, [])

/-- The presented timelines of a unit continue where they stood when it was saved (R48, R191), unless another unit of its logical core
stands on the core and reads them. -/
def rebase (s : State) (sv : SavedUnit) (core : Nat) (os : List (Nat × Int)) (anew : Bool) : State :=
  (List.range 6).foldl (fun s i =>
    let was := mapGet 0 sv.tl i
    let key := tlKey sv.unit.lcore core i
    let (o, f) := mapGet (0, 0) (s.job sv.unit.job).tloff key
    let v := match os.find? fun p => p.1 == i with
      | some (_, o') => (o', max f was)
      | none =>
        if anew then ((was : Int) - ((s.core core).tlDone.toList.getD i 0 : Nat), max f was) else (o, f)
    s.updJob sv.unit.job fun j => { j with tloff := mapSet (0, 0) j.tloff key v }) s

/-- The scalar part of a resumed context (R48, R50, R468). -/
def resumedCtx (s : State) (sv : SavedUnit) (core n : Nat) (x : Ctx) (disc : BitVec 4) : Ctx :=
  let c := 8 * core + n
  { x with
    region := (s.ctx c).region + 1
    wdog := 0
    expired := 0
    disc := disc
    held := 0
    run := match x.run with
      | .stopped => .live
      | r => r
    tlbase := Vector.ofFn fun i : Fin 6 =>
      x.tlbase.get i + w64 (presented s sv.unit.job sv.unit.lcore core i.val) - w64 (mapGet 0 sv.tl i.val)
    ports := x.ports.map fun p => p.map fun k => if keyCore k = sv.core then sliceKey core (keyOff k) else k }

/-- A `cmsg` that has not performed follows the logical core that it names to another core (R493). -/
def redirect (job old new : Nat) (c : Cmd) : Cmd :=
  match c.instr with
  | .cmsg _ => if c.job = job ∧ c.vals.getD 3 0 = w64 old ∧ c.done = 0 then { c with vals := c.vals.set 3 (w64 new) } else c
  | _ => c

/-- Resumes a saved unit on a core with its lane free (R48, R50, R375, R449, R465, R493). -/
def resumeUnit (s : State) (sv : SavedUnit) (core : Nat) : State :=
  let u := sv.unit
  let j := s.job u.job
  let set := if u.triple then 0 else sv.lane
  let moved := core != sv.core
  let disc := (droppedRegions j sv core).foldl (fun d i => d ||| BitVec.twoPow 4 i) 0#4
  let s := { s with saved := (s.saved.filter fun x => x.handle != sv.handle).map fun x =>
    if x.core = core then { x with displaced := true } else x }
  let s := charge (restoreSlice s j sv core) (core / 128) j.fn
  let back := requeue s core sv.handle sv.cmds.zipIdx
  let s := back.1
  let stays := (s.core core).units.toList.any fun o => match o with
    | some o => o.job == u.job && o.lcore == u.lcore
    | none => false
  let s := rebase s sv core back.2 !stays
  let s := s.updJob u.job fun j => { j with cores := mapPut u.lcore core j.cores }
  let s := s.updCore core fun k => { k with
    units := k.units.set! sv.lane (some u)
    tok := k.tok.set! set sv.tok
    ftab := sv.ftab.foldl (fun m p => mapPut p.1 p.2 m) k.ftab
    mx := sv.mx.getD k.mx }
  let old := (s.core sv.core).arrivals.filter fun a => a.job == u.job
  let s := if moved then
      (s.updCore sv.core fun k => { k with arrivals := k.arrivals.filter fun a => !(a.job == u.job) }).updCore core fun k =>
        { k with arrivals := old ++ k.arrivals }
    else s
  let s := if moved then
      { s with cores := s.cores.map fun (i, k) => (i, { k with sends := k.sends.map fun m =>
        if m.job = u.job ∧ m.core = sv.core then { m with core := core } else m, qs := k.qs.map fun l => l.map fun c => redirect u.job sv.core core c }) }
    else s
  let s := sv.ctxs.foldl (fun s (n, x) =>
    let c := 8 * core + n
    renameBank (renameHolder (s.setCtx c (resumedCtx s sv core n x disc)) (savedName sv.handle n) c) (savedName sv.handle n) c) s
  let s := sv.levels.foldl (fun s (n, l) =>
    s.updDie (core / 128) fun d => { d with waiters := d.waiters ++ [(8 * core + n, l)] }) s
  if u.atTend then nextRecord s core sv.lane u else s

/-- The device-format words of a context image (R176): free values. -/
def opaqueWords (s : State) : Nat → State × List W64
  | 0 => (s, [])
  | n + 1 =>
    let (t, l) := opaqueWords { s with free := s.free + 1 } n
    (t, Config.freeWord s.free :: l)

/-- The image of a saved context (R176), with the device-format words given. -/
def imageOf (sv : SavedUnit) (x : Ctx) (op : List W64) : List W64 :=
  (x.x.set 0 0).toList ++ [~~~ x.empty, epcWord x.pc (resumePoint x).1 (resumePoint x).2, x.tlevel.setWidth 64] ++
    [x.tvec, x.bank1.cause, x.bank1.epc, x.bank1.eval, x.bank2.cause, x.bank2.epc, x.bank2.eval, x.lc0, x.lc1, x.wake] ++
    [x.vflags, x.mflags] ++ ((List.range 6).map fun i => w64 (mapGet 0 sv.tl i) - x.tlbase.toList.getD i 0) ++ op ++
    [w64 sv.handle] ++ List.replicate 7 0

/-- A context with the words of an image that software may edit (R175, R176). Fields marked reserved keep zero. Where the image names
another place than the saved one, the context runs from there. (DEDUCED, log 111.) -/
def editCtx (x : Ctx) (w : List W64) : Ctx :=
  let g (i : Nat) : W64 := w.getD i 0
  let same := g 65 == epcWord x.pc (resumePoint x).1 (resumePoint x).2
  let y : Ctx := if same then x else { x with
    iss := none
    back := none
    stepGo := false
    waits := Vector.replicate 3 .none
    transfers := Vector.replicate 3 none
    run := if x.over_ then x.run else .live }
  { y with
    x := Vector.ofFn fun i : Fin 64 => if i.val = 0 then 0 else g i.val
    empty := ~~~ (g 64) &&& 0xFFFFFFFFFFFFFFFE
    pc := BitVec.ofNat 57 (bits (g 65) 56 4 * 16)
    slot := bit (g 65) 0
    rep := BitVec.ofNat 6 (bits (g 65) 63 58)
    tlevel := BitVec.ofNat 2 (bits (g 66) 1 0)
    tvec := g 67 &&& 0x01FFFFFFFFFFFFF0
    bank1 := ⟨g 68 &&& 0x3FF, g 69 &&& 0xFDFFFFFFFFFFFFF1, g 70⟩
    bank2 := ⟨g 71 &&& 0x3FF, g 72 &&& 0xFDFFFFFFFFFFFFF1, g 73⟩
    lc0 := g 74
    lc1 := g 75
    wake := g 76
    vflags := g 77 &&& 0x1FF
    mflags := g 78 &&& 0xF }

end Sys2Proof.Machine
end

