-- ==== Sys2Proof/Machine/Profile.lean ====
section
/-! DEFINITION. Approximation profiles (R383, R384). -/

namespace Sys2Proof.Machine

/-- Word 0 of entry n of a launch's profile table. -/
def profWord (j : Job) (n : Nat) : W64 := j.profs.getD (2 * n) 0

/-- An entry is valid when its reserved fields are zero and haze is at most 20 (R383). -/
def profOk (j : Job) (n : Nat) : Bool :=
  let w := profWord j n
  bits w 63 18 == 0 && bits w 15 13 == 0 && bits w 7 2 == 0 && decide (bits w 12 8 ≤ 20) && j.profs.getD (2 * n + 1) 0 == 0

/-- Digit planes skipped. -/
def profPdrop (j : Job) (n : Nat) : Nat := bits (profWord j n) 1 0
/-- The haze cut. -/
def profHaze (j : Job) (n : Nat) : Nat := bits (profWord j n) 12 8
/-- Replay timing. -/
def profReplay (j : Job) (n : Nat) : Bool := bit (profWord j n) 16
/-- The rail asked for: low where set. -/
def profLow (j : Job) (n : Nat) : Bool := bit (profWord j n) 17

end Sys2Proof.Machine
end

