-- ==== Sys2Proof/Machine/Launch.lean ====
section
/-! DEFINITION. The launch unit and the dealers: acceptance of job cards (R39 to R42, R58, R170, R335, R336, R383, R413, R419),
priority keys (R332), dealing (R43 to R45), rendezvous at `step` (R51 to R54, R337) and the end of a launch (R55 to R57, R420,
R485). -/

namespace Sys2Proof.Machine

/-- Reserved fields, ranges and alignments of a card (R39, R41). -/
def cardOk (w : List W64) : Bool :=
  let g (i : Nat) : W64 := w.getD i 0
  let maxd := bits (g 0) 28 26
  let mind := bits (g 0) 25 23
  let nlive := bits (g 12) 22 20
  bits (g 0) 63 56 == 0 && bits (g 0) 39 38 == 0 && bits (g 0) 30 29 == 0 && !bit (g 0) 20 && bits (g 0) 15 0 == 1 &&
    decide (bits (g 0) 19 16 ≤ 11) && decide (bits (g 0) 47 40 ≤ 48) &&
    decide (1 ≤ mind ∧ mind ≤ maxd ∧ maxd ≤ 4) &&
    bits (g 1) 63 57 == 0 && bits (g 1) 3 0 == 0 && bits (g 2) 63 57 == 0 && bits (g 2) 5 0 == 0 &&
    bits (g 3) 47 32 == 0 && bits (g 3) 63 48 != 0 && bits (g 4) 63 48 == 0 && bits (g 4) 47 0 != 0 &&
    (!bit (g 0) 22 || (decide (8 ≤ bits (g 0) 19 16) && decide ((g 5).toNat ≤ (g 6).toNat))) &&
    bits (g 7) 63 57 == 0 && bits (g 7) 5 0 == 0 && bits (g 8) 63 57 == 0 && bits (g 8) 5 0 == 0 &&
    bits (g 10) 63 57 == 0 && bits (g 10) 2 0 == 0 && bits (g 12) 63 23 == 0 && decide (nlive ≤ 4) &&
    ((List.range 4).all fun i =>
      let r := g (13 + i)
      bits r 63 48 == 0 && !bit r 23 &&
        (decide (nlive ≤ i) || (bits r 47 24 != 0 && decide (bits r 22 0 + bits r 47 24 ≤ 2 ^ 23)))) &&
    bits (g 17) 63 13 == 0 && ((List.range 6).all fun i => g (18 + i) == 0)

/-- Placement entry p of a table of words (R40). -/
def plcWord (t : List W64) (p i : Nat) : W64 := t.getD (8 * p + i) 0

/-- The placement entries in use (R40, R41). -/
def placeOk (w t : List W64) : Bool :=
  (List.range (bits (w.getD 0 0) 37 36 + 1)).all fun p =>
    plcWord t p 6 == 0 && plcWord t p 7 == 0 && bits (plcWord t p 5) 63 57 == 0 && bits (plcWord t p 5) 3 0 == 0 &&
      ((List.range (bits (w.getD 0 0) 28 26)).all fun i => bits (plcWord t p 0) (16 * i + 15) (16 * i) != 0)

/-- The heat that a launch gives a cluster of a die (R336). -/
def jobHeat (j : Job) (d c : Nat) : Nat :=
  if j.dies.contains d && j.fin == 0 && !j.cancelled then
    bits (j.heat.getD ((j.dies.filter fun x => decide (x < d)).length) 0) (4 * c + 3) (4 * c)
  else 0

/-- The current heat of a cluster (R336). -/
def heatNow (s : State) (d c : Nat) : Nat := min 15 ((s.jobs.map fun p => jobHeat p.2 d c).sum)

/-- The heat of a die: the sum over its clusters. -/
def dieHeat (s : State) (d : Nat) : Nat := ((List.range 16).map (heatNow s d)).sum

/-- The compute dies that are available, coolest first (R335). -/
def rankedDies (s : State) : List Nat :=
  let ds := (List.range 4).filter fun d => !(s.die d).lost
  let key (d : Nat) : Nat := dieHeat s d * 4 + d
  ds.mergeSort fun a b => decide (key a ≤ key b)

/-- The dies of a launch, ascending (R335): none where too few are available. A stream node runs on its stream's die. -/
def chooseDies (s : State) (w : List W64) (die : Option Nat) : Option (List Nat) :=
  match die with
  | some d => some [d]
  | none =>
    let l := (rankedDies s).take (bits (w.getD 0 0) 28 26)
    if l.length < bits (w.getD 0 0) 25 23 then none else some ((List.range 4).filter fun d => l.contains d)

/-- The cost of a placement (R336). -/
def placeCost (s : State) (t : List W64) (p : Nat) (dies : List Nat) : Nat :=
  (dies.zipIdx.map fun (d, i) =>
    ((List.range 16).map fun c => min (bits (plcWord t p (1 + i)) (4 * c + 3) (4 * c)) (heatNow s d c)).sum).sum

/-- The placement of least cost, the lowest index among equals. -/
def choosePlace (s : State) (t : List W64) (n : Nat) (dies : List Nat) : Nat :=
  (List.range n).foldl (fun best p => if placeCost s t p dies < placeCost s t best dies then p else best) 0

/-- The cores of the marked clusters of a launch, in ascending physical order (R40, R50). -/
def coresOf (masks : List Nat) (dies : List Nat) : List Nat :=
  dies.zipIdx.flatMap fun (d, i) =>
    (List.range 16).flatMap fun c =>
      if (masks.getD i 0).testBit c then (List.range 8).map fun k => 128 * d + 8 * c + k else []

/-- A card put to the launch unit. -/
structure Submit where
  fn : Nat
  card : List W64
  parent : Nat := 0
  priv : Bool := false
  /-- the parent's level, where it bounds the child's (R58) -/
  cap : Option Nat := none
  stream : Option Nat := none
  graph : Option (Nat × Nat) := none
  queue : Option Nat := none
  /-- the level with which a stream's instance was released (R323) -/
  level : Nat := 0
  die : Option Nat := none

/-- The launch unit's decision on a card. -/
inductive Decision where
  | rejected
  | unreadable
  | accepted (s : State) (job : Nat)

/-- A job id that no job holds (R42). -/
def freshJob (s : State) : Nat :=
  if s.nextJob < 2 ^ 32 then s.nextJob
  else ((rangeFrom 1 (s.jobs.length + 1)).find? fun i => !(s.jobs.any fun p => p.1 == i)).getD 0

/-- The class of a launch (R84): that of its stream, or batch. (DESIGN CHOICE, log 41.) -/
def classOf (s : State) (w : List W64) : Nat :=
  if bit (w.getD 0 0) 22 then
    let st := s.stream (bits (w.getD 17 0) 12 0)
    if st.status = 0 then 2 else bits (st.desc.getD 0 0) 63 62
  else 2

/-- Decides a card (R41, R42, R206, R335, R336): its own fields, then the structures that acceptance reads, then what stands in
them. Accepting it assigns a job id and writes end := 0 to the supervisor record (R419). -/
def decide_ (s : State) (q : Submit) : Decision :=
  let w := q.card
  let g (i : Nat) : W64 := w.getD i 0
  if !cardOk w then .rejected
  else
    let plctab := bits (g 8) 56 0
    match devReadWs s q.fn (bits (g 7) 56 0) (8 * bits (g 0) 47 40), devReadWs s q.fn plctab (8 * (bits (g 0) 37 36 + 1)),
      devReadWs s q.fn (plctab + 0x100) 32, devReadWs s q.fn (plctab + 0x200) 8 with
    | some lay, some plc, some prof, some tmpl =>
      if !placeOk w plc then .rejected
      else
        match chooseDies s w q.die with
        | none => .rejected
        | some dies =>
          let p := choosePlace s plc (bits (g 0) 37 36 + 1) dies
          let masks := (List.range dies.length).map fun i => bits (plcWord plc p 0) (16 * i + 15) (16 * i)
          let id := freshJob s
          let prio := bits (g 0) 19 16
          let pentry := plcWord plc p 5
          let n := bits (g 3) 31 0 + 1
          let j : Job := {
            card := w
            parent := q.parent
            fn := q.fn
            priv := q.priv
            prio := match q.cap with
              | some c => min c prio
              | none => prio
            cls := classOf s w
            seq := s.jobSeq
            stream := q.stream
            graph := q.graph
            queue := q.queue
            entry := if pentry = 0 then BitVec.ofNat 57 (bits (g 1) 56 0) else BitVec.ofNat 57 (bits pentry 56 0)
            masks
            heat := (List.range dies.length).map fun i => plcWord plc p (1 + i)
            plc := (List.range 8).map (plcWord plc p)
            dies
            next := 0
            rem := n
            lays := (List.range (bits (g 0) 47 40)).map fun i => Layout.ofWords (lay.drop (8 * i))
            tmpl := Layout.ofWords tmpl
            profs := prof
            cores := ((coresOf masks dies).zipIdx).map fun (c, i) => (i, c)
            level := q.level }
          let s := { s with nextJob := max s.nextJob (id + 1), jobSeq := s.jobSeq + 1 }.setJob id j
          .accepted (devStore s q.fn (plctab + 0x240) 8 0) id
    | _, _, _, _ => .unreadable

/-- A card's words with the device's own fields (R39). -/
def cardIds (id parent : Nat) : W64 := w64 (parent % 2 ^ 32 * 2 ^ 32 + id % 2 ^ 32)

/-- A launch with work for a unit: a record left to deal. -/
def Job.ready (j : Job) : Bool := j.fin == 0 && j.dealing

/-- The absolute deadline by which a band orders its jobs (R332): none for one that is not stream work. -/
def Job.deadline (j : Job) : Option Nat := if j.strm then some (j.w 6).toNat else none

/-- Whether job a precedes job b at one level (R332): the band's deadlines and stream numbers, then acceptance order. -/
def tieLt (a b : Job) : Bool :=
  if 8 ≤ a.prio then
    match a.deadline, b.deadline with
    | some x, some y =>
      if x = y then
        let m := bits (a.w 17) 12 0
        let n := bits (b.w 17) 12 0
        if m = n then decide (a.seq < b.seq) else decide (m < n)
      else decide (x < y)
    | some _, none => true
    | none, some _ => false
    | none, none => decide (a.seq < b.seq)
  else decide (a.seq < b.seq)

/-- Whether job a has the higher key (R332, R333): at P1 to P7 jobs of one level are served in turn, so that none is higher. -/
def keyGt (a b : Job) : Bool :=
  decide (b.prio < a.prio) || (a.prio == b.prio && decide (8 ≤ a.prio ∨ a.prio = 0) && tieLt a b)

/-- Whether the dealer of a die serves job a before job b (R332); at P1 to P7 the jobs before place `last` have had their turn. -/
def servesBefore (last : Nat) (a b : Job) : Bool :=
  if a.prio ≠ b.prio then decide (b.prio < a.prio)
  else if 8 ≤ a.prio ∨ a.prio = 0 then tieLt a b
  else
    let late (j : Job) : Bool := decide (j.seq < last)
    if late a != late b then late b else decide (a.seq < b.seq)

/-- Whether a launch's placement covers a core (R40). -/
def Job.covers (j : Job) (core : Nat) : Bool :=
  match j.dies.zipIdx.find? fun p => p.1 == core / 128 with
  | some (_, i) => (j.masks.getD i 0).testBit (core / 8 % 16)
  | none => false

/-- Where a unit saved for a migration goes (R492, R493): none for another, and while no core can take it. (DESIGN CHOICE, log 88.) -/
def moveTarget (s : State) (v : SavedUnit) : Option Nat :=
  if v.migrating ∧ ¬ v.suspended then migTarget s v.core v.lane v.unit.triple else none

/-- The saved units of a job that a core's lane can take (R50, R332). -/
def resumable (s : State) (job core lane : Nat) : Option SavedUnit :=
  s.saved.find? fun v => !v.suspended && v.unit.job == job && v.core / 128 == core / 128 && v.lane == lane &&
    laneFree s core lane v.unit.triple && (moveTarget s v).isNone

/-- Whether a job can give work to a lane of a core. -/
def canServe (s : State) (id : Nat) (j : Job) (core lane : Nat) : Bool :=
  j.fin == 0 && !j.cancelled && j.covers core &&
    (if j.triple then lane == 0 else true) && laneFree s core lane j.triple &&
    (j.ready || (resumable s id core lane).isSome)

/-- The job from which a die's dealer serves a free unit (R332). -/
def chooseJob (s : State) (core lane : Nat) : Option Nat :=
  let last (l : Nat) : Nat := mapGet 0 (s.die (core / 128)).turns l
  (s.jobs.foldl (fun (best : Option (Nat × Job)) (p : Nat × Job) =>
    if canServe s p.1 p.2 core lane then
      match best with
      | none => some p
      | some b => if servesBefore (last p.2.prio) p.2 b.2 then some p else some b
    else best) none).map (·.1)

/-- The part of a unit's state that a launch's start sets and a task's does not (R45, R267, R505). -/
def freshUnit (s : State) (core lane : Nat) (triple : Bool) : State :=
  let set := if triple then 0 else lane
  s.updCore core fun k => { k with
    tok := k.tok.set! set (Vector.replicate 8 0)
    ftab := k.ftab.filter fun p => p.1 / 8 != set
    mx := if triple || lane == 1 then {} else k.mx }

/-- The dealer gives a free lane the first chunk of a job (R43 to R45, R332). (DEDUCED, log 100.) Where a core's logical id has moved away
with a unit (R50), a unit newly dealt there takes the first id that names the core, else 0. (DESIGN CHOICE, log 125.) -/
def dealUnit (s : State) (core lane id : Nat) : State :=
  let j := s.job id
  let u : UnitSt := { job := id, triple := j.triple, lcore := ((j.cores.find? fun p => p.2 == core).map (·.1)).getD 0 }
  let s1 := setUnit s core lane (some u)
  match takeChunk s1 (core / 128) id with
  | none => s
  | some (f, n, s2) =>
    if n = 0 then s
    else
      let s2 := freshUnit s2 core lane j.triple
      let s2 := { s2 with saved := s2.saved.map fun (x : SavedUnit) => if x.core = core then { x with displaced := true } else x }
      let s2 := s2.updJob id fun j => { j with started := true }
      startTask s2 core lane { u with next := f + 1, left := n - 1 } f false

/-- UNIT_DISPATCH (R28, R43 to R45, R332): within the chosen job a pre-empted unit resumes first. -/
def execUnitDispatch (core : Nat) (lane : Nat) (s : State) : Host.Outcome State Fault Refusal :=
  runEvent (modify fun s =>
    match chooseJob s core lane with
    | none => s
    | some id =>
      match resumable s id core lane with
      | some sv => resumeUnit s sv core
      | none => dealUnit s core lane id) s

/-- RECORD_DEPOSIT (R44): the chunk's next record goes into the buffer that the running task does not use. -/
def execRecordDeposit (core : Nat) (lane : Nat) (s : State) : Host.Outcome State Fault Refusal :=
  runEvent (modify fun s =>
    match (s.core core).units.toList.getD lane none with
    | some u =>
      if u.left ≠ 0 ∧ u.tasks ≠ 0 ∧ u.deposited.isNone ∧ ¬ u.closing then
        setUnit (depositRecord s core lane u.job u.next (u.tasks % 2)) core lane (some { u with deposited := some u.next })
      else s
    | none => s) s

/-- UNIT_RESUMPTION (R48, R50, R492): a pre-empted unit resumes on a core of its die with its lane free; a migrating one on its target. -/
def execUnitResumption (handle : Nat) (core : Nat) (lane : Nat) (s : State) : Host.Outcome State Fault Refusal :=
  runEvent (modify fun s =>
    match s.saved.find? fun v => v.handle == handle with
    | some v =>
      if v.lane == lane && moveTarget s v == some core then resumeUnit s v core
      else if !v.suspended && v.lane == lane && v.core / 128 == core / 128 && (moveTarget s v).isNone && (s.job v.unit.job).covers core &&
          laneFree s core lane v.unit.triple && chooseJob s core lane == some v.unit.job
      then resumeUnit s v core else s
    | none => s) s

/-- The units of a launch as (core, lane, unit). -/
def unitsOf (s : State) (job : Nat) : List (Nat × Nat × UnitSt) :=
  s.cores.flatMap fun (i, k) => (k.units.toList.zipIdx).filterMap fun (u, lane) =>
    match u with
    | some u => if u.job = job then some (i, lane, u) else none
    | none => none

/-- The contexts of a launch that hold a unit. -/
def ctxsOf (s : State) (job : Nat) : List Nat := (unitsOf s job).flatMap fun (core, lane, u) => unitCtxs core lane u

/-- Every live context of a launch stands at `step`, in its lane or saved there, and the commands enqueued before have completed
(R52, R154). (DEDUCED, log 105.) -/
def stepReady (s : State) (job : Nat) : Bool :=
  let cs := (ctxsOf s job).filter fun c => !(s.ctx c).over_
  let vs := s.saved.filter fun v => v.unit.job == job
  (cs != [] || vs != []) && (cs.all fun c => (s.ctx c).run == .atStep && ownCmds s c == []) &&
    (vs.all fun v => v.cmds == [] && v.ctxs.all fun p => p.2.run == .atStep || p.2.over_)

/-- Runs of consecutive records, in ascending order, as few as there are gaps (R54). -/
def joinRuns (l : List (Nat × Nat)) : List (Nat × Nat) :=
  l.foldr (fun r acc => match acc with
    | (f, n) :: t => if r.1 + r.2 = f then (r.1, r.2 + n) :: t else r :: acc
    | [] => [r]) []

/-- The records of a unit's chunk that no task has started return to the launch (R54). -/
def returnRecords (s : State) (job : Nat) (u : UnitSt) : State :=
  if u.left = 0 then s
  else s.updJob job fun j => { j with
    returned := joinRuns ((j.returned ++ [(u.next, u.left)]).mergeSort fun a b => decide (a.1 ≤ b.1)) }

/-- Withdraws a die from a launch at a step (R52, R54): its contexts, saved ones too, leave their groups and count as halted, and the
records of their chunks that no task has started return. -/
def withdrawDie (s : State) (job d : Nat) : State :=
  let us := (unitsOf s job).filter fun u => u.1 / 128 == d
  let s := us.foldl (fun s (core, lane, u) =>
    let s := (unitCtxs core lane u).foldl (fun s c => (retireCtx s c).updCtx c fun x => { x with run := .halted, iss := none }) s
    returnRecords (setUnit s core lane none) job u) s
  let gone (v : SavedUnit) : Bool := v.unit.job == job && v.core / 128 == d
  let s := (s.saved.filter gone).foldl (fun s v => returnRecords (leaveSaved s v) job v.unit) s
  let s := { s with saved := s.saved.filter fun v => !gone v }
  let idx := ((s.job job).dies.filter fun x => decide (x < d)).length
  s.updJob job fun j => { j with
    dies := j.dies.filter (· != d)
    heat := j.heat.eraseIdx idx
    masks := j.masks.eraseIdx idx
    cores := j.cores.filter fun p => p.2 / 128 != d }

/-- A unit of an added die starts at the entry (R52): x2 is all ones. -/
def joinUnit (s : State) (job core lane : Nat) : State :=
  let j := s.job job
  let l := ((j.cores.find? fun p => p.2 == core).map (·.1)).getD 0
  let u : UnitSt := { job, triple := j.triple, lcore := l, began := s.time }
  let s := setUnit (freshUnit s core lane j.triple) core lane (some u)
  (unitCtxs core lane u).foldl (fun s c =>
    let x := freshCtx s c job l
    s.setCtx c { x with
      x := (x.x.set 2 (BitVec.allOnes 64)).set 3 (w64 job)
      pc := j.entry + BitVec.ofNat 57 (if j.triple then 16 * (c % 8) else 0)
      region := x.region + 1 }) s

/-- Adds a die to a launch at a step (R52, R337): its index takes the next cmask and heat word, its cores the next logical ids. (DESIGN CHOICE, log 39.) -/
def addDie (s : State) (job d : Nat) : State :=
  let j := s.job job
  let i := (j.dies.filter fun x => decide (x < d)).length
  let mask := bits (j.plc.getD 0 0) (16 * i + 15) (16 * i)
  let new := coresOf [mask] [d]
  let base := j.cores.foldl (fun m p => max m (p.1 + 1)) 0
  let s := s.updJob job fun j => { j with
    dies := j.dies.take i ++ [d] ++ j.dies.drop i
    masks := j.masks.take i ++ [mask] ++ j.masks.drop i
    heat := j.heat.take i ++ [j.plc.getD (1 + i) 0] ++ j.heat.drop i
    cores := j.cores ++ (new.zipIdx.map fun (c, n) => (base + n, c)) }
  new.foldl (fun s core =>
    (if j.triple then [0] else [0, 1, 2]).foldl (fun s lane => if laneFree s core lane j.triple then joinUnit s job core lane else s) s) s

/-- A job waits for units on a die (R333, R337): it has records to deal, or pre-empted units to resume there. -/
def waitsOn (s : State) (id : Nat) (j : Job) (d : Nat) : Bool :=
  j.fin == 0 && !j.cancelled && j.dies.contains d &&
    (j.ready || s.saved.any fun v => !v.suspended && v.unit.job == id && v.core / 128 == d)

/-- A job of higher key waits for units on a die (R337), with a free unit there or without. -/
def higherWaits (s : State) (j : Job) (d : Nat) : Bool := s.jobs.any fun p => waitsOn s p.1 p.2 d && keyGt p.2 j

/-- Whether a free unit of a job's kind stands on a die. -/
def freeOn (s : State) (j : Job) (d : Nat) : Bool :=
  (List.range 128).any fun c => (if j.triple then [0] else [0, 1, 2]).any fun l => j.covers (128 * d + c) && laneFree s (128 * d + c) l j.triple

/-- STEP_RELEASE (R51 to R54, R154, R337): the set of dies may change by one, then every surviving context continues. -/
def execStepRelease (job : Nat) (s : State) : Host.Outcome State Fault Refusal :=
  runEvent (modify fun s =>
    if !stepReady s job then s
    else
      let j := s.job job
      let mind := bits (j.w 0) 25 23
      let maxd := bits (j.w 0) 28 26
      let s := (ctxsOf s job).foldl (fun s c =>
        if (s.ctx c).run = .atStep then s.updCtx c fun x => { x with run := .live, stepGo := true } else s) s
      let s := { s with saved := s.saved.map fun v =>
        if v.unit.job = job then
          { v with ctxs := v.ctxs.map fun (n, x) => (n, if x.run = .atStep then { x with run := .live, stepGo := true } else x) }
        else v }
      let s := (j.dies.filter fun d => (s.die d).lost).foldl (fun s d => withdrawDie s job d) s
      let j := s.job job
      let worst := j.dies.foldl max 0
      if mind < j.dies.length ∧ (s.jobs.any fun p => waitsOn s p.1 p.2 worst && keyGt p.2 j && !freeOn s p.2 worst) then
        withdrawDie s job worst
      else
        match (rankedDies s).find? fun d => !j.dies.contains d && !higherWaits s j d with
        | some d => if j.dies.length < maxd then addDie s job d else s
        | none => s) s

/-- Stores of a launch that have retired and are still on their way (R79, R205): the completion signal releases them (R57). -/
def landing (s : State) (id : Nat) : Bool :=
  (s.cores.any fun p => p.2.sends.any fun m => m.job == id) || s.bank.any fun b => !b.here && b.job == id

/-- Every core's halt line for a launch is high, and nothing of it is left to run or to land (R56, R57). -/
def launchDone (s : State) (id : Nat) (j : Job) : Bool :=
  j.fin == 0 && !landing s id && (j.cancelled || j.left == 0) && unitsOf s id == [] && !(s.saved.any fun v => v.unit.job == id) &&
    !(s.cores.any fun p => p.2.arrivals.any fun a => a.job == id) &&
    !(s.ctxs.any fun p => isHandler p.1 && p.2.job == id && p.2.run != .off)

/-- Drops the transactions that a cancelled job or its lineage opened (R485). -/
def dropTxs (s : State) (id : Nat) : State :=
  (s.dies.flatMap fun (d, x) => x.seqs.map fun (n, _) => (d, n)).foldl (fun s (d, n) =>
    let q := s.seq d n
    match q.tx with
    | some (_, _, j) => if inLineage s id j then (looseSlots s q).setSeq d n { q with tx := none } else s
    | none => s) s

/-- The core bindings of a job that has ended are cleared, and the messages that still wait leave their slots (R392). -/
def clearBindings (s : State) (id : Nat) : State :=
  { s with flows := s.flows.map fun (i, f) =>
      let gone := f.waiting.filter fun w => w.2.job == id
      (i, { f with
        unbound := f.unbound || (f.bind == 2 && f.job == id)
        waiting := f.waiting.filter fun w => w.2.job != id
        slots := f.slots.filter fun n => !(gone.any fun w => w.2.ring == some (i, n)) }) }

/-- LAUNCH_COMPLETION (R56, R57, R420, R485): the end field is written, then csig. -/
def execLaunchCompletion (job : Nat) (s : State) : Host.Outcome State Fault Refusal :=
  runEvent (modify fun s =>
    let j := s.job job
    if job = 0 ∨ ¬ launchDone s job j then s
    else
      let e := if j.cancelled then 2 else 1
      let s := if j.cancelled then dropTxs s job else s
      let s := devStore s j.fn (bits (j.w 8) 56 0 + 0x240) 8 (j.nkill * 2 ^ 32 + e)
      let s := if j.csig = 0 then s else devStore s j.fn j.csig 8 (j.w 11).toNat
      clearBindings (s.updJob job fun j => { j with fin := e }) job) s

end Sys2Proof.Machine
end

