-- ==== Sys2Proof/Machine/Graphs.lean ====
section
/-! DEFINITION. Command graphs (R329 to R331, R470): replays, instances, their patches, nodes and ends. -/

namespace Sys2Proof.Machine

/-- Fields of a graph image (R329). -/
def Graph.nnode (g : Graph) : Nat := bits (g.image.getD 0 0) 5 0 + 1
/-- Patch entries. -/
def Graph.npat (g : Graph) : Nat := bits (g.image.getD 0 0) 13 8
/-- The completion signal word. -/
def Graph.gsig (g : Graph) : Nat := bits (g.image.getD 1 0) 56 0
/-- The card of node i. -/
def Graph.card (g : Graph) (i : Nat) : Nat := bits (g.image.getD (2 + 2 * i) 0) 56 0
/-- The dependences of node i. -/
def Graph.dep (g : Graph) (i : Nat) : W64 := g.image.getD (3 + 2 * i) 0
/-- Patch entry p. -/
def Graph.pat (g : Graph) (p : Nat) : W64 := g.image.getD (130 + p) 0

/-- Where a patch entry writes (R329): in the card, or in an entry of the card's layout table; none where the card cannot be
read. -/
def patchAddr (s : State) (g : Graph) (p : W64) : Option Nat :=
  let card := g.card (bits p 43 38)
  if bit p 50 then
    (devReadWs s g.fn (card + 0x38) 1).map fun w => bits (w.getD 0 0) 56 0 + 64 * bits p 49 44 + bits p 7 0
  else some (card + bits p 7 0)

/-- Patches the cards of the nodes that satisfy a test, from a graph's snapshot, in ascending order (R330). -/
def patchAll (s : State) (g : Graph) (ok : Nat → Bool) : State :=
  ((List.range g.npat).filter fun i => ok (bits (g.pat i) 43 38)).foldl (fun s i =>
    let p := g.pat i
    let n := 2 ^ bits p 52 51
    match patchAddr s g p with
    | some a => devStore s g.fn a n ((g.snap.toList.getD (bits p 56 53) 0).toNat % 256 ^ n)
    | none => s) s

/-- Stamps the card of a stream's node (R330): strm, prio, release, deadline and stream. -/
def stampCard (s : State) (g : Graph) (n i : Nat) : State :=
  let st := s.stream n
  let (r, d, _) := st.live.getD (0, 0, 0)
  let a := g.card i
  match devReadWs s g.fn a 1, devReadWs s g.fn (a + 0x88) 1 with
  | some w0, some w17 =>
    let v := setBits (setBits (w0.getD 0 0) 22 22 1) 19 16 (bits (st.desc.getD 0 0) 57 56 + 8)
    let s := devStore s g.fn a 8 v.toNat
    let s := devStore s g.fn (a + 0x28) 8 r
    let s := devStore s g.fn (a + 0x30) 8 d
    devStore s g.fn (a + 0x88) 8 (setBits (w17.getD 0 0) 12 0 n).toNat
  | _, _ => s

/-- Patches, and for a stream stamps, the cards of the nodes that satisfy a test (R330). -/
def patchCards (s : State) (g : Graph) (ok : Nat → Bool) : State :=
  let s := patchAll s g ok
  match g.stream with
  | none => s
  | some n => ((List.range g.nnode).filter ok).foldl (fun s i => stampCard s g n i) s

/-- Starts an instance (R330, R478): the snapshot, then the patches. -/
def startInstance (s : State) (id : Nat) (origin : Option Nat) (parent : Nat) (stream : Option Nat) : State :=
  let g := s.graph id
  let mirrored := match stream with
    | some n => bit ((s.stream n).desc.getD 0 0) 55
    | none => false
  let snap := if mirrored then g.gp.set 13 (BitVec.allOnes 64) else g.gp
  let image := if g.next = [] then g.image else g.next
  let g := { g with live := true, origin, parent, stream, nodes := [], snap, image, next := [] }
  patchCards (s.setGraph id g) g fun _ => true

/-- A replay of a graph (R331, R367): 0 started, 1 pending, 2 busy, 3 not defined. -/
def replayGraph (s : State) (id : Nat) (origin : Option Nat) (parent : Nat) : State × Nat :=
  let g := s.graph id
  if !g.defined then (s, 3)
  else if !g.live then (startInstance s id origin parent none, 0)
  else if g.pending.isNone then (s.setGraph id { g with pending := some (origin, parent) }, 1)
  else (s, 2)

/-- Writes a stream's word 0x60 back (R322). -/
def writeBack (s : State) (n : Nat) : State :=
  let st := s.stream n
  devStore s st.fn (st.dva + 0x60) 8 (st.misses % 2 ^ 32 * 2 ^ 32 + st.level)

/-- Frees slots of receive rings (R392). -/
def freeSlots (s : State) (l : List (Nat × Nat)) : State := l.foldl (fun s p => freeSlot s p.1 p.2) s

/-- A stream leaves the table (R324): its messages leave their slots. -/
def dropStream (s : State) (n : Nat) : State :=
  let st := s.stream n
  (freeSlots s (st.slots ++ st.skipped ++ st.msgs.map fun m => (m.1, m.2.1))).setStream n {}

/-- The state of a stream whose instance has ended (R324, R392). -/
def endStream (s : State) (n : Nat) : State :=
  let st := s.stream n
  if st.status = 4 then dropStream s n
  else
    (freeSlots s st.slots).setStream n { st with
      live := none
      late := false
      exempt := false
      slots := []
      tile := BitVec.allOnes 64
      status := if bits (st.desc.getD 0 0) 63 62 = 1 ∧ st.level = 3 then 3 else 1 }

/-- Ends the live instance of a graph; the pending replay starts (R330, R331). A graph deleted meanwhile is gone. -/
def endInstance (s : State) (id : Nat) : State :=
  let g := s.graph id
  let s := s.setGraph id (if g.defined then
    { g with live := false, origin := none, parent := 0, stream := none, nodes := [], pending := none } else {})
  let s := match g.stream with
    | some n => endStream s n
    | none => s
  match if g.defined then g.pending else none with
  | some (o, p) => startInstance s id o p none
  | none => s

/-- Cancels a graph's live instance (R330, R484): its accepted nodes by lineage. -/
def cancelInstance (s : State) (id : Nat) : State :=
  let s := (s.graph id).nodes.foldl (fun s p => cancelJob s p.2) s
  endInstance s id

/-- A node has completed (R330). -/
def nodeDone (s : State) (g : Graph) (i : Nat) : Bool :=
  match g.nodes.find? fun p => p.1 == i with
  | some (_, j) => (s.job j).fin == 1
  | none => false

/-- A node can be submitted: every node that it depends on has completed. -/
def nodeReady (s : State) (g : Graph) (i : Nat) : Bool :=
  g.live && decide (i < g.nnode) && !(g.nodes.any fun p => p.1 == i) &&
    (List.range g.nnode).all fun k => !bit (g.dep i) k || nodeDone s g k

/-- The lineage of an instance has been cancelled, so that its nodes are rejected (R470). -/
def lineageCut (s : State) (g : Graph) : Bool := g.parent != 0 && (s.job g.parent).cancelled

/-- GRAPH_NODE_SUBMIT (R330, R470): the card is decided; a rejection cancels the instance's accepted nodes and ends it. -/
def execGraphNodeSubmit (graph : Nat) (node : Nat) (s : State) : Host.Outcome State Fault Refusal :=
  runEvent (modify fun s =>
    let g := s.graph graph
    if !nodeReady s g node then s
    else if lineageCut s g then cancelInstance s graph
    else
      match devReadWs s g.fn (g.card node) 24 with
      | none => cancelInstance s graph
      | some w =>
        let lvl := match g.stream with
          | some n => ((s.stream n).live.getD (0, 0, 0)).2.2
          | none => 0
        match decide_ s { fn := g.fn, card := w, parent := g.parent, stream := g.stream, graph := some (graph, node),
                          queue := g.origin, level := lvl, die := g.stream.map fun n => (s.stream n).die } with
        | .accepted s j =>
          let s := devStore s g.fn (g.card node + 0x48) 8 (cardIds j g.parent).toNat
          s.setGraph graph { s.graph graph with nodes := (s.graph graph).nodes ++ [(node, j)] }
        | _ => cancelInstance s graph) s

/-- GRAPH_INSTANCE_COMPLETE (R330): every node has completed, and the count of instances is written to gsig. An instance with a
cancelled node ends, once its submitted nodes have, without that write. (DEDUCED, log 40.) -/
def execGraphInstanceComplete (graph : Nat) (s : State) : Host.Outcome State Fault Refusal :=
  runEvent (modify fun s =>
    let g := s.graph graph
    if !g.live then s
    else if (List.range g.nnode).all fun i => nodeDone s g i then
      let s := s.setGraph graph { g with count := (g.count + 1) % 2 ^ 64 }
      let s := if g.gsig = 0 then s else devStore s g.fn g.gsig 8 (g.count + 1)
      endInstance s graph
    else if (g.nodes.any fun p => (s.job p.2).fin == 2) && (g.nodes.all fun p => (s.job p.2).fin != 0) then endInstance s graph
    else s) s

end Sys2Proof.Machine
end

