-- ==== Sys2Proof/Machine/JobOps.lean ====
section
/-! DEFINITION. The instructions that the launch unit answers: `card`, `jcancel`, `jpoll` and the graph parameters (R206 to R208,
R367, R470, R471). -/

namespace Sys2Proof.Machine

/-- An answer by which the launch unit has taken the issuer's earlier accesses over (R206, R303, R367): an accepted card, or a replay that
starts or pends. -/
def answerSyncs (r : LaunchReq) (v : W64) : Bool :=
  match r with
  | .card _ => !bit v 63
  | .grepl _ => decide (v.toNat ≤ 1)
  | _ => false

/-- Puts a request to the launch unit, or takes its answer (R206, R367): a value, CANCELLED with the issuing job id, or
LAYOUT_RIGHTS with the graph named. -/
def askLaunch (r : LaunchReq) (rights : W64) (d : Reg) : M Unit := do
  let c ← getMe
  match c.wait with
  | .answered (.value v) => do
    if answerSyncs r v then markSync
    writeReg d v
  | .answered .cancelled => trapM cCancelled (w64 c.job)
  | .answered .rights => trapM cRights rights
  | .launch _ => waitM
  | _ => holdWith fun s => s.setMe (s.me.setWait (.launch r))

/-- `card` (R206). -/
def execCard (d : Reg) (a : Src) (s : State) : Host.Outcome State Fault Refusal :=
  runSyl (.card d a) (do
    let v ← readSrc a
    let o := bits v 22 0
    check (o % 64 == 0) cMisaligned (w64 o)
    let core ← myCore
    paddockM (sliceKey core o) 192 (w64 o)
    quiesceM (sliceKey core o)
    askLaunch (.card o) 0 d) s

/-- A job named by an instruction (R207, R208). -/
def jobArg (a : Src) : M Nat := do
  let v ← readSrc a
  limit (decide (v.toNat < 2 ^ 32))
  return v.toNat

/-- A strict descendant of a job that the launch unit knows. -/
def isChild (s : State) (me j : Nat) : Bool := j != 0 && j != me && (s.jobs.any fun p => p.1 == j) && inLineage s me j

/-- `jcancel` (R59, R207, R420). (DEDUCED, log 38.) -/
def execJcancel (d : Reg) (a : Src) (s : State) : Host.Outcome State Fault Refusal :=
  runSyl (.jcancel d a) (do
    let j ← jobArg a
    let s ← get
    let me := s.me.job
    if !isChild s me j then writeReg d 1
    else if (s.job j).cancelled || (s.job j).fin != 0 then writeReg d 2
    else do
      modify fun s => cancelJob s j
      writeReg d 0) s

/-- `jpoll` (R208). -/
def execJpoll (d : Reg) (a : Src) (s : State) : Host.Outcome State Fault Refusal :=
  runSyl (.jpoll d a) (do
    let j ← jobArg a
    let s ← get
    let me := s.me.job
    if j = 0 then writeReg d (if (s.job me).cancelled then 2 else 0)
    else if !isChild s me j then writeReg d 3
    else if (s.job j).fin = 1 then do
      markSync
      writeReg d 1
    else writeReg d (if (s.job j).cancelled then 2 else 0)) s

/-- A graph named by an instruction (R367). -/
def graphArg (a : Src) : M (Nat × W64) := do
  let v ← readSrc a
  limit (decide (v.toNat < 4096))
  return (v.toNat, v)

/-- `gpget` of a graph register (R367). -/
def execGpgetGp (d : Reg) (a : Src) (gp : BitVec 4) (s : State) : Host.Outcome State Fault Refusal :=
  runSyl (.gpgetGp d a gp) (do
    let (g, v) ← graphArg a
    askLaunch (.gpget g gp.toNat) v d) s

/-- `gpget` of a register of the context (R354, R367). -/
def execGpgetCm (d : Reg) (k : BitVec 2) (s : State) : Host.Outcome State Fault Refusal :=
  runSyl (.gpgetCm d k) (do
    let c ← getMe
    writeReg d (c.cm.get k.toFin)) s

/-- `gpset` (R367). -/
def execGpset (d : Reg) (a : Src) (b : Src) (gp : BitVec 4) (s : State) : Host.Outcome State Fault Refusal :=
  runSyl (.gpset d a b gp) (do
    let (g, v) ← graphArg a
    let x ← readSrc b
    askLaunch (.gpset g gp.toNat x) v d) s

/-- `grepl` (R331, R367). -/
def execGrepl (d : Reg) (a : Src) (s : State) : Host.Outcome State Fault Refusal :=
  runSyl (.grepl d a) (do
    let (g, v) ← graphArg a
    askLaunch (.grepl g) v d) s

/-- The card at a local offset of a core (R206). -/
def localCard (s : State) (core off : Nat) : List W64 := (List.range 24).map fun i => readW s (sliceKey core (off + 8 * i))

/-- The launch unit's decision on a request of a context (R206, R331, R367, R470). -/
def answerOf (s : State) (ctx : Nat) (r : LaunchReq) : State × Answer :=
  let x := s.ctx ctx
  let j := s.job x.job
  let foreign (g : Nat) : Bool := (s.graph g).defined && (s.graph g).fn != j.fn
  match r with
  | .card off =>
    if j.cancelled then (s, .cancelled)
    else
      match decide_ s { fn := j.fn, card := localCard s (coreOf ctx) off, parent := x.job, cap := some j.prio } with
      | .rejected => (s, .value 0x8000000000000001)
      | .unreadable => (s, .value 0x8000000000000002)
      | .accepted s id => (writeNat s (sliceKey (coreOf ctx) (off + 0x48)) 8 (cardIds id x.job).toNat, .value (w64 id))
  | .gpget g i => if foreign g then (s, .rights) else (s, .value (if (s.graph g).defined then (s.graph g).gp.toList.getD i 0 else 0))
  | .gpset g i v =>
    if foreign g then (s, .rights)
    else if !(s.graph g).defined then (s, .value 3)
    else (s.setGraph g { s.graph g with gp := (s.graph g).gp.set! i v }, .value 0)
  | .grepl g =>
    if j.cancelled then (s, .cancelled)
    else if foreign g then (s, .rights)
    else
      let (s, v) := replayGraph s g none x.job
      (s, .value (w64 v))

/-- LAUNCH_UNIT_ANSWER (R206, R470): a waiting request is decided at its place in the decision order. -/
def execLaunchUnitAnswer (ctx : Nat) (s : State) : Host.Outcome State Fault Refusal :=
  runEvent (modify fun s =>
    match (s.ctx ctx).waits.toList.find? fun w => match w with
      | .launch _ => true
      | _ => false with
    | some (.launch r) =>
      let (s, a) := answerOf s ctx r
      s.updCtx ctx fun x => { x with waits := x.waits.map fun w => if w = .launch r then .answered a else w }
    | _ => s) s

end Sys2Proof.Machine
end

