-- ==== Sys2Proof/Machine/Streams.lean ====
section
/-! DEFINITION. The stream table (R319 to R328): admission, levels and shedding, releases, and late instances (R473, R474). -/

namespace Sys2Proof.Machine

/-- Fields of a stream descriptor (R322), as sixteen words. -/
def sdClass (d : List W64) : Nat := bits (d.getD 0 0) 63 62
/-- Level at admission. -/
def sdDeg (d : List W64) : Nat := bits (d.getD 0 0) 61 60
/-- Band: priority level minus 8. -/
def sdBand (d : List W64) : Nat := bits (d.getD 0 0) 57 56
/-- Mirrored on the partner die. -/
def sdMirror (d : List W64) : Bool := bit (d.getD 0 0) 55
/-- Released by arrivals. -/
def sdTrig (d : List W64) : Bool := bit (d.getD 0 0) 54
/-- On the low rail. -/
def sdLow (d : List W64) : Bool := bit (d.getD 0 0) 53
/-- Die. -/
def sdDie (d : List W64) : Nat := bits (d.getD 0 0) 49 48
/-- Session. -/
def sdSession (d : List W64) : Nat := bits (d.getD 0 0) 47 32
/-- Stream number. -/
def sdNum (d : List W64) : Nat := bits (d.getD 0 0) 12 0
/-- Epoch. -/
def sdEpoch (d : List W64) : Nat := (d.getD 1 0).toNat
/-- Period. -/
def sdT (d : List W64) : Nat := bits (d.getD 2 0) 39 0
/-- Release offset. -/
def sdOffset (d : List W64) : Nat := bits (d.getD 3 0) 39 0
/-- Relative deadline. -/
def sdD (d : List W64) : Nat := bits (d.getD 4 0) 39 0
/-- Declared unit-cycles. -/
def sdC (d : List W64) : Nat := bits (d.getD 5 0) 47 0
/-- Paddock register of the stream's cores. -/
def sdPdk (d : List W64) : Nat := bits (d.getD 6 0) 13 12
/-- Graph. -/
def sdGraph (d : List W64) : Nat := bits (d.getD 6 0) 11 0
/-- Slots reserved on a stack. -/
def sdSlots (d : List W64) (i : Nat) : Nat := bits (d.getD 7 0) (8 * i + 7) (8 * i)
/-- Ingress flow. -/
def sdInflow (d : List W64) : Nat := bits (d.getD 8 0) 15 0
/-- Egress flow. -/
def sdOutflow (d : List W64) : Nat := bits (d.getD 8 0) 31 16
/-- Level table entry. -/
def sdLevel (d : List W64) (l : Nat) : Nat := bits (d.getD 9 0) (16 * l + 15) (16 * l)
/-- Period multiplier of a level (R327). -/
def sdMult (d : List W64) (l : Nat) : Nat := 2 ^ (sdLevel d (min l 2) / 2 ^ 12 % 4)
/-- Main clock of the stream's rail in MHz (R326). -/
def sdFreq (d : List W64) : Nat := if sdLow d then 1100 else 1800

/-- The descriptor that the next release takes (R324). -/
def Stream.eff (st : Stream) : List W64 := if st.newDesc = [] then st.desc else st.newDesc

/-- The period at the current level (R320). -/
def Stream.period (st : Stream) : Nat := sdT st.eff * sdMult st.eff st.level

/-- Reserved fields of a descriptor (R322, R327); the fields of entry 3 are ignored. -/
def sdClean (d : List W64) : Bool :=
  let g (i : Nat) : W64 := d.getD i 0
  bits (g 0) 59 58 == 0 && bits (g 0) 52 50 == 0 && bits (g 0) 31 13 == 0 && bits (g 2) 63 40 == 0 && bits (g 3) 63 40 == 0 &&
    bits (g 4) 63 40 == 0 && bits (g 5) 63 48 == 0 && bits (g 6) 63 14 == 0 && bits (g 8) 63 32 == 0 &&
    ((List.range 3).all fun l => decide (sdLevel d l < 2 ^ 14)) && g 10 == 0 && g 11 == 0 && bits (g 12) 31 2 == 0 &&
    g 13 == 0 && g 14 == 0 && g 15 == 0

/-- The low rail's clock at a setting, in MHz (R368). -/
def lowClock (n : Nat) : Nat :=
  match n with
  | 0 => 900
  | 1 => 1000
  | _ => 1100

/-- A stream has a unit on a cluster. -/
def streamOn (s : State) (n cl : Nat) : Bool :=
  (List.range 8).any fun i => (s.core (8 * cl + i)).units.toList.any fun u =>
    match u with
    | some u => (s.job u.job).strm && bits ((s.job u.job).w 17) 12 0 == n
    | none => false

/-- f of a stream (R326); where `thr`, a stream with a unit on a throttled cluster counts the low rail's clock of its setting (R494). -/
def freqOf (s : State) (thr : Bool) (n : Nat) (st : Stream) : Nat :=
  if thr && (List.range 16).any fun c => (s.cluster (16 * st.die + c)).throttle != 0 && streamOn s n (16 * st.die + c) then
    lowClock (s.die st.die).low.setting
  else sdFreq st.eff

/-- The utilisation of a stream as a fraction (R326): unit-cycles over cycles. -/
def loadOf (s : State) (thr : Bool) (n : Nat) (st : Stream) : Nat × Nat :=
  if st.level = 3 ∨ st.status = 3 then (0, 1) else (1000 * sdC st.eff, st.period * freqOf s thr n st)

/-- The sum of fractions. -/
def sumFrac (l : List (Nat × Nat)) : Nat × Nat := l.foldl (fun a b => (a.1 * b.2 + b.1 * a.2, a.2 * b.2)) (0, 1)

/-- The loads on a die, with their bands. -/
def loadsOn (s : State) (thr : Bool) (die : Nat) : List (Nat × Nat × Nat) :=
  s.streams.filterMap fun (n, st) => if st.status ≠ 0 ∧ st.die = die then some (sdBand st.desc, loadOf s thr n st) else none

/-- The bands whose cumulative test fails on a die (R326). -/
def failing (s : State) (die : Nat) (l : List (Nat × Nat × Nat)) : List Nat :=
  (List.range 4).filter fun b =>
    let (p, q) := sumFrac ((l.filter fun x => decide (b ≤ x.1)).map (·.2))
    decide (mapGet 0 (s.die die).bounds b * q < 16 * p)

/-- Sets the level of a stream (R322, R324). -/
def setLevel (s : State) (n l : Nat) : State :=
  writeBack (s.updStream n fun st => { st with
    level := l
    status := if l = 3 ∧ sdClass st.desc = 1 ∧ st.status = 1 then 3 else st.status }) n

/-- Whether stream a has less slack D − C / f than stream b, or as much and a lower session (R328). -/
def slackLt (s : State) (thr : Bool) (a b : Nat × Stream) : Bool :=
  let num (x : Nat × Stream) : Int := (sdD x.2.eff * freqOf s thr x.1 x.2 : Nat) - (1000 * sdC x.2.eff : Nat)
  let p := num a * freqOf s thr b.1 b.2
  let q := num b * freqOf s thr a.1 a.2
  decide (p < q) || (p == q && decide (sdSession a.2.desc < sdSession b.2.desc))

/-- The slow streams of a die in bands lo to hi that stand below level 3. -/
def slowOn (s : State) (die lo hi : Nat) : List (Nat × Stream) :=
  s.streams.filter fun (_, st) => st.status != 0 && sdClass st.desc == 1 && st.die == die && decide (lo ≤ sdBand st.desc) &&
    decide (sdBand st.desc ≤ hi) && decide (st.level < 3)

/-- Steps 1 to 3 of R328: the slow stream of least slack rises by one level; none where no session remains. -/
def raiseOne (s : State) (thr : Bool) (die lo hi : Nat) : Option State :=
  match slowOn s die lo hi with
  | [] => none
  | a :: t =>
    let b := t.foldl (fun b x => if slackLt s thr x b then x else b) a
    some (setLevel s b.1 (b.2.level + 1))

/-- Sheds load on a die while a test fails (R328). -/
def shed (s : State) (thr : Bool) (die : Nat) : Nat → State
  | 0 => s
  | n + 1 =>
    match failing s die (loadsOn s thr die) with
    | [] => s
    | b :: _ =>
      match raiseOne s thr die b 3 with
      | none => s
      | some s => shed s thr die n

/-- Every slow stream can rise by three levels at most. -/
def shedDie (s : State) (thr : Bool) (die : Nat) : State := shed s thr die (3 * s.streams.length + 1)

/-- The paddock register of a core that a stream uses is enabled with its class and partition (R83, R325). -/
def paddockFits (s : State) (core fn : Nat) (d : List W64) : Bool :=
  let v := (s.core core).paddock.toList.getD (sdPdk d) 0
  bit v 63 && bits v 59 58 == sdClass d && bits v 53 48 == fn

/-- A card with the words that an instance stamps (R330). -/
def stampedCard (w : List W64) (d : List W64) : List W64 :=
  (((w.set 0 (setBits (setBits (w.getD 0 0) 22 22 1) 19 16 (sdBand d + 8))).set 5 0).set 6 (w64 (sdD d))).set 17
    (setBits (w.getD 17 0) 12 0 (sdNum d))

/-- A node's card passes R41 once stamped, with one die, and every core of every placement has the stream's paddock (R325). (DEDUCED, log 78.) -/
def nodeFits (s : State) (fn : Nat) (d : List W64) (dies : List Nat) (card : Nat) : Bool :=
  match devReadWs s fn card 24 with
  | none => false
  | some w0 =>
    let w := stampedCard w0 d
    let g (i : Nat) : W64 := w.getD i 0
    let plctab := bits (g 8) 56 0
    match devReadWs s fn (bits (g 7) 56 0) (8 * bits (g 0) 47 40), devReadWs s fn plctab (8 * (bits (g 0) 37 36 + 1)),
      devReadWs s fn (plctab + 0x100) 40 with
    | some _, some plc, some _ =>
      cardOk w && bits (g 0) 25 23 == 1 && bits (g 0) 28 26 == 1 && placeOk w plc &&
        ((List.range (bits (g 0) 37 36 + 1)).all fun p => dies.all fun die =>
          (coresOf [bits (plcWord plc p 0) 15 0] [die]).all fun c => paddockFits s c fn d)
    | _, _, _ => false

/-- The clusters that the placements of a node's card name (R40, R369), as a mask. -/
def nodeClusters (s : State) (fn card : Nat) : Nat :=
  match devReadWs s fn card 24 with
  | none => 0
  | some w =>
    let n := bits (w.getD 0 0) 37 36 + 1
    match devReadWs s fn (bits (w.getD 8 0) 56 0) (8 * n) with
    | some plc => (List.range n).foldl (fun m p => m ||| bits (plcWord plc p 0) 15 0) 0
    | none => 0

/-- The graph that the next instance of an id would run. -/
def Graph.eff (g : Graph) : Graph := if g.next = [] then g else { g with image := g.next }

/-- The clusters of a stream's graph (R369). -/
def graphClusters (s : State) (fn : Nat) (d : List W64) : Nat :=
  let g := (s.graph (sdGraph d)).eff
  (List.range g.nnode).foldl (fun m i => m ||| nodeClusters s fn (g.card i)) 0

/-- The graph of a stream and its nodes (R325). -/
def graphFits (s : State) (fn : Nat) (d : List W64) (dies : List Nat) : Bool :=
  let g := (s.graph (sdGraph d)).eff
  g.defined && g.fn == fn && (List.range g.nnode).all fun i => nodeFits s fn d dies (g.card i)

/-- The slots reserved on each stack total at most 224 (R325), and on the partner's stacks once a mirrored stream's own are added. -/
def slotsFit (s : State) (d : List W64) (partner : Option Nat) : Bool :=
  let tot (i : Nat) : Nat := (s.streams.map fun (n, st) => if st.status ≠ 0 ∧ n ≠ sdNum d then sdSlots st.eff i else 0).sum + sdSlots d i
  ((List.range 8).all fun i => decide (tot i ≤ 224)) &&
    (match partner with
      | none => true
      | some p => (List.range 2).all fun k => decide (tot (2 * p + k) + sdSlots d (2 * sdDie d + k) ≤ 224))

/-- The class, session and level rules (R319). -/
def sessionFits (s : State) (d : List W64) : Bool :=
  if sdClass d < 2 then
    decide (sdSession d < 4096) && !(s.streams.any fun (n, st) =>
      st.status != 0 && n != sdNum d && sdClass st.desc == sdClass d && sdSession st.desc == sdSession d) &&
      (sdClass d == 1 || decide (sdDeg d ≤ 2))
  else sdSession d == 0xFFFF && decide (sdDeg d ≤ if sdClass d = 2 then 2 else 0)

/-- The tests of R325 and R445 on a descriptor whose entry would stand as `st`. -/
def admitFits (s : State) (fn : Nat) (d : List W64) (st : Stream) : Bool :=
  let partner := if sdMirror d && !st.moved then some (st.die ^^^ 1) else none
  let dies := st.die :: partner.toList
  let load (die : Nat) : Bool :=
    let others := { s with streams := s.streams.filter fun p => p.1 != sdNum d }
    (failing s die ((sdBand d, loadOf s false (sdNum d) { st with die }) :: loadsOn others false die)).all fun b => b != sdBand d
  sessionFits s d && decide (sdOffset d < sdT d) && decide (1 ≤ sdD d ∧ sdD d ≤ sdT d) && decide (1000 ≤ sdT d) && sdC d != 0 &&
    ((List.range 3).all fun l => sdLevel d l / 2 ^ 12 % 4 != 3) && (!sdTrig d || sdInflow d != 0xFFFF) &&
    (dies.all fun x => !(s.die x).lost) && (!sdMirror d || bits ((partEntry s fn).getD 7 0) 56 0 != 0) &&
    graphFits s fn d dies && slotsFit s d partner && dies.all load

/-- The fields that a modify may not change (R324). -/
def sdFixed (d : List W64) : List Nat :=
  [sdClass d, sdBand d, if sdMirror d then 1 else 0, if sdTrig d then 1 else 0, sdDie d, sdSession d, sdGraph d]

/-- The first release time at or after now of a timer whose releases start at b with period p (R320). -/
def firstRelease (now b p : Nat) : Nat := if now ≤ b then b else b + ceilDiv (now - b) p * p

/-- The latest release as a modify leaves it, so that the next is on the new times and not before now (R320, R324). (DEDUCED, log 76.) -/
def rebaseStream (s : State) (st : Stream) (d : List W64) : Stream :=
  let p := sdT d * sdMult d (sdDeg d)
  if sdTrig d then st
  else if st.inst = 0 then { st with release := firstRelease s.time (sdEpoch d + sdOffset d) p }
  else
    let r := st.release + sdOffset d - sdOffset st.eff
    { st with release := if r + p < s.time then firstRelease s.time r p - p else r }

/-- Admits or modifies a stream (R324, R325): the state and the packet's status. (DEDUCED, log 77.) -/
def admitStream (s : State) (fn va : Nat) (modify : Bool) : State × Nat :=
  match devReadWs s fn va 16 with
  | none => (s, 6)
  | some d =>
    let n := sdNum d
    let old := s.stream n
    if !sdClean d then (s, 4)
    else if modify && old.status != 0 && old.fn == fn && sdFixed old.desc != sdFixed d then (s, 4)
    else if (if modify then old.status == 0 || old.fn != fn else old.status != 0) then (s, 3)
    else
      let st : Stream :=
        if modify then
          { rebaseStream s old d with
            newDesc := d
            dva := va
            level := sdDeg d
            status := if old.status = 3 ∧ sdDeg d < 3 then 1 else if old.status = 1 ∧ sdDeg d = 3 then 3 else old.status }
        else
          { status := if sdDeg d = 3 then 3 else 1
            fn
            desc := d
            dva := va
            level := sdDeg d
            die := sdDie d
            release := firstRelease s.time (sdEpoch d + sdOffset d) (sdT d * sdMult d (sdDeg d)) }
      if !admitFits s fn d st then (s, 3)
      else
        let s := s.setStream n { st with clusters := graphClusters s fn d }
        let s := if modify then (if old.level = st.level then s else writeBack s n) else { s with chunkNo := mapSet 0 s.chunkNo n 0 }
        (shedDie s false st.die, 1)

/-- Retires a stream (R324). -/
def retireStream (s : State) (fn n : Nat) : State :=
  let st := s.stream n
  if st.fn ≠ fn then s
  else
    match st.status with
    | 1 | 3 => dropStream s n
    | 2 => s.setStream n { st with status := 4 }
    | _ => s

/-- Sets the bounds of a die (R326): none where they are malformed. -/
def setBounds (s : State) (die : Nat) (v : W64) : Option State :=
  let b (k : Nat) : Nat := bits v (16 * k + 15) (16 * k)
  if ((List.range 4).all fun k => decide (b k ≤ 384 * 16)) && ((List.range 3).all fun k => decide (b (k + 1) ≤ b k)) then
    some (shedDie (s.updDie die fun x => { x with bounds := (List.range 4).map fun k => (k, b k) }) false die)
  else none

/-- A release (R320, R321, R323, R324, R330): one that finds an instance live, or the graph unable to start, is skipped. The message
that makes it is given by its flow, its slot, its length and its address. (DEDUCED, log 75.) -/
def releaseStream (s : State) (n r : Nat) (msg : Option (Nat × Nat × Nat × Nat)) : State :=
  let st := { s.stream n with release := r, inst := (s.stream n).inst + 1 }
  let mine : List (Nat × Nat) := match msg with
    | some (f, sl, _, _) => [(f, sl)]
    | none => []
  let d := st.eff
  let g := s.graph (sdGraph d)
  if st.status ≠ 1 ∧ st.status ≠ 2 then freeSlots (s.setStream n st) mine
  else if st.status = 2 ∨ ¬ g.defined ∨ g.live then
    writeBack (s.setStream n { st with misses := (st.misses + 1) % 2 ^ 32, skipped := st.skipped ++ mine }) n
  else
    let s := s.setStream n { st with
      status := 2
      desc := d
      newDesc := []
      live := some (r, r + sdD d, st.level)
      late := false
      exempt := false
      slots := st.skipped ++ mine
      skipped := []
      tile := BitVec.allOnes 64 }
    let s := match msg with
      | some (_, _, len, va) => s.setGraph (sdGraph d) { g with gp := (g.gp.set 14 (w64 len)).set 15 (w64 va) }
      | none => s
    startInstance (writeBack s n) (sdGraph d) none 0 (some n)

/-- The time of the next timer release (R320). -/
def Stream.due (st : Stream) : Nat := if st.inst = 0 then st.release else st.release + st.period

/-- The time at which the oldest waiting message releases an instance (R320). -/
def Stream.arrivalDue (st : Stream) : Option Nat :=
  match st.msgs with
  | (_, _, _, _, a) :: _ => some (if st.inst = 0 then a else max a (st.release + st.period))
  | [] => none

/-- The oldest waiting message makes its release once its time has come. -/
def arrivalRelease (s : State) (n : Nat) : State :=
  let st := s.stream n
  match st.msgs, st.arrivalDue with
  | (f, sl, len, va, _) :: t, some due =>
    if due ≤ s.time then releaseStream (s.setStream n { st with msgs := t }) n due (some (f, sl, len, va)) else s
  | _, _ => s

/-- A timer stream's release time has come, and how many release times it has passed beside (R320, R397). -/
def timerDue (s : State) (n : Nat) : Option (Nat × Nat) :=
  let st := s.stream n
  if (st.status = 1 ∨ st.status = 2) ∧ ¬ sdTrig st.eff ∧ st.due ≤ s.time ∧ st.period ≠ 0 then
    let k := (s.time - st.due) / st.period
    some (st.due + k * st.period, k)
  else none

/-- STREAM_TIMER_RELEASE (R320, R321, R397): of several release times passed, the latest is made. The release that a message makes
after the least gap is made here too. -/
def execStreamTimerRelease (stream : Nat) (s : State) : Host.Outcome State Fault Refusal :=
  runEvent (modify fun s =>
    match timerDue s stream with
    | some (r, k) =>
      let s := s.updStream stream fun st => { st with misses := (st.misses + k) % 2 ^ 32 }
      releaseStream s stream r none
    | none => arrivalRelease s stream) s

/-- When the live instance of a stream becomes late (R473, R480). -/
def Stream.lateAt (st : Stream) : Option Nat :=
  match st.live with
  | some (r, d, _) => if st.late then none else some (if st.exempt then r + sdT st.desc else d)
  | none => none

/-- DEADLINE_MISS (R473, R474): raised for each role context that holds a unit of the instance's jobs, and one level is shed. (DEDUCED, log 45.) -/
def execDeadlineMiss (stream : Nat) (s : State) : Host.Outcome State Fault Refusal :=
  runEvent (modify fun s =>
    let st := s.stream stream
    match st.lateAt with
    | none => s
    | some t =>
      if s.time < t then s
      else
        let s := s.setStream stream { st with late := true }
        let g := s.graph (sdGraph st.desc)
        let cs := if g.stream = some stream then g.nodes.flatMap fun p => ctxsOf s p.2 else []
        let s := cs.foldl (fun s c => s.updCtx c fun x => { x with miss := some (w64 stream) }) s
        let s := (raiseOne s false st.die 0 (sdBand st.desc)).getD s
        shedDie s false st.die) s

end Sys2Proof.Machine
end

