-- ==== Sys2Proof/Machine/HostQ.lean ====
section
/-! DEFINITION. Host queues and their packets (R314 to R318, R388, R398, R484), and the definition of graphs (R329). -/

namespace Sys2Proof.Machine

/-- The device reads n bytes at a virtual address of a function; none where a page does not translate. -/
def devReadBytes (s : State) (fn va : Nat) : Nat → Option (List Byte)
  | 0 => some []
  | n + 1 =>
    match xlateDev s fn va true false, devReadBytes s fn (va + 1) n with
    | some k, some t => some (readByte s k :: t)
    | _, _ => none

/-- The device writes bytes at a virtual address of a function; none where a page does not translate. (DESIGN CHOICE, log 83.) -/
def devWriteBytes (s : State) (fn va : Nat) : List Byte → Option State
  | [] => some s
  | b :: t =>
    match xlateDev s fn va false true with
    | some k => devWriteBytes (writeByte s k b) fn (va + 1) t
    | none => none

/-- The key of a queue; queue 16 of function 0 is the management queue (R398). -/
def queueKey (fn q : Nat) : Nat := 32 * fn + q

/-- A queue with a packet that can be parsed (R315, R316, R388). -/
def HostQ.ready (q : HostQ) : Bool := q.live && !q.stop && q.fence.isNone && q.head != q.tail

/-- The queue that the launch unit serves next (R315): in turn over all queues of all functions. -/
def nextQueue (s : State) : Option Nat :=
  let r := (s.queues.filter fun p => p.2.ready).map (·.1)
  match r.find? fun k => decide (s.served ≤ k) with
  | some k => some k
  | none => r.head?

/-- The address of the unit at a queue's head (R314). -/
def HostQ.unitVa (q : HostQ) : Nat := q.ring + 64 * (q.head % 2 ^ q.lgsz)

/-- The stop word of a control block (R314). -/
def stopWord (err errpos : Nat) : Nat := 2 ^ 63 + err % 256 * 2 ^ 32 + errpos % 2 ^ 32

/-- A queue stops (R316): its control block says so, and vector q is signalled; a stop of the management queue goes over the
sideband (R398). -/
def stopQueue (s : State) (fn q err errpos : Nat) : State :=
  let h := s.queue (queueKey fn q)
  let s := s.setQueue (queueKey fn q) { h with stop := true }
  let s := devStore s fn (h.qcb + 0x20) 8 (stopWord err errpos)
  if q < 16 then signal s fn q else { s with sideband := s.sideband ++ [(err, errpos)] }

/-- A packet of len + 1 units finishes (R316): its status byte, then head. (DEDUCED, log 82.) -/
def finishPacket (s : State) (fn q len st : Nat) : State :=
  let h := s.queue (queueKey fn q)
  let (s, st) := match xlateDev s fn (h.unitVa + 3) false true with
    | some k => (writeNat s k 1 st, st)
    | none => (s, 6)
  let head := (h.head + len + 1) % 2 ^ 32
  let s := s.setQueue (queueKey fn q) { h with head, fence := none }
  let s := devStore s fn (h.qcb + 0x10) 8 head
  if 4 ≤ st then stopQueue s fn q st h.head else s

/-- A doorbell (R388, R452): the launch unit reads the tail, and whether the host has cleared the stop. -/
def ringBell (s : State) (fn q : Nat) : State :=
  let h := s.queue (queueKey fn q)
  if !h.live then s
  else
    match devReadWs s fn (h.qcb + 0x18) 2 with
    | none => stopQueue s fn q 6 h.head
    | some w => s.setQueue (queueKey fn q) { h with tail := bits (w.getD 0 0) 31 0, stop := bit (w.getD 1 0) 63 }

/-- DOORBELL (R388). -/
def execDoorbell (fn : Nat) (q : Nat) (s : State) : Host.Outcome State Fault Refusal :=
  runEvent (modify fun s => ringBell s fn q) s

/-- What the destruction of a queue cancels (R484): the jobs launched from it, and the instances that its replays started or wait to
start. -/
def cancelQueue (s : State) (k : Nat) : State :=
  let js := (s.jobs.filter fun p => p.2.queue == some k && p.2.fin == 0).map (·.1)
  let s := js.foldl cancelJob s
  let s := { s with graphs := s.graphs.map fun (p : Nat × Graph) =>
    (p.1, match p.2.pending with
      | some (o, _) => if o = some k then { p.2 with pending := none } else p.2
      | none => p.2) }
  (s.graphs.filter fun p => p.2.live && p.2.origin == some k).foldl (fun s p => cancelInstance s p.1) s

/-- A live queue is destroyed (R484). -/
def destroyQueue (s : State) (fn q : Nat) : State :=
  let k := queueKey fn q
  let h := s.queue k
  if !h.live then s
  else
    let s := s.setQueue k { h with live := false, fence := none }
    stopQueue (cancelQueue s k) fn q 8 h.head

/-- A queue is made live (R387, R388, R399). A misaligned control block stores the enable as 0, which destroys a queue that is live. -/
def createQueue (s : State) (fn q : Nat) (qcb : W64) : State :=
  let a := bits qcb 56 0
  if s.recovery then s
  else
    let ok := a % 64 == 0
    let s := if q < 16 then setWin s fn (0x100 + 16 * q) (w64 (a + if ok then 2 ^ 63 else 0)) else s
    if !ok then destroyQueue s fn q
    else
      let k := queueKey fn q
      match devReadWs s fn a 5 with
      | none => stopQueue (s.setQueue k { live := true, qcb := a }) fn q 6 0
      | some w =>
        let head := bits (w.getD 2 0) 31 0
        let h : HostQ := {
          live := true
          qcb := a
          ring := bits (w.getD 0 0) 56 0
          lgsz := bits (w.getD 1 0) 4 0
          head
          tail := head
          stop := bit (w.getD 4 0) 63 }
        let s := s.setQueue k h
        if h.ring % 4096 = 0 ∧ 4 ≤ h.lgsz ∧ h.lgsz ≤ 16 then s else stopQueue s fn q 4 head

/-- QUEUE_CREATE (R387, R388): writing qen = 1. -/
def execQueueCreate (fn : Nat) (q : Nat) (qcb : W64) (s : State) : Host.Outcome State Fault Refusal :=
  runEvent (modify fun s => createQueue s fn q qcb) s

/-- QUEUE_DESTROY (R388, R484): writing qen = 0. -/
def execQueueDestroy (fn : Nat) (q : Nat) (s : State) : Host.Outcome State Fault Refusal :=
  runEvent (modify fun s =>
    let s := if q < 16 then setWin s fn (0x100 + 16 * q) (w64 (bits (win s fn (0x100 + 16 * q)) 56 0)) else s
    destroyQueue s fn q) s

/-- Ones in a number's low 16 bits. -/
def ones16 (n : Nat) : Nat := ((List.range 16).filter n.testBit).length

/-- Units of a packet minus 1 (R317). -/
def packetLen (ty : Nat) (w1 : W64) : Nat :=
  match ty with
  | 2 => ceilDiv (16 + 8 * ones16 (bits w1 31 16)) 64 - 1
  | 3 => ceilDiv (16 + 16 * (bits w1 3 0 + 1)) 64 - 1
  | _ => 0

/-- The bits of a packet's body that are not reserved (R317), word by word from offset 0x08. -/
def bodyMask (ty : Nat) (w1 : W64) : List W64 :=
  let va : W64 := 0x01FFFFFFFFFFFFFF
  let full : W64 := BitVec.allOnes 64
  match ty with
  | 1 => [va]
  | 2 => 0xFFFF0FFF :: List.replicate (ones16 (bits w1 31 16)) full
  | 3 => 0xFFFFFFFF0000000F :: (List.range (bits w1 3 0 + 1)).flatMap fun _ => [va, full]
  | 4 => [va, full]
  | 5 => [va, va, 0xFFFFFFFFFF]
  | 6 => [0xFFFFFFFF]
  | 7 => [va, 1]
  | 8 => [0x1FFF]
  | 9 => [3, full]
  | _ => [va, 0xFFF]

/-- A packet that is not malformed (R316, R317), from all its words: the values that its type allows. -/
def packetOk (fn : Nat) (w : List W64) : Bool :=
  let g (i : Nat) : Nat := (w.getD i 0).toNat
  let h := w.getD 0 0
  let ty := bits h 7 0
  bits h 23 17 == 0 && bits h 15 10 == 0 && decide (1 ≤ ty ∧ ty ≤ 10) && bits h 9 8 == packetLen ty (w.getD 1 0) &&
    (!bit h 16 || (ty == 1 && fn == 0)) &&
    (((w.drop 1).zipIdx).all fun (v, i) => v &&& ~~~ (bodyMask ty (w.getD 1 0)).getD i 0 == 0) &&
    (match ty with
      | 1 => g 1 % 64 == 0
      | 3 => decide (bits (w.getD 1 0) 3 0 < 12) && (List.range (bits (w.getD 1 0) 3 0 + 1)).all fun i => g (2 + 2 * i) % 8 == 0
      | 4 => g 1 % 8 == 0
      | 5 => g 3 != 0 && (decide (g 1 + g 3 ≤ g 2) || decide (g 2 + g 3 ≤ g 1))
      | 7 => g 1 % 64 == 0
      | 9 => fn == 0
      | 10 => g 1 % 64 == 0
      | _ => true)

/-- What stands at the head of a queue: words, or a status with the units that the packet takes minus 1. -/
def readPacket (s : State) (fn : Nat) (h : HostQ) : Except (Nat × Nat) (List W64) :=
  match devReadWs s fn h.unitVa 8 with
  | none => .error (6, 0)
  | some u =>
    let len := bits (u.getD 0 0) 9 8
    if 2 ^ h.lgsz < h.head % 2 ^ h.lgsz + len + 1 then .error (4, len)
    else
      match devReadWs s fn h.unitVa (8 * (len + 1)) with
      | none => .error (6, len)
      | some w => if packetOk fn w then .ok w else .error (4, len)

/-- Which event processes the packet at a queue's head: its type; 11 for a modify and 12 for a deletion; 1 where none can be told. (DESIGN CHOICE, log 81.) -/
def packetKind (s : State) (fn : Nat) (h : HostQ) : Nat :=
  match devReadWs s fn h.unitVa 3 with
  | none => 1
  | some u =>
    let ty := bits (u.getD 0 0) 7 0
    if ty = 7 ∧ bit (u.getD 2 0) 0 then 11
    else if ty = 10 ∧ u.getD 1 0 = 0 then 12
    else if 1 ≤ ty ∧ ty ≤ 10 then ty
    else 1

/-- The launch unit processes the packet at the head of a queue (R315, R316): only the queue whose turn it is, and only an event of the
packet's type. The body answers the state and a status; none where the packet waits. -/
def packetM (kind fn q : Nat) (body : State → List W64 → State × Option Nat) (s : State) : State :=
  let k := queueKey fn q
  let h := s.queue k
  if nextQueue s ≠ some k ∨ packetKind s fn h ≠ kind then s
  else
    let t := match readPacket s fn h with
      | .error (st, len) => finishPacket s fn q len st
      | .ok w =>
        match body s w with
        | (s, some st) => finishPacket s fn q (bits (w.getD 0 0) 9 8) st
        | (s, none) => s
    { t with served := k + 1 }

/-- An address field of a packet. -/
def pkVa (w : List W64) (i : Nat) : Nat := bits (w.getD i 0) 56 0

/-- LAUNCH_PACKET (R41, R170, R315, R318, R399). A packet whose type cannot be told is discarded here. -/
def execLaunchPacket (fn : Nat) (q : Nat) (s : State) : Host.Outcome State Fault Refusal :=
  runEvent (modify (packetM 1 fn q fun s w =>
    match devReadWs s fn (pkVa w 1) 24 with
    | none => (s, some 6)
    | some card =>
      if s.recovery then (s, some 2)
      else
        match decide_ s { fn, card, priv := bit (w.getD 0 0) 16, queue := some (queueKey fn q) } with
        | .rejected => (s, some 2)
        | .unreadable => (s, some 6)
        | .accepted s j => (devStore s fn (pkVa w 1 + 0x48) 8 (cardIds j 0).toNat, some 1))) s

/-- Sets the gp registers that a replay packet names, in ascending order (R317, R330). -/
def setGps (g : Graph) (mask : Nat) (vs : List W64) : Graph :=
  let ix := (List.range 16).filter mask.testBit
  { g with gp := (ix.zipIdx).foldl (fun v (i, j) => v.set! i (vs.getD j 0)) g.gp }

/-- REPLAY_PACKET (R330, R331). A graph that is not defined, or that belongs to another function, makes the packet malformed. (DEDUCED, log 80.) -/
def execReplayPacket (fn : Nat) (q : Nat) (s : State) : Host.Outcome State Fault Refusal :=
  runEvent (modify (packetM 2 fn q fun s w =>
    let id := bits (w.getD 1 0) 11 0
    let g := s.graph id
    if !g.defined || g.fn != fn then (s, some 4)
    else if g.live && g.pending.isSome then (s, some 5)
    else
      ((replayGraph (s.setGraph id (setGps g (bits (w.getD 1 0) 31 16) (w.drop 2))) id (some (queueKey fn q)) 0).1, some 1))) s

/-- Whether every counter of a fence has reached its value (R318); none where one cannot be read. -/
def fenceState (s : State) (fn : Nat) : List (Nat × Nat) → Option Bool
  | [] => some true
  | (a, v) :: t =>
    match devReadWs s fn a 1, fenceState s fn t with
    | some w, some r => some (decide (v ≤ (w.getD 0 0).toNat) && r)
    | _, _ => none

/-- FENCE_PACKET (R318). -/
def execFencePacket (fn : Nat) (q : Nat) (s : State) : Host.Outcome State Fault Refusal :=
  runEvent (modify (packetM 3 fn q fun s w =>
    let cs := (List.range (bits (w.getD 1 0) 3 0 + 1)).map fun i => (pkVa w (2 + 2 * i), (w.getD (3 + 2 * i) 0).toNat)
    match fenceState s fn cs with
    | none => (s, some 6)
    | some true => (s, some 1)
    | some false =>
      let k := queueKey fn q
      (s.setQueue k { s.queue k with fence := some (s.time, bits (w.getD 1 0) 63 32, cs) }, none))) s

/-- The fence of a queue finishes. -/
def finishFence (s : State) (fn q : Nat) (cs : List (Nat × Nat)) (st : Nat) : State :=
  finishPacket s fn q (ceilDiv (16 + 16 * cs.length) 64 - 1) st

/-- FENCE_SATISFIED (R309, R318). -/
def execFenceSatisfied (fn : Nat) (q : Nat) (s : State) : Host.Outcome State Fault Refusal :=
  runEvent (modify fun s =>
    match (s.queue (queueKey fn q)).fence with
    | none => s
    | some (_, _, cs) =>
      match fenceState s fn cs with
      | none => finishFence s fn q cs 6
      | some true => finishFence s fn q cs 1
      | some false => s) s

/-- A fence has waited as long as it may (R318). -/
def fenceLate (s : State) (h : HostQ) : Bool :=
  match h.fence with
  | some (t, tmo, _) => tmo != 0 && decide (t + 1000 * tmo ≤ s.time)
  | none => false

/-- FENCE_TIMEOUT (R318): a fence that is still unsatisfied. -/
def execFenceTimeout (fn : Nat) (q : Nat) (s : State) : Host.Outcome State Fault Refusal :=
  runEvent (modify fun s =>
    let h := s.queue (queueKey fn q)
    match h.fence with
    | none => s
    | some (_, _, cs) => if fenceLate s h && fenceState s fn cs == some false then finishFence s fn q cs 7 else s) s

/-- SIGNAL_WRITE_PACKET (R318). -/
def execSignalWritePacket (fn : Nat) (q : Nat) (s : State) : Host.Outcome State Fault Refusal :=
  runEvent (modify (packetM 4 fn q fun s w =>
    match devWriteWs s fn (pkVa w 1) [w.getD 2 0] with
    | some s => (s, some 1)
    | none => (s, some 6))) s

/-- COPY_PACKET (R318). -/
def execCopyPacket (fn : Nat) (q : Nat) (s : State) : Host.Outcome State Fault Refusal :=
  runEvent (modify (packetM 5 fn q fun s w =>
    match devReadBytes s fn (pkVa w 1) (bits (w.getD 3 0) 39 0) with
    | none => (s, some 6)
    | some b =>
      match devWriteBytes s fn (pkVa w 2) b with
      | some s => (s, some 1)
      | none => (s, some 6))) s

/-- CANCEL_PACKET (R59, R318, R420): a job of this function that is neither cancelled nor complete, as `jcancel` tests. (DEDUCED, log 84.) -/
def execCancelPacket (fn : Nat) (q : Nat) (s : State) : Host.Outcome State Fault Refusal :=
  runEvent (modify (packetM 6 fn q fun s w =>
    let j := bits (w.getD 1 0) 31 0
    if j ≠ 0 ∧ (s.jobs.any fun p => p.1 == j) ∧ (s.job j).fn = fn ∧ (s.job j).cancelled = false ∧ (s.job j).fin = 0
    then (cancelJob s j, some 1) else (s, some 1))) s

/-- STREAM_ADMIT_PACKET (R324, R325). -/
def execStreamAdmitPacket (fn : Nat) (q : Nat) (s : State) : Host.Outcome State Fault Refusal :=
  runEvent (modify (packetM 7 fn q fun s w =>
    let (s, st) := admitStream s fn (pkVa w 1) false
    (s, some st))) s

/-- STREAM_MODIFY_PACKET (R324, R325). -/
def execStreamModifyPacket (fn : Nat) (q : Nat) (s : State) : Host.Outcome State Fault Refusal :=
  runEvent (modify (packetM 11 fn q fun s w =>
    let (s, st) := admitStream s fn (pkVa w 1) true
    (s, some st))) s

/-- STREAM_RETIRE_PACKET (R324). -/
def execStreamRetirePacket (fn : Nat) (q : Nat) (s : State) : Host.Outcome State Fault Refusal :=
  runEvent (modify (packetM 8 fn q fun s w => (retireStream s fn (bits (w.getD 1 0) 12 0), some 1))) s

/-- BOUNDS_PACKET (R326, R328). -/
def execBoundsPacket (fn : Nat) (q : Nat) (s : State) : Host.Outcome State Fault Refusal :=
  runEvent (modify (packetM 9 fn q fun s w =>
    match setBounds s (bits (w.getD 1 0) 1 0) (w.getD 2 0) with
    | some s => (s, some 1)
    | none => (s, some 4))) s

/-- A graph image that is not malformed (R329). -/
def imageOk (im : List W64) : Bool :=
  let g : Graph := { image := im }
  let h := im.getD 0 0
  bits h 63 14 == 0 && bits h 7 6 == 0 && bits (im.getD 1 0) 63 57 == 0 && g.gsig % 8 == 0 &&
    ((List.range g.nnode).all fun i => bits (im.getD (2 + 2 * i) 0) 63 57 == 0 && decide ((g.dep i).toNat < 2 ^ i)) &&
    ((List.range g.npat).all fun p =>
      let e := g.pat p
      let n := 2 ^ bits e 52 51
      bits e 63 57 == 0 && bits e 37 8 == 0 && decide (bits e 43 38 < g.nnode) && bits e 7 0 % n == 0 &&
        decide (bits e 7 0 + n ≤ if bit e 50 then 64 else 192) && (bit e 50 || bits e 49 44 == 0))

/-- A graph id that another function holds (R402). -/
def Graph.foreign (g : Graph) (fn : Nat) : Bool := (g.defined || g.live) && g.fn != fn

/-- GRAPH_DEFINE_PACKET (R329). -/
def execGraphDefinePacket (fn : Nat) (q : Nat) (s : State) : Host.Outcome State Fault Refusal :=
  runEvent (modify (packetM 10 fn q fun s w =>
    let id := bits (w.getD 2 0) 11 0
    let g := s.graph id
    if g.foreign fn then (s, some 4)
    else
      match devReadWs s fn (pkVa w 1) 130 with
      | none => (s, some 6)
      | some im =>
        match devReadWs s fn (pkVa w 1 + 0x410) (bits (im.getD 0 0) 13 8) with
        | none => (s, some 6)
        | some ps =>
          let im := im ++ ps
          if !imageOk im then (s, some 4)
          else
            (s.setGraph id (if g.live then { g with defined := true, next := im }
              else { g with defined := true, fn, image := im, next := [] }), some 1))) s

/-- GRAPH_DELETE_PACKET (R317). A live instance runs on to its end. -/
def execGraphDeletePacket (fn : Nat) (q : Nat) (s : State) : Host.Outcome State Fault Refusal :=
  runEvent (modify (packetM 12 fn q fun s w =>
    let id := bits (w.getD 2 0) 11 0
    let g := s.graph id
    if g.foreign fn then (s, some 4)
    else if g.live then (s.setGraph id { g with defined := false }, some 1)
    else (s.setGraph id {}, some 1))) s

end Sys2Proof.Machine
end

