-- ==== Sys2Proof/Machine/DieOps.lean ====
section
/-! DEFINITION. Heartbeats and the loss of a die (R475 to R482). -/

namespace Sys2Proof.Machine

/-- A job that the device gives up in silence: the old job of a node that starts again on the partner (R478). -/
def abandonJob (s : State) (j : Nat) : State :=
  dropTxs (s.updJob j fun x => { x with fin := 2, cancelled := true, rem := 0, returned := [] }) j

/-- Continues the live instance of a moved stream (R478, R480): completed nodes stand; the others are patched again with the marker
of the last mirrored tile, and are submitted again. -/
def continueInstance (s : State) (n : Nat) : State :=
  let st := s.stream n
  let id := sdGraph st.desc
  let g := s.graph id
  if !g.live || g.stream != some n then s
  else
    let old := (g.nodes.filter fun p => (s.job p.2).fin == 0).map (·.2)
    let s := old.foldl abandonJob s
    let g := { g with
      snap := g.snap.set 13 st.tile
      nodes := g.nodes.filter fun p => !old.contains p.2 }
    let s := s.setStream n { st with exempt := true }
    patchCards (s.setGraph id g) g fun i => !nodeDone s g i

/-- What becomes of a stream whose die is lost (R477, R478, R481): it moves once, to a partner that stands, or it is retired with its
instance cancelled. (DEDUCED, log 87.) -/
def streamLost (s : State) (d n : Nat) : State :=
  let st := s.stream n
  if sdMirror st.desc && !st.moved && !(s.die (d ^^^ 1)).lost then
    continueInstance (s.setStream n { st with moved := true, die := d ^^^ 1 }) n
  else
    let id := sdGraph st.desc
    let g := s.graph id
    let s := if g.live && g.stream == some n then cancelInstance (s.setStream n { st with status := 4 }) id else s
    dropStream s n

/-- The slow streams of the sessions whose fast streams have moved rise by one level (R480). -/
def raiseMoved (s : State) (moved : List Nat) : State :=
  let ses := (moved.filter fun n => sdClass (s.stream n).desc == 0).map fun n => sdSession (s.stream n).desc
  (s.streams.filter fun (_, st) => st.status != 0 && sdClass st.desc == 1 && ses.contains (sdSession st.desc) && decide (st.level < 3)).foldl
    (fun s p => setLevel s p.1 ((s.stream p.1).level + 1)) s

/-- The jobs that hold a unit on a die, saved ones included (R477). -/
def jobsOn (s : State) (d : Nat) : List Nat :=
  (s.cores.flatMap fun (i, k) => if i / 128 = d then k.units.toList.filterMap fun u => u.map (·.job) else []) ++
    (s.saved.filter fun v => v.core / 128 == d).map fun v => v.unit.job

/-- What a die held is gone (R475, R477): its units, queues, arrivals, sequences and samplers. Its contexts leave their groups, and
their regions close. -/
def clearDie (s : State) (d : Nat) : State :=
  let s := (s.ctxs.filter fun p => dieOf p.1 == d).foldl (fun s p => leaveAll s p.1) s
  let s := (s.saved.filter fun v => v.core / 128 == d).foldl leaveSaved s
  { s with
    ctxs := s.ctxs.map fun (c, x) => if dieOf c = d then (c, { region := x.region + 1 }) else (c, x)
    cores := s.cores.filter fun p => p.1 / 128 != d
    clusters := s.clusters.filter fun p => p.1 / 16 != d
    saved := s.saved.filter fun v => v.core / 128 != d
    bank := s.bank.filter fun b => dieOf b.ctx != d
    tlb := s.tlb.filter fun t => t.cluster / 16 != d
    dies := mapSet {} s.dies d { lost := true, bounds := (s.die d).bounds } }

/-- A die is declared lost (R475 to R480). (DEDUCED, log 86.) Accesses between two other dies that R13 routes through it still succeed, since
no rule says what its shut links do to them. (DESIGN CHOICE, log 124.) -/
def declareLost (s : State) (d : Nat) : State :=
  if (s.die d).lost then s
  else
    let s := s.updDie d fun x => { x with lost := true }
    let s := setWin s 0 0x1020 (w64 s.time)
    let s := setWin s 0 0x1028 (win s 0 0x1028 ||| BitVec.twoPow 64 d)
    let s := signal s 0 19
    let ns := (s.streams.filter fun (_, st) => st.status != 0 && st.die == d).map (·.1)
    let s := ns.foldl (fun s n => streamLost s d n) s
    let js := (jobsOn s d).filter fun j => (s.job j).fin == 0
    let s := js.foldl cancelJob s
    let s := clearDie s d
    let moved := ns.filter fun n => (s.stream n).status != 0
    let s := raiseMoved s moved
    if moved = [] then s else shedDie s false (d ^^^ 1)

/-- HEARTBEAT (R475). -/
def execHeartbeat (die : Nat) (s : State) : Host.Outcome State Fault Refusal :=
  runEvent (modify fun s => if (s.die die).lost then s else s.updDie die fun d => { d with lastBeat := s.time }) s

/-- HEARTBEAT_TIMEOUT (R475, R476): 20 µs without a beat. -/
def execHeartbeatTimeout (die : Nat) (s : State) : Host.Outcome State Fault Refusal :=
  runEvent (modify fun s => if (s.die die).lastBeat + 20000 ≤ s.time then declareLost s die else s) s

/-- DIE_POWER_OFF (R475). -/
def execDiePowerOff (die : Nat) (s : State) : Host.Outcome State Fault Refusal :=
  runEvent (modify fun s => declareLost s die) s

end Sys2Proof.Machine
end

