-- ==== Sys2Proof/Machine/Fetch.lean ====
section
/-! DEFINITION. Fetch and issue (R112 to R119, R122, R125, R426, R438, R504): reading a bundle at the program counter, the
issue-time faults of its header and syllables in their order, and what makes it wait. -/

namespace Sys2Proof.Machine

/-- The sources of an R-format second operand. -/
def op2Srcs (o : Op2) : List (Reg × Bool) :=
  match o with
  | .reg b e => [(b, e)]
  | _ => []

/-- The sources of a two-source scalar instruction. -/
def rSrcs (r : RArgs) : List (Reg × Bool) := (r.a, r.ea) :: op2Srcs r.op2

/-- A coordinate run after a first register (R178, R122). -/
def runSrcs (a : Reg) (e : Bool) (rank : Nat) : List (Reg × Bool) :=
  (a, e) :: (rangeFrom 1 (rank - 1)).map fun i => (a + BitVec.ofNat 6 i, false)

/-- The sources of a location of a tagged access. -/
def mSrcs (rank : Nat → Nat) (m : MArgs) : List (Reg × Bool) :=
  match m.loc with
  | .off _ => [(m.a, m.ea)]
  | .lay l => runSrcs m.a m.ea (rank l.toNat)

/-- The sources of an atomic: its location, and x(d), with x(d+1) where it is a pair (R184). -/
def aSrcs (rank : Nat → Nat) (m : AArgs) (pair : Bool) : List (Reg × Bool) :=
  (match m.lay with
    | none => [(m.a, m.ea)]
    | some l => runSrcs m.a m.ea (rank l.toNat)) ++ [(m.d, m.ed)] ++ (if pair then [(m.d + 1, false)] else [])

/-- The sources of a group operand (R194). -/
def gSrcs (rank : Nat → Nat) (g : GArgs) : List (Reg × Bool) :=
  match g.lay with
  | none => [(g.a, g.ea)]
  | some l => runSrcs g.a g.ea (rank l.toNat)

/-- A source as a pair. -/
def srcPair (a : Src) : Reg × Bool := (a.r, a.e)

/-- A register that an engine syllable reads: it has no e bit. -/
def plain (r : Reg) : Reg × Bool := (r, false)

/-- The register sources of an instruction, in the order in which they are read (R81, R122). `rank` gives the rank of a
layout entry. -/
def srcsOf (rank : Nat → Nat) (i : Instr) : List (Reg × Bool) :=
  match i with
  | .add r | .sub r | .mul r | .mulh _ r | .div _ r | .rem _ r | .and r | .or r | .xor r | .andn r | .orn r | .shl r
  | .shr r | .sra r | .rot r | .min _ r | .max _ r | .cmp _ r | .lea _ r => rSrcs r
  | .madd r | .sel r => rSrcs r ++ [plain r.d]
  | .abs u | .clz u | .ctz u | .popc u => [(u.a, u.ea)]
  | .bfx _ f => [(f.a, f.ea)]
  | .bfi f => [(f.a, f.ea), plain f.d]
  | .movh d _ => [plain d]
  | .br b => [(b.a, b.ea)]
  | .jr a | .ret a => [srcPair a]
  | .srw a _ | .paddockRegisterWrite a _ | .handlerLimitWrite a | .flagsW1cWrite a _ | .arrivalRegisterWrite a _ => [srcPair a]
  | .lview _ _ b => [srcPair b]
  | .tlbiS1pg t | .tlbiS1all t | .tlbiS2pg t | .tlbiPart t | .tlbiAll t => [srcPair t.a, srcPair t.b]
  | .quiesceHold a | .quiesceRel a | .pgrel _ _ a | .ctxkill _ a => [srcPair a]
  | .ctxsave _ a b | .ctxload _ a b => [srcPair a, srcPair b]
  | .ldl _ _ _ a _ => [srcPair a]
  | .stl _ d a _ => [srcPair a, srcPair d]
  | .ldg _ _ a l => runSrcs a.r a.e (rank l.toNat)
  | .stg d a l => runSrcs a.r a.e (rank l.toNat) ++ [srcPair d]
  | .ldf m | .ldpk m => mSrcs rank m
  | .ste m | .stf m => mSrcs rank m ++ [(m.d, m.ed)]
  | .pref a l => runSrcs a.r a.e (rank l.toNat)
  | .amoAdd m | .amoAnd m | .amoOr m | .amoXor m | .amoMin _ m | .amoMax _ m | .amoSwap m | .amoIncw m | .amoFadd m
  | .amoSadd m => aSrcs rank m false
  | .amoCas m | .amoAddb m => aSrcs rank m true
  | .tlwait t => (if t.remote then [srcPair t.a] else []) ++ [srcPair t.b]
  | .tlread _ _ r a => if r then [srcPair a] else []
  | .gnew _ g b | .bwait g b => gSrcs rank g ++ [srcPair b]
  | .join _ g | .leave g | .bar g | .arrive _ g | .cbind _ g => gSrcs rank g
  | .send d a b _ => [srcPair a, srcPair b, plain d]
  | .card _ a | .jcancel _ a | .jpoll _ a => [srcPair a]
  | .mcfg f | .mcfgr f | .acmvSt f | .acmvLd f => [plain f.a]
  | .mma f =>
    (if f.fn.getLsbD 15 then [plain f.a, plain (f.a + 1)] else []) ++
      (if f.fn.getLsbD 13 then [plain f.b, plain (f.b + 1)] else [])
  | .zld f | .zst f | .mtab f => [plain f.a, plain (f.a + 1)]
  | .rrotUp f | .rrotDn f => [plain f.a, plain f.b]
  | .vadd v | .vsub v | .vmul v | .vfma v | .vdiv v | .vmin v | .vmax v | .vand v | .vor v | .vxor v | .vshl v | .vshr v
  | .vsra v | .vcmp v | .vsel v | .vsadd v | .vssub v | .vsmul v | .vsdiv v | .vperm v | .vshuf v | .vbcast v =>
    [plain v.a, plain v.b, plain v.d, plain v.n, plain v.m]
  | .vsqrt v | .vrsqrt v | .vabs v | .vneg v | .vcvt v | .vsexp v | .vslog v | .vred v | .vscan v | .vfn v | .vmov v =>
    [plain v.a, plain v.d, plain v.n, plain v.m]
  | .vepi v | .vsts v => [plain v.a, plain v.b, plain v.d]
  | .vlds v => [plain v.a, plain v.b]
  | .vtab v => [plain v.a]
  | .vfill v => [plain v.b, plain v.d, plain v.n, plain v.m]
  | .cpin f | .cpout f | .cred f | .cpref f | .ctrClose f | .kvtDrop f => [plain f.a]
  | .cpx f | .cgather f | .cscatter f | .cfill f | .cmirror f | .ctrOpen f | .ctrTrim f | .smpRun f | .smpAccept f =>
    [plain f.a, plain f.b]
  | .cmsg f | .ctrAppend f | .ctrProp f | .ctrSave f | .ctrLoad f | .kvtOpen f | .kvtCommit f =>
    [plain f.a, plain f.b, plain f.c]
  | .gpgetGp _ a _ | .grepl _ a => [srcPair a]
  | .gpset _ a b _ => [srcPair a, srcPair b]
  | _ => []

/-- The scalar registers that an instruction writes or marks empty. -/
def dstsOf (i : Instr) : List Reg :=
  match i with
  | .add r | .sub r | .mul r | .mulh _ r | .div _ r | .rem _ r | .madd r | .and r | .or r | .xor r | .andn r | .orn r
  | .shl r | .shr r | .sra r | .rot r | .min _ r | .max _ r | .sel r | .cmp _ r | .lea _ r => [r.d]
  | .abs u | .clz u | .ctz u | .popc u => [u.d]
  | .bfx _ f | .bfi f => [f.d]
  | .movi d _ | .movh d _ => [d]
  | .call a _ => [a]
  | .srr d _ | .lget d _ _ | .pgrel _ d _ | .ctxsave d _ _ | .ctxload d _ _ | .ctxkill d _ => [d]
  | .ldl _ _ d _ _ | .ldg _ d _ _ => [d]
  | .ldf m | .ldpk m => [m.d]
  | .amoAdd m | .amoAnd m | .amoOr m | .amoXor m | .amoMin _ m | .amoMax _ m | .amoSwap m | .amoCas m | .amoIncw m
  | .amoFadd m | .amoSadd m => [m.d]
  | .amoAddb m => [m.d, m.d + 1]
  | .tlread _ d _ _ | .tlmark _ d | .gnew d _ _ | .join d _ | .arrive d _ | .card d _ | .jcancel d _ | .jpoll d _ => [d]
  | .vlds v => [v.d]
  | .gpgetGp d _ _ | .gpgetCm d _ | .gpset d _ _ _ | .grepl d _ => [d]
  | _ => []

/-- The system register that an instruction writes (R117): `srw`, and the counter of `loop`. -/
def sysDst (i : Instr) : Option Nat :=
  match i with
  | .srw _ n => some n.toNat
  | .paddockRegisterWrite _ k => some (0x088 + k.toNat)
  | .handlerLimitWrite _ => some 0x080
  | .flagsW1cWrite _ mx => some (if mx then 0x021 else 0x020)
  | .arrivalRegisterWrite _ q => some (0x038 + q.toNat)
  | .loop lc1 _ => some (if lc1 then 0x011 else 0x010)
  | _ => none

/-- The control-transfer syllables (R118). -/
def isControl (i : Instr) : Bool :=
  match i with
  | .br _ | .jmp _ | .jr _ | .call _ _ | .ret _ | .loop _ _ | .trap _ | .tret | .ppt | .step | .tend | .idle => true
  | _ => false

/-- The engine queue that an instruction feeds (R131, R282): 0 CI, 1 MX, 2 VX, 3 CO, 4 GX. -/
def feeds (i : Instr) : Option Nat :=
  match i with
  | .mcfg _ | .mcfgr _ | .mgo _ | .mma _ | .acz _ | .acmvSt _ | .acmvLd _ | .zld _ | .zst _ | .zclrE _ | .zclrZ _
  | .rrotUp _ | .rrotDn _ | .mtab _ => some 1
  | .vadd _ | .vsub _ | .vmul _ | .vfma _ | .vdiv _ | .vsqrt _ | .vrsqrt _ | .vmin _ | .vmax _ | .vabs _ | .vneg _
  | .vand _ | .vor _ | .vxor _ | .vshl _ | .vshr _ | .vsra _ | .vcmp _ | .vsel _ | .vcvt _ | .vsadd _ | .vssub _
  | .vsmul _ | .vsdiv _ | .vsexp _ | .vslog _ | .vred _ | .vscan _ | .vperm _ | .vshuf _ | .vbcast _ | .vepi _ | .vfn _
  | .vtab _ | .vfill _ | .vmov _ | .vlds _ | .vsts _ => some 2
  | .cpin _ | .cgather _ | .cpref _ => some 0
  | .cpx f => some (if f.fn.getLsbD 8 then 3 else 0)
  | .cpout _ | .cscatter _ | .cfill _ | .cred _ | .cmsg _ | .cmirror _ => some 3
  | .ctrOpen _ | .ctrClose _ | .ctrAppend _ | .ctrProp _ | .ctrSave _ | .ctrLoad _ | .ctrTrim _ | .smpRun _
  | .smpAccept _ | .kvtOpen _ | .kvtCommit _ | .kvtDrop _ => some 4
  | _ => none

/-- A signed repeat step (R124): 0, +1, +2 or -1. -/
def repStep (c : BitVec 2) : Int :=
  match c.toNat with
  | 0 => 0
  | 1 => 1
  | 2 => 2
  | _ => -1

/-- A 6-bit field at bit `lo` of a syllable, moved by a step; none where it leaves 0 to 63. -/
def stepField (w : Syl) (lo : Nat) (by_ : Int) : Option Syl :=
  let v : Int := (w.toNat / 2 ^ lo % 64 : Nat) + by_
  if 0 ≤ v ∧ v < 64 then
    some (BitVec.ofNat 48 (w.toNat - w.toNat / 2 ^ lo % 64 * 2 ^ lo + v.toNat * 2 ^ lo))
  else none

/-- Slot 1 as repetition j executes it (R125, R438): d (c in E format), a and b are stepped where the format has them. -/
def stepSyl (w : Syl) (ds as bs : BitVec 2) (j : Nat) : Option Syl :=
  let fm := formatOf (w.extractLsb' 40 8).toNat
  let dlo := if fm = some .e then 16 else 34
  match stepField w dlo (repStep ds * j) with
  | none => none
  | some w =>
    match stepField w 28 (repStep as * j) with
    | none => none
    | some w =>
      match fm with
      | some .r | some .v | some .e => stepField w 22 (repStep bs * j)
      | _ => some w

/-- A syllable that ordered registers and control alone: no access, no fence, and nothing that a release or an acquire orders. -/
def quietSyl (i : Instr) : Bool :=
  match i with
  | .add _ | .sub _ | .mul _ | .mulh _ _ | .div _ _ | .rem _ _ | .madd _ | .and _ | .or _ | .xor _ | .andn _ | .orn _ | .shl _
  | .shr _ | .sra _ | .rot _ | .min _ _ | .max _ _ | .abs _ | .clz _ | .ctz _ | .popc _ | .bfx _ _ | .bfi _ | .sel _ | .cmp _ _
  | .movi _ _ | .movh _ _ | .lea _ _ | .br _ | .jmp _ | .jr _ | .call _ _ | .ret _ | .loop _ _ | .ppt | .tend | .idle | .trap _
  | .tret | .srr _ _ | .srw _ _ | .lview _ _ _ | .lget _ _ _ | .pacq _ | .prel | .aprof _ | .rep _ _ _ _ | .nop
  | .tlwait _ | .tlread _ _ _ _ | .tlmark _ _ | .gpgetCm _ _ => true
  | _ => false

/-- A syllable that releases what its context has written before it (R295, R297). -/
def releases (x : Ctx) (i : Instr) : Bool :=
  (match i with
    | .ste _ | .stf _ | .gnew _ _ _ | .leave _ | .bar _ | .arrive _ _ | .cunbind _ | .card _ _ | .step => true
    | .fence k _ => k != 1
    | .amoAdd m | .amoAnd m | .amoOr m | .amoXor m | .amoMin _ m | .amoMax _ m | .amoSwap m | .amoCas m | .amoIncw m
    | .amoAddb m | .amoFadd m | .amoSadd m => m.ord.getLsbD 1
    | _ => false) ||
  (feeds i).isSome || ((dstsOf i).any fun r => (boundPort x r).isSome)

/-- A syllable that accesses memory, fences or synchronises, a pop or push of a bound chute among them. -/
def ordered (x : Ctx) (i : Instr) : Bool :=
  !quietSyl i ||
    ((srcsOf (fun _ => 1) i).map (·.1) ++ dstsOf i).any fun r => (boundPort x r).isSome

/-- Program order holds a syllable back (R79, R190, R295): a tagged operation of its context waits at another core's bank, or a payload
that it would release has not landed. (DEDUCED, log 114.) -/
def orderBlock (s : State) (c : Nat) (i : Instr) : Bool :=
  (s.bank.any fun b => b.ctx == c && !b.here) && ordered (s.ctx c) i ||
    ((s.core (coreOf c)).sends.any fun m => m.ctx == c) && releases (s.ctx c) i

/-- What a context's turn at issue leads to. -/
inductive Turn where
  /-- the state after the context's turn: a fault taken, or a wait -/
  | done (s : State)
  /-- the instruction runs in this state -/
  | run (i : Instr) (s : State)
  /-- the machine stops -/
  | stuck (f : Fault)

/-- A fault at issue (R119): the slot that faulted goes to `islot`, the resume point is where the context stands: slot 0 for a bundle
that issues whole, and slot 1 with its repetition for one resumed there. (DEDUCED, log 115.) -/
def issueFaultAt (s : State) (c : Nat) (cause : BitVec 8) (islot : Bool) (eval : W64) : Turn :=
  let x := s.ctx c
  let (slot, rep) := resumePoint x
  .done (takeTrap s c cause false islot (epcWord x.pc slot rep) eval)

/-- A pattern that is not an instruction, as a cause (R133). -/
def errCause (e : DecodeError) : BitVec 8 :=
  match e with
  | .illegal => cIllegal
  | .reserved => cReserved

/-- The first source with e = 1 that is empty (R122). -/
def emptyTrap (x : Ctx) (l : List (Reg × Bool)) : Option Reg :=
  (l.find? fun (r, e) => e && r != 0 && (boundPort x r).isNone && x.empty.getLsbD r.toNat).map (·.1)

/-- An empty source blocks the bundle (R116, R122). -/
def emptyBlock (x : Ctx) (l : List (Reg × Bool)) : Bool :=
  l.any fun (r, _) => r != 0 && (boundPort x r).isNone && x.empty.getLsbD r.toNat

/-- A chute port that cannot serve every pop or push of the bundle blocks it (R26, R81). A control word that fails its tests
does not block: the access faults. -/
def portBlock (s : State) (x : Ctx) (srcs : List (Reg × Bool)) (dsts : List Reg) : Bool :=
  (List.finRange 8).any fun p =>
    match x.ports.get p with
    | none => false
    | some k =>
      let r := BitVec.ofNat 6 (56 + p.val)
      let w := readW s k
      chuteOk k w &&
        (if p.val < 4 then
          let need := (srcs.filter fun (q, _) => q == r).length
          let have_ := chuteCount w + (if (x.latch.toList.getD p.val none).isSome then 1 else 0)
          bit w 60 && decide (have_ < need)
        else
          bit w 61 && decide (chuteSize w + 1 < chuteCount w + (dsts.filter (· == r)).length))

/-- Reads the bundle at the program counter of a context (R112, R149, R313): translated with the execute right. (DESIGN CHOICE, log 19.) -/
def fetchBundle (c : Nat) : M Bundle := do
  let s ← get
  let x := s.ctx c
  let k ← xlateT { part := partOf s c, cluster := some (clusterOf c), va := x.pc.toNat, x := true, waiter := (0, c) }
  let s ← get
  if poisoned s k 16 || lostKey s k then trapM cPoison (w64 (x.pc.toNat / 64 * 64))
  return bundleOfBytes (← readAt k 16)

/-- The rank of an entry as the context sees it. -/
def rankOf (s : State) (c : Nat) (l : Nat) : Nat := (entryOf s c l).rank

/-- The REP prefix that an instruction is, with its count and its three steps (R125). -/
def repOf : Instr → Option (BitVec 6 × BitVec 2 × BitVec 2 × BitVec 2)
  | .rep cnt ds as bs => some (cnt, ds, as, bs)
  | _ => none

/-- Slot 1's syllable: its word, or at repetition j its word with stepped fields, where those can be represented (R125). -/
def slot1Word (rep : Option (BitVec 6 × BitVec 2 × BitVec 2 × BitVec 2)) (w : Syl) (j : Nat) : Option Syl :=
  match rep with
  | none => some w
  | some (_, ds, as, bs) => stepSyl w ds as bs j

/-- Header breaches (R114, R115, R123, R125, R412), with their cause. A syllable that does not decode consumes no bit of bimm, and a REP
that does not decode does not count as one. (DESIGN CHOICE, log 116.) -/
def headerFault (s : State) (c : Nat) (h : Header) (d0 d1 : Dec) : Option (BitVec 8) :=
  let mask (slot1 : Bool) (d : Dec) : BitVec 16 := match d with
    | .ok i => bimmMask slot1 i
    | .error _ => 0
  let rep := match d0 with
    | .ok (.rep _ _ _ _) => true
    | _ => false
  if h.h && (isHandler c || (s.ctx c).tlevel != 0) then some cIllegal
  else if h.wsel = 7 ∨ (h.wsel = 0 ∧ h.wimm ≠ 0) then some cReserved
  else if h.bimm &&& ~~~ (mask false d0 ||| mask true d1) ≠ 0 then some cReserved
  else if rep && h.s then some cReserved
  else none

/-- The state makes a major opcode illegal whatever its fields hold (R154, R155, R158, R374, R412), so that ILLEGAL_INSTR comes before
the RESERVED_FIELD of a field (R119). -/
def illegalMajor (s : State) (c : Nat) (w : Syl) : Bool :=
  let lvl := (s.ctx c).tlevel != 0
  match (w.extractLsb' 40 8).toNat with
  | 0x3B => !lvl
  | 0x38 => lvl
  | 0x37 => lvl || isHandler c
  | 0x78 => isHandler c
  | _ => false

/-- The cause of a pattern that does not decode, in a context (R119, R133). -/
def badCause (s : State) (c : Nat) (w : Syl) (e : DecodeError) : BitVec 8 := if illegalMajor s c w then cIllegal else errCause e

/-- A syllable's own issue-time faults (R119): cause and value. -/
def sylFault (s : State) (c : Nat) (h : Header) (w : Syl) (d : Dec) : Option (BitVec 8 × W64) :=
  match d with
  | .error e => some (badCause s c w e, w.setWidth 64)
  | .ok i =>
    match issueFault s c i with
    | some f => if f = cPrivilege ∧ h.h ∧ isControl i then some (cReserved, w.setWidth 64) else some (f, w.setWidth 64)
    | none =>
      if h.h && isControl i then some (cReserved, w.setWidth 64)
      else (emptyTrap (s.ctx c) (srcsOf (rankOf s c) i)).map fun r => (cRegEmpty, r.setWidth 64)

/-- With S = 1, slot 1 reads a register that slot 0 writes after that write (R117), so at issue only its other sources
count. -/
def before (h : Header) (d0 : Dec) (l : List (Reg × Bool)) : List (Reg × Bool) :=
  match d0 with
  | .ok i0 => if h.s then l.filter fun p => !(dstsOf i0).contains p.1 else l
  | .error _ => l

/-- Slot 1's own faults. -/
def sylFault1 (s : State) (c : Nat) (h : Header) (d0 : Dec) (w : Syl) (d : Dec) : Option (BitVec 8 × W64) :=
  match d with
  | .error e => some (badCause s c w e, w.setWidth 64)
  | .ok i =>
    match sylFault s c h w (.ok i) with
    | some (f, v) =>
      if f = cRegEmpty then
        (emptyTrap (s.ctx c) (before h d0 (srcsOf (rankOf s c) i))).map fun r => (cRegEmpty, r.setWidth 64)
      else some (f, v)
    | none => none

/-- Whether REP may not repeat an instruction (R125, R438). -/
def notRepeatable (w : Syl) (i : Instr) : Bool :=
  isControl i || i == .nop ||
    (match formatOf (w.extractLsb' 40 8).toNat with
      | some .b | some .x => true
      | _ => false)

/-- The faults of REP's repetitions before repetition 0 (R125, R438, R504). A repetition whose stepped register leaves 0 to 63 has no
syllable, and slot 1's own is reported. (DESIGN CHOICE, log 117.) -/
def repFault (s : State) (c : Nat) (h : Header) (w1 : Syl) (cnt ds as bs : Nat) : Option (BitVec 8 × W64) :=
  (List.range (cnt + 1)).findSome? fun j =>
    match stepSyl w1 (BitVec.ofNat 2 ds) (BitVec.ofNat 2 as) (BitVec.ofNat 2 bs) j with
    | none => some (cReserved, w1.setWidth 64)
    | some w =>
      match decodeSyllable true h.bimm w with
      | .error e => some (badCause s c w e, w.setWidth 64)
      | .ok i => (issueFault s c i).map fun f => (f, w.setWidth 64)

/-- The breaches that involve both syllables, found at slot 1's turn (R117, R118, R504). -/
def pairFault (h : Header) (i0 i1 : Instr) : Bool :=
  (isControl i0 && isControl i1) ||
    (!h.s && ((dstsOf i0).any fun r => r != 0 && (dstsOf i1).contains r)) ||
    (!h.s && (sysDst i0).isSome && sysDst i0 == sysDst i1)

/-- The header wait of a bundle is met (R114). -/
def waitMet (s : State) (c : Nat) (h : Header) : Bool :=
  if h.wsel = 0 then true
  else
    let tl := h.wsel.toNat - 1
    let base := ((s.ctx c).tlbase.toList.getD tl 0).toNat
    decide (h.wimm.toNat ≤ ((myTl s c tl : Int) - base).toNat) || decide ((myTl s c tl : Int) - base < 0)

/-- The engine queues have an entry for each command of the bundle (R116). -/
def queuesFree (s : State) (c : Nat) (is_ : List Instr) : Bool :=
  (List.range 5).all fun q =>
    decide (((s.core (coreOf c)).used q) + (is_.filter fun i => feeds i == some q).length ≤ 16)

/-- Runs slot 1, with the stepped fields of repetition j where slot 0 is REP (R125). (DEDUCED, log 14.) -/
def runSlot1 (s : State) (c : Nat) (i : Issue) : Turn :=
  let h := unpackHeader i.hdr
  match slot1Word i.rep i.s1 i.j.toNat with
  | none => issueFaultAt s c cReserved true (i.s1.setWidth 64)
  | some w =>
    let s := s.updCtx c fun x => { x with iss := some { i with syl := w } }
    match decodeSyllable true h.bimm w with
    | .error e => issueFaultAt s c (badCause s c w e) true (w.setWidth 64)
    | .ok ins =>
      if emptyBlock (s.ctx c) ((dstsOf ins).map plain) || orderBlock s c ins then .done (unissue s c) else .run ins s

/-- Issues a bundle from slot 0 (R116, R119). (DEDUCED, log 12.) -/
def issueWhole (s : State) (c : Nat) (b : Bundle) : Turn :=
  let h := unpackHeader b.hdr
  let d0 := decodeSyllable false h.bimm b.s0
  let d1 := decodeSyllable true h.bimm b.s1
  match headerFault s c h d0 d1 with
  | some f => issueFaultAt s c f false (b.hdr.setWidth 64)
  | none =>
    if !waitMet s c h then .done s
    else
      match sylFault s c h b.s0 d0 with
      | some (f, v) => issueFaultAt s c f false v
      | none =>
        match d0, d1 with
        | .ok i0, .ok i1 =>
          let rep := repOf i0
          if rep.isSome && notRepeatable b.s1 i1 then issueFaultAt s c cIllegal true (b.s1.setWidth 64)
          else
            match (match rep with
              | some (cnt, ds, as, bs) => repFault s c h b.s1 cnt.toNat ds.toNat as.toNat bs.toNat
              | none => none) with
            | some (f, v) => issueFaultAt s c f true v
            | none =>
              match (if rep.isSome then none else sylFault1 s c h d0 b.s1 d1) with
              | some (f, v) => issueFaultAt s c f true v
              | none =>
                if pairFault h i0 i1 then issueFaultAt s c cReserved true (b.s1.setWidth 64)
                else
                  let x := s.ctx c
                  let src0 := srcsOf (rankOf s c) i0
                  let src1 := if rep.isSome then [] else before h d0 (srcsOf (rankOf s c) i1)
                  let dst1 := if rep.isSome then [] else dstsOf i1
                  if emptyBlock x (src0 ++ src1 ++ (dstsOf i0 ++ dst1).map plain) || portBlock s x (src0 ++ src1) (dstsOf i0 ++ dst1) ||
                      !queuesFree s c [i0, i1] || orderBlock s c i0 || orderBlock s c i1 then .done s
                  else
                    let acq := h.wsel != 0
                    let iss : Issue :=
                      { hdr := b.hdr, s0 := b.s0, s1 := b.s1, rep := rep, syl := b.s0
                        snap := if h.s || rep.isSome then none else some x.x }
                    .run i0 (s.setCtx c { x with iss := some iss, region := if acq && !x.acq then x.region + 1 else x.region, acq := acq })
        | _, .error e => issueFaultAt s c (badCause s c b.s1 e) true (b.s1.setWidth 64)
        | .error e, _ => issueFaultAt s c (badCause s c b.s0 e) false (b.s0.setWidth 64)

/-- Issues slot 1 of a bundle alone, at the repetition of the resume point (R119, R125, R158, R426). -/
def issueSlot1 (s : State) (c : Nat) (b : Bundle) : Turn :=
  let h := unpackHeader b.hdr
  let d0 := decodeSyllable false h.bimm b.s0
  let d1 := decodeSyllable true h.bimm b.s1
  let j := (s.ctx c).rep
  match headerFault s c h d0 d1 with
  | some f => issueFaultAt s c f false (b.hdr.setWidth 64)
  | none =>
    let rep := match d0 with
      | .ok i0 => repOf i0
      | .error _ => none
    let bad := match rep with
      | some (cnt, _, _, _) => decide (cnt.toNat < j.toNat)
      | none => j != 0
    if bad then issueFaultAt s c cIllegal false (b.s0.setWidth 64)
    else
      match (if rep.isSome then none else sylFault s c h b.s1 d1) with
      | some (f, v) => issueFaultAt s c f true v
      | none =>
        let iss : Issue :=
          { hdr := b.hdr, s0 := b.s0, s1 := b.s1, slot1 := true, rep := rep, j := j, syl := b.s1, leave := (s.ctx c).keptLeave }
        runSlot1 (s.updCtx c fun x => { x with iss := some iss }) c iss

/-- With S = 1, a source of slot 1 with e = 1 that slot 0 has marked empty raises REG_EMPTY, and neither syllable has any
effect (R117, R119, R122). `s` is the state in which slot 0 ran and `t` the state after it. -/
def serialFault (s t : State) (c : Nat) : Option State :=
  match (s.ctx c).iss, (t.ctx c).iss with
  | some i, some j =>
    let h := unpackHeader i.hdr
    if h.s && !i.slot1 && j.slot1 then
      match decodeSyllable true h.bimm i.s1 with
      | .error _ => none
      | .ok i1 =>
        (emptyTrap (t.ctx c) (srcsOf (rankOf s c) i1)).map fun r =>
          let u := unissue s c
          let x := u.ctx c
          takeTrap u c cRegEmpty false true (epcWord x.pc false 0) (r.setWidth 64)
    else none
  | _, _ => none

/-- What a step keeps of the state after a syllable. -/
def settle (s t : State) (c : Nat) : State := (serialFault s t c).getD t

/-- A context's turn: a fault due before its next bundle, the rest of the bundle in issue, or a new bundle (R116, R407,
R408). A bundle in issue is abandoned for a fault only where it waits. -/
def turn (s : State) (c : Nat) : Turn :=
  let s := { s with cur := c }
  let x := s.ctx c
  let between := x.between
  if between ∧ x.tlevel = 0 ∧ (nextFailed s c).isSome then .done (deliverAsync s c)
  else
    match (if between then x.before else none) with
    | some (cause, v) =>
      if banked s c then .done s else
      let (slot, rep) := resumePoint x
      .done (takeTrap (s.setCtx c { x with before := none }) c cause false false (epcWord x.pc slot rep) v)
    | none =>
      if between ∧ x.tlevel = 0 ∧ x.miss.isSome then .done (deliverMiss s c (x.miss.getD 0))
      else if (s.die (dieOf c)).waiters.any fun w => w.1 == c then .done s
      else
      match x.iss with
      | some i => if i.leaving then .done (leaveBundle s c) else if i.halting then .run .haltBundle s else runSlot1 s c i
      | none =>
        match fetchBundle c s with
        | .error (.trap cause v) => issueFaultAt s c cause false v
        | .error (.hold f) => .done (f s)
        | .error (.stuck f) => .stuck f
        | .error _ => .done s
        | .ok (b, s) => if x.slot then issueSlot1 s c b else if x.rep = 0 then issueWhole s c b else issueSlot1 s c b

end Sys2Proof.Machine
end

