-- ==== Sys2Proof/Machine/Control.lean ====
section
/-! DEFINITION. Control transfer, task and scheduling points, traps, and the bundle forms (R149 to R158, R55, R124 to R125,
R132, R133). -/

namespace Sys2Proof.Machine

/-- Where the context goes when its bundle has finished (R118). -/
def leaveM (l : Leave) : M Unit := modIss fun i => { i with leave := l }

/-- The target of a B-format syllable (R149): the bundle address plus 16 times the displacement, modulo 2^57. -/
def target (pc : BitVec 57) (disp : BitVec 30) : BitVec 57 := pc + disp.signExtend 57 * 16

/-- The conditions of `br` (R150). -/
def brTaken (cond : BitVec 3) (v : W64) (n : BitVec 6) : Bool :=
  match cond.toNat with
  | 0 => v == 0
  | 1 => v != 0
  | 2 => decide (v.toInt < 0)
  | 3 => decide (0 ≤ v.toInt)
  | 4 => decide (0 < v.toInt)
  | 5 => decide (v.toInt ≤ 0)
  | 6 => v.getLsbD n.toNat
  | _ => !v.getLsbD n.toNat

/-- `br` (R150). -/
def execBr (b : BrArgs) (s : State) : Host.Outcome State Fault Refusal :=
  runSyl (.br b) (do
    let v ← readReg b.a b.ea
    let c ← getMe
    if brTaken b.cond v b.bit then leaveM (.jump (target c.pc b.disp))) s

/-- `jmp` (R151). -/
def execJmp (disp : BitVec 30) (s : State) : Host.Outcome State Fault Refusal :=
  runSyl (.jmp disp) (do
    let c ← getMe
    leaveM (.jump (target c.pc disp))) s

/-- The transfer of `jr` and `ret` (R149, R151). -/
def jumpReg (a : Src) : M Unit := do
  let v ← readSrc a
  check (v.toNat % 16 == 0) cMisaligned v
  leaveM (.jump (v.setWidth 57))

/-- `jr` (R151). -/
def execJr (a : Src) (s : State) : Host.Outcome State Fault Refusal := runSyl (.jr a) (jumpReg a) s
/-- `ret` (R151). -/
def execRet (a : Src) (s : State) : Host.Outcome State Fault Refusal := runSyl (.ret a) (jumpReg a) s

/-- `call` (R151): the link is the address of the bundle after. -/
def execCall (a : Reg) (disp : BitVec 30) (s : State) : Host.Outcome State Fault Refusal :=
  runSyl (.call a disp) (do
    let c ← getMe
    writeReg a ((nextPc c).setWidth 64)
    leaveM (.jump (target c.pc disp))) s

/-- `loop` (R152). -/
def execLoop (lc1 : Bool) (disp : BitVec 30) (s : State) : Host.Outcome State Fault Refusal :=
  runSyl (.loop lc1 disp) (do
    let c ← getMe
    let lc := if lc1 then c.lc1 else c.lc0
    let n := if lc1 then 0x011 else 0x010
    if 1 < lc.toNat then
      sysWrite n (lc - 1)
      leaveM (.jump (target c.pc disp))
    else sysWrite n 0) s

/-- `ppt` (R153). -/
def execPpt (s : State) : Host.Outcome State Fault Refusal := runSyl .ppt (leaveM .ppt) s

/-- `step` (R154): its arrival at the rendezvous releases (R303); the context stands there until it is released, and the retirement
acquires. -/
def execStep (s : State) : Host.Outcome State Fault Refusal :=
  runSyl .step (do
    let c ← getMe
    if c.stepGo then do
      leaveM .step
      markSync
    else holdWith fun s => s.updCtx s.cur fun x => { x with run := .atStep, region := x.region + 1 }) s

/-- `tend` (R46, R29, R32, R155). -/
def execTend (s : State) : Host.Outcome State Fault Refusal := runSyl .tend (leaveM .tend) s
/-- `idle` (R156). -/
def execIdle (s : State) : Host.Outcome State Fault Refusal := runSyl .idle (leaveM .idle) s
/-- `trap` (R157): SOFTWARE_TRAP once both syllables have executed. -/
def execTrap (code : BitVec 24) (s : State) : Host.Outcome State Fault Refusal := runSyl (.trap code) (leaveM (.trap code)) s
/-- `tret` (R158): it reads the bank of its level, so that a later write in its bundle changes nothing. -/
def execTret (s : State) : Host.Outcome State Fault Refusal :=
  runSyl .tret (do
    let x ← getMe
    leaveM (.tret x.bank)) s

/-- REP (R125): the repetitions are slot 1's; the prefix itself does nothing more. -/
def execRep (cnt : BitVec 6) (dstep astep bstep : BitVec 2) (s : State) : Host.Outcome State Fault Refusal :=
  runSyl (.rep cnt dstep astep bstep) (pure ()) s

/-- The NOP (R132). -/
def execNop (s : State) : Host.Outcome State Fault Refusal := runSyl .nop (pure ()) s

/-- What a context does when its halt bundle retires (R55, R56): it leaves its groups, its ports and its levels, and stops. -/
def haltCtx (s : State) (c : Nat) : State :=
  let s := retireCtx (applyLates s c) c
  freeUnits (s.updCtx c fun x => { x with
    run := .halted
    iss := none
    slot := false
    rep := 0
    pc := nextPc x }) (coreOf c)

/-- The retirement of a halt bundle whose syllables have executed (R55): it stays at issue until the context's commands have
left the engine queues. -/
def execHaltBundle (s : State) : Host.Outcome State Fault Refusal :=
  if !(s.me.iss.getD {}).halting then .next s
  else if ownCmds s s.cur = [] then .next (haltCtx s s.cur) else .next s

/-- A pattern that is not an instruction (R119, R133): it issues and faults. The cause is that of its decoding, and ILLEGAL_INSTR for a
pattern that decodes. -/
def execUnassignedEncoding (w : Syl) (s : State) : Host.Outcome State Fault Refusal :=
  let i := s.me.iss.getD {}
  let cause := match decodeSyllable i.slot1 (unpackHeader i.hdr).bimm w with
    | .error e => badCause s s.cur w e
    | .ok _ => cIllegal
  .next (faultHere s s.cur cause true (w.setWidth 64))

end Sys2Proof.Machine
end

