-- ==== Sys2Proof/Machine/Group.lean ====
section
/-! DEFINITION. Groups and barriers (R35 to R38, R194 to R201, R458, R459). -/

namespace Sys2Proof.Machine

/-- The group object of an instruction (R194), with the tests of every access to it (R84, R304, R498). -/
def groupM (g : GArgs) (write : Bool) : M Nat := do
  let (k, chk) ← objectM g 32 32
  paddockM k 32 (w64 (keyOff k))
  quiesceM k
  if chk then raceM k 32 write true
  poisonM k 32 0
  return k

/-- A value that an object returns: at once from the context's own slice, later from another (R179). -/
def giveM (d : Reg) (k : Nat) (v : W64) : M Unit := do
  let core ← myCore
  if keyCore k = core then writeReg d v else pendReg d v

/-- BARRIER_OBJECT unless a test holds. -/
def barrierUnless (ok : Bool) (v : W64) : M Unit := check ok cBarrier v

/-- The membership of the running context in an object, tested (R196, R458). -/
def memberM (k : Nat) : M (Group × Member) := do
  let s ← get
  let g := readGroup s k
  match memberOf s.me k with
  | none => trapM cBarrier (g.gen.setWidth 64)
  | some m =>
    barrierUnless (m.gen == g.gen && g.valid && g.sound) (g.gen.setWidth 64)
    return (g, m)

/-- The waits that a `gnew` ends (R459). -/
def regroup (s : State) (k : Nat) (gen : BitVec 32) : State :=
  mapWaits s fun w =>
    match w with
    | .bar o _ _ | .bwait o _ _ => if o = k then .regrouped gen else w
    | _ => w

/-- `gnew` (R195, R459). -/
def execGnew (d : Reg) (g : GArgs) (b : Src) (s : State) : Host.Outcome State Fault Refusal :=
  runSyl (.gnew d g b) (do
    let v ← readSrc b
    barrierUnless (v &&& 0x7FFFFFFFFF800000 == 0 && decide (bits v 22 20 < 6)) v
    let k ← groupM g true
    let s ← get
    let o := readGroup s k
    let gen := o.gen + 1
    let new : Group :=
      if bit v 63 then { o with w0 := setBits o.w0 31 0 gen.toNat, w1 := setBits o.w1 3 3 0 }
      else ⟨gen.setWidth 64, w64 (bits v 15 0 * 2 ^ 16 + bits v 19 16 * 2 ^ 4 + 8 + bits v 22 20), w64 (s.me.job % 2 ^ 32), 0⟩
    modify fun s => regroup (writeGroup s k new) k gen
    markSync
    giveM d k (gen.setWidth 64)) s

/-- `join` (R196). -/
def execJoin (d : Reg) (g : GArgs) (s : State) : Host.Outcome State Fault Refusal :=
  runSyl (.join d g) (do
    let k ← groupM g true
    let s ← get
    let o := readGroup s k
    let listed := s.me.groups.any fun m => m.obj == k && m.gen == o.gen
    barrierUnless (o.valid && o.sound && !listed) (o.gen.setWidth 64)
    barrierUnless (decide (s.me.groups.length < 8)) 8
    modify fun s => writeGroup s k (o.setMembers (o.members + 1))
    modMe fun c => { c with groups := c.groups ++ [⟨k, o.gen, none⟩] }
    markSync
    giveM d k (o.epoch.setWidth 64)) s

/-- `leave` (R196, R197): a stale membership goes without touching the object. (DEDUCED, log 33.) -/
def execLeave (g : GArgs) (s : State) : Host.Outcome State Fault Refusal :=
  runSyl (.leave g) (do
    let k ← groupM g true
    let s ← get
    let o := readGroup s k
    match memberOf s.me k with
    | none => trapM cBarrier (o.gen.setWidth 64)
    | some m =>
      barrierUnless (m.gen != o.gen || o.sound) (o.gen.setWidth 64)
      modify fun s => leaveGroup s s.cur m
      markSync) s

/-- `arrive` (R198): the ticket is the epoch before the arrival. -/
def execArrive (d : Reg) (g : GArgs) (s : State) : Host.Outcome State Fault Refusal :=
  runSyl (.arrive d g) (do
    let k ← groupM g true
    let (o, m) ← memberM k
    let s ← get
    match arriveAt s s.cur k m.gen with
    | .error v => trapM cBarrier v
    | .ok s => do
      set s
      markSync
      giveM d k (o.epoch.setWidth 64)) s

/-- The phase of a context's core in the release of an object (R200). -/
def phaseOf (g : Group) (c : Nat) : Nat := coreOf c % g.phases

/-- What a waiting `bar` or `bwait` does next (R199, R200, R459): waits, ends, or faults; none where the context has not begun to
wait on this object. -/
def waitingOn (w : Wait) (k : Nat) : Option (M Unit) :=
  match w with
  | .bar o _ _ | .phase o _ _ | .bwait o _ _ => if o = k then some waitM else none
  | .ready o _ => if o = k then some markSync else none
  | .regrouped gen => some (trapM cBarrier (gen.setWidth 64))
  | _ => none

/-- `bar` (R199): an arrival, then the wait for its episode. The last arrival of a context in phase 0 does not wait. -/
def execBar (g : GArgs) (s : State) : Host.Outcome State Fault Refusal :=
  runSyl (.bar g) (do
    let c ← getMe
    let (k0, _) ← objectM g 32 32
    match waitingOn c.wait k0 with
    | some m => m
    | none =>
      let k ← groupM g true
      let (o, m) ← memberM k
      let s ← get
      match arriveAt s s.cur k m.gen with
      | .error v => trapM cBarrier v
      | .ok t =>
        let released := (readGroup t k).epoch != o.epoch
        if released && phaseOf o s.cur == 0 then do
          set t
          markSync
        else
          let w : Wait := if released then .phase k m.gen o.epoch else .bar k m.gen o.epoch
          let d := t.det
          holdWith fun s =>
            match arriveAt s s.cur k m.gen with
            | .ok s => bumpRegion ({ s with det := d }.setMe (({ s with det := d } : State).me.setWait w)) s.cur
            | .error _ => s) s

/-- `bwait` (R199): an episode already released does not wait. (DEDUCED, log 34.) -/
def execBwait (g : GArgs) (b : Src) (s : State) : Host.Outcome State Fault Refusal :=
  runSyl (.bwait g b) (do
    let c ← getMe
    let (k0, _) ← objectM g 32 32
    match waitingOn c.wait k0 with
    | some m => do
      let _ ← readSrc b
      m
    | none =>
      let k ← groupM g false
      let v ← readSrc b
      let (o, m) ← memberM k
      if o.epoch == v.extractLsb' 0 32 then
        holdWith fun s => s.setMe (s.me.setWait (.bwait k m.gen o.epoch))
      else markSync) s

/-- BARRIER_PHASE_READY (R200): the phase of a released waiter comes. -/
def execBarrierPhaseReady (ctx : Nat) (s : State) : Host.Outcome State Fault Refusal :=
  runEvent (modify fun s => s.updCtx ctx fun c =>
    { c with waits := c.waits.map fun w =>
      match w with
      | .phase o _ t => .ready o t
      | w => w }) s

end Sys2Proof.Machine
end

