-- ==== Sys2Proof/Machine/Memory.lean ====
section
/-! DEFINITION. Scalar loads and stores, `pref`, and the tagged operations (R78, R79, R178 to R183, R428). -/

namespace Sys2Proof.Machine

/-- The local offset of the local form (R63, R178). -/
def localOff (v : W64) (off : BitVec 16) : Nat := (v + off.signExtend 64).toNat % 2 ^ 23

/-- A loaded value of n bytes, sign- or zero-extended (R180, R181). -/
def extend (zero : Bool) (n v : Nat) : W64 := if zero then w64 v else BitVec.ofInt 64 (sx (8 * n) v)

/-- `ldl` (R180). -/
def execLdl (w : BitVec 2) (n : Bool) (d : Reg) (a : Src) (off : BitVec 16) (s : State) :
    Host.Outcome State Fault Refusal :=
  runSyl (.ldl w n d a off) (do
    let v ← readSrc a
    let o := localOff v off
    let b := 2 ^ w.toNat
    check (o % b == 0) cMisaligned (w64 o)
    let x ← loadLocal o b false
    writeReg d (extend n b x)) s

/-- `stl` (R180). -/
def execStl (w : BitVec 2) (d : Src) (a : Src) (off : BitVec 16) (s : State) : Host.Outcome State Fault Refusal :=
  runSyl (.stl w d a off) (do
    let v ← readSrc a
    let x ← readSrc d
    let o := localOff v off
    let b := 2 ^ w.toNat
    check (o % b == 0) cMisaligned (w64 o)
    storeLocal o b x.toNat false) s

/-- The element that a layout form names, for a thread (R74, R178). -/
def elementM (a : Src) (l : Nat) (rd wr : Bool) : M (Layout × Place) := do
  let e ← getEntry l
  let coords ← readCoords a.r a.e (max e.rank 1)
  spaceM l e (e.space != spNet)
  let p ← placeM l e coords e.es rd wr
  return (e, p)

/-- `ldg` (R179, R181): through an entry of another space than LOCAL the value arrives later. -/
def execLdg (n : Bool) (d : Reg) (a : Src) (l : BitVec 6) (s : State) : Host.Outcome State Fault Refusal :=
  runSyl (.ldg n d a l) (do
    let (e, p) ← elementM a l.toNat true false
    let s ← get
    let v ← loadPlace p e.es e.chk false (w64 l.toNat) (e.mir && movedJob s s.me.job)
    if e.space = spLocal then writeReg d (extend n e.es v) else pendReg d (extend n e.es v)) s

/-- `stg` (R181). -/
def execStg (d : Src) (a : Src) (l : BitVec 6) (s : State) : Host.Outcome State Fault Refusal :=
  runSyl (.stg d a l) (do
    let (e, p) ← elementM a l.toNat false true
    let v ← readSrc d
    let s ← get
    storePlace p e.es v.toNat e.chk false (w64 l.toNat) e.mir (movedJob s s.me.job)) s

/-- `pref` (R182): a hint. -/
def execPref (a : Src) (l : BitVec 6) (s : State) : Host.Outcome State Fault Refusal :=
  runSyl (.pref a l) (do
    let e ← getEntry l.toNat
    let _ ← readCoords a.r a.e (max e.rank 1)) s

/-- The word of a tagged operation (R183): its slice key, whether the access is checked, whether its value is the core's
own (R179), and what a paddock fault reports. -/
def taggedLoc (m : MArgs) (rd wr : Bool) : M (Nat × Bool × Bool × W64) := do
  let core ← myCore
  match m.loc with
  | .off off =>
    let v ← readReg m.a m.ea
    let o := localOff v off
    check (o % 8 == 0) cMisaligned (w64 o)
    return (sliceKey core o, true, true, w64 o)
  | .lay l =>
    let e ← getEntry l.toNat
    let coords ← readCoords m.a m.ea (max e.rank 1)
    spaceM l.toNat e e.inSram
    match ← placeM l.toNat e coords 8 rd wr with
    | .slice k =>
      check (k % 8 == 0) cMisaligned (w64 (keyOff k))
      return (k, e.chk, e.space == spLocal, w64 l.toNat)
    | .virt _ _ _ => trapM cRights (w64 l.toNat)

/-- A local wait (R79): the operation queues at the word, and the bundle stays at issue. -/
def tagHold (k : Nat) (ste : Bool) : M Unit :=
  holdWith fun s =>
    if s.bank.any fun b => b.ctx == s.cur && b.here then s
    else { s with bank := s.bank ++ [⟨s.cur, k, ste, true, 0, 0, s.qcount, s.me.job⟩] }

/-- The running context no longer waits for a tag at issue. -/
def tagDone : M Unit := modify fun s => { s with bank := s.bank.filter fun b => !(b.ctx == s.cur && b.here) }

/-- Whether a register can be marked empty: it is neither x0 nor a bound port. -/
def canPend (c : Ctx) (d : Reg) : Bool := d != 0 && (boundPort c d).isNone

/-- `ldf` (R79, R183). A checked access is tested and recorded in one step with the access at the bank (R304), and its fault is precise
(R407), so that only an unchecked one waits at another core's bank with its bundle retired. (DESIGN CHOICE, log 15.) (DEDUCED, log 113.) -/
def execLdf (m : MArgs) (s : State) : Host.Outcome State Fault Refusal :=
  runSyl (.ldf m) (do
    let (k, chk, own, ev) ← taggedLoc m true false
    paddockM k 8 ev
    quiesceM k
    let core ← myCore
    let s ← get
    let c := s.me
    if tagReady s k false fun b => b.ctx == s.cur && b.here then
      if chk then raceM k 8 false true
      poisonM k 8 0
      let v := readW (← get) k
      tagDone
      modify fun s => setEmpty s k
      markSync
      if own then writeReg m.d v else pendReg m.d v
    else if keyCore k = core ∨ chk ∨ ¬ canPend c m.d then tagHold k false
    else
      poisonM k 8 0
      await (!c.empty.getLsbD m.d.toNat)
      modMe fun c => { c with empty := c.empty ||| BitVec.twoPow 64 m.d.toNat }
      modify fun s => { s with bank := s.bank ++ [⟨s.cur, k, false, false, m.d.toNat, 0, s.qcount, s.me.job⟩] }
      markSync) s

/-- `ste` (R79, R183). -/
def execSte (m : MArgs) (s : State) : Host.Outcome State Fault Refusal :=
  runSyl (.ste m) (do
    let (k, chk, _, ev) ← taggedLoc m false true
    let v ← readReg m.d m.ed
    paddockM k 8 ev
    quiesceM k
    let core ← myCore
    let s ← get
    if tagReady s k true fun b => b.ctx == s.cur && b.here then
      if chk then raceM k 8 true true
      tagDone
      modify fun s => setFull (writeNat s k 8 v.toNat) k
      markSync
    else if keyCore k = core ∨ chk then tagHold k true
    else
      modify fun s => { s with bank := s.bank ++ [⟨s.cur, k, true, false, 0, v, s.qcount, s.me.job⟩] }
      markSync) s

/-- `ldpk` (R183). -/
def execLdpk (m : MArgs) (s : State) : Host.Outcome State Fault Refusal :=
  runSyl (.ldpk m) (do
    let (k, chk, own, ev) ← taggedLoc m true false
    let n ← loadPlace (.slice k) 8 chk true ev false
    if own then writeReg m.d (w64 n) else pendReg m.d (w64 n)) s

/-- `stf` (R183). -/
def execStf (m : MArgs) (s : State) : Host.Outcome State Fault Refusal :=
  runSyl (.stf m) (do
    let (k, chk, _, ev) ← taggedLoc m false true
    let v ← readReg m.d m.ed
    storePlace (.slice k) 8 v.toNat chk true ev false false
    modify fun s => setFull s k
    markSync) s

/-- TAGGED_WAIT_SERVED (R79): the oldest operation of a context that waits at another core's bank is served once its tag
allows. -/
def execTaggedWaitServed (ctx : Nat) (s : State) : Host.Outcome State Fault Refusal :=
  runEvent (do
    let s ← get
    match s.bank.find? fun b => b.ctx == ctx && !b.here && tagReady s b.key b.ste fun x => x == b with
    | none => pure ()
    | some b =>
      let held := match (s.core (keyCore b.key)).holder with
        | some h => h != ctx
        | none => false
      if held then pure ()
      else do
        modify fun s => { s with bank := s.bank.erase b }
        if b.ste then modify fun s => setFull (writeNat s b.key 8 b.v.toNat) b.key
        else modify fun s => setEmpty (s.updCtx ctx fun c => { c with pend := c.pend ++ [⟨b.d, readW s b.key, 0, 0⟩] }) b.key) s

/-- REMOTE_VALUE_ARRIVAL (R121): the oldest value on its way to a register arrives and the register is full. -/
def execRemoteValueArrival (ctx : Nat) (r : Nat) (s : State) : Host.Outcome State Fault Refusal :=
  runEvent (modify fun s => if (s.ctx ctx).pend.any fun p => p.r == r then s.updCtx ctx fun c => arrive1 c r else s) s

end Sys2Proof.Machine
end

