-- ==== Sys2Proof/Machine/Sync.lean ====
section
/-! DEFINITION. Fences and timelines (R190 to R193, R297). -/

namespace Sys2Proof.Machine

/-- `fence` (R190): every access of this model performs in program order, so that the fence closes the region alone. -/
def execFence (kind : BitVec 2) (scope : BitVec 3) (s : State) : Host.Outcome State Fault Refusal :=
  runSyl (.fence kind scope) markSync s

/-- The presented value of a timeline of a logical core of a launch (R191): that of the core which holds it, or the value it was
saved with; none where the launch holds no such core (R192). -/
def tlOf (s : State) (job lcore tl : Nat) : Option Nat :=
  match (s.job job).cores.find? fun p => p.1 == lcore with
  | none => none
  | some (_, core) =>
    if unitOfLcore s job lcore then some (presented s job lcore core tl)
    else (s.saved.find? fun v => v.unit.job == job && v.unit.lcore == lcore).map fun v => mapGet 0 v.tl tl

/-- The value of the timeline that `tlwait` or `tlread` names (R192). -/
def tlNamed (tl : BitVec 3) (remote : Bool) (a : Src) : M (Nat × Bool) := do
  let s ← get
  let c := s.me
  if remote then
    let v ← readSrc a
    limit (decide (v.toNat < 2 ^ 16))
    match tlOf s c.job v.toNat tl.toNat with
    | none => trapM cRights v
    | some n => return (n, v.toNat != c.lcore)
  else return (myTl s s.cur tl.toNat, false)

/-- `tlwait` (R192). -/
def execTlwait (t : TlArgs) (s : State) : Host.Outcome State Fault Refusal :=
  runSyl (.tlwait t) (do
    let (n, _) ← tlNamed t.tl t.remote t.a
    let b ← readSrc t.b
    await (decide (b.toNat ≤ n))
    markSync) s

/-- `tlread` (R193): a remote value arrives later. -/
def execTlread (tl : BitVec 3) (d : Reg) (remote : Bool) (a : Src) (s : State) : Host.Outcome State Fault Refusal :=
  runSyl (.tlread tl d remote a) (do
    let (n, far) ← tlNamed tl remote a
    if far then pendReg d (w64 n) else writeReg d (w64 n)) s

/-- `tlmark` (R193). -/
def execTlmark (tl : BitVec 3) (d : Reg) (s : State) : Host.Outcome State Fault Refusal :=
  runSyl (.tlmark tl d) (do
    let s ← get
    let v := w64 (myTl s s.cur tl.toNat)
    modMe fun c => { c with tlbase := c.tlbase.set! tl.toNat v }
    writeReg d v) s

end Sys2Proof.Machine
end

