-- ==== Sys2Proof/Machine/Message.lean ====
section
/-! DEFINITION. Messages and handlers (R31 to R34, R205, R288). -/

namespace Sys2Proof.Machine

/-- The core that holds a logical core of a launch (R50, R205): one on which a unit of it stands, or from which one was saved. (DEDUCED, log 66.) -/
def coreOfLogical (s : State) (job lcore : Nat) : Option Nat :=
  if holdsLcore s job lcore then ((s.job job).cores.find? fun p => p.1 == lcore).map (·.2) else none

/-- `send` (R205): the payload is read at issue and lands later. LAYOUT_RIGHTS for a logical core that the launch does not hold reports
that id. (DEDUCED, log 36.) (DESIGN CHOICE, log 120.) -/
def execSend (d : Reg) (a : Src) (b : Src) (n : BitVec 5) (s : State) : Host.Outcome State Fault Refusal :=
  runSyl (.send d a b n) (do
    let t ← readSrc a
    let h ← readSrc b
    let p ← readReg d false
    let len := 8 * (n.toNat + 1)
    let src := bits p 22 0
    let dst := bits t 22 0
    limit (t &&& 0xFFFF0000FF800000 == 0)
    check (src % 8 == 0) cMisaligned (w64 src)
    check (dst % 8 == 0) cMisaligned (w64 dst)
    check (h.toNat % 16 == 0) cMisaligned h
    let s ← get
    let c := s.me
    match coreOfLogical s c.job (bits t 47 32) with
    | none => trapM cRights (w64 (bits t 47 32))
    | some core =>
      check (decide (src + len ≤ 2 ^ 23)) cBounds (w64 src)
      check (decide (dst + len ≤ 2 ^ 23)) cBounds (w64 dst)
      let me ← myCore
      paddockM (sliceKey me src) len (w64 src)
      paddockM (sliceKey core dst) len (w64 dst)
      quiesceM (sliceKey core dst)
      let v ← loadLocal src len false
      let k := s.core me
      await (decide ((k.sends.filter fun m => m.ctx == s.cur).length < 8))
      let num := nextNum k 5
      modify fun s => s.updCore me fun k => { k with
        tlNext := k.tlNext.set! 5 num
        sends := k.sends ++ [{ num, ctx := s.cur, job := c.job, core, off := dst, data := natToBytes len v, handler := h, stamp := s.qcount }] }
      markSync) s

/-- An arrival enters a core's queue (R33): none where it is full. A cancel discards what has not started a handler, on its way or
queued (R420). -/
def enterArrival (s : State) (core : Nat) (a : Arrival) : Option State :=
  if (s.job a.job).cancelled then some (freeRing s a)
  else if 16 ≤ (s.core core).arrivals.length then none
  else some (wakeCore (s.updCore core fun k => { k with arrivals := k.arrivals ++ [a] }) core)

/-- The unit that holds a core for a job is being migrated, so that what is addressed to its logical core waits (R493). -/
def migratingTo (s : State) (job core : Nat) : Bool :=
  s.saved.any fun v => v.migrating && v.unit.job == job &&
    (match (s.job job).cores.find? fun p => p.1 == v.unit.lcore with
      | some p => p.2 == core
      | none => false)

/-- A job holds a unit on a core (R392). -/
def holdsUnit (s : State) (job core : Nat) : Bool :=
  (s.core core).units.toList.any fun u => match u with
    | some u => u.job == job
    | none => false

/-- The messages that wait in the slots of a flow for a core enter its arrival queue while there is room, once their job holds a unit
there (R31, R392). -/
def pullFlow (s : State) (flow core : Nat) : List (Nat × Arrival) → State
  | [] => s
  | (k, a) :: t =>
    if k ≠ core then pullFlow s flow core t
    else if ¬ holdsUnit s a.job core then s
    else
      match enterArrival s core a with
      | none => s
      | some s => pullFlow (s.setFlow flow { s.flow flow with waiting := (s.flow flow).waiting.erase (k, a) }) flow core t

/-- The messages that wait for a core, flow by flow. -/
def pullWaiting (s : State) (core : Nat) : State :=
  s.flows.foldl (fun s (i, f) => pullFlow s i core f.waiting) s

/-- SEND_LANDING (R33, R205): the oldest payload on its way from a core lands, and its number is reached. With a handler it waits
at its source while the target's arrival queue is full, and so does every payload while another context holds the target slice (R172). -/
def execSendLanding (core : Nat) (s : State) : Host.Outcome State Fault Refusal :=
  runEvent (do
    let s ← get
    match (s.core core).sends with
    | [] => pure ()
    | m :: t =>
      let barred := match (s.core m.core).holder with
        | some c => c != m.ctx
        | none => false
      if migratingTo s m.job m.core || barred then pure () else
      let key := sliceKey m.core m.off
      let land (s : State) : State :=
        wakeCore ((clearPoison (writeBytes s key m.data) key m.data.length).updCore core fun k =>
          { k with sends := t, tlDone := k.tlDone.set! 5 m.num }) core
      if m.handler = 0 then set (land s)
      else
        match enterArrival (land s) m.core ⟨m.handler, w64 m.off, w64 m.data.length, w64 m.ctx, m.job, none⟩ with
        | some s => set s
        | none => pure ()) s

/-- The lowest dormant handler context of a core (R31). -/
def dormant (s : State) (core : Nat) : Option Nat :=
  [3, 4, 5].find? fun i => (s.ctx (8 * core + i)).run == .off

/-- The logical core that a physical core is to a launch. -/
def lcoreAt (j : Job) (core : Nat) : Nat := ((j.cores.find? fun p => p.2 == core).map (·.1)).getD 0

/-- The token set and function table of a handler context start anew for another launch (R505). -/
def freshHandler (k : Core) (i : Nat) : Core :=
  { k with tok := k.tok.set! i (Vector.replicate 8 0), ftab := k.ftab.filter fun p => p.1 / 8 != i }

/-- The state in which a handler context starts for an arrival (R31, R32, R45, R166): what is on its way to a register arrives before
x1 to x3 are set (R121), and its other registers keep their values. -/
def handlerCtx (s : State) (core i : Nat) (a : Arrival) : Ctx :=
  let x := arriveAll (s.ctx (8 * core + i))
  let j := s.job a.job
  let l := lcoreAt j core
  { x with
    run := .live
    ring := a.ring
    x := ((x.x.set 1 a.x1).set 2 a.x2).set 3 a.x3
    acq := false
    transfers := Vector.replicate 3 none
    hlimit := (s.core core).hlimit
    pc := BitVec.ofNat 57 (a.addr.toNat / 16 * 16)
    slot := false
    rep := 0
    iss := none
    wdog := 0
    expired := 0
    job := a.job
    lcore := l
    tlevel := 0
    region := x.region + 1
    save := saveArea j core l i
    tlbase := Vector.ofFn fun q : Fin 6 => w64 (presented s a.job l core q.val) }

/-- Whether an arrival can start on a dormant handler context: its register writes have left the banks, and where the context last ran
for another launch, the commands that it enqueued then have completed (R121, R505). -/
def handlerReady (s : State) (core i : Nat) (a : Arrival) : Bool :=
  let c := 8 * core + i
  !banked s c && ((s.ctx c).job == a.job || ownCmds s c == [])

/-- The arrival that starts a handler next: the oldest, but for messages from the network whose job holds no unit on the core, which
count as waiting at their source (R33, R392). -/
def nextArrival (s : State) (core : Nat) : Option Arrival :=
  (s.core core).arrivals.find? fun a => a.ring.isNone || holdsUnit s a.job core

/-- HANDLER_START (R31 to R34, R156, R303, R505): the oldest arrival starts on the lowest dormant handler context. Messages that waited
at the endpoint take the places that are free. (DEDUCED, log 37.) -/
def execHandlerStart (core : Nat) (s : State) : Host.Outcome State Fault Refusal :=
  runEvent (modify fun s =>
    if (s.die (core / 128)).lost then s else
    let s := pullWaiting s core
    match nextArrival s core, dormant s core with
    | some a, some i =>
      if !handlerReady s core i a then s else
      let x := handlerCtx s core i a
      let s := s.updCore core fun k =>
        { (if (s.ctx (8 * core + i)).job = a.job then k else freshHandler k i) with arrivals := k.arrivals.erase a }
      wakeCore (charge (s.setCtx (8 * core + i) x) (core / 128) (s.job a.job).fn) core
    | _, _ => s) s

end Sys2Proof.Machine
end

