-- ==== Sys2Proof/Machine/Power.lean ====
section
/-! DEFINITION. The power and profile instructions (R369, R372 to R375, R385, R437). -/

namespace Sys2Proof.Machine

/-- `pacq` (R374): lowering needs no grant; else the request stands at the die's arbiter until it is granted. -/
def execPacq (n : BitVec 6) (s : State) : Host.Outcome State Fault Refusal :=
  runSyl (.pacq n) (do
    let c ← getMe
    if n.toNat ≤ c.held then
      modMe fun c => { c with held := n.toNat, release := none }
      modify fun s => if c.wait = .granted n.toNat then endOverdraw s s.cur else s
    else
      holdWith fun s =>
        let s := s.setMe (s.me.setWait (.pacq n.toNat s.time))
        s.updDie (dieOf s.cur) fun d =>
          if d.waiters.any fun w => w.1 == s.cur then d else { d with waiters := d.waiters ++ [(s.cur, n.toNat)] }) s

/-- `prel` (R375): the level falls once the commands enqueued before have completed. -/
def execPrel (s : State) : Host.Outcome State Fault Refusal := runSyl .prel (modify fun s => endLevel s s.cur) s

/-- `pvote` (R369, R372). -/
def execPvote (vp : BitVec 3) (s : State) : Host.Outcome State Fault Refusal :=
  runSyl (.pvote vp) (modify fun s =>
    let p := partOf s s.cur
    s.updDie (dieOf s.cur) fun d => { d with votes := mapPut p vp.toNat d.votes }) s

/-- `aprof` (R385): for later bundles. -/
def execAprof (n : BitVec 4) (s : State) : Host.Outcome State Fault Refusal :=
  runSyl (.aprof n) (do
    let s ← get
    check (profOk (s.job s.me.job) n.toNat) cEngine (w64 n.toNat)
    lateM (.prof n.toNat)) s

end Sys2Proof.Machine
end

