-- ==== Sys2Proof/Machine/Priv.lean ====
section
/-! DEFINITION. The privileged instructions (R170 to R177, R310 to R312, R427). -/

namespace Sys2Proof.Machine

/-- Whether a translation cache of a cluster lies in a scope of R171, seen from a context. -/
def inScope (scope : BitVec 3) (c cluster : Nat) : Bool :=
  match scope.toNat with
  | 2 => cluster == clusterOf c
  | 3 => cluster / 16 == dieOf c
  | _ => true

/-- Removes cached translations from the caches of a scope (R171). -/
def tlbiM (t : TlbiArgs) (byPart : Bool) (hit : Tlb → Nat → Nat → Bool) : M Unit := do
  let a ← readSrc t.a
  let b ← readSrc t.b
  if byPart then limit (decide (b.toNat ≤ 32))
  modify fun s => { s with tlb := s.tlb.filter fun e => !(inScope t.scope s.cur e.cluster && hit e (a.toNat % 2 ^ 57) b.toNat) }

/-- `tlbi.s1pg` (R171). -/
def execTlbiS1pg (t : TlbiArgs) (s : State) : Host.Outcome State Fault Refusal :=
  runSyl (.tlbiS1pg t) (tlbiM t true fun e a p => e.part == p && decide (e.s1lo ≤ a ∧ a < e.s1lo + e.s1len)) s
/-- `tlbi.s1all` (R171). -/
def execTlbiS1all (t : TlbiArgs) (s : State) : Host.Outcome State Fault Refusal :=
  runSyl (.tlbiS1all t) (tlbiM t true fun e _ p => e.part == p) s
/-- `tlbi.s2pg` (R171). -/
def execTlbiS2pg (t : TlbiArgs) (s : State) : Host.Outcome State Fault Refusal :=
  runSyl (.tlbiS2pg t) (tlbiM t true fun e a p => e.part == p && decide (e.s2lo ≤ a ∧ a < e.s2lo + e.s2len)) s
/-- `tlbi.part` (R171). -/
def execTlbiPart (t : TlbiArgs) (s : State) : Host.Outcome State Fault Refusal :=
  runSyl (.tlbiPart t) (tlbiM t true fun e _ p => e.part == p) s
/-- `tlbi.all` (R171): x(b) is ignored. (DEDUCED, log 21.) -/
def execTlbiAll (t : TlbiArgs) (s : State) : Host.Outcome State Fault Refusal :=
  runSyl (.tlbiAll t) (tlbiM t false fun _ _ _ => true) s

/-- Nothing that had reached the banks of a slice is left there (R172): no tagged operation waits, and no engine command that accesses
it in one go runs. A copy stops at its next sector. (DEDUCED, log 112.) -/
def sliceQuiet (s : State) (core : Nat) : Bool :=
  !(s.bank.any fun b => !b.here && isSlice b.key && keyCore b.key == core) &&
    !((s.cores.flatMap fun p => p.2.qs.toList.flatMap id).any fun c =>
      c.phase == .running && c.q != 0 && c.q != 3 && c.foot.any fun f => isSlice f.lo && keyCore f.lo == core)

/-- `quiesce.hold` (R172): the slice is held from the moment no other context holds it, and the instruction completes once what had
reached the banks has left them. -/
def execQuiesceHold (a : Src) (s : State) : Host.Outcome State Fault Refusal :=
  runSyl (.quiesceHold a) (do
    let v ← readSrc a
    limit (decide (v.toNat < 512))
    let s ← get
    let hold (s : State) : State := s.updCore v.toNat fun k => { k with holder := some s.cur }
    match (s.core v.toNat).holder with
    | some c => await (c == s.cur && sliceQuiet s v.toNat)
    | none => if sliceQuiet s v.toNat then modify hold else holdWith hold) s

/-- `quiesce.rel` (R172). -/
def execQuiesceRel (a : Src) (s : State) : Host.Outcome State Fault Refusal :=
  runSyl (.quiesceRel a) (do
    let v ← readSrc a
    limit (decide (v.toNat < 512))
    modify fun s => s.updCore v.toNat fun k => { k with holder := if k.holder = some s.cur then none else k.holder }) s

/-- `pgrel` (R173, R311, R312): the page enters the quarantine queue with Q + 2. -/
def execPgrel (big : Bool) (d : Reg) (a : Src) (s : State) : Host.Outcome State Fault Refusal :=
  runSyl (.pgrel big d a) (do
    let v ← readSrc a
    check (v.toNat % (if big then 2 ^ 29 else 2 ^ 16) == 0) cMisaligned v
    let s ← get
    await (decide (s.quarantine.length < 1024))
    modify fun s => { s with quarantine := s.quarantine ++ [⟨v.toNat, big, s.qcount + 2⟩] }
    writeReg d (w64 (s.qcount + 2))) s

/-- Words of an image at a local offset, read by the running context. -/
def readImage (off : Nat) : M (List W64) := do
  let n ← loadLocal off 1024 false
  return (List.range 128).map fun i => w64 (n / 2 ^ (64 * i))

/-- Words as the bytes of one number, lowest address first. -/
def wordsNat : List W64 → Nat
  | [] => 0
  | w :: t => w.toNat + 2 ^ 64 * wordsNat t

/-- `ctxsave` (R174, R176): a status at once, or a request for the unit's pre-emption and, once it is saved, the image. Context numbers 6
and 7, which no core has, hold no unit. (DESIGN CHOICE, log 128.) -/
def execCtxsave (d : Reg) (a : Src) (b : Src) (s : State) : Host.Outcome State Fault Refusal :=
  runSyl (.ctxsave d a b) (do
    let v ← readSrc a
    let o ← readSrc b
    limit (decide (v.toNat < 4096))
    check (o.toNat % 1024 == 0) cMisaligned o
    let c ← getMe
    let s ← get
    let t := v.toNat
    match c.wait with
    | .saved h t' =>
      match s.saved.find? fun x => x.handle == h with
      | some sv =>
        let (s1, op) := opaqueWords s 35
        set s1
        let x := ((sv.ctxs.find? fun p => p.1 == t' % 8).map (·.2)).getD {}
        let img := imageOf sv x op
        storeLocal (o.toNat % 2 ^ 23) 1024 (wordsNat img) false
        modify fun s => { s with saved := s.saved.map fun y => if y.handle = h then { y with image := img, named := t' % 8 } else y }
        writeReg d 0
      | none => writeReg d 1
    | _ =>
      if 6 ≤ t % 8 then writeReg d 1
      else if 3 ≤ t % 8 then writeReg d 2
      else
        match unitOf s t with
        | none => writeReg d 1
        | some (lane, u) =>
          if coreOf t = coreOf s.cur ∧ (unitCtxs (coreOf t) lane u).contains s.cur then writeReg d 3
          else if (u.saver.getD s.cur) = s.cur then
            holdWith fun s =>
              let s := s.setMe (s.me.setWait (.ctxsave t))
              wakeUnit (setUnit s (coreOf t) lane (some { u with saver := some s.cur })) (coreOf t) lane u
          else waitM) s

/-- The status of a `ctxload` that cannot be performed (R175), the tests in the order of its list. (DEDUCED, log 22.) -/
def loadStatus (s : State) (t : Nat) (img : List W64) : Nat :=
  match s.saved.find? fun x => x.suspended && w64 x.handle == img.getD 120 0 with
  | none => 1
  | some sv =>
    if ((List.range 35).any fun i => img.getD (85 + i) 0 != sv.image.getD (85 + i) 0) then 2
    else if !laneFree s (coreOf t) sv.lane sv.unit.triple then 3
    else if coreOf t / 128 ≠ sv.core / 128 then 4
    else if bits (img.getD 65 0) 3 1 ≠ 0 ∨ 2 < (img.getD 66 0).toNat then 5
    else 0

/-- `ctxload` (R175). -/
def execCtxload (d : Reg) (a : Src) (b : Src) (s : State) : Host.Outcome State Fault Refusal :=
  runSyl (.ctxload d a b) (do
    let v ← readSrc a
    let o ← readSrc b
    check (o.toNat % 1024 == 0) cMisaligned o
    let img ← readImage (o.toNat % 2 ^ 23)
    let s ← get
    let t := v.toNat % 4096
    let st := loadStatus s t img
    if st = 0 then
      match s.saved.find? fun x => w64 x.handle == img.getD 120 0 with
      | some sv =>
        set (resumeUnit s { sv with ctxs := sv.ctxs.map fun (i, x) => if i = sv.named then (i, editCtx x img) else (i, x) }
          (coreOf t))
      | none => pure ()
    writeReg d (w64 st)) s

/-- A context that is running or waiting for its unit: what `ctxkill` may name (R177). -/
def ctxLive (x : Ctx) : Bool :=
  match x.run with
  | .off | .halted | .killed => false
  | _ => true

/-- Kills a context of a suspended unit (R177, R419): its state stands apart from any core while it is retired, and the save
handle is released with the rest of the unit. -/
def killSaved (s : State) (sv : SavedUnit) (n : Nat) : State :=
  let s := { s with saved := s.saved.filter fun x => x.handle != sv.handle }
  sv.ctxs.foldl (fun s (i, x) =>
    let c := 4096 + 8 * sv.core + i
    let s := s.setCtx c x
    let (slot, rep) := resumePoint x
    let s := if i = n then killCtx s c 2 0 (epcWord x.pc slot rep) 0 else retireCtx s c
    dropHolds (s.setCtx c {}) (savedName sv.handle i)) s

/-- `ctxkill` (R177): CTX_KILLED with kind 2. Of a live context and suspended units of one number x(a) names the live one, and of several
suspended ones the first saved. (DESIGN CHOICE, log 126.) -/
def execCtxkill (d : Reg) (a : Src) (s : State) : Host.Outcome State Fault Refusal :=
  runSyl (.ctxkill d a) (do
    let v ← readSrc a
    limit (decide (v.toNat < 4096))
    let s ← get
    let t := v.toNat
    if t = s.cur then writeReg d 1
    else if t % 8 < 6 ∧ ctxLive (s.ctx t) then
      let x := s.ctx t
      let (slot, rep) := resumePoint x
      modify fun s => killCtx s t 2 0 (epcWord x.pc slot rep) 0
      writeReg d 0
    else
      match s.saved.find? fun y => y.suspended && y.core == coreOf t && (y.ctxs.any fun p => p.1 == t % 8) with
      | some sv =>
        modify fun s => killSaved s sv (t % 8)
        writeReg d 0
      | none => writeReg d 1) s

end Sys2Proof.Machine
end

