-- ==== Sys2Proof/Machine/PreemptEvents.lean ====
section
/-! DEFINITION. Pre-emption requests and saves (R47, R174, R241, R333, R462, R463), the limits on running time (R49, R461), and the
events that end a context's wait (R156, R408, R420). -/

namespace Sys2Proof.Machine

/-- A unit by the key of its lane: 8 × core + lane. -/
def unitAt (s : State) (key : Nat) : Option UnitSt := (s.core (key / 8)).units.toList.getD (key % 8) none

/-- A context at a pre-emption point, or one that issues nothing more (R47). -/
def Ctx.atPoint (x : Ctx) : Bool :=
  match x.run with
  | .stopped | .atStep | .ended | .halted | .killed => true
  | _ => false

/-- Saves a unit; the `ctxsave` that asked for it learns the handle (R174). -/
def saveNow (s : State) (core lane : Nat) (u : UnitSt) (forced : Bool) : State :=
  let (s, h) := saveUnit s core lane u forced u.saver.isSome
  match u.saver with
  | none => s
  | some w => s.updCtx w fun x => { x with waits := x.waits.map fun v =>
      match v with
      | .ctxsave t => .saved h t
      | v => v }

/-- Every command of a unit's contexts has completed, waits on a page request, or stands in its queue behind one of the unit's that
waits (R47, R449). -/
def drained (s : State) (core : Nat) (cs : List Nat) : Bool :=
  (List.range 5).all fun q =>
    (((s.core core).queue q).foldl (fun (a : Bool × Bool) c =>
      if !cs.contains c.ctx || c.phase == .finished then a
      else if c.phase == .waiting then (a.1, true)
      else (a.1 && a.2 && c.phase == .queued, a.2)) (true, false)).1

/-- A unit whose request has been withdrawn, or has lost its target, goes on from its pre-emption point (R380). -/
def goOn (s : State) (core lane : Nat) (u : UnitSt) : State :=
  if u.atTend then nextRecord s core lane u
  else (unitCtxs core lane u).foldl (fun s c => if (s.ctx c).run = .stopped then s.updCtx c fun x => { x with run := .live } else s) s

/-- PREEMPTION_SAVE (R47, R241, R408): every context of the unit stands at a pre-emption point, its commands have completed, and
its register writes have arrived. -/
def execPreemptionSave (ctx : Nat) (s : State) : Host.Outcome State Fault Refusal :=
  runEvent (modify fun s =>
    match unitOf s ctx with
    | none => s
    | some (lane, u) =>
      let cs := unitCtxs (coreOf ctx) lane u
      let points := cs.all fun c => (s.ctx c).atPoint
      if !stopsFor s (coreOf ctx) lane u && points && !u.forced then goOn s (coreOf ctx) lane u
      else if !u.forced && (cs.all fun c => (s.ctx c).atPoint && !banked s c && (s.ctx c).before.isNone) && drained s (coreOf ctx) cs
      then saveNow s (coreOf ctx) lane u false else s) s

/-- A request that the scheduler may make (R333): job j in favour of which the unit of a lane would be pre-empted. (DEDUCED, log 53.) -/
def mayRequest (s : State) (victim job : Nat) : Bool :=
  let j := s.job job
  let work := j.left + (s.saved.filter fun v => !v.suspended && v.unit.job == job).length
  let all := s.cores.flatMap fun (i, k) => (k.units.toList.zipIdx).filterMap fun (u, lane) => u.map fun u => (8 * i + lane, u)
  let out := (all.filter fun p => p.2.req == some job).length
  match unitAt s victim with
  | none => false
  | some u =>
    let k := s.job u.job
    j.fin == 0 && !j.cancelled && decide (out < work) && !pendingFor s (victim / 8) (victim % 8) u && j.covers (victim / 8) && keyGt j k &&
      decide (8 ≤ j.prio ∨ k.prio < j.prio) && !(j.dies.any fun d => freeOn s j d) &&
      (all.all fun (i, v) => i == victim || pendingFor s (i / 8) (i % 8) v || !j.covers (i / 8) ||
        (!keyGt k (s.job v.job) && (keyGt (s.job v.job) k || decide (v.began ≤ u.began))))

/-- PREEMPTION_REQUEST (R333, R156). -/
def execPreemptionRequest (victim : Nat) (job : Nat) (s : State) : Host.Outcome State Fault Refusal :=
  runEvent (modify fun s =>
    if !mayRequest s victim job then s
    else
      match unitAt s victim with
      | none => s
      | some u =>
        wakeUnit (setUnit s (victim / 8) (victim % 8) (some { u with req := some job })) (victim / 8) (victim % 8) u) s

/-- Forced pre-emption begins (R462, R241): every context of the unit stops where it stands, and the `rrot`s of the launch on the
cluster that have not begun fail on all eight cores. -/
def forceUnit (s : State) (core lane : Nat) (u : UnitSt) : State :=
  let s := setUnit s core lane (some { u with forced := true })
  let s := (clusterCmds s (core / 8) fun c => c.job == u.job && isRrot c.instr && c.phase == .queued && c.rest == .all).foldl
    (fun s (i, c) => failCmd s i c cEngine 2) s
  (unitCtxs core lane u).foldl (fun s c =>
    s.updCtx c fun x => match x.run with
      | .live | .idle => { x with run := .stopped }
      | _ => x) s

/-- A context leaves what it stands at to take a fault before its next bundle (R407). -/
def faultBefore (s : State) (c : Nat) (cause : BitVec 8) (v : W64) : State :=
  (leavePoint s c).updCtx c fun x => { x with before := some (cause, v) }

/-- Whether a context counts cycles: it is resident and runs. (DEDUCED, log 44.) -/
def Ctx.resident (x : Ctx) : Bool :=
  match x.run with
  | .live | .atStep | .ended | .stopped | .idle => true
  | _ => false

/-- WATCHDOG_EXPIRY (R49, R461, R462): the count of a role context has reached climit once more. -/
def execWatchdogExpiry (ctx : Nat) (s : State) : Host.Outcome State Fault Refusal :=
  runEvent (modify fun s =>
    let x := s.ctx ctx
    match unitOf s ctx with
    | none => s
    | some (lane, u) =>
      let lim := (s.job u.job).climit
      if !x.resident || u.forced || lim = 0 || decide (x.wdog.toNat < lim * (x.expired + 1)) then s
      else
        let s := s.updCtx ctx fun x => { x with expired := x.expired + 1 }
        if pendingFor s (coreOf ctx) lane u then forceUnit s (coreOf ctx) lane u else faultBefore s ctx cWatchdog (w64 lim)) s

/-- A command that still runs for a forced stop (R463): a copy parks, and so does what waits on a page. -/
def stillRuns (c : Cmd) : Bool := c.phase == .running && c.q != 0 && c.q != 3

/-- FORCED_PREEMPTION_SAVE (R463, R464): every engine has reached its stop, register writes have arrived and the launch unit has
answered. (DEDUCED, log 52.) -/
def execForcedPreemptionSave (ctx : Nat) (s : State) : Host.Outcome State Fault Refusal :=
  runEvent (modify fun s =>
    match unitOf s ctx with
    | none => s
    | some (lane, u) =>
      let core := coreOf ctx
      let cs := unitCtxs core lane u
      let asks (c : Nat) : Bool := (s.ctx c).waits.toList.any fun w => match w with
        | .launch _ => true
        | _ => false
      if u.forced && (cs.all fun c => (s.ctx c).atPoint && !asks c && !banked s c) &&
          !(((s.core core).qs.toList.flatMap id).any fun c => cs.contains c.ctx && stillRuns c)
      then saveNow s core lane u true else s) s

/-- HANDLER_LIMIT_EXPIRY (R32, R166, R461), by the limit that stood when the handler started. -/
def execHandlerLimitExpiry (ctx : Nat) (s : State) : Host.Outcome State Fault Refusal :=
  runEvent (modify fun s =>
    let x := s.ctx ctx
    let lim := x.hlimit
    if !isHandler ctx || !x.resident || decide (x.wdog.toNat < lim.toNat * (x.expired + 1)) then s
    else faultBefore (s.updCtx ctx fun x => { x with expired := x.expired + 1 }) ctx cWatchdog lim) s

/-- WAKE_TIME_REACHED (R156). -/
def execWakeTimeReached (ctx : Nat) (s : State) : Host.Outcome State Fault Refusal :=
  runEvent (modify fun s =>
    let x := s.ctx ctx
    if x.run == .idle && x.wake != 0 && decide (x.wake.toNat ≤ s.time) then s.setCtx ctx { x with run := .live } else s) s

/-- ASYNC_FAULT_DELIVERY (R408, R416): to a context at trap level 0, wherever it waits, but not once it is forcibly stopped (R466). -/
def execAsyncFaultDelivery (ctx : Nat) (s : State) : Host.Outcome State Fault Refusal :=
  runEvent (modify fun s =>
    let x := s.ctx ctx
    let forced := match unitOf s ctx with
      | some (_, u) => u.forced
      | none => false
    if x.resident && x.tlevel == 0 && x.between && !forced then
      if (nextFailed s ctx).isSome then deliverAsync s ctx
      else
        match x.miss with
        | some v => deliverMiss s ctx v
        | none => s
    else s) s

/-- Whether an outcome leaves context c at the bundle, slot and repetition where it stood. -/
def stays (s : State) (c : Nat) (o : Host.Outcome State Fault Refusal) : Bool :=
  match o with
  | .next t =>
    (t.ctx c).pc == (s.ctx c).pc && (t.ctx c).tlevel == (s.ctx c).tlevel && (t.ctx c).run == .live &&
      resumePoint (t.ctx c) == resumePoint (s.ctx c)
  | _ => false

/-- The meaning of a syllable that can wait at issue: at a tag, a chute, a timeline, a group object, the rendezvous or the arbiter
(R26, R408). -/
def issueWaiter (i : Instr) : Option (State → Host.Outcome State Fault Refusal) :=
  match i with
  | .ldf m => some (execLdf m)
  | .ste m => some (execSte m)
  | .tlwait a => some (execTlwait a)
  | .bwait g b => some (execBwait g b)
  | .cunbind port => some (execCunbind port)
  | .send d a b n => some (execSend d a b n)
  | .pacq n => some (execPacq n)
  | .step => some execStep
  | _ => none

/-- A bundle with S = 0 issues as one unit (R26, R116): while slot 1 would wait, slot 0 does not execute either, and the bundle is
recorded at slot 0 (R408). The state in which the context waits, or none where slot 1 does not hold the bundle back. (DEDUCED, log 10.) -/
def heldBySlot1 (s : State) (c : Nat) : Option State :=
  match (s.ctx c).iss with
  | none => none
  | some i =>
    let h := unpackHeader i.hdr
    if i.slot1 || h.s || i.rep.isSome then none
    else
      match decodeSyllable true h.bimm i.s1 with
      | .error _ => none
      | .ok i1 =>
        match issueWaiter i1 with
        | none => none
        | some f =>
          match f (s.updCtx c fun x => { x with iss := some { i with slot1 := true, syl := i.s1 } }) with
          | .next t =>
            match (t.ctx c).iss with
            | some j => if j.waited then some (unissue (t.updCtx c fun x => { x with iss := some i }) c) else none
            | none => none
          | _ => none

/-- A live context whose next bundle, or the rest of whose bundle, would wait now (R26). -/
def waitsNow (s : State) (c : Nat) : Bool :=
  match turn s c with
  | .done t => stays s c (.next t)
  | .stuck _ => false
  | .run i t =>
    if (heldBySlot1 t c).isSome then true else
    match i with
    | .tlwait a => stays t c (execTlwait a t)
    | .send d a b n => stays t c (execSend d a b n t)
    | .pgrel g d a => stays t c (execPgrel g d a t)
    | .quiesceHold a => stays t c (execQuiesceHold a t)
    | .haltBundle => stays t c (execHaltBundle t)
    | .trap _ => !(s.ctx c).pend.isEmpty
    | _ => (s.ctx c).wait != .none || s.bank.any fun b => b.ctx == c && b.here

/-- CANCEL_WAIT_TIMEOUT (R420, R471): a role context of a cancelled job that waits, or that stands at a pre-emption point, stops. -/
def execCancelWaitTimeout (ctx : Nat) (s : State) : Host.Outcome State Fault Refusal :=
  runEvent (modify fun s =>
    let x := s.ctx ctx
    if isHandler ctx || !(s.job x.job).cancelled || (unitOf s ctx).isNone then s
    else
      match x.run with
      | .idle | .atStep | .ended | .stopped => stopCancelled s ctx
      | .live => if waitsNow s ctx then stopCancelled s ctx else s
      | _ => s) s

end Sys2Proof.Machine
end

