-- ==== Sys2Proof/Machine/Rail.lean ====
section
/-! DEFINITION. Rails (R370, R371, R380) and the effective profile of a matrix command (R327, R384). -/

namespace Sys2Proof.Machine

/-- The level table entry under which an instance's launch runs (R322, R327). -/
def levelEntry (s : State) (j : Job) : Nat :=
  if j.strm then bits ((s.stream (bits (j.w 17) 12 0)).desc.getD 9 0) (16 * (j.level % 4) + 15) (16 * (j.level % 4)) else 0

/-- The profile offset of a launch (R327, R384). -/
def profOff (s : State) (j : Job) : Nat := levelEntry s j % 16

/-- The effective profile of an array command (R384): for `mgo` once it has taken its configuration over. -/
def effProf (c : Cmd) : Nat :=
  match c.instr with
  | .mgo _ => min 15 (bits (mapGet 0 c.cfg 0) 19 16 + (c.vals.getD 0 0).toNat)
  | _ => min 15 (c.prof.toNat + (c.vals.getD 4 0).toNat)

/-- The command that runs on a core's array (R213): one of its own, or one that it has taken from a sibling (R230). -/
def arrayCmd (s : State) (core : Nat) : Option Cmd :=
  let runs (c : Cmd) : Bool := onArray c.instr && c.started && (c.phase == .running || c.phase == .waiting)
  match ((s.core core).queue 1).find? fun c => runs c && c.runner.isNone with
  | some c => some c
  | none => (List.range 8).findSome? fun i =>
      ((s.core (core / 8 * 8 + i)).queue 1).find? fun c => runs c && c.runner == some core

/-- The physical point behind a state of a partition (R371). -/
def physPoint (s : State) (part v : Nat) : Nat := bits (win s 0 (0x2000 + 16 * part)) (8 * v + 7) (8 * v)

/-- The base rail of a launch on a die: low where true (R370). (DEDUCED, log 49.) -/
def baseLow (s : State) (j : Job) (die : Nat) : Bool :=
  if j.strm then bit ((s.stream (bits (j.w 17) 12 0)).desc.getD 0 0) 53
  else (physPoint s j.fn (voteOf s j.fn die)).testBit 4

/-- The rail request of a core that holds a launch: low where true (R370). Where it holds several, its base rail is low when each of
them asks for it. -/
def railRequest (s : State) (core : Nat) : Option Bool :=
  let us := (s.core core).units.toList.filterMap id
  if us.isEmpty then none
  else
    let base := us.all fun u => baseLow s (s.job u.job) (core / 128)
    match arrayCmd s core with
    | none => some base
    | some c =>
      let j := s.job c.job
      if !profLow j (effProf c) then some false
      else if j.strm && !baseLow s j (core / 128) then some base
      else some true

/-- A cluster runs on the low rail (R370, R380). -/
def clusterLow (s : State) (cl : Nat) : Bool :=
  (s.cluster cl).throttle != 0 || ((List.range 8).all fun i => (railRequest s (8 * cl + i)).getD true)

/-- The replay timing of an array command is in force on a core (R384, R496). -/
def replaying (s : State) (core : Nat) (c : Cmd) : Bool :=
  profReplay (s.job c.job) (effProf c) && clusterLow s (core / 8) && !(s.cluster (core / 8)).ban

/-- One pass run under replay timing (R384, R496): a free value says whether it has an error, and another whether its rerun has. The
answer is true where the rerun fails. -/
def replayPass (s : State) (core : Nat) : State × Bool :=
  let cl := core / 8
  let d := core / 128
  let e1 := bit (Config.freeWord s.free) 0
  let e2 := e1 && bit (Config.freeWord (s.free + 1)) 0
  let s := { s with free := s.free + 2 }
  let s := s.updCluster cl fun k => { k with passes := k.passes + 1, reruns := k.reruns + (if e1 then 1 else 0) }
  let k := s.cluster cl
  let s := if e2 ∨ k.passes < 64 * k.reruns then s.setCluster cl { k with ban := true } else s
  let s := if e1 then setWin s 0 (0x1058 + 8 * d) (w64 (min (2 ^ 32 - 1) ((win s 0 (0x1058 + 8 * d)).toNat + 1))) else s
  (s, e2)

/-- The passes of a K step, those under replay timing checked (R384): true where one fails. -/
def runPasses (s : State) (core : Nat) (c : Cmd) : Nat → State × Bool
  | 0 => (s, false)
  | n + 1 =>
    if replaying s core c then
      match replayPass s core with
      | (s, true) => (s, true)
      | (s, false) => runPasses s core c n
    else (s, false)

end Sys2Proof.Machine
end

