-- ==== Sys2Proof/Machine/PowerEvents.lean ====
section
/-! DEFINITION. Current, rails, heat, telemetry and errors of the memory (R368 to R382, R490 to R499). -/

namespace Sys2Proof.Machine

/-! ### Declared current -/

/-- The role context of a core that holds the largest level, the lowest-numbered among equals; with no level held, the context that
enqueued the oldest engine command still running (R376). -/
def overdrawn (s : State) (core : Nat) : Option Nat :=
  let held (i : Nat) : Nat := (s.ctx (8 * core + i)).held
  let top := [0, 1, 2].foldl (fun b i => if held b < held i then i else b) 0
  if held top ≠ 0 then some (8 * core + top)
  else
    let cs := ((s.core core).qs.toList.flatMap id).filter fun c => c.phase == .running
    match cs with
    | [] => none
    | a :: t => some (t.foldl (fun b c => if c.born < b.born then c else b) a).ctx

/-- POWER_WINDOW_ESTIMATE (R376, R490): the estimate of a window against the core's declared level. -/
def execPowerWindowEstimate (core : Nat) (est : Nat) (s : State) : Host.Outcome State Fault Refusal :=
  runEvent (modify fun s =>
    let waits := (List.range 6).any fun i => match (s.ctx (8 * core + i)).before with
      | some (c, _) => c == cOverdraw
      | none => false
    if est ≤ declared s core ∨ (s.core core).overBy.isSome ∨ waits then s
    else
      match overdrawn s core with
      | none => s
      | some c => if (s.ctx c).before.isSome || (s.ctx c).over_ then s else faultBefore s c cOverdraw (w64 est)) s

/-- A waiting request stands ahead of another (R374): by the key of its job, then in order of arrival; one that a throttled cluster
withholds (R380) holds nobody back. -/
def aheadOf (s : State) (ctx : Nat) : List (Nat × Nat) → Bool → Bool
  | [], _ => false
  | (c, _) :: t, before =>
    if c = ctx then aheadOf s ctx t false
    else
      let j := s.job (s.ctx c).job
      let mine := s.job (s.ctx ctx).job
      ((s.cluster (clusterOf c)).throttle == 0 && (keyGt j mine || (before && !keyGt mine j))) || aheadOf s ctx t before

/-- The arbiter can grant a waiting request (R373, R374, R380): the base level always, a level above it in the order of the requests
while the pool lasts and the cluster is not throttled. (DEDUCED, log 99.) -/
def canGrant (s : State) (ctx n : Nat) : Bool :=
  let d := dieOf ctx
  !(s.die d).lost && (decide (n ≤ 4) || ((s.cluster (clusterOf ctx)).throttle == 0 && !aheadOf s ctx (s.die d).waiters true &&
    decide (poolUsed (s.updCtx ctx fun x => { x with held := n }) d ≤ bits (win s 0 (0x2400 + 8 * d)) 12 0)))

/-- The rail of a context's cluster, with the rail marked in bit 2 (R491). -/
def railMark (s : State) (ctx : Nat) : Nat :=
  let d := s.die (dieOf ctx)
  if clusterLow s (clusterOf ctx) then d.low.setting + 4 else d.high.setting

/-- A rail whose fall no longer waits for a context. -/
def Rail.forget (r : Rail) (ctx : Nat) : Rail := { r with fall := r.fall.map fun (t, l) => (t, l.filter (· != ctx)) }

/-- PACQ_GRANT (R374, R375, R491). The request that stands is that of the context's present trap level. -/
def execPacqGrant (ctx : Nat) (s : State) : Host.Outcome State Fault Refusal :=
  runEvent (modify fun s =>
    match (s.die (dieOf ctx)).waiters.find? fun w => w.1 == ctx with
    | none => s
    | some (_, n) =>
      if !canGrant s ctx n then s
      else
        let m := railMark s ctx
        let s := s.updDie (dieOf ctx) fun d => { d with
          waiters := d.waiters.filter fun w => w.1 != ctx
          high := d.high.forget ctx
          low := d.low.forget ctx }
        s.updCtx ctx fun x =>
          let y := { x with held := n, heldAt := m, release := none }
          match x.wait with
          | .pacq k _ => y.setWait (.granted k)
          | _ => y) s

/-- A level that waits for its commands can fall (R375). -/
def canRelease (s : State) (ctx : Nat) : Bool :=
  match (s.ctx ctx).release with
  | some l => l.all fun p => !(ownCmds s ctx).contains p
  | none => false

/-- LEVEL_RELEASE (R375). -/
def execLevelRelease (ctx : Nat) (s : State) : Host.Outcome State Fault Refusal :=
  runEvent (modify fun s => if canRelease s ctx then s.updCtx ctx fun x => { x with held := 0, release := none } else s) s

/-! ### Rails -/

/-- What counts in a rail's setting (R369): the partitions with a unit on a cluster that stands on the rail, with their votes. -/
def railVotes (s : State) (die : Nat) (low : Bool) : List (Nat × Nat) :=
  (s.cores.flatMap fun (i, k) =>
    if i / 128 = die ∧ clusterLow s (i / 8) = low then
      k.units.toList.filterMap fun u => u.map fun u =>
        let p := (s.job u.job).fn
        (p, voteOf s p die)
    else []).dedup

/-- The setting to which votes map (R369, R371), at least 2 on a rail that carries a cluster of an admitted stream that
names the rail. (DEDUCED, log 79.) -/
def railSetting (s : State) (die : Nat) (low : Bool) (votes : List (Nat × Nat)) : Nat :=
  let v := votes.foldl (fun m (p, v) => max m (let b := physPoint s p v; if low then b / 4 % 4 else b % 4)) 0
  let floor := s.streams.any fun (_, st) => st.status != 0 && st.die == die && sdLow st.desc == low &&
    (List.range 16).any fun c => st.clusters.testBit c && clusterLow s (16 * die + c) == low
  if floor then max v 2 else v

/-- The contexts whose levels were granted on a rail at its present setting (R491). -/
def levelsAt (s : State) (die mark : Nat) : List Nat :=
  (s.ctxs.filter fun (c, x) => dieOf c == die && x.held != 0 && x.heldAt == mark).map (·.1)

/-- A rail follows its votes (R369, R491): a rise at once, a fall too unless a partition's leave has caused it. -/
def settleRail (s : State) (die : Nat) (low : Bool) (r : Rail) : Rail :=
  let votes := railVotes s die low
  let new := railSetting s die low votes
  if r.setting ≤ new then { setting := new, counted := votes, fall := none }
  else if r.fall.isSome then { r with counted := votes }
  else if new < railSetting s die low r.counted then
    { r with counted := votes, fall := some (s.time, levelsAt s die (r.setting + if low then 4 else 0)) }
  else { setting := new, counted := votes, fall := none }

/-- Both rails of every die follow their votes (R369). -/
def settleRails (s : State) : State :=
  [0, 1, 2, 3].foldl (fun s d =>
    if (s.die d).lost then s
    else
      let x := s.die d
      let s := s.setDie d { x with high := settleRail s d false x.high }
      let x := s.die d
      s.setDie d { x with low := settleRail s d true x.low }) s

/-- A deferred fall can take place (R491): the levels that it waits for are 0, or 50 µs have passed. -/
def fallDue (s : State) (r : Rail) : Bool :=
  match r.fall with
  | some (t, l) => (l.all fun c => (s.ctx c).held == 0) || decide (t + 50000 ≤ s.time)
  | none => false

/-- DEFERRED_RAIL_FALL (R491). -/
def execDeferredRailFall (die : Nat) (low : Bool) (s : State) : Host.Outcome State Fault Refusal :=
  runEvent (modify fun s =>
    let d := s.die die
    let r := if low then d.low else d.high
    if !fallDue s r then s
    else
      let votes := railVotes s die low
      let r : Rail := { setting := railSetting s die low votes, counted := votes, fall := none }
      s.setDie die (if low then { d with low := r } else { d with high := r })) s

/-! ### Heat -/

/-- Raises or withdraws the migration request of every unit of a core (R380). -/
def askMigrate (s : State) (core : Nat) (on : Bool) : State :=
  let s := s.updCore core fun k => { k with units := k.units.map fun u => u.map fun u => { u with migrate := on } }
  if on then
    [0, 1, 2].foldl (fun s lane => match (s.core core).units.toList.getD lane none with
      | some u => wakeUnit s core lane u
      | none => s) s
  else s

/-- THERMAL_SAMPLE (R380, R492, R494, R495): the trips of 95, 105 and 115 °C, and their clear points. (DEDUCED, log 89.) -/
def execThermalSample (core : Nat) (temp : Nat) (s : State) : Host.Outcome State Fault Refusal :=
  runEvent (modify fun s =>
    let die := core / 128
    if (s.die die).lost then s
    else
      let cl := core / 8
      let i := core % 8
      let trip := if 95 ≤ temp then 1 else if temp < 90 then 0 else (s.core core).trips
      let s := s.updCore core fun k => { k with temp, trips := trip }
      let s := if trip = 1 then askMigrate s core true else askMigrate s core false
      let k := s.cluster cl
      let t := if 105 ≤ temp then k.throttle ||| 2 ^ i else if temp < 100 ∧ k.throttle.testBit i then k.throttle - 2 ^ i else k.throttle
      let s := s.setCluster cl { k with throttle := t, tripped := k.tripped || t != 0, maxTemp := max k.maxTemp temp }
      let s := if k.throttle = 0 ∧ t ≠ 0 then shedDie s true die else s
      if 115 ≤ temp then declareLost s die else s) s

/-! ### Telemetry -/

/-- Two 32-bit numbers as a word. -/
def two32 (hi lo : Nat) : W64 := w64 (hi % 2 ^ 32 * 2 ^ 32 + lo % 2 ^ 32)

/-- A die's telemetry record (R381): powers, currents and energies are free values, but that a partition of which nothing ran on the die
in the interval is charged nothing (R382, R500). (DESIGN CHOICE, log 90.) -/
def telemetryWords (s : State) (die time seq : Nat) : List W64 :=
  let d := s.die die
  let fw (i : Nat) : Nat := (Config.freeWord (s.free + i)).toNat
  let cl (c : Nat) : Cluster := s.cluster (16 * die + c)
  let energy (p : Nat) : Nat := if p < 33 ∧ p ∈ d.worked then fw (5 + p) else 0
  let trips := ((List.range 16).filter fun c => (cl c).tripped || (cl c).throttle != 0).length
  let temps (b : Nat) : W64 := w64 (bytesToNat ((List.range 8).map fun i => BitVec.ofNat 8 (min 255 (cl (8 * b + i)).maxTemp)))
  [w64 time, w64 (seq % 2 ^ 32 * 2 ^ 32 + die % 4 * 2 ^ 16 + trips * 2 ^ 8 + d.low.setting * 2 ^ 4 + d.high.setting),
   two32 (fw 0) (fw 1), two32 (fw 2) (fw 3), temps 0, temps 1, w64 (fw 4), 0] ++
    ((List.range 17).map fun i => two32 (energy (2 * i + 1)) (energy (2 * i))) ++ List.replicate 7 0

/-- The partitions that work on a core: those of its units, of its running handlers and of the commands in its engines (R382). -/
def workers (s : State) (core : Nat) : List Nat :=
  let k := s.core core
  (k.units.toList.filterMap fun u => u.map fun u => (s.job u.job).fn) ++
    ([3, 4, 5].filterMap fun i =>
      let x := s.ctx (8 * core + i)
      if x.run = .off then none else some (s.job x.job).fn) ++
    ((k.qs.toList.flatMap id).filterMap fun c => if c.phase = .running then some (s.job c.job).fn else none)

/-- Every partition that works while time passes is charged on its die (R382, R500). -/
def chargeAll (s : State) : State :=
  s.cores.foldl (fun t (i, _) => (workers s i).foldl (fun t p => charge t (i / 128) p) t) s

/-- Writes a record to the ring (R381, R387, R452): nowhere where the ring is disabled or cannot be written. -/
def pushRecord (s : State) (w : List W64) : State :=
  let r := win s 0 0x1000
  let n := (win s 0 0x1008).toNat
  if !bit r 63 then s
  else
    match devWriteWs s 0 (bits r 56 0 + 256 * (n % 2 ^ bits r 61 57)) w with
    | some s => signal (setWin s 0 0x1008 (w64 (n + 1))) 0 16
    | none => s

/-- A telemetry interval of a die ends at a time (R381, R382, R496): the record goes to the Evden controller, which holds the latest of
each die, and to the ring. -/
def endInterval (s : State) (die time : Nat) : State :=
  let d := s.die die
  let w := telemetryWords s die time (d.telem + 1)
  let energy := (List.range 33).foldl (fun m p =>
    mapPut p ((mapGet 0 m p + bits (w.getD (8 + p / 2) 0) (32 * (p % 2) + 31) (32 * (p % 2))) % 2 ^ 64) m) d.energy
  let s := pushRecord { s with free := s.free + 38, records := mapSet [] s.records die w } w
  let s := s.setDie die { d with telem := d.telem + 1, telemMs := time / 10 ^ 6, energy, worked := [] }
  { s with clusters := s.clusters.map fun (c, k) =>
      if c / 16 = die then (c, { k with passes := 0, reruns := 0, ban := false, tripped := k.throttle != 0, maxTemp := 0 }) else (c, k) }

/-- TELEMETRY_RECORD (R381): once in each millisecond of device time. -/
def execTelemetryRecord (die : Nat) (s : State) : Host.Outcome State Fault Refusal :=
  runEvent (modify fun s =>
    if (s.die die).lost ∨ s.time / 10 ^ 6 = (s.die die).telemMs then s else endInterval s die (s.time / 10 ^ 6 * 10 ^ 6)) s

/-! ### Errors of the memory -/

/-- The die whose counters an error of a granule moves (R499): that of its slice or of its stack. -/
def granuleDie (g : Nat) : Option Nat :=
  let k := 64 * g
  if isSlice k then some (keyCore k / 128) else if 2 ^ 58 ≤ k ∧ k < 2 ^ 58 + 2 ^ 39 then some ((k - 2 ^ 58) / 2 ^ 37) else none

/-- Adds to one half of a die's ecc word, saturating (R499). -/
def countError (s : State) (die : Nat) (fatal : Bool) : State :=
  let off := 0x1038 + 8 * die
  let v := win s 0 off
  let hi := bits v 63 32
  let lo := bits v 31 0
  if fatal then signal (setWin s 0 off (two32 (min (2 ^ 32 - 1) (hi + 1)) lo)) 0 20
  else setWin s 0 off (two32 hi (min (2 ^ 32 - 1) (lo + 1)))

/-- A granule is poisoned (R497, R499). -/
def poisonGranule (s : State) (g : Nat) : State :=
  match granuleDie g with
  | none => s
  | some d => if s.poison.contains g then s else countError { s with poison := g :: s.poison, latent := s.latent.filter (· != g) } d true

/-- PATROL_SCRUB (R497 to R499): a correctable error of the granule is corrected; poison is carried. -/
def execPatrolScrub (granule : Nat) (s : State) : Host.Outcome State Fault Refusal :=
  runEvent (modify fun s =>
    match granuleDie granule with
    | none => s
    | some d => if s.latent.contains granule then countError { s with latent := s.latent.filter (· != granule) } d false else s) s

/-- SOFT_ERROR_EVENT (R497, R498). Below 2^61 the key is the address of a granule; above, its bits [60:56] say what is hit: 0 the
registers of a context, 1 a tile of a core's matrix engine (core × 2^30 + tile), 2 the detector tags of a granule, 3 the full/empty tag
of a word. (DESIGN CHOICE, log 91.) -/
def execSoftErrorEvent (key : Nat) (fatal : Bool) (s : State) : Host.Outcome State Fault Refusal :=
  runEvent (modify fun s =>
    let i := key % 2 ^ 56
    if key < 2 ^ 61 then
      let g := key / 64
      if fatal then poisonGranule s g
      else if (granuleDie g).isNone ∨ s.poison.contains g ∨ s.latent.contains g then s
      else { s with latent := g :: s.latent }
    else
      match (key - 2 ^ 61) / 2 ^ 56 with
      | 0 => if !fatal || (s.ctx i).run == .off || (s.ctx i).over_ || (s.ctx i).before.isSome then s else faultBefore s i cPoison 0
      | 1 =>
        if fatal then s.updCore (i / 2 ^ 30) fun k =>
          { k with badTiles := if k.badTiles.contains (i % 2 ^ 30) then k.badTiles else (i % 2 ^ 30) :: k.badTiles }
        else s
      | 2 => if fatal then { s with det := mapSet {} s.det i {} } else s
      | 3 => if fatal then poisonGranule s (i / 8) else s
      | _ => s) s

end Sys2Proof.Machine
end

