-- ==== Sys2Proof/Machine/Clock.lean ====
section
/-! DEFINITION. The device clock (R395 to R397). -/

namespace Sys2Proof.Machine

/-- The clock at a count of nanoseconds: it has 64 bits (R16, R396). -/
def clockAt (n : Nat) : Nat := n % 2 ^ 64

/-- A forward step of the clock (R396, R397): a telemetry interval that it crosses ends at the step. -/
def stepClock (s : State) (n : Nat) : State :=
  let t := s.time + n
  let crossed := decide (s.time / 10 ^ 6 < t / 10 ^ 6)
  let s := { s with time := clockAt t, slew := 0, slewAcc := 0 }
  if crossed then [0, 1, 2, 3].foldl (fun s d => if (s.die d).lost then s else endInterval s d (clockAt t)) s else s

/-- An offset as cofs holds it (R387): signed, saturated. -/
def saturate32 (v : Int) : Int := max (-2 ^ 31) (min (2 ^ 31 - 1) v)

/-- A correction of the clock (R396): a backward one, or a forward one of up to 1 ms, is slewed, and a larger one is a step. The first
after reset is one forward step (R397). (DESIGN CHOICE, log 92.) -/
def correctClock (s : State) (offset : Int) : State :=
  let s := { s with cst := 1, cofs := saturate32 offset }
  if 0 < offset ∧ (¬ s.stepped ∨ 10 ^ 6 < offset) then stepClock { s with stepped := true } offset.toNat
  else { s with stepped := true, slew := offset, slewAcc := 0 }

/-- CLOCK_CORRECTION (R395, R396). -/
def execClockCorrection (offset : Int) (s : State) : Host.Outcome State Fault Refusal :=
  runEvent (modify fun s => correctClock s offset) s

/-- FIRST_CLOCK_STEP (R397): only the first correction after reset is this one. -/
def execFirstClockStep (offset : Int) (s : State) : Host.Outcome State Fault Refusal :=
  runEvent (modify fun s => if s.stepped then s else correctClock s offset) s

/-- SYNC_LOSS (R396): holdover, on the local oscillator. -/
def execSyncLoss (s : State) : Host.Outcome State Fault Refusal :=
  runEvent (modify fun s => if s.cst = 0 then s else { s with cst := 2, slew := 0, slewAcc := 0 }) s

/-- n nanoseconds of the oscillator pass (R396): of a slew, at most 200 ppm of them are added or left out. -/
def tickClock (s : State) (n : Nat) : State :=
  if s.slew = 0 then { s with time := clockAt (s.time + n), slewAcc := 0 }
  else
    let a := s.slewAcc + n
    let k := min (min (a / 5000) s.slew.natAbs) n
    if 0 ≤ s.slew then { s with time := clockAt (s.time + n + k), slew := s.slew - k, slewAcc := a - 5000 * k }
    else { s with time := clockAt (s.time + n - k), slew := s.slew + k, slewAcc := a - 5000 * k }

end Sys2Proof.Machine
end

