-- ==== Sys2Proof/Machine/Matrix.lean ====
section
/-! DEFINITION. The matrix instructions at the enqueuing bundle (R212, R231 to R241, R384, R430). -/

namespace Sys2Proof.Machine

/-- The token bits of an E-format command: ui, do, di, uo from bit 3 down (R120, R217). -/
def tokE (e : EArgs) : BitVec 4 := BitVec.ofBool e.ui ++ BitVec.ofBool e.dn ++ BitVec.ofBool e.di ++ BitVec.ofBool e.uo

/-- The issuing context's unit owns the matrix engine (R212). Where it does not, no rule states the value that the fault reports. (DESIGN CHOICE, log 42.) -/
def mxOwner : M Unit := do
  let s ← get
  engine (match unitOf s s.cur with
    | some (lane, u) => u.triple || lane == 1
    | none => false) (Config.freeWord s.free)

/-- Enqueues an MX command. The first one of a task is marked (R218, R219, R234), and an `rrot` takes its place among those that the
launch has enqueued on the core (R240). -/
def mxEnqueue (i : Instr) (e : EArgs) (vals : List W64) (ents : List Layout := []) : M Unit := do
  let s ← get
  let core := coreOf s.cur
  let job := s.me.job
  let n := mapGet 0 (s.job job).rrots core
  let fresh := match unitOf s s.cur with
    | some (_, u) => u.stale
    | none => false
  let _ ← enqueue { instr := i, q := 1, num := 0, ctx := 0, job := 0, lcore := 0, set := 0, tok := tokE e, vals, ents, total := 1, fresh, nth := n } e.arv
  if isRrot i then modify fun s => s.updJob job fun j => { j with rrots := mapSet 0 j.rrots core (n + 1) }
  modify fun s =>
    match unitOf s s.cur with
    | some (lane, u) => setUnit s core lane (some { u with stale := false })
    | none => s

/-- Fields of a descriptor pair (R232). -/
def descBase (lo : W64) : Nat := bits lo 23 0
/-- Row pitch. -/
def descPitch (lo : W64) : Nat := bits lo 43 24
/-- Rotation code. -/
def descQ (lo : W64) : Nat := bits lo 47 44
/-- Rows. -/
def descRows (hi : W64) : Nat := bits hi 31 24
/-- Rotation phase. -/
def descPhase (hi : W64) : Nat := bits hi 39 32

/-- The reserved bits and the counts of a descriptor pair (R231, R232). -/
def descEngine (p : W64 × W64) (rowsOk : Bool) : M Unit := do
  engine (bits p.1 63 48 == 0 && !bit p.1 23) p.1
  engine (bits p.2 63 40 == 0 && decide (descPhase p.2 ≤ 31) && rowsOk) p.2

/-- The alignment of a descriptor pair (R231, R232). -/
def descAligned (p : W64 × W64) : M Unit :=
  aligned (descBase p.1 % 32 == 0 && descPitch p.1 % (if descQ p.1 = 0 then 32 else 64) == 0) p.1

/-- The end of an operand of n rows of len bytes (R231, R232). -/
def descWithin (p : W64 × W64) (n len : Nat) : M Unit :=
  within (decide (descBase p.1 + (n - 1) * descPitch p.1 + len ≤ 2 ^ 23)) p.1

/-- The limits of the one descriptor pair of a command, in the order of R423. -/
def descCheck (p : W64 × W64) (rowsOk : Bool) (n len : Nat) : M Unit := do
  descEngine p rowsOk
  descAligned p
  descWithin p n len

/-- A local offset of an image or region (R231). (DEDUCED, log 54.) -/
def offCheck (v : W64) (al n : Nat) : M Unit := do
  aligned (v.toNat % al == 0) v
  within (decide (v.toNat + n ≤ 2 ^ 23)) v

/-- `mcfg` (R239). -/
def execMcfg (e : EArgs) (s : State) : Host.Outcome State Fault Refusal :=
  runSyl (.mcfg e) (do
    mxOwner
    let v ← readReg e.a false
    offCheck v 64 384
    mxEnqueue (.mcfg e) e [v]) s

/-- `mcfgr` (R239). -/
def execMcfgr (e : EArgs) (s : State) : Host.Outcome State Fault Refusal :=
  runSyl (.mcfgr e) (do
    mxOwner
    let v ← readReg e.a false
    mxEnqueue (.mcfgr e) e [v]) s

/-- `mgo` (R76, R226, R384): the profile offset is taken here, and the entries that its streams may name. -/
def execMgo (e : EArgs) (s : State) : Host.Outcome State Fault Refusal :=
  runSyl (.mgo e) (do
    mxOwner
    let s ← get
    mxEnqueue (.mgo e) e [w64 (profOff s (s.job s.me.job))] ((List.range 64).map fun l => entryOf s s.cur l)) s

/-- Bytes of an A row (R211). -/
def keff (sp : Nat) : Nat := if sp = 1 then 384 else if sp = 2 then 576 else 192
/-- Bytes of a B row, by the format's number in `mma` (R210). -/
def rowB (bf : Nat) : Nat := if bf = 0 then 32 else if bf = 1 then 64 else 128

/-- Fields of an `mma` syllable (R234). -/
def mmaFmt (e : EArgs) : Nat := (e.fn.extractLsb' 8 4).toNat
/-- Sparsity. -/
def mmaSp (e : EArgs) : Nat := (e.fn.extractLsb' 6 2).toNat

/-- `mma` (R234, R384). -/
def execMma (e : EArgs) (s : State) : Host.Outcome State Fault Refusal :=
  runSyl (.mma e) (do
    mxOwner
    let pa ← if e.fn.getLsbD 15 then readPair e.a else pure (0, 0)
    let pb ← if e.fn.getLsbD 13 then readPair e.b else pure (0, 0)
    let s ← get
    let off := profOff s (s.job s.me.job)
    let p := min 15 (s.me.prof.toNat + off)
    engine (profOk (s.job s.me.job) p) (w64 p)
    if e.fn.getLsbD 15 then descEngine pa (decide (1 ≤ descRows pa.2 ∧ descRows pa.2 ≤ 64))
    if e.fn.getLsbD 13 then descEngine pb true
    if e.fn.getLsbD 15 then descAligned pa
    if e.fn.getLsbD 13 then descAligned pb
    if e.fn.getLsbD 15 then descWithin pa (descRows pa.2) (keff (mmaSp e))
    if e.fn.getLsbD 13 then descWithin pb 192 (rowB (mmaFmt e))
    mxEnqueue (.mma e) e [pa.1, pa.2, pb.1, pb.2, w64 off]) s

/-- `acz` (R235). -/
def execAcz (e : EArgs) (s : State) : Host.Outcome State Fault Refusal :=
  runSyl (.acz e) (do
    mxOwner
    mxEnqueue (.acz e) e []) s

/-- The region of an `acmv` (R236). -/
def acmvM (i : Instr) (e : EArgs) : M Unit := do
  mxOwner
  let v ← readReg e.a false
  offCheck v 64 65536
  mxEnqueue i e [v]

/-- `acmv.st` (R236). -/
def execAcmvSt (e : EArgs) (s : State) : Host.Outcome State Fault Refusal := runSyl (.acmvSt e) (acmvM (.acmvSt e) e) s
/-- `acmv.ld` (R236). -/
def execAcmvLd (e : EArgs) (s : State) : Host.Outcome State Fault Refusal := runSyl (.acmvLd e) (acmvM (.acmvLd e) e) s

/-- The row length of a `zld` or `zst` (R233). -/
def zLen (e : EArgs) : Nat := 32 * ((e.fn.extractLsb' 0 9).toNat + 1)

/-- The operands of `zld` and `zst` (R237). -/
def zMoveM (i : Instr) (e : EArgs) : M Unit := do
  mxOwner
  let p ← readPair e.a
  let r := descRows p.2
  descCheck p (decide (1 ≤ r ∧ r * zLen e ≤ 12288)) r (zLen e)
  mxEnqueue i e [p.1, p.2]

/-- `zld` (R237). -/
def execZld (e : EArgs) (s : State) : Host.Outcome State Fault Refusal := runSyl (.zld e) (zMoveM (.zld e) e) s
/-- `zst` (R237). -/
def execZst (e : EArgs) (s : State) : Host.Outcome State Fault Refusal := runSyl (.zst e) (zMoveM (.zst e) e) s

/-- `zclr.e` (R237). -/
def execZclrE (e : EArgs) (s : State) : Host.Outcome State Fault Refusal :=
  runSyl (.zclrE e) (do
    mxOwner
    mxEnqueue (.zclrE e) e []) s

/-- `zclr.z` (R237). -/
def execZclrZ (e : EArgs) (s : State) : Host.Outcome State Fault Refusal :=
  runSyl (.zclrZ e) (do
    mxOwner
    mxEnqueue (.zclrZ e) e []) s

/-- Bytes that an `rrot` moves (R233). -/
def rrotLen (e : EArgs) : Nat := 64 * ((e.fn.extractLsb' 0 9).toNat + 1)

/-- The cores of a cluster on which a launch holds the unit that owns the matrix engine (R241): bit i for core i. -/
def mxHeld (s : State) (job cluster : Nat) : Nat :=
  ((List.range 8).map fun i =>
    let us := (s.core (8 * cluster + i)).units.toList.zipIdx
    if us.any fun (u, lane) => match u with
      | some u => u.job == job && (u.triple || lane == 1)
      | none => false
    then 2 ^ i else 0).sum

/-- The operands of an `rrot` (R240, R241). -/
def rrotM (i : Instr) (e : EArgs) : M Unit := do
  mxOwner
  let a ← readReg e.a false
  let b ← readReg e.b false
  let s ← get
  let m := mxHeld s s.me.job (clusterOf s.cur)
  engine (m == 255) (w64 m)
  aligned (a.toNat % 64 == 0) a
  aligned (b.toNat % 64 == 0) b
  within (decide (a.toNat + rrotLen e ≤ 2 ^ 23)) a
  within (decide (b.toNat + rrotLen e ≤ 2 ^ 23)) b
  mxEnqueue i e [a, b]

/-- `rrot.up` (R240, R241). -/
def execRrotUp (e : EArgs) (s : State) : Host.Outcome State Fault Refusal := runSyl (.rrotUp e) (rrotM (.rrotUp e) e) s
/-- `rrot.dn` (R240, R241). -/
def execRrotDn (e : EArgs) (s : State) : Host.Outcome State Fault Refusal := runSyl (.rrotDn e) (rrotM (.rrotDn e) e) s

/-- `mtab` (R238). -/
def execMtab (e : EArgs) (s : State) : Host.Outcome State Fault Refusal :=
  runSyl (.mtab e) (do
    mxOwner
    let p ← readPair e.a
    descCheck p (descRows p.2 == 192) 192 128
    mxEnqueue (.mtab e) e [p.1, p.2]) s

end Sys2Proof.Machine
end

