-- ==== Sys2Proof/Machine/Copy.lean ====
section
/-! DEFINITION. The copy instructions at the enqueuing bundle (R276, R277, R280 to R290, R435). -/

namespace Sys2Proof.Machine

/-- A copy descriptor beside its entry (R276). -/
structure Box where
  e : Layout
  w : List W64
  deriving DecidableEq, Repr

/-- The 32-bit field at byte offset 4 i of a descriptor. -/
def Box.half (b : Box) (i : Nat) : Nat := if i % 2 = 0 then bits (b.w.getD (i / 2) 0) 31 0 else bits (b.w.getD (i / 2) 0) 63 32
/-- Origin in dimension i. -/
def Box.org (b : Box) (i : Nat) : Nat := b.half i
/-- Extent of the box in dimension i. -/
def Box.box (b : Box) (i : Nat) : Nat := b.half (6 + i)
/-- The entry's number. -/
def Box.num (b : Box) : Nat := bits (b.w.getD 6 0) 53 48
/-- Local row pitch. -/
def Box.lpitch (b : Box) : Nat := bits (b.w.getD 6 0) 46 24
/-- Offset of the local side. -/
def Box.lbase (b : Box) : Nat := bits (b.w.getD 6 0) 22 0
/-- Handler address. -/
def Box.haddr (b : Box) : Nat := bits (b.w.getD 7 0) 56 0
/-- Rank of the box. -/
def Box.rank (b : Box) : Nat := if b.e.valid then b.e.rank else 0
/-- Elements in the box. -/
def Box.n (b : Box) : Nat := (List.range b.rank).foldl (fun n i => n * b.box i) 1
/-- Rows of box0 elements. -/
def Box.rows (b : Box) : Nat := b.n / max 1 (b.box 0)

/-- Box-relative coordinates of box position j, dimension 0 fastest (R277). -/
def Box.digits (b : Box) (j : Nat) : List Nat :=
  ((List.range b.rank).foldl (fun (a : List Nat × Nat) i => (a.1 ++ [a.2 % max 1 (b.box i)], a.2 / max 1 (b.box i))) ([], j)).1

/-- The local offset of box position j (R277). -/
def Box.loc (b : Box) (j : Nat) : Nat := b.lbase + j / max 1 (b.box 0) * b.lpitch + j % max 1 (b.box 0) * b.e.es

/-- The first value that makes a descriptor an ENGINE_FAULT (R277): reserved fields; origins and extents against the rank; the row pitch
of a local side; the size. (DEDUCED, log 59.) -/
def boxBad (b : Box) (local_ : Bool) : Option W64 :=
  let w6 := b.w.getD 6 0
  let w7 := b.w.getD 7 0
  let past := (List.range 6).findSome? fun i =>
    if b.rank ≤ i then (if b.org i ≠ 0 then some (w64 (b.org i)) else if b.box i ≠ 0 then some (w64 (b.box i)) else none)
    else if b.box i = 0 then some 0 else none
  if bits w6 63 54 ≠ 0 ∨ bit w6 47 ∨ bit w6 23 then some w6
  else if bits w7 63 57 ≠ 0 ∨ bits w7 3 0 ≠ 0 then some w7
  else if ¬ b.e.valid then none
  else
    match past with
    | some v => some v
    | none =>
      if local_ ∧ 1 < b.rows ∧ b.lpitch < b.box 0 * b.e.es then some (w64 b.lpitch)
      else if 2 ^ 32 < b.n * b.e.es then some (w64 (b.n * b.e.es))
      else none

/-- The first value of a descriptor that is not aligned (R277). -/
def boxMis (b : Box) (hnd : Bool) : Option W64 :=
  let es := max 1 b.e.es
  if b.lbase % es ≠ 0 then some (w64 b.lbase)
  else if b.lpitch % es ≠ 0 then some (w64 b.lpitch)
  else if hnd ∧ b.haddr = 0 then some 0
  else none

/-- The first value of a descriptor that passes an extent or the slice (R277); `g` is a gather dimension. -/
def boxPast (b : Box) (local_ : Bool) (g : Option Nat) : Option W64 :=
  let over_ := (List.range b.rank).findSome? fun i =>
    if some i = g ∨ (b.e.space = spKv ∧ i + 1 = b.rank) then none
    else if b.e.ext i < b.org i + b.box i then some (w64 (b.org i + b.box i)) else none
  match over_ with
  | some v => some v
  | none =>
    let last := b.lbase + (b.rows - 1) * b.lpitch + b.box 0 * b.e.es - 1
    if local_ ∧ 2 ^ 23 ≤ last then some (w64 last) else none

/-- Reads the copy descriptor that a register names (R276): a checked load of the context. (DEDUCED, log 60.) -/
def readBox (v : W64) : M Box := do
  let o := v.toNat % 2 ^ 23
  aligned (o % 64 == 0) v
  let n ← loadLocal o 64 false
  let w := (List.range 8).map fun i => w64 (n / 2 ^ (64 * i))
  let e ← getEntry (bits (w.getD 6 0) 53 48)
  return ⟨e, w⟩

/-- A fault with a value where there is one. -/
def failWith (c : BitVec 8) (v : Option W64) : M Unit :=
  match v with
  | some v => trapM c v
  | none => pure ()

/-- LAYOUT_RIGHTS of a descriptor's entry (R277). -/
def boxRights (b : Box) (rd wr : Bool) (spaces : Nat → Bool) : M Unit :=
  check (b.e.valid && spaces b.e.space && (!rd || b.e.rd) && (!wr || b.e.wr)) cRights (w64 b.num)

/-- The fn fields of a copy instruction (R280). -/
def cpHnd (e : EArgs) : Bool := e.fn.getLsbD 11
/-- `.ord`. -/
def cpOrd (e : EArgs) : Bool := e.fn.getLsbD 12
/-- sel. -/
def cpSel (e : EArgs) : Nat := (e.fn.extractLsb' 8 3).toNat

/-- Every space but NET. -/
def notNet (sp : Nat) : Bool := sp != spNet
/-- Every space. -/
def anySpace (_ : Nat) : Bool := true

/-- Enqueues a copy command (R280). -/
def cpEnqueue (i : Instr) (e : EArgs) (q : Nat) (bs : List Box) (vals : List W64) (total : Nat) : M Unit := do
  let _ ← enqueue { instr := i, q, num := 0, ctx := 0, job := 0, lcore := 0, set := 0, tok := tokE e, vals
                    ents := bs.map (·.e), desc := bs.flatMap (·.w), total } e.arv
  pure ()

/-- The instructions with one descriptor and a local side. `more` tests what the instruction adds. -/
def cpPlain (i : Instr) (e : EArgs) (q : Nat) (rd wr : Bool) (spaces : Nat → Bool) (more : Box → M Unit) : M Unit := do
  let v ← readReg e.a false
  let x ← readReg e.b false
  let b ← readBox v
  failWith cEngine (boxBad b true)
  failWith cMisaligned (boxMis b (cpHnd e))
  boxRights b rd wr spaces
  more b
  failWith cBounds (boxPast b true none)
  cpEnqueue i e q [b] [x] b.n

/-- `cpin` (R283). -/
def execCpin (e : EArgs) (s : State) : Host.Outcome State Fault Refusal :=
  runSyl (.cpin e) (cpPlain (.cpin e) e 0 true false notNet fun _ => pure ()) s

/-- `cpout` (R283, R390): through a NET entry at most 65 536 bytes. -/
def execCpout (e : EArgs) (s : State) : Host.Outcome State Fault Refusal :=
  runSyl (.cpout e) (cpPlain (.cpout e) e 3 false true anySpace fun b =>
    within (!(b.e.space == spNet && decide (65536 < b.box 0))) (w64 (b.box 0))) s

/-- `cred` (R287): the entry's format matches. -/
def execCred (e : EArgs) (s : State) : Host.Outcome State Fault Refusal :=
  runSyl (.cred e) (cpPlain (.cred e) e 3 true true (fun sp => decide (sp ≤ spVm)) fun b =>
    check (b.e.fmt == (if cpSel e = 0 then 0x03 else if cpSel e = 1 then 0x21 else 0x29)) cRights (w64 b.num)) s

/-- `cmirror` (R289): for a launch of a mirrored stream, to a mirrored VM entry. -/
def execCmirror (e : EArgs) (s : State) : Host.Outcome State Fault Refusal :=
  runSyl (.cmirror e) (cpPlain (.cmirror e) e 3 false true (fun sp => sp == spVm) fun b => do
    let s ← get
    check (b.e.mir && (match jobStream s s.me.job with
      | some n => bit ((s.stream n).desc.getD 0 0) 55
      | none => false)) cRights (w64 b.num)) s

/-- `cpref` (R290): a hint; its descriptor is checked but for rights. -/
def execCpref (e : EArgs) (s : State) : Host.Outcome State Fault Refusal :=
  runSyl (.cpref e) (do
    let v ← readReg e.a false
    let b ← readBox v
    failWith cEngine (boxBad b true)
    failWith cMisaligned (boxMis b false)
    boxRights b false false notNet
    failWith cBounds (boxPast b true none)
    cpEnqueue (.cpref e) e 0 [b] [] b.n) s

/-- `cgather` and `cscatter` (R285). -/
def cpIndexed (i : Instr) (e : EArgs) (q : Nat) (rd : Bool) : M Unit := do
  let v ← readReg e.a false
  let x ← readReg e.b false
  let g := cpSel e
  engine (bits x 63 23 == 0) x
  let b ← readBox v
  failWith cEngine (boxBad b true)
  engine (!b.e.valid || decide (g < b.rank)) (w64 g)
  engine (!b.e.valid || b.org g == 0) (w64 (b.org g))
  aligned (x.toNat % 4 == 0) x
  failWith cMisaligned (boxMis b (cpHnd e))
  boxRights b rd (!rd) notNet
  within (decide (x.toNat + 4 * b.box g ≤ 2 ^ 23)) x
  failWith cBounds (boxPast b true (some g))
  cpEnqueue i e q [b] [x] b.n

/-- `cgather` (R285). -/
def execCgather (e : EArgs) (s : State) : Host.Outcome State Fault Refusal := runSyl (.cgather e) (cpIndexed (.cgather e) e 0 true) s
/-- `cscatter` (R285). -/
def execCscatter (e : EArgs) (s : State) : Host.Outcome State Fault Refusal :=
  runSyl (.cscatter e) (cpIndexed (.cscatter e) e 3 false) s

/-- `cfill` (R286). -/
def execCfill (e : EArgs) (s : State) : Host.Outcome State Fault Refusal :=
  runSyl (.cfill e) (do
    let v ← readReg e.a false
    let x ← readReg e.b false
    let b ← readBox v
    failWith cEngine (boxBad b false)
    engine (b.lbase == 0) (w64 b.lbase)
    engine (b.lpitch == 0) (w64 b.lpitch)
    failWith cMisaligned (boxMis b (cpHnd e))
    boxRights b false true notNet
    failWith cBounds (boxPast b false none)
    cpEnqueue (.cfill e) e 3 [b] [x] b.n) s

/-- `cpx` (R284): two boxes of one size and one element size. -/
def execCpx (e : EArgs) (s : State) : Host.Outcome State Fault Refusal :=
  runSyl (.cpx e) (do
    let v ← readReg e.a false
    let x ← readReg e.b false
    let p ← readBox v
    let q ← readBox x
    for b in [p, q] do
      failWith cEngine (boxBad b false)
      engine (b.lbase == 0) (w64 b.lbase)
      engine (b.lpitch == 0) (w64 b.lpitch)
      engine (b.haddr == 0) (w64 b.haddr)
    engine (!(p.e.valid && q.e.valid) || p.n == q.n) (w64 q.n)
    engine (!(p.e.valid && q.e.valid) || p.e.es == q.e.es) (w64 q.e.es)
    aligned (!cpHnd e) 0
    boxRights p true false notNet
    boxRights q false true anySpace
    failWith cBounds (boxPast p false none)
    failWith cBounds (boxPast q false none)
    cpEnqueue (.cpx e) e (if e.fn.getLsbD 8 then 3 else 0) [p, q] [] q.n) s

/-- `cmsg` (R288): the core that holds the target is captured beside the operands. -/
def execCmsg (e : EArgs) (s : State) : Host.Outcome State Fault Refusal :=
  runSyl (.cmsg e) (do
    let a ← readReg e.a false
    let b ← readReg e.b false
    let h ← readReg e.c false
    let n := 8 * (bits a 47 32 + 1)
    engine (a &&& 0xFFFF0000FF800000 == 0) a
    engine (b &&& 0xFFFF0000FF800000 == 0) b
    aligned (bits a 22 0 % 8 == 0) (w64 (bits a 22 0))
    aligned (bits b 22 0 % 8 == 0) (w64 (bits b 22 0))
    aligned (h.toNat % 16 == 0) h
    let s ← get
    match coreOfLogical s s.me.job (bits b 47 32) with
    | none => trapM cRights (w64 (bits b 47 32))
    | some core =>
      within (decide (bits a 22 0 + n ≤ 2 ^ 23)) (w64 (bits a 22 0))
      within (decide (bits b 22 0 + n ≤ 2 ^ 23)) (w64 (bits b 22 0))
      cpEnqueue (.cmsg e) e 3 [] [a, b, h, w64 core] 1) s

end Sys2Proof.Machine
end

