-- ==== Sys2Proof/Machine/MatrixRun.lean ====
section
/-! DEFINITION. The matrix engine's own steps (R89, R91, R106 to R108, R209 to R241, R243, R378, R379, R431, R463, R472). -/

namespace Sys2Proof.Machine

/-! ### Arithmetic -/

/-- Digit k of a w-bit value (R91). -/
def digit (x k : Nat) : Int :=
  let b (i : Nat) : Int := if x.testBit i then 1 else 0
  b (2 * k) - 2 * b (2 * k + 1) + (if k = 0 then 0 else b (2 * k - 1))

/-- The value of a weight with its planes below p dropped (R91, R210). -/
def digits (planes p x : Nat) : Int :=
  ((List.range planes).map fun k => if p ≤ k then digit x k * 4 ^ k else 0).sum

/-- Planes of a B format (R210). -/
def planesOf (bf : Nat) : Nat := if bf = 0 then 1 else if bf = 1 then 2 else 4

/-- The plane drop that acts (R210). -/
def dropOf (bf p : Nat) : Nat := min p (planesOf bf - 1)

/-- The stored element n of a B row (R89, R90, R210). -/
def bCode (bf : Nat) (row : Array Byte) (n : Nat) : Nat :=
  if bf = 0 then (row.getD (n / 4) 0).toNat / 4 ^ (n % 4) % 4
  else if bf = 1 then (row.getD (n / 2) 0).toNat / 16 ^ (n % 2) % 16
  else (row.getD n 0).toNat

/-- The weight that an element acts as. -/
def weight (bf p code : Nat) : Int :=
  if bf = 0 then (if code = 1 then 1 else if code = 3 then -1 else 0) else digits (planesOf bf) p code

/-- Kept positions of a group (R211). -/
def keptOf (sp : Nat) : Nat := if sp = 1 then 24 else if sp = 2 then 16 else 48

/-- The sums of a K step (R209 to R211), row by row: P(m, n) for n below 128. -/
def kSums (A B : List (List Byte)) (bf p sp : Nat) (idx : List (List Byte)) : List (List Int) :=
  let w : List (Array Int) := B.map fun row =>
    let r := row.toArray
    ((List.range 128).map fun n => weight bf p (bCode bf r n)).toArray
  let ix : List (Array Byte) := idx.map (·.toArray)
  A.map fun row =>
    let a : Array Int := (row.map fun b => sx 8 b.toNat).toArray
    (List.range 128).map fun n =>
      ((w.zipIdx).map fun (wk, k) =>
        let g := if sp = 0 then k else 48 * (k / keptOf sp) + ((ix.getD k #[]).getD n 0).toNat
        a.getD g 0 * wk.getD n 0).sum

/-- A reserved trit code stands in a B tile (R89, R107). -/
def badTrit (bf : Nat) (B : List (List Byte)) : Bool :=
  bf == 0 && (B.any fun row =>
    let r := row.toArray
    (List.range 128).any fun n => bCode 0 r n == 2)

/-- The first index byte that is not a position (R211). -/
def badIndex (idx : List (List Byte)) : Option Byte := idx.findSome? fun r => r.find? fun b => decide (48 ≤ b.toNat)

/-- P·2^d, rounded to nearest with ties to even where d is negative (R108). -/
def scaleSum (p d : Int) : Int :=
  if 0 ≤ d then p * 2 ^ d.toNat
  else
    let k : Int := 2 ^ (-d).toNat
    let q := p / k
    let r := p % k
    if k < 2 * r ∨ (2 * r = k ∧ q % 2 = 1) then q + 1 else q

/-- The contribution of a K step to an element, with its flags (R108, R431). -/
def contribution (p : Int) (ea eb base : Nat) : Int × W64 :=
  if ea = 255 ∨ eb = 255 then (0, mSnan)
  else
    let d : Int := (ea : Int) + eb - base
    (scaleSum p d, if d < -8 ∨ 15 < d then mSrng else 0)

/-- The exact sums of a chain after a K step, row-major over 64 rows of 128, and the flags (R106, R107). (DEDUCED, log 51.) -/
def addStep (el : List Int) (P : List (List Int)) (ea eb : List Nat) (base : Nat) : List Int × W64 :=
  let eb := eb.toArray
  let old := el.toArray
  let rows := (P.zipIdx).map fun (row, m) =>
    (row.zipIdx).map fun (p, n) =>
      let (c, f) := contribution p (ea.getD m 127) (eb.getD n 127) base
      let v := old.getD (128 * m + n) 0 + c
      (v, f ||| flagIf (decide (v < -(2 ^ 47) ∨ 2 ^ 47 ≤ v)) mAwrap)
  let new := rows.flatMap id
  let rest := (rangeFrom new.length (8192 - new.length)).map fun i => old.getD i 0
  (new.map (·.1) ++ rest, new.foldl (fun f p => f ||| p.2) 0)

/-- An element of an accumulator tile as it is read (R106): 48 bits, those below the haze cut a free value. (DESIGN CHOICE, log 50.) -/
def accRead (t : AccTile) (i : Nat) (v : Int) : Nat :=
  let w := wrapN 48 v
  let (cut, seed) := t.haze.getD (i / 128) (0, 0)
  if cut = 0 then w else w - w % 2 ^ cut + (Config.freeWord (seed + i)).toNat % 2 ^ cut

/-- The elements of a tile, sign-extended from 48 bits, row-major. -/
def accElems (t : AccTile) : List Int :=
  if t.el = [] then List.replicate 8192 0 else (t.el.zipIdx).map fun (v, i) => sx 48 (accRead t i v)

/-- The haze of the rows of a tile once a command with this cut has written the first n of them (R384): their unspecified bits are
drawn afresh from a seed. -/
def hazeRows (old : List (Nat × Nat)) (n cut seed : Nat) : List (Nat × Nat) :=
  (List.range 64).map fun m =>
    let o := old.getD m (0, 0)
    if m < n ∧ max o.1 cut ≠ 0 then (max o.1 cut, seed) else o

/-- A K step into a tile under a haze cut (R106, R384). -/
def stepTile (s : State) (t : AccTile) (P : List (List Int)) (ea eb : List Nat) (base haze : Nat) : State × AccTile × W64 :=
  let (el, f) := addStep t.el P ea eb base
  let t := { t with isOpen := true, el := el }
  if haze = 0 ∧ t.haze = [] then (s, t, f)
  else ({ s with free := s.free + 8192 }, { t with haze := hazeRows t.haze P.length haze s.free }, f)

/-! ### Accumulator names -/

/-- The tiles of a name, oldest first. -/
def accTiles (m : Mx) (c : Nat) : List AccTile := m.acc.toList.getD c []
/-- Replaces them. -/
def setAcc (m : Mx) (c : Nat) (l : List AccTile) : Mx := { m with acc := m.acc.set! c l }
/-- The newest tile of a name. -/
def newestTile (m : Mx) (c : Nat) : AccTile := (accTiles m c).getLast?.getD {}
/-- The oldest tile of a name. -/
def oldestTile (m : Mx) (c : Nat) : AccTile := (accTiles m c).head?.getD {}
/-- Replaces the newest tile. -/
def setNewest (m : Mx) (c : Nat) (t : AccTile) : Mx := setAcc m c ((accTiles m c).dropLast ++ [t])
/-- Physical tiles in use (R219). -/
def physUsed (m : Mx) : Nat := (m.acc.toList.map fun l => match l with
  | [t] => if t.isOpen then 1 else 0
  | l => l.length).sum
/-- A write of the newest tile finds a physical tile (R219). -/
def roomWrite (m : Mx) (c : Nat) : Bool :=
  (match accTiles m c with
    | [t] => t.isOpen
    | _ => true) || decide (physUsed m < 12)
/-- `acz` finds a physical tile (R219, R235). -/
def roomAcz (m : Mx) (c : Nat) : Bool := !(newestTile m c).isOpen || decide (physUsed m < 12)
/-- The effect of `acz` (R219). -/
def aczMx (m : Mx) (c id : Nat) : Mx := if (newestTile m c).isOpen then setAcc m c (accTiles m c ++ [{ id := id }]) else m
/-- A release drops a tile (R220): one that was the only one becomes fresh. -/
def dropTile (m : Mx) (c tile new : Nat) : Mx :=
  let l := (accTiles m c).filter fun t => t.id != tile
  setAcc m c (if l = [] then [{ id := new }] else l)
/-- The number that stands for a tile of a name among what commands touch; tile registers are 0 to 7. -/
def tileKey (c id : Nat) : Nat := 8 + c + 8 * id
/-- The mark of a nest that may append tiles to a name (R214). -/
def growKey (c : Nat) : Nat := 2 ^ 60 + c
/-- The footprint of an accumulator tile (R215, R220). -/
def tileFoot (core key : Nat) (write : Bool) : Foot := ⟨2 ^ 61 + core * 2 ^ 50 + key * 64, 8, write, true, false⟩
/-- Changes the matrix state of a core. -/
def updMx (s : State) (core : Nat) (f : Mx → Mx) : State := s.updCore core fun k => { k with mx := f k.mx }

/-! ### Operands in slices -/

/-- An operand's place (R225, R232): slice, origin and limit of its offsets, the checks of its entry, base, strides, pitch and
rotation. -/
structure Operand where
  core : Nat
  origin : Nat := 0
  lim : Nat := 2 ^ 23
  entry : Option Layout := none
  num : Nat := 0
  base : Nat
  str : List Int := []
  pitch : Nat
  q : Nat := 0
  phi : Nat := 0
  deriving Repr

/-- The pieces of row i of an operand at offset o (R67, R226, R232): every 64-byte word is rotated on its own. -/
def pieces (r : Operand) (o : Int) (i n : Nat) : List (Int × Nat) :=
  let o := o + (i * r.pitch : Nat)
  if r.q = 0 then [(o, n)]
  else
    let first := (64 - o % 64).toNat
    let cuts := (0, min n first) :: ((List.range (n / 64 + 1)).map fun j => (first + 64 * j, min 64 (n - (first + 64 * j))))
    (cuts.filter fun c => c.2 != 0).map fun (j, len) =>
      let p := o + j
      (if p < 0 then p else (rot p.toNat i r.q r.phi : Nat), len)

/-- The key of an offset of an operand. -/
def pieceKey (r : Operand) (p : Nat) : Nat := sliceKey r.core (r.origin + p)

/-- What an operand of nr rows of n bytes at offset o breaks (R225, R226, R423): rights, then bounds. -/
def operandFault (r : Operand) (o : Int) (nr n : Nat) (write : Bool) : Option (BitVec 8 × W64) :=
  let right := match r.entry with
    | none => true
    | some e => if write then e.wr else e.rd
  if !right then some (cRights, w64 r.num)
  else
    (List.range nr).findSome? fun i => (pieces r o i n).findSome? fun (p, len) =>
      if p < 0 ∨ (r.lim : Int) < p + len then some (cBounds, BitVec.ofInt 64 p) else none

/-- The footprint of an operand (R215); what lies past its limits is never accessed. -/
def operandFoot (r : Operand) (o : Int) (nr n : Nat) (write : Bool) : List Foot :=
  let chk := match r.entry with
    | none => true
    | some e => e.chk
  (List.range nr).flatMap fun i => (pieces r o i n).filterMap fun (p, len) =>
    let lo := max p 0
    let hi := min (p + len) (r.lim : Int)
    if lo < hi then some ⟨pieceKey r lo.toNat, (hi - lo).toNat, write, chk, false⟩ else none

/-- The rows of an operand. -/
def readRows (s : State) (r : Operand) (o : Int) (nr n : Nat) : List (List Byte) :=
  (List.range nr).map fun i => (pieces r o i n).flatMap fun (p, len) => readBytes s (pieceKey r p.toNat) len

/-- A write of bytes into a slice or device memory; a granule that it covers whole is no longer poisoned (R498). -/
def storeBytes (s : State) (k : Nat) (l : List Byte) : State := clearPoison (writeBytes s k l) k l.length

/-- Writes the rows of an operand. -/
def writeRows (s : State) (r : Operand) (o : Int) (rows : List (List Byte)) : State :=
  (rows.zipIdx).foldl (fun s (row, i) =>
    ((pieces r o i row.length).foldl (fun (a : State × List Byte) (pc : Int × Nat) =>
      (storeBytes a.1 (pieceKey r pc.1.toNat) (a.2.take pc.2), a.2.drop pc.2)) (s, row)).1) s

/-- The operand that a descriptor pair names (R232). -/
def descStream (core : Nat) (lo hi : W64) : Operand :=
  { core, base := descBase lo, pitch := descPitch lo, q := descQ lo, phi := descPhase hi }

/-- A region at a local offset. -/
def flatStream (core off : Nat) : Operand := { core, base := off, pitch := 0 }

/-- An element as eight little-endian bytes. -/
def s64Bytes (v : Int) : List Byte := natToBytes 8 (wrapN 64 v)

/-- The elements of a tile as rows of 1 024 bytes. -/
def accRows (t : AccTile) (rows : Nat) : List (List Byte) :=
  let e := accElems t
  (List.range rows).map fun m => ((e.drop (128 * m)).take 128).flatMap s64Bytes

/-! ### Nests -/

/-- A nest's plan (R222 to R229), from the configuration that it took over. -/
structure Plan where
  trips : List Nat
  kd : Nat
  cmode : Bool
  rows : Nat
  bf : Nat
  sp : Nat
  bexp : Nat
  a : Operand
  b : Operand
  c : Operand
  i : Operand
  sa : Option Operand
  sb : Option Operand
  deriving Repr

/-- Word w of the configuration that a nest captured. -/
def cfgW (c : Cmd) (w : Nat) : W64 := mapGet 0 c.cfg w

/-- The configuration has been captured: a mark beside the 48 words. -/
def captured (c : Cmd) : Bool := mapGet 0 c.cfg 48 == 1

/-- The entry that stream register k names (R225), as the command captured it at enqueue (R76). -/
def cfgEnt (c : Cmd) (k : Nat) : Layout := c.ents.getD (bits (cfgW c (14 + 4 * k)) 29 24) {}

/-- Stream register k as an operand, with the strides given; none where its entry does not serve (R225, R239). -/
def planStream (core : Nat) (c : Cmd) (k : Nat) (str : List Int) (scale : Bool) : Option Operand :=
  let w0 := cfgW c (14 + 4 * k)
  let w1 := cfgW c (15 + 4 * k)
  let base := if scale then bits w1 22 0 else bits w0 22 0
  let pitch := if scale then bits w1 47 32 else bits w0 51 32
  let q := if scale then 0 else bits w0 55 52
  let phi := if scale then 0 else bits w0 60 56
  if !bit w0 30 then some { core, base, str, pitch, q, phi }
  else
    let e := cfgEnt c k
    if !e.valid || !e.inSram || e.rank != 1 || e.perm != 0 then none
    else
      let o := e.base % 2 ^ 23
      some { core := e.core core, origin := o, lim := min (e.ext 0 * e.es) (2 ^ 23 - o), entry := some e, num := bits w0 29 24,
             base, str, pitch, q, phi }

/-- The first of some values that fails its test. -/
def firstBad (l : List (Bool × W64)) : Option W64 := (l.find? fun p => p.1).map (·.2)

/-- The word of stream register k that breaks a limit whatever the nest uses it for (R225, R239): reserved fields, alignment, and the
entry that it names. -/
def streamBad (c : Cmd) (k : Nat) : Option W64 :=
  let w0 := cfgW c (14 + 4 * k)
  let w1 := cfgW c (15 + 4 * k)
  let w3 := cfgW c (17 + 4 * k)
  let e := cfgEnt c k
  firstBad [(bits w0 63 61 != 0 || bit w0 31 || bit w0 23 || bits w0 22 0 % 32 != 0 ||
      bits w0 51 32 % (if bits w0 55 52 = 0 then 32 else 64) != 0 ||
      (bit w0 30 && (!e.valid || !e.inSram || e.rank != 1 || e.perm != 0)), w0),
    (bits w1 55 48 != 0 || bits w1 31 24 != 0, w1),
    (bits w3 53 48 != 0 || bits w3 39 32 != 0, w3)]

/-- The word of stream register k that does not serve its role (R225, R239): 0 for A, 1 for B, 2 for C, 3 for the index stream, another
number for none. -/
def roleBad (c : Cmd) (k role : Nat) : Option W64 :=
  let w3 := cfgW c (17 + 4 * k)
  let fmt := bits w3 63 56
  firstBad [(!(match role with
      | 0 => fmt == 0x01
      | 1 => fmt == 0x10 || fmt == 0x11 || fmt == 0x01
      | 2 => fmt == 0x04
      | 3 => fmt == 0x05
      | _ => true) ||
    (if role = 1 then bits w3 55 54 == 3 else bits w3 55 54 != 0) ||
    (if role = 0 then decide (63 < bits w3 47 40) else bits w3 47 40 != 0), w3)]

/-- The scale strides of a stream register (R225). -/
def scaleStr (c : Cmd) (k : Nat) : List Int :=
  let w2 := cfgW c (16 + 4 * k)
  let w3 := cfgW c (17 + 4 * k)
  [sx 16 (bits w2 15 0), sx 16 (bits w2 31 16), sx 16 (bits w2 47 32), sx 16 (bits w2 63 48), sx 16 (bits w3 15 0),
   sx 16 (bits w3 31 16)]

/-- What makes the configuration of an `mgo`, or its effective profile, invalid: the offending word or profile number (R239, R384,
R415). The format of a stream that the nest does not use, the index stream of a dense B or C in cmode 1, is not checked. (DEDUCED, log 47.) -/
def cfgBad (s : State) (c : Cmd) : Option W64 :=
  let w := cfgW c 0
  let ka := bits w 2 0
  let kb := bits w 5 3
  let cmode := bit w 20
  let roles : List (Nat × Nat) := [(ka, 0), (kb, 1)] ++ (if cmode then [] else [(bits w 8 6, 2)]) ++
    (if bits (cfgW c (17 + 4 * kb)) 55 54 = 0 then [] else [(bits w 11 9, 3)])
  let idle := (List.range 8).filter fun k => !(roles.any fun r => r.1 == k)
  let words := firstBad [(bits w 63 21 != 0 || bit w 15 || decide (6 < bits w 14 12) || (cmode && c.runner.isSome), w),
    (cfgW c 1 != 0, cfgW c 1)]
  let tail := firstBad [(cfgW c 46 != 0, cfgW c 46), (cfgW c 47 != 0, cfgW c 47),
    (!profOk (s.job c.job) (effProf c), w64 (effProf c))]
  words.or (((List.range 8).findSome? (streamBad c)).or
    (((roles ++ idle.map fun (k : Nat) => (k, 4)).findSome? fun (r : Nat × Nat) => roleBad c r.1 r.2).or tail))

/-- The plan of an `mgo` (R222 to R229, R239, R384); none where the configuration or the effective profile is invalid. -/
def planOf (s : State) (core : Nat) (c : Cmd) : Option Plan :=
  let w := cfgW c 0
  let ka := bits w 2 0
  let kb := bits w 5 3
  let kc := bits w 8 6
  let ki := bits w 11 9
  let cmode := bit w 20
  let b3 := cfgW c (17 + 4 * kb)
  let sp := bits b3 55 54
  let bf := if bits b3 63 56 = 0x10 then 0 else if bits b3 63 56 = 0x11 then 1 else 2
  let lv (f : W64 → W64 → Int) : List Int := (List.range 6).map fun l => f (cfgW c (2 + 2 * l)) (cfgW c (3 + 2 * l))
  let strB := lv fun _ y => sx 32 (bits y 31 0)
  let mu : Nat := if bf = 0 then 4 else if bf = 1 then 2 else 1
  let dummy : Operand := { core, base := 0, pitch := 0 }
  if (cfgBad s c).isSome then none
  else
    match planStream core c ka (lv fun x _ => sx 32 (bits x 63 32)) false, planStream core c kb strB false,
      (if cmode then some dummy else planStream core c kc (lv fun _ y => sx 32 (bits y 63 32)) false),
      (if sp = 0 then some dummy else planStream core c ki (strB.map fun x => mu * x) false) with
    | some a, some b, some cc, some i =>
      some { trips := (List.range 6).map fun l => bits (cfgW c (2 + 2 * l)) 31 0 + 1
             kd := bits w 14 12
             cmode
             rows := bits (cfgW c (17 + 4 * ka)) 47 40 + 1
             bf
             sp
             bexp := bits (cfgW c (15 + 4 * ka)) 63 56
             a
             b
             c := cc
             i := { i with pitch := mu * b.pitch }
             sa := if bit (cfgW c (15 + 4 * ka)) 23 then planStream core c ka (scaleStr c ka) true else none
             sb := if bit (cfgW c (15 + 4 * kb)) 23 then planStream core c kb (scaleStr c kb) true else none }
    | _, _, _, _ => none

/-- Steps of a nest. -/
def Plan.steps (p : Plan) : Nat := p.trips.foldl (· * ·) 1

/-- The indices i_0 to i_5 of a step (R226). -/
def Plan.index (p : Plan) (k : Nat) : List Nat :=
  (p.trips.foldl (fun (a : List Nat × Nat) t => (a.1 ++ [a.2 % t], a.2 / t)) ([], k)).1

/-- The offset of an operand at a step. -/
def Operand.at (r : Operand) (ix : List Nat) : Int :=
  (r.base : Int) + ((ix.zip r.str).map fun (i, x) => (i : Int) * x).sum

/-- The operands of a step: operand, offset, rows, bytes, written. -/
def Plan.operands (p : Plan) (ix : List Nat) (last : Bool) : List (Operand × Int × Nat × Nat × Bool) :=
  [(p.a, p.a.at ix, p.rows, keff p.sp, false), (p.b, p.b.at ix, 192, rowB p.bf, false)] ++
    (if p.sp = 0 then [] else [(p.i, p.i.at ix, 192, 128, false)]) ++
    (match p.sa with
      | some r => [(r, r.at ix, p.rows, 1, false)]
      | none => []) ++
    (match p.sb with
      | some r => [(r, r.at ix, 128, 1, false)]
      | none => []) ++
    (if last && !p.cmode then [(p.c, p.c.at ix, p.rows, 1024, true)] else [])

/-- The first step of an output tile (R226). -/
def Plan.first (p : Plan) (ix : List Nat) : Bool := (ix.take p.kd).all (· == 0)
/-- The last step of an output tile (R226). -/
def Plan.last (p : Plan) (ix : List Nat) : Bool := ((ix.zip p.trips).take p.kd).all fun (i, t) => i + 1 == t

/-- The footprint of the steps of a nest from step k (R215). -/
def Plan.foot (p : Plan) (k : Nat) : List Foot :=
  ((rangeFrom k (p.steps - k)).flatMap fun j =>
    let ix := p.index j
    (p.operands ix (p.last ix)).flatMap fun (r, o, nr, n, w) => operandFoot r o nr n w).dedup

/-- What a step's operands break when it starts, in the order of R423 (R84, R211, R226, R498). -/
def stepFault (s : State) (c : Cmd) (p : Plan) (ix : List Nat) : Option (BitVec 8 × W64) :=
  let ops := p.operands ix (p.last ix)
  match ops.findSome? fun (r, o, nr, n, w) => operandFault r o nr n w with
  | some f => some f
  | none =>
    let foot := ops.flatMap fun (r, o, nr, n, w) => operandFoot r o nr n w
    match startPaddock s c foot with
    | some v => some (cRights, v)
    | none =>
      match startPoison s foot with
      | some v => some (cPoison, v)
      | none =>
        if p.sp = 0 then none
        else (badIndex (readRows s p.i (p.i.at ix) 192 128)).map fun b => (cEngine, b.setWidth 64)

/-- How the running of a nest stopped. -/
inductive NestEnd where
  | done
  /-- a step that begins an output tile waits for a physical tile (R219) -/
  | stalled
  | failed (cause : BitVec 8) (v : W64) (first : List Nat)
  deriving Repr

/-- One K step of a nest on `core`, run by `on` (R226 to R229). The command holds the staging tile. -/
def nestStep (s : State) (core on acc : Nat) (c : Cmd) (p : Plan) (k : Nat) : State × Cmd × Option NestEnd :=
  let ix := p.index k
  let first := p.first ix
  let again := first && k != 0
  match stepFault s c p ix with
  | some (f, v) => (s, c, some (.failed f v ix))
  | none =>
    let m := (s.core core).mx
    if p.cmode && first && !(if again then roomAcz m acc else roomWrite m acc) then (s, c, some .stalled)
    else
      let (s, bad) := runPasses s on c (planesOf p.bf - dropOf p.bf (profPdrop (s.job c.job) (effProf c)))
      if bad then (s, c, some (.failed cEngine 1 ix))
      else
        let (s, c) :=
          if !first then (s, c)
          else if !p.cmode then (s, { c with stage := {} })
          else if again then
            let s1 := updMx { s with free := s.free + 1 } core fun m => aczMx m acc (s.free + 1)
            (s1, { c with wr := c.wr ++ [tileKey acc (newestTile (s1.core core).mx acc).id] })
          else (s, c)
        let A := readRows s p.a (p.a.at ix) p.rows (keff p.sp)
        let B := readRows s p.b (p.b.at ix) 192 (rowB p.bf)
        let I := if p.sp = 0 then [] else readRows s p.i (p.i.at ix) 192 128
        let sc (r : Option Operand) (n : Nat) : List Nat := match r with
          | some r => (readRows s r (r.at ix) n 1).map fun l => (l.headD 127).toNat
          | none => List.replicate n 127
        let P := kSums A B p.bf (dropOf p.bf (profPdrop (s.job c.job) (effProf c))) p.sp I
        let haze := profHaze (s.job c.job) (effProf c)
        let t := if p.cmode then newestTile (s.core core).mx acc else c.stage
        let (s, t, f) := stepTile s t P (sc p.sa p.rows) (sc p.sb 128) p.bexp haze
        let c := { c with done := k + 1, mflags := c.mflags ||| f ||| flagIf (badTrit p.bf B) mTfmt }
        if p.cmode then (updMx s core fun m => setNewest m acc t, c, none)
        else if p.last ix then (writeRows s p.c (p.c.at ix) (accRows t p.rows), { c with stage := {} }, none)
        else (s, { c with stage := t }, none)

/-- Runs the steps of a nest that are left (R226). -/
def nestRun (core on acc : Nat) (p : Plan) : Nat → State → Cmd → State × Cmd × NestEnd
  | 0, s, c => (s, c, .done)
  | n + 1, s, c =>
    match nestStep s core on acc c p c.done with
    | (s, c, some e) => (s, c, e)
    | (s, c, none) => nestRun core on acc p n s c

/-! ### Starts -/

/-- The accumulator or tile number of a command. -/
def numC (e : EArgs) : Nat := e.c.toNat % 8

/-- The E-format fields of a matrix command. -/
def mxArgs (i : Instr) : Option EArgs :=
  match i with
  | .mcfg e | .mcfgr e | .mgo e | .mma e | .acz e | .acmvSt e | .acmvLd e | .zld e | .zst e | .zclrE e | .zclrZ e
  | .rrotUp e | .rrotDn e | .mtab e => some e
  | _ => none

/-- What a command reads and writes among tile registers and accumulator tiles when it starts now (R214). -/
def touches (m : Mx) (c : Cmd) : List Nat × List Nat :=
  match c.instr with
  | .mma e =>
    let t (src use : Bool) (r : Reg) : List Nat × List Nat :=
      if src then ([], []) else if use then ([], [r.toNat % 8]) else ([r.toNat % 8], [])
    let a := t (e.fn.getLsbD 15) (e.fn.getLsbD 14) e.a
    let b := t (e.fn.getLsbD 13) (e.fn.getLsbD 12) e.b
    (a.1 ++ b.1, a.2 ++ b.2 ++ [tileKey (numC e) (newestTile m (numC e)).id])
  | .mgo e => ([], [tileKey (numC e) (newestTile m (numC e)).id, growKey (numC e)])
  | .acz _ => ([], [])
  | .acmvSt e =>
    let k := tileKey (numC e) (oldestTile m (numC e)).id
    if e.fn.getLsbD 1 then ([], [k]) else ([k], [])
  | .acmvLd e => ([], [tileKey (numC e) (newestTile m (numC e)).id])
  | .zld e | .zclrE e | .zclrZ e => ([], [numC e])
  | .zst e => if e.fn.getLsbD 15 then ([], [numC e]) else ([numC e], [])
  | _ => ([], [])

/-- The name whose newest tile a command means, so that it waits for a nest that may append to it (R214). -/
def growsOn (i : Instr) : Option Nat :=
  match i with
  | .mma e | .mgo e | .acz e | .acmvLd e => some (numC e)
  | _ => none

/-- An earlier command that has not completed holds a later one back (R214). -/
def holdsBack (m : Mx) (c o : Cmd) : Bool :=
  let (r, w) := touches m c
  (o.wr.any fun k => r.contains k || w.contains k) || (o.rd.any fun k => w.contains k) ||
    (match growsOn c.instr with
      | some a => o.wr.contains (growKey a)
      | none => false)

/-- The full/empty bits and physical tiles that a command needs (R218, R219). -/
def tilesReady (m : Mx) (c : Cmd) : Bool :=
  let full (n : Nat) : Bool := (m.z.toList.getD n {}).full
  match c.instr with
  | .mma e =>
    (e.fn.getLsbD 15 || full (e.a.toNat % 8)) && (e.fn.getLsbD 13 || full (e.b.toNat % 8)) && roomWrite m (numC e)
  | .acz e => roomAcz m (numC e)
  | .acmvLd e => roomWrite m (numC e)
  | .zld e => !full (numC e)
  | .zst e => full (numC e)
  | .mgo e =>
    let w := mapGet 0 (if captured c then c.cfg else m.shadow) 0
    !bit w 20 || c.done != 0 || roomWrite m (numC e)
  | _ => true

/-- The matrix state that a command starts from: the first command of a task finds undeclared tile registers empty, undeclared
accumulators with one fresh tile, and an index table of zeros (R218, R219, R234). What R46 says a task boundary keeps is what other
commands still see until then. (DESIGN CHOICE, log 121.) -/
def taskMx (j : Job) (free : Nat) (c : Cmd) (m : Mx) : Mx :=
  if !c.fresh then m
  else { m with
    z := Vector.ofFn fun i : Fin 8 => if j.livez i.val then m.z.get i else { m.z.get i with full := false }
    acc := Vector.ofFn fun i : Fin 8 => if j.liveacc i.val then m.acc.get i else [{ id := free + i.val }]
    itab := [] }

/-- Opens the task of a command that is its first (R218, R219, R234). -/
def openTask (s : State) (core : Nat) (c : Cmd) : State × Cmd :=
  if !c.fresh then (s, c)
  else (updMx { s with free := s.free + 8 } core (taskMx (s.job c.job) s.free c), { c with fresh := false })

/-- The tile port of a core is busy (R213). -/
def portBusy (s : State) (core : Nat) : Bool :=
  ((s.core core).queue 1).any fun c => !onArray c.instr && c.started && (c.phase == .running || c.phase == .waiting)

/-- The head of a core's MX queue: the oldest command not yet started, with the unfinished ones before it (R213). -/
def mxHead (s : State) (core : Nat) : Option (List Cmd × Cmd) :=
  let l := (s.core core).queue 1
  match l.find? fun c => c.phase == .queued with
  | none => none
  | some h => some ((l.takeWhile fun c => c.num != h.num).filter fun c => c.phase != .finished, h)

/-- Whether a head may start on the resource of core `on` (R212 to R219, R463, R490); token and interlock conditions are its owner's. -/
def mxReady (s : State) (core on : Nat) (before : List Cmd) (h : Cmd) : Bool :=
  let k := s.core core
  !stopServing s h && !(s.die (core / 128)).lost && tokensReady k h &&
    (if onArray h.instr then (arrayCmd s on).isNone && (s.core on).overBy.isNone && k.overBy.isNone else !portBusy s on) &&
    (h.rest != .all || (!(before.any fun o => h.fresh || holdsBack k.mx h o) && tilesReady (taskMx (s.job h.job) 0 h k.mx) h))

/-- The array of a core may go busy (R243, R378, R379): a start token where it was idle, and where ballast may have ended a free value
says whether one is due. -/
def arrayToken (s : State) (core : Nat) : Option State :=
  let k := s.core core
  let set (s : State) : State := s.updCore core fun k => { k with array := 2 }
  let take (s : State) : Option State :=
    let d := s.die (core / 128)
    if d.bucket = 0 then none else some (set (s.setDie (core / 128) { d with bucket := d.bucket - 1 }))
  if k.array = 2 then some s
  else if k.array = 1 ∧ bit (Config.freeWord s.free) 0 then some (set { s with free := s.free + 1 })
  else take { s with free := s.free + 1 }

/-- A command's footprint at its start (R215). -/
def mxFoot (core : Nat) (m : Mx) (c : Cmd) (p : Option Plan) : List Foot :=
  let v (i : Nat) : W64 := c.vals.getD i 0
  let desc (i n len : Nat) (w : Bool) : List Foot :=
    let r := descStream core (v i) (v (i + 1))
    operandFoot r r.base n len w
  let tile (k : Nat) (w : Bool) : List Foot := [tileFoot core k w]
  match c.instr with
  | .mcfg e => (List.range 48).filterMap fun i =>
      let part := if i < 2 then 0 else if i < 14 then 1 else 2 + (i - 14) / 4
      if i < 46 ∧ e.fn.getLsbD part then some ⟨sliceKey core ((v 0).toNat + 8 * i), 8, false, true, false⟩ else none
  | .mma e =>
    (if e.fn.getLsbD 15 then desc 0 (descRows (v 1)) (keff (mmaSp e)) false else []) ++
      (if e.fn.getLsbD 13 then desc 2 192 (rowB (mmaFmt e)) false else []) ++
      tile (tileKey (numC e) (newestTile m (numC e)).id) true
  | .mgo e => match p with
    | some p => p.foot c.done ++ (if p.cmode then tile (tileKey (numC e) (newestTile m (numC e)).id) true else [])
    | none => []
  | .acmvSt e =>
    ⟨sliceKey core (v 0).toNat, 65536, true, true, false⟩ :: tile (tileKey (numC e) (oldestTile m (numC e)).id) (e.fn.getLsbD 1)
  | .acmvLd e => ⟨sliceKey core (v 0).toNat, 65536, false, true, false⟩ :: tile (tileKey (numC e) (newestTile m (numC e)).id) true
  | .zld e => desc 0 (descRows (v 1)) (zLen e) false
  | .zst e => desc 0 (descRows (v 1)) (zLen e) true
  | .mtab _ => desc 0 192 128 false
  | _ => []

/-- Words as they stand in a slice. -/
def sliceW (s : State) (core off : Nat) : W64 := readW s (sliceKey core off)

/-- The effect of a tile-port command, or of `mma` (R234 to R239): the state and the flags, or a failure. `on` runs it. -/
def mxEffect (s : State) (core on : Nat) (c : Cmd) : Except (State × BitVec 8 × W64) (State × W64) :=
  let v (i : Nat) : W64 := c.vals.getD i 0
  let m := (s.core core).mx
  let z (n : Nat) : ZTile := m.z.toList.getD n {}
  let empty (s : State) (n : Nat) : State := updMx s core fun m => { m with z := m.z.set! n { (m.z.toList.getD n {}) with full := false } }
  match c.instr with
  | .mcfg e =>
    .ok (updMx s core fun m => { m with shadow := (List.range 46).foldl (fun l i =>
      let part := if i < 2 then 0 else if i < 14 then 1 else 2 + (i - 14) / 4
      if e.fn.getLsbD part then mapSet 0 l i (sliceW s core ((v 0).toNat + 8 * i)) else l) m.shadow }, 0)
  | .mcfgr e => .ok (updMx s core fun m => { m with shadow := mapSet 0 m.shadow (e.fn.extractLsb' 0 6).toNat (v 0) }, 0)
  | .acz e => .ok (updMx { s with free := s.free + 1 } core fun m => aczMx m (numC e) (s.free + 1), 0)
  | .acmvSt e =>
    let t := oldestTile m (numC e)
    .ok (storeBytes s (sliceKey core (v 0).toNat) ((accElems t).flatMap s64Bytes), 0)
  | .acmvLd e =>
    let el := (List.range 8192).map fun i => sx 48 (readNat s (sliceKey core ((v 0).toNat + 8 * i)) 6)
    .ok (updMx s core fun m => setNewest m (numC e) { (newestTile m (numC e)) with isOpen := true, el := el, haze := [] }, 0)
  | .zld e =>
    let r := descStream core (v 0) (v 1)
    let img := (readRows s r r.base (descRows (v 1)) (zLen e)).flatMap id
    .ok (updMx s core fun m => { m with z := m.z.set! (numC e) { full := true, img } }, 0)
  | .zst e =>
    let r := descStream core (v 0) (v 1)
    let img := (z (numC e)).img
    let rows := (List.range (descRows (v 1))).map fun i => (List.range (zLen e)).map fun j => img.getD (i * zLen e + j) 0
    let s := writeRows s r r.base rows
    .ok (if e.fn.getLsbD 15 then empty s (numC e) else s, 0)
  | .zclrE e => .ok (empty s (numC e), 0)
  | .zclrZ e => .ok (updMx s core fun m => { m with z := m.z.set! (numC e) { full := true } }, 0)
  | .mtab _ =>
    let r := descStream core (v 0) (v 1)
    .ok (updMx s core fun m => { m with itab := (readRows s r r.base 192 128).flatMap id }, 0)
  | .mma e =>
    let bf := mmaFmt e
    let sp := mmaSp e
    let rows (t : ZTile) (n len : Nat) : List (List Byte) :=
      let a := t.img.toArray
      (List.range n).map fun i => (List.range len).map fun j => a.getD (i * len + j) 0
    let A := if e.fn.getLsbD 15 then
        let r := descStream core (v 0) (v 1)
        readRows s r r.base (descRows (v 1)) (keff sp)
      else rows (z (e.a.toNat % 8)) 64 192
    let B := if e.fn.getLsbD 13 then
        let r := descStream core (v 2) (v 3)
        readRows s r r.base 192 (rowB bf)
      else rows (z (e.b.toNat % 8)) 192 (rowB bf)
    let I := if sp = 0 then [] else rows { img := m.itab } 192 128
    match badIndex I with
    | some b => .error (s, cEngine, b.setWidth 64)
    | none =>
      let p := dropOf bf (profPdrop (s.job c.job) (effProf c))
      let (s, bad) := runPasses s on c (planesOf bf - p)
      if bad then .error (s, cEngine, 1)
      else
        let n := A.length
        let (s, t, f) := stepTile s (newestTile m (numC e)) (kSums A B bf p sp I) (List.replicate n 127) (List.replicate 128 127) 254
          (profHaze (s.job c.job) (effProf c))
        let s := updMx s core fun m => setNewest m (numC e) t
        let s := if !e.fn.getLsbD 15 && e.fn.getLsbD 14 then empty s (e.a.toNat % 8) else s
        let s := if !e.fn.getLsbD 13 && e.fn.getLsbD 12 then empty s (e.b.toNat % 8) else s
        .ok (s, f ||| flagIf (badTrit bf B) mTfmt)
  | _ => .ok (s, 0)

/-- Runs, or goes on with, a nest whose plan stands (R226). -/
def mxNest (s : State) (core on : Nat) (c : Cmd) (p : Plan) : State :=
  let acc := match c.instr with
    | .mgo e => numC e
    | _ => 0
  let (s, c, e) := nestRun core on acc p (p.steps - c.done) s c
  match e with
  | .done | .stalled => putCmd s core c
  | .failed f v ix => failCmd (updArrayIdle (putCmd s core c) on) core { c with first := ix } f v
where
  /-- A failed command leaves its array idle (R213). -/
  updArrayIdle (s : State) (on : Nat) : State := s.updCore on fun k => { k with array := 1 }

/-- An `mgo` takes its configuration over (R221): the sets are exchanged and the active one copied. A retried one keeps what it captured
(R417). -/
def takeConfig (s : State) (core : Nat) (c : Cmd) : State × Cmd :=
  if captured c then (s, c)
  else
    let m := (s.core core).mx
    let cfg := mapPut 48 1 m.shadow
    (updMx s core fun m => { m with active := m.shadow, shadow := m.active }, { c with cfg })

/-- The tile with an uncorrectable error that a command reads (R498). -/
def badTile (k : Core) (c : Cmd) (l : List Nat) : Option Nat :=
  match c.instr with
  | .acz _ | .acmvLd _ | .zld _ | .zclrE _ | .zclrZ _ => none
  | _ => l.find? k.badTiles.contains

/-- The tile number that its record reports (R498): a tile register's own; for an accumulator tile a free value, since the tiles of a
name have no stated numbers. -/
def tileNum (s : State) (t : Nat) : W64 := if t < 8 then w64 t else Config.freeWord s.free

/-- A command that writes a tile whole leaves no error in it (R498). -/
def mendTiles (s : State) (core : Nat) (c : Cmd) (w : List Nat) : State :=
  match c.instr with
  | .acmvLd _ | .zld _ => s.updCore core fun k => { k with badTiles := k.badTiles.filter fun t => !w.contains t }
  | _ => s

/-- Starts a matrix command of `core` on the resource of `on` (R213 to R230, R305): tokens are popped, the configuration taken over, the
footprint tested, and the effect performed. (DEDUCED, log 46.) -/
def mxStart (s : State) (core on : Nat) (c : Cmd) : State :=
  let s := s.updCore core fun k => popTokens k c
  let c := { c with tok := c.tok &&& 0x5, phase := .running, started := true, runner := if on = core then none else some on }
  let (s, c) := openTask s core c
  if c.rest ≠ .all then putCmd s core c
  else
    let (r, w) := touches (s.core core).mx c
    let c := { c with rd := r, wr := w }
    match badTile (s.core core) c (r ++ w) with
    | some t =>
      let s := { s with free := s.free + 1 }
      failCmd (if onArray c.instr then mxNest.updArrayIdle (putCmd s core c) on else putCmd s core c) core c cPoison (tileNum s t)
    | none =>
    match c.instr with
    | .mgo _ =>
      let (s, c) := takeConfig s core c
      match planOf s core c with
      | none => failCmd (mxNest.updArrayIdle (putCmd s core c) on) core c cEngine ((cfgBad s c).getD 0)
      | some p =>
        let c := { c with foot := mxFoot core (s.core core).mx c (some p), total := p.steps }
        match startRace s core c c.foot with
        | some (f, v) => failCmd (mxNest.updArrayIdle (putCmd s core c) on) core { c with first := p.index c.done } f v
        | none => mxNest (putCmd s core c) core on c p
    | _ =>
      let c := { c with foot := mxFoot core (s.core core).mx c none }
      let fail (s : State) (f : BitVec 8) (v : W64) : State :=
        failCmd (if onArray c.instr then mxNest.updArrayIdle (putCmd s core c) on else putCmd s core c) core c f v
      match startTests s core c c.foot true with
      | some (f, v) => fail s f v
      | none =>
        match mxEffect s core on c with
        | .error (s, f, v) => fail s f v
        | .ok (s, f) =>
          let w := match c.instr with
            | .acz e => [tileKey (numC e) (newestTile (s.core core).mx (numC e)).id]
            | _ => c.wr
          mendTiles (putCmd s core { c with done := 1, mflags := c.mflags ||| f, wr := w }) core c w

/-- A nest that waits for a physical tile goes on once one is free (R219). -/
def mxResume (s : State) (core : Nat) (c : Cmd) : State :=
  match planOf s core c with
  | some p => mxNest s core (c.runner.getD core) c p
  | none => s

/-- The nest of a core that waits for a physical tile. -/
def stalledNest (s : State) (core : Nat) : Option Cmd :=
  ((s.core core).queue 1).find? fun c => c.started && c.phase == .running && decide (c.done < c.total) && c.rest == .all

/-- The footprint that a command would declare if it started now. -/
def footNow (s : State) (core : Nat) (h : Cmd) : List Foot :=
  let (s, h) := openTask s core h
  let (t, c) := match h.instr with
    | .mgo _ => takeConfig s core h
    | _ => (s, h)
  mxFoot core (t.core core).mx c (match h.instr with
    | .mgo _ => planOf t core c
    | _ => none)

/-- MX_COMMAND_START (R213 to R230, R243): a nest that waits goes on where it can; else the head starts. (DEDUCED, log 104.) -/
def execMxCommandStart (core : Nat) (s : State) : Host.Outcome State Fault Refusal :=
  runEvent (modify fun s =>
    let acc (c : Cmd) : Nat := match c.instr with
      | .mgo e => numC e
      | _ => 0
    match (stalledNest s core).filter fun c => !stopServing s c && !(s.job c.job).cancelled && roomAcz (s.core core).mx (acc c) &&
        roomWrite (s.core core).mx (acc c) with
    | some c => mxResume s core c
    | none =>
      match mxHead s core with
      | none => s
      | some (before, h) =>
        if (isRrot h.instr && h.rest == .all) || !mxReady s core core before h || heldFoot s (footNow s core h) then s
        else if onArray h.instr && h.rest == .all then
          match arrayToken s core with
          | none => s
          | some s => mxStart s core core h
        else mxStart s core core h) s

/-- The release of an accumulator tile at completion (R220, R236). -/
def mxRelease (s : State) (core : Nat) (c : Cmd) : State :=
  match c.instr with
  | .acmvSt e =>
    if e.fn.getLsbD 1 ∧ c.rest = .all then
      match c.wr with
      | k :: _ => updMx { s with free := s.free + 1 } core fun m => dropTile m (numC e) (k / 8 - 1) (s.free + 1)
      | [] => s
    else s
  | _ => s

/-- MX_COMMAND_COMPLETE (R213, R215, R220, R230, R379, R420, R456, R460). -/
def execMxCommandComplete (core : Nat) (tl : Nat) (s : State) : Host.Outcome State Fault Refusal :=
  runEvent (modify fun s =>
    match (s.core core).cmd 1 tl with
    | none => s
    | some c =>
      if !(c.started && c.phase == .running && (decide (c.total ≤ c.done) || c.rest != .all || (s.job c.job).cancelled)) then s
      else
        let on := c.runner.getD core
        let s := completeCmd (mxRelease s core c) core c
        if onArray c.instr && c.rest == .all then s.updCore on fun k => { k with array := if follows s on then 2 else 1 } else s) s
where
  /-- An array command of the core can start now, so that its array does not go idle (R243, R378). -/
  follows (s : State) (on : Nat) : Bool :=
    match mxHead s on with
    | some (before, h) => onArray h.instr && h.rest == .all && mxReady s on on before h && !heldFoot s (footNow s on h)
    | none => false

/-- START_TOKEN_REFILL (R378). -/
def execStartTokenRefill (die : Nat) (s : State) : Host.Outcome State Fault Refusal :=
  runEvent (modify fun s => s.updDie die fun d => { d with bucket := min 8 (d.bucket + 1) }) s

/-- Ring distance between two cores of a cluster (R68). -/
def ringDist (a b : Nat) : Nat :=
  let d := (a % 8 + 8 - b % 8) % 8
  min d (8 - d)

/-- Whether a sibling could take the head of an owner's MX queue (R230). -/
def mayTake (s : State) (owner sibling : Nat) (h : Cmd) : Bool :=
  let m := (s.core owner).mx
  let local_ (k : Nat) : Bool :=
    let w0 := mapGet 0 m.shadow (14 + 4 * k)
    let e := h.ents.getD (bits w0 29 24) {}
    !bit w0 30 || (e.valid && e.space == spLocal)
  let rel := match h.instr with
    | .mgo e => e.rel
    | _ => false
  let directly (c : Cmd) : Bool :=
    onArray c.instr && c.started && (c.phase == .running || c.phase == .waiting) && c.runner.isNone && c.num + 1 == h.num
  rel && !h.moved && h.rest == .all && owner != sibling && owner / 8 == sibling / 8 && ((s.core owner).queue 1).any directly &&
    !bit (mapGet 0 m.shadow 0) 20 && ((List.range 8).all local_) && tokensReady (s.core owner) h &&
    (((s.core sibling).queue 1).all fun c => c.phase == .finished) && (arrayCmd s sibling).isNone &&
    !(((s.core owner).queue 1).any fun c => c.runner.isSome && c.phase != .finished && c.phase != .failed && c.phase != .delivered)

/-- MGO_RELOCATION (R230): the nearest eligible sibling takes the owner's head, which waits for the array alone. -/
def execMgoRelocation (owner : Nat) (sibling : Nat) (s : State) : Host.Outcome State Fault Refusal :=
  runEvent (modify fun s =>
    match mxHead s owner with
    | none => s
    | some (before, h) =>
      let better (i : Nat) : Bool :=
        decide (ringDist owner i < ringDist owner sibling ∨ (ringDist owner i = ringDist owner sibling ∧ i < sibling)) && mayTake s owner i h
      if !mayTake s owner sibling h || ((List.range 8).any fun i => better (owner / 8 * 8 + i)) || !mxReady s owner sibling before h ||
          heldFoot s (footNow s owner h) then s
      else
        match arrayToken s sibling with
        | none => s
        | some s => mxStart s owner sibling h) s

/-- RROT_COLLECTIVE_START (R240, R241): the eight heads of a cluster are `rrot`s of one launch. All sources are read before any
destination is written. No rule states the value that a mismatch reports. (DESIGN CHOICE, log 48.) -/
def execRrotCollectiveStart (cluster : Nat) (s : State) : Host.Outcome State Fault Refusal :=
  runEvent (modify fun s =>
    let hs := (List.range 8).filterMap fun i => (mxHead s (8 * cluster + i)).map fun h => (8 * cluster + i, h.1, h.2)
    let args (c : Cmd) : Option (Bool × Nat) := match c.instr with
      | .rrotUp e => some (true, rrotLen e)
      | .rrotDn e => some (false, rrotLen e)
      | _ => none
    let src (core : Nat) (c : Cmd) : Nat := sliceKey core (c.vals.getD 0 0).toNat
    let dst (core : Nat) (c : Cmd) (up : Bool) : Nat :=
      sliceKey (core / 8 * 8 + (core % 8 + (if up then 1 else 7)) % 8) (c.vals.getD 1 0).toNat
    match hs with
    | (_, _, c0) :: _ =>
      match args c0 with
      | none => s
      | some (up, n) =>
        if hs.length ≠ 8 ∨ ¬ (hs.all fun (core, before, c) =>
            (args c).isSome && c.job == c0.job && c.nth == c0.nth && c.rest == .all && mxReady s core core before c) then s
        else if hs.any fun (_, _, c) => args c != some (up, n) then
          hs.foldl (fun s (core, _, c) =>
            let (s, c) := openTask ({ s with free := s.free + 1 }.updCore core fun k => popTokens k c) core c
            failCmd s core { c with tok := c.tok &&& 0x5, started := true } cEngine (Config.freeWord (s.free - 1))) s
        else
          let foot (core : Nat) (c : Cmd) : List Foot := [⟨src core c, n, false, true, false⟩, ⟨dst core c up, n, true, true, false⟩]
          let own (l : List (Nat × Cmd)) : List (Nat × Cmd × Option (BitVec 8 × W64)) :=
            l.map fun (core, c) => (core, c, startTests s core c (foot core c) true)
          let rs := own (hs.map fun (core, _, c) => (core, c))
          if hs.any fun (core, _, c) => heldFoot s (foot core c) then s
          else if rs.any fun r => r.2.2.isSome then
            rs.foldl (fun s (core, c, r) => match r with
              | some (f, v) =>
                let (s, c) := openTask (s.updCore core fun k => popTokens k c) core c
                failCmd s core { c with tok := c.tok &&& 0x5, started := true } f v
              | none => s) s
          else
            let data := hs.map fun (core, _, c) => (core, c, readBytes s (src core c) n)
            let s := data.foldl (fun s (core, c, l) => storeBytes s (dst core c up) l) s
            data.foldl (fun s (core, c, _) =>
              let (s, c) := openTask (s.updCore core fun k => popTokens k c) core c
              putCmd s core { c with tok := c.tok &&& 0x5, phase := .running, started := true, done := 1, foot := foot core c }) s
    | [] => s) s

end Sys2Proof.Machine
end

