-- ==== Sys2Proof/Machine/CopyRun.lean ====
section
/-! DEFINITION. The copy engine's own steps (R273 to R291, R345, R445, R448, R463, R477 to R482, R498, R502). -/

namespace Sys2Proof.Machine

/-! ### Where elements lie -/

/-- What stands at one side of a copy (R282): the local side, the remote side of the first or second descriptor, the mirror image of
the first, or the fill value. -/
inductive Role where
  | local_
  | remote (i : Nat)
  | mirror
  | fill
  deriving DecidableEq, Repr

/-- The source and destination of a copy instruction. -/
def cpRoles (i : Instr) : Role × Role :=
  match i with
  | .cpin _ | .cgather _ => (.remote 0, .local_)
  | .cpx _ => (.remote 0, .remote 1)
  | .cfill _ => (.fill, .remote 0)
  | .cmirror _ => (.local_, .mirror)
  | _ => (.local_, .remote 0)

/-- The E-format fields of a copy command. -/
def cpArgs (i : Instr) : Option EArgs :=
  match i with
  | .cpin e | .cpout e | .cpx e | .cgather e | .cscatter e | .cfill e | .cred e | .cmsg e | .cmirror e | .cpref e => some e
  | _ => none

/-- The gather dimension of a command. -/
def cpGather (i : Instr) : Option Nat :=
  match i with
  | .cgather e | .cscatter e => some (cpSel e)
  | _ => none

/-- Box i of a command. -/
def cpBox (c : Cmd) (i : Nat) : Box := ⟨c.ents.getD i {}, c.desc.drop (8 * i)⟩

/-- The box that orders a command's elements: the destination's (R284). -/
def cpMain (c : Cmd) : Box := cpBox c (match c.instr with
  | .cpx _ => 1
  | _ => 0)

/-- Element size of a command. -/
def cpEs (c : Cmd) : Nat := max 1 (cpMain c).e.es

/-- Elements in a sector (R278). -/
def cpSector (c : Cmd) : Nat := if (cpGather c.instr).isSome then 64 else 4096 / cpEs c

/-- The coordinates of box position j: in the gather dimension the index is read (R285). -/
def cpCoords (s : State) (core : Nat) (c : Cmd) (b : Box) (j : Nat) : List Nat :=
  ((b.digits j).zipIdx).map fun (x, i) =>
    if cpGather c.instr = some i then readNat s (sliceKey core ((c.vals.getD 0 0).toNat + 4 * x)) 4 else b.org i + x

/-- Where one side of an element lies. -/
inductive Spot where
  | slice (k : Nat)
  /-- through a translation; whether the page may have gone with its die, and whether writes are mirrored -/
  | virt (q : XReq) (gone mir : Bool)
  | net
  | fill
  deriving Repr

/-- The value that an element's rights or bounds fault reports. -/
def spotValue (b : Box) (coords : List Nat) (cause : BitVec 8) : W64 :=
  if cause = cRights then w64 b.num
  else w64 (((List.range b.rank).findSome? fun i => if b.e.ext i ≤ coords.getD i 0 then some (coords.getD i 0) else none).getD
    (coords.getD (b.rank - 1) 0))

/-- The translation request of an element of a command. -/
def cpReq (s : State) (core : Nat) (c : Cmd) (va : Nat) (rd wr host mirror : Bool) (own : Option Nat) (waiter : Nat) : XReq :=
  { part := (s.job c.job).fn, cluster := some (core / 8), va, r := rd, w := wr, host, mirror, die := own
    waiter := (1 + 5 * core + c.q, waiter) }

/-- The place of box position j on one side, before translation. -/
def cpSpot (s : State) (core : Nat) (c : Cmd) (r : Role) (j : Nat) (rd wr : Bool) (waiter : Nat) : Except (BitVec 8 × W64) Spot :=
  let via (b : Box) (mirror : Bool) : Except (BitVec 8 × W64) Spot :=
    if b.e.space = spNet then .ok .net
    else
      let co := cpCoords s core c b j
      let past := (cpGather c.instr).filter fun g => decide (b.e.ext g ≤ co.getD g 0)
      match placeOf s core (s.job c.job).fn b.e co b.e.es rd wr, past with
      | .error f, none => .error (f, spotValue b co f)
      | .error f, some g => if f = cRights then .error (f, spotValue b co f) else .error (cBounds, w64 (co.getD g 0))
      | .ok _, some g => .error (cBounds, w64 (co.getD g 0))
      | .ok (.slice k), none => .ok (.slice k)
      | .ok (.virt va host gone), none =>
        let moved := movedJob s c.job
        .ok (.virt (cpReq s core c va rd wr host (mirror || (b.e.mir && moved)) (if mirror then some (core / 128) else none) waiter) gone
          (b.e.mir && !moved && !mirror && wr))
  match r with
  | .local_ => .ok (.slice (sliceKey core ((cpBox c 0).loc j)))
  | .remote i => via (cpBox c i) false
  | .mirror => via (cpBox c 0) true
  | .fill => .ok .fill

/-! ### Checks of an element -/

/-- An element that has passed its checks: source and destination keys (none where nothing is read or written), the mirror copy, the
virtual address of the destination, and whether the source is a Contrail region's (R345). -/
structure EltPlan where
  src : Option Nat
  dst : Option Nat
  mir : Option Nat := none
  va : Option Nat := none
  open_ : Bool := false
  deriving Repr

/-- What becomes of an element's checks. -/
inductive EltRes where
  | ok (p : EltPlan)
  /-- it waits on a page request -/
  | miss
  | bad (cause : BitVec 8) (v : W64)
  deriving Repr

/-- A translation for a command. -/
inductive Got where
  | key (k : Nat)
  | miss
  | bad (cause : BitVec 8)
  deriving Repr

/-- Whether a request that a waiter waits on is still to be answered (R448). -/
def waitingReq (s : State) (w : Nat × Nat) : Bool := s.reqs.any fun r => r.answer.isNone && r.waiters.any fun x => (x.1, x.2.1) == w

/-- Translates for a command: a miss joins its request (R446), and what waits does not walk again before the answer (R448). -/
def cmdXlate (q : XReq) : M Got := do
  let s ← get
  if waitingReq s q.waiter then return .miss
  if failedWait s q then
    set (dropFailed s q.waiter)
    return .bad cXlateS2
  match translate s q with
  | .ok k fill =>
    match fill with
    | some t => modify fun s => { s with tlb := t :: s.tlb }
    | none => pure ()
    return .key k
  | .fail c => return .bad c
  | .miss i =>
    modify fun s => joinReq s q i
    return .miss

/-- The paddock of a slice spot (R84). -/
def spotPaddock (s : State) (c : Cmd) (n : Nat) (p : Spot) : Option W64 :=
  match p with
  | .slice k => if paddockHit s (keyCore k) (keyOff k) n c.job then some (w64 (keyOff k)) else none
  | _ => none

/-- A spot's key: none where the page has gone with its die (R482); a page of a lost die is poison (R477). -/
def spotKey (c : Cmd) (p : Spot) : M (Except EltRes (Option Nat)) := do
  match p with
  | .slice k => return .ok (some k)
  | .net | .fill => return .ok none
  | .virt q gone _ =>
    match ← cmdXlate q with
    | .miss => return .error .miss
    | .bad f => return .error (.bad f (w64 q.va))
    | .key k =>
      let s ← get
      if gone && lostKey s k && movedJob s c.job then return .ok none
      else if lostKey s k then return .error (.bad cPoison (w64 (q.va - q.va % 64)))
      else return .ok (some k)

/-- The mirror copy of a written spot (R75, R445, R481): none where nothing is mirrored. -/
def spotMirror (core : Nat) (p : Spot) : M (Except EltRes (Option Nat)) := do
  match p with
  | .virt q _ true =>
    let s ← get
    if (s.die ((core / 128) ^^^ 1)).lost then return .ok none
    else
      match ← cmdXlate { q with mirror := true, die := some (core / 128), r := false } with
      | .miss => return .error .miss
      | .bad f => return .error (.bad f (w64 q.va))
      | .key k => return .ok (some k)
  | _ => return .ok none

/-- The virtual address of a spot. -/
def spotVa (p : Spot) : Option Nat :=
  match p with
  | .virt q _ _ => some q.va
  | _ => none

/-- The poison test of an element that does not carry poison (R498): a copy to HOST or NET tests its source, `cred` what it reads. -/
def spotPoison (s : State) (n : Nat) (p : Spot) (k : Option Nat) : Option W64 :=
  match k with
  | none => none
  | some k =>
    if poisoned s k n then some (match spotVa p with
      | some va => w64 (va - va % 64)
      | none => w64 (keyOff k - keyOff k % 64)) else none

/-- The checks of box position j (R278, R423): rights and bounds, paddocks, translations, poison. -/
def eltCheck (core : Nat) (c : Cmd) (j waiter : Nat) : M EltRes := do
  let s ← get
  let n := cpEs c
  let (rs, rd) := cpRoles c.instr
  let red := match c.instr with
    | .cred _ => true
    | _ => false
  let idx : Option W64 := match cpGather c.instr with
    | none => none
    | some g =>
      let b := cpBox c 0
      let o := (c.vals.getD 0 0).toNat + 4 * ((b.digits j).getD g 0)
      if paddockHit s core o 4 c.job then some (w64 o) else none
  let dead := rd == .mirror && (s.die ((core / 128) ^^^ 1)).lost
  match idx, cpSpot s core c rs j true false waiter, cpSpot s core c rd j red true waiter with
  | some v, _, _ => return .bad cRights v
  | none, .error (f, v), _ => return .bad f v
  | none, .ok _, .error (f, v) => return .bad f v
  | none, .ok a, .ok b =>
    match spotPaddock s c n a, spotPaddock s c n b with
    | some v, _ => return .bad cRights v
    | none, some v => return .bad cRights v
    | none, none =>
      match ← spotKey c a with
      | .error r => return r
      | .ok ka =>
        match ← (if dead then pure (.ok none) else spotKey c b) with
        | .error r => return r
        | .ok kb =>
          match ← spotMirror core b with
          | .error r => return r
          | .ok km =>
            let s ← get
            let toHost := (match b with
              | .net => true
              | .virt q _ _ => q.host
              | _ => false) || (match kb with
              | some k => isHost k
              | none => false)
            match (if toHost || red then spotPoison s n a ka else none), (if red then spotPoison s n b kb else none) with
            | some v, _ => return .bad cPoison v
            | none, some v => return .bad cPoison v
            | none, none =>
              let open_ := match a with
                | .virt q _ _ => seqRegions s q.part q.va n != []
                | _ => false
              return .ok ⟨ka, kb, km, if kb.isSome then spotVa b else none, open_⟩

/-! ### Moving elements -/

/-- The sum of a `cred` step (R287): the pattern and its flags. -/
def redSum (sel m v : Nat) : FRes :=
  if sel = 0 then ((m + v) % 2 ^ 32, 0)
  else if sel = 1 then fp32.add 0 (fp32.dec m) (fp32.dec v)
  else sliAdd 27 m v

/-- Writes n bytes at an element's destination, and at its mirror copy; `bad` carries poison (R498). -/
def putElt (s : State) (part : Nat) (p : EltPlan) (l : List Byte) (bad : Bool) : State :=
  let at_ (s : State) (k : Option Nat) : State :=
    match k with
    | none => s
    | some k =>
      let s := writeBytes s k l
      if bad then { s with poison := (granules k l.length).foldl (fun t g => setIns g t) s.poison } else s
  let s := at_ (at_ s p.dst) p.mir
  match p.va with
  | some va => taintSeqs s part va l.length
  | none => s

/-- Performs one element: the state, its flags. -/
def moveElt (s : State) (c : Cmd) (p : EltPlan) : State × W64 :=
  let n := cpEs c
  let part := (s.job c.job).fn
  match c.instr with
  | .cfill _ => (putElt s part p (natToBytes n (c.vals.getD 0 0).toNat) false, 0)
  | .cred e =>
    let at_ (k : Option Nat) (j : Nat) : Nat := match k with
      | none => 0
      | some k => if noMemory k then (Config.freeWord (s.free + j)).toNat % 256 ^ n else readNat s k n
    let (r, f) := redSum (cpSel e) (at_ p.dst 1) (at_ p.src 0)
    (putElt { s with free := s.free + 2 } part p (natToBytes n r) false, f)
  | _ =>
    let (s, l, bad) := match p.src with
      | none => (s, List.replicate n (0 : Byte), false)
      | some k =>
        if p.open_ || noMemory k then ({ s with free := s.free + 1 }, natToBytes n (Config.freeWord s.free).toNat, poisoned s k n)
        else (s, readBytes s k n, poisoned s k n)
    (putElt s part p l bad, 0)

/-- The destinations of a sector as runs of adjacent bytes. -/
def dstRuns : List (Nat × Nat) → List (Nat × Nat)
  | [] => []
  | x :: t =>
    match dstRuns t with
    | y :: u => if x.1 + x.2 = y.1 then (x.1, x.2 + y.2) :: u else x :: y :: u
    | [] => [x]

/-- Performs the elements of a sector in box order (R278): a granule that the sector writes whole, from nothing poisoned, is no longer
poisoned. -/
def moveElts (s : State) (c : Cmd) (ps : List EltPlan) : State × W64 :=
  let n := cpEs c
  let red := match c.instr with
    | .cred _ => true
    | _ => false
  let keys := ps.flatMap fun p => p.dst.toList ++ p.mir.toList
  let clean := if red || s.poison == [] then s else (dstRuns (keys.map fun k => (k, n))).foldl (fun s (k, m) => clearPoison s k m) s
  let bads := ps.map fun p => match p.src with
    | some k => poisoned s k n
    | none => false
  let (s', f) := ps.foldl (fun (a : State × W64) p =>
    let (s, f) := moveElt a.1 c p
    (s, a.2 ||| f)) ({ clean with poison := s.poison }, 0)
  if red || s.poison == [] then (s', f)
  else
    let marks := ((ps.zip bads).flatMap fun (p, b) => if b then (p.dst.toList ++ p.mir.toList).flatMap fun k => granules k n else [])
    ({ s' with poison := marks.foldl (fun t g => setIns g t) clean.poison }, f)

/-! ### Footprints, order and starts -/

/-- The footprint of a command (R275): its local bytes, and its remote elements that can be placed. -/
def cpFoot (s : State) (core : Nat) (c : Cmd) : List Foot :=
  let n := cpEs c
  let (rs, rd) := cpRoles c.instr
  let red := match c.instr with
    | .cred _ => true
    | _ => false
  let one (r : Role) (j : Nat) (w : Bool) : List Foot :=
    match r, cpSpot s core c r j (!w || red) w 0 with
    | .local_, .ok (.slice k) => [⟨k, n, w, true, false⟩]
    | .remote i, .ok (.slice k) => [⟨k, n, w, (cpBox c i).e.chk, red⟩]
    | .remote i, .ok (.virt q _ _) =>
      if q.host then [] else [⟨2 ^ 62 + q.part * 2 ^ 57 + q.va, n, w, (cpBox c i).e.chk, red⟩]
    | .mirror, .ok (.virt q _ _) => [⟨2 ^ 62 + q.part * 2 ^ 57 + q.va, n, w, (cpBox c 0).e.chk, false⟩]
    | _, _ => []
  let joinRuns (l : List Foot) : List Foot := l.foldr (fun f t =>
    match t with
    | g :: u => if f.lo + f.len = g.lo ∧ f.write = g.write ∧ f.checked = g.checked then { f with len := f.len + g.len } :: u else f :: t
    | [] => [f]) []
  match c.instr with
  | .cpref _ => []
  | .cmsg _ =>
    let a := c.vals.getD 0 0
    let b := c.vals.getD 1 0
    let m := 8 * (bits a 47 32 + 1)
    [⟨sliceKey core (bits a 22 0), m, false, true, false⟩, ⟨sliceKey (c.vals.getD 3 0).toNat (bits b 22 0), m, true, true, false⟩]
  | _ =>
    let js := List.range c.total
    let idx := match cpGather c.instr with
      | some g => [⟨sliceKey core (c.vals.getD 0 0).toNat, 4 * (cpBox c 0).box g, false, true, false⟩]
      | none => []
    idx ++ joinRuns (js.flatMap fun j => one rs j false) ++ joinRuns (js.flatMap fun j => one rd j true)

/-- Two declared footprints overlap (R273). -/
def footsMeet (a b : List Foot) : Bool :=
  a.any fun f => f.checked && b.any fun g => g.checked && decide (f.lo < g.lo + g.len ∧ g.lo < f.lo + f.len)

/-- The commands of a queue before a number that have not completed. -/
def earlier (k : Core) (q num : Nat) : List Cmd := (k.queue q).filter fun o => decide (o.num < num) && o.phase != .finished

/-- A command has accesses still to perform. -/
def Cmd.busy (c : Cmd) : Bool := decide (c.done < c.total) && c.rest == .all

/-- Whether the order of R273 lets a command perform accesses now. (DEDUCED, log 61.) -/
def cpTurn (k : Core) (c : Cmd) : Bool :=
  (earlier k c.q c.num).all fun o =>
    !(o.busy && (footsMeet o.foot c.foot || (match cpArgs c.instr with
      | some e => cpOrd e
      | none => false)))

/-- The head of a copy queue: the oldest command that has not started. -/
def cpHead (k : Core) (q : Nat) : Option Cmd := (k.queue q).find? fun c => c.phase == .queued

/-- Commands of a queue that are performing their accesses (R273). -/
def cpPerforming (k : Core) (q : Nat) : Nat :=
  ((k.queue q).filter fun c => (c.phase == .running || c.phase == .waiting) && c.busy).length

/-- COPY_COMMAND_START (R217, R273, R275, R305): tokens are popped and the footprint is declared and tested. A retried or resumed command
goes on from its record's first element (R417, R449). -/
def execCopyCommandStart (core : Nat) (co : Bool) (s : State) : Host.Outcome State Fault Refusal :=
  runEvent (modify fun s =>
    let q := if co then 3 else 0
    let k := s.core core
    match cpHead k q with
    | none => s
    | some c =>
      if !tokensReady k c || stopServing s c || (s.die (core / 128)).lost || decide (4 ≤ cpPerforming k q) then s
      else
        let s := s.updCore core fun k => popTokens k c
        let c := { c with tok := c.tok &&& 0x5, phase := .running, started := true, idx := c.pend, stamp := if c.pend = [] then 0 else 1
                          pend := [], value := 0 }
        if c.rest ≠ .all then putCmd s core c
        else
          match c.instr with
          | .cpref _ => putCmd s core { c with done := c.total }
          | _ =>
            let foot := cpFoot s core c
            let c := { c with foot := foot }
            match startRace s core c foot with
            | some (f, v) => failCmd s core { c with first := (cpMain c).digits c.done, pend := left c, idx := [], stamp := 0 } f v
            | none => putCmd s core c) s
where
  /-- The elements of the first sector that are not performed when the start fails (R279). -/
  left (c : Cmd) : List Nat :=
    if (cpGather c.instr).isNone then [] else if c.stamp = 1 then c.idx else List.range (min 64 (c.total - c.done))

/-! ### Sectors -/

/-- A command fails at its sector (R279): done and first name the sector; pend the elements of a `cgather` or `cscatter` that were not
performed. -/
def cpFail (core : Nat) (c : Cmd) (pend : List Nat) (f : BitVec 8) (v : W64) : M Unit :=
  modify fun s => failCmd s core { c with first := (cpMain c).digits c.done, pend := pend, idx := [], stamp := 0 } f v

/-- The checks of positions js, up to the first that does not pass. -/
def sectorCheck (core : Nat) (c : Cmd) : List Nat → M (Except EltRes (List EltPlan))
  | [] => pure (.ok [])
  | j :: t => do
    match ← eltCheck core c j c.num with
    | .ok p =>
      match ← sectorCheck core c t with
      | .ok l => return .ok (p :: l)
      | .error e => return .error e
    | r => return .error r

/-- The payload of the message that a copy to the network posts: the elements of its source, in order (R390, R391). An element with no
memory at its address reads a free value (log 108). -/
def cpPayload (s : State) (core : Nat) (c : Cmd) : List Byte :=
  (List.range c.total).flatMap fun j =>
    match cpSpot s core c (cpRoles c.instr).1 j true false 0 with
    | .ok (.slice k) => readBytes s k (cpEs c)
    | .ok (.virt q _ _) =>
      match translate s q with
      | .ok k _ =>
        if noMemory k then (List.range (cpEs c)).map fun i => Config.freeByte (s.free + j * cpEs c + i) else readBytes s k (cpEs c)
      | _ => List.replicate (cpEs c) 0
    | _ => []

/-- A sector of a command other than `cgather` and `cscatter` (R278, R448): all of it or nothing. The payload of a NET copy leaves with its
last sector (R283). (DEDUCED, log 62.) -/
def cpWhole (core : Nat) (c : Cmd) : M Unit := do
  let n := min (cpSector c) (c.total - c.done)
  match ← sectorCheck core c (rangeFrom c.done n) with
  | .error .miss => modify fun s => putCmd s core { c with phase := .waiting }
  | .error (.bad f v) => cpFail core c [] f v
  | .error (.ok _) => pure ()
  | .ok ps => do
    modify fun s =>
      let (s, f) := moveElts s c ps
      let b := cpMain c
      let s := if b.e.space = spNet ∧ c.total ≤ c.done + n then
          netPost { s with free := s.free + c.total * cpEs c } (b.e.base % 2 ^ 16) c.job (cpPayload s core c)
        else s
      putCmd s core { c with phase := .running, done := c.done + n, mflags := c.mflags, vflags := c.vflags ||| f }

/-- The elements of a `cgather` or `cscatter` sector that are left (R502): those that pass are performed, those that miss stay, those that
fail are kept with the cause of the first in box order. -/
def gatherRun (core : Nat) : List Nat → List Nat → Cmd → M (List Nat × Cmd)
  | [], wait, c => pure (wait, c)
  | b :: t, wait, c => do
    match ← eltCheck core c (c.done + b) (64 * c.num + b) with
    | .miss => gatherRun core t (wait ++ [b]) c
    | .bad f v =>
      let first := c.pend.all fun x => decide (b < x)
      gatherRun core t wait (if first then { c with pend := setIns b c.pend, cause := f, faddr := v } else { c with pend := setIns b c.pend })
    | .ok p => do
      let s ← get
      let (s, f) := moveElts s c [p]
      set s
      gatherRun core t wait { c with vflags := c.vflags ||| f }

/-- A sector of a `cgather` or `cscatter` (R285, R502). -/
def cpScattered (core : Nat) (c : Cmd) : M Unit := do
  let n := min 64 (c.total - c.done)
  let todo := if c.stamp = 1 then c.idx else List.range n
  let (wait, c) ← gatherRun core todo [] c
  if wait ≠ [] then modify fun s => putCmd s core { c with phase := .waiting, idx := wait, stamp := 1 }
  else if c.pend ≠ [] then cpFail core c c.pend c.cause c.faddr
  else modify fun s => putCmd s core { c with phase := .running, done := c.done + n, idx := [], stamp := 0 }

/-- `cmsg` performs (R288): its payload lands whole. -/
def cpMessage (core : Nat) (c : Cmd) : M Unit := do
  let s ← get
  match cpFoot s core c with
  | [a, b] =>
    match startPaddock s c [a, b] with
    | some v => cpFail core c [] cRights v
    | none =>
      let bad := (granules b.lo b.len).filter fun g =>
        let lo := max (g * 64) b.lo
        poisoned s (a.lo + (lo - b.lo)) (min (g * 64 + 64) (b.lo + b.len) - lo)
      let s := storeBytes s b.lo (readBytes s a.lo a.len)
      set (putCmd { s with poison := bad.foldl (fun t g => setIns g t) s.poison } core { c with done := c.total })
  | _ => pure ()

/-- COPY_SECTOR_PERFORM (R273, R278, R420, R448, R463, R481): the next sector of a command. (DEDUCED, log 63.) -/
def execCopySectorPerform (core : Nat) (co : Bool) (tl : Nat) (s : State) : Host.Outcome State Fault Refusal :=
  runEvent (do
    let s ← get
    match (s.core core).cmd (if co then 3 else 0) tl with
    | none => pure ()
    | some c =>
      let on := c.phase == .running || c.phase == .waiting
      if !on || !c.busy || stopServing s c || (s.job c.job).cancelled || !cpTurn (s.core core) c || heldFoot s c.foot then pure ()
      else
        match c.instr with
        | .cmsg _ => if migratingTo s c.job (c.vals.getD 3 0).toNat then pure () else cpMessage core c
        | .cgather _ | .cscatter _ => cpScattered core c
        | _ => if waitingReq s (1 + 5 * core + c.q, c.num) then pure () else cpWhole core c) s

/-- The handler that a completed command starts (R281, R288): its core, and the arrival. -/
def cpHandler (s : State) (core : Nat) (c : Cmd) : Option (Nat × Arrival) :=
  match c.instr with
  | .cmsg _ =>
    let h := c.vals.getD 2 0
    if h = 0 then none
    else
      let n := 8 * (bits (c.vals.getD 0 0) 47 32 + 1)
      some ((c.vals.getD 3 0).toNat, ⟨h, w64 (bits (c.vals.getD 1 0) 22 0), w64 n, w64 c.ctx, c.job, none⟩)
  | i =>
    if !((cpArgs i).map cpHnd).getD false then none
    else
      let b := cpMain c
      let x1 := match i with
        | .cpx _ | .cfill _ => 0
        | _ => b.lbase
      some (core, ⟨w64 b.haddr, w64 x1, w64 (c.total * cpEs c), w64 (presentNum s c.job c.lcore core c.q c.num), c.job, none⟩)

/-- What a completion records (R289): the marker of a `cmirror`. -/
def cpRecord (s : State) (c : Cmd) : State :=
  match c.instr, jobStream s c.job with
  | .cmirror _, some n => s.updStream n fun t => { t with tile := c.vals.getD 0 0 }
  | _, _ => s

/-- COPY_COMMAND_COMPLETE (R273, R281, R288, R33, R420): the oldest command of the queue, once its handler has a place. -/
def execCopyCommandComplete (core : Nat) (co : Bool) (s : State) : Host.Outcome State Fault Refusal :=
  runEvent (modify fun s =>
    match headCmd (s.core core) (if co then 3 else 0) with
    | none => s
    | some c =>
      let cut := (s.job c.job).cancelled && c.started && (c.phase == .running || c.phase == .waiting)
      if !cut && (c.phase != .running || c.busy) then s
      else if c.rest ≠ .all ∨ cut then completeCmd s core c
      else
        let t := cpRecord s c
        match cpHandler t core c with
        | none => completeCmd t core c
        | some (at_, a) =>
          match enterArrival t at_ a with
          | none => s
          | some t => completeCmd t core c) s

end Sys2Proof.Machine
end

