-- ==== Sys2Proof/Machine/Flows.lean ====
section
/-! DEFINITION. The network endpoint: flow descriptors (R391, R393), inbound messages (R320, R392, R483), ports and
acknowledgements (R483). -/

namespace Sys2Proof.Machine

/-- A flow descriptor that keeps R391, as four words. -/
def flowOk (d : List W64) : Bool :=
  let f : Flow := { desc := d }
  let g (i : Nat) : W64 := d.getD i 0
  bits (g 0) 56 51 == 0 && bits (g 1) 63 57 == 0 && bits (g 2) 63 21 == 0 && bits (g 2) 15 13 == 0 && bits (g 3) 63 57 == 0 &&
    bits (g 3) 3 0 == 0 && f.mode != 3 && f.bind != 3 && (f.bind != 0 || f.out) && (f.bind != 2 || !f.out) &&
    (f.bind == 2 || f.job == 0) && decide (6 ≤ f.lgs ∧ f.lgs ≤ 16) && (f.out || decide (1 ≤ f.lgr ∧ f.lgr ≤ 12)) &&
    (f.bind == 0 || f.ring % 64 == 0) &&
    (f.bind != 2 || (decide (f.ring + 2 ^ (f.lgs + f.lgr) ≤ 0x7FFA00) && f.haddr != 0))

/-- An admitted stream of the partition that owns a flow names it (R393, R402). -/
def flowNamed (s : State) (n : Nat) : Bool :=
  s.streams.any fun (_, st) => st.status != 0 && st.fn == (s.flow n).owner && (sdInflow st.eff == n || sdOutflow st.eff == n || sdInflow st.desc == n || sdOutflow st.desc == n)

/-- The outcome of a flow write (R393): fstat, and the descriptor where it is 0. -/
def flowTest (s : State) (fn : Nat) : Nat × List W64 :=
  let n := bits (win s fn 0x208) 15 0
  let a := bits (win s fn 0x200) 56 0
  match devReadWs s fn a 4 with
  | none => (1, [])
  | some d =>
    let old := s.flow n
    let f : Flow := { desc := d }
    let j := s.job f.job
    if n = 65535 ∨ a % 32 ≠ 0 ∨ ¬ flowOk d then (1, [])
    else if old.applied ∧ old.owner ≠ fn then (2, [])
    else if old.applied ∧ flowNamed s n ∧ (f.out ≠ old.out ∨ f.bind ≠ old.bind ∨ f.ring ≠ old.ring) then (3, [])
    else if f.bind = 2 ∧ (f.job = 0 ∨ ¬ (s.jobs.any fun p => p.1 == f.job) ∨ j.fn ≠ fn ∨ j.fin ≠ 0) then (4, [])
    else (0, d)

/-- Applies the descriptor that a function's window names (R391, R393, R483). Outbound messages that were kept are dropped when their
flow is rewritten. -/
def applyFlow (s : State) (fn : Nat) : State :=
  if s.recovery then s
  else
    let (st, d) := flowTest s fn
    let n := bits (win s fn 0x208) 15 0
    let s := setWin s fn 0x210 (w64 st)
    if st ≠ 0 then s
    else
      let s := s.setFlow n { s.flow n with applied := true, owner := fn, desc := d, unbound := false }
      { s with outKept := s.outKept.filter fun p => p.1 != n }

/-- FLOW_WRITE (R393): fgo. -/
def execFlowWrite (fn : Nat) (s : State) : Host.Outcome State Fault Refusal :=
  runEvent (modify fun s => applyFlow s fn) s

/-- The next free slot of a flow's ring (R392). -/
def Flow.freeSlot (f : Flow) : Option Nat :=
  ((List.range (2 ^ f.lgr)).map fun k => (f.nxt + k) % 2 ^ f.lgr).find? fun k => !f.slots.contains k

/-- A flow that takes inbound messages of a length under a binding, with the slot that the next one takes (R390, R392, R483). -/
def inboundSlot (s : State) (flow bind len : Nat) : Option Nat :=
  let f := s.flow flow
  if !f.applied || f.out || f.bind != bind || f.unbound || !s.ports.getLsbD f.port || decide (2 ^ f.lgs < len) ||
      decide (len = 0 ∨ 65536 < len)
  then none
  else f.freeSlot

/-- Takes a slot of a flow. -/
def takeSlot (s : State) (flow slot : Nat) : State :=
  let f := s.flow flow
  s.setFlow flow { f with slots := f.slots ++ [slot], nxt := (slot + 1) % 2 ^ f.lgr }

/-- The admitted stream that the messages of a flow release (R320): one of the partition that owns the flow (R402). -/
def streamOf (s : State) (flow : Nat) : Option Nat :=
  (s.streams.find? fun (_, st) => (st.status == 1 || st.status == 2) && st.fn == (s.flow flow).owner && sdTrig st.eff && sdInflow st.eff == flow).map (·.1)

/-- INBOUND_STREAM_MESSAGE (R320, R392, R452): a message that releases nothing leaves its slot at once. (DEDUCED, log 85.) -/
def execInboundStreamMessage (flow : Nat) (payload : List Byte) (s : State) : Host.Outcome State Fault Refusal :=
  runEvent (modify fun s =>
    match inboundSlot s flow 1 payload.length with
    | none => s
    | some slot =>
      let f := s.flow flow
      let va := f.ring + slot * 2 ^ f.lgs
      match devWriteBytes s f.owner va payload with
      | none => s
      | some s =>
        match streamOf s flow with
        | none => s.setFlow flow { f with nxt := (slot + 1) % 2 ^ f.lgr }
        | some n =>
          let s := takeSlot s flow slot
          let s := s.updStream n fun st => { st with msgs := st.msgs ++ [(flow, slot, payload.length, va, s.time)] }
          arrivalRelease s n) s

/-- INBOUND_CORE_MESSAGE (R31, R33, R84, R172, R392): the message waits in its slot until its handler can be queued. -/
def execInboundCoreMessage (flow : Nat) (payload : List Byte) (s : State) : Host.Outcome State Fault Refusal :=
  runEvent (modify fun s =>
    match inboundSlot s flow 2 payload.length with
    | none => s
    | some slot =>
      let f := s.flow flow
      let off := bits (f.desc.getD 1 0) 22 0 + slot * 2 ^ f.lgs
      let key := sliceKey f.core off
      if (s.job f.job).fin ≠ 0 ∨ paddockHit s f.core off payload.length f.job ∨ (s.core f.core).holder.isSome ∨
          (s.die (f.core / 128)).lost then s
      else
        let s := clearPoison (writeBytes s key payload) key payload.length
        let s := takeSlot s flow slot
        let a : Arrival := ⟨w64 f.haddr, w64 off, w64 payload.length, w64 flow, f.job, some (flow, slot)⟩
        let s := s.setFlow flow { s.flow flow with waiting := (s.flow flow).waiting ++ [(f.core, a)] }
        pullFlow s flow f.core (s.flow flow).waiting) s

/-- PORT_DOWN (R483). -/
def execPortDown (port : Nat) (s : State) : Host.Outcome State Fault Refusal :=
  runEvent (modify fun s => { s with ports := s.ports &&& ~~~ BitVec.twoPow 4 port }) s

/-- PORT_UP (R483): the messages kept for its flows are transmitted again. -/
def execPortUp (port : Nat) (s : State) : Host.Outcome State Fault Refusal :=
  runEvent (modify fun s =>
    if s.ports.getLsbD port then s
    else { s with
      ports := s.ports ||| BitVec.twoPow 4 port
      sent := s.sent ++ s.outKept.filter fun p => (s.flow p.1).port == port }) s

/-- PEER_ACKNOWLEDGEMENT (R483): of the oldest message kept for a flow. -/
def execPeerAcknowledgement (flow : Nat) (s : State) : Host.Outcome State Fault Refusal :=
  runEvent (modify fun s => { s with outKept := s.outKept.eraseP fun p => p.1 == flow }) s

end Sys2Proof.Machine
end

