-- ==== Sys2Proof/Machine/Gen.lean ====
section
/-! DEFINITION. The generation instructions at the enqueuing bundle (R338, R339, R341, R436): `ctr`, `smp` and `kvt`. -/

namespace Sys2Proof.Machine

/-- Enqueues a GX command (R338, R339) with the values that it captures. -/
def gxEnqueue (i : Instr) (e : EArgs) (ents : List Layout) (vals : List W64) : M Unit := do
  let _ ← enqueue { instr := i, q := 4, num := 0, ctx := 0, job := 0, lcore := 0, set := 0, ents, vals, total := 1 } e.arv
  pure ()

/-- A handle register (R339, R341, R343, R436): nothing above the handle but what `top` keeps, and its reserved bits zero. -/
def handleTo (top : Nat) (v : W64) : M Unit := engine (bits v 63 top == 0 && bits v 15 11 == 0) v
/-- A handle register without a txid. -/
def handleArg (v : W64) : M Unit := handleTo 32 v

/-- A local range of n bytes from an offset, aligned to al (R339): the alignment, then the bound. -/
def localAligned (v : W64) (al : Nat) : M Unit := aligned (v.toNat % al == 0) v
/-- The bound of a local range. -/
def localWithin (v : W64) (n : Nat) : M Unit := within (decide (v.toNat + n ≤ 2 ^ 23)) v

/-- `ctr.open` (R341, R345): the layout entry is captured with the operands (R76). -/
def execCtrOpen (e : EArgs) (s : State) : Host.Outcome State Fault Refusal :=
  runSyl (.ctrOpen e) (do
    let a ← readReg e.a false
    let b ← readReg e.b false
    engine (bits a 63 6 == 0) a
    localAligned b 8
    localWithin b 8
    let l ← getEntry a.toNat
    gxEnqueue (.ctrOpen e) e [l] [a, b]) s

/-- `ctr.close` (R341). -/
def execCtrClose (e : EArgs) (s : State) : Host.Outcome State Fault Refusal :=
  runSyl (.ctrClose e) (do
    let a ← readReg e.a false
    handleArg a
    gxEnqueue (.ctrClose e) e [] [a]) s

/-- `ctr.append` (R341, R353). -/
def execCtrAppend (e : EArgs) (s : State) : Host.Outcome State Fault Refusal :=
  runSyl (.ctrAppend e) (do
    let a ← readReg e.a false
    let b ← readReg e.b false
    let c ← readReg e.c false
    handleArg a
    engine (decide (1 ≤ c.toNat ∧ c.toNat ≤ 4096)) c
    localAligned b 4
    localWithin b (4 * c.toNat)
    gxEnqueue (.ctrAppend e) e [] [a, b, c]) s

/-- `ctr.prop` (R341, R354). -/
def execCtrProp (e : EArgs) (s : State) : Host.Outcome State Fault Refusal :=
  runSyl (.ctrProp e) (do
    let a ← readReg e.a false
    let b ← readReg e.b false
    let c ← readReg e.c false
    handleArg a
    engine (c &&& ~~~ 0x300FF == 0 && bits c 7 0 != 0) c
    localAligned b 64
    localWithin b (32 + 16 * bits c 7 0)
    gxEnqueue (.ctrProp e) e [] [a, b, c]) s

/-- `ctr.save` and `ctr.load` (R341, R357). -/
def gxImage (i : Instr) (e : EArgs) : M Unit := do
  let a ← readReg e.a false
  let b ← readReg e.b false
  let c ← readReg e.c false
  handleArg a
  engine (bits b 63 6 == 0) b
  localAligned c 8
  localWithin c 8
  let l ← getEntry b.toNat
  gxEnqueue i e [l] [a, b, c]

/-- `ctr.save` (R341, R357). -/
def execCtrSave (e : EArgs) (s : State) : Host.Outcome State Fault Refusal := runSyl (.ctrSave e) (gxImage (.ctrSave e) e) s
/-- `ctr.load` (R341, R357). -/
def execCtrLoad (e : EArgs) (s : State) : Host.Outcome State Fault Refusal := runSyl (.ctrLoad e) (gxImage (.ctrLoad e) e) s

/-- `ctr.trim` (R341, R355). -/
def execCtrTrim (e : EArgs) (s : State) : Host.Outcome State Fault Refusal :=
  runSyl (.ctrTrim e) (do
    let a ← readReg e.a false
    let b ← readReg e.b false
    handleArg a
    engine (bits b 63 32 == 0) b
    gxEnqueue (.ctrTrim e) e [] [a, b]) s

/-- `smp.run` and `smp.accept` (R341). -/
def gxSample (i : Instr) (e : EArgs) : M Unit := do
  let a ← readReg e.a false
  let b ← readReg e.b false
  localAligned a 64
  localAligned b 16
  localWithin a 64
  localWithin b 16
  gxEnqueue i e [] [a, b]

/-- `smp.run` (R341, R364). -/
def execSmpRun (e : EArgs) (s : State) : Host.Outcome State Fault Refusal := runSyl (.smpRun e) (gxSample (.smpRun e) e) s
/-- `smp.accept` (R341, R365). -/
def execSmpAccept (e : EArgs) (s : State) : Host.Outcome State Fault Refusal := runSyl (.smpAccept e) (gxSample (.smpAccept e) e) s

/-- `kvt.open` (R341, R347). -/
def execKvtOpen (e : EArgs) (s : State) : Host.Outcome State Fault Refusal :=
  runSyl (.kvtOpen e) (do
    let a ← readReg e.a false
    let b ← readReg e.b false
    let c ← readReg e.c false
    handleArg a
    engine (decide (1 ≤ b.toNat ∧ b.toNat ≤ 1024)) b
    localAligned c 8
    localWithin c 8
    gxEnqueue (.kvtOpen e) e [] [a, b, c]) s

/-- `kvt.commit` (R341, R349). -/
def execKvtCommit (e : EArgs) (s : State) : Host.Outcome State Fault Refusal :=
  runSyl (.kvtCommit e) (do
    let a ← readReg e.a false
    let b ← readReg e.b false
    let c ← readReg e.c false
    handleTo 48 a
    engine (b &&& ~~~ 0x0000FFFF007FFFFF == 0) b
    aligned (bits b 22 0 % 2 == 0) (w64 (bits b 22 0))
    localAligned c 8
    within (decide (bits b 22 0 + 2 * bits b 47 32 ≤ 2 ^ 23)) (w64 (bits b 22 0))
    localWithin c 8
    gxEnqueue (.kvtCommit e) e [] [a, b, c]) s

/-- `kvt.drop` (R341, R350). -/
def execKvtDrop (e : EArgs) (s : State) : Host.Outcome State Fault Refusal :=
  runSyl (.kvtDrop e) (do
    let a ← readReg e.a false
    handleTo 48 a
    gxEnqueue (.kvtDrop e) e [] [a]) s

end Sys2Proof.Machine
end

