-- ==== Sys2Proof/Machine/Contrail.lean ====
section
/-! DEFINITION. Contrail (R351 to R357): the history and the index of a sequence, which stand in its regions of memory, and what a
command computes on them. -/

namespace Sys2Proof.Machine

/-- The n-gram length of a code (R351). -/
def ngram (code : Nat) : Nat := [2, 3, 4, 6, 8, 12, 16, 24].getD code 2

/-- The codes from the longest to the shortest. -/
def codesDown : List Nat := [7, 6, 5, 4, 3, 2, 1, 0]

/-- A byte address in a Contrail region (R452, R477, R498): its key. The device reads and writes it on its own behalf. -/
def regionM (part va n : Nat) (wr : Bool) : M Nat := do
  let s ← get
  match translate s { part, cluster := none, va, r := !wr, w := wr } with
  | .miss _ => trapM cXlateS2 (w64 va)
  | .fail c => trapM c (w64 va)
  | .ok k _ =>
    check (!lostKey s k) cPoison (w64 (va - va % 64))
    check (wr || !poisoned s k n) cPoison (w64 (va - va % 64))
    return k

/-- tok(p) (R351). -/
def tokM (part : Nat) (q : Seq) (p : Nat) : M Nat := do
  let k ← regionM part (q.histVa + 4 * (p % 2 ^ q.lgW)) 4 false
  return bytesToNat (← readAt k 4)

/-- Sets tok(p). -/
def setTok (part : Nat) (q : Seq) (p v : Nat) : M Unit := do
  let k ← regionM part (q.histVa + 4 * (p % 2 ^ q.lgW)) 4 true
  modify fun s => writeNat s k 4 v

/-- tok(p) to tok(p + n - 1). -/
def toksM (part : Nat) (q : Seq) (p : Nat) : Nat → M (List Nat)
  | 0 => pure []
  | n + 1 => do
    let t ← tokM part q p
    let l ← toksM part q (p + 1) n
    return t :: l

/-- Index entry i (R351). -/
def idxM (part : Nat) (q : Seq) (i : Nat) : M W64 := do
  let k ← regionM part (q.idxVa + 8 * i) 8 false
  return w64 (bytesToNat (← readAt k 8))

/-- Sets index entry i. -/
def setIdx (part : Nat) (q : Seq) (i : Nat) (v : W64) : M Unit := do
  let k ← regionM part (q.idxVa + 8 * i) 8 true
  modify fun s => writeNat s k 8 v.toNat

/-- n index entries from entry i. -/
def idxsM (part : Nat) (q : Seq) (i : Nat) : Nat → M (List W64)
  | 0 => pure []
  | n + 1 => do
    let e ← idxM part q i
    let l ← idxsM part q (i + 1) n
    return e :: l

/-- The fields of an index entry (R351): end position. -/
def entryPos (e : W64) : Nat := bits e 63 32
/-- Hash tag. -/
def entryTag (e : W64) : Nat := bits e 31 8
/-- Length code. -/
def entryCode (e : W64) : Nat := bits e 7 5
/-- An entry as it is written. -/
def indexEntry (p tag code : Nat) : W64 := w64 (p % 2 ^ 32 * 2 ^ 32 + tag % 2 ^ 24 * 2 ^ 8 + code % 8 * 2 ^ 5 + 1)

/-- An entry is live (R351). -/
def entryLive (q : Seq) (e : W64) : Bool :=
  bit e 0 && decide (q.wstart + ngram (entryCode e) ≤ entryPos e + 1) && decide (entryPos e + 1 < q.hlen)

/-- One step of the hash (R352). -/
def hashStep (h : W64) (t : Nat) : W64 :=
  let h := (h ^^^ w64 t) * 0xD6E8FEB86659FD93
  h ^^^ (h >>> 29)

/-- The bucket and tag of an n-gram (R352). -/
def hashng (lgI code : Nat) (toks : List Nat) : Nat × Nat :=
  let h := toks.foldl hashStep (0x5A17C3E900000000 + w64 code)
  (bits h (lgI - 4) 0, bits h 63 40)

/-- insert(p, n) (R353). -/
def insertM (part : Nat) (q : Seq) (p code : Nat) : M Unit := do
  let n := ngram code
  let toks ← toksM part q (p + 1 - n) n
  let (b, tag) := hashng q.lgI code toks
  let ways ← idxsM part q (8 * b) 8
  let mine := ways.findIdx? fun e => entryLive q e && entryCode e == code && entryTag e == tag
  let free := ways.findIdx? fun e => !entryLive q e
  let least := ways.foldl (fun m e => min m (entryPos e)) (2 ^ 32)
  let oldest := ways.findIdx? fun e => entryPos e == least
  match mine, free, oldest with
  | some w, _, _ => setIdx part q (8 * b + w) (setBits (ways.getD w 0) 63 32 p)
  | none, some w, _ => setIdx part q (8 * b + w) (indexEntry p tag code)
  | none, none, some w => setIdx part q (8 * b + w) (indexEntry p tag code)
  | none, none, none => pure ()

/-- One token is appended (R353). -/
def appendTok (part : Nat) (q : Seq) (v : Nat) : M Seq := do
  let p := q.hlen
  setTok part q p v
  let q := { q with hlen := p + 1, wstart := max q.wstart (p + 1 - 2 ^ q.lgW) }
  for c in codesDown do
    if q.wstart + ngram c ≤ p then insertM part q (p - 1) c
  return q

/-- The candidates of a proposal (R354), the longest first and the latest first among equals: (n, p). -/
def candidatesM (part : Nat) (q : Seq) : M (List (Nat × Nat)) := do
  let mut out : List (Nat × Nat) := []
  for c in codesDown do
    let n := ngram c
    if q.wstart + n ≤ q.hlen then
      let tail ← toksM part q (q.hlen - n) n
      let (b, tag) := hashng q.lgI c tail
      let ways ← idxsM part q (8 * b) 8
      let mut found : List (Nat × Nat) := []
      for e in ways do
        if entryLive q e && entryCode e == c && entryTag e == tag then
          let l ← toksM part q (entryPos e + 1 - n) n
          if l == tail then found := found ++ [(n, entryPos e)]
      out := out ++ found.mergeSort fun a b => decide (b.2 ≤ a.2)
  return out

/-- The branches chosen from the candidates (R354): their first tokens differ. -/
def chooseBranches (part : Nat) (q : Seq) (nbr : Nat) : List (Nat × Nat) → List (Nat × Nat) → List Nat → M (List (Nat × Nat))
  | [], got, _ => pure got
  | (n, p) :: t, got, firsts => do
    if nbr ≤ got.length then return got
    let v ← tokM part q (p + 1)
    if firsts.contains v then chooseBranches part q nbr t got firsts
    else chooseBranches part q nbr t (got ++ [(n, p)]) (firsts ++ [v])

/-- `ctr.prop` (R354): the words cm0 to cm3, and what is written from the output offset on, as (offset, bytes). -/
def proposeM (part : Nat) (q : Seq) (kx nbr : Nat) : M (List W64 × List (Nat × List Byte)) := do
  if q.taint then
    let l ← freeBytes (32 + 16 * kx)
    return ((List.range 4).map fun j => w64 (bytesToNat ((l.drop (8 * j)).take 8)), [(0, l)])
  let cs ← candidatesM part q
  let chosen ← if kx = 0 then pure [] else chooseBranches part q nbr cs [] []
  let mut cms : List W64 := []
  let mut out : List (Nat × List Byte) := []
  for (n, p) in chosen do
    let k := min kx (q.hlen - 1 - p)
    let l ← toksM part q (p + 1) k
    out := out ++ [(32 + 4 * (cms.length * kx), l.flatMap fun v => natToBytes 4 v)]
    cms := cms ++ [w64 (n + p * 2 ^ 8 + k * 2 ^ 40)]
  let words := cms ++ List.replicate (4 - cms.length) 0
  return (words, (0, words.flatMap fun v => natToBytes 8 v.toNat) :: out)

/-- The draft budget cap of a launch (R327, R354). -/
def draftCap (s : State) (job : Nat) : Nat :=
  let j := s.job job
  if j.strm then levelEntry s j / 16 % 256 else 255

/-- `ctr.trim` (R355). -/
def trimM (part : Nat) (q : Seq) (len : Nat) : M Seq := do
  let n := min len q.hlen
  for i in List.range (2 ^ q.lgI) do
    let e ← idxM part q i
    if bit e 0 && decide (n ≤ entryPos e + 1) then setIdx part q i 0
  return { q with hlen := n, wstart := min q.wstart n }

/-- Bytes of a sequence's image (R356). -/
def imageSize (q : Seq) : Nat := 64 + 4 * 2 ^ q.lgW + 8 * 2 ^ q.lgI

/-- The image of a sequence (R356). -/
def saveImage (part : Nat) (q : Seq) : M (List Byte) := do
  let head : List W64 := [w64 (2 ^ 32 + 0x4354524C), w64 (q.wstart * 2 ^ 32 + q.hlen), w64 (q.lgI * 2 ^ 8 + q.lgW), 0, 0, 0, 0, 0]
  let hb := head.flatMap fun v => natToBytes 8 v.toNat
  if q.taint then
    let l ← freeBytes (imageSize q - 64)
    return hb ++ l
  let n := q.hlen - q.wstart
  let h ← toksM part q q.wstart n
  let x ← idxsM part q 0 (2 ^ q.lgI)
  return hb ++ (h.flatMap fun v => natToBytes 4 v) ++ List.replicate (4 * (2 ^ q.lgW - n)) 0 ++ x.flatMap fun v => natToBytes 8 v.toNat

/-- The header of an image that a sequence can load (R357). -/
def headerOk (q : Seq) (h : List W64) : Bool :=
  h.getD 0 0 == w64 (2 ^ 32 + 0x4354524C) && h.getD 2 0 == w64 (q.lgI * 2 ^ 8 + q.lgW) && ((List.range 5).all fun i => h.getD (3 + i) 0 == 0) &&
    decide (bits (h.getD 1 0) 31 0 ≤ bits (h.getD 1 0) 63 32 + 2 ^ q.lgW)

/-- An index entry that an image may hold (R357). -/
def loadEntryOk (hlen : Nat) (e : W64) : Bool :=
  bits e 4 1 == 0 && (!bit e 0 || (decide (entryPos e + 1 < hlen) && decide (ngram (entryCode e) ≤ entryPos e + 1)))

/-- 64-bit words of a run of bytes. -/
def wordsOf (l : List Byte) (n : Nat) : List W64 := (List.range n).map fun i => w64 (bytesToNat ((l.drop (8 * i)).take 8))

/-- Replaces the Contrail state of a sequence by an image's (R357): none where the image is bad. Its tokens are not checked. (DEDUCED,
log 71.) -/
def loadImage (part : Nat) (q : Seq) (b : List Byte) : M (Option Seq) := do
  let h := wordsOf b 8
  let hlen := bits (h.getD 1 0) 31 0
  let wstart := bits (h.getD 1 0) 63 32
  let x := wordsOf (b.drop (64 + 4 * 2 ^ q.lgW)) (2 ^ q.lgI)
  if !headerOk q h || !(x.all (loadEntryOk hlen)) then return none
  let q' := { q with hlen, wstart, taint := false }
  for i in List.range (hlen - wstart) do
    setTok part q' (wstart + i) (bytesToNat ((b.drop (64 + 4 * i)).take 4))
  for (v, i) in x.zipIdx do
    setIdx part q' i v
  return some q'

end Sys2Proof.Machine
end

