-- ==== Sys2Proof/Machine/GenRun.lean ====
section
/-! DEFINITION. The steps of the GX queue (R338 to R350, R357, R420, R436, R448, R452, R477, R485 to R489): each `ctr` and `kvt` command
acts on its sequence in one step, when it starts. -/

namespace Sys2Proof.Machine

/-- A captured value of a command. -/
def gv (c : Cmd) (i : Nat) : W64 := c.vals.getD i 0

/-- The handle that a command names. -/
def gxHandle (c : Cmd) : Nat := bits (gv c 0) 31 0

/-- A command of the sampler engine (R338). -/
def isSmp (i : Instr) : Bool :=
  match i with
  | .smpRun _ | .smpAccept _ => true
  | _ => false

/-- The partition of a command. -/
def cmdPart (s : State) (c : Cmd) : Nat := (s.job c.job).fn

/-- Who waits on a page request for a GX command (R448). -/
def gxWaiter (core : Nat) (c : Cmd) : Nat × Nat := (1 + 5 * core + 4, c.num)

/-- The path of a `kvt.commit` (R349). -/
def commitPath (s : State) (core : Nat) (c : Cmd) : List Nat :=
  (List.range (bits (gv c 1) 47 32)).map fun i => readNat s (sliceKey core (bits (gv c 1) 22 0 + 2 * i)) 2

/-- The positions and tentative slots that a `kvt.commit` copies (R340), in virtual space; none that cannot be placed. -/
def commitFoot (s : State) (core : Nat) (c : Cmd) : List Foot :=
  let h := gxHandle c
  let part := cmdPart s c
  let q := s.seq (handleDie h) (handleSlot h)
  let here := match q.tx with
    | some (t, _, _) => handleOk s part h && t == bits (gv c 0) 47 32
    | none => false
  if !here then []
  else
    ((commitPath s core c).zipIdx).flatMap fun (x, i) =>
      let f (tent : Bool) (n : Nat) : List Foot := match kvPage s part q tent n with
        | some a => [⟨2 ^ 62 + part * 2 ^ 57 + a, 2 ^ q.lgpb, !tent, true, false⟩]
        | none => []
      f true x ++ f false (q.clen + i)

/-- The footprint of a `ctr` or `kvt` command (R340). -/
def gxFoot (s : State) (core : Nat) (c : Cmd) : List Foot :=
  let at_ (o n : Nat) (w : Bool) : Foot := ⟨sliceKey core o, n, w, true, false⟩
  let v (i : Nat) : Nat := (gv c i).toNat
  match c.instr with
  | .ctrOpen _ => [at_ (v 1) 8 true]
  | .ctrAppend _ => [at_ (v 1) (4 * v 2) false]
  | .ctrProp _ => [at_ (v 1) (32 + 16 * bits (gv c 2) 7 0) true]
  | .ctrSave _ | .ctrLoad _ | .kvtOpen _ => [at_ (v 2) 8 true]
  | .kvtCommit _ => [at_ (bits (gv c 1) 22 0) (2 * bits (gv c 1) 47 32) false, at_ (v 2) 8 true] ++ commitFoot s core c
  | _ => []

/-- Writes a result word (R342). -/
def resultWord (core off value status : Nat) : M Unit :=
  modify fun s => writeNat s (sliceKey core off) 8 (value % 2 ^ 32 * 2 ^ 32 + status)

/-- The bytes of a VM entry from a virtual address, as runs within pages (R441, R445, R477, R482): no key where the page has gone with
its die. -/
def vmRuns (core : Nat) (c : Cmd) (e : Layout) (wr mirror : Bool) : Nat → Nat → Nat → M (List (Option Nat × Nat))
  | 0, _, _ => pure []
  | fuel + 1, va, n => do
    if n = 0 then return []
    let m := min n (2 ^ 16 - va % 2 ^ 16)
    let s ← get
    let r ← xlateM { part := cmdPart s c, cluster := some (core / 8), va, r := !wr, w := wr, mirror := mirror || (e.mir && movedJob s c.job)
                     die := if mirror then some (core / 128) else none, waiter := gxWaiter core c }
    match r with
    | .error f => trapM f (w64 va)
    | .ok k =>
      let s ← get
      let gone := lostKey s k && e.dis && !e.mir && movedJob s c.job
      check (gone || !lostKey s k) cPoison (w64 (va - va % 64))
      let l ← vmRuns core c e wr mirror fuel (va + m) (n - m)
      return (if gone then none else some k, m) :: l

/-- Reads n bytes at element 0 of a VM entry (R498). -/
def vmRead (core : Nat) (c : Cmd) (e : Layout) (n : Nat) : M (List Byte) := do
  let rs ← vmRuns core c e false false (n / 2 ^ 16 + 2) e.base n
  let s ← get
  check (!(rs.any fun r => match r.1 with
    | some k => poisoned s k r.2
    | none => false)) cPoison (w64 (e.base - e.base % 64))
  let ls ← rs.mapM fun r => match r.1 with
    | some k => readAt k r.2
    | none => pure (List.replicate r.2 0)
  return ls.flatMap id

/-- Writes bytes at runs. -/
def runWrite (s : State) (rs : List (Option Nat × Nat)) (l : List Byte) : State :=
  (rs.foldl (fun (a : State × List Byte) r =>
    (match r.1 with
      | some k => storeBytes a.1 k (a.2.take r.2)
      | none => a.1, a.2.drop r.2)) (s, l)).1

/-- Writes bytes at element 0 of a VM entry, and at its mirror (R75, R445, R481), whatever the launch: R75 mirrors every write through the
entry, while R13 speaks of mirrored streams alone. (DESIGN CHOICE, log 123.) -/
def vmWrite (core : Nat) (c : Cmd) (e : Layout) (l : List Byte) : M Unit := do
  let n := l.length
  let rs ← vmRuns core c e true false (n / 2 ^ 16 + 2) e.base n
  let s ← get
  let twice := e.mir && !movedJob s c.job && !(s.die ((core / 128) ^^^ 1)).lost
  let ms ← if twice then vmRuns core c e true true (n / 2 ^ 16 + 2) e.base n else pure []
  modify fun s => taintSeqs (runWrite (runWrite s rs l) ms l) (cmdPart s c) e.base n

/-- A layout entry that names plain bytes in VM (R345, R357). -/
def byteEntry (e : Layout) : Bool := e.valid && e.space == spVm && e.rank == 1 && e.fmt == 0x05

/-- A sequence descriptor that can be opened (R344, R345). -/
def descOk (w : List W64) : Bool :=
  let g (i : Nat) : W64 := w.getD i 0
  let lgpb := bits (g 5) 20 16
  let lgI := bits (g 5) 12 8
  let lgW := bits (g 5) 4 0
  ((List.range 4).all fun i => bits (g i) 63 57 == 0) && bits (g 5) 63 42 == 0 && bits (g 5) 31 21 == 0 && bits (g 5) 15 13 == 0 &&
    bits (g 5) 7 5 == 0 && g 6 == 0 && g 7 == 0 &&
    decide (6 ≤ lgpb ∧ lgpb ≤ 16) && decide (10 ≤ lgI ∧ lgI ≤ 16) && decide (8 ≤ lgW ∧ lgW ≤ 16) &&
    bits (g 0) 56 0 % 64 == 0 && bits (g 1) 56 0 % 64 == 0 && bits (g 2) 56 0 % 8 == 0 && bits (g 3) 56 0 % 8 == 0 &&
    bits (g 4) 63 32 % 2 ^ (16 - lgpb) == 0 && decide (bits (g 4) 31 0 ≤ bits (g 4) 63 32)

/-- Writes zeros over part of a Contrail region. (DEDUCED, log 72.) -/
def zeroRegion (part : Nat) : Nat → Nat → Nat → M Unit
  | 0, _, _ => pure ()
  | fuel + 1, va, n => do
    if n = 0 then return
    let m := min n (2 ^ 16 - va % 2 ^ 16)
    let k ← regionM part va m true
    modify fun s => clearPoison { s with mem := s.mem.filter fun p => !decide (k ≤ p.1 ∧ p.1 < k + m) } k m
    zeroRegion part fuel (va + m) (n - m)

/-- `ctr.open` (R345). -/
def ctrOpenM (core : Nat) (c : Cmd) : M Unit := do
  let e := c.ents.getD 0 {}
  check (byteEntry e && e.rd && e.wr && decide (64 ≤ e.ext 0)) cRights (gv c 0)
  let b ← vmRead core c e 64
  let w := wordsOf b 8
  let off := (gv c 1).toNat
  let die := core / 128
  let s ← get
  let part := cmdPart s c
  if e.base % 64 ≠ 0 || !descOk w then resultWord core off 0 2
  else
    match (List.range 2048).find? fun i => !(s.seq die i).isOpen with
    | none => resultWord core off 0 1
    | some slot => do
      let gen := (s.seq die slot).gen
      let q : Seq := { gen, isOpen := true, part, desc := w, clen := bits (w.getD 4 0) 31 0, dva := e.base, txids := 1 }
      zeroRegion part (8 * 2 ^ q.lgI / 2 ^ 16 + 2) q.idxVa (8 * 2 ^ q.lgI)
      modify fun s => s.setSeq die slot q
      resultWord core off (die * 2 ^ 30 + gen * 2 ^ 16 + slot) 0

/-- The pages of a commit's copies (R487): source and destination keys. -/
def commitPages (core : Nat) (c : Cmd) (part : Nat) (q : Seq) : List (Nat × Nat) → M (List (Nat × Nat))
  | [] => pure []
  | (x, i) :: t => do
    let s ← get
    match kvPage s part q true x, kvPage s part q false (q.clen + i) with
    | some a, some b => do
      let one (va : Nat) (wr : Bool) : M Nat := do
        match ← xlateM { part, cluster := some (core / 8), va, r := !wr, w := wr, waiter := gxWaiter core c } with
        | .error f => trapM f (w64 va)
        | .ok k =>
          let s ← get
          check (!lostKey s k) cPoison (w64 (va - va % 64))
          return k
      let ka ← one a false
      let kb ← one b true
      let l ← commitPages core c part q t
      return (ka, kb) :: l
    | _, _ => trapM cBounds (w64 (gxHandle c))

/-- Copies one tentative slot to its position (R349, R487): poison is carried. -/
def commitCopy (s : State) (n : Nat) (p : Nat × Nat) : State :=
  let bad := (List.range (n / 64)).filter fun g => s.poison.contains (p.1 / 64 + g)
  let l := if noMemory p.1 then (List.range n).map fun i => Config.freeByte (s.free + i) else readBytes s p.1 n
  let s := storeBytes { s with free := if noMemory p.1 then s.free + n else s.free } p.2 l
  { s with poison := bad.foldl (fun l g => setIns (p.2 / 64 + g) l) s.poison }

/-- `kvt.commit` (R347, R349, R487): the txid, then the path, then the capacity. (DESIGN CHOICE, log 70.) -/
def commitM (core : Nat) (c : Cmd) (q : Seq) : M Unit := do
  let s ← get
  let h := gxHandle c
  let part := cmdPart s c
  let off := (gv c 2).toNat
  let n := bits (gv c 1) 47 32
  match q.tx with
  | none => resultWord core off 0 4
  | some (t, cap, _) =>
    if t ≠ bits (gv c 0) 47 32 then resultWord core off 0 4
    else do
      let path := commitPath s core c
      check (n != 0 && decide (n ≤ cap) && path.all fun x => decide (x < cap)) cEngine (w64 n)
      if q.maxpos < q.clen + n then resultWord core off 0 5
      else do
        let ks ← commitPages core c part q path.zipIdx
        modify fun s => ks.foldl (fun s p => commitCopy s (2 ^ q.lgpb) p) s
        let len := q.clen + n
        modify fun s => (devStore (looseSlots s q) part (q.dva + 0x20) 4 len).setSeq (handleDie h) (handleSlot h) { q with clen := len, tx := none }
        resultWord core off len 0

/-- The step of a `ctr` or `kvt` command on its sequence (R340, R343): the values of cm0 to cm3 that its completion writes. -/
def gxBody (core : Nat) (c : Cmd) : M (List W64) := do
  match c.instr with
  | .ctrOpen _ => do
    ctrOpenM core c
    return []
  | i => do
    let h := gxHandle c
    let s ← get
    let part := cmdPart s c
    check (handleOk s part h) cRights (w64 h)
    let q := s.seq (handleDie h) (handleSlot h)
    let put (q : Seq) : M Unit := modify fun s => s.setSeq (handleDie h) (handleSlot h) q
    match i with
    | .ctrClose _ => do
      modify fun s => closeSeq s (handleDie h) (handleSlot h)
      return []
    | .ctrAppend _ => do
      let toks := (List.range (gv c 2).toNat).map fun i => readNat s (sliceKey core ((gv c 1).toNat + 4 * i)) 4
      check (toks.all fun v => decide (v < 2 ^ 20)) cEngine (w64 ((toks.find? fun v => decide (2 ^ 20 ≤ v)).getD 0))
      check (decide (q.hlen + toks.length < 2 ^ 32)) cEngine (w64 q.hlen)
      let q ← toks.foldlM (fun q v => appendTok part q v) q
      put q
      return []
    | .ctrProp _ => do
      let kx := min (bits (gv c 2) 7 0) (draftCap s c.job)
      let (cms, out) ← proposeM part q kx (bits (gv c 2) 17 16 + 1)
      modify fun s => out.foldl (fun s (o, l) => storeBytes s (sliceKey core ((gv c 1).toNat + o)) l) s
      return cms
    | .ctrTrim _ => do
      let q ← trimM part q (bits (gv c 1) 31 0)
      put q
      return []
    | .ctrSave _ => do
      let e := c.ents.getD 0 {}
      check (byteEntry e && e.wr && decide (imageSize q ≤ e.ext 0)) cRights (gv c 1)
      let l ← saveImage part q
      vmWrite core c e l
      resultWord core (gv c 2).toNat (imageSize q) 0
      return []
    | .ctrLoad _ => do
      let e := c.ents.getD 0 {}
      check (byteEntry e && e.rd) cRights (gv c 1)
      check (decide (64 ≤ e.ext 0)) cBounds (gv c 1)
      let hb ← vmRead core c e 64
      if !headerOk q (wordsOf hb 8) then resultWord core (gv c 2).toNat 0 2
      else do
        check (decide (imageSize q ≤ e.ext 0)) cBounds (gv c 1)
        let b ← vmRead core c e (imageSize q)
        match ← loadImage part q b with
        | none => resultWord core (gv c 2).toNat 0 2
        | some q => do
          put q
          resultWord core (gv c 2).toNat 0 0
      return []
    | .kvtOpen _ => do
      let cap := (gv c 1).toNat
      let off := (gv c 2).toNat
      if q.tx.isSome then resultWord core off 0 3
      else if q.tmax < cap then resultWord core off 0 5
      else do
        let q' := { q with tx := some (q.txids, cap, c.job), txids := q.txids % 0xFFFF + 1 }
        modify fun s => looseSlots s q'
        put q'
        resultWord core off q.txids 0
      return []
    | .kvtCommit _ => do
      commitM core c q
      return []
    | .kvtDrop _ => do
      match q.tx with
      | some (t, _, _) => if t = bits (gv c 0) 47 32 then do
          modify fun s => looseSlots s q
          put { q with tx := none }
      | none => pure ()
      return []
    | _ => return []

/-- A translation cause. -/
def isXlate (f : BitVec 8) : Bool := f == cXlateS1 || f == cXlateS2 || f == cXlatePerm

/-- How a command's start ends: the faults of its step and of its footprint, in the order of R423. A step that faults or waits changes
nothing (R340, R448). The step answers the values of cm0 to cm3 and what has joined the footprint. (DEDUCED, log 68.) -/
def gxStart (core : Nat) (c : Cmd) (poison : Bool) (foot : List Foot) (body : M (List W64 × List Foot)) (s : State) :
    Except Stop (Unit × State) :=
  let c := { c with phase := .running, started := true, foot }
  let fail (f : BitVec 8) (v : W64) : Except Stop (Unit × State) :=
    .ok ((), failCmd (dropFailed s (gxWaiter core c)) core { c with done := 0, first := [], pend := [] } f v)
  let r := body s
  let early : Option (BitVec 8 × W64) := match r with
    | .error (.trap f v) => if f == cRights || f == cBounds then some (f, v) else none
    | _ => none
  let xl : Option (BitVec 8 × W64) := match r with
    | .error (.trap f v) => if isXlate f then some (f, v) else none
    | _ => none
  match early, startPaddock s c foot with
  | some (f, v), _ => fail f v
  | none, some v => fail cRights v
  | none, none =>
    match xl, r with
    | some (f, v), _ => fail f v
    | none, .error (.hold f) => .ok ((), putCmd (f s) core { c with phase := .waiting })
    | none, .error (.stuck f) => .error (.stuck f)
    | none, _ =>
      match startRace s core c foot with
      | some (f, v) => fail f v
      | none =>
        match (if poison then startPoison s foot else none) with
        | some v => fail cPoison v
        | none =>
          match r with
          | .ok ((cms, more), s') =>
            .ok ((), putCmd s' core { c with done := c.total, foot := foot ++ more, cfg := cms.zipIdx.map fun (v, i) => (i, v) })
          | .error (.trap f v) => fail f v
          | .error _ => .ok ((), s)

/-- The command of a core's GX queue that can start (R338): the oldest, not begun, or answered by its page requests. -/
def gxNext (s : State) (core : Nat) : Option Cmd :=
  match headCmd (s.core core) 4 with
  | none => none
  | some c =>
    let fresh := c.phase == .queued || (c.phase == .waiting && !waitingReq s (gxWaiter core c))
    if fresh && c.rest == .all && !stopServing s c && !(s.job c.job).cancelled && !(s.die (core / 128)).lost && !heldFoot s (gxFoot s core c)
    then some c else none

/-- GX_COMMAND_START (R338 to R343, R489): a `ctr` or `kvt` command starts. A command whose writes stand and whose arrival or tokens are
left starts to complete (R460). -/
def execGxCommandStart (core : Nat) (s : State) : Host.Outcome State Fault Refusal :=
  runEvent (fun s =>
    match headCmd (s.core core) 4 with
    | some c =>
      if c.phase = .queued ∧ c.rest ≠ .all then .ok ((), putCmd s core { c with phase := .running, started := true })
      else
        match gxNext s core with
        | none => .ok ((), s)
        | some c =>
          if isSmp c.instr then .ok ((), s)
          else
            let poison := match c.instr with
              | .kvtCommit _ => false
              | _ => true
            gxStart core c poison (gxFoot s core c) (do return (← gxBody core c, [])) s
    | none => .ok ((), s)) s

/-- GX_COMMAND_COMPLETE (R338, R354, R420): the oldest command of the queue completes; cm0 to cm3 take their values. A cancelled command
that still waits on a page request is discarded. -/
def execGxCommandComplete (core : Nat) (s : State) : Host.Outcome State Fault Refusal :=
  runEvent (modify fun s =>
    match headCmd (s.core core) 4 with
    | none => s
    | some c =>
      if c.phase = .waiting ∧ (s.job c.job).cancelled then completeCmd s core { c with quiet := true }
      else if c.phase ≠ .running then s
      else
        let s := if c.cfg = [] ∨ c.quiet ∨ c.rest ≠ .all then s
          else s.updCtx c.ctx fun x => { x with cm := Vector.ofFn fun i : Fin 4 => mapGet 0 c.cfg i.val }
        completeCmd s core c) s

end Sys2Proof.Machine
end

