-- ==== Sys2Proof/Machine/LayoutOps.lean ====
section
/-! DEFINITION. `lview` and `lget` (R77, R167 to R169). -/

namespace Sys2Proof.Machine

/-- Origin i of a view descriptor (R168). -/
def viewOrigin (d : List W64) (i : Nat) : Nat := bits (d.getD (i / 2) 0) (32 * (i % 2) + 31) (32 * (i % 2))
/-- Extent i of a view descriptor. -/
def viewExtent (d : List W64) (i : Nat) : Nat := bits (d.getD (3 + i / 2) 0) (32 * (i % 2) + 31) (32 * (i % 2))
/-- The rank of a view. -/
def viewRank (d : List W64) : Nat := bits (d.getD 6 0) 2 0

/-- The rules of R77 and R168 for a view of a parent entry. -/
def viewOk (p : Layout) (d : List W64) : Bool :=
  let w := d.getD 6 0
  let n := viewRank d
  bits w 63 7 == 0 && d.getD 7 0 == 0 && decide (1 ≤ n ∧ n ≤ p.rank) &&
    (!bit w 3 || p.rd) && (!bit w 4 || p.wr) && (bit w 5 || !p.chk) && (!bit w 6 || p.dis) &&
    ((List.range 6).all fun i =>
      if p.rank ≤ i then viewOrigin d i == 0 && viewExtent d i == 0
      else if n ≤ i then decide (viewOrigin d i < p.ext i) && viewExtent d i == 0
      else decide (viewOrigin d i < p.ext i) && decide (1 ≤ viewExtent d i) &&
        decide (viewOrigin d i + viewExtent d i ≤ p.ext i)) &&
    (decide (p.space < spNet) || p.space == spHost || (List.range 6).all fun i => viewOrigin d i == 0)

/-- The base of a view (R167): the parent's element address at the origin, before swz; none where it lies outside the parent's
space. (DEDUCED, log 102.) -/
def viewBase (p : Layout) (d : List W64) : Option Nat :=
  if p.space = spNet ∨ p.space = spKv then some p.base
  else
    match elemOff p ((List.range 6).map (viewOrigin d)) with
    | none => none
    | some off =>
      let lim : Nat := if p.inSram then 2 ^ 23 else 2 ^ 57
      let o : Int := (p.base % lim : Nat) + off
      if o < 0 ∨ (lim : Int) ≤ o then none else some (p.base / lim * lim + o.toNat)

/-- Word i of a view's extents: the descriptor's below its rank, the parent's above. -/
def viewExtWord (d : List W64) (w : W64) (i : Nat) : W64 :=
  let n := viewRank d
  let lo := if i < n then viewExtent d i else bits w 31 0
  let hi := if i + 1 < n then viewExtent d (i + 1) else bits w 63 32
  w64 (hi * 2 ^ 32 + lo)

/-- The entry that `lview` derives (R167): none where a rule is broken. -/
def viewOf (p : Layout) (d : List W64) : Option Layout :=
  if !p.valid || !viewOk p d then none
  else
    (viewBase p d).map fun b =>
      let w := d.getD 6 0
      { p with
        w0 := w64 b
        w1 := setBits (setBits p.w1 10 8 (viewRank d)) 35 32 (bits w 6 3)
        w2 := viewExtWord d p.w2 0
        w3 := viewExtWord d p.w3 2
        w4 := viewExtWord d p.w4 4 }

/-- `lview` (R167): the entry is in force from the next bundle. -/
def execLview (d : BitVec 6) (a : BitVec 6) (b : Src) (s : State) : Host.Outcome State Fault Refusal :=
  runSyl (.lview d a b) (do
    let v ← readSrc b
    check (v.toNat % 64 == 0) cMisaligned v
    let s ← get
    let p := entryOf s s.cur a.toNat
    check (!isHandler s.cur && p.valid) cRights (w64 d.toNat)
    let n ← loadLocal (v.toNat % 2 ^ 23) 64 false
    let ws := (List.range 8).map fun i => w64 (n / 2 ^ (64 * i))
    match viewOf p ws with
    | none => trapM cRights (w64 d.toNat)
    | some e => lateM (.view d.toNat (install (coreOf s.cur) e))) s

/-- The word of an entry that `lget` reads (R63, R169). -/
def lgetWord (e : Layout) (w : Nat) : W64 :=
  if w = 0 ∧ (e.space = spSram ∨ e.space = spVm ∨ e.space = spHost ∨ e.space = spKv) then 0 else e.words.getD w 0

/-- `lget` (R169). -/
def execLget (d : Reg) (a : BitVec 6) (w : BitVec 3) (s : State) : Host.Outcome State Fault Refusal :=
  runSyl (.lget d a w) (do
    let e ← getEntry a.toNat
    writeReg d (lgetWord e w.toNat)) s

end Sys2Proof.Machine
end

