-- ==== Sys2Proof/Machine/Pages.lean ====
section
/-! DEFINITION. Page requests and their replies (R446 to R448), the quiescence counter (R311) and the freed-page ring (R312). -/

namespace Sys2Proof.Machine

/-- The key of a word of a partition's table entry (R443). -/
def partKey (p i : Nat) : Nat := devKey (64 * p + 8 * i)

/-- A request that has been written and not answered (R446). -/
def PageReq.outstanding (r : PageReq) : Bool := r.rid.isSome && r.answer.isNone

/-- Answers every request of a list position that satisfies a test with fail (R447, R452); one that nobody waits on goes. -/
def failReqs (s : State) (p : PageReq → Bool) : State :=
  { s with reqs := (s.reqs.map fun r => if p r then { r with answer := some false } else r).filter fun r =>
      !(r.answer == some false && r.waiters.isEmpty) }

/-- The oldest request of a partition that waits to be written. -/
def unwritten (s : State) (p : Nat) : Option PageReq := s.reqs.find? fun r => r.part == p && r.rid.isNone && r.answer.isNone

/-- A partition's request ring has room and fewer than 64 requests are outstanding (R446). -/
def canRequest (s : State) (p : Nat) : Bool :=
  let e := partEntry s p
  let n := bits (e.getD 4 0) 63 32 + 2 ^ 32 - bits (e.getD 4 0) 31 0
  decide ((s.reqs.filter fun r => r.part == p && r.outstanding).length < 64) && decide (n % 2 ^ 32 < 2 ^ bits (e.getD 2 0) 63 60)

/-- PAGE_REQUEST_WRITE (R446, R452). -/
def execPageRequestWrite (part : Nat) (s : State) : Host.Outcome State Fault Refusal :=
  runEvent (modify fun s =>
    match unwritten s part with
    | none => s
    | some r =>
      if !canRequest s part then s
      else
        let e := partEntry s part
        let tail := bits (e.getD 4 0) 63 32
        let rid := mapGet 0 s.rid part
        let w := [w64 r.ipa, w64 (rid % 2 ^ 16 * 2 ^ 48 + r.kind % 4 * 2 ^ 38 + part % 2 ^ 6 * 2 ^ 32 + r.waiters.length % 2 ^ 32),
          w64 (r.va % 2 ^ 57), w64 r.time]
        match devWriteWs s 0 (bits (e.getD 2 0) 56 0 + 32 * (tail % 2 ^ bits (e.getD 2 0) 63 60)) w with
        | none => failReqs s fun x => x == r
        | some s =>
          let s := writeNat s (partKey part 4 + 4) 4 ((tail + 1) % 2 ^ 32)
          let s := { s with
            rid := mapSet 0 s.rid part ((rid + 1) % 2 ^ 16)
            reqs := s.reqs.map fun x => if x = r then { x with rid := some rid, sent := s.time } else x }
          signal s 0 18) s

/-- PAGE_REPLY_READ (R447, R452): retry lets every access that waits walk again, and anything else fails it. (DESIGN CHOICE, log 94.) -/
def execPageReplyRead (part : Nat) (s : State) : Host.Outcome State Fault Refusal :=
  runEvent (modify fun s =>
    let e := partEntry s part
    let head := bits (e.getD 5 0) 63 32
    let out := s.reqs.filter fun r => r.part == part && r.outstanding
    match out with
    | [] => s
    | r0 :: _ =>
      if head = bits (e.getD 5 0) 31 0 then s
      else
        let w := devReadWs s 0 (bits (e.getD 3 0) 56 0 + 16 * (head % 2 ^ bits (e.getD 3 0) 63 60)) 2
        let s := writeNat s (partKey part 5 + 4) 4 ((head + 1) % 2 ^ 32)
        match w with
        | none => failReqs s fun x => x == r0
        | some w =>
          let rid := bits (w.getD 0 0) 63 48
          let mine (x : PageReq) : Bool := x.part == part && x.outstanding && x.rid == some rid
          if bits (w.getD 0 0) 47 0 = 0 ∧ w.getD 1 0 = 0 then { s with reqs := s.reqs.filter fun x => !mine x }
          else failReqs s mine) s

/-- A written request has waited as long as it may (R447). -/
def requestLate (s : State) (r : PageReq) : Bool :=
  let tmo := bits ((partEntry s r.part).getD 6 0) 31 0
  r.outstanding && tmo != 0 && decide (r.sent + 1000 * tmo ≤ s.time)

/-- PAGE_REQUEST_TIMEOUT (R447). -/
def execPageRequestTimeout (part : Nat) (rid : Nat) (s : State) : Host.Outcome State Fault Refusal :=
  runEvent (modify fun s => failReqs s fun x => x.part == part && x.rid == some rid && requestLate s x) s

/-- The accesses in flight let Q advance (R311, R450): none is stamped below Q. (DEDUCED, log 93.) -/
def canAdvance (s : State) : Bool :=
  (s.cores.all fun (_, k) => k.sends.all fun m => decide (s.qcount ≤ m.stamp)) &&
    s.bank.all fun b => b.here || decide (s.qcount ≤ b.stamp)

/-- QUIESCENCE_ADVANCE (R311). -/
def execQuiescenceAdvance (s : State) : Host.Outcome State Fault Refusal :=
  runEvent (modify fun s => if canAdvance s then { s with qcount := s.qcount + 1 } else s) s

/-- QUIESCENCE_WORD_WRITE (R311, R452). -/
def execQuiescenceWordWrite (s : State) : Host.Outcome State Fault Refusal :=
  runEvent (modify fun s =>
    let w := win s 0 0x1010
    if bit w 63 then devStore s 0 (bits w 56 0) 8 (s.qcount % 2 ^ 64) else s) s

/-- The entry that leaves the quarantine queue next (R312): the first of the lowest value, once Q has reached it. -/
def nextFreed (s : State) : Option Quar :=
  match s.quarantine with
  | [] => none
  | a :: t =>
    let b := t.foldl (fun b x => if x.v < b.v then x else b) a
    if b.v ≤ s.qcount then some b else none

/-- The freed-page ring has room (R312). -/
def ringRoom (s : State) : Bool :=
  let r := win s 0 0x1080
  bit r 63 && decide ((win s 0 0x1088 - win s 0 0x1090).toNat < 2 ^ bits r 61 57)

/-- QUARANTINE_LEAVE (R312). -/
def execQuarantineLeave (s : State) : Host.Outcome State Fault Refusal :=
  runEvent (modify fun s =>
    match nextFreed s with
    | none => s
    | some q =>
      if !ringRoom s then s
      else
        let r := win s 0 0x1080
        let n := (win s 0 0x1088).toNat
        match devWriteWs s 0 (bits r 56 0 + 8 * (n % 2 ^ bits r 61 57)) [w64 (bits (w64 q.page) 56 16 * 2 ^ 16 + if q.big then 1 else 0)] with
        | none => s
        | some s => signal (setWin { s with quarantine := s.quarantine.erase q } 0 0x1088 (w64 (n + 1))) 0 21) s

end Sys2Proof.Machine
end

