-- ==== Sys2Proof/Machine/Keccak.lean ====
section
/-! DEFINITION. SHAKE256 (R363, R399, R401), the function of FIPS 202. Its tables are not written out but computed as that standard
defines them. The sponge's state is a list of 25 lanes, the lane at column x and row y at x + 5 y. -/

namespace Sys2Proof.Machine

/-- The powers of x modulo x^8 + x^6 + x^5 + x^4 + 1 over GF(2), whose constant terms are the bits of the round constants (FIPS 202,
algorithm 5). -/
def lfsrPower : Nat → Nat
  | 0 => 1
  | t + 1 =>
    let r := 2 * lfsrPower t
    if r < 256 then r else (r - 256) ^^^ 0x71

/-- What iota adds in round r: bit 2^j - 1 is the constant term of power j + 7 r. -/
def iotaWord (r : Nat) : W64 :=
  BitVec.ofNat 64 ((List.range 7).map fun j => lfsrPower (j + 7 * r) % 2 * 2 ^ (2 ^ j - 1)).sum

/-- The walk over the lanes along which the rotations of rho grow, from (1, 0) on. -/
def rhoWalk : Nat → Nat × Nat
  | 0 => (1, 0)
  | t + 1 => ((rhoWalk t).2, (2 * (rhoWalk t).1 + 3 * (rhoWalk t).2) % 5)

/-- The rotation of a lane: the triangular number of its place in the walk; the lane at the origin is not in the walk, and stays. -/
def rhoShift (i : Nat) : Nat :=
  (((List.range 24).filter fun t => (rhoWalk t).1 + 5 * (rhoWalk t).2 == i).map fun t => (t + 1) * (t + 2) / 2 % 64).sum

/-- The lane that pi moves to place i: (x, y) comes from (x + 3 y, x). -/
def piSource (i : Nat) : Nat := (i % 5 + 3 * (i / 5)) % 5 + 5 * (i % 5)

/-- The place in the same row, k columns on. -/
def along (i k : Nat) : Nat := (i + k) % 5 + 5 * (i / 5)

/-- A round: theta adds the parities of two columns to each lane, rho and pi turn and move the lanes, chi mixes each row, and iota adds the
round's word. -/
def keccakRound (r : Nat) (st : List W64) : List W64 :=
  let parity (x : Nat) : W64 := (List.range 5).foldl (fun w y => w ^^^ st.getD (x % 5 + 5 * y) 0) 0
  let moved := (List.range 25).map fun i =>
    let j := piSource i
    (st.getD j 0 ^^^ parity (j + 4) ^^^ (parity (j + 1)).rotateLeft 1).rotateLeft (rhoShift j)
  (List.range 25).map fun i =>
    moved.getD i 0 ^^^ (moved.getD (along i 2) 0 &&& ~~~ moved.getD (along i 1) 0) ^^^ if i = 0 then iotaWord r else 0

/-- The permutation: 24 rounds. -/
def keccakF (st : List W64) : List W64 := (List.range 24).foldl (fun st r => keccakRound r st) st

/-- Adds the first 136 bytes of a message, as 17 words, to the state, and permutes it. -/
def absorb (st : List W64) (m : List Byte) : List W64 :=
  let word (i : Nat) : W64 := BitVec.ofNat 64 (((m.drop (8 * i)).take 8).foldr (fun b n => b.toNat + 256 * n) 0)
  keccakF (st.zipIdx.map fun (w, i) => if i < 17 then w ^^^ word i else w)

/-- Absorbs the blocks of a message, of which there are n. -/
def absorbAll (st : List W64) (m : List Byte) : Nat → List W64
  | 0 => st
  | n + 1 => absorbAll (absorb st m) (m.drop 136) n

/-- The message with SHAKE's suffix 1111 and the padding 10*1, which fill it up to whole blocks. -/
def shakePad (m : List Byte) : List Byte :=
  let room := 136 - m.length % 136
  m ++ (List.range room).map fun i => (if i = 0 then 0x1F else 0) ||| (if i + 1 = room then 0x80 else 0)

/-- The first n bytes of SHAKE256, n at most 136. (PRESUMED, log 106.) -/
def shake256 (m : List Byte) (n : Nat) : List Byte :=
  let st := absorbAll (List.replicate 25 0) (shakePad m) (m.length / 136 + 1)
  (List.range n).map fun i => (st.getD (i / 8) 0 >>> (8 * (i % 8))).setWidth 8

end Sys2Proof.Machine
end

