-- ==== Sys2Proof/Machine/Vector.lean ====
section
/-! DEFINITION. The vector instructions at the enqueuing bundle (R244 to R248, R251 to R271, R432). -/

namespace Sys2Proof.Machine

/-- Element size of a type code (R72, R131): s8, s16, s32, n8, n16, n32, bf16, fp32, sli16, sli32. -/
def vSize (ty : BitVec 4) : Nat :=
  match ty.toNat with
  | 0 | 3 => 1
  | 1 | 4 | 6 | 8 => 2
  | _ => 4

/-- What a register field of a vector instruction is. -/
inductive VUse where
  | none
  /-- a region descriptor, of elements of this size (R244) -/
  | region (es : Nat)
  /-- a bitmap's offset (R256) -/
  | bitmap
  /-- a value of which the bits from this one up must be zero (R263, R264, R271) -/
  | value (top : Nat)
  /-- an accumulator descriptor (R244, R266) -/
  | acc
  /-- the offset of a block or an image, and its alignment; whether the bits above the offset must be zero (R266, R269) -/
  | block (al len : Nat) (strict : Bool)
  deriving DecidableEq, Repr

/-- The operands of a vector instruction. -/
structure VForm where
  d : VUse := .none
  a : VUse := .none
  b : VUse := .none
  /-- n is a count register (R246) -/
  count : Bool := true
  /-- a cross-lane instruction, which may write a valid mask (R261) -/
  lane : Bool := false
  /-- d is one element (R260) -/
  single : Bool := false
  /-- b names the element of the region (R271) -/
  pick : Bool := false
  deriving DecidableEq, Repr

/-- The element size of a command's type. -/
def vEs (v : VArgs) : Nat := vSize v.ty
/-- The suffix `.x` of the two-operand forms (R252). -/
def vX (v : VArgs) : Bool := v.var.getLsbD 1

/-- The form d := op(a, b) with a region or a scalar for b (R252). -/
def formBin (v : VArgs) : VForm := { d := .region (vEs v), a := .region (vEs v), b := if (vX v) then .value 64 else .region (vEs v) }
/-- The form d := op(a). -/
def formUn (v : VArgs) : VForm := { d := .region (vEs v), a := .region (vEs v) }

/-- The operands of `vcmp` (R256). -/
def formCmp (v : VArgs) : VForm := { d := .bitmap, a := .region (vEs v), b := if v.var.getLsbD 3 then .value 64 else .region (vEs v) }
/-- The operands of `vcvt` (R258). -/
def formCvt (v : VArgs) : VForm := { d := .region (vEs v), a := .region (vSize v.var) }
/-- The operands of `vred` (R260). -/
def formRed (v : VArgs) : VForm := { d := .region (vEs v), a := .region (vEs v), single := true }
/-- The operands of `vperm` (R262). -/
def formPerm (v : VArgs) : VForm := { d := .region (vEs v), a := .region (vEs v), b := .region 1, lane := true }
/-- The operands of `vshuf` and `vbcast` (R263, R264). -/
def formShuf (v : VArgs) : VForm := { d := .region (vEs v), a := .region (vEs v), b := .value 6, lane := true }
/-- The operands of `vepi` (R266). -/
def formEpi (v : VArgs) : VForm := { d := .region (vEs v), a := .acc, b := .block 64 64 true, count := false }
/-- The operands of `vtab` (R269). -/
def formTab : VForm := { a := .block 32 2080 false, count := false }
/-- The operands of `vfill` (R270). -/
def formFill (v : VArgs) : VForm := { d := .region (vEs v), b := .value 64 }
/-- The operands of `vlds` (R271). -/
def formLds (v : VArgs) : VForm := { a := .region (vEs v), b := .value 16, count := false, pick := true }
/-- The operands of `vsts` (R271). -/
def formSts (v : VArgs) : VForm := { d := .region (vEs v), a := .value 64, b := .value 16, count := false, pick := true }

/-- Fields of a region descriptor (R244). -/
def regBase (r : W64) : Nat := bits r 22 0
/-- Stride in elements. -/
def regStride (r : W64) : Int := sx 16 (bits r 39 24)
/-- The offset of element i of size es (R245). -/
def elemAt (r : W64) (es i : Nat) : Int := (regBase r : Int) + (i : Int) * regStride r * (es : Int)
/-- An element lies in the slice. -/
def inSlice (o : Int) (n : Nat) : Bool := decide (0 ≤ o ∧ o + n ≤ (2 ^ 23 : Int))

/-- The tests at the enqueuing bundle, by class (R248): ENGINE_FAULT, MISALIGNED, LAYOUT_BOUNDS. -/
structure Lims where
  ef : List (Bool × W64) := []
  mis : List (Bool × W64) := []
  lb : List (Bool × W64) := []

/-- Tests one after another, class by class. -/
def Lims.add (p q : Lims) : Lims := ⟨p.ef ++ q.ef, p.mis ++ q.mis, p.lb ++ q.lb⟩

/-- The fault of the first test that fails, the classes in the order of R423. (DEDUCED, log 55.) -/
def limsM (l : Lims) : M Unit := do
  for (ok, v) in l.ef do engine ok v
  for (ok, v) in l.mis do aligned ok v
  for (ok, v) in l.lb do within ok v

/-- The tests of a bitmap of c bits at a register's offset (R247, R256). -/
def limBitmap (r : W64) (c : Nat) : Lims :=
  { ef := [(bits r 63 23 == 0, r)], mis := [(r.toNat % 8 == 0, r)], lb := [(decide (bits r 22 0 + ceilDiv c 8 ≤ 2 ^ 23), r)] }

/-- The tests of the count register (R246). -/
def limCount (r : W64) (lane : Bool) : Lims :=
  let vm := bit r 63
  { ef := [(bits r 62 47 == 0 && bits r 23 16 == 0 && (lane || (!vm && bits r 46 24 == 0)), r)]
    mis := [(!vm || bits r 46 24 % 8 == 0, r)]
    lb := [(!vm || decide (bits r 46 24 + ceilDiv (bits r 15 0) 8 ≤ 2 ^ 23), r)] }

/-- The tests of a region descriptor whose elements `is` bound what is accessed (R244, R245). -/
def limRegion (r : W64) (es : Nat) (is : List Nat) (still : Bool) : Lims :=
  { ef := [(!bit r 63 && bits r 62 40 == 0 && !bit r 23, r), (!(still && regStride r == 0), r)]
    mis := [(regBase r % es == 0, r)]
    lb := is.map fun i => (inSlice (elemAt r es i) es, r) }

/-- The tests of one operand. `is` bounds the elements; `still` says that a stride of zero is refused. -/
def limUse (u : VUse) (r : W64) (c : Nat) (is : List Nat) (still : Bool) : Lims :=
  match u with
  | .none => {}
  | .region es => limRegion r es is still
  | .bitmap => limBitmap r c
  | .value top => { ef := [(decide (r.toNat < 2 ^ top), r)] }
  | .acc => { ef := [(bit r 63 && bits r 62 3 == 0, r)] }
  | .block al len strict =>
    { ef := [(!strict || bits r 63 23 == 0, r)], mis := [(bits r 22 0 % al == 0, r)]
      lb := [(decide (bits r 22 0 + len ≤ 2 ^ 23), r)] }

/-- Reads a register field that an instruction uses. -/
def vRead (u : VUse) (r : Reg) : M W64 := if u = .none then pure 0 else readReg r false

/-- The tests of R244 to R247 on the captured values. -/
def vLims (f : VForm) (d a b n m : W64) (masked : Bool) : Lims :=
  let c := bits n 15 0
  let epi := f.a == .acc
  let is (one : Bool) : List Nat :=
    if f.pick then [bits b 15 0] else if epi ∨ c = 0 ∧ ¬ one then [] else if one then [0] else [0, c - 1]
  (((((if f.count then limCount n f.lane else {}).add (if masked then limBitmap m c else {})).add
    (limUse f.d d c (is f.single) (!f.single && !f.pick && decide (1 < c)))).add
    (limUse f.a a c (is false) false)).add (limUse f.b b c (is false) false))

/-- Enqueues a vector command with its captured values d, a, b, n, m (R248). -/
def vEnqueue (i : Instr) (v : VArgs) (f : VForm) : M Nat := do
  let d ← vRead f.d v.d
  let a ← vRead f.a v.a
  let b ← vRead f.b v.b
  let n ← if f.count then readReg v.n false else pure 0
  let m ← if v.m = 0 then pure 0 else readReg v.m false
  limsM (vLims f d a b n m (v.m != 0))
  enqueue { instr := i, q := 2, num := 0, ctx := 0, job := 0, lcore := 0, set := 0, tok := v.tok, vals := [d, a, b, n, m]
            total := if f.count then bits n 15 0 else 1 } false

/-- A vector instruction. -/
def vM (i : Instr) (v : VArgs) (f : VForm) : M Unit := do
  let _ ← vEnqueue i v f
  pure ()

/-- `vadd` (R252). -/
def execVadd (v : VArgs) (s : State) : Host.Outcome State Fault Refusal := runSyl (.vadd v) (vM (.vadd v) v (formBin v)) s
/-- `vsub` (R252). -/
def execVsub (v : VArgs) (s : State) : Host.Outcome State Fault Refusal := runSyl (.vsub v) (vM (.vsub v) v (formBin v)) s
/-- `vmul` (R252). -/
def execVmul (v : VArgs) (s : State) : Host.Outcome State Fault Refusal := runSyl (.vmul v) (vM (.vmul v) v (formBin v)) s
/-- `vfma` (R252). -/
def execVfma (v : VArgs) (s : State) : Host.Outcome State Fault Refusal := runSyl (.vfma v) (vM (.vfma v) v (formBin v)) s
/-- `vdiv` (R253). -/
def execVdiv (v : VArgs) (s : State) : Host.Outcome State Fault Refusal := runSyl (.vdiv v) (vM (.vdiv v) v (formBin v)) s
/-- `vsqrt` (R253). -/
def execVsqrt (v : VArgs) (s : State) : Host.Outcome State Fault Refusal := runSyl (.vsqrt v) (vM (.vsqrt v) v (formUn v)) s
/-- `vrsqrt` (R253). -/
def execVrsqrt (v : VArgs) (s : State) : Host.Outcome State Fault Refusal := runSyl (.vrsqrt v) (vM (.vrsqrt v) v (formUn v)) s
/-- `vmin` (R254). -/
def execVmin (v : VArgs) (s : State) : Host.Outcome State Fault Refusal := runSyl (.vmin v) (vM (.vmin v) v (formBin v)) s
/-- `vmax` (R254). -/
def execVmax (v : VArgs) (s : State) : Host.Outcome State Fault Refusal := runSyl (.vmax v) (vM (.vmax v) v (formBin v)) s
/-- `vabs` (R254). -/
def execVabs (v : VArgs) (s : State) : Host.Outcome State Fault Refusal := runSyl (.vabs v) (vM (.vabs v) v (formUn v)) s
/-- `vneg` (R254). -/
def execVneg (v : VArgs) (s : State) : Host.Outcome State Fault Refusal := runSyl (.vneg v) (vM (.vneg v) v (formUn v)) s
/-- `vand` (R255). -/
def execVand (v : VArgs) (s : State) : Host.Outcome State Fault Refusal := runSyl (.vand v) (vM (.vand v) v (formBin v)) s
/-- `vor` (R255). -/
def execVor (v : VArgs) (s : State) : Host.Outcome State Fault Refusal := runSyl (.vor v) (vM (.vor v) v (formBin v)) s
/-- `vxor` (R255). -/
def execVxor (v : VArgs) (s : State) : Host.Outcome State Fault Refusal := runSyl (.vxor v) (vM (.vxor v) v (formBin v)) s
/-- `vshl` (R255). -/
def execVshl (v : VArgs) (s : State) : Host.Outcome State Fault Refusal := runSyl (.vshl v) (vM (.vshl v) v (formBin v)) s
/-- `vshr` (R255). -/
def execVshr (v : VArgs) (s : State) : Host.Outcome State Fault Refusal := runSyl (.vshr v) (vM (.vshr v) v (formBin v)) s
/-- `vsra` (R255). -/
def execVsra (v : VArgs) (s : State) : Host.Outcome State Fault Refusal := runSyl (.vsra v) (vM (.vsra v) v (formBin v)) s
/-- `vcmp` (R256). -/
def execVcmp (v : VArgs) (s : State) : Host.Outcome State Fault Refusal := runSyl (.vcmp v) (vM (.vcmp v) v (formCmp v)) s
/-- `vsel` (R257). -/
def execVsel (v : VArgs) (s : State) : Host.Outcome State Fault Refusal := runSyl (.vsel v) (vM (.vsel v) v (formBin v)) s
/-- `vcvt` (R258). -/
def execVcvt (v : VArgs) (s : State) : Host.Outcome State Fault Refusal := runSyl (.vcvt v) (vM (.vcvt v) v (formCvt v)) s
/-- `vsadd` (R259). -/
def execVsadd (v : VArgs) (s : State) : Host.Outcome State Fault Refusal := runSyl (.vsadd v) (vM (.vsadd v) v (formBin v)) s
/-- `vssub` (R259). -/
def execVssub (v : VArgs) (s : State) : Host.Outcome State Fault Refusal := runSyl (.vssub v) (vM (.vssub v) v (formBin v)) s
/-- `vsmul` (R259). -/
def execVsmul (v : VArgs) (s : State) : Host.Outcome State Fault Refusal := runSyl (.vsmul v) (vM (.vsmul v) v (formBin v)) s
/-- `vsdiv` (R259). -/
def execVsdiv (v : VArgs) (s : State) : Host.Outcome State Fault Refusal := runSyl (.vsdiv v) (vM (.vsdiv v) v (formBin v)) s
/-- `vsexp` (R259). -/
def execVsexp (v : VArgs) (s : State) : Host.Outcome State Fault Refusal := runSyl (.vsexp v) (vM (.vsexp v) v (formUn v)) s
/-- `vslog` (R259). -/
def execVslog (v : VArgs) (s : State) : Host.Outcome State Fault Refusal := runSyl (.vslog v) (vM (.vslog v) v (formUn v)) s
/-- `vred` (R260). -/
def execVred (v : VArgs) (s : State) : Host.Outcome State Fault Refusal := runSyl (.vred v) (vM (.vred v) v (formRed v)) s
/-- `vscan` (R260). -/
def execVscan (v : VArgs) (s : State) : Host.Outcome State Fault Refusal := runSyl (.vscan v) (vM (.vscan v) v (formUn v)) s
/-- `vperm` (R262). -/
def execVperm (v : VArgs) (s : State) : Host.Outcome State Fault Refusal := runSyl (.vperm v) (vM (.vperm v) v (formPerm v)) s
/-- `vshuf` (R263). -/
def execVshuf (v : VArgs) (s : State) : Host.Outcome State Fault Refusal := runSyl (.vshuf v) (vM (.vshuf v) v (formShuf v)) s
/-- `vbcast` (R264). -/
def execVbcast (v : VArgs) (s : State) : Host.Outcome State Fault Refusal := runSyl (.vbcast v) (vM (.vbcast v) v (formShuf v)) s

/-- `vepi` (R251, R266): only a unit that owns the matrix engine's state may enqueue it. -/
def execVepi (v : VArgs) (s : State) : Host.Outcome State Fault Refusal :=
  runSyl (.vepi v) (do
    mxOwner
    vM (.vepi v) v (formEpi v)) s

/-- `vfn` (R268). -/
def execVfn (v : VArgs) (s : State) : Host.Outcome State Fault Refusal := runSyl (.vfn v) (vM (.vfn v) v (formUn v)) s
/-- `vtab` (R269). -/
def execVtab (v : VArgs) (s : State) : Host.Outcome State Fault Refusal := runSyl (.vtab v) (vM (.vtab v) v formTab) s
/-- `vfill` (R270). -/
def execVfill (v : VArgs) (s : State) : Host.Outcome State Fault Refusal := runSyl (.vfill v) (vM (.vfill v) v (formFill v)) s
/-- `vmov` (R270). -/
def execVmov (v : VArgs) (s : State) : Host.Outcome State Fault Refusal := runSyl (.vmov v) (vM (.vmov v) v (formUn v)) s
/-- `vsts` (R271). -/
def execVsts (v : VArgs) (s : State) : Host.Outcome State Fault Refusal := runSyl (.vsts v) (vM (.vsts v) v (formSts v)) s

/-- `vlds` (R271): its context goes on once the command has completed and the value stands in x(d). The region count advances with
the enqueue, which releases (R303). (DEDUCED, log 58.) -/
def execVlds (v : VArgs) (s : State) : Host.Outcome State Fault Refusal :=
  runSyl (.vlds v) (do
    let c ← getMe
    let done (num : Nat) : M Bool := do
      let s ← get
      return match (s.core (coreOf s.cur)).cmd 2 num with
        | some x => x.phase == .finished
        | none => true
    match c.wait with
    | .vlds num => await (← done num)
    | .vldsDone num w => do
      await (← done num)
      writeReg v.d w
    | _ => do
      let n ← vEnqueue (.vlds v) v (formLds v)
      modMe fun c => { c with region := c.region + 1 }.setWait (.vlds n)
      modIss fun i => { i with sync := false }
      holdM) s

end Sys2Proof.Machine
end

