-- ==== Sys2Proof/Machine/VectorRun.lean ====
section
/-! DEFINITION. The vector engine's own steps (R244 to R272, R109, R110, R432 to R434). -/

namespace Sys2Proof.Machine

/-! ### Elements -/

/-- Width in bits of a type. -/
def vBits (ty : BitVec 4) : Nat := 8 * vSize ty
/-- Whether a type is an integer. -/
def vInt (ty : BitVec 4) : Bool := decide (ty.toNat < 6)
/-- Whether an integer type is signed. -/
def vSigned (ty : BitVec 4) : Bool := decide (ty.toNat < 3)
/-- Whether a type is bf16 or fp32. -/
def vFp (ty : BitVec 4) : Bool := ty == 6 || ty == 7
/-- The floating-point format of a type. -/
def vFmt (ty : BitVec 4) : Fp := if ty = 6 then bf16 else fp32
/-- Fraction bits of an SLI type (R99, R100). -/
def vQ (ty : BitVec 4) : Nat := if ty = 8 then 11 else 27
/-- The integer that a pattern of an integer type stands for. -/
def vVal (ty : BitVec 4) (x : Nat) : Int := if vSigned ty then sx (vBits ty) x else ((x % 2 ^ vBits ty : Nat) : Int)

/-- An exact integer result, wrapped, or saturated with `.sat` (R252). -/
def intRes (ty : BitVec 4) (sat : Bool) (v : Int) : FRes :=
  if sat then
    let (p, c) := saturate (vSigned ty) (vBits ty) v
    (p, flagIf c fSat)
  else (wrapN (vBits ty) v, 0)

/-- `vadd`, `vsub`, `vmul` and `vfma` of three patterns (R252). -/
def vArith (op : Nat) (ty : BitVec 4) (sat : Bool) (mode a b d : Nat) : FRes :=
  if vInt ty then
    let x := vVal ty a
    let y := vVal ty b
    intRes ty sat (match op with
      | 0 => x + y
      | 1 => x - y
      | 2 => x * y
      | _ => x * y + vVal ty d)
  else
    let t := vFmt ty
    let x := t.dec a
    let y := t.dec b
    match op with
    | 0 => t.add mode x y
    | 1 => t.add mode x y.neg
    | 2 => t.mul mode x y
    | _ => t.fma mode x y (t.dec d)

/-- The smaller or larger of two patterns (R254, R101). -/
def vMinmax (ty : BitVec 4) (mx : Bool) (a b : Nat) : FRes :=
  if vInt ty then
    (if (if mx then decide (vVal ty b ≤ vVal ty a) else decide (vVal ty a ≤ vVal ty b)) then a else b, 0)
  else if vFp ty then (vFmt ty).minmax mx a b
  else (sliMinmax (vQ ty) mx a b, flagIf (sliIsNan (vQ ty) a || sliIsNan (vQ ty) b) fNv)

/-- `vabs`, and `vneg` where `inv` is set (R254). -/
def vSign (ty : BitVec 4) (inv sat : Bool) (a : Nat) : FRes :=
  if vInt ty then intRes ty sat (if inv then -(vVal ty a) else (vVal ty a).natAbs)
  else
    let top := 2 ^ (vBits ty - 1)
    let r := if inv ∧ a / top % 2 = 0 then a % top + top else a % top
    if vFp ty then
      (match (vFmt ty).dec a with
        | .nan s => (vFmt ty).nanRes s
        | _ => (r, 0))
    else if sliNum (vQ ty) a then (r, 0) else (a, 0)

/-- The bitwise forms and the shifts (R255). -/
def vBit (i : Instr) (ty : BitVec 4) (a b : Nat) : Nat :=
  let w := vBits ty
  let k := b % w
  match i with
  | .vand _ => a &&& b
  | .vor _ => a ||| b
  | .vxor _ => a ^^^ b
  | .vshl _ => a * 2 ^ k % 2 ^ w
  | .vshr _ => a / 2 ^ k
  | _ => wrapN w (sx w a / 2 ^ k)

/-- The comparisons of `vcmp` (R256): eq, ne, lt, le, gt, ge, with the flags. -/
def vCompare (ty : BitVec 4) (c a b : Nat) : Bool × W64 :=
  let by_ (lt eq : Bool) : Bool := match c with
    | 0 => eq
    | 1 => !eq
    | 2 => lt
    | 3 => lt || eq
    | 4 => !lt && !eq
    | _ => !lt
  if vInt ty then (by_ (decide (vVal ty a < vVal ty b)) (vVal ty a == vVal ty b), 0)
  else if vFp ty then
    let x := (vFmt ty).dec a
    let y := (vFmt ty).dec b
    if x.isNan ∨ y.isNan then (c == 1, flagIf (x.isSig || y.isSig || decide (2 ≤ c)) fNv)
    else (by_ (FV.lt false x y) (!FV.lt false x y && !FV.lt false y x), 0)
  else
    let q := vQ ty
    if sliIsNan q a || sliIsNan q b then (c == 1, fNv)
    else (by_ (decide (sliKey q a < sliKey q b)) (sliKey q a == sliKey q b), 0)

/-- `vcvt` of a pattern from one type to another (R105, R258, R434). -/
def vConvert (td ts : BitVec 4) (mode a : Nat) : FRes :=
  let neg (v : Int) : Bool := decide (v < 0)
  if vInt td then
    if vInt ts then intRes td true (vVal ts a)
    else if vFp ts then fpToInt (vSigned td) (vBits td) mode ((vFmt ts).dec a)
    else sliToInt (vSigned td) (vBits td) mode (sliDec (vQ ts) a)
  else if vFp td then
    if vInt ts then intToFp (vFmt td) mode (vVal ts a)
    else if vFp ts then (vFmt td).cvt mode ((vFmt ts).dec a)
    else sliToFp (vFmt td) mode (sliDec (vQ ts) a)
  else
    if vInt ts then sliOfRat (vQ td) (neg (vVal ts a)) (vVal ts a).natAbs 0
    else if vFp ts then fpToSli (vQ td) ((vFmt ts).dec a)
    else sliToSli (vQ td) (sliDec (vQ ts) a)

/-! ### The function table (R267, R268) -/

/-- A slot of a function table. -/
def ftabSlot (k : Core) (set slot : Nat) : List Byte := mapGet [] k.ftab (8 * set + slot)

/-- FP32 operations of R268, without flags. -/
def add32 (a b : FV) : FV := fp32.dec (fp32.add 0 a b).1
/-- Multiplication. -/
def mul32 (a b : FV) : FV := fp32.dec (fp32.mul 0 a b).1
/-- Fused multiply-add. -/
def fma32 (a b c : FV) : FV := fp32.dec (fp32.fma 0 a b c).1

/-- The segment that u names. -/
def segment (u : FV) : Nat :=
  match u with
  | .nan _ => 0
  | .inf n => if n then 0 else 127
  | .fin n m e => if n ∧ m ≠ 0 then 0 else min 127 (if 0 ≤ e then m * 2 ^ e.toNat else m / 2 ^ (-e).toNat)

/-- tabfn (R268) of an FP32 value: a value and whether nv is due. -/
def tabfn (img : List Byte) (x : FV) : FV × Bool :=
  let w (o : Nat) : FV := fp32.dec (bytesToNat ((img.drop o).take 4))
  let quiet (v : FV) : FV := match v with
    | .nan _ => .nan false
    | v => v
  match x with
  | .nan s => (.nan false, s)
  | x =>
    let lo := w 0
    let hi := w 4
    if !lo.isNan && FV.lt false x lo then (quiet (w 0xC), false)
    else if !hi.isNan && !FV.lt false x hi then (quiet (w 0x10), false)
    else
      let u := mul32 (add32 x lo.neg) (w 8)
      let s := segment u
      let t := add32 u (.fin true s 0)
      (quiet (fma32 (fma32 (w (0x28 + 16 * s)) t (w (0x24 + 16 * s))) t (w (0x20 + 16 * s))), false)

/-- A value as a pattern of a format: the final rounding of R268, which sets no flag for a NaN. -/
def fvRound (t : Fp) (mode : Nat) (v : FV) : FRes :=
  match v with
  | .nan _ => (t.qnan, 0)
  | .inf n => (t.infPat n, 0)
  | .fin n m e => t.round mode n m e false

/-- `vfn` of a pattern (R268). -/
def vFunc (img : List Byte) (ty : BitVec 4) (mode a : Nat) : FRes :=
  let (v, nv) := tabfn img ((vFmt ty).dec a)
  let (p, f) := fvRound (vFmt ty) mode v
  (p, f ||| flagIf nv fNv)

/-! ### Reductions and scans (R109, R110, R260) -/

/-- Combines neighbours; an absent one leaves the other unchanged. -/
def pairUp (step : Nat → Nat → FRes) : List (Option Nat) → List (Option Nat) × W64
  | some a :: some b :: t =>
    let (v, f) := step a b
    let (l, g) := pairUp step t
    (some v :: l, f ||| g)
  | a :: b :: t =>
    let (l, g) := pairUp step t
    ((match a with
      | some v => some v
      | none => b) :: l, g)
  | l => (l, 0)

/-- The tree over a group of 2^n slots. -/
def treeRed (step : Nat → Nat → FRes) : Nat → List (Option Nat) → Option Nat × W64
  | 0, l => (l.head?.getD none, 0)
  | n + 1, l =>
    let (l, f) := pairUp step l
    let (v, g) := treeRed step n l
    (v, f ||| g)

/-- A list in groups of 64, the last one filled with absent slots. -/
def groups64 : Nat → List (Option Nat) → List (List (Option Nat))
  | 0, _ => []
  | n + 1, l => (l.take 64 ++ List.replicate (64 - l.length) none) :: groups64 n (l.drop 64)

/-- The groups in ascending order (R109). -/
def redGroups (step : Nat → Nat → FRes) (l : List (Option Nat)) : Option Nat × W64 :=
  (groups64 (ceilDiv l.length 64) l).foldl (fun (acc : Option Nat × W64) g =>
    let (v, f) := treeRed step 6 g
    match acc.1, v with
    | some a, some b =>
      let (r, h) := step a b
      (some r, acc.2 ||| f ||| h)
    | none, some b => (some b, acc.2 ||| f)
    | a, none => (a, acc.2 ||| f)) (none, 0)

/-- The step of a reduction or scan whose values are patterns: max 1, min 2, sadd 3, and the FP32 sums of add 0. -/
def redStep (op : Nat) (ty : BitVec 4) (mode a b : Nat) : FRes :=
  match op with
  | 1 => vMinmax ty true a b
  | 2 => vMinmax ty false a b
  | 3 => sliAdd (vQ ty) a b
  | _ => fp32.add mode (fp32.dec a) (fp32.dec b)

/-- An element as the steps take it: BF16 sums work in FP32. -/
def redPre (op : Nat) (ty : BitVec 4) (mode a : Nat) : FRes := if op = 0 ∧ ty = 6 then fp32.cvt mode (bf16.dec a) else (a, 0)

/-- The rounding of a result to the destination format. -/
def redPost (op : Nat) (ty : BitVec 4) (mode v : Nat) : FRes :=
  if vFp ty then (vFmt ty).cvt mode ((if op = 0 then fp32 else vFmt ty).dec v) else (v, 0)

/-- The identity that a reduction of nothing writes (R260). -/
def redIdentity (op : Nat) (ty : BitVec 4) : Nat :=
  match op with
  | 0 => 0
  | 3 => sliZero (vQ ty)
  | _ =>
    let lo := op == 1
    if vInt ty then
      let w := vBits ty
      if vSigned ty then (if lo then 2 ^ (w - 1) else 2 ^ (w - 1) - 1) else (if lo then 0 else 2 ^ w - 1)
    else if vFp ty then (vFmt ty).infPat lo
    else sliMax (vQ ty) lo

/-- `vred` of the elements, absent where inactive (R109, R260). -/
def vReduce (op : Nat) (sat : Bool) (ty : BitVec 4) (mode : Nat) (l : List (Option Nat)) : FRes :=
  let here := l.filterMap id
  if here = [] then (redIdentity op ty, 0)
  else if op = 0 ∧ vInt ty then intRes ty sat (here.map (vVal ty)).sum
  else
    let pre := l.map fun x => x.map (redPre op ty mode)
    let f := pre.foldl (fun f x => f ||| (x.map (·.2)).getD 0) (0 : W64)
    let (v, g) := redGroups (redStep op ty mode) (pre.map fun x => x.map (·.1))
    let (r, h) := redPost op ty mode (v.getD 0)
    (r, f ||| g ||| h)

/-- `vscan` (R110, R260): each step adds to the output before it, as that was rounded; in a saturating scan each step saturates. -/
def vScan (op : Nat) (sat : Bool) (ty : BitVec 4) (mode : Nat) (l : List (Option Nat)) : List (Option Nat) × W64 :=
  if op = 0 ∧ vInt ty then
    let (o, _, f) := l.foldl (fun (a : List (Option Nat) × Int × W64) x =>
      match x with
      | none => (a.1 ++ [none], a.2)
      | some x =>
        let (p, f) := intRes ty sat (a.2.1 + vVal ty x)
        (a.1 ++ [some p], vVal ty p, a.2.2 ||| f)) ([], 0, 0)
    (o, f)
  else
    let (o, _, f) := l.foldl (fun (a : List (Option Nat) × Option Nat × W64) x =>
      match x with
      | none => (a.1 ++ [none], a.2)
      | some x =>
        let (p, f) := redPre op ty mode x
        let (v, g) := match a.2.1 with
          | none => (p, (0 : W64))
          | some y => redStep op ty mode y p
        let (r, h) := redPost op ty mode v
        (a.1 ++ [some r], some (redPre op ty mode r).1, a.2.2 ||| f ||| g ||| h)) ([], none, 0)
    (o, f)

/-! ### The command's operands -/

/-- A command's captured values: d, a, b, n, m. -/
def vv (c : Cmd) (i : Nat) : W64 := c.vals.getD i 0
/-- The count of a command. -/
def vCount (c : Cmd) : Nat := bits (vv c 3) 15 0

/-- Element i of a region of a core's slice. -/
def vGet (s : State) (core : Nat) (r : W64) (es i : Nat) : Nat := readNat s (sliceKey core (elemAt r es i).toNat) es

/-- Bit i of a bitmap (R247). -/
def vBitAt (s : State) (core off i : Nat) : Bool := (readByte s (sliceKey core (off + i / 8))).getLsbD (i % 8)

/-- Whether the mask of a command selects element i. -/
def vMask (s : State) (core : Nat) (v : VArgs) (c : Cmd) (i : Nat) : Bool :=
  v.m == 0 || vBitAt s core (bits (vv c 4) 22 0) i

/-- What a command accesses and does: its footprint as (offset, bytes, written), the writes as (offset, bytes, value), and its
flags. -/
structure VDo where
  foot : List (Nat × Nat × Bool) := []
  out : List (Nat × Nat × Nat) := []
  fl : W64 := 0
  value : W64 := 0
  tab : Option (Nat × List Byte) := none

/-- Two pieces that follow each other as one. -/
def mergeFoot : List (Nat × Nat × Bool) → List (Nat × Nat × Bool)
  | [] => []
  | x :: t =>
    match mergeFoot t with
    | y :: u => if x.1 + x.2.1 = y.1 ∧ x.2.2 = y.2.2 then (x.1, x.2.1 + y.2.1, x.2.2) :: u else x :: y :: u
    | [] => [x]

/-- The accesses to elements `is` of a region. -/
def regFoot (r : W64) (es : Nat) (is : List Nat) (w : Bool) : List (Nat × Nat × Bool) :=
  mergeFoot (is.map fun i => ((elemAt r es i).toNat, es, w))

/-- The write of a bitmap of the bits `bs` at an offset: bits past them keep their values (R247). -/
def putBitmap (s : State) (core off : Nat) (bs : List Bool) : List (Nat × Nat × Nat) :=
  (List.range (ceilDiv bs.length 8)).map fun j =>
    (off + j, 1, ((List.range 8).map fun k =>
      if bs.getD (8 * j + k) (vBitAt s core off (8 * j + k)) then 2 ^ k else 0).sum)

/-- The write of the elements `is` of a region: none covers a granule, so poison stays (R498). (DEDUCED, log 57.) -/
def putElems (r : W64) (es : Nat) (is : List Nat) (vs : List Nat) : List (Nat × Nat × Nat) :=
  (is.zip vs).map fun (i, v) => ((elemAt r es i).toNat, es, v)

/-- The second operand: a region or the scalar. -/
def vSecond (s : State) (core : Nat) (c : Cmd) (es : Nat) (scalar : Bool) (i : Nat) : Nat :=
  if scalar then (vv c 2).toNat % 2 ^ (8 * es) else vGet s core (vv c 2) es i

/-- An element-wise command (R252 to R259, R268, R270): op on a[i], b[i] and d[i]; which of the regions it reads. -/
def vElems (s : State) (core : Nat) (v : VArgs) (c : Cmd) (ea : Nat) (useA useB useD scalar : Bool) (op : Nat → Nat → Nat → FRes) : VDo :=
  let es := (vEs v)
  let is := (List.range (vCount c)).filter (vMask s core v c)
  let rs := is.map fun i =>
    op (if useA then vGet s core (vv c 1) ea i else 0) (if useB || scalar then vSecond s core c es scalar i else 0)
      (if useD then vGet s core (vv c 0) es i else 0)
  { foot := (if useA then regFoot (vv c 1) ea is false else []) ++ (if useB && !scalar then regFoot (vv c 2) es is false else []) ++
      (if useD then regFoot (vv c 0) es is false else []) ++ regFoot (vv c 0) es is true
    out := putElems (vv c 0) es is (rs.map (·.1))
    fl := rs.foldl (fun f r => f ||| r.2) 0 }

/-- A binary command. -/
def vBinary (s : State) (core : Nat) (v : VArgs) (c : Cmd) (op : Nat → Nat → FRes) : VDo :=
  vElems s core v c (vEs v) true true false (vX v) fun a b _ => op a b

/-- A unary command. -/
def vUnary (s : State) (core : Nat) (v : VArgs) (c : Cmd) (op : Nat → FRes) : VDo :=
  vElems s core v c (vEs v) true false false false fun a _ _ => op a

/-- `vcmp` (R256). -/
def vCmpDo (s : State) (core : Nat) (v : VArgs) (c : Cmd) : VDo :=
  let n := vCount c
  let sc := v.var.getLsbD 3
  let rs := (List.range n).map fun i =>
    if vMask s core v c i then
      vCompare v.ty (v.var.toNat % 8) (vGet s core (vv c 1) (vEs v) i) (vSecond s core c (vEs v) sc i)
    else (false, 0)
  let is := (List.range n).filter (vMask s core v c)
  let off := bits (vv c 0) 22 0
  { foot := regFoot (vv c 1) (vEs v) is false ++ (if sc then [] else regFoot (vv c 2) (vEs v) is false) ++ [(off, ceilDiv n 8, true)]
    out := putBitmap s core off (rs.map (·.1))
    fl := rs.foldl (fun f r => f ||| r.2) 0 }

/-- `vsel` (R257): the mask selects and disables nothing. -/
def vSelDo (s : State) (core : Nat) (v : VArgs) (c : Cmd) : VDo :=
  let is := List.range (vCount c)
  let m := vMask s core v c
  { foot := regFoot (vv c 1) (vEs v) (is.filter m) false ++
      (if (vX v) then [] else regFoot (vv c 2) (vEs v) (is.filter fun i => !m i) false) ++ regFoot (vv c 0) (vEs v) is true
    out := putElems (vv c 0) (vEs v) is (is.map fun i => if m i then vGet s core (vv c 1) (vEs v) i else vSecond s core c (vEs v) (vX v) i) }

/-- `vred` and `vscan` (R260). -/
def vFoldDo (s : State) (core : Nat) (v : VArgs) (c : Cmd) (scan : Bool) : VDo :=
  let n := vCount c
  let op := v.var.toNat % 8
  let sat := v.var.getLsbD 3
  let is := (List.range n).filter (vMask s core v c)
  let l := (List.range n).map fun i => if vMask s core v c i then some (vGet s core (vv c 1) (vEs v) i) else none
  if scan then
    let (o, f) := vScan op sat v.ty v.rnd.toNat l
    { foot := regFoot (vv c 1) (vEs v) is false ++ regFoot (vv c 0) (vEs v) is true
      out := putElems (vv c 0) (vEs v) is (o.filterMap id)
      fl := f }
  else
    let (r, f) := vReduce op sat v.ty v.rnd.toNat l
    { foot := regFoot (vv c 1) (vEs v) is false ++ [(regBase (vv c 0), (vEs v), true)]
      out := [(regBase (vv c 0), (vEs v), r)]
      fl := f }

/-- The source lane of lane i of a group, named by the cross-lane instructions (R262 to R264). -/
def laneSource (s : State) (core : Nat) (ins : Instr) (v : VArgs) (c : Cmd) (i : Nat) : Option Nat :=
  let j : Nat := i % 64
  let k := bits (vv c 2) 5 0
  match ins with
  | .vperm _ =>
    let x := vGet s core (vv c 2) 1 i
    if x / 128 % 2 = 1 then none else some (x % 64)
  | .vshuf _ =>
    match v.var.toNat with
    | 0 => some ((j + k) % 64)
    | 1 => some ((j + 64 - k) % 64)
    | 2 => some (j ^^^ k)
    | 3 => if j + k < 64 then some (j + k) else none
    | _ => if k ≤ j then some (j - k) else none
  | _ => some k

/-- `vperm`, `vshuf` and `vbcast` (R261 to R264). -/
def vLaneDo (s : State) (core : Nat) (ins : Instr) (v : VArgs) (c : Cmd) : VDo :=
  let n := vCount c
  let on (i : Nat) : Bool := decide (i < n) && vMask s core v c i
  let is := (List.range n).filter on
  let src (i : Nat) : Option Nat :=
    match laneSource s core ins v c i with
    | some l => if on (i / 64 * 64 + l) then some (i / 64 * 64 + l) else none
    | none => none
  let vm := bit (vv c 3) 63
  let off := bits (vv c 3) 46 24
  { foot := regFoot (vv c 1) (vEs v) is false ++
      (match ins with
        | .vperm _ => regFoot (vv c 2) 1 is false
        | _ => []) ++ regFoot (vv c 0) (vEs v) is true ++ (if vm then [(off, ceilDiv n 8, true)] else [])
    out := putElems (vv c 0) (vEs v) is (is.map fun i => vGet s core (vv c 1) (vEs v) ((src i).getD i)) ++
      (if vm then putBitmap s core off ((List.range n).map fun i => on i && (src i).isSome) else []) }

/-! ### The epilogue (R265, R266) -/

/-- The words of an epilogue block. -/
def epiWords (s : State) (core : Nat) (c : Cmd) : List W64 := readWs s (sliceKey core (bits (vv c 2) 22 0)) 8

/-- A block that breaks a limit of R265. -/
def epiBad (v : VArgs) (w : List W64) : Bool :=
  let g (i : Nat) : W64 := w.getD i 0
  (bits (g 0) 63 32 != 0 && !vInt v.ty) || bits (g 1) 62 23 != 0 || bits (g 1) 22 0 % 4 != 0 || bits (g 2) 62 23 != 0 ||
    bits (g 3) 62 23 != 0 || bits (g 4) 63 30 != 0 || bits (g 4) 23 22 != 0 || bits (g 4) 15 4 != 0 ||
    decide (63 < bits (g 4) 29 24 + bits (g 4) 21 16) || decide (8 < bits (g 4) 3 0) || bits (g 5) 63 24 != 0 || bit (g 5) 23 ||
    bits (g 5) 23 0 % (vEs v) != 0 || g 6 != 0 || g 7 != 0

/-- The ranges that a block enables: biases, row scales, column scales. -/
def epiTabs (w : List W64) : List (Nat × Nat) :=
  let g (i : Nat) : W64 := w.getD i 0
  (if bit (g 1) 63 then [(bits (g 1) 22 0, 512)] else []) ++
    (if bit (g 2) 63 then [(bits (g 2) 22 0 + bits (g 4) 29 24, bits (g 4) 21 16 + 1)] else []) ++
    (if bit (g 3) 63 then [(bits (g 3) 22 0, 128)] else [])

/-- The offset of output element (row r of the output, n). -/
def epiAt (v : VArgs) (c : Cmd) (w : List W64) (r n : Nat) : Int := elemAt (vv c 0) (vEs v) n + (r * bits (w.getD 5 0) 23 0 : Nat)

/-- The first range or output element that passes the slice's end. -/
def epiPast (v : VArgs) (c : Cmd) (w : List W64) : Option W64 :=
  match (epiTabs w).find? fun (o, k) => decide (2 ^ 23 < o + k) with
  | some (o, _) => some (w64 o)
  | none =>
    let rows := bits (w.getD 4 0) 21 16 + 1
    ([(0, 0), (0, 127), (rows - 1, 0), (rows - 1, 127)].find? fun (r, n) => !inSlice (epiAt v c w r n) (vEs v)).map fun (r, n) =>
      BitVec.ofInt 64 (epiAt v c w r n)

/-- requant (R266) of an FP32 value. -/
def requant (ty : BitVec 4) (mode : Nat) (zp : Int) (t : FV) : FRes :=
  if vInt ty then
    match t with
    | .nan _ => (0, fNv)
    | .inf n => ((saturate (vSigned ty) (vBits ty) (if n then -(2 ^ 200) else 2 ^ 200)).1, fNv ||| fSat)
    | .fin n m e =>
      let (q, nx) := toIntExact mode n m e false
      let (p, c) := saturate (vSigned ty) (vBits ty) (q + zp)
      (p, flagIf nx fNx ||| flagIf c (fNv ||| fSat))
  else if vFp ty then fvRound (vFmt ty) mode t
  else fpToSli (vQ ty) t

/-- An output element of the epilogue (R266): scales, multiplier and bias, function, requantisation. -/
def epiElem (v : VArgs) (img : Option (List Byte)) (acc : Int) (er ec : Nat) (scale bias zp : Nat) : FRes :=
  let mode := v.rnd.toNat
  let (t, f) : FV × W64 := if er = 255 ∨ ec = 255 then (.nan false, fNv)
    else
      let r := fp32.round mode (decide (acc < 0)) acc.natAbs ((er : Int) + ec - 254) false
      (fp32.dec r.1, r.2)
  let r := fp32.fma mode t (fp32.dec scale) (fp32.dec bias)
  let (t, nv) := match img with
    | some img => tabfn img (fp32.dec r.1)
    | none => (fp32.dec r.1, false)
  let (p, h) := requant v.ty mode (sx 32 zp) t
  (p, f ||| r.2 ||| flagIf nv fNv ||| h)

/-- `vepi` (R266) of a tile. -/
def vEpiDo (s : State) (core : Nat) (v : VArgs) (c : Cmd) (w : List W64) (tile : AccTile) : VDo :=
  let g (i : Nat) : W64 := w.getD i 0
  let row0 := bits (g 4) 29 24
  let rows := bits (g 4) 21 16 + 1
  let func := bits (g 4) 3 0
  let img := if func = 0 then none else some (ftabSlot (s.core core) c.set (func - 1))
  let els := (accElems tile).toArray
  let byte (on : Bool) (o : Nat) : Nat := if on then (readByte s (sliceKey core o)).toNat else 127
  let at_ : List (Nat × Nat) := (List.range rows).flatMap fun r => (List.range 128).map fun n => (r, n)
  let rs := at_.map fun (r, n) =>
    let bias := if bit (g 1) 63 then readNat s (sliceKey core (bits (g 1) 22 0 + 4 * n)) 4 else 0
    epiElem v img (els.getD (128 * (row0 + r) + n) 0) (byte (bit (g 2) 63) (bits (g 2) 22 0 + row0 + r))
      (byte (bit (g 3) 63) (bits (g 3) 22 0 + n)) (bits (g 0) 31 0) bias (bits (g 0) 63 32)
  { foot := (bits (vv c 2) 22 0, 64, false) :: ((epiTabs w).map fun (o, k) => (o, k, false)) ++
      mergeFoot (at_.map fun (r, n) => ((epiAt v c w r n).toNat, (vEs v), true))
    out := (at_.zip rs).map fun ((r, n), x) => ((epiAt v c w r n).toNat, (vEs v), x.1)
    fl := rs.foldl (fun f r => f ||| r.2) 0 }

/-- The oldest tile that no `vepi` in flight is releasing (R220, R249). -/
def epiTile (s : State) (core acc : Nat) : Option AccTile :=
  let taken := ((s.core core).queue 2).flatMap fun o => if o.started && o.phase != .finished then o.wr else []
  (accTiles (s.core core).mx acc).find? fun t => !taken.contains (tileKey acc t.id)

/-! ### Starts and completions -/

/-- A reserved field of a function-table image (R267, R269). -/
def tabBad (img : List Byte) : Bool :=
  ((img.drop 0x14).take 12).any (· != 0) || (List.range 128).any fun i => ((img.drop (0x2C + 16 * i)).take 4).any (· != 0)

/-- What a command does, but for `vepi` and its checks. -/
def vDo (s : State) (core : Nat) (c : Cmd) : VDo :=
  match c.instr with
  | .vadd v => vBinary s core v c fun a b => vArith 0 v.ty (v.var.getLsbD 0) v.rnd.toNat a b 0
  | .vsub v => vBinary s core v c fun a b => vArith 1 v.ty (v.var.getLsbD 0) v.rnd.toNat a b 0
  | .vmul v => vBinary s core v c fun a b => vArith 2 v.ty (v.var.getLsbD 0) v.rnd.toNat a b 0
  | .vfma v => vElems s core v c (vEs v) true true true (vX v) fun a b d => vArith 3 v.ty (v.var.getLsbD 0) v.rnd.toNat a b d
  | .vdiv v => vBinary s core v c fun a b => (vFmt v.ty).div v.rnd.toNat ((vFmt v.ty).dec a) ((vFmt v.ty).dec b)
  | .vsqrt v => vUnary s core v c fun a => (vFmt v.ty).sqrt v.rnd.toNat ((vFmt v.ty).dec a)
  | .vrsqrt v => vUnary s core v c fun a => (vFmt v.ty).rsqrt v.rnd.toNat ((vFmt v.ty).dec a)
  | .vmin v => vBinary s core v c fun a b => vMinmax v.ty false a b
  | .vmax v => vBinary s core v c fun a b => vMinmax v.ty true a b
  | .vabs v => vUnary s core v c (vSign v.ty false (v.var.getLsbD 0))
  | .vneg v => vUnary s core v c (vSign v.ty true (v.var.getLsbD 0))
  | .vand v | .vor v | .vxor v | .vshl v | .vshr v | .vsra v => vBinary s core v c fun a b => (vBit c.instr v.ty a b, 0)
  | .vcmp v => vCmpDo s core v c
  | .vsel v => vSelDo s core v c
  | .vcvt v => vElems s core v c (vSize v.var) true false false false fun a _ _ => vConvert v.ty v.var v.rnd.toNat a
  | .vsadd v => vBinary s core v c (sliAdd (vQ v.ty))
  | .vssub v => vBinary s core v c (sliSub (vQ v.ty))
  | .vsmul v => vBinary s core v c (sliMul (vQ v.ty))
  | .vsdiv v => vBinary s core v c (sliDiv (vQ v.ty))
  | .vsexp v => vUnary s core v c (sliExp (vQ v.ty))
  | .vslog v => vUnary s core v c (sliLog (vQ v.ty))
  | .vred v => vFoldDo s core v c false
  | .vscan v => vFoldDo s core v c true
  | .vperm v | .vshuf v | .vbcast v => vLaneDo s core c.instr v c
  | .vfn v => vUnary s core v c (vFunc (ftabSlot (s.core core) c.set (v.var.toNat % 8)) v.ty v.rnd.toNat)
  | .vtab v =>
    let off := bits (vv c 1) 22 0
    { foot := [(off, 2080, false)], tab := some (8 * c.set + v.var.toNat % 8, readBytes s (sliceKey core off) 2080) }
  | .vfill v => vElems s core v c (vEs v) false false false true fun _ b _ => (b, 0)
  | .vmov v => vUnary s core v c fun a => (a, 0)
  | .vlds v =>
    let i := bits (vv c 2) 15 0
    let x := vGet s core (vv c 1) (vEs v) i
    { foot := regFoot (vv c 1) (vEs v) [i] false
      value := if vSigned v.ty then BitVec.ofInt 64 (sx (vBits v.ty) x) else w64 x }
  | .vsts v =>
    let i := bits (vv c 2) 15 0
    { foot := regFoot (vv c 0) (vEs v) [i] true, out := putElems (vv c 0) (vEs v) [i] [(vv c 1).toNat % 2 ^ vBits v.ty] }
  | _ => {}

/-- The V-format fields of a command. -/
def vArgsOf (i : Instr) : Option VArgs :=
  match i with
  | .vadd v | .vsub v | .vmul v | .vfma v | .vdiv v | .vsqrt v | .vrsqrt v | .vmin v | .vmax v | .vabs v | .vneg v | .vand v
  | .vor v | .vxor v | .vshl v | .vshr v | .vsra v | .vcmp v | .vsel v | .vcvt v | .vsadd v | .vssub v | .vsmul v | .vsdiv v
  | .vsexp v | .vslog v | .vred v | .vscan v | .vperm v | .vshuf v | .vbcast v | .vepi v | .vfn v | .vtab v | .vfill v | .vmov v
  | .vlds v | .vsts v => some v
  | _ => none

/-- The footprint of a command (R249): what its effect accesses and its mask. -/
def vFoot (core : Nat) (v : VArgs) (c : Cmd) (d : VDo) : List Foot :=
  let mask := if v.m = 0 then [] else [(bits (vv c 4) 22 0, ceilDiv (vCount c) 8, false)]
  ((mask ++ d.foot).filter fun f => f.2.1 != 0).map fun (o, n, w) => ⟨sliceKey core o, n, w, true, false⟩

/-- Performs the writes of a command. -/
def vWrite (s : State) (core : Nat) (d : VDo) : State :=
  let s := d.out.foldl (fun s (o, n, x) => writeNat s (sliceKey core o) n x) s
  match d.tab with
  | some (i, img) => s.updCore core fun k => { k with ftab := mapSet [] k.ftab i img }
  | none => s

/-- What a command would do if it started now: its effect, the accumulator tile that it releases, and its footprint; or a failure that it
meets before its tests (R265, R269). -/
def vPlan (s : State) (core : Nat) (c : Cmd) : Except (BitVec 8 × W64) (VDo × List Nat × List Foot) :=
  match c.instr with
  | .vepi v =>
    let w := epiWords s core c
    let acc := bits (vv c 1) 2 0
    if epiBad v w then .error (cEngine, w64 (bits (vv c 2) 22 0))
    else
      match epiPast v c w with
      | some o => .error (cBounds, o)
      | none =>
        let t := epiTile s core acc
        let d := vEpiDo s core v c w (t.getD {})
        let rl := v.var.getLsbD 0
        let key := t.map fun t => tileKey acc t.id
        .ok (d, if rl then key.toList else [], vFoot core v c d ++ key.toList.map fun k => tileFoot core k rl)
  | .vtab v =>
    let d := vDo s core c
    if tabBad ((d.tab.map (·.2)).getD []) then .error (cEngine, w64 (bits (vv c 1) 22 0)) else .ok (d, [], vFoot core v c d)
  | i =>
    let d := vDo s core c
    .ok (d, [], match vArgsOf i with
      | some v => vFoot core v c d
      | none => [])

/-- Starts a vector command (R249, R250, R417): its tokens are popped, and its whole effect is tested before any byte is written. Every
value is read from the state before the command. (DEDUCED, log 56.) -/
def vStart (s : State) (core : Nat) (c : Cmd) : State :=
  let s := s.updCore core fun k => popTokens k c
  let c := { c with tok := c.tok &&& 0x5, phase := .running, started := true }
  if c.rest ≠ .all then putCmd s core c
  else
    match vPlan s core c with
    | .error (f, v) => failCmd s core c f v
    | .ok (d, wr, foot) =>
      let c := { c with foot := foot, wr := wr }
      let bad := match c.instr with
        | .vepi _ => wr.find? (s.core core).badTiles.contains
        | _ => none
      match bad with
      | some t => failCmd { s with free := s.free + 1 } core c cPoison (tileNum { s with free := s.free + 1 } t)
      | none =>
      match startTests s core c foot true with
      | some (f, v) => failCmd s core c f v
      | none => putCmd (vWrite s core d) core { c with done := c.total, vflags := c.vflags ||| d.fl, value := d.value }

/-- The command of a VX queue that starts next (R249): the oldest one queued, with none failed before it. -/
def vxNext (s : State) (core : Nat) : Option Cmd :=
  let l := ((s.core core).queue 2).filter fun c => c.phase != .finished
  match l.dropWhile fun c => c.phase == .running with
  | c :: _ => if c.phase == .queued then some c else none
  | [] => none

/-- Whether it may start (R217, R249, R463, R490). -/
def vxReady (s : State) (core : Nat) (c : Cmd) : Bool :=
  tokensReady (s.core core) c && !stopServing s c && !(s.die (core / 128)).lost && (s.core core).overBy.isNone &&
    (c.rest != .all || !heldFoot s (match vPlan s core c with
      | .ok (_, _, foot) => foot
      | .error _ => []))

/-- VX_COMMAND_START (R249). -/
def execVxCommandStart (core : Nat) (s : State) : Host.Outcome State Fault Refusal :=
  runEvent (modify fun s =>
    match vxNext s core with
    | none => s
    | some c => if vxReady s core c then vStart s core c else s) s

/-- The value of a `vlds` comes to the context that waits for it (R271). -/
def vldsDeliver (s : State) (c : Cmd) : State :=
  match c.instr with
  | .vlds _ => s.updCtx c.ctx fun x => { x with waits := x.waits.map fun w =>
      match w with
      | .vlds n => if n = c.num then .vldsDone n c.value else w
      | w => w }
  | _ => s

/-- VX_COMMAND_COMPLETE (R249, R220): in queue order; a release drops its tile. -/
def execVxCommandComplete (core : Nat) (s : State) : Host.Outcome State Fault Refusal :=
  runEvent (modify fun s =>
    match headCmd (s.core core) 2 with
    | none => s
    | some c =>
      if c.phase ≠ .running then s
      else
        let s := match c.instr, c.wr with
          | .vepi _, k :: _ =>
            if c.rest = .all then
              let acc := bits (vv c 1) 2 0
              updMx { s with free := s.free + 1 } core fun m => dropTile m acc (k / 8 - 1) (s.free + 1)
            else s
          | _, _ => s
        completeCmd (vldsDeliver s c) core c) s

end Sys2Proof.Machine
end

