-- ==== Sys2Proof/Machine/Sampler.lean ====
section
/-! DEFINITION. The sampler engine (R359 to R365, R406). -/

namespace Sys2Proof.Machine

/-- A sampling request (R360): its eight words, and its command. -/
structure SmpReq where
  w : List W64
  core : Nat
  cmd : Cmd
  off : Nat
  accept : Bool

/-- Vocabulary size. -/
def SmpReq.v (r : SmpReq) : Nat := bits (r.w.getD 0 0) 52 32
/-- Logit format. -/
def SmpReq.lfmt (r : SmpReq) : Nat := bits (r.w.getD 0 0) 25 24
/-- Element size of the logits. -/
def SmpReq.es (r : SmpReq) : Nat := if r.lfmt = 1 then 2 else 4
/-- Offset of row 0. -/
def SmpReq.logits (r : SmpReq) : Nat := bits (r.w.getD 0 0) 22 0
/-- Row pitch. -/
def SmpReq.rpitch (r : SmpReq) : Nat := bits (r.w.getD 1 0) 63 40
/-- Stage blocks. -/
def SmpReq.nst (r : SmpReq) : Nat := bits (r.w.getD 1 0) 27 24
/-- Offset of the first stage block. -/
def SmpReq.chain (r : SmpReq) : Nat := bits (r.w.getD 1 0) 22 0
/-- Index of the first draw. -/
def SmpReq.draw (r : SmpReq) : Nat := bits (r.w.getD 5 0) 31 0
/-- Tree nodes: one where no tree is named. -/
def SmpReq.nodes (r : SmpReq) : Nat := if r.accept then bits (r.w.getD 6 0) 39 32 + 1 else 1
/-- Offset of the node array. -/
def SmpReq.tree (r : SmpReq) : Nat := bits (r.w.getD 6 0) 22 0

/-- A request that keeps R360. -/
def SmpReq.ok (r : SmpReq) : Bool :=
  let g (i : Nat) : W64 := r.w.getD i 0
  bits (g 0) 63 53 == 0 && bits (g 0) 31 26 == 0 && !bit (g 0) 23 && bits (g 1) 39 28 == 0 && !bit (g 1) 23 && bits (g 5) 63 32 == 0 &&
    bits (g 6) 63 40 == 0 && bits (g 6) 31 23 == 0 && g 7 == 0 &&
    decide (1 ≤ r.v ∧ r.v ≤ 2 ^ 20) && r.lfmt != 3 && r.logits % r.es == 0 && decide (1 ≤ r.nst ∧ r.nst ≤ 6) && r.chain % 32 == 0 &&
    (!r.accept || (decide (r.v * r.es ≤ r.rpitch) && r.tree % 8 == 0))

/-- A local range that a request or block names (R361): LAYOUT_BOUNDS where it passes the slice. -/
def spanM (off n : Nat) : M Unit := check (decide (off + n ≤ 2 ^ 23)) cBounds (w64 off)

/-- A stage block (R361): its kind and words. -/
structure Stage where
  kind : Nat
  w : List W64
  off : Nat

/-- Word i of a block. -/
def Stage.g (b : Stage) (i : Nat) : W64 := b.w.getD i 0
/-- The local offset that a block names. -/
def Stage.list (b : Stage) : Nat := bits (b.g 1) 22 0
/-- How many entries stand there. -/
def Stage.n (b : Stage) : Nat := bits (b.g 1) 47 32

/-- An FP32 pattern against a bound: whether it is a number with `f` of its order against another. -/
def fpOrd (a b : Nat) : Option Ordering :=
  match fp32.dec a, fp32.dec b with
  | .nan _, _ | _, .nan _ => none
  | x, y =>
    let val (v : FV) : Int × Int := match v with
      | .fin n m e => (if n then -(m : Int) else m, e)
      | .inf n => (if n then -1 else 1, 1000)
      | .nan _ => (0, 0)
    let (m, e) := val x
    let (k, f) := val y
    let lo := min e f
    some (compare (m * 2 ^ (e - lo).toNat) (k * 2 ^ (f - lo).toNat))

/-- a ≥ b. -/
def fpGe (a b : Nat) : Bool := fpOrd a b == some .gt || fpOrd a b == some .eq
/-- a > b. -/
def fpGt (a b : Nat) : Bool := fpOrd a b == some .gt

/-- FP32 one. -/
def fpOne : Nat := 0x3F800000

/-- A block that keeps the table of R361. -/
def Stage.ok (b : Stage) : Bool :=
  let zero (i : Nat) (m : W64) : Bool := b.g i &&& ~~~ m == 0
  match b.kind with
  | 1 => zero 0 0x10F && zero 1 0xFFFFFFFF && zero 2 0 && zero 3 0 &&
      (let m := bits (b.g 1) 31 0
       if bit (b.g 0) 8 then decide (m < 2 ^ 31) && m != sliZero 27
       else decide (0 < m ∧ m < 0x7F800000))
  | 2 => zero 0 0xF && zero 1 0x0000FFFF007FFFFF && zero 2 0 && zero 3 0 && b.list % 8 == 0 && b.n != 0
  | 3 => zero 0 0xF && zero 1 0x7FFFFF && zero 2 0 && zero 3 0 && b.list % 8 == 0
  | 4 => zero 0 0xF && zero 1 0x0000FFFF007FFFFF && zero 3 0xFFFFFFFF && b.list % 4 == 0 && fpGe (bits (b.g 2) 31 0) fpOne
  | 5 => zero 0 0xF && zero 1 0x7FF && zero 3 0 && decide (bits (b.g 1) 10 0 ≤ 1024) &&
      fpGt (bits (b.g 2) 31 0) 0 && fpGe fpOne (bits (b.g 2) 31 0) && fpGe (bits (b.g 2) 63 32) 0 && fpGt fpOne (bits (b.g 2) 63 32)
  | 6 => zero 0 0x1F && zero 1 0 && zero 2 0 && zero 3 0
  | _ => false

/-- Block j of a request. -/
def stageAt (s : State) (r : SmpReq) (j : Nat) : Stage :=
  let off := r.chain + 32 * j
  let w := (List.range 4).map fun i => sliceW s r.core (off + 8 * i)
  ⟨bits (w.getD 0 0) 3 0, w, off⟩

/-- The bytes that a block's list takes. -/
def Stage.span (b : Stage) (v : Nat) : Nat :=
  match b.kind with
  | 2 => 8 * b.n
  | 3 => (v + 7) / 8
  | 4 => 4 * b.n
  | _ => 0

/-- Bytes that a command reads as local ones, cut at the end of the slice. -/
def smpSpan (core o n : Nat) (w : Bool) : List Foot :=
  if 2 ^ 23 ≤ o then [] else [⟨sliceKey core o, min n (2 ^ 23 - o), w, true, false⟩]

/-- Bytes join the footprint of a running command (R340, R361): paddocks, races and poison are tested as at its start (R305, R423). -/
def joinM (r : SmpReq) (o n : Nat) : M (List Foot) := do
  let f := smpSpan r.core o n false
  let s ← get
  match startPaddock s r.cmd f, startRace s r.core r.cmd f, startPoison s f with
  | some v, _, _ => trapM cRights v
  | none, some (x, v), _ => trapM x v
  | none, none, some v => trapM cPoison v
  | none, none, none => return f

/-- A stage starts (R361): its block is read and checked, after the stage of kind `prev`; it joins the footprint with its list. -/
def stageM (r : SmpReq) (j prev : Nat) : M (Stage × List Foot) := do
  spanM (r.chain + 32 * j) 32
  let f ← joinM r (r.chain + 32 * j) 32
  let b := stageAt (← get) r j
  check (b.ok && decide (prev < b.kind) && (b.kind == 6) == (j + 1 == r.nst)) cEngine (w64 b.off)
  spanM b.list (b.span r.v)
  let g ← if b.span r.v = 0 then pure [] else joinM r b.list (b.span r.v)
  return (b, f ++ g)

/-- SLI32 of an FP32 pattern (R105). -/
def sliOfFp (x : Nat) : Nat := (fpToSli 27 (fp32.dec x)).1

/-- A logit as the sampler takes it (R362). -/
def logitOf (lfmt x : Nat) : Nat :=
  match lfmt with
  | 0 => sliOfFp x
  | 1 => (fpToSli 27 (bf16.dec x)).1
  | _ => x

/-- SLI32 operations without their flags (R362). -/
def sMul (a b : Nat) : Nat := (sliMul 27 a b).1
/-- Addition. -/
def sAdd (a b : Nat) : Nat := (sliAdd 27 a b).1
/-- Subtraction. -/
def sSub (a b : Nat) : Nat := (sliSub 27 a b).1
/-- Division. -/
def sDiv (a b : Nat) : Nat := (sliDiv 27 a b).1
/-- Greater or equal, of numbers. -/
def sGe (a b : Nat) : Bool := decide (sliKey 27 b ≤ sliKey 27 a)

/-- One entry of a bias list (R361, R362). -/
def biasM (r : SmpReq) (b : Stage) (ls : List Nat) (k : Nat) : M (List Nat) := do
  let e := sliceW (← get) r.core (b.list + 8 * k)
  let t := bits e 19 0
  check (decide (t < r.v) && bits e 31 20 == 0) cEngine (w64 (b.list + 8 * k))
  return listSet ls t (sAdd (ls.getD t 0) (sliOfFp (bits e 63 32)))

/-- The penalty of one token that occurs c times (R362). -/
def penalise (b : Stage) (l c : Nat) : Nat :=
  let rep := sliOfFp (bits (b.g 2) 31 0)
  let x := if !sliIsNan 27 l && decide (0 < sliKey 27 l) then sDiv l rep else sMul l rep
  sSub (sSub x (sliOfFp (bits (b.g 2) 63 32))) (sMul (sliOfFp (bits (b.g 3) 31 0)) (sliOfRat 27 false c 0).1)

/-- The penalty stage (R362): occurrences in the window and in the tokens accepted so far. -/
def penaltyM (r : SmpReq) (b : Stage) (extra ls : List Nat) : M (List Nat) := do
  let s ← get
  let seen := ((List.range b.n).map fun i => readNat s (sliceKey r.core (b.list + 4 * i)) 4) ++ extra
  return ls.zipIdx.map fun (l, t) =>
    let c := seen.count t
    if c = 0 then l else penalise b l c

/-- What the kept set holds: the weight of each token, none where it is absent. -/
abbrev Kept := List (Option Nat)

/-- Z (R362): the sum in the order of R109 by token index. -/
def Kept.z (k : Kept) : Nat := (vReduce 3 false 9 0 k).1
/-- The kept set is empty. -/
def Kept.none_ (k : Kept) : Bool := k.all (·.isNone)

/-- The kept tokens by weight, the largest first and the lower token first among equals (R362). -/
def Kept.order (k : Kept) : List (Nat × Nat) :=
  (k.zipIdx.filterMap fun (z, t) => z.map fun z => (t, z)).mergeSort fun a b =>
    decide (sliKey 27 b.2 < sliKey 27 a.2) || (decide (sliKey 27 b.2 = sliKey 27 a.2) && decide (a.1 ≤ b.1))

/-- The softmax (R362): a NaN leaves the set. -/
def softmax (ls : List Nat) (alive : List Bool) : Kept :=
  let ok := (ls.zip alive).map fun (l, a) => if a && !sliIsNan 27 l then some l else none
  let top := ok.foldl (fun (m : Option Nat) l =>
    match m, l with
    | none, l => l
    | m, none => m
    | some a, some b => if sGe a b then some a else some b) none
  ok.map fun l => l.map fun l => (sliExp 27 (sSub l (top.getD 0))).1

/-- The tokens of a kept set that stay. -/
def Kept.only (k : Kept) (l : List (Nat × Nat)) : Kept := k.zipIdx.map fun (z, t) => if l.any fun p => p.1 == t then z else none

/-- The shortest prefix whose running sum reaches a bound (R362). -/
def prefixTo (bound : Nat) : Nat → List (Nat × Nat) → List (Nat × Nat)
  | _, [] => []
  | run, (t, z) :: l =>
    let run := sAdd run z
    (t, z) :: if sGe run bound then [] else prefixTo bound run l

/-- The filter stage (R362). (DEDUCED, log 73.) -/
def filterKept (b : Stage) (k : Kept) : Kept :=
  let topk := bits (b.g 1) 10 0
  let topp := bits (b.g 2) 31 0
  let minp := bits (b.g 2) 63 32
  let k := if topk = 0 then k else k.only (k.order.take topk)
  let k := if topp = fpOne then k else k.only (prefixTo (sMul (sliOfFp topp) k.z) (sliZero 27) k.order)
  if minp % 2 ^ 31 = 0 then k
  else
    let bound := sMul (sliOfFp minp) ((k.order.head?.map (·.2)).getD 0)
    k.only (k.order.filter fun p => sGe p.2 bound)

/-- The stages before the sample stage (R362), the j-th next: the values, the mask, and the weights once the softmax has run. An empty
set ends the row. The answer holds what the stages that started have joined to the footprint. -/
def stagesM (r : SmpReq) (extra : List Nat) :
    Nat → Nat → Nat → List Nat → List Bool → Option Kept → List Foot → M (Option (Kept × Nat) × List Foot)
  | 0, _, _, _, _, _, fs => pure (none, fs)
  | fuel + 1, j, prev, ls, alive, k, fs => do
    let (b, f) ← stageM r j prev
    let fs := fs ++ f
    match b.kind with
    | 1 =>
      let m := bits (b.g 1) 31 0
      let m := if bit (b.g 0) 8 then m else sliOfFp m
      stagesM r extra fuel (j + 1) 1 (ls.map fun l => sMul l m) alive k fs
    | 2 => do
      let ls ← (List.range b.n).foldlM (biasM r b) ls
      stagesM r extra fuel (j + 1) 2 ls alive k fs
    | 3 => do
      let s ← get
      let bitAt (t : Nat) : Bool := (readByte s (sliceKey r.core (b.list + t / 8))).getLsbD (t % 8)
      stagesM r extra fuel (j + 1) 3 ls (alive.zipIdx.map fun (a, t) => a && bitAt t) k fs
    | 4 => do
      let ls ← penaltyM r b extra ls
      stagesM r extra fuel (j + 1) 4 ls alive k fs
    | 5 =>
      let z := softmax ls alive
      if z.none_ then return (none, fs)
      else stagesM r extra fuel (j + 1) 5 ls alive (some (filterKept b z)) fs
    | _ =>
      let z := k.getD (softmax ls alive)
      if z.none_ then return (none, fs) else return (some (z, if bit (b.g 0) 4 then 1 else 0), fs)

/-- A row of logits through the chain (R362): the kept set, and whether the sample stage is greedy; none where no token is left. -/
def rowM (r : SmpReq) (row : Nat) (extra : List Nat) : M (Option (Kept × Nat) × List Foot) := do
  let off := r.logits + row * r.rpitch
  spanM off (r.v * r.es)
  let s ← get
  let ls := (List.range r.v).map fun t => logitOf r.lfmt (readNat s (sliceKey r.core (off + t * r.es)) r.es)
  stagesM r extra r.nst 0 0 ls (List.replicate r.v true) none []

/-- The fraction of draw d (R363), times 2^64. -/
def drawOf (r : SmpReq) (d : Nat) : Nat :=
  let w (i : Nat) : Nat := (r.w.getD i 0).toNat
  bytesToNat (shake256 (natToBytes 8 (w 2) ++ natToBytes 8 (w 3) ++ natToBytes 4 (w 4 % 2 ^ 32) ++ natToBytes 4 (w 4 / 2 ^ 32) ++
    natToBytes 4 (d % 2 ^ 32)) 8)

/-- The real logarithm of a positive SLI32 value (R97), a huge one for what is beyond the range of reals below. -/
def sliLn (x : Nat) : Int :=
  match sliDec 27 x with
  | .num _ r y =>
    let m : Int := ((phiG y).getD (2 ^ 500) : Nat)
    if r then -m else m
  | _ => 0

/-- Whether a positive SLI32 value exceeds n / 2^64 of another (R363, R365): the exact comparison, made on logarithms. -/
def aboveShare (a z n : Nat) : Bool :=
  sliNum 27 a && (n == 0 || decide (lnRat n (-64) < sliLn a - sliLn z))

/-- The greedy choice (R363). -/
def greedyOf (k : Kept) : Nat := (k.order.head?.map (·.1)).getD 0

/-- The least kept token at which the running sum exceeds a share of Z (R363); the last one where rounding leaves none. -/
def walkTo (z n : Nat) : Nat → Nat → Nat → Kept → Nat
  | _, _, last, [] => last
  | run, t, last, none :: l => walkTo z n run (t + 1) last l
  | run, t, _, some x :: l =>
    let run := sAdd run x
    if aboveShare run z n then t else walkTo z n run (t + 1) t l

/-- Samples from a kept set (R363): the token and the draws made. -/
def sampleOf (r : SmpReq) (k : Kept) (greedy : Bool) (used : Nat) : Nat × Nat :=
  if greedy then (greedyOf k, used) else (walkTo k.z (drawOf r (r.draw + used)) (sliZero 27) 0 0 k, used + 1)

/-- `smp.run` (R364): the bytes of its result. -/
def smpRunM (r : SmpReq) : M (List (Nat × List Byte) × List Foot) := do
  match ← rowM r 0 [] with
  | (none, fs) => return ([(0, natToBytes 8 (0xFFFFF + 2 ^ 24 + sliZero 27 * 2 ^ 32) ++ natToBytes 8 0)], fs)
  | (some (k, g), fs) =>
    let (t, used) := sampleOf r k (g == 1) 0
    let p := sDiv ((k.getD t none).getD 0) k.z
    return ([(0, natToBytes 8 (t + p * 2 ^ 32) ++ natToBytes 8 used)], fs)

/-- A tree node (R365). -/
def nodeAt (s : State) (r : SmpReq) (i : Nat) : W64 := sliceW s r.core (r.tree + 8 * i)

/-- What `smp.accept` has decided so far (R365). -/
structure Accept where
  cur : Nat := 0
  path : List Nat := [0]
  toks : List Nat := []
  prod : Nat := 0
  used : Nat := 0
  foots : List Foot := []

/-- The children of a node, tried in ascending order (R365): the accepted one, or the residual set. -/
def tryKids (s : State) (r : SmpReq) (greedy : Bool) (a : Accept) : List Nat → Kept → Accept × Option Kept
  | [], k => (a, some k)
  | c :: t, k =>
    let tok := bits (nodeAt s r c) 19 0
    match k.getD tok none with
    | none => tryKids s r greedy a t k
    | some z =>
      let p := sDiv z k.z
      let ok := if greedy then tok == greedyOf k else aboveShare p (sliOfFp fpOne) (drawOf r (r.draw + a.used))
      let a := if greedy then a else { a with used := a.used + 1 }
      if ok then ({ a with prod := sMul a.prod p, path := a.path ++ [c], toks := a.toks ++ [tok], cur := c }, none)
      else
        let k : Kept := listSet k tok none
        if k.none_ then (a, some k) else tryKids s r greedy a t k

/-- The loop of R365: the decision, the bonus token and the status. -/
def acceptM (r : SmpReq) : Nat → Accept → M (Accept × Nat × Nat)
  | 0, a => pure (a, 0xFFFFF, 1)
  | fuel + 1, a => do
    let (k, fs) ← rowM r a.cur a.toks
    let a := { a with foots := a.foots ++ fs }
    match k with
    | none => return (a, 0xFFFFF, 1)
    | some (k, g) =>
      let s ← get
      let kids := (List.range r.nodes).filter fun i => i != 0 && bits (nodeAt s r i) 63 48 == a.cur
      match tryKids s r (g == 1) a kids k with
      | (a, none) => acceptM r fuel a
      | (a, some k) =>
        if k.none_ then return (a, 0xFFFFF, 1)
        else
          let (t, used) := sampleOf r k (g == 1) a.used
          return ({ a with toks := a.toks ++ [t], used }, t, 0)

/-- `smp.accept` (R365): the bytes of its result. (DEDUCED, log 74.) -/
def smpAcceptM (r : SmpReq) : M (List (Nat × List Byte) × List Foot) := do
  spanM r.tree (8 * r.nodes)
  let s ← get
  for i in List.range r.nodes do
    let e := nodeAt s r i
    check (bits e 47 20 == 0 && decide (bits e 19 0 < r.v) && (if i = 0 then bits e 63 48 == 0xFFFF else decide (bits e 63 48 < i))) cEngine
      (w64 (r.tree + 8 * i))
  let (a, bonus, status) ← acceptM r (r.nodes + 1) { prod := sliOfFp fpOne }
  return ([(0, natToBytes 8 (bonus + status * 2 ^ 24 + a.prod * 2 ^ 32) ++ natToBytes 8 (a.path.length + a.used * 2 ^ 32)),
    (16, a.path.flatMap fun n => natToBytes 2 n), (528, a.toks.flatMap fun t => natToBytes 4 t)], a.foots.dedup)

/-- The request of a command. -/
def smpReq (s : State) (core : Nat) (c : Cmd) : SmpReq :=
  let off := (gv c 0).toNat
  ⟨(List.range 8).map fun i => sliceW s core (off + 8 * i), core, c, off, match c.instr with
    | .smpAccept _ => true
    | _ => false⟩

/-- The body of a sampler command: nothing is written before every check has passed (R361). -/
def smpBody (core : Nat) (c : Cmd) : M (List W64 × List Foot) := do
  let r := smpReq (← get) core c
  check r.ok cEngine (w64 r.off)
  let (out, fs) ← if r.accept then smpAcceptM r else smpRunM r
  let res := (gv c 1).toNat
  for (o, l) in out do
    spanM (res + o) l.length
  modify fun s => out.foldl (fun s (o, l) => storeBytes s (sliceKey core (res + o)) l) s
  return ([], fs)

/-- The footprint that a sampler command declares at its start (R340, R406): its request, node array, rows and result. -/
def smpFoot (s : State) (core : Nat) (c : Cmd) : List Foot :=
  let r := smpReq s core c
  let f := smpSpan core
  f r.off 64 false ++ (if r.accept then f r.tree (8 * r.nodes) false else []) ++
    ((List.range r.nodes).flatMap fun i => f (r.logits + i * r.rpitch) (r.v * r.es) false) ++
    f (gv c 1).toNat (if r.accept then 528 + 4 * r.nodes else 16) true

/-- The cores of a cluster in the order of their turns (R359). -/
def samplerTurns (s : State) (cl : Nat) : List Nat :=
  (List.range 8).map fun i => 8 * cl + ((s.cluster cl).smpLast + 1 + i) % 8

/-- A command that the sampler engine of a cluster is running (R359). -/
def samplerBusy (s : State) (cl : Nat) : Bool :=
  (List.range 8).any fun i => match headCmd (s.core (8 * cl + i)) 4 with
    | some c => isSmp c.instr && c.phase == .running && c.rest == .all
    | none => false

/-- SAMPLER_TAKE (R359, R361): the next core in turn whose GX queue has a sampler command at its head. Its stages start one after the
other within the step. (DEDUCED, log 69.) -/
def execSamplerTake (cluster : Nat) (s : State) : Host.Outcome State Fault Refusal :=
  runEvent (fun s =>
    let ready (core : Nat) : Option (Nat × Cmd) := match gxNext s core with
      | some c => if isSmp c.instr then some (core, c) else none
      | none => none
    match (if samplerBusy s cluster then none else (samplerTurns s cluster).findSome? ready) with
    | none => .ok ((), s)
    | some (core, c) =>
      let s := s.updCluster cluster fun k => { k with smpLast := core % 8 }
      gxStart core c true (smpFoot s core c) (smpBody core c) s) s

end Sys2Proof.Machine
end

