-- ==== Sys2Proof/Machine/Scalar.lean ====
section
/-! DEFINITION. The scalar integer instructions (R142 to R148). -/

namespace Sys2Proof.Machine

/-- A two-source instruction whose result depends on its sources alone. -/
def scalar2 (r : RArgs) (f : W64 → W64 → W64) : M Unit := do
  let (a, b) ← readOps r
  writeReg r.d (f a b)

/-- A two-source instruction that reads x(d) too (R144, R147). -/
def scalar3 (r : RArgs) (f : W64 → W64 → W64 → W64) : M Unit := do
  let (a, b) ← readOps r
  let d ← readReg r.d false
  writeReg r.d (f a b d)

/-- A one-source instruction (R146). -/
def scalar1 (u : UArgs) (f : W64 → W64) : M Unit := do
  let a ← readReg u.a u.ea
  writeReg u.d (f a)

/-- The amount of a shift or rotate: op2[5:0] (R144). -/
def amount (b : W64) : Nat := b.toNat % 64

/-- The high half of a product of two 64-bit patterns (R144). -/
def mulHigh (n : Bool) (a b : W64) : W64 :=
  if n then w64 (a.toNat * b.toNat / 2 ^ 64) else BitVec.ofInt 64 ((a.toInt * b.toInt) / 2 ^ 64)

/-- The smaller of two patterns, unsigned or signed (R144). -/
def minW (n : Bool) (a b : W64) : W64 :=
  if n then (if a.toNat ≤ b.toNat then a else b) else if a.toInt ≤ b.toInt then a else b

/-- The larger of two patterns, unsigned or signed. -/
def maxW (n : Bool) (a b : W64) : W64 :=
  if n then (if a.toNat ≤ b.toNat then b else a) else if a.toInt ≤ b.toInt then b else a

/-- The leading zero bits of the low n bits of a pattern. -/
def leadZeros (a : W64) : Nat → Nat
  | 0 => 0
  | n + 1 => if a.getLsbD n then 0 else leadZeros a n + 1

/-- The trailing zero bits from bit i, over n bits. -/
def trailZeros (a : W64) (i : Nat) : Nat → Nat
  | 0 => 0
  | n + 1 => if a.getLsbD i then 0 else trailZeros a (i + 1) n + 1

/-- The one bits among the low n bits. -/
def ones (a : W64) : Nat → Nat
  | 0 => 0
  | n + 1 => (if a.getLsbD n then 1 else 0) + ones a n

/-- Bits [p+w-1:p] of a pattern as a number (R146). -/
def field (a : W64) (p w : Nat) : Nat := a.toNat / 2 ^ p % 2 ^ w

/-- The absolute value of a pattern read as signed (R146). -/
def absW (a : W64) : W64 := BitVec.ofInt 64 (if a.toInt < 0 then -a.toInt else a.toInt)

/-- A bit field, zero- or sign-extended (R146). -/
def extractW (n : Bool) (p w : Nat) (a : W64) : W64 :=
  if n then w64 (field a p w) else BitVec.ofInt 64 (sx w (field a p w))

/-- x(d) with a field replaced by the low bits of x(a) (R146). -/
def insertW (p w : Nat) (a d : W64) : W64 :=
  let mask := w64 (2 ^ w - 1) <<< p
  (d &&& ~~~ mask) ||| ((a <<< p) &&& mask)

/-- The comparisons of R147. -/
def compareW (c : BitVec 3) (a b : W64) : Bool :=
  match c.toNat with
  | 0 => a == b
  | 1 => a != b
  | 2 => decide (a.toInt < b.toInt)
  | 3 => decide (a.toInt ≤ b.toInt)
  | 4 => decide (a.toNat < b.toNat)
  | _ => decide (a.toNat ≤ b.toNat)

/-- The quotient of R145 for a divisor other than zero: truncated toward zero where signed. -/
def quotW (n : Bool) (a b : W64) : W64 :=
  if n then w64 (a.toNat / b.toNat) else BitVec.ofInt 64 (a.toInt.tdiv b.toInt)

/-- The remainder of R145: the sign of the dividend, or zero. -/
def remW (n : Bool) (a b : W64) : W64 :=
  if n then w64 (a.toNat % b.toNat) else BitVec.ofInt 64 (a.toInt.tmod b.toInt)

/-- `add` (R144). -/
def execAdd (r : RArgs) (s : State) : Host.Outcome State Fault Refusal := runSyl (.add r) (scalar2 r fun a b => a + b) s
/-- `sub` (R144). -/
def execSub (r : RArgs) (s : State) : Host.Outcome State Fault Refusal := runSyl (.sub r) (scalar2 r fun a b => a - b) s
/-- `mul` (R144). -/
def execMul (r : RArgs) (s : State) : Host.Outcome State Fault Refusal := runSyl (.mul r) (scalar2 r fun a b => a * b) s
/-- `mulh` (R144). -/
def execMulh (n : Bool) (r : RArgs) (s : State) : Host.Outcome State Fault Refusal :=
  runSyl (.mulh n r) (scalar2 r (mulHigh n)) s

/-- `div` (R145): INT_DIV_ZERO, INT_DIV_OVERFLOW, or the quotient, which arrives later (R121, R143). -/
def execDiv (n : Bool) (r : RArgs) (s : State) : Host.Outcome State Fault Refusal :=
  runSyl (.div n r) (do
    let (a, b) ← readOps r
    if b = 0 then trapM cDivZero a
    if n = false ∧ a = BitVec.intMin 64 ∧ b = BitVec.allOnes 64 then trapM cDivOverflow a
    pendReg r.d (quotW n a b)) s

/-- `rem` (R145). -/
def execRem (n : Bool) (r : RArgs) (s : State) : Host.Outcome State Fault Refusal :=
  runSyl (.rem n r) (do
    let (a, b) ← readOps r
    if b = 0 then trapM cDivZero a
    pendReg r.d (remW n a b)) s

/-- `madd` (R144). -/
def execMadd (r : RArgs) (s : State) : Host.Outcome State Fault Refusal :=
  runSyl (.madd r) (scalar3 r fun a b d => d + a * b) s
/-- `and` (R144). -/
def execAnd (r : RArgs) (s : State) : Host.Outcome State Fault Refusal := runSyl (.and r) (scalar2 r fun a b => a &&& b) s
/-- `or` (R144). -/
def execOr (r : RArgs) (s : State) : Host.Outcome State Fault Refusal := runSyl (.or r) (scalar2 r fun a b => a ||| b) s
/-- `xor` (R144). -/
def execXor (r : RArgs) (s : State) : Host.Outcome State Fault Refusal := runSyl (.xor r) (scalar2 r fun a b => a ^^^ b) s
/-- `andn` (R144). -/
def execAndn (r : RArgs) (s : State) : Host.Outcome State Fault Refusal :=
  runSyl (.andn r) (scalar2 r fun a b => a &&& ~~~ b) s
/-- `orn` (R144). -/
def execOrn (r : RArgs) (s : State) : Host.Outcome State Fault Refusal :=
  runSyl (.orn r) (scalar2 r fun a b => a ||| ~~~ b) s
/-- `shl` (R144). -/
def execShl (r : RArgs) (s : State) : Host.Outcome State Fault Refusal :=
  runSyl (.shl r) (scalar2 r fun a b => a <<< amount b) s
/-- `shr` (R144). -/
def execShr (r : RArgs) (s : State) : Host.Outcome State Fault Refusal :=
  runSyl (.shr r) (scalar2 r fun a b => a >>> amount b) s
/-- `sra` (R144). -/
def execSra (r : RArgs) (s : State) : Host.Outcome State Fault Refusal :=
  runSyl (.sra r) (scalar2 r fun a b => a.sshiftRight (amount b)) s
/-- `rot` (R144). -/
def execRot (r : RArgs) (s : State) : Host.Outcome State Fault Refusal :=
  runSyl (.rot r) (scalar2 r fun a b => a.rotateLeft (amount b)) s
/-- `min` (R144). -/
def execMin (n : Bool) (r : RArgs) (s : State) : Host.Outcome State Fault Refusal :=
  runSyl (.min n r) (scalar2 r (minW n)) s
/-- `max` (R144). -/
def execMax (n : Bool) (r : RArgs) (s : State) : Host.Outcome State Fault Refusal :=
  runSyl (.max n r) (scalar2 r (maxW n)) s
/-- `abs` (R146). -/
def execAbs (u : UArgs) (s : State) : Host.Outcome State Fault Refusal := runSyl (.abs u) (scalar1 u absW) s
/-- `clz` (R146). -/
def execClz (u : UArgs) (s : State) : Host.Outcome State Fault Refusal :=
  runSyl (.clz u) (scalar1 u fun a => w64 (leadZeros a 64)) s
/-- `ctz` (R146). -/
def execCtz (u : UArgs) (s : State) : Host.Outcome State Fault Refusal :=
  runSyl (.ctz u) (scalar1 u fun a => w64 (trailZeros a 0 64)) s
/-- `popc` (R146). -/
def execPopc (u : UArgs) (s : State) : Host.Outcome State Fault Refusal :=
  runSyl (.popc u) (scalar1 u fun a => w64 (ones a 64)) s

/-- `bfx` (R146). -/
def execBfx (n : Bool) (f : FArgs) (s : State) : Host.Outcome State Fault Refusal :=
  runSyl (.bfx n f) (scalar1 ⟨f.d, f.a, f.ea⟩ (extractW n f.p.toNat (f.wm1.toNat + 1))) s

/-- `bfi` (R146). -/
def execBfi (f : FArgs) (s : State) : Host.Outcome State Fault Refusal :=
  runSyl (.bfi f) (do
    let a ← readReg f.a f.ea
    let d ← readReg f.d false
    writeReg f.d (insertW f.p.toNat (f.wm1.toNat + 1) a d)) s

/-- `sel` (R147). -/
def execSel (r : RArgs) (s : State) : Host.Outcome State Fault Refusal :=
  runSyl (.sel r) (scalar3 r fun a b d => if d != 0 then a else b) s

/-- `cmp` (R147). -/
def execCmp (c : BitVec 3) (r : RArgs) (s : State) : Host.Outcome State Fault Refusal :=
  runSyl (.cmp c r) (scalar2 r fun a b => if compareW c a b then 1 else 0) s

/-- The value of a `movi` immediate (R148). -/
def moviValue (i : MovImm) : W64 :=
  match i with
  | .narrow v => v.signExtend 64
  | .wide v => v.signExtend 64

/-- `movi` (R148). -/
def execMovi (d : Reg) (i : MovImm) (s : State) : Host.Outcome State Fault Refusal :=
  runSyl (.movi d i) (writeReg d (moviValue i)) s

/-- `movh` (R148). -/
def execMovh (d : Reg) (i : BitVec 24) (s : State) : Host.Outcome State Fault Refusal :=
  runSyl (.movh d i) (do
    let v ← readReg d false
    writeReg d (i ++ v.extractLsb' 0 40)) s

/-- `lea` (R148). -/
def execLea (sh : BitVec 2) (r : RArgs) (s : State) : Host.Outcome State Fault Refusal :=
  runSyl (.lea sh r) (scalar2 r fun a b => a + (b <<< sh.toNat)) s

end Sys2Proof.Machine
end

