-- ==== Sys2Proof/Machine/Ed448.lean ====
section
/-! DEFINITION. Ed448 (R399 to R401), the signature scheme that R401 names with RFC 8032: keys, signing and verification on the curve
x^2 + y^2 = 1 + d x^2 y^2. (PRESUMED, log 106.) -/

namespace Sys2Proof.Machine.Ed448

/-- The prime of the field. -/
def p : Nat := 2 ^ 448 - 2 ^ 224 - 1

/-- The order of the base point. -/
def order : Nat := 2 ^ 446 - 0x8335dc163bb124b65129c96fde933d8d723a70aadc873d6d54a7bb0d

/-- The curve's d, which is -39081. -/
def d : Nat := p - 39081

/-- A power in the field, by squaring: the exponent has at most 448 bits. -/
def pow (a e : Nat) : Nat :=
  (List.range 448).reverse.foldl (fun r i => if e.testBit i then r * r % p * a % p else r * r % p) 1

/-- A point in projective coordinates: x / z and y / z. -/
structure Point where
  x : Nat
  y : Nat
  z : Nat

/-- The neutral point. -/
def zero : Point := ⟨0, 1, 1⟩

/-- The base point. -/
def base : Point :=
  ⟨0x4f1970c66bed0ded221d15a622bf36da9e146570470f1767ea6de324a3d3a46412ae1af72ab66511433b80e18b00938e2626a82bc70cc05e,
   0x693f46716eb6bc248876203756c9c7624bea73736ca3984087789c1e05a0c2d73ad3ff1ce67c39c4fdbd132c4ed7c8ad9808795bf230fa14, 1⟩

/-- The sum of two points (RFC 8032, section 5.2.4); it serves doubling too, since d is no square. -/
def Point.add (a b : Point) : Point :=
  let zz := a.z * b.z % p
  let xx := a.x * b.x % p
  let yy := a.y * b.y % p
  let e := d * (xx * yy % p) % p
  let f := (zz * zz + p - e) % p
  let g := (zz * zz + e) % p
  ⟨zz * f % p * (((a.x + a.y) * (b.x + b.y) + 2 * p - xx - yy) % p) % p, zz * g % p * ((yy + p - xx) % p) % p, f * g % p⟩

/-- A multiple of a point: the number has at most 456 bits. -/
def Point.times (a : Point) (n : Nat) : Point :=
  (List.range 456).reverse.foldl (fun r i => if n.testBit i then (r.add r).add a else r.add r) zero

/-- Whether two points are the same. -/
def Point.same (a b : Point) : Bool := a.x * b.z % p == b.x * a.z % p && a.y * b.z % p == b.y * a.z % p

/-- A number as n bytes, the lowest first. -/
def toBytes (n v : Nat) : List Byte := (List.range n).map fun i => BitVec.ofNat 8 (v / 2 ^ (8 * i))

/-- The number that bytes make, the lowest first. -/
def ofBytes (l : List Byte) : Nat := l.foldr (fun b n => b.toNat + 256 * n) 0

/-- A point as 57 bytes: y, with the lowest bit of x in the top bit. -/
def Point.encode (a : Point) : List Byte :=
  let i := pow a.z (p - 2)
  toBytes 57 (a.y * i % p + 2 ^ 455 * (a.x * i % p % 2))

/-- The point that 57 bytes stand for, where there is one (RFC 8032, section 5.2.3). -/
def decode (l : List Byte) : Option Point :=
  let v := ofBytes l
  let y := v % 2 ^ 455
  let odd := v / 2 ^ 455 % 2
  let num := (y * y + p - 1) % p
  let den := (d * (y * y % p) + p - 1) % p
  let x := num * num % p * num % p * den % p * pow (pow num 5 * pow den 3 % p) ((p - 3) / 4) % p
  if l.length ≠ 57 ∨ p ≤ y ∨ den * (x * x % p) % p ≠ num ∨ (x = 0 ∧ odd = 1) then none
  else some ⟨if x % 2 = odd then x else p - x, y, 1⟩

/-- The hash that a signature uses, in the scheme without prehash, under a context string. -/
def hash (ctx m : List Byte) : Nat :=
  let name : List Byte := [0x53, 0x69, 0x67, 0x45, 0x64, 0x34, 0x34, 0x38]
  ofBytes (shake256 (name ++ [0, BitVec.ofNat 8 ctx.length] ++ ctx ++ m) 114)

/-- The secret number of a private key of 57 bytes, and the prefix that its signatures hash. -/
def secret (key : List Byte) : Nat × List Byte :=
  let h := shake256 key 114
  (ofBytes (h.take 55) / 4 * 4 + 2 ^ 440 * (128 + (h.getD 55 0).toNat % 128), h.drop 57)

/-- The public key. -/
def publicKey (key : List Byte) : List Byte := (base.times (secret key).1).encode

/-- The signature of a message, 114 bytes. -/
def sign (key ctx m : List Byte) : List Byte :=
  let (s, pre) := secret key
  let r := hash ctx (pre ++ m) % order
  let point := (base.times r).encode
  let k := hash ctx (point ++ publicKey key ++ m) % order
  point ++ toBytes 57 ((r + k * s) % order)

/-- Whether a signature of a message verifies under a public key. -/
def verify (pub ctx m sig : List Byte) : Bool :=
  match decode pub, decode (sig.take 57) with
  | some a, some r =>
    let s := ofBytes (sig.drop 57)
    let k := hash ctx (sig.take 57 ++ pub ++ m) % order
    sig.length == 114 && decide (s < order) && ((base.times s).times 4).same ((r.add (a.times k)).times 4)
  | _, _ => false

end Sys2Proof.Machine.Ed448
end

