-- ==== Sys2Proof/Machine/Security.lean ====
section
/-! DEFINITION. The register windows as the host and the sideband write them (R387, R388, R398), resets (R389, R399, R453), attestation
(R399 to R401) and BAR2. -/

namespace Sys2Proof.Machine

/-! ### Attestation -/

/-- ATTESTATION_REQUEST (R401): ignored while a report is being made. -/
def askReport (s : State) (fn : Nat) (abuf : Nat) : State :=
  if s.recovery ∨ win s fn 0x308 = 1 then s
  else
    let s := setWin s fn 0x300 (w64 abuf)
    if abuf % 64 ≠ 0 then setWin s fn 0x308 3
    else { setWin s fn 0x308 1 with attn := s.attn ++ [(fn, abuf)] }

/-- The measurement of an image (R399): 0 the Evden image, 1 the microcode, 2 the endpoint firmware. Of an image that the device came
with, and that no boot has measured since, it is a free value. -/
def measurement (s : State) (k : Nat) : List Byte :=
  match s.fw.find? fun p => p.1 == 4 + k with
  | some p => p.2
  | none => (List.range 64).map fun i => Config.fuseByte (64 * (k + 1) + i)

/-- The secret key of the identity pair (R400). How it is derived from the fuses is not stated. -/
def identityKey : List Byte := (List.range 57).map fun i => Config.fuseByte (1 + i)

/-- The paddock registers that name a partition, by core and number (R83, R401). -/
def ownPaddocks (s : State) (fn : Nat) : List (Nat × Nat × W64) :=
  s.cores.flatMap fun (i, k) => k.paddock.toList.zipIdx.filterMap fun (v, r) =>
    if bit v 63 ∧ bits v 53 48 = fn then some (i, r, v) else none

/-- The bytes 0x000 to 0x177 of a report (R401). How the stage-2 root and the paddock registers are laid out before they are hashed is
not stated: Config has it. -/
def reportBody (s : State) (fn : Nat) (nonce : List Byte) : List Byte :=
  natToBytes 8 0x0000000141545354 ++ natToBytes 8 ((Config.fuseByte 0).toNat * 256 + fn) ++ nonce ++ measurement s 0 ++
    measurement s 1 ++ measurement s 2 ++ shake256 (Config.partBytes (w64 (bits ((partEntry s fn).getD 1 0) 56 0)) (ownPaddocks s fn)) 64 ++
    Ed448.publicKey identityKey ++ List.replicate 15 0

/-- "Osxia-attest", the context of a report's signature (R401). -/
def attestContext : List Byte := [0x4F, 0x73, 0x78, 0x69, 0x61, 0x2D, 0x61, 0x74, 0x74, 0x65, 0x73, 0x74]

/-- A whole report. (DESIGN CHOICE, log 95.) -/
def report (s : State) (fn : Nat) (nonce : List Byte) : List Byte :=
  let b := reportBody s fn nonce
  b ++ Ed448.sign identityKey attestContext (shake256 b 64) ++ List.replicate 22 0

/-- ATTESTATION_REQUEST (R387, R401): ago written with abuf. -/
def execAttestationRequest (fn : Nat) (abuf : W64) (s : State) : Host.Outcome State Fault Refusal :=
  runEvent (modify fun s => askReport s fn (bits abuf 56 0)) s

/-- ATTESTATION_DONE (R401): the report is written with the nonce that the buffer holds. -/
def execAttestationDone (fn : Nat) (s : State) : Host.Outcome State Fault Refusal :=
  runEvent (modify fun s =>
    match s.attn.find? fun p => p.1 == fn with
    | none => s
    | some (_, a) =>
      let s := { s with attn := s.attn.filter fun p => p.1 != fn }
      let fail := setWin s fn 0x308 3
      match devReadBytes s fn (a + 0x10) 32 with
      | none => fail
      | some nonce =>
        match devWriteBytes s fn a (report s fn nonce) with
        | none => fail
        | some s => signal (setWin s fn 0x308 2) fn 17) s

/-! ### Windows -/

/-- A ring register (R312, R387): the enable stands only with a 4 KiB aligned address and a size from 4 to 16. -/
def ringReg (v : W64) : W64 :=
  let ok := bit v 63 && bits v 56 0 % 4096 == 0 && decide (4 ≤ bits v 61 57 ∧ bits v 61 57 ≤ 16)
  w64 (bits v 61 0 + if ok then 2 ^ 63 else 0)

/-- A write of a register that only the physical function has (R312, R371, R387, R499). -/
def writePf (s : State) (off : Nat) (v : W64) : State :=
  let set (x : W64) : State := setWin s 0 off x
  if off = 0x1000 ∨ off = 0x1080 then set (ringReg v)
  else if off = 0x1010 then set (w64 (bits v 56 0 + if bit v 63 ∧ bits v 56 0 % 8 = 0 then 2 ^ 63 else 0))
  else if off = 0x1030 then set (w64 (max 1 (min 100 (bits v 6 0))))
  else if off = 0x1090 then set v
  else if 0x2000 ≤ off ∧ off < 0x2210 ∧ off % 16 = 0 then
    if (List.range 8).any fun i => bits v (8 * i + 7) (8 * i + 5) != 0 then s else set v
  else if 0x2000 ≤ off ∧ off < 0x2210 ∧ off % 16 = 8 then set (w64 (bits v 2 0))
  else if 0x2400 ≤ off ∧ off < 0x2420 ∧ off % 8 = 0 then set (w64 (min 7552 (bits v 12 0)))
  else if 0x2420 ≤ off ∧ off < 0x2440 ∧ off % 8 = 0 then set (w64 (max 1 (bits v 11 0)))
  else s

/-- A host or sideband write of a window register (R387, R388, R398, R399). What has an event of its own acts as that event. -/
def writeWindow (s : State) (fn off : Nat) (v : W64) : State :=
  if s.recovery then s
  else if 0x100 ≤ off ∧ off < 0x200 then
    let q := (off - 0x100) / 16
    if off % 16 = 8 then ringBell s fn q
    else if off % 16 ≠ 0 then s
    else if bit v 63 then createQueue s fn q v
    else destroyQueue (setWin s fn off (w64 (bits v 56 0))) fn q
  else if off = 0x200 then
    let s := setWin s fn 0x200 (w64 (bits v 56 0))
    if bit v 63 then applyFlow s fn else s
  else if off = 0x208 then setWin s fn 0x208 (w64 (bits v 15 0))
  else if off = 0x300 then if bit v 63 then askReport s fn (bits v 56 0) else setWin s fn 0x300 (w64 (bits v 56 0))
  else if fn = 0 then writePf s off v
  else s

/-- REGISTER_WRITE (R387, R398). -/
def execRegisterWrite (fn : Nat) (off : Nat) (v : W64) (s : State) : Host.Outcome State Fault Refusal :=
  runEvent (modify fun s => writeWindow s fn off v) s

/-- BAR2_ACCESS (R387): a write to the first 64 GiB of the function's address space; a read changes nothing. -/
def execBar2Access (fn : Nat) (addr : Nat) (write : Bool) (data : List Byte) (s : State) : Host.Outcome State Fault Refusal :=
  runEvent (modify fun s =>
    if write && !s.recovery && decide (addr + data.length ≤ 2 ^ 36) then (devWriteBytes s fn addr data).getD s else s) s

/-! ### Resets -/

/-- FIRMWARE_STAGE (R398): an image waits for the next reset. -/
def execFirmwareStage (kind : BitVec 2) (image : List Byte) (s : State) : Host.Outcome State Fault Refusal :=
  runEvent (modify fun s =>
    if kind = 3 then s else { s with fw := mapSet [] s.fw kind.toNat image }) s

/-- An image is accepted (R399): the public key that it carries is the fused one, its signature verifies under it, and its security
version is not below the fused counter. (DESIGN CHOICE, log 95.) -/
def imageGood (im : List Byte) : Bool :=
  let key := Config.imageKey im
  shake256 key 64 == ((List.range 64).map fun i => Config.fuseByte (256 + i)) &&
    Ed448.verify key [] (Config.imageBody im) (Config.imageSig im) && decide ((Config.fuseByte 0).toNat ≤ Config.imageVersion im)

/-- The images that a boot finds and measures (R399): the staged ones that verify; none where one is refused. -/
def boot (fw : List (Nat × List Byte)) : Option (List (Nat × List Byte)) :=
  [0, 1, 2].foldl (fun acc k => match acc with
    | none => none
    | some m =>
      match fw.find? fun p => p.1 == k with
      | none => some m
      | some (_, im) => if imageGood im then some (mapSet [] m (4 + k) (shake256 im 64)) else none) (some fw)

/-- Evden writes entry 0 of the partition table at boot (R443): a root, a node of level 2 and one of level 1, whose 1 024 leaves map the
512 GiB of device memory (R18) in pages of 512 MiB, each at its own address and with every right. (DESIGN CHOICE, log 129.) -/
def bootMap (s : State) : State :=
  let a := 2 ^ 16 * (1 + Config.bootPage % (2 ^ 23 - 4))
  let words (l : List Nat) (n : Nat) : List Byte := (List.range n).flatMap fun i => natToBytes 8 (l.getD i 0)
  let s := writeBytes s (devKey 0) (words [a] 8)
  let s := writeBytes s (devKey a) (words [a + 2 ^ 16 + 1] 4)
  let s := writeBytes s (devKey (a + 2 ^ 16)) (words [a + 2 ^ 17 + 1] 8192)
  writeBytes s (devKey (a + 2 ^ 17)) (words ((List.range 1024).map fun i => 2 ^ 29 * i + 0x1F) 8192)

/-- DEVICE_RESET (R397, R399, R443, R475): every register takes its reset value, the images are verified and measured, and Evden writes
partition 0's entry. What memory holds otherwise stays. (DESIGN CHOICE, log 96.) -/
def execDeviceReset (s : State) : Host.Outcome State Fault Refusal :=
  runEvent (modify fun s =>
    let r : State := { State.reset with
      mem := s.mem, fw := s.fw, free := s.free, agenda := s.agenda, msix := s.msix, sent := s.sent, sideband := s.sideband }
    match boot s.fw with
    | some fw => bootMap { r with fw := fw }
    | none => { r with recovery := true }) s

/-- What a function-level reset ends of one function (R389, R453, R490). (DEDUCED, log 97.) -/
def resetFn (s : State) (fn : Nat) : State :=
  let s := ((s.jobs.filter fun p => p.2.fn == fn && p.2.fin == 0).map (·.1)).foldl cancelJob s
  let s := { s with graphs := s.graphs.map fun (p : Nat × Graph) => (p.1, if p.2.fn = fn then { p.2 with pending := none } else p.2) }
  let s := ((s.graphs.filter fun p => p.2.fn == fn && p.2.live).map (·.1)).foldl cancelInstance s
  let s := ((s.streams.filter fun p => p.2.fn == fn && p.2.status != 0).map (·.1)).foldl dropStream s
  let s := (List.range 17).foldl (fun s q => destroyQueue s fn q) s
  let s := (s.dies.flatMap fun (d, x) => x.seqs.filterMap fun (n, q) => if q.isOpen && q.part == fn then some (d, n) else none).foldl
    (fun s p => closeSeq s p.1 p.2) s
  let s := { s with
    flows := s.flows.filter fun p => p.2.owner != fn
    outKept := s.outKept.filter fun p => (s.flow p.1).owner != fn
    reqs := s.reqs.filter fun r => r.part != fn
    attn := s.attn.filter fun p => p.1 != fn
    ctxs := s.ctxs.map fun (p : Nat × Ctx) => if (s.job p.2.job).fn = fn then (p.1, { p.2 with held := 0, release := none }) else p }
  { s with pf := s.pf.filter fun p => p.1 / 2 ^ 16 != fn }

/-- FUNCTION_LEVEL_RESET (R389, R453): that of the physical function resets every virtual function as well. -/
def execFunctionLevelReset (fn : Nat) (s : State) : Host.Outcome State Fault Refusal :=
  runEvent (modify fun s => if fn = 0 then (List.range 33).foldl resetFn s else resetFn s fn) s

end Sys2Proof.Machine
end

