-- ==== Sys2Proof/Machine/System.lean ====
section
/-! DEFINITION. The system registers (R8, R9, R83, R96, R159 to R166, R202, R372, R377, R382). -/

namespace Sys2Proof.Machine

/-- `sr.status` (R161). -/
def statusOf (s : State) (c : Nat) : W64 :=
  let j := s.job (s.ctx c).job
  let triple := match unitOf s c with
    | some (_, u) => u.triple
    | none => false
  w64 (8 * (j.cls % 4) + (if triple then 4 else 0) + (if isHandler c then 2 else 0) + (if j.priv then 1 else 0))

/-- The rank of a die among those that hold a launch (R53). -/
def dieIndex (l : List Nat) (d : Nat) : Nat := (l.filter fun x => decide (x < d)).length

/-- The value that `srr` reads (R159, R160). (DEDUCED, log 24.) -/
def sysValue (s : State) (c n : Nat) : W64 :=
  let x := s.ctx c
  let j := s.job x.job
  let k := s.core (coreOf c)
  match n with
  | 0x000 => w64 c
  | 0x001 => w64 x.lcore
  | 0x002 => w64 j.dies.length
  | 0x003 => w64 (dieIndex j.dies (dieOf c))
  | 0x004 => statusOf s c
  | 0x008 => w64 s.time
  | 0x009 => x.wake
  | 0x010 => x.lc0
  | 0x011 => x.lc1
  | 0x018 => w64 (x.disc.toNat * 2 ^ 48 + x.wdog.toNat)
  | 0x020 => x.vflags
  | 0x021 => x.mflags
  | 0x028 => w64 (x.region % 1024)
  | 0x030 => x.tlevel.setWidth 64
  | 0x031 => x.tvec
  | 0x032 => x.bank1.cause
  | 0x033 => x.bank1.epc
  | 0x034 => x.bank1.eval
  | 0x035 => x.bank2.cause
  | 0x036 => x.bank2.epc
  | 0x037 => x.bank2.eval
  | 0x038 => x.arv.get 0
  | 0x039 => x.arv.get 1
  | 0x03A => x.arv.get 2
  | 0x03B => x.arv.get 3
  | 0x03C => x.arv.get 4
  | 0x040 => w64 (declared s (coreOf c) * 2 ^ 16 + 4 * 2 ^ 8 + x.held)
  | 0x041 => w64 (voteOf s (partOf s c) (dieOf c))
  | 0x042 => w64 (if j.strm then j.level else 0)
  | 0x043 => w64 (mapGet 0 (s.die (dieOf c)).energy (partOf s c))
  | 0x080 => k.hlimit
  | 0x088 => k.paddock.get 0
  | 0x089 => k.paddock.get 1
  | 0x08A => k.paddock.get 2
  | 0x08B => k.paddock.get 3
  | _ => 0

/-- `srr` (R159). -/
def execSrr (d : Reg) (num : BitVec 12) (s : State) : Host.Outcome State Fault Refusal :=
  runSyl (.srr d num) (do
    let s ← get
    writeReg d (sysValue s s.cur num.toNat)) s

/-- `srw` to a register without a row of its own (R159). -/
def execSrw (a : Src) (num : BitVec 12) (s : State) : Host.Outcome State Fault Refusal :=
  runSyl (.srw a num) (do
    let v ← readSrc a
    sysWrite num.toNat v) s

/-- The fields of a paddock register (R83). -/
def paddockFields : W64 := 0x8C3FFFFFFF7FFFFF

/-- The tests of R83 on a paddock value, against the other paddocks of its core. -/
def paddockOk (k : Core) (n : Nat) (v : W64) : Bool :=
  let b := bits v 22 0
  let l := bits v 47 24
  b % 2 ^ 16 == 0 && l % 2 ^ 16 == 0 && decide (l ≤ 0x7F0000) && decide (b < l) &&
    (k.paddock.toList.zipIdx.all fun (p, i) =>
      i == n || !bit p 63 || !decide (bits p 22 0 < l ∧ b < bits p 47 24))

/-- The value that a paddock register stores (R83). -/
def paddockValue (k : Core) (n : Nat) (v : W64) : W64 :=
  let v := v &&& paddockFields
  if paddockOk k n v then v else v &&& 0x7FFFFFFFFFFFFFFF

/-- `srw` to a paddock register (R83, R85). -/
def execPaddockRegisterWrite (a : Src) (k : BitVec 2) (s : State) : Host.Outcome State Fault Refusal :=
  runSyl (.paddockRegisterWrite a k) (do
    let v ← readSrc a
    let core ← myCore
    let s ← get
    sysWrite (0x088 + k.toNat) (paddockValue (s.core core) k.toNat v)) s

/-- `srw` to `sr.hlimit` (R166). -/
def execHandlerLimitWrite (a : Src) (s : State) : Host.Outcome State Fault Refusal :=
  runSyl (.handlerLimitWrite a) (do
    let v ← readSrc a
    sysWrite 0x080 v) s

/-- `srw` to a flag register (R8, R96): only flags already set when the write issues are cleared. -/
def execFlagsW1cWrite (a : Src) (mx : Bool) (s : State) : Host.Outcome State Fault Refusal :=
  runSyl (.flagsW1cWrite a mx) (do
    let v ← readSrc a
    let c ← getMe
    if mx then sysWrite 0x021 (v &&& c.mflags) else sysWrite 0x020 (v &&& c.vflags)) s

/-- `srw` to an arrival register (R202): with en = 1 the device reads the generation of the object named. A location that
names no object leaves a free value there. -/
def execArrivalRegisterWrite (a : Src) (q : BitVec 3) (s : State) : Host.Outcome State Fault Refusal :=
  runSyl (.arrivalRegisterWrite a q) (do
    let v ← readSrc a
    let s ← get
    let old := s.me.arv.toList.getD q.toNat 0
    let low := bits v 31 24 * 2 ^ 24 + bits v 22 0
    let gen ← if !bit v 31 then pure (bits old 63 32)
      else
        match arvKey s s.cur v with
        | some k => pure (bits (readW s k) 31 0)
        | none => do
          let f ← drawWord
          pure (bits f 31 0)
    sysWrite (0x038 + q.toNat) (w64 (gen * 2 ^ 32 + low))) s

end Sys2Proof.Machine
end

