-- ==== Sys2Proof/Machine/Dispatch.lean ====
section
/-! DEFINITION. One arm for each constructor of Instr, each a direct call of its meaning. -/

namespace Sys2Proof.Machine

def exec (i : Instr) (s : State) : Host.Outcome State Fault Refusal :=
  match i with
  | .add r => Sys2Proof.Machine.execAdd r s
  | .sub r => Sys2Proof.Machine.execSub r s
  | .mul r => Sys2Proof.Machine.execMul r s
  | .mulh n r => Sys2Proof.Machine.execMulh n r s
  | .div n r => Sys2Proof.Machine.execDiv n r s
  | .rem n r => Sys2Proof.Machine.execRem n r s
  | .madd r => Sys2Proof.Machine.execMadd r s
  | .and r => Sys2Proof.Machine.execAnd r s
  | .or r => Sys2Proof.Machine.execOr r s
  | .xor r => Sys2Proof.Machine.execXor r s
  | .andn r => Sys2Proof.Machine.execAndn r s
  | .orn r => Sys2Proof.Machine.execOrn r s
  | .shl r => Sys2Proof.Machine.execShl r s
  | .shr r => Sys2Proof.Machine.execShr r s
  | .sra r => Sys2Proof.Machine.execSra r s
  | .rot r => Sys2Proof.Machine.execRot r s
  | .min n r => Sys2Proof.Machine.execMin n r s
  | .max n r => Sys2Proof.Machine.execMax n r s
  | .abs u => Sys2Proof.Machine.execAbs u s
  | .clz u => Sys2Proof.Machine.execClz u s
  | .ctz u => Sys2Proof.Machine.execCtz u s
  | .popc u => Sys2Proof.Machine.execPopc u s
  | .bfx n f => Sys2Proof.Machine.execBfx n f s
  | .bfi f => Sys2Proof.Machine.execBfi f s
  | .sel r => Sys2Proof.Machine.execSel r s
  | .cmp c r => Sys2Proof.Machine.execCmp c r s
  | .movi d v => Sys2Proof.Machine.execMovi d v s
  | .movh d v => Sys2Proof.Machine.execMovh d v s
  | .lea sh r => Sys2Proof.Machine.execLea sh r s
  | .br b => Sys2Proof.Machine.execBr b s
  | .jmp disp => Sys2Proof.Machine.execJmp disp s
  | .jr a => Sys2Proof.Machine.execJr a s
  | .call a disp => Sys2Proof.Machine.execCall a disp s
  | .ret a => Sys2Proof.Machine.execRet a s
  | .loop lc1 disp => Sys2Proof.Machine.execLoop lc1 disp s
  | .ppt => Sys2Proof.Machine.execPpt s
  | .step => Sys2Proof.Machine.execStep s
  | .tend => Sys2Proof.Machine.execTend s
  | .idle => Sys2Proof.Machine.execIdle s
  | .trap code => Sys2Proof.Machine.execTrap code s
  | .tret => Sys2Proof.Machine.execTret s
  | .srr d num => Sys2Proof.Machine.execSrr d num s
  | .srw a num => Sys2Proof.Machine.execSrw a num s
  | .paddockRegisterWrite a k => Sys2Proof.Machine.execPaddockRegisterWrite a k s
  | .handlerLimitWrite a => Sys2Proof.Machine.execHandlerLimitWrite a s
  | .flagsW1cWrite a mx => Sys2Proof.Machine.execFlagsW1cWrite a mx s
  | .arrivalRegisterWrite a q => Sys2Proof.Machine.execArrivalRegisterWrite a q s
  | .lview d a b => Sys2Proof.Machine.execLview d a b s
  | .lget d a w => Sys2Proof.Machine.execLget d a w s
  | .tlbiS1pg t => Sys2Proof.Machine.execTlbiS1pg t s
  | .tlbiS1all t => Sys2Proof.Machine.execTlbiS1all t s
  | .tlbiS2pg t => Sys2Proof.Machine.execTlbiS2pg t s
  | .tlbiPart t => Sys2Proof.Machine.execTlbiPart t s
  | .tlbiAll t => Sys2Proof.Machine.execTlbiAll t s
  | .quiesceHold a => Sys2Proof.Machine.execQuiesceHold a s
  | .quiesceRel a => Sys2Proof.Machine.execQuiesceRel a s
  | .pgrel big d a => Sys2Proof.Machine.execPgrel big d a s
  | .ctxsave d a b => Sys2Proof.Machine.execCtxsave d a b s
  | .ctxload d a b => Sys2Proof.Machine.execCtxload d a b s
  | .ctxkill d a => Sys2Proof.Machine.execCtxkill d a s
  | .pacq n => Sys2Proof.Machine.execPacq n s
  | .prel => Sys2Proof.Machine.execPrel s
  | .pvote vp => Sys2Proof.Machine.execPvote vp s
  | .aprof n => Sys2Proof.Machine.execAprof n s
  | .rep cnt dstep astep bstep => Sys2Proof.Machine.execRep cnt dstep astep bstep s
  | .nop => Sys2Proof.Machine.execNop s
  | .ldl w n d a off => Sys2Proof.Machine.execLdl w n d a off s
  | .stl w d a off => Sys2Proof.Machine.execStl w d a off s
  | .ldg n d a l => Sys2Proof.Machine.execLdg n d a l s
  | .stg d a l => Sys2Proof.Machine.execStg d a l s
  | .ldf m => Sys2Proof.Machine.execLdf m s
  | .ste m => Sys2Proof.Machine.execSte m s
  | .ldpk m => Sys2Proof.Machine.execLdpk m s
  | .stf m => Sys2Proof.Machine.execStf m s
  | .pref a l => Sys2Proof.Machine.execPref a l s
  | .amoAdd m => Sys2Proof.Machine.execAmoAdd m s
  | .amoAnd m => Sys2Proof.Machine.execAmoAnd m s
  | .amoOr m => Sys2Proof.Machine.execAmoOr m s
  | .amoXor m => Sys2Proof.Machine.execAmoXor m s
  | .amoMin n m => Sys2Proof.Machine.execAmoMin n m s
  | .amoMax n m => Sys2Proof.Machine.execAmoMax n m s
  | .amoSwap m => Sys2Proof.Machine.execAmoSwap m s
  | .amoCas m => Sys2Proof.Machine.execAmoCas m s
  | .amoIncw m => Sys2Proof.Machine.execAmoIncw m s
  | .amoAddb m => Sys2Proof.Machine.execAmoAddb m s
  | .amoFadd m => Sys2Proof.Machine.execAmoFadd m s
  | .amoSadd m => Sys2Proof.Machine.execAmoSadd m s
  | .remoteValueArrival ctx r => Sys2Proof.Machine.execRemoteValueArrival ctx r s
  | .taggedWaitServed ctx => Sys2Proof.Machine.execTaggedWaitServed ctx s
  | .fence kind scope => Sys2Proof.Machine.execFence kind scope s
  | .tlwait t => Sys2Proof.Machine.execTlwait t s
  | .tlread tl d remote a => Sys2Proof.Machine.execTlread tl d remote a s
  | .tlmark tl d => Sys2Proof.Machine.execTlmark tl d s
  | .gnew d g b => Sys2Proof.Machine.execGnew d g b s
  | .join d g => Sys2Proof.Machine.execJoin d g s
  | .leave g => Sys2Proof.Machine.execLeave g s
  | .bar g => Sys2Proof.Machine.execBar g s
  | .arrive d g => Sys2Proof.Machine.execArrive d g s
  | .bwait g b => Sys2Proof.Machine.execBwait g b s
  | .barrierPhaseReady ctx => Sys2Proof.Machine.execBarrierPhaseReady ctx s
  | .cbind port g => Sys2Proof.Machine.execCbind port g s
  | .cunbind port => Sys2Proof.Machine.execCunbind port s
  | .chutePop port => Sys2Proof.Machine.execChutePop port s
  | .chutePush port v => Sys2Proof.Machine.execChutePush port v s
  | .send d a b n => Sys2Proof.Machine.execSend d a b n s
  | .sendLanding core => Sys2Proof.Machine.execSendLanding core s
  | .card d a => Sys2Proof.Machine.execCard d a s
  | .jcancel d a => Sys2Proof.Machine.execJcancel d a s
  | .jpoll d a => Sys2Proof.Machine.execJpoll d a s
  | .mcfg e => Sys2Proof.Machine.execMcfg e s
  | .mcfgr e => Sys2Proof.Machine.execMcfgr e s
  | .mgo e => Sys2Proof.Machine.execMgo e s
  | .mma e => Sys2Proof.Machine.execMma e s
  | .acz e => Sys2Proof.Machine.execAcz e s
  | .acmvSt e => Sys2Proof.Machine.execAcmvSt e s
  | .acmvLd e => Sys2Proof.Machine.execAcmvLd e s
  | .zld e => Sys2Proof.Machine.execZld e s
  | .zst e => Sys2Proof.Machine.execZst e s
  | .zclrE e => Sys2Proof.Machine.execZclrE e s
  | .zclrZ e => Sys2Proof.Machine.execZclrZ e s
  | .rrotUp e => Sys2Proof.Machine.execRrotUp e s
  | .rrotDn e => Sys2Proof.Machine.execRrotDn e s
  | .mtab e => Sys2Proof.Machine.execMtab e s
  | .vadd v => Sys2Proof.Machine.execVadd v s
  | .vsub v => Sys2Proof.Machine.execVsub v s
  | .vmul v => Sys2Proof.Machine.execVmul v s
  | .vfma v => Sys2Proof.Machine.execVfma v s
  | .vdiv v => Sys2Proof.Machine.execVdiv v s
  | .vsqrt v => Sys2Proof.Machine.execVsqrt v s
  | .vrsqrt v => Sys2Proof.Machine.execVrsqrt v s
  | .vmin v => Sys2Proof.Machine.execVmin v s
  | .vmax v => Sys2Proof.Machine.execVmax v s
  | .vabs v => Sys2Proof.Machine.execVabs v s
  | .vneg v => Sys2Proof.Machine.execVneg v s
  | .vand v => Sys2Proof.Machine.execVand v s
  | .vor v => Sys2Proof.Machine.execVor v s
  | .vxor v => Sys2Proof.Machine.execVxor v s
  | .vshl v => Sys2Proof.Machine.execVshl v s
  | .vshr v => Sys2Proof.Machine.execVshr v s
  | .vsra v => Sys2Proof.Machine.execVsra v s
  | .vcmp v => Sys2Proof.Machine.execVcmp v s
  | .vsel v => Sys2Proof.Machine.execVsel v s
  | .vcvt v => Sys2Proof.Machine.execVcvt v s
  | .vsadd v => Sys2Proof.Machine.execVsadd v s
  | .vssub v => Sys2Proof.Machine.execVssub v s
  | .vsmul v => Sys2Proof.Machine.execVsmul v s
  | .vsdiv v => Sys2Proof.Machine.execVsdiv v s
  | .vsexp v => Sys2Proof.Machine.execVsexp v s
  | .vslog v => Sys2Proof.Machine.execVslog v s
  | .vred v => Sys2Proof.Machine.execVred v s
  | .vscan v => Sys2Proof.Machine.execVscan v s
  | .vperm v => Sys2Proof.Machine.execVperm v s
  | .vshuf v => Sys2Proof.Machine.execVshuf v s
  | .vbcast v => Sys2Proof.Machine.execVbcast v s
  | .vepi v => Sys2Proof.Machine.execVepi v s
  | .vfn v => Sys2Proof.Machine.execVfn v s
  | .vtab v => Sys2Proof.Machine.execVtab v s
  | .vfill v => Sys2Proof.Machine.execVfill v s
  | .vmov v => Sys2Proof.Machine.execVmov v s
  | .vlds v => Sys2Proof.Machine.execVlds v s
  | .vsts v => Sys2Proof.Machine.execVsts v s
  | .cpin e => Sys2Proof.Machine.execCpin e s
  | .cpout e => Sys2Proof.Machine.execCpout e s
  | .cpx e => Sys2Proof.Machine.execCpx e s
  | .cgather e => Sys2Proof.Machine.execCgather e s
  | .cscatter e => Sys2Proof.Machine.execCscatter e s
  | .cfill e => Sys2Proof.Machine.execCfill e s
  | .cred e => Sys2Proof.Machine.execCred e s
  | .cmsg e => Sys2Proof.Machine.execCmsg e s
  | .cmirror e => Sys2Proof.Machine.execCmirror e s
  | .cpref e => Sys2Proof.Machine.execCpref e s
  | .ctrOpen e => Sys2Proof.Machine.execCtrOpen e s
  | .ctrClose e => Sys2Proof.Machine.execCtrClose e s
  | .ctrAppend e => Sys2Proof.Machine.execCtrAppend e s
  | .ctrProp e => Sys2Proof.Machine.execCtrProp e s
  | .ctrSave e => Sys2Proof.Machine.execCtrSave e s
  | .ctrLoad e => Sys2Proof.Machine.execCtrLoad e s
  | .ctrTrim e => Sys2Proof.Machine.execCtrTrim e s
  | .smpRun e => Sys2Proof.Machine.execSmpRun e s
  | .smpAccept e => Sys2Proof.Machine.execSmpAccept e s
  | .kvtOpen e => Sys2Proof.Machine.execKvtOpen e s
  | .kvtCommit e => Sys2Proof.Machine.execKvtCommit e s
  | .kvtDrop e => Sys2Proof.Machine.execKvtDrop e s
  | .gpgetGp d a gp => Sys2Proof.Machine.execGpgetGp d a gp s
  | .gpgetCm d k => Sys2Proof.Machine.execGpgetCm d k s
  | .gpset d a b gp => Sys2Proof.Machine.execGpset d a b gp s
  | .grepl d a => Sys2Proof.Machine.execGrepl d a s
  | .mxCommandStart core => Sys2Proof.Machine.execMxCommandStart core s
  | .mxCommandComplete core tl => Sys2Proof.Machine.execMxCommandComplete core tl s
  | .startTokenRefill die => Sys2Proof.Machine.execStartTokenRefill die s
  | .mgoRelocation owner sibling => Sys2Proof.Machine.execMgoRelocation owner sibling s
  | .rrotCollectiveStart cluster => Sys2Proof.Machine.execRrotCollectiveStart cluster s
  | .vxCommandStart core => Sys2Proof.Machine.execVxCommandStart core s
  | .vxCommandComplete core => Sys2Proof.Machine.execVxCommandComplete core s
  | .copyCommandStart core co => Sys2Proof.Machine.execCopyCommandStart core co s
  | .copySectorPerform core co tl => Sys2Proof.Machine.execCopySectorPerform core co tl s
  | .copyCommandComplete core co => Sys2Proof.Machine.execCopyCommandComplete core co s
  | .gxCommandStart core => Sys2Proof.Machine.execGxCommandStart core s
  | .samplerTake cluster => Sys2Proof.Machine.execSamplerTake cluster s
  | .gxCommandComplete core => Sys2Proof.Machine.execGxCommandComplete core s
  | .handlerStart core => Sys2Proof.Machine.execHandlerStart core s
  | .unitDispatch core lane => Sys2Proof.Machine.execUnitDispatch core lane s
  | .recordDeposit core lane => Sys2Proof.Machine.execRecordDeposit core lane s
  | .stepRelease job => Sys2Proof.Machine.execStepRelease job s
  | .launchCompletion job => Sys2Proof.Machine.execLaunchCompletion job s
  | .preemptionRequest victim job => Sys2Proof.Machine.execPreemptionRequest victim job s
  | .preemptionSave ctx => Sys2Proof.Machine.execPreemptionSave ctx s
  | .unitResumption handle core lane => Sys2Proof.Machine.execUnitResumption handle core lane s
  | .watchdogExpiry ctx => Sys2Proof.Machine.execWatchdogExpiry ctx s
  | .forcedPreemptionSave ctx => Sys2Proof.Machine.execForcedPreemptionSave ctx s
  | .handlerLimitExpiry ctx => Sys2Proof.Machine.execHandlerLimitExpiry ctx s
  | .wakeTimeReached ctx => Sys2Proof.Machine.execWakeTimeReached ctx s
  | .asyncFaultDelivery ctx => Sys2Proof.Machine.execAsyncFaultDelivery ctx s
  | .cancelWaitTimeout ctx => Sys2Proof.Machine.execCancelWaitTimeout ctx s
  | .pacqGrant ctx => Sys2Proof.Machine.execPacqGrant ctx s
  | .levelRelease ctx => Sys2Proof.Machine.execLevelRelease ctx s
  | .deferredRailFall die low => Sys2Proof.Machine.execDeferredRailFall die low s
  | .telemetryRecord die => Sys2Proof.Machine.execTelemetryRecord die s
  | .patrolScrub granule => Sys2Proof.Machine.execPatrolScrub granule s
  | .heartbeat die => Sys2Proof.Machine.execHeartbeat die s
  | .heartbeatTimeout die => Sys2Proof.Machine.execHeartbeatTimeout die s
  | .launchPacket fn q => Sys2Proof.Machine.execLaunchPacket fn q s
  | .replayPacket fn q => Sys2Proof.Machine.execReplayPacket fn q s
  | .fencePacket fn q => Sys2Proof.Machine.execFencePacket fn q s
  | .fenceSatisfied fn q => Sys2Proof.Machine.execFenceSatisfied fn q s
  | .fenceTimeout fn q => Sys2Proof.Machine.execFenceTimeout fn q s
  | .signalWritePacket fn q => Sys2Proof.Machine.execSignalWritePacket fn q s
  | .copyPacket fn q => Sys2Proof.Machine.execCopyPacket fn q s
  | .cancelPacket fn q => Sys2Proof.Machine.execCancelPacket fn q s
  | .streamAdmitPacket fn q => Sys2Proof.Machine.execStreamAdmitPacket fn q s
  | .streamModifyPacket fn q => Sys2Proof.Machine.execStreamModifyPacket fn q s
  | .streamRetirePacket fn q => Sys2Proof.Machine.execStreamRetirePacket fn q s
  | .boundsPacket fn q => Sys2Proof.Machine.execBoundsPacket fn q s
  | .graphDefinePacket fn q => Sys2Proof.Machine.execGraphDefinePacket fn q s
  | .graphDeletePacket fn q => Sys2Proof.Machine.execGraphDeletePacket fn q s
  | .streamTimerRelease stream => Sys2Proof.Machine.execStreamTimerRelease stream s
  | .graphNodeSubmit graph node => Sys2Proof.Machine.execGraphNodeSubmit graph node s
  | .graphInstanceComplete graph => Sys2Proof.Machine.execGraphInstanceComplete graph s
  | .deadlineMiss stream => Sys2Proof.Machine.execDeadlineMiss stream s
  | .attestationDone fn => Sys2Proof.Machine.execAttestationDone fn s
  | .pageRequestWrite part => Sys2Proof.Machine.execPageRequestWrite part s
  | .pageReplyRead part => Sys2Proof.Machine.execPageReplyRead part s
  | .pageRequestTimeout part rid => Sys2Proof.Machine.execPageRequestTimeout part rid s
  | .launchUnitAnswer ctx => Sys2Proof.Machine.execLaunchUnitAnswer ctx s
  | .diePowerOff die => Sys2Proof.Machine.execDiePowerOff die s
  | .doorbell fn q => Sys2Proof.Machine.execDoorbell fn q s
  | .queueCreate fn q qcb => Sys2Proof.Machine.execQueueCreate fn q qcb s
  | .queueDestroy fn q => Sys2Proof.Machine.execQueueDestroy fn q s
  | .inboundStreamMessage flow payload => Sys2Proof.Machine.execInboundStreamMessage flow payload s
  | .inboundCoreMessage flow payload => Sys2Proof.Machine.execInboundCoreMessage flow payload s
  | .flowWrite fn => Sys2Proof.Machine.execFlowWrite fn s
  | .portDown port => Sys2Proof.Machine.execPortDown port s
  | .portUp port => Sys2Proof.Machine.execPortUp port s
  | .attestationRequest fn abuf => Sys2Proof.Machine.execAttestationRequest fn abuf s
  | .clockCorrection offset => Sys2Proof.Machine.execClockCorrection offset s
  | .firstClockStep offset => Sys2Proof.Machine.execFirstClockStep offset s
  | .syncLoss => Sys2Proof.Machine.execSyncLoss s
  | .firmwareStage kind image => Sys2Proof.Machine.execFirmwareStage kind image s
  | .deviceReset => Sys2Proof.Machine.execDeviceReset s
  | .functionLevelReset fn => Sys2Proof.Machine.execFunctionLevelReset fn s
  | .registerWrite fn off v => Sys2Proof.Machine.execRegisterWrite fn off v s
  | .quiescenceAdvance => Sys2Proof.Machine.execQuiescenceAdvance s
  | .quiescenceWordWrite => Sys2Proof.Machine.execQuiescenceWordWrite s
  | .quarantineLeave => Sys2Proof.Machine.execQuarantineLeave s
  | .haltBundle => Sys2Proof.Machine.execHaltBundle s
  | .unassignedEncoding w => Sys2Proof.Machine.execUnassignedEncoding w s
  | .peerAcknowledgement flow => Sys2Proof.Machine.execPeerAcknowledgement flow s
  | .bar2Access fn addr write data => Sys2Proof.Machine.execBar2Access fn addr write data s
  | .softErrorEvent key fatal => Sys2Proof.Machine.execSoftErrorEvent key fatal s
  | .thermalSample core temp => Sys2Proof.Machine.execThermalSample core temp s
  | .powerWindowEstimate core est => Sys2Proof.Machine.execPowerWindowEstimate core est s

end Sys2Proof.Machine
end

