-- ==== Sys2Proof/Machine/Ready.lean ====
section
/-! DEFINITION. Which context may issue: readiness, the precedence of a lane's handler, and the bundle as one unit of issue (R26, R27,
R116). -/

namespace Sys2Proof.Machine

/-- The bundle in issue has executed a part and does not wait, so that the rest of it follows at once (R116). -/
def Ctx.midBundle (x : Ctx) : Bool :=
  x.run == .live &&
    (match x.iss with
      | some i => i.slot1 && !i.waited && !i.halting && !i.leaving
      | none => false)

/-- The next bundle of a context, or the rest of the one in issue, has an unmet wait condition (R26): its turn would leave it where it
stands. -/
def waitsAt (s : State) (c : Nat) : Bool :=
  match turn s c with
  | .done t => stays s c (.next t)
  | .stuck _ => false
  | .run i t => (heldBySlot1 t c).isSome || stays t c (exec i t)

/-- A context that is live on a die that stands (R26, R475). -/
def liveAt (s : State) (c : Nat) : Bool := (s.ctx c).run == .live && !(s.die (dieOf c)).lost

/-- A ready context (R26). -/
def ready (s : State) (c : Nat) : Bool := liveAt s c && !waitsAt s c

/-- A context whose turn at issue can come (R26, R27): a role context gives way to the handler of its lane while that is ready, but for
the rest of a bundle in issue (R116). -/
def canIssue (s : State) (c : Nat) : Bool :=
  liveAt s c && (isHandler c || (s.ctx c).midBundle || !ready s (c + 3))

end Sys2Proof.Machine
end

