-- ==== Sys2Proof/Machine/Schedule.lean ====
section
/-! DEFINITION. What the part may do next, and the passing of time. Within R26 the order in which contexts and the parts of the device
take their steps is open (R292), so the choice is a free value among all of them. -/

namespace Sys2Proof.Machine

/-- The main-clock cycles that contexts count while n nanoseconds pass (R49, R161, R461): free values, at most two in a nanosecond. (DESIGN CHOICE, log 9.) -/
def countCycles (s : State) (n : Nat) : State :=
  { s with
    free := s.free + s.ctxs.length
    ctxs := s.ctxs.zipIdx.map fun (p : (Nat × Ctx) × Nat) =>
      let (c, x) := p.1
      if x.resident then (c, { x with wdog := x.wdog + BitVec.ofNat 48 ((Config.freeWord (s.free + p.2)).toNat % (2 * n + 1)) }) else (c, x) }

/-- Time passes: the clock runs, contexts count, and the rails follow their votes. -/
def elapse (s : State) (n : Nat) : State := chargeAll (settleRails (countCycles (tickClock s n) n))

/-- The steps of a core and its engines. The estimates and samples of its sensors come from outside (R376, R380). -/
def coreEvents (k : Nat) : List Instr :=
  [.sendLanding k, .mxCommandStart k, .vxCommandStart k, .vxCommandComplete k, .copyCommandStart k false, .copyCommandStart k true,
    .copyCommandComplete k false, .copyCommandComplete k true, .gxCommandStart k, .gxCommandComplete k, .handlerStart k] ++
    ((List.range 8).map fun i => Instr.mgoRelocation k (k / 8 * 8 + i)) ++
    ((List.range 3).flatMap fun l => [Instr.unitDispatch k l, .recordDeposit k l])

/-- The steps of the commands of a core that run. -/
def cmdEvents (s : State) (k : Nat) : List Instr :=
  ((s.core k).qs.toList.flatMap id).flatMap fun c =>
    match c.q with
    | 1 => [.mxCommandComplete k c.num]
    | 0 => [.copySectorPerform k false c.num]
    | 3 => [.copySectorPerform k true c.num]
    | _ => []

/-- The steps that concern a context. -/
def ctxEvents (s : State) (c : Nat) : List Instr :=
  [.barrierPhaseReady c, .taggedWaitServed c, .preemptionSave c, .watchdogExpiry c, .forcedPreemptionSave c, .handlerLimitExpiry c,
    .wakeTimeReached c, .asyncFaultDelivery c, .cancelWaitTimeout c, .pacqGrant c, .levelRelease c, .launchUnitAnswer c] ++
    (s.ctx c).pend.map fun p => .remoteValueArrival c p.r

/-- The steps of a die. -/
def dieEvents (d : Nat) : List Instr :=
  [.startTokenRefill d, .deferredRailFall d false, .deferredRailFall d true, .telemetryRecord d, .heartbeat d, .heartbeatTimeout d]

/-- The event that processes the packet of a kind. -/
def packetEvent (kind fn q : Nat) : Instr :=
  match kind with
  | 2 => .replayPacket fn q
  | 3 => .fencePacket fn q
  | 4 => .signalWritePacket fn q
  | 5 => .copyPacket fn q
  | 6 => .cancelPacket fn q
  | 7 => .streamAdmitPacket fn q
  | 8 => .streamRetirePacket fn q
  | 9 => .boundsPacket fn q
  | 10 => .graphDefinePacket fn q
  | 11 => .streamModifyPacket fn q
  | 12 => .graphDeletePacket fn q
  | _ => .launchPacket fn q

/-- The steps of the launch unit. -/
def launchEvents (s : State) : List Instr :=
  (match nextQueue s with
    | some k => [packetEvent (packetKind s (k / 32) (s.queue k)) (k / 32) (k % 32)]
    | none => []) ++
    (s.queues.flatMap fun p => if p.2.fence.isSome then [Instr.fenceSatisfied (p.1 / 32) (p.1 % 32), .fenceTimeout (p.1 / 32) (p.1 % 32)] else []) ++
    (s.streams.flatMap fun p => [Instr.streamTimerRelease p.1, .deadlineMiss p.1]) ++
    (s.graphs.flatMap fun p => if p.2.live then .graphInstanceComplete p.1 :: (List.range 64).map (Instr.graphNodeSubmit p.1) else []) ++
    (s.jobs.flatMap fun p => [Instr.stepRelease p.1, .launchCompletion p.1]) ++
    (s.saved.flatMap fun v => (List.range 128).map fun i => Instr.unitResumption v.handle (v.core / 128 * 128 + i) v.lane) ++
    (s.cores.flatMap fun p => (List.range 3).flatMap fun l => s.jobs.map fun j => Instr.preemptionRequest (8 * p.1 + l) j.1)

/-- The steps of the translation walkers, the quarantine queue, the security engine and the memory's patrol. -/
def deviceEvents (s : State) : List Instr :=
  ((List.range 32).flatMap fun p => [Instr.pageRequestWrite (p + 1), .pageReplyRead (p + 1)]) ++
    (s.reqs.filterMap fun r => r.rid.map fun i => Instr.pageRequestTimeout r.part i) ++
    [.quiescenceAdvance, .quiescenceWordWrite, .quarantineLeave] ++ (s.attn.map fun p => Instr.attestationDone p.1) ++
    s.latent.map Instr.patrolScrub

/-- Every step that may come next without anything from outside. -/
def candidates (s : State) : List Sched :=
  let es := ((List.range 512).flatMap fun k => coreEvents k ++ cmdEvents s k) ++ ((List.range 4096).flatMap (ctxEvents s)) ++
    ((List.range 4).flatMap dieEvents) ++ ((List.range 64).flatMap fun c => [Instr.rrotCollectiveStart c, .samplerTake c]) ++
    launchEvents s ++ deviceEvents s
  .elapse 1 :: (((List.range 4096).filter (canIssue s)).map Sched.issue ++ es.map Sched.event)

/-- One of the steps that the device may take now: a free value picks it. (DESIGN CHOICE, log 8.) -/
def choice (s : State) : Sched :=
  let l := candidates s
  l.getD ((Config.freeWord s.free).toNat % l.length) (.elapse 1)

end Sys2Proof.Machine
end

