-- ==== Sys2Proof/Machine/Step.lean ====
section
/-! DEFINITION. One step of the part (R26, R116, R408): a context's turn at issue, a step of the device, an input from outside, or
the passing of time. -/

namespace Sys2Proof.Machine

/-- What follows the execution of a context's instruction: `s` is the state it ran in (R119). -/
def settleOutcome (s : State) (c : Nat) (o : Host.Outcome State Fault Refusal) : Host.Outcome State Fault Refusal :=
  match o with
  | .next t => .next (settle s t c)
  | o => o

/-- A context's turn. -/
def stepCtx (c : Nat) (s : State) : Host.Outcome State Fault Refusal :=
  if canIssue s c then
    match turn s c with
    | .done t => .next t
    | .stuck f => .fault f
    | .run i t =>
      match heldBySlot1 t c with
      | some u => .next u
      | none => settleOutcome t c (exec i t)
  else .next s

/-- What one entry of the schedule does. -/
def stepSched (a : Sched) (s : State) : Host.Outcome State Fault Refusal :=
  match a with
  | .event i => exec i s
  | .issue c => stepCtx c s
  | .elapse n => .next (elapse s n)

/-- One step: the rest of a bundle in issue (R116), or the head of the agenda where there is one, else one of the steps that the device may take now. (DESIGN CHOICE, log 1.) (DESIGN CHOICE, log 6.) -/
def step (s : State) : Host.Outcome State Fault Refusal :=
  if s.me.midBundle then stepCtx s.cur s else
  match s.agenda with
  | a :: t => stepSched a { s with agenda := t }
  | [] => stepSched (choice s) { s with free := s.free + 1 }

/-- The state with an instruction placed where the next step fetches it (log entry 7): a supervisor launch of partition 0 runs in
context 0, whose cached translation maps the page of its program counter to device memory with every right. Up to 48 bits
are slot 0 of a bundle with a header of zero and `nop` in slot 1; more bits are a whole bundle. (DESIGN CHOICE, log 7.) -/
def State.withFetchWord (s : State) (nbits w : Nat) : State :=
  let b : Bundle := if nbits ≤ 48 then ⟨0, BitVec.ofNat 48 w, nopSyl⟩ else unpackBundle (BitVec.ofNat 128 w)
  let t : Tlb := ⟨0, 0, false, 2 ^ 16, 2 ^ 16, 2 ^ 16, 2 ^ 16, 2 ^ 16, 2 ^ 16, 2 ^ 16, 2 ^ 16, false, true, true, true⟩
  let s := writeNat { s with tlb := [t], cur := 0, agenda := [.issue 0] } (devKey (2 ^ 16)) 16 (packBundle b).toNat
  let s := s.setJob 1 { priv := true, started := true }
  s.setCtx 0 { run := .live, pc := 2 ^ 16, job := 1 }

end Sys2Proof.Machine
end

