-- ==== Sys2Proof/Safety.lean ====
section
/-! DEFINITION. What a safe step is, and the words in which claims are stated: when a syllable's operands stand ready, what they read
as, what writing its destination does, and the finish of a syllable. -/

namespace Sys2Proof.Machine

/-- An outcome that is a next state. -/
def Goes (o : Host.Outcome State Fault Refusal) : Prop := ∃ t, o = .next t

/-- A state from which the part goes on. -/
def Safe (s : State) : Prop := Goes (step s)

/-- The value that a scalar register that is no bound chute port reads as (R121, R117): x0 is zero, and slot 1 of a bundle with
S = 0 reads what stood before slot 0. -/
def State.val (s : State) (r : Reg) : W64 :=
  if r = 0 then 0
  else
    match (s.me.iss.getD {}).snap with
    | some v => v.get r.toFin
    | none => s.me.x.get r.toFin

/-- A source register that reads at once: x0, or no chute port and not empty. -/
def Reads (s : State) (r : Reg) : Prop :=
  r = 0 ∨ boundPort s.me r = none ∧ ((s.me.iss.getD {}).snap.isSome = true ∨ s.me.empty.getLsbD r.toNat = false)

/-- The second source of an R-format scalar instruction (R142). -/
def State.val2 (s : State) (o : Op2) : W64 :=
  match o with
  | .reg b _ => s.val b
  | .imm v => v.signExtend 64
  | .wide v => v.signExtend 64

/-- The second source reads at once. -/
def Reads2 (s : State) (o : Op2) : Prop :=
  match o with
  | .reg b _ => Reads s b
  | _ => True

/-- A destination register that is written at once: x0, or no chute port and not empty, in a bundle that has popped no chute of
another slice (R121). -/
def Writes (s : State) (r : Reg) : Prop :=
  r = 0 ∨ boundPort s.me r = none ∧ s.me.empty.getLsbD r.toNat = false ∧ (s.me.iss.getD {}).remote = false

/-- A destination register that can be marked empty, its value arriving later (R121). -/
def Pends (s : State) (r : Reg) : Prop := r = 0 ∨ boundPort s.me r = none ∧ s.me.empty.getLsbD r.toNat = false

/-- The write of a register: x0 discards it. -/
def State.put (s : State) (r : Reg) (v : W64) : State :=
  if r = 0 then s else s.setMe { s.me with x := s.me.x.set r.toNat v }

/-- A register marked empty with its value, and the flags that come with it, on the way; x0 discards the value, and its flags stand at
once (R121, R189). -/
def State.later (s : State) (r : Reg) (v fl : W64) : State :=
  if r = 0 then s.setMe { s.me with vflags := s.me.vflags ||| fl }
  else s.setMe { s.me with
    empty := s.me.empty ||| BitVec.twoPow 64 r.toNat
    pend := s.me.pend ++ [⟨r.toNat, v, fl, (s.me.iss.getD {}).pops⟩] }

/-- A change of the bundle in issue. -/
def State.iss (s : State) (f : Issue → Issue) : State := s.setMe { s.me with iss := some (f (s.me.iss.getD {})) }

/-- No other context holds the slice of a key by `quiesce` (R172). -/
def Unheld (s : State) (k : Nat) : Prop := (s.core (keyCore k)).holder = none ∨ (s.core (keyCore k)).holder = some s.cur

/-- No paddock keeps the running context from n bytes at a slice key (R84). -/
def Unfenced (s : State) (k n : Nat) : Prop := paddockHit s (keyCore k) (keyOff k) n s.me.job = false

/-- The detector finds no race for an access of the running context to n bytes at a slice key (R304). -/
def Unraced (s : State) (k n : Nat) (write atomic : Bool) : Prop := raceTest s s.cur k n write atomic = none

/-- No granule of n bytes at a key is poisoned (R498). -/
def Unpoisoned (s : State) (k n : Nat) : Prop := poisoned s k n = false

/-- What the detector records of an access (R304). -/
def State.raced (s : State) (k n : Nat) (write atomic : Bool) : State :=
  (granules k n).foldl (fun s g => record s s.cur g (wordMask g k n) write atomic) s

/-- No check stops the running context's load of n bytes at a slice key: no hold, paddock, race (where `chk`) or poison. -/
def Loads (s : State) (k n : Nat) (chk atomic : Bool) : Prop :=
  Unheld s k ∧ Unfenced s k n ∧ (chk = true → Unraced s k n false atomic) ∧ Unpoisoned s k n

/-- No check stops the running context's store of n bytes at a slice key. -/
def Stores (s : State) (k n : Nat) (chk atomic : Bool) : Prop :=
  Unheld s k ∧ Unfenced s k n ∧ (chk = true → Unraced s k n true atomic)

/-- The state after a load: a checked one is recorded (R304). -/
def State.loaded (s : State) (k n : Nat) (chk atomic : Bool) : State := if chk then s.raced k n false atomic else s

/-- The state once an access is recorded, where it is checked (R302, R304). -/
def State.racedIf (s : State) (chk : Bool) (k n : Nat) (w atomic : Bool) : State := if chk then s.raced k n w atomic else s

/-- The state after a store: recorded where checked, the bytes written, and the poison of wholly covered granules cleared. -/
def State.stored (s : State) (k n v : Nat) (chk atomic : Bool) : State :=
  clearPoison (writeNat (if chk then s.raced k n true atomic else s) k n v) k n

/-- The running context's load of n bytes at a place answers v and leaves u (R75, R304, R441, R498). -/
def LoadsFrom (s : State) (p : Place) (n : Nat) (chk atomic mir : Bool) (v : Nat) (u : State) : Prop :=
  ∀ ev, loadPlace p n chk atomic ev mir s = .ok (v, u)

/-- The running context's store of n bytes of v at a place leaves u. -/
def StoresTo (s : State) (p : Place) (n v : Nat) (chk atomic mir moved : Bool) (u : State) : Prop :=
  ∀ ev, storePlace p n v chk atomic ev mir moved s = .ok ((), u)

/-- The coordinates of a layout form: x(a), x(a+1), … (R178). -/
def State.coords (s : State) (a : Reg) (n : Nat) : List Nat := (List.range n).map fun i => (s.val (a + BitVec.ofNat 6 i)).toNat

/-- The coordinate registers of a layout form lie below x64 and read at once. -/
def ReadsRun (s : State) (a : Reg) (n : Nat) : Prop := a.toNat + (n - 1) ≤ 63 ∧ ∀ i, i < n → Reads s (a + BitVec.ofNat 6 i)

/-- The layout form of entry l names, for n bytes with these rights, the place p. -/
def LayoutAt (s : State) (a : Reg) (l : BitVec 6) (n : Nat) (rd wr : Bool) (e : Layout) (p : Place) : Prop :=
  e = entryOf s s.cur l.toNat ∧ e.rank ≠ 0 ∧ e.valid = true ∧ ReadsRun s a e.rank ∧
    placeOf s (coreOf s.cur) (partOf s s.cur) e (s.coords a e.rank) n rd wr = .ok p

/-- The word that a tagged form names (R183): its slice key, whether it is checked, whether it is the core's own. -/
def WordAt (s : State) (m : MArgs) (rd wr : Bool) (k : Nat) (chk own : Bool) : Prop :=
  match m.loc with
  | .off o => Reads s m.a ∧ localOff (s.val m.a) o % 8 = 0 ∧ k = sliceKey (coreOf s.cur) (localOff (s.val m.a) o) ∧ chk = true ∧ own = true
  | .lay l => ∃ e, LayoutAt s m.a l 8 rd wr e (.slice k) ∧ e.space ≤ 2 ∧ k % 8 = 0 ∧ chk = e.chk ∧ own = (e.space == 0)

/-- Where an atomic of n bytes acts (R184), whether checked, and whether mirrored. -/
def AtomicAt (s : State) (m : AArgs) (n : Nat) (p : Place) (chk mir : Bool) : Prop :=
  match m.lay with
  | none => Reads s m.a ∧ (s.val m.a).toNat % 2 ^ 23 % n = 0 ∧ p = .slice (sliceKey (coreOf s.cur) ((s.val m.a).toNat % 2 ^ 23)) ∧
      chk = true ∧ mir = false
  | some l => ∃ e, LayoutAt s m.a l n true true e p ∧ e.space ≤ 3 ∧ e.es = n ∧ chk = e.chk ∧ mir = e.mir ∧
      match p with
      | .slice k => keyOff k % n = 0
      | .virt a _ _ => a % n = 0

/-- Where a group object or a chute of n bytes, aligned to al, lies (R194, R203), and whether it is checked. -/
def ObjectAt (s : State) (g : GArgs) (n al k : Nat) (chk : Bool) : Prop :=
  match g.lay with
  | none => Reads s g.a ∧ (s.val g.a).toNat % al = 0 ∧ (s.val g.a).toNat + n ≤ 2 ^ 23 ∧ k = sliceKey (coreOf s.cur) (s.val g.a).toNat ∧
      chk = true
  | some l => ∃ e, LayoutAt s g.a l n true true e (.slice k) ∧ e.space ≤ 2 ∧ coversOk e (s.coords g.a (max e.rank 1)) n = true ∧
      k % al = 0 ∧ chk = e.chk

/-- The bundle in issue releases or acquires (R303). -/
def State.synced (s : State) : State := s.iss fun i => { i with sync := true }

/-- The syllable has had its effect `t`, and its bundle goes on (R116). -/
def Ends (i : Instr) (s t : State) : Prop := exec i s = .next (advance t s.cur)

/-- The syllable takes a precise exception (R119, R411). -/
def Traps (i : Instr) (s : State) (cause : BitVec 8) (v : W64) : Prop :=
  exec i s = .next (faultHere s s.cur cause false v)

/-- The syllable faults at issue (R119). -/
def IssueTraps (i : Instr) (s : State) (cause : BitVec 8) (v : W64) : Prop :=
  exec i s = .next (faultHere s s.cur cause true v)

/-- The syllable waits at issue. -/
def Waits (i : Instr) (s : State) : Prop := exec i s = .next (unissue s s.cur)

/-- `t` is `s` but that context c is x. -/
def SetsCtx (s t : State) (c : Nat) (x : Ctx) : Prop :=
  t = { s with ctxs := t.ctxs } ∧ ∀ j, t.ctx j = if j = c then x else s.ctx j

/-- `t` is `s` but for context c, which may differ in any way. -/
def OnlyCtx (s t : State) (c : Nat) : Prop := SetsCtx s t c (t.ctx c)

end Sys2Proof.Machine
end

