-- ==== Sys2Proof/Certificates/Slice0/Obligations.lean ====
section
/-! DEFINITION. The statements for the provers: what each instruction and each step of the device does, as the rules of spec/ give it. The words in
which they are stated are those of `Sys2Proof/Safety.lean`; `Claims` are parts and abbreviations of statements. -/

open Sys2Proof Sys2Proof.Machine

/-! ### Scalar integer instructions (R142 to R148) -/

/-- The instruction sets x(d) to `f` of its two sources (R142). -/
def Claims.TwoSource (i : RArgs → Instr) (f : W64 → W64 → W64) : Prop :=
  ∀ (r : RArgs) (s : State), Reads s r.a → Reads2 s r.op2 → Writes s r.d →
    Ends (i r) s (s.put r.d (f (s.val r.a) (s.val2 r.op2)))

/-- The instruction sets x(d) to `f` of its two sources and the old x(d). -/
def Claims.ThreeSource (i : RArgs → Instr) (f : W64 → W64 → W64 → W64) : Prop :=
  ∀ (r : RArgs) (s : State), Reads s r.a → Reads2 s r.op2 → Reads s r.d → Writes s r.d →
    Ends (i r) s (s.put r.d (f (s.val r.a) (s.val2 r.op2) (s.val r.d)))

/-- R144: the two-source instructions, each by its row of the table; signed values are `toInt`, unsigned values `toNat`, and `/` on
integers rounds down. -/
def Obligations.TwoSourceResults : Prop :=
  Claims.TwoSource .add (fun a b => BitVec.ofNat 64 (a.toNat + b.toNat)) ∧
  Claims.TwoSource .sub (fun a b => BitVec.ofInt 64 (a.toInt - b.toInt)) ∧
  Claims.TwoSource .mul (fun a b => BitVec.ofInt 64 (a.toInt * b.toInt)) ∧
  Claims.TwoSource .mul (fun a b => BitVec.ofNat 64 (a.toNat * b.toNat)) ∧
  Claims.TwoSource (.mulh false) (fun a b => BitVec.ofInt 64 (a.toInt * b.toInt / 2 ^ 64)) ∧
  Claims.TwoSource (.mulh true) (fun a b => BitVec.ofNat 64 (a.toNat * b.toNat / 2 ^ 64)) ∧
  Claims.ThreeSource .madd (fun a b d => BitVec.ofNat 64 (d.toNat + a.toNat * b.toNat)) ∧
  Claims.TwoSource .and (fun a b => a &&& b) ∧
  Claims.TwoSource .or (fun a b => a ||| b) ∧
  Claims.TwoSource .xor (fun a b => a ^^^ b) ∧
  Claims.TwoSource .andn (fun a b => a &&& ~~~b) ∧
  Claims.TwoSource .orn (fun a b => a ||| ~~~b) ∧
  Claims.TwoSource .shl (fun a b => BitVec.ofNat 64 (a.toNat * 2 ^ (b.toNat % 64))) ∧
  Claims.TwoSource .shr (fun a b => BitVec.ofNat 64 (a.toNat / 2 ^ (b.toNat % 64))) ∧
  Claims.TwoSource .sra (fun a b => BitVec.ofInt 64 (a.toInt / 2 ^ (b.toNat % 64))) ∧
  Claims.TwoSource .rot
    (fun a b => BitVec.ofNat 64 (a.toNat * 2 ^ (b.toNat % 64) % 2 ^ 64 + a.toNat / 2 ^ (64 - b.toNat % 64))) ∧
  Claims.TwoSource (.min false) (fun a b => BitVec.ofInt 64 (Min.min a.toInt b.toInt)) ∧
  Claims.TwoSource (.max false) (fun a b => BitVec.ofInt 64 (Max.max a.toInt b.toInt)) ∧
  Claims.TwoSource (.min true) (fun a b => BitVec.ofNat 64 (Min.min a.toNat b.toNat)) ∧
  Claims.TwoSource (.max true) (fun a b => BitVec.ofNat 64 (Max.max a.toNat b.toNat))

/-- R147, R148: `sel`, `cmp` with its six conditions, `lea`, `movi` with its two immediates, and `movh`. -/
def Claims.SelectCompareMoveResults : Prop :=
  Claims.ThreeSource .sel (fun a b d => if d = 0 then b else a) ∧
  Claims.TwoSource (.cmp 0) (fun a b => if a = b then 1 else 0) ∧
  Claims.TwoSource (.cmp 1) (fun a b => if a = b then 0 else 1) ∧
  Claims.TwoSource (.cmp 2) (fun a b => if a.toInt < b.toInt then 1 else 0) ∧
  Claims.TwoSource (.cmp 3) (fun a b => if a.toInt ≤ b.toInt then 1 else 0) ∧
  Claims.TwoSource (.cmp 4) (fun a b => if a.toNat < b.toNat then 1 else 0) ∧
  Claims.TwoSource (.cmp 5) (fun a b => if a.toNat ≤ b.toNat then 1 else 0) ∧
  (∀ sh : BitVec 2, Claims.TwoSource (.lea sh) fun a b => BitVec.ofNat 64 (a.toNat + b.toNat * 2 ^ sh.toNat)) ∧
  (∀ (d : Reg) (v : BitVec 24) (s : State), Writes s d →
    Ends (.movi d (.narrow v)) s (s.put d (BitVec.ofInt 64 v.toInt))) ∧
  (∀ (d : Reg) (v : BitVec 40) (s : State), Writes s d → Ends (.movi d (.wide v)) s (s.put d (BitVec.ofInt 64 v.toInt))) ∧
  ∀ (d : Reg) (v : BitVec 24) (s : State), Reads s d → Writes s d →
    Ends (.movh d v) s (s.put d (BitVec.ofNat 64 (v.toNat * 2 ^ 40 + (s.val d).toNat % 2 ^ 40)))

/-- `n` is how many of the top bits of a are zero. -/
def Claims.LeadingZeros (a : W64) (n : Nat) : Prop :=
  n ≤ 64 ∧ (∀ i, 64 - n ≤ i → i < 64 → a.getLsbD i = false) ∧ (n < 64 → a.getLsbD (63 - n) = true)

/-- `n` is how many of the low bits of a are zero. -/
def Claims.TrailingZeros (a : W64) (n : Nat) : Prop :=
  n ≤ 64 ∧ (∀ i, i < n → a.getLsbD i = false) ∧ (n < 64 → a.getLsbD n = true)

/-- R146: the one-source and bit-field instructions. A field that is well-formed lies within the register. -/
def Claims.OneSourceResults : Prop :=
  (∀ (u : UArgs) (s : State), Reads s u.a → Writes s u.d →
    Ends (.abs u) s (s.put u.d (BitVec.ofInt 64 |(s.val u.a).toInt|)) ∧
    (∃ n, Claims.LeadingZeros (s.val u.a) n ∧ Ends (.clz u) s (s.put u.d (BitVec.ofNat 64 n))) ∧
    (∃ n, Claims.TrailingZeros (s.val u.a) n ∧ Ends (.ctz u) s (s.put u.d (BitVec.ofNat 64 n))) ∧
    Ends (.popc u) s (s.put u.d (BitVec.ofNat 64 ((List.range 64).filter fun i => (s.val u.a).getLsbD i).length))) ∧
  ∀ (f : FArgs) (s : State), f.wf = true → Reads s f.a → Writes s f.d →
    Ends (.bfx true f) s (s.put f.d ((s.val f.a).extractLsb' f.p.toNat (f.wm1.toNat + 1) |>.setWidth 64)) ∧
    Ends (.bfx false f) s (s.put f.d ((s.val f.a).extractLsb' f.p.toNat (f.wm1.toNat + 1) |>.signExtend 64)) ∧
    (Reads s f.d → ∃ v : W64, Ends (.bfi f) s (s.put f.d v) ∧
      ∀ i, i < 64 → v.getLsbD i =
        if f.p.toNat ≤ i ∧ i < f.p.toNat + (f.wm1.toNat + 1) then (s.val f.a).getLsbD (i - f.p.toNat)
        else (s.val f.d).getLsbD i)

/-- R145: `div` and `rem` for every divisor but zero, and but -1 under -2^63 for `div.s`: the result is on its way to a register
that stays empty until it arrives. -/
def Claims.DivisionResults : Prop :=
  ∀ (r : RArgs) (s : State), Reads s r.a → Reads2 s r.op2 → Pends s r.d → s.val2 r.op2 ≠ 0 →
    (¬ ((s.val r.a).toInt = -2 ^ 63 ∧ (s.val2 r.op2).toInt = -1) →
      Ends (.div false r) s (s.later r.d (BitVec.ofInt 64 ((s.val r.a).toInt.tdiv (s.val2 r.op2).toInt)) 0)) ∧
    Ends (.div true r) s (s.later r.d (BitVec.ofNat 64 ((s.val r.a).toNat / (s.val2 r.op2).toNat)) 0) ∧
    Ends (.rem false r) s (s.later r.d (BitVec.ofInt 64 ((s.val r.a).toInt -
      (s.val r.a).toInt.tdiv (s.val2 r.op2).toInt * (s.val2 r.op2).toInt)) 0) ∧
    Ends (.rem true r) s (s.later r.d (BitVec.ofNat 64 ((s.val r.a).toNat -
      (s.val r.a).toNat / (s.val2 r.op2).toNat * (s.val2 r.op2).toNat)) 0)

/-- R145: division by zero and the one overflow are precise faults, and `rem.s` of -2^63 by -1 is 0. -/
def Claims.DivisionFaults : Prop :=
  ∀ (n : Bool) (r : RArgs) (s : State), Reads s r.a → Reads2 s r.op2 →
    (s.val2 r.op2 = 0 → Traps (.div n r) s 0x05 (s.val r.a) ∧ Traps (.rem n r) s 0x05 (s.val r.a)) ∧
    ((s.val r.a).toInt = -2 ^ 63 ∧ (s.val2 r.op2).toInt = -1 →
      Traps (.div false r) s 0x06 (s.val r.a) ∧ (Pends s r.d → Ends (.rem false r) s (s.later r.d 0 0)))

/-! ### Register operands (R121, R122, R117, R81), the bundle's advance (R116, R118) and the frame of the scalar instructions -/

/-- R121, R122: x0 reads zero; a full register reads its value; an empty one blocks the bundle with e = 0 and raises REG_EMPTY, with
its number, with e = 1. -/
def Claims.SourceRegisters : Prop :=
  ∀ (r : Reg) (e : Bool) (s : State),
    readReg 0 e s = .ok (0, s) ∧
    (r ≠ 0 → boundPort s.me r = none → (s.me.iss.getD {}).snap = none →
      (s.me.empty.getLsbD r.toNat = false → readReg r e s = .ok (s.me.x[r.toNat], s)) ∧
      (s.me.empty.getLsbD r.toNat = true →
        readReg r e s = .error (if e = true then .issueTrap 0x03 (BitVec.ofNat 64 r.toNat) else .wait)))

/-- R117: slot 1 of a bundle with S = 0 reads a register as it stood before the bundle, whatever slot 0 wrote. -/
def Claims.SlotOneReadsOldValues : Prop :=
  ∀ (r : Reg) (e : Bool) (v : Vector W64 64) (s : State), r ≠ 0 → boundPort s.me r = none →
    (s.me.iss.getD {}).snap = some v → readReg r e s = .ok (v[r.toNat], s)

/-- R121: a write to x0 is discarded; a register with a write on its way makes the syllable wait; in a bundle that has popped a
chute of another slice the value arrives later; otherwise the register takes the value, and no other register changes. -/
def Claims.DestinationRegisters : Prop :=
  ∀ (r : Reg) (v : W64) (s : State),
    writeReg 0 v s = .ok ((), s) ∧
    (r ≠ 0 → boundPort s.me r = none →
      (s.me.empty.getLsbD r.toNat = true → writeReg r v s = .error .wait) ∧
      (s.me.empty.getLsbD r.toNat = false → (s.me.iss.getD {}).remote = true → writeReg r v s = .ok ((), s.later r v 0)) ∧
      (s.me.empty.getLsbD r.toNat = false → (s.me.iss.getD {}).remote = false →
        ∃ t, writeReg r v s = .ok ((), t) ∧ SetsCtx s t s.cur { s.me with x := t.me.x } ∧ t.me.x[r.toNat] = v ∧
          ∀ q : Reg, q ≠ r → t.me.x[q.toNat] = s.me.x[q.toNat]))

/-- R81, R457: a source that names a bound qi port pops the chute: the oldest element is the value, head and count move on in the control
word, and no other byte of memory changes. -/
def Claims.ChutePopsSource : Prop :=
  ∀ (r : Reg) (e : Bool) (p : Fin 8) (k : Nat) (s : State),
    r ≠ 0 → boundPort s.me r = some (p, k) → p.val < 4 → s.me.latch.toList.getD p.val none = none →
    chuteOk k (readW s k) = true → bit (readW s k) 60 = true → chuteCount (readW s k) ≠ 0 →
    Unheld s k → Unfenced s k 8 → Unfenced s (k + 8 + 8 * chuteHead (readW s k)) 8 →
    (s.me.portChk p = true → Unraced s k 8 true true) →
    (s.me.portChk p = true → Unraced (s.raced k 8 true true) (k + 8 + 8 * chuteHead (readW s k)) 8 false true) →
    Unpoisoned s k 8 → Unpoisoned s (k + 8 + 8 * chuteHead (readW s k)) 8 →
    ∃ t, readReg r e s = .ok (readW s (k + 8 + 8 * chuteHead (readW s k)), t) ∧
      chuteCount (readW t k) = chuteCount (readW s k) - 1 ∧
      chuteHead (readW t k) = (chuteHead (readW s k) + 1) % (chuteSize (readW s k) + 1) ∧
      chuteTail (readW t k) = chuteTail (readW s k) ∧ chuteSize (readW t k) = chuteSize (readW s k) ∧
      ∀ a, a < k ∨ k + 8 ≤ a → readByte t a = readByte s a

/-- R81, R457: a destination that names a bound qo port pushes the value, which stands in the slot at the tail; tail and count move on in
the control word, and no other byte of memory changes. -/
def Claims.ChutePushesDestination : Prop :=
  ∀ (r : Reg) (v : W64) (p : Fin 8) (k : Nat) (s : State),
    r ≠ 0 → boundPort s.me r = some (p, k) → 4 ≤ p.val →
    chuteOk k (readW s k) = true → bit (readW s k) 61 = true → chuteCount (readW s k) < chuteSize (readW s k) + 1 →
    Unheld s k → Unfenced s k 8 → Unfenced s (k + 8 + 8 * chuteTail (readW s k)) 8 →
    (s.me.portChk p = true → Unraced s k 8 true true) →
    (s.me.portChk p = true → Unraced (s.raced k 8 true true) (k + 8 + 8 * chuteTail (readW s k)) 8 true true) → Unpoisoned s k 8 →
    ∃ t, writeReg r v s = .ok ((), t) ∧ readW t (k + 8 + 8 * chuteTail (readW s k)) = v ∧
      chuteCount (readW t k) = chuteCount (readW s k) + 1 ∧
      chuteTail (readW t k) = (chuteTail (readW s k) + 1) % (chuteSize (readW s k) + 1) ∧
      chuteHead (readW t k) = chuteHead (readW s k) ∧ chuteSize (readW t k) = chuteSize (readW s k) ∧
      ∀ a, (a < k ∨ k + 8 ≤ a) →
        (a < k + 8 + 8 * chuteTail (readW s k) ∨ k + 8 + 8 * chuteTail (readW s k) + 8 ≤ a) → readByte t a = readByte s a

/-- R457: a port of the wrong direction and a control word that fails its tests fault with the word; an empty chute makes a pop wait and
a full one a push. Nothing changes. -/
def Claims.ChutePortsFaultOrWait : Prop :=
  ∀ (r : Reg) (e : Bool) (v : W64) (p : Fin 8) (k : Nat) (s : State), r ≠ 0 → boundPort s.me r = some (p, k) →
    (4 ≤ p.val → readReg r e s = .error (.trap 0x38 (readW s k))) ∧
    (p.val < 4 → writeReg r v s = .error (.trap 0x38 (readW s k))) ∧
    (Unheld s k → Unfenced s k 8 → s.me.latch.toList.getD p.val none = none →
      (p.val < 4 → (chuteOk k (readW s k) && bit (readW s k) 60) = false → readReg r e s = .error (.trap 0x38 (readW s k))) ∧
      (4 ≤ p.val → (chuteOk k (readW s k) && bit (readW s k) 61) = false → writeReg r v s = .error (.trap 0x38 (readW s k))) ∧
      (p.val < 4 → (chuteOk k (readW s k) && bit (readW s k) 60) = true → chuteCount (readW s k) = 0 →
        readReg r e s = .error .wait) ∧
      (4 ≤ p.val → (chuteOk k (readW s k) && bit (readW s k) 61) = true → chuteSize (readW s k) + 1 ≤ chuteCount (readW s k) →
        writeReg r v s = .error .wait))

/-- R142: whatever the forms of the operands (a register, a chute port, an immediate), a two-source instruction reads a, then its second
source, and then writes d. -/
def Claims.TwoSourceForms : Prop :=
  ∀ (r : RArgs) (s : State),
    exec (.add r) s = outcome s ((readReg r.a r.ea >>= fun a => readOp2 r.op2 >>= fun b => writeReg r.d (a + b)) s) ∧
    exec (.sub r) s = outcome s ((readReg r.a r.ea >>= fun a => readOp2 r.op2 >>= fun b => writeReg r.d (a - b)) s) ∧
    exec (.and r) s = outcome s ((readReg r.a r.ea >>= fun a => readOp2 r.op2 >>= fun b => writeReg r.d (a &&& b)) s)

/-- R116, R118, R125: what follows a syllable. After slot 0 the same bundle stands at slot 1; after slot 1 of a bundle without REP, H
and transfer the context stands at the bundle at pc + 16; a repetition of REP that is not the last leads to the next. Nothing else of the
part changes. -/
def Obligations.BundleAdvances : Prop :=
  ∀ (s : State) (c : Nat) (i : Issue), (s.ctx c).iss = some i → i.sync = false →
    (i.slot1 = false →
      ∃ x, SetsCtx s (advance s c) c x ∧ x.pc = (s.ctx c).pc ∧ x.x = (s.ctx c).x ∧
        x.iss = some { i with remote := false, pops := 0, waited := false, slot1 := true }) ∧
    (i.slot1 = true → i.rep = none → (unpackHeader i.hdr).h = false → i.late = [] → i.leave = .next →
      ∃ x, SetsCtx s (advance s c) c x ∧ x.pc = (s.ctx c).pc + 16 ∧ x.x = (s.ctx c).x ∧ x.iss = none ∧ x.slot = false ∧ x.rep = 0) ∧
    (∀ cnt ds as bs, i.slot1 = true → i.rep = some (cnt, ds, as, bs) → i.j < cnt →
      ∃ x, SetsCtx s (advance s c) c x ∧ x.pc = (s.ctx c).pc ∧ x.x = (s.ctx c).x ∧
        x.iss = some { i with remote := false, pops := 0, waited := false, j := i.j + 1 })

/-- The scalar integer instructions, by their destination. -/
def Claims.scalarDst (i : Instr) : Option Reg :=
  match i with
  | .add r | .sub r | .mul r | .mulh _ r | .madd r | .and r | .or r | .xor r | .andn r | .orn r | .shl r | .shr r | .sra r
  | .rot r | .min _ r | .max _ r | .sel r | .cmp _ r | .lea _ r => some r.d
  | .abs u | .clz u | .ctz u | .popc u => some u.d
  | .bfx _ f | .bfi f => some f.d
  | .movi d _ | .movh d _ => some d
  | _ => none

/-- The frame of the scalar integer instructions other than `div` and `rem` (R142), in slot 0 with operands that stand ready: the
destination register changes and nothing else does but the position in the bundle: every other register, every flag, every special and
exception register and every byte of memory reads as before. -/
def Obligations.ScalarFrame : Prop :=
  ∀ (i : Instr) (d : Reg) (s : State) (k : Issue), Claims.scalarDst i = some d → s.me.iss = some k → k.slot1 = false →
    k.sync = false → (∀ p ∈ srcsOf (rankOf s s.cur) i, Reads s p.1) → Writes s d →
    ∃ t, exec i s = .next t ∧ (∀ a, readByte t a = readByte s a) ∧
      SetsCtx s t s.cur { s.me with
        x := t.me.x, waits := t.me.waits, acq := false
        iss := some { k with remote := false, pops := 0, waited := false, slot1 := true } } ∧
      ∀ q : Reg, q ≠ d → t.me.x[q.toNat] = s.me.x[q.toNat]

/-! ### Control transfer, task points and traps (R118, R149 to R158, R409 to R411, R415, R417) -/

/-- The condition of `br` on a value (R150). -/
def Claims.taken (cond : BitVec 3) (v : W64) (n : BitVec 6) : Prop :=
  (cond = 0 ∧ v = 0) ∨ (cond = 1 ∧ v ≠ 0) ∨ (cond = 2 ∧ v.toInt < 0) ∨ (cond = 3 ∧ 0 ≤ v.toInt) ∨ (cond = 4 ∧ 0 < v.toInt) ∨
    (cond = 5 ∧ v.toInt ≤ 0) ∨ (cond = 6 ∧ v.getLsbD n.toNat = true) ∨ (cond = 7 ∧ v.getLsbD n.toNat = false)

/-- The target of a B-format syllable (R149): 16 displacements from the bundle address, modulo 2^57. -/
def Claims.targetOf (pc : BitVec 57) (disp : BitVec 30) : BitVec 57 := BitVec.ofInt 57 (pc.toNat + 16 * disp.toInt)

/-- The bundle will transfer to an address when it has finished. -/
def Claims.going (s : State) (t : BitVec 57) : State := s.iss fun i => { i with leave := .jump t }

/-- R149 to R152: `br` transfers where its condition holds and has no effect elsewhere; `jmp` transfers; `call` writes the link and
transfers; `jr` and `ret` transfer to an aligned x(a)[56:0]; `loop` counts down and transfers while its counter exceeds 1, and otherwise
clears it. The counter's new value stands at the end of the bundle with S = 0, and at once with S = 1. -/
def Obligations.ControlTransfers : Prop :=
  (∀ (b : BrArgs) (s : State), Reads s b.a →
    (Claims.taken b.cond (s.val b.a) b.bit → Ends (.br b) s (Claims.going s (Claims.targetOf s.me.pc b.disp))) ∧
    (¬ Claims.taken b.cond (s.val b.a) b.bit → Ends (.br b) s s)) ∧
  (∀ (disp : BitVec 30) (s : State), Ends (.jmp disp) s (Claims.going s (Claims.targetOf s.me.pc disp))) ∧
  (∀ (a : Reg) (disp : BitVec 30) (s : State), Writes s a →
    Ends (.call a disp) s (Claims.going (s.put a (BitVec.ofNat 64 ((s.me.pc + 16).toNat))) (Claims.targetOf s.me.pc disp))) ∧
  (∀ (a : Src) (s : State), Reads s a.r → (s.val a.r).toNat % 16 = 0 →
    Ends (.jr a) s (Claims.going s (BitVec.ofNat 57 (s.val a.r).toNat)) ∧
    Ends (.ret a) s (Claims.going s (BitVec.ofNat 57 (s.val a.r).toNat))) ∧
  (∀ (a : Src) (s : State), Reads s a.r → (s.val a.r).toNat % 16 ≠ 0 →
    Traps (.jr a) s 0x08 (s.val a.r) ∧ Traps (.ret a) s 0x08 (s.val a.r)) ∧
  (∀ (lc1 : Bool) (disp : BitVec 30) (s : State) (v : W64), v = (if lc1 then s.me.lc1 else s.me.lc0) →
    (unpackHeader (s.me.iss.getD {}).hdr).s = true →
    (1 < v.toNat → ∃ t, OnlyCtx s t s.cur ∧ t.me = { s.me with
        lc0 := if lc1 then s.me.lc0 else v - 1
        lc1 := if lc1 then v - 1 else s.me.lc1
        iss := some { s.me.iss.getD {} with leave := .jump (Claims.targetOf s.me.pc disp) } } ∧ Ends (.loop lc1 disp) s t) ∧
    (v.toNat ≤ 1 → ∃ t, OnlyCtx s t s.cur ∧ t.me = { s.me with
        lc0 := if lc1 then s.me.lc0 else 0
        lc1 := if lc1 then 0 else s.me.lc1 } ∧ Ends (.loop lc1 disp) s t)) ∧
  (∀ (lc1 : Bool) (disp : BitVec 30) (s : State) (v : W64), v = (if lc1 then s.me.lc1 else s.me.lc0) →
    (unpackHeader (s.me.iss.getD {}).hdr).s = false →
    (1 < v.toNat → Ends (.loop lc1 disp) s
      (Claims.going (s.iss fun i => { i with late := i.late ++ [.sys (if lc1 then 0x011 else 0x010) (v - 1)] })
        (Claims.targetOf s.me.pc disp))) ∧
    (v.toNat ≤ 1 → Ends (.loop lc1 disp) s (s.iss fun i => { i with late := i.late ++ [.sys (if lc1 then 0x011 else 0x010) 0] })))

/-- R153 to R158: `ppt`, `tend`, `idle`, `trap`, `tret` and a released `step` leave their transfer for the bundle's end; `step` arrives
at the rendezvous, which closes its region, and waits there until it is released; REP and the NOP have no effect of their own. -/
def Obligations.SchedulingPoints : Prop :=
  ∀ s : State,
    Ends .ppt s (s.iss fun i => { i with leave := .ppt }) ∧
    (s.me.tlevel = 0 → Ends .tend s (s.iss fun i => { i with leave := .tend })) ∧
    Ends .idle s (s.iss fun i => { i with leave := .idle }) ∧
    (∀ code, Ends (.trap code) s (s.iss fun i => { i with leave := .trap code })) ∧
    (s.me.tlevel ≠ 0 → Ends .tret s (s.iss fun i => { i with leave := .tret s.me.bank })) ∧
    (s.me.tlevel = 0 → isHandler s.cur = false → s.me.stepGo = true →
      Ends .step s ((s.iss fun i => { i with leave := .step }).synced)) ∧
    (s.me.tlevel = 0 → isHandler s.cur = false → s.me.stepGo = false →
      exec .step s = .next (unissue (s.updCtx s.cur fun x => { x with run := .atStep, region := x.region + 1 }) s.cur)) ∧
    Ends .nop s s ∧ ∀ cnt ds as bs, Ends (.rep cnt ds as bs) s s

/-- R154, R158, R408, R374: at the wrong trap level, or in a handler, the instruction is ILLEGAL_INSTR at issue, with its syllable. -/
def Claims.LevelRules : Prop :=
  ∀ s : State,
    (s.me.tlevel = 0 → IssueTraps .tret s 0x01 (BitVec.ofNat 64 (s.me.iss.getD {}).syl.toNat)) ∧
    (s.me.tlevel ≠ 0 → IssueTraps .tend s 0x01 (BitVec.ofNat 64 (s.me.iss.getD {}).syl.toNat) ∧
      IssueTraps .step s 0x01 (BitVec.ofNat 64 (s.me.iss.getD {}).syl.toNat)) ∧
    (isHandler s.cur = true → IssueTraps .step s 0x01 (BitVec.ofNat 64 (s.me.iss.getD {}).syl.toNat) ∧
      ∀ n, IssueTraps (.pacq n) s 0x01 (BitVec.ofNat 64 (s.me.iss.getD {}).syl.toNat))

/-- R118, R153, R156, R157: what the end of a bundle does with a transfer: the target is the next bundle; `idle` makes the context not
ready; `ppt` clears the watchdog of a role context that no pre-emption and no cancel stops, and has no effect in a handler; a
handler's `tend` ends its run; `trap` takes SOFTWARE_TRAP with its code, at the bundle after, once the values on their way to the context's registers have arrived. -/
def Claims.TransfersAtBundleEnd : Prop :=
  ∀ (s : State) (c : Nat) (i : Issue), (s.ctx c).iss = some i → i.late = [] →
    (∀ t, i.leave = .jump t → ∃ x, SetsCtx s (leaveBundle s c) c x ∧ x.pc = t ∧ x.iss = none ∧ x.slot = false ∧ x.x = (s.ctx c).x) ∧
    (i.leave = .idle → ∃ x, SetsCtx s (leaveBundle s c) c x ∧ x.pc = (s.ctx c).pc + 16 ∧ x.run = .idle ∧ x.x = (s.ctx c).x) ∧
    (i.leave = .ppt → isHandler c = true →
      ∃ x, SetsCtx s (leaveBundle s c) c x ∧ x.pc = (s.ctx c).pc + 16 ∧ x.wdog = (s.ctx c).wdog ∧ x.run = (s.ctx c).run) ∧
    (i.leave = .ppt → isHandler c = false → (s.job (s.ctx c).job).cancelled = false →
      (∀ lane u, unitOf s c = some (lane, u) → stopsFor s (coreOf c) lane u = false) →
      ∃ x, SetsCtx s (leaveBundle s c) c x ∧ x.pc = (s.ctx c).pc + 16 ∧ x.wdog = 0 ∧ x.run = (s.ctx c).run ∧ x.x = (s.ctx c).x) ∧
    (i.leave = .tend → isHandler c = true → (s.ctx c).ring = none →
      ∃ x, SetsCtx s (leaveBundle s c) c x ∧ x.run = .off ∧ x.region = (s.ctx c).region + 1) ∧
    (∀ code, i.leave = .trap code → banked s c = true →
      leaveBundle s c = s.updCtx c fun x => { x with iss := some { i with leaving := true } }) ∧
    (∀ code, i.leave = .trap code → banked s c = false → (s.ctx c).tlevel = 0 → (s.ctx c).pend = [] →
      bits (s.ctx c).tvec 56 4 ≠ 0 →
      ((leaveBundle s c).ctx c).bank1 = ⟨0x3F, BitVec.ofNat 64 (((s.ctx c).pc + 16).toNat / 16 * 16), BitVec.ofNat 64 code.toNat⟩ ∧
      ((leaveBundle s c).ctx c).tlevel = 1 ∧ ((leaveBundle s c).ctx c).pc.toNat = bits (s.ctx c).tvec 56 4 * 16)

/-- R409, R411, R415: a precise fault of a context that has a level and a vector left, and no register write on its way. The bank of the
level entered holds the cause, the bundle, slot and repetition, and the value; the pc goes to the vector; registers, flags, memory and
every other context stay. -/
def Claims.PreciseFaultEntry : Prop :=
  ∀ (s : State) (cause : BitVec 8) (v : W64) (k : Issue), banked s s.cur = false → s.me.iss = some k → k.late = [] → k.halting = false →
    s.me.pend = [] → s.me.tlevel.toNat < 2 → bits s.me.tvec 56 4 ≠ 0 → cause ≠ 0x20 → s.me.pc.toNat % 16 = 0 →
    ∃ t, faultHere s s.cur cause false v = t ∧ t.me.tlevel = s.me.tlevel + 1 ∧ t.me.pc.toNat = bits s.me.tvec 56 4 * 16 ∧
      t.me.iss = none ∧ t.me.slot = false ∧ t.me.rep = 0 ∧
      (s.me.tlevel = 0 → t.me.bank2 = s.me.bank2 ∧ t.me.bank1 = ⟨BitVec.ofNat 64 cause.toNat,
        BitVec.ofNat 64 ((if k.slot1 then k.j.toNat * 2 ^ 58 else 0) + s.me.pc.toNat + if k.slot1 then 1 else 0), v⟩) ∧
      (s.me.tlevel = 1 → t.me.bank1 = s.me.bank1 ∧ t.me.bank2 = ⟨BitVec.ofNat 64 cause.toNat,
        BitVec.ofNat 64 ((if k.slot1 then k.j.toNat * 2 ^ 58 else 0) + s.me.pc.toNat + if k.slot1 then 1 else 0), v⟩) ∧
      t.me.x = s.me.x ∧ t.me.empty = s.me.empty ∧ t.me.vflags = s.me.vflags ∧ t.me.mflags = s.me.mflags ∧ t.me.tvec = s.me.tvec ∧
      t.me.lc0 = s.me.lc0 ∧ t.me.lc1 = s.me.lc1 ∧ t.me.run = s.me.run ∧ t.me.held = s.me.held ∧
      (∀ a, readByte t a = readByte s a) ∧ ∀ j, j ≠ s.cur → t.ctx j = s.ctx j

/-- R410: a context that faults at level 2, or without a vector, is killed; with kcancel = 0 its launch goes on. -/
def Claims.NoLevelKills : Prop :=
  ∀ (s : State) (c : Nat) (cause : BitVec 8) (async islot : Bool) (epc v : W64), banked s c = false →
    ((s.ctx c).iss.getD {}).late = [] → ((s.ctx c).tlevel = 2 ∨ bits (s.ctx c).tvec 56 4 = 0) →
    (s.job (s.ctx c).job).kcancel = false →
    ((takeTrap s c cause async islot epc v).ctx c).run = (if isHandler c then .off else .killed) ∧
    ((takeTrap s c cause async islot epc v).job (s.ctx c).job).nkill = ((s.job (s.ctx c).job).nkill + 1) % 2 ^ 32

/-- R158: the return from a precise exception at level n, with the bank b that `tret` read there, leaves level n - 1, and the context
continues at the bundle, slot and repetition recorded in it; its registers, flags and memory stay. -/
def Claims.TrapReturnResumes : Prop :=
  ∀ (s : State) (c : Nat) (b : TrapBank), (s.ctx c).back = none →
    (s.ctx c).tlevel ≠ 0 → ((s.ctx c).tlevel = 1 → bit b.cause 8 = false) →
    ∃ t, trapReturn s c b = t ∧ (t.ctx c).tlevel = (s.ctx c).tlevel - 1 ∧ (t.ctx c).pc.toNat = bits b.epc 56 4 * 16 ∧
      (t.ctx c).slot = bit b.epc 0 ∧ (t.ctx c).rep.toNat = bits b.epc 63 58 ∧ (t.ctx c).iss = none ∧
      (t.ctx c).x = (s.ctx c).x ∧ (t.ctx c).vflags = (s.ctx c).vflags ∧ (t.ctx c).bank1 = (s.ctx c).bank1 ∧
      (t.ctx c).bank2 = (s.ctx c).bank2 ∧ (∀ a, readByte t a = readByte s a) ∧ ∀ j, j ≠ c → t.ctx j = s.ctx j

/-! ### System registers, layout, privileged and power instructions (R8, R77, R83, R95, R159 to R177, R202, R372 to R375, R385) -/

/-- R160: the system registers that `srr` reads, each by its number; the read changes nothing but its destination. -/
def Obligations.SystemRegisterReads : Prop :=
  ∀ (d : Reg) (s : State), Writes s d →
    (∀ n : BitVec 12, n.toNat < 0x080 ∨ isPriv s s.cur = true → Ends (.srr d n) s (s.put d (sysValue s s.cur n.toNat))) ∧
    sysValue s s.cur 0x000 = BitVec.ofNat 64 s.cur ∧
    sysValue s s.cur 0x001 = BitVec.ofNat 64 s.me.lcore ∧
    sysValue s s.cur 0x002 = BitVec.ofNat 64 (s.job s.me.job).dies.length ∧
    bits (statusOf s s.cur) 0 0 = (if isPriv s s.cur = true then 1 else 0) ∧
    bits (statusOf s s.cur) 1 1 = (if isHandler s.cur = true then 1 else 0) ∧
    bits (statusOf s s.cur) 4 3 = (s.job s.me.job).cls % 4 ∧ bits (statusOf s s.cur) 63 5 = 0 ∧
    sysValue s s.cur 0x004 = statusOf s s.cur ∧
    sysValue s s.cur 0x008 = BitVec.ofNat 64 s.time ∧ sysValue s s.cur 0x009 = s.me.wake ∧
    sysValue s s.cur 0x010 = s.me.lc0 ∧ sysValue s s.cur 0x011 = s.me.lc1 ∧
    bits (sysValue s s.cur 0x018) 47 0 = s.me.wdog.toNat ∧
    sysValue s s.cur 0x020 = s.me.vflags ∧ sysValue s s.cur 0x021 = s.me.mflags ∧
    sysValue s s.cur 0x028 = BitVec.ofNat 64 (s.me.region % 1024) ∧
    sysValue s s.cur 0x030 = BitVec.ofNat 64 s.me.tlevel.toNat ∧ sysValue s s.cur 0x031 = s.me.tvec ∧
    sysValue s s.cur 0x032 = s.me.bank1.cause ∧ sysValue s s.cur 0x033 = s.me.bank1.epc ∧ sysValue s s.cur 0x034 = s.me.bank1.eval ∧
    sysValue s s.cur 0x035 = s.me.bank2.cause ∧ sysValue s s.cur 0x036 = s.me.bank2.epc ∧ sysValue s s.cur 0x037 = s.me.bank2.eval ∧
    (∀ q : Fin 5, sysValue s s.cur (0x038 + q.val) = s.me.arv[q]) ∧
    sysValue s s.cur 0x080 = (s.core (coreOf s.cur)).hlimit ∧
    ∀ k : Fin 4, sysValue s s.cur (0x088 + k.val) = (s.core (coreOf s.cur)).paddock[k]

/-- An instruction that writes v to system register n: at the end of its bundle, or at once in a bundle with S = 1 (R117, R159). -/
def Claims.SysWrites (i : Instr) (s : State) (n : Nat) (v : W64) : Prop :=
  ((unpackHeader (s.me.iss.getD {}).hdr).s = false → Ends i s (s.iss fun k => { k with late := k.late ++ [.sys n v] })) ∧
  ((unpackHeader (s.me.iss.getD {}).hdr).s = true → Ends i s (applyLate s s.cur (.sys n v)))

/-- R159, R160, R83, R8, R202: what each form of `srw` writes, and when: x(a); a paddock as R83 stores it; only the flags already set are
cleared; an arrival register with its generation kept where en = 0, read from the object where en = 1, and a free value where the location names no object (R422). -/
def Claims.SystemRegisterWrites : Prop :=
  ∀ (a : Src) (s : State), Reads s a.r →
    (∀ n : BitVec 12, Claims.SysWrites (.srw a n) s n.toNat (s.val a.r)) ∧
    (isPriv s s.cur = true →
      (∀ k : BitVec 2, Claims.SysWrites (.paddockRegisterWrite a k) s (0x088 + k.toNat)
        (paddockValue (s.core (coreOf s.cur)) k.toNat (s.val a.r))) ∧
      Claims.SysWrites (.handlerLimitWrite a) s 0x080 (s.val a.r)) ∧
    Claims.SysWrites (.flagsW1cWrite a false) s 0x020 (s.val a.r &&& s.me.vflags) ∧
    Claims.SysWrites (.flagsW1cWrite a true) s 0x021 (s.val a.r &&& s.me.mflags) ∧
    (∀ q : BitVec 3, bit (s.val a.r) 31 = false → Claims.SysWrites (.arrivalRegisterWrite a q) s (0x038 + q.toNat)
      (BitVec.ofNat 64 (bits (s.me.arv.toList.getD q.toNat 0) 63 32 * 2 ^ 32 + (bits (s.val a.r) 31 24 * 2 ^ 24 + bits (s.val a.r) 22 0)))) ∧
    (∀ (q : BitVec 3) (k : Nat), bit (s.val a.r) 31 = true → arvKey s s.cur (s.val a.r) = some k →
      Claims.SysWrites (.arrivalRegisterWrite a q) s (0x038 + q.toNat)
        (BitVec.ofNat 64 (bits (readW s k) 31 0 * 2 ^ 32 + (bits (s.val a.r) 31 24 * 2 ^ 24 + bits (s.val a.r) 22 0)))) ∧
    ∀ q : BitVec 3, bit (s.val a.r) 31 = true → arvKey s s.cur (s.val a.r) = none →
      ∃ (t : State) (v : W64), t = { s with free := s.free + 1 } ∧
        bits v 31 0 = bits (s.val a.r) 31 24 * 2 ^ 24 + bits (s.val a.r) 22 0 ∧
        ((unpackHeader (s.me.iss.getD {}).hdr).s = false →
          exec (.arrivalRegisterWrite a q) s = .next (advance (t.iss fun k => { k with late := k.late ++ [.sys (0x038 + q.toNat) v] }) s.cur)) ∧
        ((unpackHeader (s.me.iss.getD {}).hdr).s = true →
          exec (.arrivalRegisterWrite a q) s = .next (advance (applyLate t s.cur (.sys (0x038 + q.toNat) v)) s.cur))

/-- R160 to R164, R166, R8: what a write leaves in each register: the writable fields take the value, W1C fields clear, the rest stay.
Nothing but the context, or for the handler limit and the paddocks the core, changes. -/
def Claims.SystemRegisterStores : Prop :=
  ∀ (s : State) (c : Nat) (v : W64),
    (∀ n, n < 0x080 → OnlyCtx s (applyLate s c (.sys n v)) c ∧ ((applyLate s c (.sys n v)).ctx c).x = (s.ctx c).x) ∧
    ((applyLate s c (.sys 0x009 v)).ctx c).wake = v ∧
    ((applyLate s c (.sys 0x010 v)).ctx c).lc0 = v ∧ ((applyLate s c (.sys 0x011 v)).ctx c).lc1 = v ∧
    ((applyLate s c (.sys 0x020 v)).ctx c).vflags = (s.ctx c).vflags &&& ~~~v ∧
    ((applyLate s c (.sys 0x021 v)).ctx c).mflags = (s.ctx c).mflags &&& ~~~v ∧
    (∀ i, ((applyLate s c (.sys 0x031 v)).ctx c).tvec.getLsbD i = (decide (4 ≤ i ∧ i ≤ 56) && v.getLsbD i)) ∧
    (∀ i, ((applyLate s c (.sys 0x032 v)).ctx c).bank1.cause.getLsbD i = (decide (i ≤ 9) && v.getLsbD i)) ∧
    (∀ i, ((applyLate s c (.sys 0x035 v)).ctx c).bank2.cause.getLsbD i = (decide (i ≤ 9) && v.getLsbD i)) ∧
    (∀ i, ((applyLate s c (.sys 0x033 v)).ctx c).bank1.epc.getLsbD i =
      (decide (i = 0 ∨ 4 ≤ i ∧ i ≤ 56 ∨ 58 ≤ i ∧ i ≤ 63) && v.getLsbD i)) ∧
    (∀ i, ((applyLate s c (.sys 0x036 v)).ctx c).bank2.epc.getLsbD i =
      (decide (i = 0 ∨ 4 ≤ i ∧ i ≤ 56 ∨ 58 ≤ i ∧ i ≤ 63) && v.getLsbD i)) ∧
    ((applyLate s c (.sys 0x034 v)).ctx c).bank1.eval = v ∧ ((applyLate s c (.sys 0x037 v)).ctx c).bank2.eval = v ∧
    (∀ q : Fin 5, ((applyLate s c (.sys (0x038 + q.val) v)).ctx c).arv[q] = v) ∧
    (∀ n, 0x080 ≤ n → (∀ j, (applyLate s c (.sys n v)).ctx j = s.ctx j) ∧
      ∀ j, j ≠ coreOf c → (applyLate s c (.sys n v)).core j = s.core j) ∧
    ((applyLate s c (.sys 0x080 v)).core (coreOf c)).hlimit.toNat = (if bits v 31 0 = 0 then 1 else bits v 31 0) ∧
    ∀ k : Fin 4, ((applyLate s c (.sys (0x088 + k.val) v)).core (coreOf c)).paddock[k] = v

/-- R83: a paddock is stored enabled only where base and limit are multiples of 64 KiB, the base lies below the limit, the limit is at
most 0x7F0000 and no other enabled paddock of the core overlaps it; where all hold it is stored as written, but for its reserved fields. -/
def Claims.PaddockTests : Prop :=
  ∀ (k : Core) (n : Fin 4) (v : W64),
    (bit (paddockValue k n.val v) 63 = true ↔
      bit v 63 = true ∧ bits v 22 0 % 2 ^ 16 = 0 ∧ bits v 47 24 % 2 ^ 16 = 0 ∧ bits v 47 24 ≤ 0x7F0000 ∧ bits v 22 0 < bits v 47 24 ∧
      ∀ m : Fin 4, m ≠ n → bit k.paddock[m] 63 = true → ¬ (bits k.paddock[m] 22 0 < bits v 47 24 ∧ bits v 22 0 < bits k.paddock[m] 47 24)) ∧
    ∀ i, i < 63 → (paddockValue k n.val v).getLsbD i =
      (decide (58 ≤ i ∧ i ≤ 59 ∨ 48 ≤ i ∧ i ≤ 53 ∨ 24 ≤ i ∧ i ≤ 47 ∨ i ≤ 22) && v.getLsbD i)

/-- R169, R63, R167: `lget` reads a word of an entry's image, with the base of an SRAM, VM, HOST or KV entry as zero; `lview` leaves the
derived entry for the end of its bundle, or faults with d where the parent or the descriptor breaks a rule. -/
def Obligations.LayoutInstructions : Prop :=
  (∀ (d : Reg) (l : BitVec 6) (w : BitVec 3) (s : State) (e : Layout), Writes s d → e = entryOf s s.cur l.toNat →
    (w ≠ 0 ∨ e.space ∉ [2, 3, 4, 6] → Ends (.lget d l w) s (s.put d (e.words.getD w.toNat 0))) ∧
    (w = 0 ∧ e.space ∈ [2, 3, 4, 6] → Ends (.lget d l w) s (s.put d 0))) ∧
  ∀ (d l : BitVec 6) (b : Src) (s : State) (k : Nat) (ws : List W64), Reads s b.r →
    k = sliceKey (coreOf s.cur) ((s.val b.r).toNat % 2 ^ 23) → ws = readWs s k 8 →
    ((s.val b.r).toNat % 64 ≠ 0 → Traps (.lview d l b) s 0x08 (s.val b.r)) ∧
    ((s.val b.r).toNat % 64 = 0 →
      (isHandler s.cur = true ∨ (entryOf s s.cur l.toNat).valid = false →
        Traps (.lview d l b) s 0x0A (BitVec.ofNat 64 d.toNat)) ∧
      (isHandler s.cur = false → (entryOf s s.cur l.toNat).valid = true → Unheld s k → Unfenced s k 64 →
        Unraced s k 64 false false → Unpoisoned s k 64 →
        (viewOf (entryOf s s.cur l.toNat) ws = none → Traps (.lview d l b) s 0x0A (BitVec.ofNat 64 d.toNat)) ∧
        ∀ e, viewOf (entryOf s s.cur l.toNat) ws = some e →
          Ends (.lview d l b) s ((s.raced k 64 false false).iss fun i =>
            { i with late := i.late ++ [.view d.toNat (install (coreOf s.cur) e)] })))

/-- R170, R159: the privileged instructions at user privilege raise PRIVILEGE at issue, with the syllable, and do nothing else. -/
def Obligations.PrivilegeRule : Prop :=
  ∀ (i : Instr) (s : State), isPriv s s.cur = false →
    ((∃ t, i = .tlbiS1pg t ∨ i = .tlbiS1all t ∨ i = .tlbiS2pg t ∨ i = .tlbiPart t ∨ i = .tlbiAll t) ∨
      (∃ a, i = .quiesceHold a ∨ i = .quiesceRel a ∨ i = .handlerLimitWrite a) ∨ (∃ b d a, i = .pgrel b d a) ∨
      (∃ d a b, i = .ctxsave d a b ∨ i = .ctxload d a b) ∨ (∃ d a, i = .ctxkill d a) ∨ (∃ a k, i = .paddockRegisterWrite a k) ∨
      (∃ d n, 0x080 ≤ n.toNat ∧ i = .srr d n)) →
    IssueTraps i s 0x04 (BitVec.ofNat 64 (s.me.iss.getD {}).syl.toNat)

/-- The translations that an invalidation removes: those that `hit` names in the caches of its scope (2 the cluster, 3 the die,
4 the part). -/
def Claims.Invalidates (i : Instr) (t : TlbiArgs) (s : State) (hit : Tlb → Prop) : Prop :=
  ∃ u : State, Ends i s u ∧ u = { s with tlb := u.tlb } ∧
    ∀ e, e ∈ u.tlb ↔ e ∈ s.tlb ∧ ¬ (hit e ∧
      (t.scope = 2 ∧ e.cluster = s.cur / 64 ∨ t.scope = 3 ∧ e.cluster / 16 = s.cur / 1024 ∨ t.scope ≠ 2 ∧ t.scope ≠ 3))

/-- R171, R173: which translations each `tlbi` removes, and the quarantine that `pgrel` begins: the page stands there with the count two
ahead, which x(d) receives. -/
def Obligations.TranslationInstructions : Prop :=
  (∀ (t : TlbiArgs) (s : State), isPriv s s.cur = true → Reads s t.a.r → Reads s t.b.r →
    ((s.val t.b.r).toNat ≤ 32 →
      Claims.Invalidates (.tlbiS1pg t) t s (fun e => e.part = (s.val t.b.r).toNat ∧
        e.s1lo ≤ (s.val t.a.r).toNat % 2 ^ 57 ∧ (s.val t.a.r).toNat % 2 ^ 57 < e.s1lo + e.s1len) ∧
      Claims.Invalidates (.tlbiS1all t) t s (fun e => e.part = (s.val t.b.r).toNat) ∧
      Claims.Invalidates (.tlbiS2pg t) t s (fun e => e.part = (s.val t.b.r).toNat ∧
        e.s2lo ≤ (s.val t.a.r).toNat % 2 ^ 57 ∧ (s.val t.a.r).toNat % 2 ^ 57 < e.s2lo + e.s2len) ∧
      Claims.Invalidates (.tlbiPart t) t s (fun e => e.part = (s.val t.b.r).toNat)) ∧
    Claims.Invalidates (.tlbiAll t) t s (fun _ => True)) ∧
  ∀ (big : Bool) (d : Reg) (a : Src) (s : State), isPriv s s.cur = true → Reads s a.r → Writes s d →
    ((s.val a.r).toNat % (if big then 2 ^ 29 else 2 ^ 16) ≠ 0 → Traps (.pgrel big d a) s 0x08 (s.val a.r)) ∧
    ((s.val a.r).toNat % (if big then 2 ^ 29 else 2 ^ 16) = 0 →
      (1024 ≤ s.quarantine.length → Waits (.pgrel big d a) s) ∧
      (s.quarantine.length < 1024 → Ends (.pgrel big d a) s
        (({ s with quarantine := s.quarantine ++ [⟨(s.val a.r).toNat, big, s.qcount + 2⟩] } : State).put d (BitVec.ofNat 64 (s.qcount + 2)))))

/-- R172: `quiesce.hold` gives the slice to its context, waiting while another holds it, and completes once nothing that had reached the
slice's banks is left there; `quiesce.rel` ends a hold of its own and does nothing to another's; while a slice is held, the accesses of
every other context to it wait. -/
def Obligations.QuiesceHoldsSlice : Prop :=
  (∀ (a : Src) (s : State), isPriv s s.cur = true → Reads s a.r → (s.val a.r).toNat < 512 →
    ((s.core (s.val a.r).toNat).holder = none →
      (sliceQuiet s (s.val a.r).toNat = true →
        Ends (.quiesceHold a) s (s.updCore (s.val a.r).toNat fun k => { k with holder := some s.cur })) ∧
      (sliceQuiet s (s.val a.r).toNat = false →
        exec (.quiesceHold a) s = .next (unissue (s.updCore (s.val a.r).toNat fun k => { k with holder := some s.cur }) s.cur)) ∧
      Ends (.quiesceRel a) s (s.updCore (s.val a.r).toNat fun k => { k with holder := none })) ∧
    ((s.core (s.val a.r).toNat).holder = some s.cur →
      (sliceQuiet s (s.val a.r).toNat = true → Ends (.quiesceHold a) s s) ∧
      (sliceQuiet s (s.val a.r).toNat = false → Waits (.quiesceHold a) s) ∧
      Ends (.quiesceRel a) s (s.updCore (s.val a.r).toNat fun k => { k with holder := none })) ∧
    (∀ c, c ≠ s.cur → (s.core (s.val a.r).toNat).holder = some c → Waits (.quiesceHold a) s ∧
      Ends (.quiesceRel a) s (s.updCore (s.val a.r).toNat fun k => { k with holder := some c }))) ∧
  (∀ (a : Src) (s : State), isPriv s s.cur = true → Reads s a.r → 512 ≤ (s.val a.r).toNat →
    Traps (.quiesceHold a) s 0x02 (BitVec.ofNat 64 (s.me.iss.getD {}).syl.toNat) ∧
    Traps (.quiesceRel a) s 0x02 (BitVec.ofNat 64 (s.me.iss.getD {}).syl.toNat)) ∧
  ∀ (k n c : Nat) (w : Bool) (v : Nat) (ev : W64) (s : State), c ≠ s.cur → (s.core (keyCore k)).holder = some c → Unfenced s k n →
    loadPlace (.slice k) n w w ev w s = .error .wait ∧ storePlace (.slice k) n v w w ev w w s = .error .wait

/-- R174 to R177: `ctxsave`'s statuses (1 for the numbers 6 and 7, which name no context, is the model's choice, log entry 128), its request
for the unit, and its end once the unit is saved; `ctxload`'s refusals and its resumption; `ctxkill`'s kill of a live context or of one of a
suspended unit, and its status 1. -/
def Obligations.ContextInstructions : Prop :=
  (∀ (d : Reg) (a b : Src) (s : State) (t : Nat), isPriv s s.cur = true → Reads s a.r → Reads s b.r → Writes s d →
    t = (s.val a.r).toNat → t < 4096 → (s.val b.r).toNat % 1024 = 0 → (∀ h t', s.me.wait ≠ .saved h t') →
    (6 ≤ t % 8 → Ends (.ctxsave d a b) s (s.put d 1)) ∧
    (3 ≤ t % 8 → t % 8 < 6 → Ends (.ctxsave d a b) s (s.put d 2)) ∧
    (t % 8 < 3 → unitOf s t = none → Ends (.ctxsave d a b) s (s.put d 1)) ∧
    ∀ lane u, t % 8 < 3 → unitOf s t = some (lane, u) →
      (coreOf t = coreOf s.cur ∧ s.cur ∈ unitCtxs (coreOf t) lane u → Ends (.ctxsave d a b) s (s.put d 3)) ∧
      (¬ (coreOf t = coreOf s.cur ∧ s.cur ∈ unitCtxs (coreOf t) lane u) →
        (u.saver = none ∨ u.saver = some s.cur → exec (.ctxsave d a b) s = .next (unissue
          (wakeUnit (setUnit (s.setMe (s.me.setWait (.ctxsave t))) (coreOf t) lane (some { u with saver := some s.cur })) (coreOf t) lane u)
          s.cur)) ∧
        ∀ c, u.saver = some c → c ≠ s.cur → Waits (.ctxsave d a b) s)) ∧
  (∀ (d : Reg) (a b : Src) (s : State), isPriv s s.cur = true → Reads s a.r → Reads s b.r → (s.val b.r).toNat % 1024 ≠ 0 →
    ((s.val a.r).toNat < 4096 → Traps (.ctxsave d a b) s 0x08 (s.val b.r)) ∧ Traps (.ctxload d a b) s 0x08 (s.val b.r)) ∧
  (∀ (d : Reg) (a b : Src) (s : State) (k : Nat) (st : Nat), isPriv s s.cur = true → Reads s a.r → Reads s b.r → Writes s d →
    (s.val b.r).toNat % 1024 = 0 → k = sliceKey (coreOf s.cur) ((s.val b.r).toNat % 2 ^ 23) → Unheld s k → Unfenced s k 1024 →
    Unraced s k 1024 false false → Unpoisoned s k 1024 →
    st = loadStatus (s.raced k 1024 false false) ((s.val a.r).toNat % 4096) (readWs s k 128) → st ≠ 0 →
    Ends (.ctxload d a b) s ((s.raced k 1024 false false).put d (BitVec.ofNat 64 st))) ∧
  (∀ (d : Reg) (a b : Src) (s : State) (k core : Nat) (sv : SavedUnit), isPriv s s.cur = true → Reads s a.r → Reads s b.r → Writes s d →
    (s.val b.r).toNat % 1024 = 0 → k = sliceKey (coreOf s.cur) ((s.val b.r).toNat % 2 ^ 23) → Unheld s k → Unfenced s k 1024 →
    Unraced s k 1024 false false → Unpoisoned s k 1024 → core = coreOf ((s.val a.r).toNat % 4096) →
    loadStatus (s.raced k 1024 false false) ((s.val a.r).toNat % 4096) (readWs s k 128) = 0 →
    s.saved.find? (fun x => BitVec.ofNat 64 x.handle == (readWs s k 128).getD 120 0) = some sv →
    (∀ p ∈ sv.ctxs, s.cur ≠ 8 * core + p.1) → s.cur ∉ unitCtxs core sv.lane sv.unit →
    Ends (.ctxload d a b) s ((resumeUnit (s.raced k 1024 false false)
      { sv with ctxs := sv.ctxs.map fun (i, x) => if i = sv.named then (i, editCtx x (readWs s k 128)) else (i, x) } core).put d 0)) ∧
  (∀ (d : Reg) (a b : Src) (s : State) (k h t' : Nat) (sv : SavedUnit), isPriv s s.cur = true → Reads s a.r → Reads s b.r → Writes s d →
    (s.val a.r).toNat < 4096 → (s.val b.r).toNat % 1024 = 0 → k = sliceKey (coreOf s.cur) ((s.val b.r).toNat % 2 ^ 23) →
    s.me.wait = .saved h t' → s.saved.find? (fun x => x.handle == h) = some sv → Unheld s k → Unfenced s k 1024 →
    Unraced s k 1024 true false →
    ∃ (u : State) (op : List W64), Ends (.ctxsave d a b) s (u.put d 0) ∧ op.length = 35 ∧
      readWs u k 128 = imageOf sv (((sv.ctxs.find? fun p => p.1 == t' % 8).map (·.2)).getD {}) op ∧
      (∀ i, i < k ∨ k + 1024 ≤ i → readByte u i = readByte s i) ∧ ∀ j, u.ctx j = s.ctx j) ∧
  ∀ (d : Reg) (a : Src) (s : State) (t : Nat), isPriv s s.cur = true → Reads s a.r → Writes s d → t = (s.val a.r).toNat → t < 4096 →
    (t ≠ s.cur → t % 8 < 6 → ctxLive (s.ctx t) = true →
      Ends (.ctxkill d a) s ((killCtx s t 2 0 (epcWord (s.ctx t).pc (resumePoint (s.ctx t)).1 (resumePoint (s.ctx t)).2) 0).put d 0)) ∧
    (t ≠ s.cur → s.cur < 4096 → 6 ≤ t % 8 ∨ ctxLive (s.ctx t) = false → ∀ sv,
      s.saved.find? (fun y => y.suspended && y.core == coreOf t && (y.ctxs.any fun p => p.1 == t % 8)) = some sv →
      Ends (.ctxkill d a) s ((killSaved s sv (t % 8)).put d 0)) ∧
    (t = s.cur → Ends (.ctxkill d a) s (s.put d 1)) ∧
    (6 ≤ t % 8 ∨ ctxLive (s.ctx t) = false →
      s.saved.find? (fun y => y.suspended && y.core == coreOf t && (y.ctxs.any fun p => p.1 == t % 8)) = none →
      Ends (.ctxkill d a) s (s.put d 1))

/-- R369, R372 to R375, R385: `pacq` lowers at once, and asks the arbiter to raise; it ends when the level is granted, and ends with it a
hold that a POWER_OVERDRAW began; `prel` gives the level up, at once or when the commands enqueued before have completed; `pvote` sets the
partition's vote on its die; `aprof` selects a valid profile from the next bundle on, and faults on another. -/
def Obligations.PowerInstructions : Prop :=
  (∀ (n : BitVec 6) (s : State), isHandler s.cur = false →
    (n.toNat ≤ s.me.held → s.me.wait ≠ .granted n.toNat → Ends (.pacq n) s (s.setMe { s.me with held := n.toNat, release := none })) ∧
    (n.toNat ≤ s.me.held → s.me.wait = .granted n.toNat →
      Ends (.pacq n) s (endOverdraw (s.setMe { s.me with held := n.toNat, release := none }) s.cur)) ∧
    (s.me.held < n.toNat →
      ((∀ w ∈ (s.die (dieOf s.cur)).waiters, w.1 ≠ s.cur) →
        exec (.pacq n) s = .next (unissue ((s.setMe (s.me.setWait (.pacq n.toNat s.time))).updDie (dieOf s.cur) fun d =>
          { d with waiters := d.waiters ++ [(s.cur, n.toNat)] }) s.cur)) ∧
      ((∃ w ∈ (s.die (dieOf s.cur)).waiters, w.1 = s.cur) →
        exec (.pacq n) s = .next (unissue ((s.setMe (s.me.setWait (.pacq n.toNat s.time))).updDie (dieOf s.cur) id) s.cur)))) ∧
  (∀ s : State,
    (s.me.held = 0 → Ends .prel s s) ∧
    (s.me.held ≠ 0 → ownCmds s s.cur = [] → Ends .prel s (s.setMe { s.me with held := 0, release := none })) ∧
    (s.me.held ≠ 0 → ownCmds s s.cur ≠ [] → Ends .prel s (s.setMe { s.me with release := some (ownCmds s s.cur) }))) ∧
  (∀ (vp : BitVec 3) (s : State), Ends (.pvote vp) s
    (s.updDie (dieOf s.cur) fun d => { d with votes := mapPut (partOf s s.cur) vp.toNat d.votes })) ∧
  ∀ (n : BitVec 4) (s : State),
    (profOk (s.job s.me.job) n.toNat = true → Ends (.aprof n) s (s.iss fun i => { i with late := i.late ++ [.prof n.toNat] })) ∧
    (profOk (s.job s.me.job) n.toNat = false → Traps (.aprof n) s 0x30 (BitVec.ofNat 64 n.toNat))

/-! ### Memory operands, loads and stores, tagged words (R63, R66, R71, R74, R75, R78, R79, R84, R178 to R183, R304, R441, R498) -/

/-- R71, R74, R75, R66: where an element of an entry of the spaces LOCAL, CLUSTER, SRAM, VM and HOST lies: at its base and, for every
dimension, coordinate times stride times element size; the bank permutation of a slice entry; and the faults: LAYOUT_RIGHTS before
LAYOUT_BOUNDS. -/
def Obligations.ElementPlaces : Prop :=
  (∀ (s : State) (core part : Nat) (e : Layout) (cs : List Nat) (n : Nat) (rd wr : Bool) (off : Int), e.space < 5 →
    off = ((List.range e.rank).map fun i => (cs.getD i 0 : Int) * e.str i * e.es).sum →
    (e.valid = false ∨ rd = true ∧ e.rd = false ∨ wr = true ∧ e.wr = false → placeOf s core part e cs n rd wr = .error 0x0A) ∧
    (e.valid = true → (rd = true → e.rd = true) → (wr = true → e.wr = true) →
      ((∃ i, i < e.rank ∧ e.ext i ≤ cs.getD i 0) → placeOf s core part e cs n rd wr = .error 0x09) ∧
      ((∀ i, i < e.rank → cs.getD i 0 < e.ext i) →
        (∀ o : Nat, e.space ≤ 2 → (o : Int) = (e.base % 2 ^ 23 : Nat) + off → o + n ≤ 2 ^ 23 →
          placeOf s core part e cs n rd wr = .ok (.slice (e.core core * 2 ^ 23 + swz o e.perm % 2 ^ 23))) ∧
        (e.space ≤ 2 → (((e.base % 2 ^ 23 : Nat) : Int) + off < 0 ∨ 2 ^ 23 < ((e.base % 2 ^ 23 : Nat) : Int) + off + n) →
          placeOf s core part e cs n rd wr = .error 0x09) ∧
        (∀ a : Nat, 3 ≤ e.space → (a : Int) = e.base + off → a + n ≤ 2 ^ 57 →
          placeOf s core part e cs n rd wr = .ok (.virt a (e.space == 4) (e.dis && !e.mir))) ∧
        (3 ≤ e.space → ((e.base : Int) + off < 0 ∨ 2 ^ 57 < (e.base : Int) + off + n) →
          placeOf s core part e cs n rd wr = .error 0x09)))) ∧
  (∀ (e : Layout) (core : Nat), (e.space = 0 → e.core core = core) ∧ (e.space = 1 → e.core core = core / 8 * 8 + e.base / 2 ^ 23 % 8) ∧
    (e.space = 2 → e.core core = e.base / 2 ^ 23)) ∧
  ∀ o c i, c ≤ 5 → (swz o c).testBit i = if 6 ≤ i ∧ i < 6 + c then (o.testBit i != o.testBit (i + 5)) else o.testBit i

/-- R75, R84, R172, R304, R498: a thread's load and store of slice bytes: what they read and write where no check stops them, and what
stops them. A store changes its bytes and no other. -/
def Claims.SliceAccesses : Prop :=
  ∀ (s : State) (k n v : Nat) (chk atomic mir moved : Bool) (ev : W64),
    (Loads s k n chk atomic → LoadsFrom s (.slice k) n chk atomic mir (readNat s k n) (s.loaded k n chk atomic)) ∧
    (Stores s k n chk atomic → StoresTo s (.slice k) n v chk atomic mir moved (s.stored k n v chk atomic)) ∧
    (s.loaded k n chk atomic).mem = s.mem ∧
    readNat (s.stored k n v chk atomic) k n = v % 256 ^ n ∧
    (∀ a, a < k ∨ k + n ≤ a → readByte (s.stored k n v chk atomic) a = readByte s a) ∧
    (∀ j, (s.loaded k n chk atomic).ctx j = s.ctx j ∧ (s.stored k n v chk atomic).ctx j = s.ctx j) ∧
    (¬ Unfenced s k n → loadPlace (.slice k) n chk atomic ev mir s = .error (.trap 0x0A ev) ∧
      storePlace (.slice k) n v chk atomic ev mir moved s = .error (.trap 0x0A ev)) ∧
    (Unfenced s k n → Unheld s k → chk = true → ∀ cause val,
      (raceTest s s.cur k n false atomic = some (cause, val) → loadPlace (.slice k) n chk atomic ev mir s = .error (.trap cause val)) ∧
      (raceTest s s.cur k n true atomic = some (cause, val) →
        storePlace (.slice k) n v chk atomic ev mir moved s = .error (.trap cause val))) ∧
    (Unfenced s k n → Unheld s k → (chk = true → Unraced s k n false atomic) → ∀ g,
      (granules k n).find? (fun g => s.poison.contains g) = some g → isSlice k = true →
      loadPlace (.slice k) n chk atomic ev mir s = .error (.trap 0x28 (BitVec.ofNat 64 (keyOff (g * 64)))))

/-- R441, R444, R446, R477, R498: a thread's load and store at a virtual address outside the Contrail regions: the bytes at the address
that the translation gives (a free value past the memory, log entry 108, and in a region of a sequence); a failed translation faults with the address; a stage-2 miss that a page request can serve joins the request
and waits; a page of a lost die is poisoned. -/
def Claims.TranslatedAccesses : Prop :=
  ∀ (s : State) (va k n v : Nat) (host gone chk atomic moved : Bool) (fill : Option Tlb) (ev : W64),
    (∀ q, q = threadReq s va true atomic host false → openWait s q = false → failedWait s q = false →
      (translate s q = .ok k fill → ¬ (2 ^ 58 + 2 ^ 39 ≤ k ∧ k < 2 ^ 59) → lostKey s k = false → Unpoisoned s k n →
        seqRegions s (partOf s s.cur) va n = [] →
        LoadsFrom s (.virt va host gone) n chk atomic false (readNat s k n)
          { s with tlb := fill.toList ++ s.tlb }) ∧
      (translate s q = .ok k fill → lostKey s k = false → Unpoisoned s k n →
        ∃ x u, LoadsFrom s (.virt va host gone) n chk atomic false x u ∧ (∀ a, readByte u a = readByte s a) ∧ ∀ j, u.ctx j = s.ctx j) ∧
      (translate s q = .ok k fill → lostKey s k = true → goneHit s k gone = false →
        loadPlace (.virt va host gone) n chk atomic ev false s = .error (.trap 0x28 (BitVec.ofNat 64 (va - va % 64)))) ∧
      (∀ c, translate s q = .fail c → loadPlace (.virt va host gone) n chk atomic ev false s = .error (.trap c (BitVec.ofNat 64 va))) ∧
      (∀ i, translate s q = .miss i →
        loadPlace (.virt va host gone) n chk atomic ev false s = .error (.hold fun s => joinReq s q i))) ∧
    ∀ q, q = threadReq s va false true host false → openWait s q = false → failedWait s q = false →
      (translate s q = .ok k fill → lostKey s k = false →
        ∃ u, StoresTo s (.virt va host gone) n v chk atomic false moved u ∧ readNat u k n = v % 256 ^ n ∧
          (∀ a, a < k ∨ k + n ≤ a → readByte u a = readByte s a) ∧ ∀ j, u.ctx j = s.ctx j) ∧
      (∀ c, translate s q = .fail c →
        storePlace (.virt va host gone) n v chk atomic ev false moved s = .error (.trap c (BitVec.ofNat 64 va)))

/-- A value of n bytes, zero-extended or sign-extended to 64 bits. -/
def Claims.widened (zero : Bool) (n v : Nat) : W64 :=
  if zero then BitVec.ofNat 64 v else (BitVec.ofNat (8 * n) v).signExtend 64

/-- R63, R178, R180: `ldl` and `stl`: the local offset modulo 2^23; the value extended, the low bytes stored; MISALIGNED with the
offset. -/
def Claims.LocalLoadsStores : Prop :=
  ∀ (w : BitVec 2) (a : Src) (off : BitVec 16) (s : State) (o : Nat), Reads s a.r →
    o = (s.val a.r + off.signExtend 64).toNat % 2 ^ 23 →
    (o % 2 ^ w.toNat ≠ 0 → ∀ n d, Traps (.ldl w n d a off) s 0x08 (BitVec.ofNat 64 o) ∧
      (∀ x : Src, Reads s x.r → Traps (.stl w x a off) s 0x08 (BitVec.ofNat 64 o))) ∧
    (o % 2 ^ w.toNat = 0 →
      (∀ (n : Bool) (d : Reg) (v : Nat) (u : State), Writes s d →
        LoadsFrom s (.slice (sliceKey (coreOf s.cur) o)) (2 ^ w.toNat) true false false v u →
        Ends (.ldl w n d a off) s (u.put d (Claims.widened n (2 ^ w.toNat) v))) ∧
      (∀ (n : Bool) (d : Reg) (k : Nat), Writes s d → k = sliceKey (coreOf s.cur) o → Loads s k (2 ^ w.toNat) true false →
        Ends (.ldl w n d a off) s
          ((s.loaded k (2 ^ w.toNat) true false).put d (Claims.widened n (2 ^ w.toNat) (readNat s k (2 ^ w.toNat))))) ∧
      (∀ (x : Src) (k : Nat), Reads s x.r → k = sliceKey (coreOf s.cur) o → Stores s k (2 ^ w.toNat) true false →
        Ends (.stl w x a off) s (s.stored k (2 ^ w.toNat) (s.val x.r).toNat true false)) ∧
      ∀ (x : Src) (u : State), Reads s x.r →
        StoresTo s (.slice (sliceKey (coreOf s.cur) o)) (2 ^ w.toNat) (s.val x.r).toNat true false false false u →
        Ends (.stl w x a off) s u)

/-- R179, R181, R182: `ldg` sets x(d) to the element, at once through a LOCAL entry and marked empty until it arrives through any other;
`stg` writes the low bytes of x(d); `pref` has no effect. -/
def Claims.LayoutLoadsStores : Prop :=
  (∀ (n : Bool) (d : Reg) (a : Src) (l : BitVec 6) (s u : State) (e : Layout) (p : Place) (v : Nat),
    LayoutAt s a.r l e.es true false e p → LoadsFrom s p e.es e.chk false (e.mir && movedJob s s.me.job) v u →
    (e.space = 0 → Writes s d → Ends (.ldg n d a l) s (u.put d (Claims.widened n e.es v))) ∧
    (e.space ≠ 0 → Pends s d → Ends (.ldg n d a l) s (u.later d (Claims.widened n e.es v) 0))) ∧
  (∀ (n : Bool) (d : Reg) (a : Src) (l : BitVec 6) (s : State) (e : Layout) (k : Nat),
    LayoutAt s a.r l e.es true false e (.slice k) → Loads s k e.es e.chk false →
    (e.space = 0 → Writes s d →
      Ends (.ldg n d a l) s ((s.loaded k e.es e.chk false).put d (Claims.widened n e.es (readNat s k e.es)))) ∧
    (e.space ≠ 0 → Pends s d →
      Ends (.ldg n d a l) s ((s.loaded k e.es e.chk false).later d (Claims.widened n e.es (readNat s k e.es)) 0))) ∧
  (∀ (x : Src) (a : Src) (l : BitVec 6) (s : State) (e : Layout) (k : Nat),
    LayoutAt s a.r l e.es false true e (.slice k) → Reads s x.r → Stores s k e.es e.chk false →
    Ends (.stg x a l) s (s.stored k e.es (s.val x.r).toNat e.chk false)) ∧
  (∀ (x : Src) (a : Src) (l : BitVec 6) (s u : State) (e : Layout) (p : Place),
    LayoutAt s a.r l e.es false true e p → Reads s x.r →
    StoresTo s p e.es (s.val x.r).toNat e.chk false e.mir (movedJob s s.me.job) u → Ends (.stg x a l) s u) ∧
  ∀ (a : Src) (l : BitVec 6) (s : State), (entryOf s s.cur l.toNat).rank ≠ 0 → ReadsRun s a.r (entryOf s s.cur l.toNat).rank →
    Ends (.pref a l) s s

/-- R78, R79, R183: the tagged instructions where the tag allows: `ldf` takes a full word and empties it, `ste` fills an empty word,
`ldpk` leaves the tag, `stf` fills whatever it was; all but `ldpk` close the region. -/
def Claims.TaggedOperations : Prop :=
  ∀ (m : MArgs) (s : State) (k : Nat) (chk own : Bool), (∀ b ∈ s.bank, ¬ (b.ctx = s.cur ∧ b.here = true)) →
    (WordAt s m true false k chk own → (own = true → Writes s m.d) → (own = false → Pends s m.d) → Loads s k 8 chk true →
      (k / 8 ∈ s.tags → (∀ b ∈ s.bank, ¬ (b.key = k ∧ b.ste = false)) →
        ∃ u : State, u = { s with det := u.det, tags := u.tags } ∧ (∀ i, i ∈ u.tags ↔ i ∈ s.tags ∧ i ≠ k / 8) ∧
          Ends (.ldf m) s (if own = true then u.synced.put m.d (readW s k) else u.synced.later m.d (readW s k) 0)) ∧
      Ends (.ldpk m) s (if own = true then (s.loaded k 8 chk true).put m.d (readW s k) else (s.loaded k 8 chk true).later m.d (readW s k) 0)) ∧
    (WordAt s m false true k chk own → Reads s m.d → Stores s k 8 chk true →
      (k / 8 ∉ s.tags → (∀ b ∈ s.bank, ¬ (b.key = k ∧ b.ste = true)) →
        ∃ u : State, Ends (.ste m) s u.synced ∧ readW u k = s.val m.d ∧ (∀ i, i ∈ u.tags ↔ i ∈ s.tags ∨ i = k / 8) ∧
          (∀ a, a < k ∨ k + 8 ≤ a → readByte u a = readByte s a) ∧ ∀ j, u.ctx j = s.ctx j) ∧
      ∃ u : State, Ends (.stf m) s u.synced ∧ readW u k = s.val m.d ∧ (∀ i, i ∈ u.tags ↔ i ∈ s.tags ∨ i = k / 8) ∧
        (∀ a, a < k ∨ k + 8 ≤ a → readByte u a = readByte s a) ∧ ∀ j, u.ctx j = s.ctx j)

/-- R79, R121: a tagged operation whose tag does not allow it. On a word of the core's own slice, and on a checked one (log entry 113), the
bundle waits at issue, queued at the word; an unchecked `ldf` of another core's word leaves its destination empty and goes on, and its value
is on its way once the word is full; a `ste` goes on, and writes once the word is empty; a value that arrives fills its register. -/
def Claims.TaggedWaits : Prop :=
  (∀ (m : MArgs) (s : State) (k : Nat) (chk own : Bool), (∀ b ∈ s.bank, b.ctx ≠ s.cur) →
    (WordAt s m true false k chk own → Unfenced s k 8 → Unheld s k → k / 8 ∉ s.tags →
      (keyCore k = coreOf s.cur ∨ chk = true ∨ canPend s.me m.d = false → ∃ b : BankWait, b.ctx = s.cur ∧ b.key = k ∧ b.ste = false ∧ b.here = true ∧
        exec (.ldf m) s = .next (unissue { s with bank := s.bank ++ [b] } s.cur)) ∧
      (keyCore k ≠ coreOf s.cur → chk = false → m.d ≠ 0 → Pends s m.d → Unpoisoned s k 8 →
        ∃ b : BankWait, b.ctx = s.cur ∧ b.key = k ∧ b.ste = false ∧ b.here = false ∧ b.d = m.d.toNat ∧
          Ends (.ldf m) s ({ s.setMe { s.me with empty := s.me.empty ||| BitVec.twoPow 64 m.d.toNat } with
            bank := s.bank ++ [b] } : State).synced)) ∧
    (WordAt s m false true k chk own → Unfenced s k 8 → Unheld s k → Reads s m.d → k / 8 ∈ s.tags →
      (keyCore k = coreOf s.cur ∨ chk = true → ∃ b : BankWait, b.ctx = s.cur ∧ b.key = k ∧ b.ste = true ∧ b.here = true ∧
        exec (.ste m) s = .next (unissue { s with bank := s.bank ++ [b] } s.cur)) ∧
      (keyCore k ≠ coreOf s.cur → chk = false →
        ∃ b : BankWait, b.ctx = s.cur ∧ b.key = k ∧ b.ste = true ∧ b.here = false ∧ b.v = s.val m.d ∧
          Ends (.ste m) s ({ s with bank := s.bank ++ [b] } : State).synced))) ∧
  (∀ (s : State) (b : BankWait), s.bank = [b] → b.here = false →
    ((s.core (keyCore b.key)).holder = none ∨ (s.core (keyCore b.key)).holder = some b.ctx) →
    (b.ste = false → b.key / 8 ∈ s.tags →
      ∃ t : State, exec (.taggedWaitServed b.ctx) s = .next t ∧ t.bank = [] ∧ (∀ i, i ∈ t.tags ↔ i ∈ s.tags ∧ i ≠ b.key / 8) ∧
        (t.ctx b.ctx).pend = (s.ctx b.ctx).pend ++ [⟨b.d, readW s b.key, 0, 0⟩] ∧ t.mem = s.mem) ∧
    (b.ste = true → b.key / 8 ∉ s.tags →
      ∃ t : State, exec (.taggedWaitServed b.ctx) s = .next t ∧ t.bank = [] ∧ (∀ i, i ∈ t.tags ↔ i ∈ s.tags ∨ i = b.key / 8) ∧
        readW t b.key = b.v ∧ ∀ a, a < b.key ∨ b.key + 8 ≤ a → readByte t a = readByte s a)) ∧
  ∀ (s : State) (c : Nat) (r : Reg) (v fl : W64), ∀ ps, (s.ctx c).pend = [⟨r.toNat, v, fl, ps⟩] →
    ∃ t : State, exec (.remoteValueArrival c r.toNat) s = .next t ∧ (t.ctx c).x[r.toNat] = v ∧ (t.ctx c).empty.getLsbD r.toNat = false ∧
      (t.ctx c).pend = [] ∧ (t.ctx c).vflags = (s.ctx c).vflags ||| fl ∧ t.mem = s.mem ∧
      ∀ q : Reg, q ≠ r → (t.ctx c).x[q.toNat] = (s.ctx c).x[q.toNat] ∧
        (t.ctx c).empty.getLsbD q.toNat = (s.ctx c).empty.getLsbD q.toNat

/-! ### Atomics (R184 to R189) -/

/-- The bytes of an atomic. -/
def Claims.amoBytes (m : AArgs) : Nat := if m.w64 then 8 else 4

/-- The first operand of an atomic: x(d)[w-1:0]. -/
def Claims.amoOp (s : State) (m : AArgs) : Nat := (s.val m.d).toNat % 2 ^ (8 * Claims.amoBytes m)

/-- The second operand: x(d+1)[w-1:0]. -/
def Claims.amoOp2 (s : State) (m : AArgs) : Nat := (s.val (m.d + 1)).toNat % 2 ^ (8 * Claims.amoBytes m)

/-- The end of an atomic: the ordering acts, and the old value and the flags are on their way to x(d). -/
def Claims.amoEnd (m : AArgs) (t : State) (old : Nat) (fl : W64) : State :=
  (if m.ord = 0 then t else t.synced).later m.d (BitVec.ofNat 64 old) fl

/-- The step of an atomic that reads old and writes new, or nothing: t. At a slice key no check stops it, tested as the write it makes or
as an atomic read (R304), and t records it, with the bytes written; at a virtual address the load goes through, and the store where
there is one. -/
def Claims.AtomicRun (s : State) (p : Place) (n : Nat) (chk mir : Bool) (old : Nat) (new : Option Nat) (t : State) : Prop :=
  match p with
  | .slice k =>
    old = readNat s k n ∧ Unheld s k ∧ Unfenced s k n ∧ (chk = true → Unraced s k n new.isSome true) ∧ Unpoisoned s k n ∧
      t = match new with
        | some v => s.stored k n v chk true
        | none => s.racedIf chk k n false true
  | .virt _ _ _ =>
    ∃ u, LoadsFrom s p n chk true (mir && movedJob s s.me.job) old u ∧
      match new with
      | some v => StoresTo u p n v chk true mir (movedJob s s.me.job) t
      | none => t = u

/-- An atomic reads old at its place, writes new w old op modulo 2^w there, and gives old back (R184, R186): in a slice and through
an entry of any space that R178 admits. -/
def Claims.Atomic (i : AArgs → Instr) (new : Nat → Nat → Nat → Nat) (fl : Nat → Nat → W64) : Prop :=
  ∀ (m : AArgs) (s t : State) (p : Place) (chk mir : Bool) (old : Nat), AtomicAt s m (Claims.amoBytes m) p chk mir →
    Reads s m.d → Pends s m.d →
    Claims.AtomicRun s p (Claims.amoBytes m) chk mir old
      (some (new (8 * Claims.amoBytes m) old (Claims.amoOp s m) % 2 ^ (8 * Claims.amoBytes m))) t →
    Ends (i m) s (Claims.amoEnd m t old (fl old (Claims.amoOp s m)))

/-- A w-bit number as a signed integer. -/
def Claims.signed (w n : Nat) : Int := (BitVec.ofNat w n).toInt

/-- R184 to R189: what each atomic writes. `amo.cas` writes its second operand on a match and nothing else; `amo.addb` adds where the
exact sum does not pass the bound, and says in x(d+1) whether it did; `amo.fadd` and `amo.sadd` add in their format, with flags. -/
def Obligations.AtomicResults : Prop :=
  Claims.Atomic .amoAdd (fun _ v op => v + op) (fun _ _ => 0) ∧
  Claims.Atomic .amoAnd (fun _ v op => v &&& op) (fun _ _ => 0) ∧
  Claims.Atomic .amoOr (fun _ v op => v ||| op) (fun _ _ => 0) ∧
  Claims.Atomic .amoXor (fun _ v op => v ^^^ op) (fun _ _ => 0) ∧
  Claims.Atomic (.amoMin true) (fun _ v op => min v op) (fun _ _ => 0) ∧
  Claims.Atomic (.amoMax true) (fun _ v op => max v op) (fun _ _ => 0) ∧
  Claims.Atomic (.amoMin false) (fun w v op => if Claims.signed w v ≤ Claims.signed w op then v else op) (fun _ _ => 0) ∧
  Claims.Atomic (.amoMax false) (fun w v op => if Claims.signed w v ≤ Claims.signed w op then op else v) (fun _ _ => 0) ∧
  Claims.Atomic .amoSwap (fun _ _ op => op) (fun _ _ => 0) ∧
  Claims.Atomic .amoIncw (fun _ v op => if op ≤ v then 0 else v + 1) (fun _ _ => 0) ∧
  Claims.Atomic .amoFadd (fun _ v op => (fp32.add 0 (fp32.dec v) (fp32.dec op)).1) (fun v op => (fp32.add 0 (fp32.dec v) (fp32.dec op)).2) ∧
  Claims.Atomic .amoSadd (fun _ v op => (sliAdd 27 v op).1) (fun v op => (sliAdd 27 v op).2) ∧
  ∀ (m : AArgs) (s t : State) (p : Place) (chk mir : Bool) (old : Nat), AtomicAt s m (Claims.amoBytes m) p chk mir →
    Reads s m.d → Reads s (m.d + 1) → Pends s m.d →
    (Claims.AtomicRun s p (Claims.amoBytes m) chk mir old (if old = Claims.amoOp s m then some (Claims.amoOp2 s m) else none) t →
      Ends (.amoCas m) s (Claims.amoEnd m t old 0)) ∧
    (Pends s (m.d + 1) → Claims.AtomicRun s p (Claims.amoBytes m) chk mir old
        (if old + Claims.amoOp s m ≤ Claims.amoOp2 s m then some (old + Claims.amoOp s m) else none) t →
      Ends (.amoAddb m) s ((Claims.amoEnd m t old 0).later (m.d + 1)
        (if old + Claims.amoOp s m ≤ Claims.amoOp2 s m then 1 else 0) 0))

/-! ### Fences and timelines (R190 to R193) -/

/-- R190 to R193: `fence` closes the region; `tlwait` waits while the timeline it names stands below x(b), and otherwise acquires;
`tlread` and `tlmark` read it, a value from another logical core arriving later; `tlmark` also sets the base. A logical core that the
launch does not hold raises LAYOUT_RIGHTS. -/
def Obligations.FencesAndTimelines : Prop :=
  (∀ (kind : BitVec 2) (scope : BitVec 3) (s : State), Ends (.fence kind scope) s s.synced) ∧
  (∀ (t : TlArgs) (s : State), t.remote = false → Reads s t.b.r →
    ((s.val t.b.r).toNat ≤ myTl s s.cur t.tl.toNat → Ends (.tlwait t) s s.synced) ∧
    (myTl s s.cur t.tl.toNat < (s.val t.b.r).toNat → Waits (.tlwait t) s)) ∧
  (∀ (t : TlArgs) (s : State), t.remote = true → Reads s t.a.r → Reads s t.b.r →
    (2 ^ 16 ≤ (s.val t.a.r).toNat → Traps (.tlwait t) s 0x02 (BitVec.ofNat 64 (s.me.iss.getD {}).syl.toNat)) ∧
    ((s.val t.a.r).toNat < 2 ^ 16 → tlOf s s.me.job (s.val t.a.r).toNat t.tl.toNat = none →
      Traps (.tlwait t) s 0x0A (s.val t.a.r)) ∧
    ∀ n, (s.val t.a.r).toNat < 2 ^ 16 → tlOf s s.me.job (s.val t.a.r).toNat t.tl.toNat = some n →
      ((s.val t.b.r).toNat ≤ n → Ends (.tlwait t) s s.synced) ∧ (n < (s.val t.b.r).toNat → Waits (.tlwait t) s)) ∧
  (∀ (tl : BitVec 3) (d : Reg) (a : Src) (s : State),
    (Writes s d → Ends (.tlread tl d false a) s (s.put d (BitVec.ofNat 64 (myTl s s.cur tl.toNat)))) ∧
    (Writes s d → Ends (.tlmark tl d) s ((s.setMe { s.me with
      tlbase := s.me.tlbase.set! tl.toNat (BitVec.ofNat 64 (myTl s s.cur tl.toNat)) }).put d (BitVec.ofNat 64 (myTl s s.cur tl.toNat)))) ∧
    (Reads s a.r → (s.val a.r).toNat < 2 ^ 16 → ∀ n, tlOf s s.me.job (s.val a.r).toNat tl.toNat = some n →
      ((s.val a.r).toNat = s.me.lcore → Writes s d → Ends (.tlread tl d true a) s (s.put d (BitVec.ofNat 64 n))) ∧
      ((s.val a.r).toNat ≠ s.me.lcore → Pends s d → Ends (.tlread tl d true a) s (s.later d (BitVec.ofNat 64 n) 0)))) ∧
  ∀ (s : State) (job lcore core tl : Nat) (o : Int) (f : Nat), mapGet (0, 0) (s.job job).tloff (tlKey lcore core tl) = (o, f) →
    presented s job lcore core tl = max f (((s.core core).tlDone.toList.getD tl 0 : Nat) + o).toNat

/-! ### Groups and barriers (R194 to R200, R458, R459) -/

/-- The access that a group instruction makes to its object: no check stops it. -/
def Claims.Objects (s : State) (g : GArgs) (k : Nat) (write : Bool) : Prop :=
  ∃ chk, ObjectAt s g 32 32 k chk ∧ Unheld s k ∧ Unfenced s k 32 ∧ (chk = true → Unraced s k 32 write true) ∧ Unpoisoned s k 32

/-- A value that an object returns: at once from the core's own slice, later from another. -/
def Claims.given (s u : State) (d : Reg) (k : Nat) (v : W64) : State :=
  if keyCore k = coreOf s.cur then u.put d v else u.later d v 0

/-- The destination of a value that an object returns stands ready. -/
def Claims.Gives (s : State) (d : Reg) (k : Nat) : Prop :=
  (keyCore k = coreOf s.cur → Writes s d) ∧ (keyCore k ≠ coreOf s.cur → Pends s d)

/-- Only the 32 bytes of the object at k differ. -/
def Claims.OnlyObject (s u : State) (k : Nat) : Prop := ∀ a, a < k ∨ k + 32 ≤ a → readByte u a = readByte s a

/-- What a group instruction may change beside its object: the race detector, and lists of groups, waits and regions; every register,
every other part of every context and of the machine stands. -/
def Claims.GroupFrame (s u : State) : Prop :=
  u = { s with mem := u.mem, det := u.det, ctxs := u.ctxs, saved := u.saved } ∧
    ∀ j, u.ctx j = { s.ctx j with groups := (u.ctx j).groups, waits := (u.ctx j).waits, region := (u.ctx j).region }

/-- R195, R196, R197, R198: `gnew` writes a fresh object or invalidates one, with the next generation; `join` adds a member and lists
it; `leave` takes a member away, and never touches an object of another generation; `arrive` counts an arrival and gives the epoch it
arrives in. -/
def Claims.GroupInstructions : Prop :=
  (∀ (d : Reg) (g : GArgs) (b : Src) (s : State) (k : Nat), Reads s b.r → Claims.Objects s g k true → Claims.Gives s d k →
    s.val b.r &&& 0x7FFFFFFFFF800000 = 0 → bits (s.val b.r) 22 20 < 6 →
    ∃ u : State, Ends (.gnew d g b) s (Claims.given s u.synced d k (BitVec.ofNat 64 ((readGroup s k).gen + 1).toNat)) ∧ Claims.OnlyObject s u k ∧ Claims.GroupFrame s u ∧
      (readGroup u k).gen = (readGroup s k).gen + 1 ∧
      (bit (s.val b.r) 63 = false → (readGroup u k).valid = true ∧ (readGroup u k).epoch = 0 ∧ (readGroup u k).arrived = 0 ∧
        (readGroup u k).members = 0 ∧ (readGroup u k).scope = bits (s.val b.r) 22 20 ∧
        (readGroup u k).phases = bits (s.val b.r) 19 16 + 1 ∧ bits (readGroup u k).w1 31 16 = bits (s.val b.r) 15 0 ∧
        bits (readGroup u k).w2 31 0 = s.me.job % 2 ^ 32) ∧
      (bit (s.val b.r) 63 = true → (readGroup u k).valid = false ∧ (readGroup u k).members = (readGroup s k).members ∧
        (readGroup u k).arrived = (readGroup s k).arrived ∧ (readGroup u k).epoch = (readGroup s k).epoch)) ∧
  (∀ (d : Reg) (g : GArgs) (s : State) (k : Nat), Claims.Objects s g k true → Claims.Gives s d k →
    (readGroup s k).valid = true → (readGroup s k).sound = true → (∀ m ∈ s.me.groups, ¬ (m.obj = k ∧ m.gen = (readGroup s k).gen)) →
    s.me.groups.length < 8 → (readGroup s k).members < 3072 →
    ∃ u : State, Ends (.join d g) s (Claims.given s u.synced d k (BitVec.ofNat 64 (readGroup s k).epoch.toNat)) ∧ Claims.OnlyObject s u k ∧ Claims.GroupFrame s u ∧
      (readGroup u k).members = (readGroup s k).members + 1 ∧ (readGroup u k).arrived = (readGroup s k).arrived ∧
      (readGroup u k).gen = (readGroup s k).gen ∧ (readGroup u k).epoch = (readGroup s k).epoch ∧
      u.me.groups = s.me.groups ++ [⟨k, (readGroup s k).gen, none⟩]) ∧
  (∀ (g : GArgs) (s : State) (k : Nat) (m : Member), Claims.Objects s g k true → memberOf s.me k = some m →
    (m.gen ≠ (readGroup s k).gen ∨ (readGroup s k).sound = true) →
    ∃ u : State, Ends (.leave g) s u.synced ∧ Claims.OnlyObject s u k ∧ Claims.GroupFrame s u ∧ u.me.groups = s.me.groups.filter (· != m) ∧
      (m.gen ≠ (readGroup s k).gen → u.mem = s.mem) ∧
      (m.gen = (readGroup s k).gen → m.arrived ≠ some (readGroup s k).epoch → (readGroup s k).members ≠ 0 →
        (readGroup u k).members = (readGroup s k).members - 1)) ∧
  ∀ (d : Reg) (g : GArgs) (s : State) (k : Nat) (m : Member), Claims.Objects s g k true → Claims.Gives s d k →
    memberOf s.me k = some m → m.gen = (readGroup s k).gen → (readGroup s k).valid = true → (readGroup s k).sound = true →
    m.arrived ≠ some (readGroup s k).epoch → (readGroup s k).arrived < (readGroup s k).members →
    ∃ u : State, Ends (.arrive d g) s (Claims.given s u.synced d k (BitVec.ofNat 64 (readGroup s k).epoch.toNat)) ∧ Claims.OnlyObject s u k ∧ Claims.GroupFrame s u ∧
      (readGroup u k).members = (readGroup s k).members ∧ (readGroup u k).gen = (readGroup s k).gen ∧
      ((readGroup s k).arrived + 1 < (readGroup s k).members →
        (readGroup u k).arrived = (readGroup s k).arrived + 1 ∧ (readGroup u k).epoch = (readGroup s k).epoch) ∧
      ((readGroup s k).arrived + 1 = (readGroup s k).members →
        (readGroup u k).arrived = 0 ∧ (readGroup u k).epoch = (readGroup s k).epoch + 1)

/-- R199, R200: `bar` arrives and waits for its episode, and its context has no register written; the last arrival of a context of phase 0
goes on at once. `bwait` of an episode that has ended goes on, and of the one in progress waits. A waiter whose episode was
released goes on once its phase has come. -/
def Obligations.BarrierInstructions : Prop :=
  (∀ (g : GArgs) (s : State) (k : Nat) (m : Member), Claims.Objects s g k true → s.me.tlevel.toNat < 3 → s.me.wait = .none →
    memberOf s.me k = some m → m.gen = (readGroup s k).gen → (readGroup s k).valid = true → (readGroup s k).sound = true →
    m.arrived ≠ some (readGroup s k).epoch →
    ((readGroup s k).arrived + 1 < (readGroup s k).members →
      ∃ u : State, exec (.bar g) s = .next (unissue u s.cur) ∧ Claims.OnlyObject s u k ∧ Claims.GroupFrame s u ∧
        (readGroup u k).arrived = (readGroup s k).arrived + 1 ∧ u.me.wait = .bar k m.gen (readGroup s k).epoch) ∧
    ((readGroup s k).arrived + 1 = (readGroup s k).members → coreOf s.cur % (readGroup s k).phases = 0 →
      ∃ u : State, Ends (.bar g) s u.synced ∧ Claims.OnlyObject s u k ∧ Claims.GroupFrame s u ∧ (readGroup u k).arrived = 0 ∧
        (readGroup u k).epoch = (readGroup s k).epoch + 1)) ∧
  (∀ (g : GArgs) (b : Src) (s : State) (k : Nat) (m : Member), Claims.Objects s g k false → s.me.wait = .none → Reads s b.r →
    memberOf s.me k = some m → m.gen = (readGroup s k).gen → (readGroup s k).valid = true → (readGroup s k).sound = true →
    ∃ t : State, t = { s with det := t.det } ∧
      (bits (s.val b.r) 31 0 ≠ (readGroup s k).epoch.toNat → Ends (.bwait g b) s t.synced) ∧
      (bits (s.val b.r) 31 0 = (readGroup s k).epoch.toNat →
        exec (.bwait g b) s = .next (unissue (s.setMe (s.me.setWait (.bwait k m.gen (readGroup s k).epoch))) s.cur))) ∧
  (∀ (g : GArgs) (b : Src) (s : State) (k : Nat) (ticket : BitVec 32), (∃ chk, ObjectAt s g 32 32 k chk) →
    s.me.wait = .ready k ticket → Ends (.bar g) s s.synced ∧ (Reads s b.r → Ends (.bwait g b) s s.synced)) ∧
  ∀ (s : State) (c k : Nat) (gen ticket : BitVec 32), (s.ctx c).tlevel.toNat < 3 → (s.ctx c).wait = .phase k gen ticket →
    ∃ t : State, exec (.barrierPhaseReady c) s = .next t ∧ (t.ctx c).wait = .ready k ticket ∧ OnlyCtx s t c ∧
      (t.ctx c).x = (s.ctx c).x

/-- R196, R198, R458: a group instruction by a context that is no member, under another generation, on an invalid or inconsistent
object, and a second arrival in one episode raise BARRIER_OBJECT with the generation, or the epoch, and change nothing. -/
def Claims.GroupFaults : Prop :=
  ∀ (d : Reg) (g : GArgs) (s : State) (k : Nat), Claims.Objects s g k true →
    (memberOf s.me k = none →
      Traps (.arrive d g) s 0x32 (BitVec.ofNat 64 (readGroup s k).gen.toNat) ∧ Traps (.leave g) s 0x32 (BitVec.ofNat 64 (readGroup s k).gen.toNat)) ∧
    (∀ m, memberOf s.me k = some m →
      (m.gen ≠ (readGroup s k).gen ∨ (readGroup s k).valid = false ∨ (readGroup s k).sound = false →
        Traps (.arrive d g) s 0x32 (BitVec.ofNat 64 (readGroup s k).gen.toNat)) ∧
      (m.gen = (readGroup s k).gen → (readGroup s k).valid = true → (readGroup s k).sound = true → m.arrived = some (readGroup s k).epoch →
        Traps (.arrive d g) s 0x32 (BitVec.ofNat 64 (readGroup s k).epoch.toNat))) ∧
    ((readGroup s k).valid = false ∨ (readGroup s k).sound = false ∨ (∃ m ∈ s.me.groups, m.obj = k ∧ m.gen = (readGroup s k).gen) →
      Traps (.join d g) s 0x32 (BitVec.ofNat 64 (readGroup s k).gen.toNat))

/-! ### Chutes (R203, R204, R81) -/

/-- R203, R204: `cbind` sets the bound end's bit in the control word and binds the port from the next bundle; a control word that fails its
tests, an end that is bound and a port that is bound fault with the word; `cunbind` clears the bit, and the register holds 0 and is
full, and it waits for the values popped through the port that are on their way (R204); an element popped ahead waits for the source that names its port. -/
def Obligations.ChuteInstructions : Prop :=
  (∀ (port : BitVec 3) (g : GArgs) (s : State) (k : Nat) (chk : Bool) (b : Nat), ObjectAt s g 8 8 k chk → Unheld s k → Unfenced s k 8 →
    (chk = true → Unraced s k 8 true true) → Unpoisoned s k 8 → b = (if port.toNat < 4 then 60 else 61) →
    (s.me.iss.getD {}).late = [] →
    (chuteOk k (readW s k) = true → s.me.ports.toList.getD port.toNat none = none → bit (readW s k) b = false →
      ∃ u : State, Ends (.cbind port g) s (u.synced.iss fun i => { i with late := i.late ++ [.bind port.toNat k chk] }) ∧
        bit (readW u k) b = true ∧ (∀ i, i ≠ b → bit (readW u k) i = bit (readW s k) i) ∧
        (∀ a, a < k ∨ k + 8 ≤ a → readByte u a = readByte s a) ∧ ∀ j, u.ctx j = s.ctx j) ∧
    (chuteOk k (readW s k) = false ∨ s.me.ports.toList.getD port.toNat none ≠ none ∨ bit (readW s k) b = true →
      Traps (.cbind port g) s 0x38 (readW s k))) ∧
  (∀ (port : BitVec 3) (s : State) (k b : Nat), s.me.ports[port.toNat] = some k → b = (if port.toNat < 4 then 60 else 61) →
    (port.toNat < 4 → (∃ q ∈ s.me.pend, q.pops.getLsbD port.toNat = true) → Waits (.cunbind port) s) ∧ (Unheld s k →
    (port.toNat < 4 → ∀ q ∈ s.me.pend, q.pops.getLsbD port.toNat = false) →
    ∃ u : State, Ends (.cunbind port) s u.synced ∧ u.me.ports[port.toNat] = none ∧ u.me.x[56 + port.toNat] = 0 ∧
      u.me.empty.getLsbD (56 + port.toNat) = false ∧ bit (readW u k) b = false ∧ (∀ i, i ≠ b → bit (readW u k) i = bit (readW s k) i) ∧
      (∀ a, a < k ∨ k + 8 ≤ a → readByte u a = readByte s a) ∧
      ∀ r : Reg, r.toNat ≠ 56 + port.toNat → u.me.x[r.toNat] = s.me.x[r.toNat])) ∧
  (∀ (port : BitVec 3) (s : State), s.me.ports[port.toNat] = none → ∃ v : W64, Traps (.cunbind port) s 0x38 v) ∧
  (∀ (port : BitVec 2) (q : Fin 8) (s : State) (k : Nat), s.me.ports.toList.getD port.toNat none = some k → s.me.latch.toList.getD port.toNat none = none →
    chuteOk k (readW s k) = true → bit (readW s k) 60 = true → chuteCount (readW s k) ≠ 0 →
    Unheld s k → Unfenced s k 8 → Unfenced s (k + 8 + 8 * chuteHead (readW s k)) 8 → q = ⟨port.toNat, by omega⟩ →
    (s.me.portChk q = true → Unraced s k 8 true true) →
    (s.me.portChk q = true → Unraced (s.raced k 8 true true) (k + 8 + 8 * chuteHead (readW s k)) 8 false true) →
    Unpoisoned s k 8 → Unpoisoned s (k + 8 + 8 * chuteHead (readW s k)) 8 →
    ∃ t : State, exec (.chutePop port) s = .next t ∧
      t.me.latch.toList.getD port.toNat none = some (readW s (k + 8 + 8 * chuteHead (readW s k))) ∧
      chuteCount (readW t k) = chuteCount (readW s k) - 1 ∧ (∀ a, a < k ∨ k + 8 ≤ a → readByte t a = readByte s a) ∧ t.me.x = s.me.x) ∧
  ∀ (port : BitVec 2) (q : Fin 8) (v : W64) (s : State) (k : Nat), s.me.ports.toList.getD (4 + port.toNat) none = some k →
    chuteOk k (readW s k) = true → bit (readW s k) 61 = true → chuteCount (readW s k) < chuteSize (readW s k) + 1 →
    Unheld s k → Unfenced s k 8 → Unfenced s (k + 8 + 8 * chuteTail (readW s k)) 8 → q = ⟨4 + port.toNat, by omega⟩ →
    (s.me.portChk q = true → Unraced s k 8 true true) →
    (s.me.portChk q = true → Unraced (s.raced k 8 true true) (k + 8 + 8 * chuteTail (readW s k)) 8 true true) → Unpoisoned s k 8 →
    ∃ t : State, exec (.chutePush port v) s = .next t ∧ readW t (k + 8 + 8 * chuteTail (readW s k)) = v ∧
      chuteCount (readW t k) = chuteCount (readW s k) + 1 ∧ t.me.x = s.me.x

/-! ### Messages (R31 to R34, R205) -/

/-- The fields of a `send`: source and target offsets and the target's logical core. -/
def Claims.sendLen (n : BitVec 5) : Nat := 8 * (n.toNat + 1)

/-- R33, R205: `send` reads its payload, takes the next number of timeline 5 and puts the message on its way, and waits while eight of
the context's are; a field that must be zero, a misaligned offset or handler, a logical core on which the launch holds no unit, and a
payload past the end of a slice fault. -/
def Claims.SendRuns : Prop :=
  ∀ (d : Reg) (a b : Src) (n : BitVec 5) (s : State) (src dst : Nat), Reads s a.r → Reads s b.r → Reads s d →
    src = bits (s.val d) 22 0 → dst = bits (s.val a.r) 22 0 →
    (∀ core, s.val a.r &&& 0xFFFF0000FF800000 = 0 → src % 8 = 0 → dst % 8 = 0 → (s.val b.r).toNat % 16 = 0 →
      coreOfLogical s s.me.job (bits (s.val a.r) 47 32) = some core →
      src + Claims.sendLen n ≤ 2 ^ 23 → dst + Claims.sendLen n ≤ 2 ^ 23 →
      Loads s (sliceKey (coreOf s.cur) src) (Claims.sendLen n) true false →
      Unfenced s (sliceKey core dst) (Claims.sendLen n) → Unheld s (sliceKey core dst) →
      (((s.core (coreOf s.cur)).sends.filter fun m => m.ctx == s.cur).length < 8 →
        ∃ (t : State) (m : Msg), Ends (.send d a b n) s t.synced ∧ t = { s with det := t.det, cores := t.cores } ∧
          (∀ j, j ≠ coreOf s.cur → t.core j = s.core j) ∧
          t.core (coreOf s.cur) = { s.core (coreOf s.cur) with
            sends := (s.core (coreOf s.cur)).sends ++ [m], tlNext := (s.core (coreOf s.cur)).tlNext.set! 5 m.num } ∧
          m.num = (s.core (coreOf s.cur)).tlNext[5] + 1 ∧ m.ctx = s.cur ∧ m.job = s.me.job ∧ m.core = core ∧ m.off = dst ∧
          m.handler = s.val b.r ∧
          m.data = natToBytes (Claims.sendLen n) (readNat s (sliceKey (coreOf s.cur) src) (Claims.sendLen n))) ∧
      (8 ≤ ((s.core (coreOf s.cur)).sends.filter fun m => m.ctx == s.cur).length → Waits (.send d a b n) s)) ∧
    (s.val a.r &&& 0xFFFF0000FF800000 ≠ 0 → Traps (.send d a b n) s 0x02 (BitVec.ofNat 64 (s.me.iss.getD {}).syl.toNat)) ∧
    (s.val a.r &&& 0xFFFF0000FF800000 = 0 →
      (src % 8 ≠ 0 → Traps (.send d a b n) s 0x08 (BitVec.ofNat 64 src)) ∧
      (src % 8 = 0 → dst % 8 ≠ 0 → Traps (.send d a b n) s 0x08 (BitVec.ofNat 64 dst)) ∧
      (src % 8 = 0 → dst % 8 = 0 → (s.val b.r).toNat % 16 ≠ 0 → Traps (.send d a b n) s 0x08 (s.val b.r)) ∧
      (src % 8 = 0 → dst % 8 = 0 → (s.val b.r).toNat % 16 = 0 →
        (coreOfLogical s s.me.job (bits (s.val a.r) 47 32) = none →
          Traps (.send d a b n) s 0x0A (BitVec.ofNat 64 (bits (s.val a.r) 47 32))) ∧
        (coreOfLogical s s.me.job (bits (s.val a.r) 47 32) ≠ none →
          (2 ^ 23 < src + Claims.sendLen n → Traps (.send d a b n) s 0x09 (BitVec.ofNat 64 src)) ∧
          (src + Claims.sendLen n ≤ 2 ^ 23 → 2 ^ 23 < dst + Claims.sendLen n →
            Traps (.send d a b n) s 0x09 (BitVec.ofNat 64 dst)))))

/-- R33, R172, R205, R420, R493: the oldest message of a core lands: its bytes, its number, and, with a handler, its arrival in the
target's queue; it stays on its way while that queue is full, while another context holds the target slice, and while the target's unit is
being migrated. The idle contexts of its core become live (R156); no other part of a context changes. -/
def Claims.SendLands : Prop :=
  ∀ (s : State) (core : Nat), ((s.core core).sends = [] → exec (.sendLanding core) s = .next s) ∧
    ∀ (m : Msg) (rest : List Msg), (s.core core).sends = m :: rest →
      ((migratingTo s m.job m.core = true ∨ (∃ c, (s.core m.core).holder = some c ∧ c ≠ m.ctx)) →
        exec (.sendLanding core) s = .next s) ∧
      (migratingTo s m.job m.core = false → (∀ c, (s.core m.core).holder = some c → c = m.ctx) →
        (m.handler ≠ 0 → (s.job m.job).cancelled = false → 16 ≤ (s.core m.core).arrivals.length →
          exec (.sendLanding core) s = .next s) ∧
        (m.handler = 0 ∨ (s.job m.job).cancelled = true ∨ (s.core m.core).arrivals.length < 16 →
          ∃ t : State, exec (.sendLanding core) s = .next t ∧
            readBytes t (sliceKey m.core m.off) m.data.length = m.data ∧
            (∀ a, a < sliceKey m.core m.off ∨ sliceKey m.core m.off + m.data.length ≤ a → readByte t a = readByte s a) ∧
            (t.core core).sends = rest ∧ (t.core core).tlDone = (s.core core).tlDone.set! 5 m.num ∧
            (t.core m.core).arrivals = (s.core m.core).arrivals ++ (if m.handler = 0 ∨ (s.job m.job).cancelled = true then [] else
              [⟨m.handler, BitVec.ofNat 64 m.off, BitVec.ofNat 64 m.data.length, BitVec.ofNat 64 m.ctx, m.job, none⟩]) ∧
            ∀ j, ∃ r, t.ctx j = { s.ctx j with run := r }))

/-- R31, R32, R166, R392, R505: an arrival starts on the lowest dormant handler context of its core, with the pc at the handler and x1
to x3 set; its other registers keep their values. A context that last ran for another launch waits for the commands it
enqueued then, and starts with its token set and function table empty. First the messages that waited at the endpoint take the places
that are free. -/
def Claims.HandlerStarts : Prop :=
  ∀ (s : State) (core : Nat), ((s.die (core / 128)).lost = true → exec (.handlerStart core) s = .next s) ∧
    (s.flows = [] → pullWaiting s core = s) ∧ ((s.die (core / 128)).lost = false → ∀ u, u = pullWaiting s core →
      (nextArrival u core = none ∨ dormant u core = none → exec (.handlerStart core) s = .next u) ∧
      ∀ (i : Nat) (a : Arrival), nextArrival u core = some a → dormant u core = some i →
        (handlerReady u core i a = false → exec (.handlerStart core) s = .next u) ∧
        (handlerReady u core i a = true →
          ∃ t : State, exec (.handlerStart core) s = .next t ∧ (t.core core).arrivals = (u.core core).arrivals.erase a ∧ t.mem = u.mem ∧
            (t.ctx (8 * core + i)).run = .live ∧ (t.ctx (8 * core + i)).pc.toNat = a.addr.toNat / 16 * 16 % 2 ^ 57 ∧
            (t.ctx (8 * core + i)).x[1] = a.x1 ∧ (t.ctx (8 * core + i)).x[2] = a.x2 ∧ (t.ctx (8 * core + i)).x[3] = a.x3 ∧
            (∀ (r : Nat) (h : r < 64), r ≠ 1 → r ≠ 2 → r ≠ 3 →
              (t.ctx (8 * core + i)).x[r] = (arriveAll (u.ctx (8 * core + i))).x[r]) ∧
            (t.ctx (8 * core + i)).job = a.job ∧ (t.ctx (8 * core + i)).tlevel = 0 ∧
            (t.ctx (8 * core + i)).hlimit = (u.core core).hlimit ∧
            (∀ j, j ≠ 8 * core + i → ∃ r, t.ctx j = { u.ctx j with run := r }) ∧
            ((u.ctx (8 * core + i)).job ≠ a.job → (∀ h : i < 6, (t.core core).tok[i] = Vector.replicate 8 0) ∧
              ∀ p ∈ (t.core core).ftab, p.1 / 8 ≠ i)))

/-- R31 to R34, R166, R172, R205, R392, R420, R493, R505: a message is sent, lands, and starts a handler. -/
def Obligations.MessageInstructions : Prop := Claims.SendRuns ∧ Claims.SendLands ∧ Claims.HandlerStarts

/-! ### The launch unit's instructions (R206 to R208, R367) -/

/-- Whether a request that the launch unit has answered releases and acquires (R303): a card accepted, and a replay accepted. -/
def Claims.answerReleases (r : LaunchReq) (v : W64) : Bool :=
  match r with
  | .card _ => !bit v 63
  | .grepl _ => decide (v.toNat ≤ 1)
  | .gpget _ _ | .gpset _ _ _ => false

/-- A request to the launch unit: the first issue puts it and waits, a request without an answer goes on waiting, and the answer ends
it: a value in x(d), CANCELLED with the job, or LAYOUT_RIGHTS with the graph. -/
def Claims.Asks (i : Instr) (s : State) (d : Reg) (r : LaunchReq) (g : W64) : Prop :=
  (s.me.wait = .none → exec i s = .next (unissue (s.setMe (s.me.setWait (.launch r))) s.cur)) ∧
  (s.me.wait = .launch r → Waits i s) ∧
  (∀ v, s.me.wait = .answered (.value v) → Writes s d →
    Ends i s ((if Claims.answerReleases r v then s.synced else s).put d v)) ∧
  (s.me.wait = .answered .cancelled → Traps i s 0x22 (BitVec.ofNat 64 s.me.job)) ∧
  (s.me.wait = .answered .rights → Traps i s 0x0A g)

/-- R206, R367: `card`, `gpget`, `gpset` and `grepl` put a request to the launch unit and hold until it answers; `gpget` of a completion
register reads it at once. -/
def Claims.LaunchUnitRequests : Prop :=
  (∀ (d : Reg) (a : Src) (s : State) (o : Nat), Reads s a.r → o = bits (s.val a.r) 22 0 →
    (o % 64 ≠ 0 → Traps (.card d a) s 0x08 (BitVec.ofNat 64 o)) ∧
    (o % 64 = 0 → Unfenced s (sliceKey (coreOf s.cur) o) 192 → Unheld s (sliceKey (coreOf s.cur) o) →
      Claims.Asks (.card d a) s d (.card o) 0)) ∧
  (∀ (d : Reg) (a b : Src) (gp : BitVec 4) (s : State), Reads s a.r → (s.val a.r).toNat < 4096 →
    Claims.Asks (.gpgetGp d a gp) s d (.gpget (s.val a.r).toNat gp.toNat) (s.val a.r) ∧
    (Reads s b.r → Claims.Asks (.gpset d a b gp) s d (.gpset (s.val a.r).toNat gp.toNat (s.val b.r)) (s.val a.r)) ∧
    Claims.Asks (.grepl d a) s d (.grepl (s.val a.r).toNat) (s.val a.r)) ∧
  (∀ (d : Reg) (k : BitVec 2) (s : State), Writes s d → Ends (.gpgetCm d k) s (s.put d s.me.cm[k.toNat]))

/-- R206, R367, R470: the launch unit's answer, at LAUNCH_UNIT_ANSWER. A context waits in one request alone; the answer stands in its
place. A graph register reads as the graph's, or as 0 of no graph; it is written in the graph, or 3 is answered; a graph of another
function answers LAYOUT_RIGHTS; a cancelled job's `card` and `grepl` answer CANCELLED; a card with a reserved field is rejected. -/
def Claims.LaunchUnitAnswers : Prop :=
  ∀ (s : State) (c : Nat) (r : LaunchReq), (s.ctx c).waits[0] = .launch r → (s.ctx c).tlevel = 0 → (s.ctx c).waits[1] = .none →
    (s.ctx c).waits[2] = .none →
    let j := s.job (s.ctx c).job
    (∀ g i, r = .gpget g i → ((s.graph g).defined = false ∨ (s.graph g).fn = j.fn) →
      ∃ t : State, exec (.launchUnitAnswer c) s = .next t ∧ OnlyCtx s t c ∧ (t.ctx c).x = (s.ctx c).x ∧
        (t.ctx c).wait = .answered (.value (if (s.graph g).defined then (s.graph g).gp.toList.getD i 0 else 0))) ∧
    (∀ g i v, r = .gpset g i v → (s.graph g).defined = true → (s.graph g).fn = j.fn →
      ∃ t : State, exec (.launchUnitAnswer c) s = .next t ∧ (t.graph g).gp = (s.graph g).gp.set! i v ∧
        (t.ctx c).wait = .answered (.value 0) ∧ t.mem = s.mem) ∧
    (∀ g i v, r = .gpset g i v → (s.graph g).defined = false →
      ∃ t : State, exec (.launchUnitAnswer c) s = .next t ∧ OnlyCtx s t c ∧ (t.ctx c).wait = .answered (.value 3)) ∧
    (∀ g, (s.graph g).defined = true → (s.graph g).fn ≠ j.fn →
      (∃ i, r = .gpget g i) ∨ (∃ i v, r = .gpset g i v) ∨ (r = .grepl g ∧ j.cancelled = false) →
      ∃ t : State, exec (.launchUnitAnswer c) s = .next t ∧ OnlyCtx s t c ∧ (t.ctx c).wait = .answered .rights) ∧
    (∀ g, r = .grepl g → j.cancelled = false → (s.graph g).defined = false →
      ∃ t : State, exec (.launchUnitAnswer c) s = .next t ∧ OnlyCtx s t c ∧ (t.ctx c).wait = .answered (.value 3)) ∧
    (j.cancelled = true → (∃ g, r = .grepl g) ∨ (∃ o, r = .card o) →
      ∃ t : State, exec (.launchUnitAnswer c) s = .next t ∧ OnlyCtx s t c ∧ (t.ctx c).wait = .answered .cancelled) ∧
    (∀ o, r = .card o → j.cancelled = false → cardOk (localCard s (coreOf c) o) = false →
      ∃ t : State, exec (.launchUnitAnswer c) s = .next t ∧ OnlyCtx s t c ∧
        (t.ctx c).wait = .answered (.value 0x8000000000000001))

/-- R207, R208: `jcancel` of a strict descendant cancels it and gives 0, of a job that is no descendant gives 1, of one cancelled or ended
gives 2; `jpoll` gives a job's state, and of job 0 its own. A job id past 32 bits raises RESERVED_FIELD. -/
def Obligations.JobInstructions : Prop :=
  ∀ (d : Reg) (a : Src) (s : State) (j : Nat), Reads s a.r → j = (s.val a.r).toNat →
    (2 ^ 32 ≤ j → Traps (.jcancel d a) s 0x02 (BitVec.ofNat 64 (s.me.iss.getD {}).syl.toNat) ∧
      Traps (.jpoll d a) s 0x02 (BitVec.ofNat 64 (s.me.iss.getD {}).syl.toNat)) ∧
    (j < 2 ^ 32 →
      (isChild s s.me.job j = false → Writes s d → Ends (.jcancel d a) s (s.put d 1) ∧ (j ≠ 0 → Ends (.jpoll d a) s (s.put d 3))) ∧
      (isChild s s.me.job j = true → (s.job j).cancelled = true ∨ (s.job j).fin ≠ 0 → Writes s d → Ends (.jcancel d a) s (s.put d 2)) ∧
      (isChild s s.me.job j = true → (s.job j).cancelled = false → (s.job j).fin = 0 → Writes s d →
        Ends (.jcancel d a) s ((cancelJob s j).put d 0) ∧ ((cancelJob s j).job j).cancelled = true) ∧
      (j = 0 → Writes s d → Ends (.jpoll d a) s (s.put d (if (s.job s.me.job).cancelled then 2 else 0))) ∧
      (isChild s s.me.job j = true → Writes s d →
        ((s.job j).fin = 1 → Ends (.jpoll d a) s (s.synced.put d 1)) ∧
        ((s.job j).fin ≠ 1 → Ends (.jpoll d a) s (s.put d (if (s.job j).cancelled then 2 else 0)))))

/-! ### Engine commands at the enqueuing bundle (R212 to R217, R231 to R248, R276 to R290, R338 to R341) -/

/-- The group object and generation that the arrival register of queue q names (R202): none where it names none. -/
def Claims.arrival (s : State) (q : Nat) : Option (Nat × BitVec 32) :=
  if bit (s.me.arv.toList.getD q 0) 31 then
    (arvKey s s.cur (s.me.arv.toList.getD q 0)).map fun k => (k, (s.me.arv.toList.getD q 0).extractLsb' 32 32)
  else none

/-- The command c is the last of queue q in t, under the next number of its timeline, with the values read, its context, job and profile; the
other queues and the numbers of commands completed stand as in s. -/
def Claims.Takes (i : Instr) (s t : State) (c : Cmd) (q : Nat) (arv : Bool) (tok : BitVec 4) (vals : List W64) (ents : List Layout)
    (desc : List W64) : Prop :=
  (∀ j, j ≠ coreOf s.cur → t.core j = s.core j) ∧
  (t.core (coreOf s.cur)).queue q = (s.core (coreOf s.cur)).queue q ++ [c] ∧
  (∀ p, p < 5 → p ≠ q → (t.core (coreOf s.cur)).queue p = (s.core (coreOf s.cur)).queue p) ∧
  (t.core (coreOf s.cur)).tlDone = (s.core (coreOf s.cur)).tlDone ∧
  c.num = (s.core (coreOf s.cur)).tlNext.toList.getD q 0 + 1 ∧ (t.core (coreOf s.cur)).tlNext.toList.getD q 0 = c.num ∧
  c.instr = i ∧ c.q = q ∧ c.vals = vals ∧ c.ents = ents ∧ c.desc = desc ∧ c.tok = tok ∧ c.ctx = s.cur ∧ c.job = s.me.job ∧ c.lcore = s.me.lcore ∧
  c.prof = s.me.prof ∧ c.phase = .queued ∧ c.arv = if arv then Claims.arrival s q else none

/-- The command enters queue q (R116, R202, R213, R217): a queue with sixteen entries in use holds its bundle; an arrival register that names
no object faults; and otherwise the command goes to the end of the queue, and nothing else changes but the detector's record. -/
def Claims.QueuesWith (i : Instr) (s : State) (q : Nat) (arv : Bool) (tok : BitVec 4) (vals : List W64) (ents : List Layout)
    (desc : List W64) : Prop :=
  (arv = true → Claims.arrival s q = none → Traps i s 0x32 (s.me.arv.toList.getD q 0)) ∧
  (arv = false ∨ Claims.arrival s q ≠ none →
    (16 ≤ (s.core (coreOf s.cur)).used q → Waits i s) ∧
    ((s.core (coreOf s.cur)).used q < 16 → ∃ (t : State) (c : Cmd), Ends i s t.synced ∧
      t = { s with det := t.det, cores := t.cores } ∧ Claims.Takes i s t c q arv tok vals ents desc))

/-- A command that captures values alone. -/
def Claims.Queues (i : Instr) (s : State) (q : Nat) (arv : Bool) (tok : BitVec 4) (vals : List W64) : Prop :=
  Claims.QueuesWith i s q arv tok vals [] []

/-- The token bits of an E-format command (R120, R217): ui, do, di, uo from bit 3 down. -/
def Claims.tokens (e : EArgs) : BitVec 4 := BitVec.ofBool e.ui ++ BitVec.ofBool e.dn ++ BitVec.ofBool e.di ++ BitVec.ofBool e.uo

/-- A matrix command enters the MX queue (R116, R202, R213, R217): as any command does; the first one of a unit's task is marked (R218), and an
`rrot` takes its number among those that the launch has enqueued on its core (R240). -/
def Claims.MxQueues (i : Instr) (e : EArgs) (s : State) (vals : List W64) (ents : List Layout) : Prop :=
  (e.arv = true → Claims.arrival s 1 = none → Traps i s 0x32 (s.me.arv.toList.getD 1 0)) ∧
  (e.arv = false ∨ Claims.arrival s 1 ≠ none →
    (16 ≤ (s.core (coreOf s.cur)).used 1 → Waits i s) ∧
    ((s.core (coreOf s.cur)).used 1 < 16 → ∃ (t : State) (c : Cmd), Ends i s t.synced ∧
      t = { s with cores := t.cores, jobs := t.jobs } ∧ Claims.Takes i s t c 1 e.arv (Claims.tokens e) vals ents [] ∧
      (∀ lane u, unitOf s s.cur = some (lane, u) → c.fresh = u.stale ∧
        (t.core (coreOf s.cur)).units = (s.core (coreOf s.cur)).units.set! lane (some { u with stale := false })) ∧
      (isRrot i = false → t.jobs = s.jobs) ∧
      (isRrot i = true → c.nth = mapGet 0 (s.job s.me.job).rrots (coreOf s.cur) ∧
        t.job s.me.job = { s.job s.me.job with rrots := mapSet 0 (s.job s.me.job).rrots (coreOf s.cur) (c.nth + 1) } ∧
        ∀ j, j ≠ s.me.job → t.job j = s.job j)))

/-- The context's unit owns the matrix engine's state (R212): a role triple, or the single unit of lane 1. -/
def Claims.Owns (s : State) : Prop := ∃ lane u, unitOf s s.cur = some (lane, u) ∧ (u.triple = true ∨ lane = 1)

/-- A descriptor pair of n rows of len bytes that meets the limits of R231 and R232. -/
def Claims.PairOk (lo hi : W64) (n len : Nat) : Prop :=
  bits lo 63 48 = 0 ∧ bit lo 23 = false ∧ bits hi 63 40 = 0 ∧ bits hi 39 32 ≤ 31 ∧ bits lo 23 0 % 32 = 0 ∧
    bits lo 43 24 % (if bits lo 47 44 = 0 then 32 else 64) = 0 ∧ bits lo 23 0 + (n - 1) * bits lo 43 24 + len ≤ 2 ^ 23

/-- The fields of `mma` (R234). -/
def Claims.mmaA (e : EArgs) : Bool := e.fn.getLsbD 15
/-- B from the slice. -/
def Claims.mmaB (e : EArgs) : Bool := e.fn.getLsbD 13

/-- R212, R231 to R241: every matrix instruction of a context that owns the matrix engine enqueues an MX command with the values of its
registers; of any other it raises ENGINE_FAULT. -/
def Obligations.MatrixCommands : Prop :=
  ∀ (e : EArgs) (s : State),
    (Claims.Owns s →
      (Reads s e.a → (s.val e.a).toNat % 64 = 0 → (s.val e.a).toNat + 384 ≤ 2 ^ 23 →
        Claims.MxQueues (.mcfg e) e s [s.val e.a] []) ∧
      (Reads s e.a → Claims.MxQueues (.mcfgr e) e s [s.val e.a] []) ∧
      Claims.MxQueues (.mgo e) e s [BitVec.ofNat 64 (profOff s (s.job s.me.job))] ((List.range 64).map fun l => entryOf s s.cur l) ∧
      (∀ alo ahi blo bhi : W64,
        (if Claims.mmaA e then Reads s e.a ∧ Reads s (e.a + 1) ∧ alo = s.val e.a ∧ ahi = s.val (e.a + 1) ∧
            1 ≤ bits ahi 31 24 ∧ bits ahi 31 24 ≤ 64 ∧ Claims.PairOk alo ahi (bits ahi 31 24) (keff (mmaSp e))
          else alo = 0 ∧ ahi = 0) →
        (if Claims.mmaB e then Reads s e.b ∧ Reads s (e.b + 1) ∧ blo = s.val e.b ∧ bhi = s.val (e.b + 1) ∧
            Claims.PairOk blo bhi 192 (rowB (mmaFmt e))
          else blo = 0 ∧ bhi = 0) →
        profOk (s.job s.me.job) (min 15 (s.me.prof.toNat + profOff s (s.job s.me.job))) = true →
        Claims.MxQueues (.mma e) e s [alo, ahi, blo, bhi, BitVec.ofNat 64 (profOff s (s.job s.me.job))] []) ∧
      Claims.MxQueues (.acz e) e s [] [] ∧
      (Reads s e.a → (s.val e.a).toNat % 64 = 0 → (s.val e.a).toNat + 65536 ≤ 2 ^ 23 →
        Claims.MxQueues (.acmvSt e) e s [s.val e.a] [] ∧
        Claims.MxQueues (.acmvLd e) e s [s.val e.a] []) ∧
      (Reads s e.a → Reads s (e.a + 1) → 1 ≤ bits (s.val (e.a + 1)) 31 24 → bits (s.val (e.a + 1)) 31 24 * zLen e ≤ 12288 →
        Claims.PairOk (s.val e.a) (s.val (e.a + 1)) (bits (s.val (e.a + 1)) 31 24) (zLen e) →
        Claims.MxQueues (.zld e) e s [s.val e.a, s.val (e.a + 1)] [] ∧
        Claims.MxQueues (.zst e) e s [s.val e.a, s.val (e.a + 1)] []) ∧
      Claims.MxQueues (.zclrE e) e s [] [] ∧
      Claims.MxQueues (.zclrZ e) e s [] [] ∧
      (Reads s e.a → Reads s e.b → mxHeld s s.me.job (clusterOf s.cur) = 255 → (s.val e.a).toNat % 64 = 0 → (s.val e.b).toNat % 64 = 0 →
        (s.val e.a).toNat + rrotLen e ≤ 2 ^ 23 → (s.val e.b).toNat + rrotLen e ≤ 2 ^ 23 →
        Claims.MxQueues (.rrotUp e) e s [s.val e.a, s.val e.b] [] ∧
        Claims.MxQueues (.rrotDn e) e s [s.val e.a, s.val e.b] []) ∧
      (Reads s e.a → Reads s (e.a + 1) → bits (s.val (e.a + 1)) 31 24 = 192 → Claims.PairOk (s.val e.a) (s.val (e.a + 1)) 192 128 →
        Claims.MxQueues (.mtab e) e s [s.val e.a, s.val (e.a + 1)] [])) ∧
    (¬ Claims.Owns s → ∀ i ∈ [Instr.mcfg e, .mcfgr e, .mgo e, .mma e, .acz e, .acmvSt e, .acmvLd e, .zld e, .zst e, .zclrE e, .zclrZ e,
        .rrotUp e, .rrotDn e, .mtab e], ∃ v, Traps i s 0x30 v)

/-- The register of a vector instruction, where its form uses it, reads at once. -/
def Claims.VReads (s : State) (u : VUse) (r : Reg) : Prop := u = .none ∨ Reads s r

/-- The value captured: 0 of a field that the form does not use. -/
def Claims.vval (s : State) (u : VUse) (r : Reg) : W64 := if u = .none then 0 else s.val r

/-- The values that a vector command captures: d, a, b, n and m. -/
def Claims.vvals (s : State) (v : VArgs) (f : VForm) : List W64 :=
  [Claims.vval s f.d v.d, Claims.vval s f.a v.a, Claims.vval s f.b v.b, if f.count then s.val v.n else 0, if v.m = 0 then 0 else s.val v.m]

/-- The limits of the operands of a vector instruction hold (R244 to R248). -/
def Claims.VOk (s : State) (v : VArgs) (f : VForm) : Prop :=
  Claims.VReads s f.d v.d ∧ Claims.VReads s f.a v.a ∧ Claims.VReads s f.b v.b ∧ (f.count = true → Reads s v.n) ∧ (v.m = 0 ∨ Reads s v.m) ∧
    let l := vLims f (Claims.vval s f.d v.d) (Claims.vval s f.a v.a) (Claims.vval s f.b v.b) (if f.count then s.val v.n else 0)
      (if v.m = 0 then 0 else s.val v.m) (v.m != 0)
    (∀ p ∈ l.ef, p.1 = true) ∧ (∀ p ∈ l.mis, p.1 = true) ∧ ∀ p ∈ l.lb, p.1 = true

/-- A vector instruction whose limits hold enqueues its command. -/
def Claims.Vec (i : VArgs → Instr) (f : VArgs → VForm) : Prop :=
  ∀ (v : VArgs) (s : State), Claims.VOk s v (f v) → Claims.Queues (i v) s 2 false v.tok (Claims.vvals s v (f v))

/-- R248, R252 to R271: every vector instruction whose operands meet their limits enqueues a VX command with the values of its registers;
`vepi` only of a context that owns the matrix engine, and `vlds` holds its bundle until its command has completed, when its element
is written. -/
def Claims.VectorCommands : Prop :=
  Claims.Vec .vadd formBin ∧ Claims.Vec .vsub formBin ∧ Claims.Vec .vmul formBin ∧ Claims.Vec .vfma formBin ∧ Claims.Vec .vdiv formBin ∧
  Claims.Vec .vsqrt formUn ∧ Claims.Vec .vrsqrt formUn ∧ Claims.Vec .vmin formBin ∧ Claims.Vec .vmax formBin ∧ Claims.Vec .vabs formUn ∧
  Claims.Vec .vneg formUn ∧ Claims.Vec .vand formBin ∧ Claims.Vec .vor formBin ∧ Claims.Vec .vxor formBin ∧ Claims.Vec .vshl formBin ∧
  Claims.Vec .vshr formBin ∧ Claims.Vec .vsra formBin ∧ Claims.Vec .vcmp formCmp ∧ Claims.Vec .vsel formBin ∧ Claims.Vec .vcvt formCvt ∧
  Claims.Vec .vsadd formBin ∧ Claims.Vec .vssub formBin ∧ Claims.Vec .vsmul formBin ∧ Claims.Vec .vsdiv formBin ∧ Claims.Vec .vsexp formUn ∧
  Claims.Vec .vslog formUn ∧ Claims.Vec .vred formRed ∧ Claims.Vec .vscan formUn ∧ Claims.Vec .vperm formPerm ∧ Claims.Vec .vshuf formShuf ∧
  Claims.Vec .vbcast formShuf ∧ Claims.Vec .vfn formUn ∧ Claims.Vec .vtab (fun _ => formTab) ∧ Claims.Vec .vfill formFill ∧
  Claims.Vec .vmov formUn ∧ Claims.Vec .vsts formSts ∧
  (∀ (v : VArgs) (s : State), (Claims.Owns s → Claims.VOk s v (formEpi v) → Claims.Queues (.vepi v) s 2 false v.tok (Claims.vvals s v (formEpi v))) ∧
    (¬ Claims.Owns s → ∃ w, Traps (.vepi v) s 0x30 w)) ∧
  ∀ (v : VArgs) (s : State), s.me.tlevel.toNat < 3 →
    (s.me.wait = .none → Claims.VOk s v (formLds v) → (s.core (coreOf s.cur)).used 2 < 16 →
      ∃ (t : State) (c : Cmd), exec (.vlds v) s = .next (unissue t s.cur) ∧ t.mem = s.mem ∧
        (t.core (coreOf s.cur)).queue 2 = (s.core (coreOf s.cur)).queue 2 ++ [c] ∧ c.instr = .vlds v ∧
        c.num = (s.core (coreOf s.cur)).tlNext.toList.getD 2 0 + 1 ∧ c.vals = Claims.vvals s v (formLds v) ∧
        t.me.wait = .vlds c.num ∧ t.me.x = s.me.x) ∧
    (∀ num w, s.me.wait = .vldsDone num w → (s.core (coreOf s.cur)).cmd 2 num = none → Writes s v.d →
      Ends (.vlds v) s (s.put v.d w)) ∧
    ∀ num c, (s.me.wait = .vlds num ∨ ∃ w, s.me.wait = .vldsDone num w) → (s.core (coreOf s.cur)).cmd 2 num = some c → c.phase ≠ .finished →
      Waits (.vlds v) s

/-- R244 to R248, R256, R423: the first limit that fails is the fault, ENGINE_FAULT limits before MISALIGNED before LAYOUT_BOUNDS; a region
needs its reserved bits zero, a base aligned to its elements, and its first and last element in the slice; a bitmap needs eight-byte
alignment and its bits in the slice; a count register its reserved bits zero. -/
def Claims.VectorLimits : Prop :=
  (∀ (l : Lims) (s : State) (ok : List (Bool × W64)) (w : W64), (∀ p ∈ ok, p.1 = true) →
    ((∃ rest, l.ef = ok ++ (false, w) :: rest) → limsM l s = .error (.trap 0x30 w)) ∧
    ((∀ p ∈ l.ef, p.1 = true) → (∃ rest, l.mis = ok ++ (false, w) :: rest) → limsM l s = .error (.trap 0x08 w)) ∧
    ((∀ p ∈ l.ef, p.1 = true) → (∀ p ∈ l.mis, p.1 = true) → (∃ rest, l.lb = ok ++ (false, w) :: rest) →
      limsM l s = .error (.trap 0x09 w))) ∧
  (∀ (r : W64) (es : Nat) (is : List Nat) (still : Bool), (∀ p ∈ (limRegion r es is still).ef ++ (limRegion r es is still).mis ++
      (limRegion r es is still).lb, p.1 = true) ↔
    bit r 63 = false ∧ bits r 62 40 = 0 ∧ bit r 23 = false ∧ (still = true → regStride r ≠ 0) ∧ bits r 22 0 % es = 0 ∧
      ∀ i ∈ is, 0 ≤ (bits r 22 0 : Int) + (i : Int) * regStride r * (es : Int) ∧
        (bits r 22 0 : Int) + (i : Int) * regStride r * (es : Int) + es ≤ 2 ^ 23) ∧
  (∀ (r : W64) (c : Nat), (∀ p ∈ (limBitmap r c).ef ++ (limBitmap r c).mis ++ (limBitmap r c).lb, p.1 = true) ↔
    bits r 63 23 = 0 ∧ r.toNat % 8 = 0 ∧ bits r 22 0 + (c + 7) / 8 ≤ 2 ^ 23) ∧
  ∀ (r : W64), (∀ p ∈ (limCount r false).ef ++ (limCount r false).mis ++ (limCount r false).lb, p.1 = true) ↔ bits r 63 16 = 0

/-! ### Copy and generation commands at the enqueuing bundle (R276 to R290, R338, R339, R341, R436) -/

/-- A register names the copy descriptor b, read by a checked load at its local offset with the entry that it names; u is the state
after the load (R276). -/
def Claims.BoxAt (s : State) (v : W64) (b : Box) (u : State) : Prop :=
  v.toNat % 2 ^ 23 % 64 = 0 ∧ Loads s (sliceKey (coreOf s.cur) (v.toNat % 2 ^ 23)) 64 true false ∧
    u = s.loaded (sliceKey (coreOf s.cur) (v.toNat % 2 ^ 23)) 64 true false ∧
    b.w = ((List.range 8).map fun i => w64 (readNat s (sliceKey (coreOf s.cur) (v.toNat % 2 ^ 23)) 64 / 2 ^ (64 * i))) ∧
    b.e = entryOf s s.cur (bits (b.w.getD 6 0) 53 48)

/-- The entry of a box is valid, of a space that the instruction accepts, and gives its rights (R277, R282). -/
def Claims.Allows (b : Box) (rd wr : Bool) (spaces : Nat → Prop) : Prop :=
  b.e.valid = true ∧ spaces b.e.space ∧ (rd = true → b.e.rd = true) ∧ (wr = true → b.e.wr = true)

/-- What a copy instruction with one descriptor does (R276, R277, R280, R423): where no limit fails, the command captures the value of x(b)
(an operand where `arg` says so), the entry and the descriptor; the first limit that fails, in the order fields, alignment, rights, the
instruction's own test, bounds, is the fault. `pre` is what the instruction asks of its operands besides, `post` its own test, with the
cause and the value of the fault where that fails. -/
def Claims.Copies (i : EArgs → Instr) (q : Nat) (arg side hnd : Bool) (g : EArgs → Option Nat) (rd wr : Bool) (spaces : Nat → Prop)
    (pre post : EArgs → State → Box → Prop) (miss : EArgs → State → Box → BitVec 8 × W64) : Prop :=
  ∀ (e : EArgs) (s u : State) (b : Box), Reads s e.a → (arg = true → Reads s e.b) → Claims.BoxAt s (s.val e.a) b u → pre e s b →
    (∀ v, boxBad b side = some v → Traps (i e) s 0x30 v) ∧
    (boxBad b side = none →
      (∀ v, boxMis b (hnd && cpHnd e) = some v → Traps (i e) s 0x08 v) ∧
      (boxMis b (hnd && cpHnd e) = none →
        (¬ Claims.Allows b rd wr spaces → Traps (i e) s 0x0A (w64 b.num)) ∧
        (Claims.Allows b rd wr spaces →
          (¬ post e s b → Traps (i e) s (miss e s b).1 (miss e s b).2) ∧
          (post e s b →
            (∀ v, boxPast b side (g e) = some v → Traps (i e) s 0x09 v) ∧
            (boxPast b side (g e) = none →
              Claims.QueuesWith (i e) s q e.arv (Claims.tokens e) (if arg then [s.val e.b] else []) [b.e] b.w)))))

/-- Nothing more is asked. -/
def Claims.Any (_ : EArgs) (_ : State) (_ : Box) : Prop := True

/-- LAYOUT_RIGHTS with the entry's number. -/
def Claims.byRights (_ : EArgs) (_ : State) (b : Box) : BitVec 8 × W64 := (0x0A, w64 b.num)

/-- What the gather dimension and the index offset of `cgather` and `cscatter` must be (R285). -/
def Claims.Indexed (e : EArgs) (s : State) (b : Box) : Prop :=
  bits (s.val e.b) 63 23 = 0 ∧ (s.val e.b).toNat % 4 = 0 ∧ (b.e.valid = true → cpSel e < b.rank ∧ b.org (cpSel e) = 0)

/-- The index list lies within the slice (R285). -/
def Claims.ListFits (e : EArgs) (s : State) (b : Box) : Prop := (s.val e.b).toNat + 4 * b.box (cpSel e) ≤ 2 ^ 23

/-- R276 to R290: `cpin`, `cgather` and `cpref` enter queue 0, `cpout`, `cred`, `cmirror`, `cscatter`, `cfill` and `cmsg` queue 3, and
`cpx` the one that fn[8] names, each capturing its descriptor with the entry, or fault at the limits. -/
def Claims.CopyCommands : Prop :=
  Claims.Copies .cpin 0 true true true (fun _ => none) true false (fun sp => sp ≠ 5) Claims.Any Claims.Any Claims.byRights ∧
  Claims.Copies .cpout 3 true true true (fun _ => none) false true (fun _ => True) Claims.Any
    (fun _ _ b => b.e.space = 5 → b.box 0 ≤ 65536) (fun _ _ b => (0x09, w64 (b.box 0))) ∧
  Claims.Copies .cred 3 true true true (fun _ => none) true true (fun sp => sp ≤ 3) Claims.Any
    (fun e _ b => b.e.fmt = if cpSel e = 0 then 0x03 else if cpSel e = 1 then 0x21 else 0x29) Claims.byRights ∧
  Claims.Copies .cmirror 3 true true true (fun _ => none) false true (fun sp => sp = 3) Claims.Any
    (fun _ s b => b.e.mir = true ∧ (s.job s.me.job).strm = true ∧
      bit ((s.stream (bits ((s.job s.me.job).w 17) 12 0)).desc.getD 0 0) 55 = true) Claims.byRights ∧
  Claims.Copies .cpref 0 false true false (fun _ => none) false false (fun sp => sp ≠ 5) Claims.Any Claims.Any Claims.byRights ∧
  Claims.Copies .cfill 3 true false true (fun _ => none) false true (fun sp => sp ≠ 5) (fun _ _ b => b.lbase = 0 ∧ b.lpitch = 0) Claims.Any
    Claims.byRights ∧
  Claims.Copies .cgather 0 true true true (fun e => some (cpSel e)) true false (fun sp => sp ≠ 5) Claims.Indexed Claims.ListFits
    (fun e s _ => (0x09, s.val e.b)) ∧
  Claims.Copies .cscatter 3 true true true (fun e => some (cpSel e)) false true (fun sp => sp ≠ 5) Claims.Indexed Claims.ListFits
    (fun e s _ => (0x09, s.val e.b)) ∧
  (∀ (e : EArgs) (s u w : State) (b c : Box), Reads s e.a → Reads s e.b → Claims.BoxAt s (s.val e.a) b u → Claims.BoxAt u (s.val e.b) c w →
    (boxBad b false = none → boxBad c false = none → b.lbase = 0 → b.lpitch = 0 → b.haddr = 0 → c.lbase = 0 → c.lpitch = 0 → c.haddr = 0 →
      b.n = c.n → b.e.es = c.e.es → cpHnd e = false → Claims.Allows b true false (fun sp => sp ≠ 5) → Claims.Allows c false true (fun _ => True) →
      boxPast b false none = none → boxPast c false none = none →
      Claims.QueuesWith (.cpx e) s (if e.fn.getLsbD 8 then 3 else 0) e.arv (Claims.tokens e) [] [b.e, c.e] (b.w ++ c.w))) ∧
  ∀ (e : EArgs) (s : State) (core : Nat), Reads s e.a → Reads s e.b → Reads s e.c →
    let a := s.val e.a
    let b := s.val e.b
    let n := 8 * (bits a 47 32 + 1)
    bits a 63 48 = 0 → bits a 31 23 = 0 → bits b 63 48 = 0 → bits b 31 23 = 0 → bits a 22 0 % 8 = 0 → bits b 22 0 % 8 = 0 →
    (s.val e.c).toNat % 16 = 0 → 
    (coreOfLogical s s.me.job (bits b 47 32) = some core → bits a 22 0 + n ≤ 2 ^ 23 → bits b 22 0 + n ≤ 2 ^ 23 →
      Claims.Queues (.cmsg e) s 3 e.arv (Claims.tokens e) [a, b, s.val e.c, w64 core]) ∧
    (coreOfLogical s s.me.job (bits b 47 32) = none → Traps (.cmsg e) s 0x0A (w64 (bits b 47 32)))

/-- A generation instruction enqueues its command with these layout entries and values (R338, R339). -/
def Claims.Generates (i : Instr) (s : State) (e : EArgs) (ents : List Layout) (vals : List W64) : Prop :=
  Claims.QueuesWith i s 4 e.arv 0 vals ents []

/-- R338, R339, R341, R436: every generation instruction whose operands meet its limits enqueues a GX command with the values of its
registers, and the layout entry that it names; a handle with
bits above its field or in its reserved field, a count or a number of parents out of range, or an
entry number above 63 raises ENGINE_FAULT; an offset that is not aligned MISALIGNED. -/
def Obligations.GenerationCommands : Prop :=
  ∀ (e : EArgs) (s : State), Reads s e.a →
    let a := s.val e.a
    let b := s.val e.b
    let c := s.val e.c
    let lay (v : W64) := entryOf s s.cur v.toNat
    let fits (v : W64) (al n : Nat) := v.toNat % al = 0 ∧ v.toNat + n ≤ 2 ^ 23
    let handle (top : Nat) (v : W64) := v.toNat < 2 ^ top ∧ bits v 15 11 = 0
    (handle 32 a → Claims.Generates (.ctrClose e) s e [] [a]) ∧
    (handle 48 a → Claims.Generates (.kvtDrop e) s e [] [a]) ∧
    (¬ handle 32 a → Traps (.ctrClose e) s 0x30 a) ∧ (¬ handle 48 a → Traps (.kvtDrop e) s 0x30 a) ∧
    (Reads s e.b →
      (a.toNat < 64 → fits b 8 8 → Claims.Generates (.ctrOpen e) s e [lay a] [a, b]) ∧
      (64 ≤ a.toNat → Traps (.ctrOpen e) s 0x30 a) ∧
      (a.toNat < 64 → b.toNat % 8 ≠ 0 → Traps (.ctrOpen e) s 0x08 b) ∧
      (handle 32 a → b.toNat < 2 ^ 32 → Claims.Generates (.ctrTrim e) s e [] [a, b]) ∧
      (¬ handle 32 a → Traps (.ctrTrim e) s 0x30 a) ∧
      (fits a 64 64 → fits b 16 16 →
        Claims.Generates (.smpRun e) s e [] [a, b] ∧ Claims.Generates (.smpAccept e) s e [] [a, b])) ∧
    (Reads s e.b → Reads s e.c →
      (handle 32 a → 1 ≤ c.toNat → c.toNat ≤ 4096 → fits b 4 (4 * c.toNat) → Claims.Generates (.ctrAppend e) s e [] [a, b, c]) ∧
      (handle 32 a → c.toNat < 1 ∨ 4096 < c.toNat → Traps (.ctrAppend e) s 0x30 c) ∧
      (handle 32 a → c &&& ~~~ 0x300FF = 0 → bits c 7 0 ≠ 0 → fits b 64 (32 + 16 * bits c 7 0) →
        Claims.Generates (.ctrProp e) s e [] [a, b, c]) ∧
      (handle 32 a → b.toNat < 64 → fits c 8 8 →
        Claims.Generates (.ctrSave e) s e [lay b] [a, b, c] ∧ Claims.Generates (.ctrLoad e) s e [lay b] [a, b, c]) ∧
      (handle 32 a → 1 ≤ b.toNat → b.toNat ≤ 1024 → fits c 8 8 → Claims.Generates (.kvtOpen e) s e [] [a, b, c]) ∧
      (handle 48 a → b &&& ~~~ 0x0000FFFF007FFFFF = 0 → bits b 22 0 % 2 = 0 → bits b 22 0 + 2 * bits b 47 32 ≤ 2 ^ 23 → fits c 8 8 →
        Claims.Generates (.kvtCommit e) s e [] [a, b, c]) ∧
      (¬ handle 32 a → ∀ i ∈ [Instr.ctrAppend e, .ctrProp e, .ctrSave e, .ctrLoad e, .kvtOpen e], Traps i s 0x30 a) ∧
      (¬ handle 48 a → Traps (.kvtCommit e) s 0x30 a))

/-- R277, R285: the limits of a copy descriptor, beside the value that breaks one: reserved fields, origins and extents against the rank, the
row pitch of a local side of more than one row and the size; alignment to the element size and a handler's address; and the extents, but
for the KV position and the gather dimension, with the local side's last byte. -/
def Claims.CopyLimits : Prop :=
  ∀ b : Box,
    (∀ side, boxBad b side = none ↔
      bits (b.w.getD 6 0) 63 54 = 0 ∧ bit (b.w.getD 6 0) 47 = false ∧ bit (b.w.getD 6 0) 23 = false ∧
      bits (b.w.getD 7 0) 63 57 = 0 ∧ bits (b.w.getD 7 0) 3 0 = 0 ∧
      (b.e.valid = true → (∀ i, i < 6 → (i < b.rank → b.box i ≠ 0) ∧ (b.rank ≤ i → b.org i = 0 ∧ b.box i = 0)) ∧
        (side = true → 1 < b.rows → b.box 0 * b.e.es ≤ b.lpitch) ∧ b.n * b.e.es ≤ 2 ^ 32)) ∧
    (∀ hnd, boxMis b hnd = none ↔
      b.lbase % max 1 b.e.es = 0 ∧ b.lpitch % max 1 b.e.es = 0 ∧ (hnd = true → b.haddr ≠ 0)) ∧
    ∀ side g, boxPast b side g = none ↔
      (∀ i, i < b.rank → some i ≠ g → ¬ (b.e.space = 6 ∧ i + 1 = b.rank) → b.org i + b.box i ≤ b.e.ext i) ∧
      (side = true → b.lbase + (b.rows - 1) * b.lpitch + b.box 0 * b.e.es - 1 < 2 ^ 23)

/-! ### Engine steps (R213 to R217, R249, R273, R278, R290, R338, R378, R417, R418, R420, R456, R460) -/

/-- The queue of a command once it has finished: the finished commands at the front leave, and the timeline follows (R213). -/
def Claims.drained (s : State) (core : Nat) (c : Cmd) : List Cmd × Nat :=
  drainList (((s.core core).queue c.q).map fun x => if x.num = c.num then { c with phase := .finished, vflags := 0, mflags := 0 } else x)
    ((s.core core).tlDone.toList.getD c.q 0)

/-- In t the command c of a core of s has reached its number (R213): its queue and timeline have followed, contexts in `idle` on the core
have woken, and nothing else has changed. -/
def Claims.Finished (s t : State) (core : Nat) (c : Cmd) : Prop :=
  t = { s with cores := t.cores, ctxs := t.ctxs } ∧ (∀ j, j ≠ core → t.core j = s.core j) ∧
  t.core core = { s.core core with
    qs := (t.core core).qs, tlDone := (s.core core).tlDone.set! c.q (Claims.drained s core c).2 } ∧
  (∀ p, (t.core core).queue p = if p = c.q then (Claims.drained s core c).1 else (s.core core).queue p) ∧
  ∀ j, ∃ r, t.ctx j = { s.ctx j with run := r }

/-- In t the command c of a core of s has failed with a cause and a value (R279, R408): it keeps its place, and nothing else has changed but
that contexts in `idle` on the core have woken. A command of a context that was killed, or of a cancelled job, is discarded at once
instead (R418, R420). -/
def Claims.Failed (s t : State) (core : Nat) (c : Cmd) (f : BitVec 8) (v : W64) : Prop :=
  (c.quiet = true ∨ (s.job c.job).cancelled = true → Claims.Finished s t core c) ∧
  (c.quiet = false → (s.job c.job).cancelled = false →
    ∃ o, t = { s with cores := t.cores, ctxs := t.ctxs, failures := s.failures + 1 } ∧
      (t.core core) = (s.core core).putCmd { c with phase := .failed, cause := f, faddr := v, order := o } ∧
      (∀ j, j ≠ core → t.core j = s.core j) ∧ ∀ j, ∃ r, t.ctx j = { s.ctx j with run := r })

/-- A command once its writes have performed, with nothing left of them. -/
def Claims.performed (c : Cmd) : Cmd := { c with done := c.total, first := [], pend := [], vflags := 0, mflags := 0 }

/-- The way a command ends once its writes have performed, in a state s (R96, R213, R217, R290, R418, R456, R460): its flags come to its
context; where a FIFO that it pushes into is full it fails with TOKEN_FIFO_OVERFLOW and a bitmap of the full ones, its push left to be done;
otherwise its tokens are pushed and its arrival is made, and it reaches its number, or fails with the fault of the arrival. A
generation command, a command retried for its arrival alone, and `cpref` meet no full FIFO; a command of a killed context makes no
arrival; and `cpref` fails at nothing. -/
def Claims.EndsSo (o : Host.Outcome State Fault Refusal) (s : State) (core : Nat) (c : Cmd) : Prop :=
  let full := if c.rest = .arrival then 0 else fullFifos (s.core core) c
  let u := orFlags s c.ctx c.vflags c.mflags
  let p := if c.rest = .arrival then u else u.updCore core fun k => pushTokens k c
  (full = 0 ∨ c.q = 4 ∨ neverFails c.instr = true →
    (c.arv = none ∨ c.quiet = true → ∃ t, o = .next t ∧ Claims.Finished p t core c) ∧
    (∀ k gen, c.arv = some (k, gen) → c.quiet = false → paddockHit p (keyCore k) (keyOff k) 32 c.job = false →
      (∀ w, arriveAt p c.ctx k gen = .ok w → ∃ t, o = .next t ∧ Claims.Finished w t core c) ∧
      ∀ v, arriveAt p c.ctx k gen = .error v → neverFails c.instr = false →
        ∃ t, o = .next t ∧ Claims.Failed p t core { Claims.performed c with rest := .arrival } 0x32 v) ∧
    (∀ k gen, c.arv = some (k, gen) → c.quiet = false → paddockHit p (keyCore k) (keyOff k) 32 c.job = true → neverFails c.instr = false →
      ∃ t, o = .next t ∧ Claims.Failed p t core { Claims.performed c with rest := .arrival } 0x0A (w64 (keyOff k)))) ∧
  (full ≠ 0 → c.q ≠ 4 → neverFails c.instr = false →
    ∃ t, o = .next t ∧ Claims.Failed u t core { Claims.performed c with rest := .push } 0x31 (w64 full))

/-- What the end of a matrix command or of a `vepi` that releases a tile leaves of its accumulator (R220). -/
def Claims.released (s : State) (core acc : Nat) (wr : List Nat) : State :=
  match wr with
  | k :: _ => updMx { s with free := s.free + 1 } core fun m => dropTile m acc (k / 8 - 1) (s.free + 1)
  | [] => s

/-- R213, R217, R220, R249, R273, R338, R420, R456: the completion of a command in each of the four engines: the oldest command of a
vector, copy or generation queue that has performed its work, or any matrix command that has; one that has not waits. An `acmv.st` or `vepi`
that releases drops its tile, a `vlds` hands its value on, a `cmirror` records its marker, the values of a generation command come to cm0 to
cm3, and a command of the array leaves it in ballast or to the next. -/
def Obligations.CommandCompletions : Prop :=
  (∀ (core tl : Nat) (c : Cmd) (s : State), (s.core core).cmd 1 tl = some c → c.q = 1 →
    let on := c.runner.getD core
    let ready := c.started = true ∧ c.phase = .running ∧ (c.total ≤ c.done ∨ c.rest ≠ .all ∨ (s.job c.job).cancelled = true)
    (¬ ready → exec (.mxCommandComplete core tl) s = .next s) ∧
    (ready →
      let r := match c.instr with
        | .acmvSt e => if e.fn.getLsbD 1 = true ∧ c.rest = .all then Claims.released s core (numC e) c.wr else s
        | _ => s
      (onArray c.instr = false ∨ c.rest ≠ .all → Claims.EndsSo (exec (.mxCommandComplete core tl) s) r core c) ∧
      (onArray c.instr = true → c.rest = .all → ∃ w a, exec (.mxCommandComplete core tl) s = .next (w.updCore on fun k => { k with array := a }) ∧
        Claims.EndsSo (.next w) r core c ∧ (a = 1 ∨ a = 2) ∧
        ((∀ before h, mxHead w on = some (before, h) → onArray h.instr = false) → a = 1)))) ∧
  (∀ (core : Nat) (c : Cmd) (s : State), headCmd (s.core core) 2 = some c → c.q = 2 →
    (c.phase ≠ .running → exec (.vxCommandComplete core) s = .next s) ∧
    (c.phase = .running →
      let r := match c.instr with
        | .vepi _ => if c.rest = .all then Claims.released s core (bits (c.vals.getD 1 0) 2 0) c.wr else s
        | _ => s
      Claims.EndsSo (exec (.vxCommandComplete core) s) (vldsDeliver r c) core c)) ∧
  (∀ (core : Nat) (co : Bool) (c : Cmd) (s : State), headCmd (s.core core) (if co then 3 else 0) = some c → c.q = (if co then 3 else 0) →
    let cut := (s.job c.job).cancelled = true ∧ c.started = true ∧ (c.phase = .running ∨ c.phase = .waiting)
    (¬ cut → c.phase ≠ .running ∨ c.busy = true → exec (.copyCommandComplete core co) s = .next s) ∧
    (cut ∨ c.phase = .running ∧ c.busy = false ∧ c.rest ≠ .all → Claims.EndsSo (exec (.copyCommandComplete core co) s) s core c) ∧
    (¬ cut → c.phase = .running → c.busy = false → c.rest = .all →
      (cpHandler (cpRecord s c) core c = none → Claims.EndsSo (exec (.copyCommandComplete core co) s) (cpRecord s c) core c) ∧
      ∀ at_ a, cpHandler (cpRecord s c) core c = some (at_, a) →
        (enterArrival (cpRecord s c) at_ a = none → exec (.copyCommandComplete core co) s = .next s) ∧
        ∀ w, enterArrival (cpRecord s c) at_ a = some w → Claims.EndsSo (exec (.copyCommandComplete core co) s) w core c)) ∧
  (∀ (core : Nat) (c : Cmd) (s : State), headCmd (s.core core) 4 = some c → c.q = 4 →
    (c.phase = .waiting → (s.job c.job).cancelled = true → Claims.EndsSo (exec (.gxCommandComplete core) s) s core { c with quiet := true }) ∧
    (c.phase ≠ .running → ¬ (c.phase = .waiting ∧ (s.job c.job).cancelled = true) → exec (.gxCommandComplete core) s = .next s) ∧
    (c.phase = .running → Claims.EndsSo (exec (.gxCommandComplete core) s) (if c.cfg = [] ∨ c.quiet = true ∨ c.rest ≠ .all then s
      else s.updCtx c.ctx fun x => { x with cm := Vector.ofFn fun i : Fin 4 => mapGet 0 c.cfg i.val }) core c)) ∧
  (∀ (l l' : List Cmd) (c : Cmd) (d : Nat), (∀ x ∈ l, x.phase = .finished) → c.phase ≠ .finished →
    drainList (l ++ c :: l') d = (c :: l', (l.getLast?.map (·.num)).getD d)) ∧
  (∀ (k : Core) (c : Cmd), c.q < 4 → c.set < 6 → c.tok = 0xF → 0 < tokens k c.set ((c.q + 3) % 4) → 0 < tokens k c.set (4 + c.q) →
    (∀ i, i < 8 → tokens k c.set i < 8) → ∀ i, i < 8 →
    tokens (popTokens k c) c.set i = (if i = (c.q + 3) % 4 ∨ i = 4 + c.q then tokens k c.set i - 1 else tokens k c.set i) ∧
    tokens (pushTokens k c) c.set i = if i = c.q ∨ i = 4 + (c.q + 3) % 4 then tokens k c.set i + 1 else tokens k c.set i)

/-! ### Starts of engine commands, sectors and the sampler (R213 to R243, R249, R273, R278, R338, R359, R378) -/

/-- A command that has started, its pop tokens taken (R217). -/
def Claims.begun (c : Cmd) : Cmd := { c with tok := c.tok &&& 0x5, phase := .running, started := true }

/-- The state in which a command of a core has popped its tokens. -/
def Claims.popped (s : State) (core : Nat) (c : Cmd) : State := s.updCore core fun k => popTokens k c

/-- R217, R249, R265, R305, R460, R498: the vector command next in order, once its tokens are present and no held slice is in its way, pops its
tokens and either fails, having written nothing, by the first test that it does not pass, or writes all of its destination bytes; one
retried for its tokens or arrival alone has nothing left to perform. -/
def Obligations.VectorStarts : Prop :=
  ∀ (core : Nat) (s : State), (vxNext s core = none → exec (.vxCommandStart core) s = .next s) ∧
    ∀ c, vxNext s core = some c → c.q = 2 →
      (vxReady s core c = false → exec (.vxCommandStart core) s = .next s) ∧
      (vxReady s core c = true →
        let u := Claims.popped s core c
        let b := Claims.begun c
        (c.rest ≠ .all → exec (.vxCommandStart core) s = .next (putCmd u core b)) ∧
        (c.rest = .all →
          (∀ f v, vPlan u core b = .error (f, v) → ∃ t, exec (.vxCommandStart core) s = .next t ∧ Claims.Failed u t core b f v) ∧
          (∀ d wr foot, vPlan u core b = .ok (d, wr, foot) →
            let bad := (∃ v, c.instr = .vepi v) ∧ ∃ k ∈ wr, (u.core core).badTiles.contains k = true
            let g := { b with foot, wr }
            (bad → ∃ t v, exec (.vxCommandStart core) s = .next t ∧ Claims.Failed { u with free := u.free + 1 } t core g 0x28 v) ∧
            (¬ bad →
              (∀ f v, startTests u core g foot true = some (f, v) →
                ∃ t, exec (.vxCommandStart core) s = .next t ∧ Claims.Failed u t core g f v) ∧
              (startTests u core g foot true = none → ∃ t, exec (.vxCommandStart core) s = .next t ∧
                t.mem = (vWrite u core d).mem ∧ t.ctxs = s.ctxs ∧
                (t.core core).queue 2 = ((s.core core).queue 2).map fun x => if x.num = c.num then
                  { g with done := c.total, vflags := c.vflags ||| d.fl, value := d.value } else x)))))

/-- What the start of a matrix command h of a core, on that core's own array or tile port, leaves of a state s: t (R213 to R239, R305, R498). Its
tokens are popped, and the first command of a task opens it. A command retried for its tokens or arrival alone has nothing left to perform. Otherwise
an uncorrectable error in a tile that it reads, an invalid configuration, a paddock, race or poison fails it, and so does a fault of its own effect, an
array it stood on going idle; and one that fails nowhere has its effect, an `mgo` running its nest. -/
def Claims.MxRuns (s t : State) (core : Nat) (h : Cmd) : Prop :=
  let o := openTask (Claims.popped s core h) core { Claims.begun h with runner := none }
  let u := o.1
  let fails (v : State) (g d : Cmd) (f : BitVec 8) (a : W64) : Prop :=
    Claims.Failed (if onArray h.instr then (putCmd v core g).updCore core fun k => { k with array := 1 } else putCmd v core g) t core d f a
  (h.rest ≠ .all → t = putCmd u core o.2) ∧
  (h.rest = .all →
    let x := touches (u.core core).mx o.2
    let b := { o.2 with rd := x.1, wr := x.2 }
    (∀ k, badTile (u.core core) b (x.1 ++ x.2) = some k → ∃ a, fails { u with free := u.free + 1 } b b 0x28 a) ∧
    (badTile (u.core core) b (x.1 ++ x.2) = none →
      ((∀ e, h.instr ≠ .mgo e) →
        let g := { b with foot := mxFoot core (u.core core).mx b none }
        (∀ f a, startTests u core g g.foot true = some (f, a) → fails u g g f a) ∧
        (startTests u core g g.foot true = none →
          (∀ r f a, mxEffect u core core g = .error (r, f, a) → fails r g g f a) ∧
          ∀ r fl, mxEffect u core core g = .ok (r, fl) → t.mem = r.mem ∧ t.ctxs = r.ctxs ∧ (t.core core).mx = (r.core core).mx)) ∧
      ((∃ e, h.instr = .mgo e) →
        let y := takeConfig u core b
        (planOf y.1 core y.2 = none → ∃ a, fails y.1 y.2 y.2 0x30 a) ∧
        ∀ p, planOf y.1 core y.2 = some p →
          let g := { y.2 with foot := mxFoot core (y.1.core core).mx y.2 (some p), total := p.steps }
          (∀ f a, startRace y.1 core g g.foot = some (f, a) → fails y.1 g { g with first := p.index g.done } f a) ∧
          (startRace y.1 core g g.foot = none → t = mxNest (putCmd y.1 core g) core core g p))))

/-- R213, R215, R217, R219, R243, R378: a nest that waits for a physical tile goes on where it can; otherwise the head of a matrix queue, once its
tokens are present, its interlocks satisfied and its resource free, starts; a command of the array takes a start token where the array was idle, and
waits where the bucket is empty. An `rrot` starts with the others of its cluster only. -/
def Claims.MatrixHeads : Prop :=
  ∀ (core : Nat) (s : State), 
    let acc (c : Cmd) : Nat := match c.instr with
      | .mgo e => numC e
      | _ => 0
    let goes (c : Cmd) : Bool := !stopServing s c && !(s.job c.job).cancelled && roomAcz (s.core core).mx (acc c) && roomWrite (s.core core).mx (acc c)
    (∀ c, stalledNest s core = some c → goes c = true → exec (.mxCommandStart core) s = .next (mxResume s core c)) ∧
    ((∀ c, stalledNest s core = some c → goes c = false) →
      (mxHead s core = none → exec (.mxCommandStart core) s = .next s) ∧
      ∀ before h, mxHead s core = some (before, h) → h.q = 1 →
        (isRrot h.instr = true ∧ h.rest = .all ∨ mxReady s core core before h = false ∨ heldFoot s (footNow s core h) = true →
          exec (.mxCommandStart core) s = .next s) ∧
        (¬ (isRrot h.instr = true ∧ h.rest = .all) → mxReady s core core before h = true → heldFoot s (footNow s core h) = false →
          (onArray h.instr = true → h.rest = .all → (s.core core).array = 0 →
            ((s.die (core / 128)).bucket = 0 → exec (.mxCommandStart core) s = .next s) ∧
            ((s.die (core / 128)).bucket ≠ 0 → ∃ u t, exec (.mxCommandStart core) s = .next t ∧ Claims.MxRuns u t core h ∧
              u.core core = { s.core core with array := 2 } ∧ u.mem = s.mem ∧ u.ctxs = s.ctxs ∧
              ∀ d, (u.die d).bucket = if d = core / 128 then (s.die d).bucket - 1 else (s.die d).bucket)) ∧
          (onArray h.instr = true → h.rest = .all → (s.core core).array = 2 →
            ∃ t, exec (.mxCommandStart core) s = .next t ∧ Claims.MxRuns s t core h) ∧
          (onArray h.instr = true → h.rest = .all → (s.core core).array = 1 → (s.die (core / 128)).bucket ≠ 0 →
            ∃ u t, exec (.mxCommandStart core) s = .next t ∧ Claims.MxRuns u t core h ∧ u.core core = { s.core core with array := 2 } ∧
              u.mem = s.mem ∧ u.ctxs = s.ctxs) ∧
          (onArray h.instr = false ∨ h.rest ≠ .all → ∃ t, exec (.mxCommandStart core) s = .next t ∧ Claims.MxRuns s t core h)))

/-- R218, R219, R221, R233 to R239: what the tile-port instructions do when they run: `mcfgr` writes one word of the shadow set and `mcfg` the
parts that fn names, from the slice; `acz` appends a tile to an accumulator whose newest tile is open; `acmv.st` stores the elements of
the oldest tile; `zclr` empties or zeroes a tile register; and `zld` fills one with rows of the slice. -/
def Obligations.TileEffects : Prop :=
  ∀ (e : EArgs) (s : State) (core : Nat) (c : Cmd),
    let m := (s.core core).mx
    (c.instr = .mcfgr e → ∃ t, mxEffect s core core c = .ok (t, 0) ∧ t.mem = s.mem ∧
      ∀ i, mapGet 0 (t.core core).mx.shadow i = if i = (e.fn.extractLsb' 0 6).toNat then c.vals.getD 0 0 else mapGet 0 m.shadow i) ∧
    (c.instr = .mcfg e → ∃ t, mxEffect s core core c = .ok (t, 0) ∧ t.mem = s.mem ∧
      ∀ i, mapGet 0 (t.core core).mx.shadow i =
        if i < 46 ∧ e.fn.getLsbD (if i < 2 then 0 else if i < 14 then 1 else 2 + (i - 14) / 4) = true
        then readW s (sliceKey core ((c.vals.getD 0 0).toNat + 8 * i)) else mapGet 0 m.shadow i) ∧
    (c.instr = .zclrE e → ∃ t, mxEffect s core core c = .ok (t, 0) ∧ t.mem = s.mem ∧
      (t.core core).mx.z = m.z.set! (numC e) { m.z.toList.getD (numC e) {} with full := false }) ∧
    (c.instr = .zclrZ e → ∃ t, mxEffect s core core c = .ok (t, 0) ∧ t.mem = s.mem ∧ (t.core core).mx.z = m.z.set! (numC e) { full := true, img := [] }) ∧
    (c.instr = .zld e → ∃ t, mxEffect s core core c = .ok (t, 0) ∧ t.mem = s.mem ∧
      (t.core core).mx.z = m.z.set! (numC e) { full := true, img :=
        (readRows s (descStream core (c.vals.getD 0 0) (c.vals.getD 1 0)) (bits (c.vals.getD 0 0) 23 0) (bits (c.vals.getD 1 0) 31 24) (zLen e)).flatMap id }) ∧
    (c.instr = .acz e → ∃ t, mxEffect s core core c = .ok (t, 0) ∧ t.mem = s.mem ∧
      accTiles (t.core core).mx (numC e) = if (newestTile m (numC e)).isOpen then accTiles m (numC e) ++ [{ id := s.free + 1 }] else accTiles m (numC e)) ∧
    (c.instr = .acmvSt e → ∃ t, mxEffect s core core c = .ok (t, 0) ∧ (t.core core).mx = m ∧
      t.mem = (writeBytes s (sliceKey core (c.vals.getD 0 0).toNat) ((accElems (oldestTile m (numC e))).flatMap s64Bytes)).mem)

/-- The elements of its first sector that a copy command has not performed when its start fails (R279). -/
def Claims.firstLeft (c : Cmd) : List Nat :=
  if (cpGather c.instr).isNone then [] else if c.pend ≠ [] then c.pend else List.range (min 64 (c.total - c.done))

/-- R217, R273, R275, R279, R290, R305, R460: the head of a copy queue with fewer than four commands performing pops its tokens, declares its
footprint and runs, or fails by the race that the footprint meets; `cpref` has nothing left to do, and neither has a command retried for its
tokens or arrival alone. -/
def Claims.CopyStarts : Prop :=
  ∀ (core : Nat) (co : Bool) (s : State),
    (cpHead (s.core core) (if co then 3 else 0) = none → exec (.copyCommandStart core co) s = .next s) ∧
    ∀ c, cpHead (s.core core) (if co then 3 else 0) = some c → c.q = (if co then 3 else 0) →
      let ready := tokensReady (s.core core) c = true ∧ stopServing s c = false ∧ (s.die (core / 128)).lost = false ∧
        cpPerforming (s.core core) (if co then 3 else 0) < 4
      (¬ ready → exec (.copyCommandStart core co) s = .next s) ∧
      (ready →
        let u := Claims.popped s core c
        let b := { Claims.begun c with idx := c.pend, stamp := if c.pend = [] then 0 else 1, pend := [], value := 0 }
        let f := { b with foot := cpFoot u core b }
        (c.rest ≠ .all → exec (.copyCommandStart core co) s = .next (putCmd u core b)) ∧
        (c.rest = .all →
          (∀ e, c.instr = .cpref e → exec (.copyCommandStart core co) s = .next (putCmd u core { b with done := c.total })) ∧
          ((∀ e, c.instr ≠ .cpref e) →
            (startRace u core f f.foot = none → exec (.copyCommandStart core co) s = .next (putCmd u core f)) ∧
            ∀ a v, startRace u core f f.foot = some (a, v) → ∃ t, exec (.copyCommandStart core co) s = .next t ∧
              Claims.Failed u t core { f with first := (cpMain f).digits f.done, pend := Claims.firstLeft c, idx := [], stamp := 0 } a v)))

/-- R273, R278, R279, R285, R288, R390, R448, R502: a sector of a copy command that is its turn. One that is neither `cgather`, `cscatter` nor
`cmsg` performs whole: where every element passes its checks, all of it, and the command's count advances by the sector, the last sector of a copy to
the network posting its message; where one fails, nothing of it, and the command fails at that sector; where one waits for a page, nothing, and
the command waits. The sector of `cgather` and `cscatter` performs the elements that pass, keeps those that wait, and fails, once none waits,
with those that failed. The payload of `cmsg` lands whole, unless a paddock keeps it off. -/
def Claims.CopySectors : Prop :=
  ∀ (core : Nat) (co : Bool) (tl : Nat) (s : State), ((s.core core).cmd (if co then 3 else 0) tl = none → exec (.copySectorPerform core co tl) s = .next s) ∧
    ∀ c, (s.core core).cmd (if co then 3 else 0) tl = some c → c.q < 5 →
    let due := (c.phase = .running ∨ c.phase = .waiting) ∧ c.busy = true ∧ stopServing s c = false ∧ (s.job c.job).cancelled = false ∧
      cpTurn (s.core core) c = true ∧ heldFoot s c.foot = false
    let n := min (cpSector c) (c.total - c.done)
    let m := min 64 (c.total - c.done)
    (¬ due → exec (.copySectorPerform core co tl) s = .next s) ∧
    (due → (∀ e, c.instr ≠ .cgather e ∧ c.instr ≠ .cscatter e ∧ c.instr ≠ .cmsg e) →
      (waitingReq s (1 + 5 * core + c.q, c.num) = true → exec (.copySectorPerform core co tl) s = .next s) ∧
      (waitingReq s (1 + 5 * core + c.q, c.num) = false →
        (∀ u f v, sectorCheck core c (rangeFrom c.done n) s = .ok (.error (.bad f v), u) → ∃ t, exec (.copySectorPerform core co tl) s = .next t ∧
          Claims.Failed u t core { c with first := (cpMain c).digits c.done, pend := [], idx := [], stamp := 0 } f v) ∧
        (∀ u, sectorCheck core c (rangeFrom c.done n) s = .ok (.error .miss, u) →
          exec (.copySectorPerform core co tl) s = .next (putCmd u core { c with phase := .waiting })) ∧
        ∀ u ps, sectorCheck core c (rangeFrom c.done n) s = .ok (.ok ps, u) →
          let d := { c with phase := .running, done := c.done + n, vflags := c.vflags ||| (moveElts u c ps).2 }
          ((cpMain c).e.space ≠ 5 ∨ c.done + n < c.total →
            exec (.copySectorPerform core co tl) s = .next (putCmd (moveElts u c ps).1 core d)) ∧
          ((cpMain c).e.space = 5 → c.total ≤ c.done + n → let w := (moveElts u c ps).1
            exec (.copySectorPerform core co tl) s =
              .next (putCmd (netPost { w with free := w.free + c.total * cpEs c } ((cpMain c).e.base % 2 ^ 16) c.job (cpPayload w core c)) core d)))) ∧
    (due → (∃ e, c.instr = .cgather e ∨ c.instr = .cscatter e) →
      ∀ wait d u, gatherRun core (if c.stamp = 1 then c.idx else List.range m) [] c s = .ok ((wait, d), u) →
        (wait ≠ [] → exec (.copySectorPerform core co tl) s = .next (putCmd u core { d with phase := .waiting, idx := wait, stamp := 1 })) ∧
        (wait = [] → d.pend = [] →
          exec (.copySectorPerform core co tl) s = .next (putCmd u core { d with phase := .running, done := d.done + m, idx := [], stamp := 0 })) ∧
        (wait = [] → d.pend ≠ [] → d.q < 5 → ∃ t, exec (.copySectorPerform core co tl) s = .next t ∧
          Claims.Failed u t core { d with first := (cpMain d).digits d.done, idx := [], stamp := 0 } d.cause d.faddr)) ∧
    (due → (∃ e, c.instr = .cmsg e) →
      (migratingTo s c.job (c.vals.getD 3 0).toNat = true → exec (.copySectorPerform core co tl) s = .next s) ∧
      (migratingTo s c.job (c.vals.getD 3 0).toNat = false → ∀ a b, cpFoot s core c = [a, b] →
        (∀ v, startPaddock s c [a, b] = some v → ∃ t, exec (.copySectorPerform core co tl) s = .next t ∧
          Claims.Failed s t core { c with first := (cpMain c).digits c.done, pend := [], idx := [], stamp := 0 } 0x0A v) ∧
        (startPaddock s c [a, b] = none → ∃ t, exec (.copySectorPerform core co tl) s = .next t ∧
          t.mem = (writeBytes s b.lo (readBytes s a.lo a.len)).mem ∧ t.ctxs = s.ctxs ∧
          (t.core core).queue c.q = ((s.core core).queue c.q).map fun x => if x.num = c.num then { c with done := c.total } else x)))

/-- How the start of a generation command c with a footprint ends, its body answering r in the state s (R338, R340, R361, R423, R448): the first of
the body's LAYOUT_RIGHTS or LAYOUT_BOUNDS, a paddock, a fault of the body's translations, a wait for a page, a race, poison in what it reads,
and any other fault of the body; a fault fails it with nothing changed; and where there is none, its writes stand and its values and what has joined
its footprint are kept. -/
def Claims.GxRuns (o : Host.Outcome State Fault Refusal) (s : State) (core : Nat) (c : Cmd) (foot : List Foot) (poison : Bool)
    (r : Except Stop ((List W64 × List Foot) × State)) : Prop :=
  let b := { c with phase := .running, started := true, foot }
  let fails (f : BitVec 8) (v : W64) : Prop := ∃ t, o = .next t ∧
    Claims.Failed (dropFailed s (gxWaiter core b)) t core { b with done := 0, first := [], pend := [] } f v
  (∀ f v, r = .error (.trap f v) → f = 0x0A ∨ f = 0x09 → fails f v) ∧
  ((∀ f v, r = .error (.trap f v) → f ≠ 0x0A ∧ f ≠ 0x09) →
    (∀ v, startPaddock s b foot = some v → fails 0x0A v) ∧
    (startPaddock s b foot = none →
      (∀ f v, r = .error (.trap f v) → isXlate f = true → fails f v) ∧
      (∀ f, r = .error (.hold f) → o = .next (putCmd (f s) core { b with phase := .waiting })) ∧
      ((∀ f v, r = .error (.trap f v) → isXlate f = false) → (∀ f, r ≠ .error (.hold f)) →
        (∀ f v, startRace s core b foot = some (f, v) → fails f v) ∧
        (startRace s core b foot = none →
          (∀ v, poison = true → startPoison s foot = some v → fails 0x28 v) ∧
          ((poison = true → startPoison s foot = none) →
            (∀ f v, r = .error (.trap f v) → fails f v) ∧
            ∀ cms more u, r = .ok ((cms, more), u) →
              o = .next (putCmd u core { b with done := c.total, foot := foot ++ more, cfg := cms.zipIdx.map fun (v, i) => (i, v) }))))))

/-- R338, R340, R359, R361, R448, R460, R489: the oldest generation command of a core, not one of the sampler's, that can start runs its body; one
retried for its arrival alone starts to complete. The sampler of a cluster takes the first sampler command in the order of turns, from the core
after the last served, and remembers whom it served. -/
def Obligations.GenerationStarts : Prop :=
  (∀ (core : Nat) (s : State), (headCmd (s.core core) 4 = none → exec (.gxCommandStart core) s = .next s) ∧
    ∀ h, headCmd (s.core core) 4 = some h →
      (h.phase = .queued → h.rest ≠ .all → exec (.gxCommandStart core) s = .next (putCmd s core { h with phase := .running, started := true })) ∧
      (¬ (h.phase = .queued ∧ h.rest ≠ .all) →
        ((∀ c, gxNext s core = some c → isSmp c.instr = true) → exec (.gxCommandStart core) s = .next s) ∧
        ∀ c, gxNext s core = some c → c.q = 4 → isSmp c.instr = false → ∀ poison : Bool, (poison = false ↔ ∃ e, c.instr = .kvtCommit e) →
          Claims.GxRuns (exec (.gxCommandStart core) s) s core c (gxFoot s core c) poison
            ((gxBody core c s).map fun (cms, u) => ((cms, []), u)))) ∧
  (∀ (cl : Nat) (s : State), (samplerBusy s cl = true ∨ (∀ i ∈ samplerTurns s cl, ∀ c, gxNext s i = some c → isSmp c.instr = false) →
      exec (.samplerTake cl) s = .next s) ∧
    ∀ (core : Nat) (c : Cmd), c.q = 4 → samplerBusy s cl = false → gxNext s core = some c → isSmp c.instr = true →
      (∃ l l', samplerTurns s cl = l ++ core :: l' ∧ ∀ i ∈ l, ∀ c, gxNext s i = some c → isSmp c.instr = false) →
      let u := s.updCluster cl fun k => { k with smpLast := core % 8 }
      Claims.GxRuns (exec (.samplerTake cl) s) u core c (smpFoot u core c) true (smpBody core c u))

/-! ### Array events (R230, R240, R241, R378) -/

/-- The direction and length of an `rrot`. -/
def Claims.ring : Instr → Option (Bool × Nat)
  | .rrotUp e => some (true, rrotLen e)
  | .rrotDn e => some (false, rrotLen e)
  | _ => none

/-- Commands that fail one after another, each having popped its tokens: its core, its cause and its faddr, where the spec gives one. -/
def Claims.FailEach : State → State → List (Nat × Cmd × BitVec 8 × Option W64) → Prop
  | s, t, [] => t = s
  | s, t, (core, c, f, v) :: l => ∃ r a, (v = none ∨ v = some a) ∧
      (let o := openTask (Claims.popped (if v.isNone then { s with free := s.free + 1 } else s) core c) core c
       Claims.Failed o.1 r core { o.2 with tok := o.2.tok &&& 0x5, started := true } f a) ∧ Claims.FailEach r t l

/-- R230, R378: an idle sibling takes the head of an owner's matrix queue where the owner's array is busy with the command directly before it
and the other conditions hold, no nearer sibling could take it, the entry is ready and no held slice is in its way; a start of its idle array takes
a start token of its die. (Which sibling of two at one distance: the lower core number.) -/
def Claims.Relocates : Prop :=
  ∀ (owner sibling : Nat) (s : State), (mxHead s owner = none → exec (.mgoRelocation owner sibling) s = .next s) ∧
    ∀ before h, mxHead s owner = some (before, h) →
      let near (i : Nat) : Prop := ringDist owner i < ringDist owner sibling ∨ ringDist owner i = ringDist owner sibling ∧ i < sibling
      let goes := mayTake s owner sibling h = true ∧ (∀ i, i < 8 → mayTake s owner (owner / 8 * 8 + i) h = true → ¬ near (owner / 8 * 8 + i)) ∧
        mxReady s owner sibling before h = true ∧ heldFoot s (footNow s owner h) = false
      let taken (u : State) := exec (.mgoRelocation owner sibling) s = .next (mxStart u owner sibling h) ∧ u.mem = s.mem ∧ u.ctxs = s.ctxs ∧
        ∀ j, u.core j = if j = sibling then { s.core j with array := 2 } else s.core j
      (¬ goes → exec (.mgoRelocation owner sibling) s = .next s) ∧
      (goes → ((s.core sibling).array = 2 → exec (.mgoRelocation owner sibling) s = .next (mxStart s owner sibling h)) ∧
        ((s.core sibling).array = 0 →
          ((s.die (sibling / 128)).bucket = 0 → exec (.mgoRelocation owner sibling) s = .next s) ∧
          ((s.die (sibling / 128)).bucket ≠ 0 → ∃ u, taken u ∧
            ∀ d, (u.die d).bucket = if d = sibling / 128 then (s.die d).bucket - 1 else (s.die d).bucket)) ∧
        ((s.core sibling).array = 1 → exec (.mgoRelocation owner sibling) s = .next s ∧ (s.die (sibling / 128)).bucket = 0 ∨ ∃ u, taken u))

/-- R240, R241: the `rrot`s of a cluster start together only, when the eight heads are the same `rrot` in order of one launch, all whole and
ready. Where their directions or lengths differ, all eight fail with ENGINE_FAULT; where the start tests stop some, those fail; otherwise every
source is read before any destination is written, each region moving to the next core of the ring. -/
def Claims.Rotates : Prop :=
  ∀ (cl : Nat) (s : State),
    let hs := (List.range 8).filterMap fun i => (mxHead s (8 * cl + i)).map fun h => (8 * cl + i, h.1, h.2)
    let together := hs.length = 8 ∧ (∀ h ∈ hs, (Claims.ring h.2.2.instr).isSome = true ∧ h.2.2.rest = .all ∧ mxReady s h.1 h.1 h.2.1 h.2.2 = true) ∧
      ∀ h ∈ hs, ∀ g ∈ hs, h.2.2.job = g.2.2.job ∧ h.2.2.nth = g.2.2.nth
    (¬ together → exec (.rrotCollectiveStart cl) s = .next s) ∧
    (together → (∀ h ∈ hs, h.2.2.q = 1) → (∃ h ∈ hs, ∃ g ∈ hs, Claims.ring h.2.2.instr ≠ Claims.ring g.2.2.instr) → ∃ t, exec (.rrotCollectiveStart cl) s = .next t ∧
      Claims.FailEach s t (hs.map fun h => (h.1, h.2.2, 0x30, none))) ∧
    (together → ∀ up n, (∀ h ∈ hs, Claims.ring h.2.2.instr = some (up, n)) →
      let src (h : Nat × List Cmd × Cmd) : Nat := sliceKey h.1 (h.2.2.vals.getD 0 0).toNat
      let dst (h : Nat × List Cmd × Cmd) : Nat := sliceKey (h.1 / 8 * 8 + (h.1 % 8 + (if up then 1 else 7)) % 8) (h.2.2.vals.getD 1 0).toNat
      let foot (h : Nat × List Cmd × Cmd) : List Foot := [⟨src h, n, false, true, false⟩, ⟨dst h, n, true, true, false⟩]
      let stops := hs.filterMap fun h => (startTests s h.1 h.2.2 (foot h) true).map fun r => (h.1, h.2.2, r.1, some r.2)
      ((∃ h ∈ hs, heldFoot s (foot h) = true) → exec (.rrotCollectiveStart cl) s = .next s) ∧
      ((∀ h ∈ hs, heldFoot s (foot h) = false) →
        (stops ≠ [] → (∀ h ∈ hs, h.2.2.q = 1) → ∃ t, exec (.rrotCollectiveStart cl) s = .next t ∧ Claims.FailEach s t stops) ∧
        (stops = [] → ∃ t, exec (.rrotCollectiveStart cl) s = .next t ∧ t.ctxs = s.ctxs ∧
          t.mem = (hs.foldl (fun u h => storeBytes u (dst h) (readBytes s (src h) n)) s).mem)))

/-- R230, R240, R241, R378: a die's bucket takes one start token, up to eight; the nearest sibling that may take the head of an owner's queue runs it
on its own array; and the eight heads of a cluster that are the same `rrot` of one launch move together. -/
def Claims.ArrayEvents : Prop :=
  (∀ (die : Nat) (s : State), ∃ t, exec (.startTokenRefill die) s = .next t ∧ t = { s with dies := t.dies } ∧
    ∀ d, t.die d = if d = die then { s.die d with bucket := min 8 ((s.die d).bucket + 1) } else s.die d) ∧ Claims.Relocates ∧ Claims.Rotates

/-! ### Units, steps, limits and the ends of launches (R28, R31, R43 to R57, R156, R332, R333, R408, R420, R461, R462) -/

/-- The unit of a lane of a core. -/
def Claims.unit (s : State) (core lane : Nat) : Option UnitSt := (s.core core).units.toList.getD lane none

/-- R43, R44, R54, R332: a launch whose records are all dealt, or that is cancelled, deals none; a chunk has max(cmin, ceil(left / (k × holders))) records
of those left. Records that came back go first, their lowest run at most; otherwise the record counter gives them. After a chunk of a job at a
fixed level the turn passes to the job after it. -/
def Claims.Chunks : Prop :=
  ∀ (s : State) (d id : Nat),
    let j := s.job id
    let want := max j.cmin ((j.left + j.k * max 1 (holders s id) - 1) / (j.k * max 1 (holders s id)))
    let turns (w : State) : Prop := ∀ i l, mapGet 0 (w.die i).turns l = if i = d ∧ l = j.prio ∧ 1 ≤ j.prio ∧ j.prio ≤ 7 then j.seq + 1 else mapGet 0 (s.die i).turns l
    (j.dealing = false → takeChunk s d id = none) ∧
    (j.dealing = true → j.returned = [] → ∃ w, takeChunk s d id = some (j.next, min j.rem want, w) ∧ turns w ∧ w.ctxs = s.ctxs ∧
      w.job id = { j with next := j.next + min j.rem want, rem := j.rem - min j.rem want }) ∧
    (j.dealing = true → ∀ f n t, j.returned = (f, n) :: t → let m := min n (min j.left want)
      ∃ w, takeChunk s d id = some (f, m, w) ∧ turns w ∧ w.ctxs = s.ctxs ∧
        w.job id = { j with returned := if m < n then (f + m, n - m) :: t else t })

/-- R43 to R46, R332: the dealer gives a free lane the first record of a chunk of the job that it serves: each context of the unit starts at the entry, its
role's bundle in a role triple, with x1 the record's buffer, x2 its index and x3 the launch's id, at trap level 0, its watchdog clear; a unit
of that job that was pre-empted resumes first. The next record of a chunk is deposited in the buffer that the running task does not use. -/
def Claims.UnitStarts : Prop :=
  (∀ (core lane : Nat) (s : State), chooseJob s core lane = none → exec (.unitDispatch core lane) s = .next s) ∧
  (∀ (core lane id : Nat) (v : SavedUnit) (s : State), chooseJob s core lane = some id → resumable s id core lane = some v →
    exec (.unitDispatch core lane) s = .next (resumeUnit s v core)) ∧
  (∀ (core lane id : Nat) (s : State), lane < 3 → chooseJob s core lane = some id → resumable s id core lane = none →
    let j := s.job id
    let u : UnitSt := { job := id, triple := j.triple, lcore := ((j.cores.find? fun p => p.2 == core).map (·.1)).getD 0 }
    let o := takeChunk (setUnit s core lane (some u)) (core / 128) id
    ((o = none ∨ ∃ f w, o = some (f, 0, w)) → exec (.unitDispatch core lane) s = .next s) ∧
    ∀ f n w, o = some (f, n, w) → n ≠ 0 → ∃ t, exec (.unitDispatch core lane) s = .next t ∧
      Claims.unit t core lane = some { u with next := f + 1, left := n - 1, tasks := 1, cur := f, began := s.time, stale := true } ∧
      ∀ c ∈ unitCtxs core lane u, (t.ctx c).run = .live ∧ (t.ctx c).pc = j.entry + BitVec.ofNat 57 (if j.triple then 16 * (c % 8) else 0) ∧
        (t.ctx c).x.get 1 = w64 (bufOff lane 0) ∧ (t.ctx c).x.get 2 = w64 f ∧ (t.ctx c).x.get 3 = w64 id ∧ (t.ctx c).tlevel = 0 ∧
        (t.ctx c).empty = 0 ∧ (t.ctx c).wdog = 0 ∧ (t.ctx c).job = id ∧ (t.ctx c).region = (s.ctx c).region + 1) ∧
  Claims.Chunks ∧
  (∀ (core lane : Nat) (s : State), Claims.unit s core lane = none → exec (.recordDeposit core lane) s = .next s) ∧
  (∀ (core lane : Nat) (u : UnitSt) (s : State), lane < 3 → Claims.unit s core lane = some u →
    (u.left ≠ 0 ∧ u.tasks ≠ 0 ∧ u.deposited = none ∧ u.closing = false →
      ∃ t, exec (.recordDeposit core lane) s = .next t ∧ t.mem = (depositRecord s core lane u.job u.next (u.tasks % 2)).mem ∧ t.ctxs = s.ctxs ∧
        Claims.unit t core lane = some { u with deposited := some u.next }) ∧
    (¬ (u.left ≠ 0 ∧ u.tasks ≠ 0 ∧ u.deposited = none ∧ u.closing = false) → exec (.recordDeposit core lane) s = .next s))

/-- A unit leaves its core (R47, R48, R174): its lane is free, and its contexts' registers are kept under the next handle. -/
def Claims.Saves (s t : State) (core lane : Nat) (u : UnitSt) : Prop :=
  Claims.unit t core lane = none ∧ t.nextHandle = s.nextHandle + 1 ∧
    ∃ v, t.saved = s.saved ++ [v] ∧ v.handle = s.nextHandle ∧ v.core = core ∧ v.lane = lane ∧ v.unit.job = u.job ∧ v.suspended = u.saver.isSome ∧
      v.ctxs = (unitCtxs core lane u).map fun c => (c % 8, savedCtx (s.ctx c))

/-- R47, R50, R241, R333, R462 to R464: a request of the scheduler marks the unit and wakes its contexts from `idle`; a unit whose contexts all stand at
pre-emption points, whose commands have completed and whose register writes have arrived is saved, or goes on where its request is gone; a unit that is
forcibly pre-empted is saved once nothing of it runs; and a saved unit resumes on a core of its die with its lane free, or at the target of its
migration. -/
def Claims.Preemption : Prop :=
  (∀ (victim job : Nat) (s : State), (mayRequest s victim job = false → exec (.preemptionRequest victim job) s = .next s) ∧
    (mayRequest s victim job = true → victim % 8 < 3 → ∀ u, unitAt s victim = some u → ∃ t, exec (.preemptionRequest victim job) s = .next t ∧ t.mem = s.mem ∧
      unitAt t victim = some { u with req := some job } ∧
      ∀ c, (t.ctx c) = if c ∈ unitCtxs (victim / 8) (victim % 8) u ∧ (s.ctx c).run = .idle then { s.ctx c with run := .live } else s.ctx c)) ∧
  (∀ (ctx : Nat) (s : State), unitOf s ctx = none → exec (.preemptionSave ctx) s = .next s ∧ exec (.forcedPreemptionSave ctx) s = .next s) ∧
  (∀ (ctx lane : Nat) (u : UnitSt) (s : State), unitOf s ctx = some (lane, u) →
    let cs := unitCtxs (coreOf ctx) lane u
    let stand := u.forced = false ∧ ∀ c ∈ cs, (s.ctx c).atPoint = true
    let quiet := (∀ c ∈ cs, banked s c = false ∧ (s.ctx c).before = none) ∧ Machine.drained s (coreOf ctx) cs = true
    (stand → stopsFor s (coreOf ctx) lane u = false → exec (.preemptionSave ctx) s = .next (goOn s (coreOf ctx) lane u)) ∧
    (stand → stopsFor s (coreOf ctx) lane u = true → quiet → ∃ t, exec (.preemptionSave ctx) s = .next t ∧ Claims.Saves s t (coreOf ctx) lane u) ∧
    (¬ stand ∨ stopsFor s (coreOf ctx) lane u = true ∧ ¬ quiet → exec (.preemptionSave ctx) s = .next s) ∧
    let asks (c : Nat) : Prop := ∃ w ∈ (s.ctx c).waits.toList, ∃ p, w = .launch p
    let still := (∀ c ∈ cs, (s.ctx c).atPoint = true ∧ banked s c = false ∧ ¬ asks c) ∧
      ∀ q < 5, ∀ c ∈ (s.core (coreOf ctx)).queue q, c.ctx ∈ cs → stillRuns c = false
    (u.forced = true → still → ∃ t, exec (.forcedPreemptionSave ctx) s = .next t ∧ Claims.Saves s t (coreOf ctx) lane u) ∧
    (u.forced = false ∨ ¬ still → exec (.forcedPreemptionSave ctx) s = .next s)) ∧
  (∀ (h core lane : Nat) (s : State), ((s.saved.find? fun v => v.handle == h) = none → exec (.unitResumption h core lane) s = .next s) ∧
    ∀ v, (s.saved.find? fun v => v.handle == h) = some v →
      let free := v.suspended = false ∧ v.core / 128 = core / 128 ∧ moveTarget s v = none ∧ (s.job v.unit.job).covers core = true ∧
        laneFree s core lane v.unit.triple = true ∧ chooseJob s core lane = some v.unit.job
      (v.lane = lane ∧ (moveTarget s v = some core ∨ free) → exec (.unitResumption h core lane) s = .next (resumeUnit s v core)) ∧
      (¬ (v.lane = lane ∧ (moveTarget s v = some core ∨ free)) → exec (.unitResumption h core lane) s = .next s))

/-- A context that leaves the point at which it stands to take a fault before its next bundle (R407, R408): the fault and its value. -/
def Claims.FaultsBefore (s t : State) (ctx : Nat) (cause : BitVec 8) (v : W64) : Prop :=
  t.mem = s.mem ∧ (t.ctx ctx).before = some (cause, v) ∧ (t.ctx ctx).pc = (s.ctx ctx).pc ∧ (t.ctx ctx).expired = (s.ctx ctx).expired + 1 ∧
    (t.ctx ctx).run = .live ∧ ∀ c, c ≠ ctx → t.ctx c = s.ctx c

/-- R49, R156, R461, R462: a context whose count reaches the limit of its launch once more leaves the point at which it stands and takes WATCHDOG before its
next bundle, with the limit as its value, or, where a pre-emption is pending, its unit is stopped by force; a handler's limit is the `sr.hlimit` with
which it started. -/
def Claims.Limits : Prop :=
  (∀ (ctx : Nat) (s : State), unitOf s ctx = none → exec (.watchdogExpiry ctx) s = .next s) ∧
  (∀ (ctx lane : Nat) (u : UnitSt) (s : State), unitOf s ctx = some (lane, u) →
    let lim := (s.job u.job).climit
    ((s.ctx ctx).resident = false ∨ u.forced = true ∨ lim = 0 ∨ (s.ctx ctx).wdog.toNat < lim * ((s.ctx ctx).expired + 1) →
      exec (.watchdogExpiry ctx) s = .next s) ∧
    ((s.ctx ctx).resident = true → u.forced = false → lim ≠ 0 → lim * ((s.ctx ctx).expired + 1) ≤ (s.ctx ctx).wdog.toNat →
      (pendingFor s (coreOf ctx) lane u = false → ∃ t, exec (.watchdogExpiry ctx) s = .next t ∧ Claims.FaultsBefore s t ctx 0x21 (w64 lim)) ∧
      (pendingFor s (coreOf ctx) lane u = true → lane < 3 → ∃ t, exec (.watchdogExpiry ctx) s = .next t ∧
        Claims.unit t (coreOf ctx) lane = some { u with forced := true } ∧
        ∀ c ∈ unitCtxs (coreOf ctx) lane u, (t.ctx c).run ≠ .live ∧ (t.ctx c).run ≠ .idle))) ∧
  ∀ (ctx : Nat) (s : State),
    (isHandler ctx = false ∨ (s.ctx ctx).resident = false ∨ (s.ctx ctx).wdog.toNat < (s.ctx ctx).hlimit.toNat * ((s.ctx ctx).expired + 1) →
      exec (.handlerLimitExpiry ctx) s = .next s) ∧
    (isHandler ctx = true → (s.ctx ctx).resident = true → (s.ctx ctx).hlimit.toNat * ((s.ctx ctx).expired + 1) ≤ (s.ctx ctx).wdog.toNat →
      ∃ t, exec (.handlerLimitExpiry ctx) s = .next t ∧ Claims.FaultsBefore s t ctx 0x21 (s.ctx ctx).hlimit)

/-- An asynchronous fault taken at trap level 0 (R408, R409): the bank of level 1 holds its cause with the flag of such faults, where the context stood, and a
value. -/
def Claims.EntersAsync (s t : State) (ctx : Nat) (cause : BitVec 8) (v : W64) : Prop :=
  (t.ctx ctx).tlevel = 1 ∧ (t.ctx ctx).iss = none ∧ (t.ctx ctx).pc = BitVec.ofNat 57 ((s.ctx ctx).tvec.toNat / 16 % 2 ^ 53 * 16) ∧
    (t.ctx ctx).bank1 = ⟨w64 (cause.toNat + 256), epcWord (s.ctx ctx).pc (resumePoint (s.ctx ctx)).1 (resumePoint (s.ctx ctx)).2, v⟩

/-- R408, R410, R416, R473: a fault of an engine, else a missed deadline, reaches a context at level 0 between its bundles, once no access of it waits at
another core. A command's record is written first; where it cannot be, the context is killed, kind 3; where there is no vector, kind 1, and a missed
deadline is dropped. -/
def Claims.Delivers : Prop :=
  ∀ (ctx : Nat) (s : State),
    let open_ := (s.ctx ctx).resident = true ∧ (s.ctx ctx).tlevel = 0 ∧ (s.ctx ctx).between = true ∧ ∀ l v, unitOf s ctx = some (l, v) → v.forced = false
    (¬ open_ ∨ banked s ctx = true ∨ nextFailed s ctx = none ∧ (s.ctx ctx).miss = none → exec (.asyncFaultDelivery ctx) s = .next s) ∧
    (open_ → banked s ctx = false → ∀ c, nextFailed s ctx = some c →
      let w := putCmd (orFlags (leavePoint s ctx) ctx c.vflags c.mflags) (coreOf ctx) { c with phase := .delivered, vflags := 0, mflags := 0 }
      let num := w64 (presentNum w c.job c.lcore (coreOf ctx) c.q c.num)
      (writeRecord w ctx (recordOf w c) = none → exec (.asyncFaultDelivery ctx) s =
        .next (killCtx w ctx 3 c.cause (epcWord (s.ctx ctx).pc (resumePoint (s.ctx ctx)).1 (resumePoint (s.ctx ctx)).2) num)) ∧
      ∀ u, writeRecord w ctx (recordOf w c) = some u → ((s.ctx ctx).iss.getD {}).late = [] →
        ((s.ctx ctx).tvec.toNat / 16 % 2 ^ 53 = 0 → exec (.asyncFaultDelivery ctx) s = .next (killCtx (withdraw u ctx) ctx 1 c.cause
          (epcWord (s.ctx ctx).pc (resumePoint (s.ctx ctx)).1 (resumePoint (s.ctx ctx)).2) num)) ∧
        ((s.ctx ctx).tvec.toNat / 16 % 2 ^ 53 ≠ 0 → ∃ t, exec (.asyncFaultDelivery ctx) s = .next t ∧ t.mem = u.mem ∧
          Claims.EntersAsync s t ctx c.cause num)) ∧
    (open_ → banked s ctx = false → nextFailed s ctx = none → ∀ v, (s.ctx ctx).miss = some v →
      ((s.ctx ctx).tvec.toNat / 16 % 2 ^ 53 = 0 → exec (.asyncFaultDelivery ctx) s = .next (s.updCtx ctx fun x => { x with miss := none })) ∧
      ((s.ctx ctx).tvec.toNat / 16 % 2 ^ 53 ≠ 0 → ((s.ctx ctx).iss.getD {}).late = [] →
        ∃ t, exec (.asyncFaultDelivery ctx) s = .next t ∧ t.mem = s.mem ∧ Claims.EntersAsync s t ctx 0x23 v))

/-- R32, R49, R156, R166, R408, R420, R461, R462, R473: the limits on running time; a wake time that is reached ends `idle`; a role context of a cancelled launch
that waits, or that stands at a pre-emption point, stops without a trap; and a fault of an engine reaches a context at level 0 between its bundles. -/
def Claims.RunningLimits : Prop :=
  Claims.Limits ∧ Claims.Delivers ∧
  (∀ (ctx : Nat) (s : State), exec (.wakeTimeReached ctx) s = .next (if (s.ctx ctx).run = .idle ∧ (s.ctx ctx).wake ≠ 0 ∧ (s.ctx ctx).wake.toNat ≤ s.time
      then s.setCtx ctx { s.ctx ctx with run := .live } else s)) ∧
  ∀ (ctx : Nat) (s : State),
    let stops := isHandler ctx = false ∧ (s.job (s.ctx ctx).job).cancelled = true ∧ (unitOf s ctx).isSome = true ∧
      ((s.ctx ctx).run = .idle ∨ (s.ctx ctx).run = .atStep ∨ (s.ctx ctx).run = .ended ∨ (s.ctx ctx).run = .stopped ∨
        (s.ctx ctx).run = .live ∧ waitsNow s ctx = true)
    (stops → ∃ t, exec (.cancelWaitTimeout ctx) s = .next t ∧ (t.ctx ctx).run = .halted ∧ (t.ctx ctx).iss = none ∧ (t.ctx ctx).before = none ∧
      (∀ p, (t.ctx ctx).ports.get p = none) ∧ t.jobs = s.jobs) ∧
    (¬ stops → exec (.cancelWaitTimeout ctx) s = .next s)

/-- R51 to R57, R154, R205, R420: once every context of a launch stands at `step` and its commands have completed, the contexts go on, those of saved units too,
and where no die is lost, none is asked back and none is to be added, the launch keeps its dies; a launch with nothing left to run or to land ends: its end
field, then csig, are written, and the launch is done. -/
def Claims.LaunchSteps : Prop :=
  (∀ (job : Nat) (s : State), stepReady s job = false → exec (.stepRelease job) s = .next s) ∧
  (∀ (job : Nat) (s : State), stepReady s job = true → (∀ d ∈ (s.job job).dies, (s.die d).lost = false) →
    bits ((s.job job).w 0) 28 26 ≤ (s.job job).dies.length → (s.job job).dies.length ≤ bits ((s.job job).w 0) 25 23 →
    ∃ t, exec (.stepRelease job) s = .next t ∧ t.mem = s.mem ∧ t.jobs = s.jobs ∧
      (∀ c, t.ctx c = if c ∈ ctxsOf s job ∧ (s.ctx c).run = .atStep then { s.ctx c with run := .live, stepGo := true } else s.ctx c) ∧
      t.saved = s.saved.map fun v => if v.unit.job = job then
        { v with ctxs := v.ctxs.map fun p => (p.1, if p.2.run = .atStep then { p.2 with run := .live, stepGo := true } else p.2) } else v) ∧
  (∀ (job : Nat) (s : State), job = 0 ∨ launchDone s job (s.job job) = false → exec (.launchCompletion job) s = .next s) ∧
  (∀ (job : Nat) (s : State), job ≠ 0 → launchDone s job (s.job job) = true →
    let j := s.job job
    let e := if j.cancelled then 2 else 1
    let v := if j.cancelled then dropTxs s job else s
    let u := devStore v j.fn (bits (j.w 8) 56 0 + 0x240) 8 (j.nkill * 2 ^ 32 + e)
    ∃ t, exec (.launchCompletion job) s = .next t ∧ t.job job = { j with fin := e } ∧ t.ctxs = s.ctxs ∧
      t.mem = (if j.csig = 0 then u else devStore u j.fn j.csig 8 (j.w 11).toNat).mem)

/-! ### Encodings, the step, reset and the form of memory -/

/-- REP stands in slot 0 alone (R124). -/
def Claims.slotZeroOnly : Instr → Bool
  | .rep _ _ _ _ => true
  | _ => false

/-- R112, R113, R120 to R132: a well-formed instruction's word and bundle immediate decode to it, with every operand at every value. -/
def Obligations.DecodeEncode : Prop :=
  ∀ (slot1 : Bool) (i : Instr) (e : Enc), i.wf = true → encode slot1 i = some e → (Claims.slotZeroOnly i = true → slot1 = false) →
    decodeSyllable slot1 e.bimm e.word = .ok i

/-- R123 to R133: what decodes is a well-formed instruction, its word is that instruction's only encoding in the slot, and the bits of the bundle
immediate that the instruction uses are those of its encoding; so no two words of a slot, and no reserved bit, mean the same. -/
def Obligations.DecodeIsEncoded : Prop :=
  ∀ (slot1 : Bool) (bimm : BitVec 16) (w : Syl) (i : Instr), decodeSyllable slot1 bimm w = .ok i →
    i.wf = true ∧ ∃ e, encode slot1 i = some e ∧ e.word = w ∧ e.bimm = bimm &&& bimmMask slot1 i

/-- The state makes a major opcode illegal, whatever its fields hold: `tret` at level 0, `tend` at a higher level, `step` there or in a handler, and `pacq`
in a handler (R154, R155, R158, R374). -/
def Claims.IllegalHere (s : State) (w : Syl) : Prop :=
  let m := (w.extractLsb' 40 8).toNat
  m = 0x3B ∧ s.me.tlevel = 0 ∨ m = 0x38 ∧ s.me.tlevel ≠ 0 ∨ m = 0x37 ∧ (s.me.tlevel ≠ 0 ∨ isHandler s.cur = true) ∨ m = 0x78 ∧ isHandler s.cur = true

/-- R119, R120, R124, R133: a word whose major opcode the table does not assign, 0 and 0xF0 to 0xFD among them, does not decode in either slot, nor does REP in
slot 1; such a word traps at issue with ILLEGAL_INSTR, or RESERVED_FIELD where only a reserved field is wrong and the state does not make the instruction
illegal, and the syllable as its value. -/
def Obligations.UnassignedEncodings : Prop :=
  (∀ (slot1 : Bool) (bimm : BitVec 16) (w : Syl), formatOf (w.extractLsb' 40 8).toNat = none →
    decodeSyllable slot1 bimm w = .error .illegal) ∧
  (∀ (bimm : BitVec 16) (w : Syl), (w.extractLsb' 40 8).toNat = 0xFE → decodeSyllable true bimm w = .error .illegal) ∧
  (∀ m, 256 ≤ m ∨ m = 0 ∨ 0xF0 ≤ m ∧ m ≤ 0xFD → formatOf m = none) ∧
  ∀ (w : Syl) (s : State), let k := s.me.iss.getD {}
    let d := decodeSyllable k.slot1 (unpackHeader k.hdr).bimm w
    (d = .error .reserved → ¬ Claims.IllegalHere s w → IssueTraps (.unassignedEncoding w) s 0x02 (w.setWidth 64)) ∧
    (d ≠ .error .reserved ∨ Claims.IllegalHere s w → IssueTraps (.unassignedEncoding w) s 0x01 (w.setWidth 64))

/-- R115, R142, R148, R150, R178, R184, R192, R205, R217, R248, R280, R338: words written out from the encoding of one instruction of each family. -/
def Obligations.DecodeWords : Prop :=
  decodeTableWord 48 0x011461C00000 = some (.add ⟨5, 6, false, .reg 7 false⟩) ∧
  decodeSyllable true 0x1234 0x1B100156789A = .ok (.movi 4 (.wide 0x123456789A)) ∧
  decodeSyllable false 5 0x300D80000002 = .ok (.br ⟨6, 3, false, 5, 2⟩) ∧
  decodeTableWord 48 0x3D0050000010 = some (.srw ⟨5, false⟩ 0x010) ∧
  decodeTableWord 48 0x402090020010 = some (.ldl 2 false 8 ⟨9, false⟩ 16) ∧
  decodeTableWord 48 0x561881C90012 = some (.amoSwap ⟨6, 8, false, false, some 7, true, 2, 4⟩) ∧
  decodeTableWord 48 0x610001010001 = some (.tlwait ⟨1, 1, false, ⟨0, false⟩, ⟨4, false⟩⟩) ∧
  decodeTableWord 48 0x6C1051800007 = some (.send 4 ⟨5, false⟩ ⟨6, false⟩ 7) ∧
  decodeTableWord 48 0x830003006200 = some (.mma ⟨false, false, false, false, false, false, 0, 12, 0, 0x6200⟩) ∧
  decodeTableWord 48 0xA01461C87000 = some (.vadd ⟨5, 6, 7, 8, 7, 0, 0, 0, 0⟩) ∧
  decodeTableWord 48 0xD04070000000 = some (.cpin ⟨false, true, false, false, false, false, 7, 0, 0, 0⟩) ∧
  decodeTableWord 48 0xE30041466000 = some (.ctrProp ⟨false, false, false, false, false, false, 4, 5, 6, 0x6000⟩)

/-- The bundle b stands at the program counter of context c, and v is the state after it has been fetched: the address translates with the
execute right, no request of the fetch is open, and the bytes are neither poisoned nor lost (R112, R149, R313). -/
def Claims.BundleAt (s : State) (c : Nat) (b : Bundle) (v : State) : Prop :=
  ∃ (q : XReq) (k : Nat) (fill : Option Tlb),
    q = { part := partOf s c, cluster := some (clusterOf c), va := (s.ctx c).pc.toNat, x := true, waiter := (0, c) } ∧
    openWait s q = false ∧ failedWait s q = false ∧ translate s q = .ok k fill ∧ noMemory k = false ∧
    v = { s with tlb := fill.toList ++ s.tlb } ∧ poisoned v k 16 = false ∧ lostKey v k = false ∧ bundleOfBytes (readBytes v k 16) = b

/-- The bundle of two decoded syllables issues in state v: its header wait is met, neither syllable, nor any repetition of slot 1, faults at issue, they break
no rule together, and no register, port, queue or access under way holds it (R114 to R119, R122, R125, R190, R295). -/
def Claims.MayIssue (v : State) (c : Nat) (b : Bundle) (i0 i1 : Instr) : Prop :=
  let h := unpackHeader b.hdr
  let r := repOf i0
  let src := srcsOf (rankOf v c) i0 ++ (if r.isSome then [] else before h (.ok i0) (srcsOf (rankOf v c) i1))
  let dst := dstsOf i0 ++ (if r.isSome then [] else dstsOf i1)
  decodeSyllable false h.bimm b.s0 = .ok i0 ∧ decodeSyllable true h.bimm b.s1 = .ok i1 ∧
  headerFault v c h (.ok i0) (.ok i1) = none ∧ waitMet v c h = true ∧ sylFault v c h b.s0 (.ok i0) = none ∧
  (r = none → sylFault1 v c h (.ok i0) b.s1 (.ok i1) = none) ∧
  (∀ cnt ds as bs, r = some (cnt, ds, as, bs) → notRepeatable b.s1 i1 = false ∧ repFault v c h b.s1 cnt.toNat ds.toNat as.toNat bs.toNat = none) ∧
  pairFault h i0 i1 = false ∧ emptyBlock (v.ctx c) (src ++ dst.map plain) = false ∧ portBlock v (v.ctx c) src dst = false ∧
  queuesFree v c [i0, i1] = true ∧ orderBlock v c i0 = false ∧ orderBlock v c i1 = false

/-- Context c has a turn at issue in state v (R26, R27, R116): the rest of its bundle follows at once, or it is the next of the agenda; and it may issue, the handler
of its lane not being ready. -/
def Claims.Turn (s v : State) (c : Nat) : Prop :=
  (s.me.midBundle = true ∧ c = s.cur ∧ v = s ∨ s.me.midBundle = false ∧ ∃ t, s.agenda = .issue c :: t ∧ v = { s with agenda := t }) ∧ canIssue v c = true

/-- Nothing reaches context c before its next bundle: no fault of an engine, no fault of its own that is due, no missed deadline, and no wait at the arbiter
(R374, R407, R408). -/
def Claims.Undisturbed (s : State) (c : Nat) : Prop :=
  ((s.ctx c).tlevel ≠ 0 ∨ nextFailed s c = none ∧ (s.ctx c).miss = none) ∧ (s.ctx c).before = none ∧ ∀ w ∈ (s.die (dieOf c)).waiters, w.1 ≠ c

/-- R26, R112, R116, R117, R119, R125, R158: a context's turn runs the instruction that stands at its program counter: `step` is `exec` of slot 0's instruction, in the state
in which the bundle is in issue, with slot 1's sources as they stood before where S = 0; then of slot 1's, with the stepped fields of its repetition; and of slot 1's alone where
the resume point names it. The bundle is held back where slot 1 would wait at issue with S = 0, and an e bit of slot 1 on a register that slot 0 emptied takes the whole
bundle back (`settleOutcome`). A step of the device or an input from outside is `exec` of it. -/
def Obligations.StepRunsDecoded : Prop :=
  (∀ (s w u v : State) (c : Nat) (b : Bundle) (i0 i1 : Instr), Claims.Turn s w c → u = { w with cur := c } →
    (u.ctx c).iss = none → (u.ctx c).slot = false → (u.ctx c).rep = 0 → Claims.Undisturbed u c → Claims.BundleAt u c b v → Claims.MayIssue v c b i0 i1 →
    let h := unpackHeader b.hdr
    let z := v.setCtx c { v.ctx c with
      iss := some { hdr := b.hdr, s0 := b.s0, s1 := b.s1, rep := repOf i0, syl := b.s0
                    snap := if h.s || (repOf i0).isSome then none else some (v.ctx c).x }
      region := if h.wsel != 0 && !(v.ctx c).acq then (v.ctx c).region + 1 else (v.ctx c).region
      acq := h.wsel != 0 }
    step s = match heldBySlot1 z c with
      | some t => .next t
      | none => settleOutcome z c (exec i0 z)) ∧
  (∀ (s w u : State) (c : Nat) (k : Issue) (w1 : Syl) (i1 : Instr), Claims.Turn s w c → u = { w with cur := c } → (u.ctx c).iss = some k → k.slot1 = true →
    k.halting = false → k.leaving = false → (∀ x ∈ (u.die (dieOf c)).waiters, x.1 ≠ c) → (k.waited = true → Claims.Undisturbed u c) →
    slot1Word k.rep k.s1 k.j.toNat = some w1 → decodeSyllable true (unpackHeader k.hdr).bimm w1 = .ok i1 →
    let z := u.updCtx c fun x => { x with iss := some { k with syl := w1 } }
    emptyBlock (z.ctx c) ((dstsOf i1).map plain) = false → orderBlock z c i1 = false → step s = settleOutcome z c (exec i1 z)) ∧
  (∀ (s w u v : State) (c : Nat) (b : Bundle) (d0 : Dec) (w1 : Syl) (i1 : Instr), Claims.Turn s w c → u = { w with cur := c } → (u.ctx c).iss = none →
    (u.ctx c).slot = true ∨ (u.ctx c).rep ≠ 0 → Claims.Undisturbed u c → Claims.BundleAt u c b v →
    let h := unpackHeader b.hdr
    let d1 := decodeSyllable true h.bimm b.s1
    let r := match d0 with
      | .ok i0 => repOf i0
      | .error _ => none
    decodeSyllable false h.bimm b.s0 = d0 → headerFault v c h d0 d1 = none → (r = none → (v.ctx c).rep = 0 ∧ sylFault v c h b.s1 d1 = none) →
    (∀ x, r = some x → (v.ctx c).rep.toNat ≤ x.1.toNat) → slot1Word r b.s1 (v.ctx c).rep.toNat = some w1 → decodeSyllable true h.bimm w1 = .ok i1 →
    let z := v.updCtx c fun x => { x with iss := some { hdr := b.hdr, s0 := b.s0, s1 := b.s1, slot1 := true, rep := r, j := x.rep, syl := w1, leave := x.keptLeave } }
    emptyBlock (z.ctx c) ((dstsOf i1).map plain) = false → orderBlock z c i1 = false → step s = settleOutcome z c (exec i1 z)) ∧
  (∀ (s : State) (t : List Sched) (i : Instr), s.me.midBundle = false → s.agenda = .event i :: t → step s = exec i { s with agenda := t }) ∧
  ∀ (s : State), s.me.midBundle = false → s.agenda = [] → step s = stepSched (choice s) { s with free := s.free + 1 }

/-- R31, R83, R96, R160, R164, R166, R177, R202, R216, R221, R267, R324, R326, R377, R378, R393, R396: what the spec states of the part at reset. -/
def Obligations.ResetState : Prop :=
  let s := State.reset
  s.time = 0 ∧ s.cst = 0 ∧ s.cofs = 0 ∧ s.tags = [] ∧
  (∀ c, (s.ctx c).tlevel = 0 ∧ (s.ctx c).tvec = 0 ∧ (s.ctx c).bank1 = ⟨0, 0, 0⟩ ∧ (s.ctx c).bank2 = ⟨0, 0, 0⟩ ∧ (s.ctx c).vflags = 0 ∧
    (s.ctx c).mflags = 0 ∧ (s.ctx c).lc0 = 0 ∧ (s.ctx c).lc1 = 0 ∧ (s.ctx c).wake = 0 ∧ (s.ctx c).held = 0 ∧ (s.ctx c).region = 0 ∧
    (∀ q : Fin 5, (s.ctx c).arv[q] = 0) ∧
    (isHandler c = true → (s.ctx c).run = .off ∧ (s.ctx c).empty = 0 ∧ ∀ r : Reg, (s.ctx c).x[r.toNat] = 0)) ∧
  (∀ k, (s.core k).hlimit = 0x10000 ∧ (∀ n : Fin 4, (s.core k).paddock[n] = 0) ∧ (∀ set i, tokens (s.core k) set i = 0) ∧
    (s.core k).ftab = [] ∧ (s.core k).mx.active = [] ∧ (s.core k).mx.shadow = []) ∧
  (∀ d, (s.die d).bucket = 8 ∧ (s.die d).bounds = []) ∧ (∀ n, (s.stream n).status = 0) ∧ ∀ f, (s.flow f).applied = false

/-- R61 to R64: memory is held in one form, keys strictly rising and no byte listed that an unlisted one reads as (the model's choice, log entry 2), and every step keeps it,
so that memories that read the same are equal data. -/
def Obligations.MemoryKeepsForm : Prop :=
  ∀ s t : State, Memory.wf s.mem = true → step s = .next t → Memory.wf t.mem = true

/-- At reset the memory has its form (log entry 2). -/
def Obligations.ResetMemoryForm : Prop := Memory.wf State.reset.mem = true

/-- R61, R62, R64: memory is a map of bytes: what is written at a key is read there, every other key reads as before, and two memories in form that read the same
everywhere are the same. -/
def Obligations.MemoryBytes : Prop :=
  (∀ (s : State) (k : Nat) (b : Byte), readByte (writeByte s k b) k = b ∧ ∀ a, a ≠ k → readByte (writeByte s k b) a = readByte s a) ∧
  ∀ s t : State, Memory.wf s.mem = true → Memory.wf t.mem = true → (∀ a, readByte s a = readByte t a) → s.mem = t.mem

/-! ### Steps of the device and inputs from outside -/

/-- R373, R374, R380, R491: the arbiter grants a request that stands when it may, and then the context holds the level, its request has gone,
and a wait at the arbiter is answered. -/
def Claims.Grants : Prop :=
  ∀ (c n : Nat) (s : State),
    ((s.die (dieOf c)).waiters.find? (fun w => w.1 == c) = none → exec (.pacqGrant c) s = .next s) ∧
    ((s.die (dieOf c)).waiters.find? (fun w => w.1 == c) = some (c, n) →
      let may := (s.die (dieOf c)).lost = false ∧ (n ≤ 4 ∨ (s.cluster (clusterOf c)).throttle = 0 ∧ aheadOf s c (s.die (dieOf c)).waiters true = false ∧
        poolUsed (s.setCtx c { s.ctx c with held := n }) (dieOf c) ≤ bits (win s 0 (0x2400 + 8 * dieOf c)) 12 0)
      (may → ∃ t, exec (.pacqGrant c) s = .next t ∧ t = { s with ctxs := t.ctxs, dies := t.dies } ∧ (t.ctx c).held = n ∧ (t.ctx c).release = none ∧
        (t.ctx c).heldAt = railMark s c ∧ (t.ctx c).x = (s.ctx c).x ∧
        (∀ k a, (s.ctx c).tlevel.toNat < 3 → (s.ctx c).wait = .pacq k a → (t.ctx c).wait = .granted k) ∧
        (t.die (dieOf c)).waiters = (s.die (dieOf c)).waiters.filter (fun w => w.1 != c) ∧ (∀ j, j ≠ c → t.ctx j = s.ctx j) ∧
        ∀ d, d ≠ dieOf c → t.die d = s.die d) ∧
      (¬ may → exec (.pacqGrant c) s = .next s))

/-- R375: a level given up falls when the commands that it waits for have completed. -/
def Claims.Falls : Prop :=
  ∀ (c : Nat) (s : State),
    (∀ l, (s.ctx c).release = some l → (∀ p ∈ l, p ∉ ownCmds s c) →
      exec (.levelRelease c) s = .next (s.setCtx c { s.ctx c with held := 0, release := none })) ∧
    ((s.ctx c).release = none ∨ (∃ l, (s.ctx c).release = some l ∧ ∃ p ∈ l, p ∈ ownCmds s c) → exec (.levelRelease c) s = .next s)

/-- R369, R491: a deferred fall of a rail takes place when the levels that it waits for are 0, or after 50 µs. -/
def Claims.RailFalls : Prop :=
  ∀ (d : Nat) (low : Bool) (s : State), let r := if low then (s.die d).low else (s.die d).high
    (r.fall = none → exec (.deferredRailFall d low) s = .next s) ∧
    ∀ (at_ : Nat) (l : List Nat), r.fall = some (at_, l) →
      ((∀ c ∈ l, (s.ctx c).held = 0) ∨ at_ + 50000 ≤ s.time →
        ∃ t, exec (.deferredRailFall d low) s = .next t ∧ t = { s with dies := t.dies } ∧
          (if low then (t.die d).low else (t.die d).high).fall = none ∧
          (if low then (t.die d).high else (t.die d).low) = (if low then (s.die d).high else (s.die d).low) ∧
          (if low then (t.die d).low else (t.die d).high).setting = railSetting s d low (railVotes s d low)) ∧
      ((∃ c ∈ l, (s.ctx c).held ≠ 0) → s.time < at_ + 50000 → exec (.deferredRailFall d low) s = .next s)

/-- R376, R490: an estimate above a core's declared level raises POWER_OVERDRAW with the estimate, for the context that holds the largest
level or, where none holds one, for the context of the oldest command that runs; while one stands or holds the engines, none is raised. -/
def Claims.Overdraws : Prop :=
  ∀ (k est : Nat) (s : State),
    (est ≤ declared s k ∨ (s.core k).overBy ≠ none ∨ (∃ i < 6, ∃ v, (s.ctx (8 * k + i)).before = some (0x20, v)) →
      exec (.powerWindowEstimate k est) s = .next s) ∧
    (declared s k < est → (s.core k).overBy = none → (∀ i < 6, ∀ v, (s.ctx (8 * k + i)).before ≠ some (0x20, v)) →
      ∀ c, ((∃ i < 3, c = 8 * k + i ∧ 0 < (s.ctx (8 * k + i)).held ∧ (∀ j < 3, (s.ctx (8 * k + j)).held ≤ (s.ctx (8 * k + i)).held) ∧
            ∀ j < i, (s.ctx (8 * k + j)).held < (s.ctx (8 * k + i)).held) ∨
          (∀ j < 3, (s.ctx (8 * k + j)).held = 0) ∧
            ∃ a b, ((s.core k).qs.toList.flatMap id).filter (fun x => x.phase == .running) = a ++ b ∧
              ∃ x r, b = x :: r ∧ c = x.ctx ∧ (∀ y ∈ a, x.born < y.born) ∧ ∀ y ∈ r, x.born ≤ y.born) →
        ((s.ctx c).before = none → (s.ctx c).run ≠ .halted → (s.ctx c).run ≠ .killed →
          ∃ t, exec (.powerWindowEstimate k est) s = .next t ∧ t = { s with ctxs := t.ctxs, cores := t.cores } ∧
            (t.ctx c).before = some (0x20, w64 est) ∧ (t.ctx c).x = (s.ctx c).x ∧ (t.ctx c).pc = (s.ctx c).pc ∧ ∀ j, j ≠ c → t.ctx j = s.ctx j) ∧
        ((s.ctx c).before ≠ none ∨ (s.ctx c).run = .halted ∨ (s.ctx c).run = .killed → exec (.powerWindowEstimate k est) s = .next s))

/-- R369, R373 to R376, R380, R490, R491: what grants and ends levels, what a rail's fall waits for, and POWER_OVERDRAW. -/
def Claims.PowerEvents : Prop := Claims.Grants ∧ Claims.Falls ∧ Claims.RailFalls ∧ Claims.Overdraws

/-- R380, R492, R494, R495: the trips of a temperature sample: 95 and 90 °C for migration, 105 and 100 °C for the throttle, 115 °C for the
loss of the die. -/
def Claims.Samples : Prop :=
  ∀ (k temp : Nat) (s : State),
    ((s.die (k / 128)).lost = true → exec (.thermalSample k temp) s = .next s) ∧
    ((s.die (k / 128)).lost = false →
      (temp < 115 → ∃ t, exec (.thermalSample k temp) s = .next t ∧ (t.core k).temp = temp ∧
        (t.cluster (k / 8)).throttle.testBit (k % 8) = decide (105 ≤ temp ∨ 100 ≤ temp ∧ (s.cluster (k / 8)).throttle.testBit (k % 8) = true) ∧
        (t.cluster (k / 8)).maxTemp = max (s.cluster (k / 8)).maxTemp temp ∧
        (∀ l : Fin 3, (t.core k).units[l] =
          (s.core k).units[l].map fun u => { u with migrate := decide (95 ≤ temp ∨ 90 ≤ temp ∧ (s.core k).trips = 1) }) ∧
        (temp < 105 ∨ (s.cluster (k / 8)).throttle ≠ 0 → t.mem = s.mem ∧ t.streams = s.streams) ∧
        t.jobs = s.jobs ∧ t.dies = s.dies ∧ t.time = s.time) ∧
      (115 ≤ temp → ∃ t, exec (.thermalSample k temp) s = .next t ∧ (t.die (k / 128)).lost = true))

/-- R381, R452, R496: a telemetry interval ends once in a millisecond; its record goes to the Evden controller, and to the ring where that is
enabled and can be written. -/
def Claims.Telemetry : Prop :=
  ∀ (d : Nat) (s : State), let rec_ := telemetryWords s d (s.time / 10 ^ 6 * 10 ^ 6) ((s.die d).telem + 1)
    ((s.die d).lost = true ∨ s.time / 10 ^ 6 = (s.die d).telemMs → exec (.telemetryRecord d) s = .next s) ∧
    ((s.die d).lost = false → s.time / 10 ^ 6 ≠ (s.die d).telemMs → ∃ t, exec (.telemetryRecord d) s = .next t ∧
      (t.die d).telem = (s.die d).telem + 1 ∧ (t.die d).telemMs = s.time / 10 ^ 6 ∧ (t.die d).worked = [] ∧ t.ctxs = s.ctxs ∧ t.cores = s.cores ∧
      mapGet [] t.records d = rec_ ∧
      (bit (win s 0 0x1000) 63 = false → t.mem = s.mem ∧ t.pf = s.pf ∧ t.msix = s.msix) ∧
      (bit (win s 0 0x1000) 63 = true → ∀ a, a = bits (win s 0 0x1000) 56 0 + 256 * ((win s 0 0x1008).toNat % 2 ^ bits (win s 0 0x1000) 61 57) →
        (devWriteWs s 0 a rec_ = none → t.mem = s.mem ∧ t.pf = s.pf ∧ t.msix = s.msix) ∧
        ∀ u, devWriteWs s 0 a rec_ = some u → t.mem = u.mem ∧ win t 0 0x1008 = win s 0 0x1008 + 1 ∧ t.msix = s.msix ++ [(0, 16)]))

/-- R497 to R499: the patrol corrects and counts an error that can be corrected; one that cannot poisons its granule and counts. What else an
error can hit is named by the key (the model's choice, log 91). -/
def Claims.Errors : Prop :=
  (∀ (g d : Nat) (s : State), granuleDie g = some d →
    (g ∉ s.latent → exec (.patrolScrub g) s = .next s) ∧
    (g ∈ s.latent → ∃ t, exec (.patrolScrub g) s = .next t ∧ t = { s with latent := t.latent, pf := t.pf } ∧ (∀ i, i ∈ t.latent ↔ i ∈ s.latent ∧ i ≠ g) ∧
      bits (win t 0 (0x1038 + 8 * d)) 63 32 = bits (win s 0 (0x1038 + 8 * d)) 63 32 ∧
      bits (win t 0 (0x1038 + 8 * d)) 31 0 = min (2 ^ 32 - 1) (bits (win s 0 (0x1038 + 8 * d)) 31 0 + 1))) ∧
  (∀ (g : Nat) (s : State), granuleDie g = none → exec (.patrolScrub g) s = .next s) ∧
  ∀ (a : Nat) (s : State),
    (a < 2 ^ 61 →
      (granuleDie (a / 64) = none ∨ a / 64 ∈ s.poison → ∀ fatal, exec (.softErrorEvent a fatal) s = .next s) ∧
      ∀ d, granuleDie (a / 64) = some d → a / 64 ∉ s.poison →
        (∃ t, exec (.softErrorEvent a true) s = .next t ∧ t = { s with latent := t.latent, pf := t.pf, poison := t.poison, msix := t.msix } ∧
          (∀ i, i ∈ t.poison ↔ i ∈ s.poison ∨ i = a / 64) ∧ (∀ i, i ∈ t.latent ↔ i ∈ s.latent ∧ i ≠ a / 64) ∧
          bits (win t 0 (0x1038 + 8 * d)) 63 32 = min (2 ^ 32 - 1) (bits (win s 0 (0x1038 + 8 * d)) 63 32 + 1) ∧ t.msix = s.msix ++ [(0, 20)]) ∧
        ∃ t, exec (.softErrorEvent a false) s = .next t ∧ t = { s with latent := t.latent } ∧ ∀ i, i ∈ t.latent ↔ i ∈ s.latent ∨ i = a / 64) ∧
    (2 ^ 61 ≤ a → exec (.softErrorEvent a false) s = .next s ∧
      ((a - 2 ^ 61) / 2 ^ 56 = 0 → (s.ctx (a % 2 ^ 56)).run ≠ .off → (s.ctx (a % 2 ^ 56)).run ≠ .halted → (s.ctx (a % 2 ^ 56)).run ≠ .killed →
        (s.ctx (a % 2 ^ 56)).before = none → ∃ t, exec (.softErrorEvent a true) s = .next t ∧ (t.ctx (a % 2 ^ 56)).before = some (0x28, 0) ∧ t.mem = s.mem) ∧
      ((a - 2 ^ 61) / 2 ^ 56 = 1 → ∃ t, exec (.softErrorEvent a true) s = .next t ∧ t = { s with cores := t.cores } ∧
        ∀ i, i ∈ (t.core (a % 2 ^ 56 / 2 ^ 30)).badTiles ↔ i ∈ (s.core (a % 2 ^ 56 / 2 ^ 30)).badTiles ∨ i = a % 2 ^ 56 % 2 ^ 30) ∧
      ((a - 2 ^ 61) / 2 ^ 56 = 2 → exec (.softErrorEvent a true) s = .next { s with det := mapSet {} s.det (a % 2 ^ 56) {} }) ∧
      ((a - 2 ^ 61) / 2 ^ 56 = 3 → exec (.softErrorEvent a true) s = .next (poisonGranule s (a % 2 ^ 56 / 8))))

/-- R380, R381, R452, R492, R494 to R499: heat, telemetry and errors of the memory. -/
def Claims.SensorEvents : Prop := Claims.Samples ∧ Claims.Telemetry ∧ Claims.Errors

/-- Die d of t is lost: nothing of its contexts and cores is left. -/
def Claims.Gone (t : State) (d : Nat) : Prop :=
  (t.die d).lost = true ∧ (∀ c, dieOf c = d → (t.ctx c).run = .off) ∧ ∀ k, k / 128 = d → t.core k = {}

/-- R475, R476: a beat is the die's last; 20 µs without one, or its power's end, loses the die. -/
def Claims.Beats : Prop :=
  ∀ (d : Nat) (s : State),
    ((s.die d).lost = false → exec (.heartbeat d) s = .next (s.setDie d { s.die d with lastBeat := s.time })) ∧
    ((s.die d).lost = true → exec (.heartbeat d) s = .next s ∧ exec (.diePowerOff d) s = .next s ∧ exec (.heartbeatTimeout d) s = .next s) ∧
    (s.time < (s.die d).lastBeat + 20000 → exec (.heartbeatTimeout d) s = .next s) ∧
    ((s.die d).lost = false → (∃ t, exec (.diePowerOff d) s = .next t ∧ Claims.Gone t d) ∧
      ((s.die d).lastBeat + 20000 ≤ s.time → ∃ t, exec (.heartbeatTimeout d) s = .next t ∧ Claims.Gone t d))

/-- R396, R397: the first correction of the clock forward, and a later one of more than 1 ms, is one step, which ends a telemetry interval that
it crosses on each die that stands; any other is slewed (the model's choice for a first one that is not forward, log 92). -/
def Claims.Corrects : Prop :=
  ∀ (o : Int) (s : State),
    (∃ t, exec (.clockCorrection o) s = .next t ∧ t.cst = 1 ∧ t.cofs = max (-2 ^ 31) (min (2 ^ 31 - 1) o) ∧ t.stepped = true ∧ t.ctxs = s.ctxs ∧
      t.cores = s.cores ∧
      (0 < o ∧ (s.stepped = false ∨ 10 ^ 6 < o) → t.time = (s.time + o.toNat) % 2 ^ 64 ∧ t.slew = 0 ∧
        ∀ d < 4, (t.die d).telem =
          if (s.die d).lost = false ∧ s.time / 10 ^ 6 < (s.time + o.toNat) / 10 ^ 6 then (s.die d).telem + 1 else (s.die d).telem) ∧
      (o ≤ 0 ∨ s.stepped = true ∧ o ≤ 10 ^ 6 → t.time = s.time ∧ t.slew = o ∧ t.mem = s.mem ∧ t.dies = s.dies)) ∧
    (s.stepped = true → exec (.firstClockStep o) s = .next s) ∧
    (s.stepped = false → exec (.firstClockStep o) s = exec (.clockCorrection o) s)

/-- R396, R397, R475, R476: heartbeats, the loss of a die and the clock; a clock that loses its source goes into holdover. -/
def Claims.DieAndClockEvents : Prop :=
  Claims.Beats ∧ Claims.Corrects ∧
  ∀ s : State, (s.cst = 0 → exec .syncLoss s = .next s) ∧ (s.cst ≠ 0 → exec .syncLoss s = .next { s with cst := 2, slew := 0, slewAcc := 0 })

/-! ### Host packets -/

/-- The packet w of this kind stands at the head of the queue whose turn it is (R315, R317). -/
def Claims.PacketAt (s : State) (kind fn q : Nat) (w : List W64) : Prop :=
  nextQueue s = some (queueKey fn q) ∧ packetKind s fn (s.queue (queueKey fn q)) = kind ∧ readPacket s fn (s.queue (queueKey fn q)) = .ok w

/-- The packet's event finishes it with a status, after what it does to the state, and the turn passes to the next queue (R315, R316). -/
def Claims.Answers (i : Nat → Nat → Instr) (s : State) (fn q : Nat) (w : List W64) (u : State) (st : Nat) : Prop :=
  exec (i fn q) s = .next { finishPacket u fn q (bits (w.getD 0 0) 9 8) st with served := queueKey fn q + 1 }

/-- The event that processes each kind of packet (log 81). -/
def Claims.packets : List (Nat × (Nat → Nat → Instr)) :=
  [(1, .launchPacket), (2, .replayPacket), (3, .fencePacket), (4, .signalWritePacket), (5, .copyPacket), (6, .cancelPacket), (7, .streamAdmitPacket),
    (8, .streamRetirePacket), (9, .boundsPacket), (10, .graphDefinePacket), (11, .streamModifyPacket), (12, .graphDeletePacket)]

/-- R315, R316: a queue whose turn it is not, or whose packet is of another kind, is left alone; a packet that is malformed or cannot be read
is discarded whole, with its status. -/
def Claims.Discards : Prop :=
  ∀ p ∈ Claims.packets, ∀ (fn q : Nat) (s : State),
    (nextQueue s ≠ some (queueKey fn q) ∨ packetKind s fn (s.queue (queueKey fn q)) ≠ p.1 → exec (p.2 fn q) s = .next s) ∧
    ∀ st len, nextQueue s = some (queueKey fn q) → packetKind s fn (s.queue (queueKey fn q)) = p.1 →
      readPacket s fn (s.queue (queueKey fn q)) = .error (st, len) →
      exec (p.2 fn q) s = .next { finishPacket s fn q len st with served := queueKey fn q + 1 }

/-- R41, R42, R170, R318, R335, R399, R419: a launch packet: 6 where its card or a structure that acceptance reads cannot be read, 2 in recovery,
for a card that breaks R39 to R41 or where too few dies stand; else the card becomes a job, with its id in the card and its end field 0. -/
def Claims.Launches : Prop :=
  ∀ (fn q : Nat) (s : State) (w : List W64), Claims.PacketAt s 1 fn q w →
    (devReadWs s fn (pkVa w 1) 24 = none → Claims.Answers .launchPacket s fn q w s 6) ∧
    ∀ card, devReadWs s fn (pkVa w 1) 24 = some card →
      (s.recovery = true ∨ cardOk card = false → Claims.Answers .launchPacket s fn q w s 2) ∧
      (s.recovery = false → cardOk card = true → ∀ tab n, tab = bits (card.getD 8 0) 56 0 → n = bits (card.getD 0 0) 37 36 + 1 →
        (devReadWs s fn (bits (card.getD 7 0) 56 0) (8 * bits (card.getD 0 0) 47 40) = none ∨ devReadWs s fn tab (8 * n) = none ∨
            devReadWs s fn (tab + 0x100) 32 = none ∨ devReadWs s fn (tab + 0x200) 8 = none →
          Claims.Answers .launchPacket s fn q w s 6) ∧
        ∀ lay plc prof tmpl, devReadWs s fn (bits (card.getD 7 0) 56 0) (8 * bits (card.getD 0 0) 47 40) = some lay →
          devReadWs s fn tab (8 * n) = some plc → devReadWs s fn (tab + 0x100) 32 = some prof → devReadWs s fn (tab + 0x200) 8 = some tmpl →
          (placeOk card plc = false ∨ ((List.range 4).filter fun d => !(s.die d).lost).length < bits (card.getD 0 0) 25 23 →
            Claims.Answers .launchPacket s fn q w s 2) ∧
          (placeOk card plc = true → bits (card.getD 0 0) 25 23 ≤ ((List.range 4).filter fun d => !(s.die d).lost).length →
            ∃ (j : Job) (u : State), u = { s with nextJob := max s.nextJob (freshJob s + 1), jobSeq := s.jobSeq + 1 }.setJob (freshJob s) j ∧
              Claims.Answers .launchPacket s fn q w (devStore (devStore u fn (tab + 0x240) 8 0) fn (pkVa w 1 + 0x48) 8 (freshJob s % 2 ^ 32)) 1 ∧
              j.fn = fn ∧ j.card = card ∧ j.priv = bit (w.getD 0 0) 16 ∧ j.parent = 0 ∧ j.prio = bits (card.getD 0 0) 19 16 ∧
              j.next = 0 ∧ j.rem = bits (card.getD 3 0) 31 0 + 1 ∧ j.seq = s.jobSeq ∧ j.queue = some (queueKey fn q) ∧ j.fin = 0 ∧ j.cancelled = false ∧
              (∀ d ∈ j.dies, d < 4 ∧ (s.die d).lost = false) ∧ j.dies.length = min (bits (card.getD 0 0) 28 26)
                ((List.range 4).filter fun d => !(s.die d).lost).length))

/-- R330, R331: a replay packet starts an instance, queues one behind the live one, or answers that the graph is busy. -/
def Claims.Replays : Prop :=
  ∀ (fn q : Nat) (s : State) (w : List W64), Claims.PacketAt s 2 fn q w → ∀ id gp, id = bits (w.getD 1 0) 11 0 →
    gp = setGps (s.graph id) (bits (w.getD 1 0) 31 16) (w.drop 2) →
    ((s.graph id).defined = false ∨ (s.graph id).fn ≠ fn → Claims.Answers .replayPacket s fn q w s 4) ∧
    ((s.graph id).defined = true → (s.graph id).fn = fn →
      ((s.graph id).live = true → (s.graph id).pending ≠ none → Claims.Answers .replayPacket s fn q w s 5) ∧
      ((s.graph id).live = true → (s.graph id).pending = none →
        Claims.Answers .replayPacket s fn q w (s.setGraph id { gp with pending := some (some (queueKey fn q), 0) }) 1) ∧
      ((s.graph id).live = false → ∃ u, Claims.Answers .replayPacket s fn q w u 1 ∧ u = { s with graphs := u.graphs, mem := u.mem } ∧
        (∀ k, k ≠ id → u.graph k = s.graph k) ∧ (u.graph id).live = true ∧ (u.graph id).origin = some (queueKey fn q) ∧ (u.graph id).stream = none ∧
        (u.graph id).nodes = [] ∧ (u.graph id).gp = gp.gp ∧ (u.graph id).snap = gp.gp))

/-- R309, R318: a fence finishes where its counters have reached their values, and else waits from now on; a signal write stores its value; a copy
copies its bytes; a cancel acts on a job of its function that is neither complete nor cancelled. -/
def Claims.Stores : Prop :=
  ∀ (fn q : Nat) (s : State) (w : List W64),
    (Claims.PacketAt s 3 fn q w → ∀ cs, cs = ((List.range (bits (w.getD 1 0) 3 0 + 1)).map fun i => (pkVa w (2 + 2 * i), (w.getD (3 + 2 * i) 0).toNat)) →
      (fenceState s fn cs = none → Claims.Answers .fencePacket s fn q w s 6) ∧
      (fenceState s fn cs = some true → Claims.Answers .fencePacket s fn q w s 1) ∧
      (fenceState s fn cs = some false → exec (.fencePacket fn q) s =
        .next { s.setQueue (queueKey fn q) { s.queue (queueKey fn q) with fence := some (s.time, bits (w.getD 1 0) 63 32, cs) } with
          served := queueKey fn q + 1 })) ∧
    (Claims.PacketAt s 4 fn q w →
      (∀ u, devWriteWs s fn (pkVa w 1) [w.getD 2 0] = some u → Claims.Answers .signalWritePacket s fn q w u 1) ∧
      (devWriteWs s fn (pkVa w 1) [w.getD 2 0] = none → Claims.Answers .signalWritePacket s fn q w s 6)) ∧
    (Claims.PacketAt s 5 fn q w →
      (devReadBytes s fn (pkVa w 1) (bits (w.getD 3 0) 39 0) = none → Claims.Answers .copyPacket s fn q w s 6) ∧
      ∀ b, devReadBytes s fn (pkVa w 1) (bits (w.getD 3 0) 39 0) = some b →
        (devWriteBytes s fn (pkVa w 2) b = none → Claims.Answers .copyPacket s fn q w s 6) ∧
        ∀ u, devWriteBytes s fn (pkVa w 2) b = some u → Claims.Answers .copyPacket s fn q w u 1) ∧
    (Claims.PacketAt s 6 fn q w → ∀ j, j = bits (w.getD 1 0) 31 0 →
      (j ≠ 0 → (∃ p ∈ s.jobs, p.1 = j) → (s.job j).fn = fn → (s.job j).cancelled = false → (s.job j).fin = 0 →
        Claims.Answers .cancelPacket s fn q w (cancelJob s j) 1) ∧
      (j = 0 ∨ (∀ p ∈ s.jobs, p.1 ≠ j) ∨ (s.job j).fn ≠ fn ∨ (s.job j).cancelled = true ∨ (s.job j).fin ≠ 0 → Claims.Answers .cancelPacket s fn q w s 1))

/-- R324 to R326: admission and modification answer what `admitStream` decides; a stream of the function is retired, at the end of its live
instance where it has one; bounds that fall from band to band and stay within 384 units are set. -/
def Claims.Admits : Prop :=
  ∀ (fn q : Nat) (s : State) (w : List W64),
    (Claims.PacketAt s 7 fn q w →
      Claims.Answers .streamAdmitPacket s fn q w (admitStream s fn (pkVa w 1) false).1 (admitStream s fn (pkVa w 1) false).2) ∧
    (Claims.PacketAt s 11 fn q w →
      Claims.Answers .streamModifyPacket s fn q w (admitStream s fn (pkVa w 1) true).1 (admitStream s fn (pkVa w 1) true).2) ∧
    (Claims.PacketAt s 8 fn q w → ∀ n, n = bits (w.getD 1 0) 12 0 →
      ((s.stream n).fn ≠ fn ∨ (s.stream n).status = 0 ∨ (s.stream n).status = 4 → Claims.Answers .streamRetirePacket s fn q w s 1) ∧
      ((s.stream n).fn = fn → (s.stream n).status = 2 →
        Claims.Answers .streamRetirePacket s fn q w (s.setStream n { s.stream n with status := 4 }) 1) ∧
      ((s.stream n).fn = fn → (s.stream n).status = 1 ∨ (s.stream n).status = 3 → ∃ u, Claims.Answers .streamRetirePacket s fn q w u 1 ∧
        u.stream n = {} ∧ u.mem = s.mem ∧ ∀ k, k ≠ n → u.stream k = s.stream k)) ∧
    (Claims.PacketAt s 9 fn q w → ∀ b : Nat → Nat, b = (fun k => bits (w.getD 2 0) (16 * k + 15) (16 * k)) →
      ((∀ k < 4, b k ≤ 6144) ∧ (∀ k < 3, b (k + 1) ≤ b k) → ∃ u, Claims.Answers .boundsPacket s fn q w u 1 ∧
        (∀ k < 4, mapGet 0 (u.die (bits (w.getD 1 0) 1 0)).bounds k = b k) ∧ ∀ d, d ≠ bits (w.getD 1 0) 1 0 → u.die d = s.die d) ∧
      ((∃ k < 4, 6144 < b k) ∨ (∃ k < 3, b k < b (k + 1)) → Claims.Answers .boundsPacket s fn q w s 4))

/-- R317, R329, R402: a graph is defined from its image, at once or, where an instance is live, for the next one; a deletion leaves a live instance to run
to its end; a graph of another function is not touched. -/
def Claims.Defines : Prop :=
  ∀ (fn q : Nat) (s : State) (w : List W64), ∀ id, id = bits (w.getD 2 0) 11 0 →
    let held := ((s.graph id).defined = true ∨ (s.graph id).live = true) ∧ (s.graph id).fn ≠ fn
    (Claims.PacketAt s 10 fn q w →
      (held → Claims.Answers .graphDefinePacket s fn q w s 4) ∧
      (¬ held →
        (devReadWs s fn (pkVa w 1) 130 = none → Claims.Answers .graphDefinePacket s fn q w s 6) ∧
        ∀ im, devReadWs s fn (pkVa w 1) 130 = some im →
          (devReadWs s fn (pkVa w 1 + 0x410) (bits (im.getD 0 0) 13 8) = none → Claims.Answers .graphDefinePacket s fn q w s 6) ∧
          ∀ ps, devReadWs s fn (pkVa w 1 + 0x410) (bits (im.getD 0 0) 13 8) = some ps →
            (imageOk (im ++ ps) = false → Claims.Answers .graphDefinePacket s fn q w s 4) ∧
            (imageOk (im ++ ps) = true → Claims.Answers .graphDefinePacket s fn q w (s.setGraph id
              (if (s.graph id).live then { s.graph id with defined := true, next := im ++ ps }
                else { s.graph id with defined := true, fn, image := im ++ ps, next := [] })) 1))) ∧
    (Claims.PacketAt s 12 fn q w →
      (held → Claims.Answers .graphDeletePacket s fn q w s 4) ∧
      (¬ held → Claims.Answers .graphDeletePacket s fn q w (s.setGraph id (if (s.graph id).live then { s.graph id with defined := false } else {})) 1))

/-- R41, R42, R309, R315 to R318, R324 to R326, R329 to R331: each packet at the head of the queue whose turn it is: what it does, and the status that
its byte takes. -/
def Obligations.HostPackets : Prop :=
  Claims.Discards ∧ Claims.Launches ∧ Claims.Replays ∧ Claims.Stores ∧ Claims.Admits ∧ Claims.Defines

/-- R314, R316, R398: how a packet finishes: its status byte is written, the head passes it and is written back; a status of 4 and above stops the
queue with the status and the place of the packet. A queue that stops has its control block say so, and its vector, or the sideband for the
management queue. -/
def Claims.Finishes : Prop :=
  ∀ (fn q len st : Nat) (s : State) (h : HostQ), h = s.queue (queueKey fn q) →
    (∀ k, xlateDev s fn (h.unitVa + 3) false true = some k → ∃ t u, (readByte t k = BitVec.ofNat 8 st) ∧ (∀ a, a ≠ k → readByte t a = readByte s a) ∧
      t = { s with mem := t.mem, queues := t.queues } ∧ t.queue (queueKey fn q) = { h with head := (h.head + len + 1) % 2 ^ 32, fence := none } ∧
      (∀ i, i ≠ queueKey fn q → t.queue i = s.queue i) ∧ u = devStore t fn (h.qcb + 0x10) 8 ((h.head + len + 1) % 2 ^ 32) ∧
      finishPacket s fn q len st = if 4 ≤ st then stopQueue u fn q st h.head else u) ∧
    (xlateDev s fn (h.unitVa + 3) false true = none → ∃ t, t = { s with queues := t.queues } ∧
      t.queue (queueKey fn q) = { h with head := (h.head + len + 1) % 2 ^ 32, fence := none } ∧ (∀ i, i ≠ queueKey fn q → t.queue i = s.queue i) ∧
      finishPacket s fn q len st = stopQueue (devStore t fn (h.qcb + 0x10) 8 ((h.head + len + 1) % 2 ^ 32)) fn q 6 h.head) ∧
    ∀ err pos, ∃ t, stopQueue s fn q err pos = (if q < 16 then { t with msix := s.msix ++ [(fn, q)] } else { t with sideband := s.sideband ++ [(err, pos)] }) ∧
      t = devStore (s.setQueue (queueKey fn q) { h with stop := true }) fn (h.qcb + 0x20) 8 (2 ^ 63 + err % 256 * 2 ^ 32 + pos % 2 ^ 32)

/-- R388, R452: a doorbell reads the tail, and whether the host has cleared the stop. -/
def Claims.Doorbells : Prop :=
  ∀ (fn q : Nat) (s : State) (h : HostQ), h = s.queue (queueKey fn q) →
    (h.live = false → exec (.doorbell fn q) s = .next s) ∧
    (h.live = true →
      (devReadWs s fn (h.qcb + 0x18) 2 = none → exec (.doorbell fn q) s = .next (stopQueue s fn q 6 h.head)) ∧
      ∀ w, devReadWs s fn (h.qcb + 0x18) 2 = some w → exec (.doorbell fn q) s = .next
        (s.setQueue (queueKey fn q) { h with tail := bits (w.getD 0 0) 31 0, stop := bit (w.getD 1 0) 63 }))

/-- R387, R388, R399: a queue is made live with its control block's ring; a block that is misaligned stores no enable; one that cannot be read, or
whose ring breaks R314, stops the queue. The management queue has no register in a window (R398). -/
def Claims.Creates : Prop :=
  ∀ (fn q : Nat) (a : W64) (s : State),
    (s.recovery = true → exec (.queueCreate fn q a) s = .next s) ∧
    (s.recovery = false → bits a 56 0 % 64 ≠ 0 → exec (.queueCreate fn q a) s =
      .next (destroyQueue (if q < 16 then setWin s fn (0x100 + 16 * q) (BitVec.ofNat 64 (bits a 56 0)) else s) fn q)) ∧
    (s.recovery = false → bits a 56 0 % 64 = 0 →
      ∀ u, u = (if q < 16 then setWin s fn (0x100 + 16 * q) (BitVec.ofNat 64 (bits a 56 0 + 2 ^ 63)) else s) →
      (devReadWs u fn (bits a 56 0) 5 = none → exec (.queueCreate fn q a) s =
        .next (stopQueue (u.setQueue (queueKey fn q) { live := true, qcb := bits a 56 0 }) fn q 6 0)) ∧
      ∀ w h, devReadWs u fn (bits a 56 0) 5 = some w →
        h = { live := true, qcb := bits a 56 0, ring := bits (w.getD 0 0) 56 0, lgsz := bits (w.getD 1 0) 4 0, head := bits (w.getD 2 0) 31 0,
              tail := bits (w.getD 2 0) 31 0, stop := bit (w.getD 4 0) 63 } →
        (h.ring % 4096 = 0 ∧ 4 ≤ h.lgsz ∧ h.lgsz ≤ 16 → exec (.queueCreate fn q a) s = .next (u.setQueue (queueKey fn q) h)) ∧
        (h.ring % 4096 ≠ 0 ∨ h.lgsz < 4 ∨ 16 < h.lgsz → exec (.queueCreate fn q a) s = .next (stopQueue (u.setQueue (queueKey fn q) h) fn q 4 h.head)))

/-- R388, R484: the destruction of a queue clears its enable and, where it was live, stops it with status 8; a fence that waited there is gone. -/
def Claims.Destroys : Prop :=
  ∀ (fn q : Nat) (s : State),
    ((s.queue (queueKey fn q)).live = false → exec (.queueDestroy fn q) s =
      .next (if q < 16 then setWin s fn (0x100 + 16 * q) (BitVec.ofNat 64 (bits (win s fn (0x100 + 16 * q)) 56 0)) else s)) ∧
    ((s.queue (queueKey fn q)).live = true → ∃ t, exec (.queueDestroy fn q) s = .next t ∧
      t.queue (queueKey fn q) = { s.queue (queueKey fn q) with live := false, fence := none, stop := true } ∧
      (∀ i, i ≠ queueKey fn q → t.queue i = s.queue i) ∧
      (q < 16 → win t fn (0x100 + 16 * q) = BitVec.ofNat 64 (bits (win s fn (0x100 + 16 * q)) 56 0) ∧ t.msix = s.msix ++ [(fn, q)]) ∧
      (16 ≤ q → t.pf = s.pf ∧ t.sideband = s.sideband ++ [(8, (s.queue (queueKey fn q)).head)]))

/-- R309, R318: a fence that waits finishes when its counters have reached their values, with 6 when one cannot be read, and with 7 when its time has
passed. -/
def Claims.Fences : Prop :=
  ∀ (fn q : Nat) (s : State),
    ((s.queue (queueKey fn q)).fence = none → exec (.fenceSatisfied fn q) s = .next s ∧ exec (.fenceTimeout fn q) s = .next s) ∧
    ∀ (a n : Nat) (cs : List (Nat × Nat)), (s.queue (queueKey fn q)).fence = some (a, n, cs) → ∀ len, len = (16 + 16 * cs.length + 63) / 64 - 1 →
      (fenceState s fn cs = some true → exec (.fenceSatisfied fn q) s = .next (finishPacket s fn q len 1) ∧ exec (.fenceTimeout fn q) s = .next s) ∧
      (fenceState s fn cs = none → exec (.fenceSatisfied fn q) s = .next (finishPacket s fn q len 6) ∧ exec (.fenceTimeout fn q) s = .next s) ∧
      (fenceState s fn cs = some false → exec (.fenceSatisfied fn q) s = .next s ∧
        (n ≠ 0 → a + 1000 * n ≤ s.time → exec (.fenceTimeout fn q) s = .next (finishPacket s fn q len 7)) ∧
        (n = 0 ∨ s.time < a + 1000 * n → exec (.fenceTimeout fn q) s = .next s))

/-- R309, R314 to R316, R318, R387, R388, R398, R399, R484: how host queues are made, rung and destroyed, how a packet finishes, and how a fence ends. -/
def Obligations.HostQueues : Prop := Claims.Finishes ∧ Claims.Doorbells ∧ Claims.Creates ∧ Claims.Destroys ∧ Claims.Fences

/-- What a release at r makes of stream n, in a state in which the message that makes it, if there is one, has left the stream (R320, R321, R324, R330):
an idle stream whose graph can start goes live, and any other skips the release and counts it. -/
def Claims.Released (s t : State) (n r : Nat) (msg : Option (Nat × Nat × Nat × Nat)) : Prop :=
  let st := s.stream n
  let mine := match msg with
    | some (f, sl, _, _) => [(f, sl)]
    | none => []
  let ready := (s.graph (sdGraph st.eff)).defined = true ∧ (s.graph (sdGraph st.eff)).live = false
  (t.stream n).release = r ∧ (t.stream n).inst = st.inst + 1 ∧ t.jobs = s.jobs ∧ t.ctxs = s.ctxs ∧
  (st.status = 2 ∨ ¬ ready → (t.stream n).status = st.status ∧ (t.stream n).live = st.live ∧ (t.stream n).misses = (st.misses + 1) % 2 ^ 32 ∧
    (t.stream n).skipped = st.skipped ++ mine ∧ t.graphs = s.graphs) ∧
  (st.status = 1 → ready →
    (t.stream n).status = 2 ∧ (t.stream n).live = some (r, r + sdD st.eff, st.level) ∧ (t.stream n).desc = st.eff ∧ (t.stream n).newDesc = [] ∧
    (t.stream n).misses = st.misses ∧ (t.stream n).slots = st.skipped ++ mine ∧
    (t.graph (sdGraph st.eff)).live = true ∧ (t.graph (sdGraph st.eff)).stream = some n ∧ (t.graph (sdGraph st.eff)).nodes = [] ∧
    (∀ f sl len va, msg = some (f, sl, len, va) → (t.graph (sdGraph st.eff)).gp[14] = BitVec.ofNat 64 len ∧ (t.graph (sdGraph st.eff)).gp[15] = BitVec.ofNat 64 va) ∧
    ∀ k, k ≠ sdGraph st.eff → t.graph k = s.graph k)

/-- R320, R321, R397: a timer stream is released at its times, the latest of several that have passed, the others counted as misses; a stream released by
messages, at the oldest message's time or one period after its latest release. -/
def Claims.Releases : Prop :=
  ∀ (n : Nat) (s : State), let st := s.stream n
    let timed := (st.status = 1 ∨ st.status = 2) ∧ sdTrig st.eff = false ∧ st.period ≠ 0 ∧ st.due ≤ s.time
    (¬ timed → st.msgs = [] → exec (.streamTimerRelease n) s = .next s) ∧
    (timed → ∀ k, st.due + k * st.period ≤ s.time → s.time < st.due + (k + 1) * st.period →
      ∃ t, exec (.streamTimerRelease n) s = .next t ∧
        Claims.Released (s.setStream n { st with misses := (st.misses + k) % 2 ^ 32 }) t n (st.due + k * st.period) none) ∧
    (¬ timed → ∀ f sl len va a m due, st.msgs = (f, sl, len, va, a) :: m → due = (if st.inst = 0 then a else max a (st.release + st.period)) →
      (s.time < due → exec (.streamTimerRelease n) s = .next s) ∧
      (due ≤ s.time → st.status = 1 ∨ st.status = 2 → ∃ t, exec (.streamTimerRelease n) s = .next t ∧
        Claims.Released (s.setStream n { st with msgs := m }) t n due (some (f, sl, len, va))) ∧
      (due ≤ s.time → st.status ≠ 1 → st.status ≠ 2 → exec (.streamTimerRelease n) s =
        .next (freeSlots ((s.setStream n { st with msgs := m }).setStream n { st with msgs := m, release := due, inst := st.inst + 1 }) [(f, sl)])))

/-- A card that acceptance takes (R39 to R41, R335): its fields hold, what acceptance reads can be read, its placements hold, and dies enough stand. -/
def Claims.Fits (s : State) (q : Submit) : Prop :=
  let tab := bits (q.card.getD 8 0) 56 0
  cardOk q.card = true ∧ (devReadWs s q.fn (bits (q.card.getD 7 0) 56 0) (8 * bits (q.card.getD 0 0) 47 40)).isSome = true ∧
    (devReadWs s q.fn (tab + 0x100) 32).isSome = true ∧ (devReadWs s q.fn (tab + 0x200) 8).isSome = true ∧
    (∃ plc, devReadWs s q.fn tab (8 * (bits (q.card.getD 0 0) 37 36 + 1)) = some plc ∧ placeOk q.card plc = true) ∧
    (q.die = none → bits (q.card.getD 0 0) 25 23 ≤ ((List.range 4).filter fun d => !(s.die d).lost).length)

/-- What the launch unit is given for a node of a graph (R323, R330). -/
def Claims.node (s : State) (id node : Nat) (card : List W64) : Submit :=
  let g := s.graph id
  { fn := g.fn, card, parent := g.parent, stream := g.stream, graph := some (id, node), queue := g.origin,
    level := match g.stream with
      | some n => ((s.stream n).live.getD (0, 0, 0)).2.2
      | none => 0
    die := g.stream.map fun n => (s.stream n).die }

/-- R330, R470: a node is submitted once those that it depends on have completed, and its card takes the job's number; a card that is not accepted, or a
cancelled lineage, ends the instance. -/
def Claims.Submits : Prop :=
  ∀ (id node : Nat) (s : State), let g := s.graph id
    let due := g.live = true ∧ node < g.nnode ∧ (∀ p ∈ g.nodes, p.1 ≠ node) ∧ ∀ k < g.nnode, bit (g.dep node) k = true → nodeDone s g k = true
    (¬ due → exec (.graphNodeSubmit id node) s = .next s) ∧
    (due → g.parent ≠ 0 ∧ (s.job g.parent).cancelled = true → exec (.graphNodeSubmit id node) s = .next (cancelInstance s id)) ∧
    (due → g.parent = 0 ∨ (s.job g.parent).cancelled = false →
      (devReadWs s g.fn (g.card node) 24 = none → exec (.graphNodeSubmit id node) s = .next (cancelInstance s id)) ∧
      ∀ w, devReadWs s g.fn (g.card node) 24 = some w →
        (¬ Claims.Fits s (Claims.node s id node w) → exec (.graphNodeSubmit id node) s = .next (cancelInstance s id)) ∧
        (Claims.Fits s (Claims.node s id node w) → ∃ (j : Job) (u t : State),
          u = { s with nextJob := max s.nextJob (freshJob s + 1), jobSeq := s.jobSeq + 1 }.setJob (freshJob s) j ∧
          exec (.graphNodeSubmit id node) s = .next t ∧ t = { u with mem := t.mem, graphs := t.graphs } ∧
          (t.graph id) = { g with nodes := g.nodes ++ [(node, freshJob s)] } ∧ (∀ k, k ≠ id → t.graph k = s.graph k) ∧
          t.mem = (devStore (devStore u g.fn (bits (w.getD 8 0) 56 0 + 0x240) 8 0) g.fn (g.card node + 0x48) 8 (cardIds (freshJob s) g.parent).toNat).mem ∧
          j.fn = g.fn ∧ j.card = w ∧ j.parent = g.parent ∧ j.stream = g.stream ∧ j.graph = some (id, node) ∧ j.fin = 0 ∧ j.cancelled = false))

/-- R324, R330, R331: an instance whose nodes have completed writes its count to gsig and ends; one with a cancelled node ends without, once its nodes have
ended; with an instance that ends, its stream goes back to idle, is suspended, or leaves the table, and a replay that waits starts. -/
def Claims.Completes : Prop :=
  (∀ (id : Nat) (s : State), let g := s.graph id
    let all := ∀ i < g.nnode, nodeDone s g i = true
    let cut := (∃ p ∈ g.nodes, (s.job p.2).fin = 2) ∧ ∀ p ∈ g.nodes, (s.job p.2).fin ≠ 0
    (g.live = false ∨ ¬ all ∧ ¬ cut → exec (.graphInstanceComplete id) s = .next s) ∧
    (g.live = true → all → ∀ u, u = s.setGraph id { g with count := (g.count + 1) % 2 ^ 64 } →
      exec (.graphInstanceComplete id) s = .next (endInstance (if g.gsig = 0 then u else devStore u g.fn g.gsig 8 (g.count + 1)) id)) ∧
    (g.live = true → ¬ all → cut → exec (.graphInstanceComplete id) s = .next (endInstance s id))) ∧
  ∀ (id : Nat) (s : State), let g := s.graph id
    (g.defined = false → ((endInstance s id).graph id) = {}) ∧
    (g.defined = true → g.pending = none → ((endInstance s id).graph id) =
      { g with live := false, origin := none, parent := 0, stream := none, nodes := [], pending := none }) ∧
    (∀ o p, g.defined = true → g.pending = some (o, p) → ((endInstance s id).graph id).live = true ∧ ((endInstance s id).graph id).origin = o ∧
      ((endInstance s id).graph id).parent = p ∧ ((endInstance s id).graph id).stream = none ∧ ((endInstance s id).graph id).pending = none ∧
      ((endInstance s id).graph id).count = g.count) ∧
    ∀ n, g.stream = some n →
      ((s.stream n).status = 4 → (endInstance s id).stream n = {}) ∧
      ((s.stream n).status ≠ 4 → ((endInstance s id).stream n).live = none ∧ ((endInstance s id).stream n).late = false ∧
        ((endInstance s id).stream n).slots = [] ∧ ((endInstance s id).stream n).status = if sdClass (s.stream n).desc = 1 ∧ (s.stream n).level = 3 then 3 else 1)

/-- R473, R474, R480: an instance past its deadline is late, once; every role context of its jobs takes DEADLINE_MISS with the stream. -/
def Claims.Lateness : Prop :=
  ∀ (n : Nat) (s : State), let st := s.stream n
    (st.live = none ∨ st.late = true → exec (.deadlineMiss n) s = .next s) ∧
    ∀ r d l, st.live = some (r, d, l) → st.late = false → ∀ at_, at_ = (if st.exempt = true then r + sdT st.desc else d) →
      (s.time < at_ → exec (.deadlineMiss n) s = .next s) ∧
      (at_ ≤ s.time → ∃ t, exec (.deadlineMiss n) s = .next t ∧ t = { s with ctxs := t.ctxs, streams := t.streams, mem := t.mem } ∧ (t.stream n).late = true ∧
        ∀ c, (∃ w, t.ctx c = { s.ctx c with miss := w }) ∧
          ((s.graph (sdGraph st.desc)).stream = some n → (∃ p ∈ (s.graph (sdGraph st.desc)).nodes, c ∈ ctxsOf s p.2) → (t.ctx c).miss = some (BitVec.ofNat 64 n)))

/-- R320, R321, R323, R324, R330, R331, R397, R470, R473, R474, R480: releases of streams, nodes and ends of graph instances, and late instances. -/
def Obligations.StreamsAndGraphs : Prop := Claims.Releases ∧ Claims.Submits ∧ Claims.Completes ∧ Claims.Lateness

/-- Slot sl is the next free slot of flow f's ring for a message of len bytes under a binding: the flow is inbound and applied, its binding stands, its port is
up, and the message has a length that a message may have and its slot can hold (R390 to R392, R483). -/
def Claims.Lands (s : State) (f bind len sl : Nat) : Prop :=
  let x := s.flow f
  (x.applied = true ∧ x.out = false ∧ x.bind = bind ∧ x.unbound = false ∧ s.ports.getLsbD x.port = true ∧ 1 ≤ len ∧ len ≤ 65536 ∧ len ≤ 2 ^ x.lgs) ∧
    ∃ k < 2 ^ x.lgr, sl = (x.nxt + k) % 2 ^ x.lgr ∧ sl ∉ x.slots ∧ ∀ i < k, (x.nxt + i) % 2 ^ x.lgr ∈ x.slots

/-- R320, R390, R392, R402: a message to a stream stands in its slot, and releases an instance of the owner's stream that names the flow, at once or when the least gap
has passed; one that finds no slot or no page changes nothing, and one that releases nothing leaves its slot. -/
def Claims.StreamMessages : Prop :=
  ∀ (f : Nat) (p : List Byte) (s : State), let x := s.flow f
    ((∀ sl, ¬ Claims.Lands s f 1 p.length sl) → exec (.inboundStreamMessage f p) s = .next s) ∧
    ∀ sl va, Claims.Lands s f 1 p.length sl → va = x.ring + sl * 2 ^ x.lgs →
      (devWriteBytes s x.owner va p = none → exec (.inboundStreamMessage f p) s = .next s) ∧
      ∀ u, devWriteBytes s x.owner va p = some u →
        (streamOf u f = none → exec (.inboundStreamMessage f p) s = .next (u.setFlow f { x with nxt := (sl + 1) % 2 ^ x.lgr })) ∧
        ∀ n st v, streamOf u f = some n → st = u.stream n → st.status = 1 ∨ st.status = 2 →
          v = (u.setFlow f { u.flow f with slots := (u.flow f).slots ++ [sl], nxt := (sl + 1) % 2 ^ (u.flow f).lgr }).setStream n
            { st with msgs := st.msgs ++ [(f, sl, p.length, va, u.time)] } →
          ∀ g k len w a m due, (v.stream n).msgs = (g, k, len, w, a) :: m → due = (if st.inst = 0 then a else max a (st.release + st.period)) →
            (u.time < due → exec (.inboundStreamMessage f p) s = .next v) ∧
            (due ≤ u.time → ∃ t, exec (.inboundStreamMessage f p) s = .next t ∧
              Claims.Released (v.setStream n { v.stream n with msgs := m }) t n due (some (g, k, len, w)))

/-- R33, R392, R420: the messages of a flow that wait for a core: each enters the core's arrival queue while its job holds a unit there and there is room, in order. -/
def Claims.Pulls : Prop :=
  ∀ (s : State) (f core : Nat), pullFlow s f core [] = s ∧ ∀ (k : Nat) (a : Arrival) (l : List (Nat × Arrival)),
    (k ≠ core → pullFlow s f core ((k, a) :: l) = pullFlow s f core l) ∧
    (holdsUnit s a.job core = false → pullFlow s f core ((core, a) :: l) = s) ∧
    (holdsUnit s a.job core = true →
      ((s.job a.job).cancelled = false → 16 ≤ (s.core core).arrivals.length → pullFlow s f core ((core, a) :: l) = s) ∧
      ((s.job a.job).cancelled = false → (s.core core).arrivals.length < 16 → ∃ u, pullFlow s f core ((core, a) :: l) = pullFlow u f core l ∧
        u.core core = { s.core core with arrivals := (s.core core).arrivals ++ [a] } ∧ (∀ j, j ≠ core → u.core j = s.core j) ∧ u.mem = s.mem ∧
        u.flow f = { s.flow f with waiting := (s.flow f).waiting.erase (core, a) } ∧ (∀ j, j ≠ f → u.flow j = s.flow j) ∧
        ∀ j, ∃ r, u.ctx j = { s.ctx j with run := r }) ∧
      ((s.job a.job).cancelled = true → ∀ u, u = freeRing s a →
        pullFlow s f core ((core, a) :: l) = pullFlow (u.setFlow f { u.flow f with waiting := (u.flow f).waiting.erase (core, a) }) f core l))

/-- R31, R33, R84, R172, R392: a message to a core stands in its slot and waits there for its handler's start; one that finds no slot, whose job has ended, that a paddock
refuses, or that would enter a held slice or a lost die, changes nothing. -/
def Claims.CoreMessages : Prop :=
  ∀ (f : Nat) (p : List Byte) (s : State), let x := s.flow f
    ((∀ sl, ¬ Claims.Lands s f 2 p.length sl) → exec (.inboundCoreMessage f p) s = .next s) ∧
    ∀ sl o, Claims.Lands s f 2 p.length sl → o = bits (x.desc.getD 1 0) 22 0 + sl * 2 ^ x.lgs →
      let barred := (s.job x.job).fin ≠ 0 ∨ paddockHit s x.core o p.length x.job = true ∨ (s.core x.core).holder ≠ none ∨ (s.die (x.core / 128)).lost = true
      (barred → exec (.inboundCoreMessage f p) s = .next s) ∧
      (¬ barred → ∃ u, exec (.inboundCoreMessage f p) s = .next (pullFlow u f x.core (u.flow f).waiting) ∧
        u = { s with mem := u.mem, poison := u.poison, flows := u.flows } ∧
        u.flow f = { x with slots := x.slots ++ [sl], nxt := (sl + 1) % 2 ^ x.lgr, waiting := x.waiting ++ [(x.core, ⟨BitVec.ofNat 64 x.haddr, BitVec.ofNat 64 o, BitVec.ofNat 64 p.length, BitVec.ofNat 64 f, x.job, some (f, sl)⟩)] } ∧
        (∀ j, j ≠ f → u.flow j = s.flow j) ∧ readBytes u (sliceKey x.core o) p.length = p ∧
        ∀ a, a < sliceKey x.core o ∨ sliceKey x.core o + p.length ≤ a → readByte u a = readByte s a)

/-- A flow descriptor whose fields hold (R391). -/
def Claims.FlowFields (d : List W64) : Prop :=
  let f : Flow := { desc := d }
  let w (i : Nat) := d.getD i 0
  bits (w 0) 56 51 = 0 ∧ bits (w 1) 63 57 = 0 ∧ bits (w 2) 63 21 = 0 ∧ bits (w 2) 15 13 = 0 ∧ bits (w 3) 63 57 = 0 ∧ bits (w 3) 3 0 = 0 ∧
    f.mode ≠ 3 ∧ f.bind ≠ 3 ∧ (f.bind = 0 → f.out = true) ∧ (f.bind = 2 → f.out = false) ∧ (f.bind ≠ 2 → f.job = 0) ∧ 6 ≤ f.lgs ∧ f.lgs ≤ 16 ∧
    (f.out = false → 1 ≤ f.lgr ∧ f.lgr ≤ 12) ∧ (f.bind ≠ 0 → f.ring % 64 = 0) ∧
    (f.bind = 2 → f.ring + 2 ^ (f.lgs + f.lgr) ≤ 0x7FFA00 ∧ f.haddr ≠ 0)

/-- R391, R393, R402, R483: a flow write's fstat, and the descriptor that stands where it is 0; the kept messages of a rewritten flow are dropped. -/
def Claims.FlowWrites : Prop :=
  (∀ (fn : Nat) (s : State) (d : Option (List W64)) (n : Nat), n = bits (win s fn 0x208) 15 0 → d = devReadWs s fn (bits (win s fn 0x200) 56 0) 4 →
    let o := s.flow n
    let f : Flow := { desc := d.getD [] }
    let breaks := d = none ∨ n = 65535 ∨ bits (win s fn 0x200) 56 0 % 32 ≠ 0 ∨ ¬ Claims.FlowFields (d.getD [])
    let foreign := o.applied = true ∧ o.owner ≠ fn
    let named := o.applied = true ∧ flowNamed s n = true ∧ (f.out ≠ o.out ∨ f.bind ≠ o.bind ∨ f.ring ≠ o.ring)
    let jobless := f.bind = 2 ∧ (f.job = 0 ∨ (∀ p ∈ s.jobs, p.1 ≠ f.job) ∨ (s.job f.job).fn ≠ fn ∨ (s.job f.job).fin ≠ 0)
    (breaks → (flowTest s fn).1 = 1) ∧ (¬ breaks → (foreign → (flowTest s fn).1 = 2) ∧ (¬ foreign → (named → (flowTest s fn).1 = 3) ∧
      (¬ named → (jobless → (flowTest s fn).1 = 4) ∧ (¬ jobless → flowTest s fn = (0, d.getD [])))))) ∧
  ∀ (fn : Nat) (s : State), (s.recovery = true → exec (.flowWrite fn) s = .next s) ∧
    (s.recovery = false → ∀ n u, n = bits (win s fn 0x208) 15 0 → u = setWin s fn 0x210 (BitVec.ofNat 64 (flowTest s fn).1) →
      ((flowTest s fn).1 ≠ 0 → exec (.flowWrite fn) s = .next u) ∧
      ((flowTest s fn).1 = 0 → exec (.flowWrite fn) s = .next { (u.setFlow n
        { u.flow n with applied := true, owner := fn, desc := (flowTest s fn).2, unbound := false }) with outKept := s.outKept.filter fun p => p.1 != n }))

/-- R483: a port that is down keeps what is unacknowledged, and sends it again when it comes up; an acknowledgement takes the oldest message kept. -/
def Claims.Ports : Prop :=
  (∀ (n : Fin 4) (s : State),
    (∃ t, exec (.portDown n.val) s = .next t ∧ t = { s with ports := t.ports } ∧ ∀ i, t.ports.getLsbD i = (s.ports.getLsbD i && decide (i ≠ n.val))) ∧
    (s.ports.getLsbD n.val = true → exec (.portUp n.val) s = .next s) ∧
    (s.ports.getLsbD n.val = false → ∃ t, exec (.portUp n.val) s = .next t ∧ t = { s with ports := t.ports, sent := t.sent } ∧
      (∀ i, t.ports.getLsbD i = (s.ports.getLsbD i || decide (i = n.val))) ∧ t.sent = s.sent ++ s.outKept.filter fun p => (s.flow p.1).port == n.val)) ∧
  ∀ (f : Nat) (s : State), ((∀ x ∈ s.outKept, x.1 ≠ f) → exec (.peerAcknowledgement f) s = .next s) ∧
    ∀ (p : List Byte) (l l' : List (Nat × List Byte)), s.outKept = l ++ (f, p) :: l' → (∀ x ∈ l, x.1 ≠ f) →
      exec (.peerAcknowledgement f) s = .next { s with outKept := l ++ l' }

/-- R31, R33, R84, R172, R320, R390 to R393, R402, R420, R483: messages from the network, flow writes, ports and acknowledgements. -/
def Obligations.NetworkEvents : Prop :=
  Claims.StreamMessages ∧ Claims.Pulls ∧ Claims.CoreMessages ∧ Claims.FlowWrites ∧ Claims.Ports

/-- R8, R387, R399: what a function reads in its window: its number; zero where a register is only written, reserved, or the physical function's alone; the
clock's offset and state; in recovery, the number and the recovery status alone. -/
def Claims.WindowReads : Prop :=
  (∀ (fn : Nat) (s : State), readWindow s fn 0 = BitVec.ofNat 64 fn ∧
    (s.recovery = true → ∀ off, off ≠ 0 → fn ≠ 0 ∨ off ≠ Config.recoveryOff → readWindow s fn off = 0) ∧
    (s.recovery = true → Config.recoveryOff ≠ 0 → readWindow s 0 Config.recoveryOff = Config.recoveryStatus) ∧
    (s.recovery = false → (∀ q, q < 16 → readWindow s fn (0x108 + 16 * q) = 0 ∧ readWindow s fn (0x100 + 16 * q) = win s fn (0x100 + 16 * q)) ∧
      (∀ off, 0x200 ≤ off → off < 0x1000 → readWindow s fn off = win s fn off) ∧
      (fn ≠ 0 → ∀ off, 0x1000 ≤ off → readWindow s fn off = 0) ∧
      (∀ off, 0x1000 ≤ off → off ≠ 0x1018 → readWindow s 0 off = win s 0 off))) ∧
  ∀ s : State, s.recovery = false →
    BitVec.extractLsb' 32 32 (readWindow s 0 0x1018) = BitVec.ofInt 32 s.cofs ∧ BitVec.extractLsb' 0 32 (readWindow s 0 0x1018) = BitVec.ofNat 32 (s.cst % 4)

/-- R312, R369, R371, R373, R378, R387, R388, R398, R399, R401, R499: a write of each register of the window. -/
def Claims.WindowWrites : Prop :=
  ∀ (fn : Nat) (v : W64) (s : State),
    (s.recovery = true → ∀ off, exec (.registerWrite fn off v) s = .next s) ∧
    (s.recovery = false → ∀ set : Nat → Nat → State, set = (fun off x => setWin s fn off (BitVec.ofNat 64 x)) →
      let a := bits v 56 0
      let ring := bits v 61 0 + if bit v 63 = true ∧ a % 4096 = 0 ∧ 4 ≤ bits v 61 57 ∧ bits v 61 57 ≤ 16 then 2 ^ 63 else 0
      (∀ q, q < 16 → exec (.registerWrite fn (0x108 + 16 * q) v) s = exec (.doorbell fn q) s ∧
        (bit v 63 = true → exec (.registerWrite fn (0x100 + 16 * q) v) s = exec (.queueCreate fn q v) s) ∧
        (bit v 63 = false → exec (.registerWrite fn (0x100 + 16 * q) v) s = .next (destroyQueue (set (0x100 + 16 * q) a) fn q))) ∧
      exec (.registerWrite fn 0x200 v) s = (if bit v 63 = true then exec (.flowWrite fn) (set 0x200 a) else .next (set 0x200 a)) ∧
      exec (.registerWrite fn 0x208 v) s = .next (set 0x208 (bits v 15 0)) ∧
      (bit v 63 = true → exec (.registerWrite fn 0x300 v) s = exec (.attestationRequest fn v) s) ∧
      (bit v 63 = false → exec (.registerWrite fn 0x300 v) s = .next (set 0x300 a)) ∧
      (∀ off, off = 0 ∨ off = 0x210 ∨ off = 0x308 ∨ off = 0x1008 ∨ off = 0x1018 ∨ off = 0x1088 ∨ 0x1000 ≤ off ∧ fn ≠ 0 → exec (.registerWrite fn off v) s = .next s) ∧
      (fn = 0 → exec (.registerWrite fn 0x1000 v) s = .next (set 0x1000 ring) ∧ exec (.registerWrite fn 0x1080 v) s = .next (set 0x1080 ring) ∧
        exec (.registerWrite fn 0x1010 v) s = .next (set 0x1010 (a + if bit v 63 = true ∧ a % 8 = 0 then 2 ^ 63 else 0)) ∧
        exec (.registerWrite fn 0x1030 v) s = .next (set 0x1030 (max 1 (min 100 (bits v 6 0)))) ∧
        (∀ p, p ≤ 32 → exec (.registerWrite fn (0x2008 + 16 * p) v) s = .next (set (0x2008 + 16 * p) (bits v 2 0)) ∧
          ((∀ i < 8, bits v (8 * i + 7) (8 * i + 5) = 0) → exec (.registerWrite fn (0x2000 + 16 * p) v) s = .next (set (0x2000 + 16 * p) v.toNat)) ∧
          ((∃ i < 8, bits v (8 * i + 7) (8 * i + 5) ≠ 0) → exec (.registerWrite fn (0x2000 + 16 * p) v) s = .next s)) ∧
        ∀ d, d < 4 → exec (.registerWrite fn (0x2400 + 8 * d) v) s = .next (set (0x2400 + 8 * d) (min 7552 (bits v 12 0))) ∧
          exec (.registerWrite fn (0x2420 + 8 * d) v) s = .next (set (0x2420 + 8 * d) (max 1 (bits v 11 0)))))

/-- R387: BAR2 writes the first 64 GiB of the function's address space; a read changes nothing. -/
def Claims.Bar2 : Prop :=
  ∀ (fn a : Nat) (b : List Byte) (s : State), exec (.bar2Access fn a false b) s = .next s ∧
    (s.recovery = true ∨ 2 ^ 36 < a + b.length ∨ devWriteBytes s fn a b = none → exec (.bar2Access fn a true b) s = .next s) ∧
    ∀ u, s.recovery = false → a + b.length ≤ 2 ^ 36 → devWriteBytes s fn a b = some u → exec (.bar2Access fn a true b) s = .next u

/-- R387, R400, R401: a report is asked for, and written with the nonce that the buffer holds; astat says what became of it. What Config has: how the fuses make the identity
key, and how the stage-2 root and the paddocks are laid out (log 95). -/
def Claims.Attests : Prop :=
  (∀ (fn : Nat) (v : W64) (s : State), let u := setWin s fn 0x300 (BitVec.ofNat 64 (bits v 56 0))
    (s.recovery = true ∨ win s fn 0x308 = 1 → exec (.attestationRequest fn v) s = .next s) ∧
    (s.recovery = false → win s fn 0x308 ≠ 1 →
      (bits v 56 0 % 64 ≠ 0 → exec (.attestationRequest fn v) s = .next (setWin u fn 0x308 3)) ∧
      (bits v 56 0 % 64 = 0 → exec (.attestationRequest fn v) s = .next { setWin u fn 0x308 1 with attn := s.attn ++ [(fn, bits v 56 0)] }))) ∧
  (∀ (fn : Nat) (s : State), ((∀ p ∈ s.attn, p.1 ≠ fn) → exec (.attestationDone fn) s = .next s) ∧
    ∀ (a : Nat) (l l' : List (Nat × Nat)) (u : State), s.attn = l ++ (fn, a) :: l' → (∀ p ∈ l, p.1 ≠ fn) → u = { s with attn := s.attn.filter fun p => p.1 != fn } →
      (devReadBytes u fn (a + 0x10) 32 = none → exec (.attestationDone fn) s = .next (setWin u fn 0x308 3)) ∧
      ∀ n, devReadBytes u fn (a + 0x10) 32 = some n →
        (devWriteBytes u fn a (report u fn n) = none → exec (.attestationDone fn) s = .next (setWin u fn 0x308 3)) ∧
        ∀ w, devWriteBytes u fn a (report u fn n) = some w →
          exec (.attestationDone fn) s = .next { setWin w fn 0x308 2 with msix := w.msix ++ [(fn, 17)] }) ∧
  ∀ (fn : Nat) (n : List Byte) (s : State), ∃ body : List Byte,
    body = natToBytes 8 0x141545354 ++ natToBytes 8 ((Config.fuseByte 0).toNat * 256 + fn) ++ n ++ measurement s 0 ++ measurement s 1 ++ measurement s 2 ++
      shake256 (Config.partBytes (BitVec.ofNat 64 (bits ((partEntry s fn).getD 1 0) 56 0)) (ownPaddocks s fn)) 64 ++ Ed448.publicKey identityKey ++ List.replicate 15 0 ∧
    report s fn n = body ++ Ed448.sign identityKey attestContext (shake256 body 64) ++ List.replicate 22 0 ∧
    (∀ i k v, (i, k, v) ∈ ownPaddocks s fn → bit v 63 = true ∧ bits v 53 48 = fn)

/-- An image that is accepted: its key hashes to the fused digest, its signature verifies under it, and its version is not below the fused counter (R399). -/
def Claims.Good (im : List Byte) : Prop :=
  shake256 (Config.imageKey im) 64 = ((List.range 64).map fun i => Config.fuseByte (256 + i)) ∧
    Ed448.verify (Config.imageKey im) [] (Config.imageBody im) (Config.imageSig im) = true ∧ (Config.fuseByte 0).toNat ≤ Config.imageVersion im

/-- R398, R399, R443: an image is staged for the next reset; a reset brings every register to its reset value; an image that is refused leaves the device in
recovery; each that is accepted is measured, and partition 0's entry and its tables alone are written in memory (where they lie: Config, log 129). -/
def Claims.Boots : Prop :=
  (∀ (k : BitVec 2) (im : List Byte) (s : State), (k = 3 → exec (.firmwareStage k im) s = .next s) ∧
    (k ≠ 3 → ∃ t, exec (.firmwareStage k im) s = .next t ∧ t = { s with fw := t.fw } ∧
      ∀ j, mapGet [] t.fw j = if j = k.toNat then im else mapGet [] s.fw j)) ∧
  ∀ s : State, let staged (k : Nat) : Option (List Byte) := (s.fw.find? fun p => p.1 == k).map (·.2)
    let r : State := { State.reset with
      mem := s.mem, fw := s.fw, free := s.free, agenda := s.agenda, msix := s.msix, sent := s.sent, sideband := s.sideband }
    ((∃ k < 3, ∃ im, staged k = some im ∧ ¬ Claims.Good im) → exec .deviceReset s = .next { r with recovery := true }) ∧
    ((∀ k < 3, ∀ im, staged k = some im → Claims.Good im) → ∃ t, exec .deviceReset s = .next t ∧ t = { r with fw := t.fw, mem := t.mem } ∧
      (∀ k < 3, ∀ im, staged k = some im → mapGet [] t.fw (4 + k) = shake256 im 64) ∧
      ∃ n : Nat, n + 4 ≤ 2 ^ 23 ∧ 1 ≤ n ∧ readNat t (devKey 0) 8 = 2 ^ 16 * n ∧
        (∀ i < 1024, readNat t (devKey (2 ^ 16 * (n + 2)) + 8 * i) 8 = 2 ^ 29 * i + 0x1F) ∧
        ∀ a, a < devKey 0 ∨ devKey 0 + 64 ≤ a → a < devKey (2 ^ 16 * n) ∨ devKey (2 ^ 16 * (n + 3)) ≤ a → readByte t a = readByte s a)

/-- R345, R389, R453, R490: a function-level reset cancels the function's jobs, destroys its queues, closes its sequences, takes its flows, page requests and reports
away, ends its contexts' levels and returns its window to its reset values; that of the physical function does so for every function. -/
def Claims.FunctionResets : Prop :=
  (∀ s : State, exec (.functionLevelReset 0) s = .next ((List.range 33).foldl resetFn s)) ∧
  ∀ (fn : Nat) (s : State), (fn ≠ 0 → exec (.functionLevelReset fn) s = .next (resetFn s fn)) ∧ ∀ t, t = resetFn s fn →
    (∀ off, off < 2 ^ 16 → win t fn off = winReset fn off) ∧ (∀ fn' off, fn' ≠ fn → off < 2 ^ 16 → win t fn' off = win s fn' off) ∧
    (∀ j, j ≠ 0 → (∃ p ∈ s.jobs, p.1 = j) → (s.job j).fn = fn → (s.job j).fin = 0 → (t.job j).cancelled = true) ∧
    (∀ q < 17, (t.queue (queueKey fn q)).live = false) ∧
    (∀ d n, (s.seq d n).isOpen = true → (s.seq d n).part = fn → (t.seq d n).isOpen = false) ∧
    (∀ p ∈ t.flows, p.2.owner ≠ fn) ∧ (∀ r ∈ t.reqs, r.part ≠ fn) ∧ (∀ p ∈ t.attn, p.1 ≠ fn) ∧
    ∀ c, (t.job (t.ctx c).job).fn = fn → (t.ctx c).held = 0 ∧ (t.ctx c).release = none

/-- R8, R312, R345, R369, R371, R373, R378, R387 to R389, R398 to R401, R443, R453, R490, R499: the register windows, BAR2, reports, images and resets. -/
def Obligations.ManagementEvents : Prop :=
  Claims.WindowReads ∧ Claims.WindowWrites ∧ Claims.Bar2 ∧ Claims.Attests ∧ Claims.Boots ∧ Claims.FunctionResets

/-- The requests that p picks are answered with fail; one that nobody waits on goes (R447, R448, R452). -/
def Claims.ReqsFailed (s t : State) (p : PageReq → Prop) : Prop :=
  t = { s with reqs := t.reqs } ∧ ∀ x, x ∈ t.reqs ↔ (∃ y ∈ s.reqs, (p y ∧ x = { y with answer := some false }) ∨ (¬ p y ∧ x = y)) ∧ (x.answer = some false → x.waiters ≠ [])

/-- R446, R452: the oldest request of a partition that waits is written to its ring with the next number, while the ring has room and fewer than 64 are outstanding; where the
ring cannot be written, it fails. -/
def Claims.Requests : Prop :=
  ∀ (p : Nat) (s : State), let e := partEntry s p
    let tail := bits (e.getD 4 0) 63 32
    let waits (r : PageReq) : Prop := r.part = p ∧ r.rid = none ∧ r.answer = none
    let room := (s.reqs.filter fun r => decide (r.part = p ∧ r.rid ≠ none ∧ r.answer = none)).length < 64 ∧
      (tail + 2 ^ 32 - bits (e.getD 4 0) 31 0) % 2 ^ 32 < 2 ^ bits (e.getD 2 0) 63 60
    ((∀ r ∈ s.reqs, ¬ waits r) ∨ ¬ room → exec (.pageRequestWrite p) s = .next s) ∧
    ∀ (l l' : List PageReq) (r : PageReq), s.reqs = l ++ r :: l' → waits r → (∀ x ∈ l, ¬ waits x) → room → ∀ n w, n = mapGet 0 s.rid p →
      w = devWriteWs s 0 (bits (e.getD 2 0) 56 0 + 32 * (tail % 2 ^ bits (e.getD 2 0) 63 60))
        [BitVec.ofNat 64 r.ipa, BitVec.ofNat 64 (n % 2 ^ 16 * 2 ^ 48 + r.kind % 4 * 2 ^ 38 + p % 2 ^ 6 * 2 ^ 32 + r.waiters.length % 2 ^ 32),
          BitVec.ofNat 64 (r.va % 2 ^ 57), BitVec.ofNat 64 r.time] →
      (w = none → ∃ t, exec (.pageRequestWrite p) s = .next t ∧ Claims.ReqsFailed s t (· = r)) ∧
      ∀ u, w = some u → exec (.pageRequestWrite p) s = .next { (writeNat u (devKey (64 * p + 36)) 4 ((tail + 1) % 2 ^ 32)) with
        rid := mapSet 0 s.rid p ((n + 1) % 2 ^ 16), reqs := s.reqs.map (fun x => if x = r then { x with rid := some n, sent := s.time } else x),
        msix := s.msix ++ [(0, 18)] }

/-- R447, R452: a reply is read while a request is outstanding and the ring holds one; retry lets every access that waits on its number walk again, and anything else
fails it; where the ring cannot be read, the oldest request outstanding fails. -/
def Claims.Replies : Prop :=
  ∀ (p : Nat) (s : State), let e := partEntry s p
    let head := bits (e.getD 5 0) 63 32
    let open_ (r : PageReq) : Prop := r.part = p ∧ r.rid ≠ none ∧ r.answer = none
    ((∀ r ∈ s.reqs, ¬ open_ r) ∨ head = bits (e.getD 5 0) 31 0 → exec (.pageReplyRead p) s = .next s) ∧
    ∀ (l l' : List PageReq) (r : PageReq), s.reqs = l ++ r :: l' → open_ r → (∀ x ∈ l, ¬ open_ x) → head ≠ bits (e.getD 5 0) 31 0 →
      ∀ w u, w = devReadWs s 0 (bits (e.getD 3 0) 56 0 + 16 * (head % 2 ^ bits (e.getD 3 0) 63 60)) 2 →
      u = writeNat s (devKey (64 * p + 44)) 4 ((head + 1) % 2 ^ 32) →
      (w = none → ∃ t, exec (.pageReplyRead p) s = .next t ∧ Claims.ReqsFailed u t (· = r)) ∧
      ∀ v, w = some v → ∀ n, n = bits (v.getD 0 0) 63 48 →
        (bits (v.getD 0 0) 47 0 = 0 ∧ v.getD 1 0 = 0 → ∃ t, exec (.pageReplyRead p) s = .next t ∧ t = { u with reqs := t.reqs } ∧
          ∀ x, x ∈ t.reqs ↔ x ∈ s.reqs ∧ ¬ (open_ x ∧ x.rid = some n)) ∧
        (bits (v.getD 0 0) 47 0 ≠ 0 ∨ v.getD 1 0 ≠ 0 → ∃ t, exec (.pageReplyRead p) s = .next t ∧ Claims.ReqsFailed u t fun x => open_ x ∧ x.rid = some n)

/-- R447: a request that has waited ptmo µs since it was written fails; none does where ptmo is 0 or the time has not come. -/
def Claims.Timeouts : Prop :=
  ∀ (p i : Nat) (s : State), ∃ t, exec (.pageRequestTimeout p i) s = .next t ∧
    Claims.ReqsFailed s t fun r => r.part = p ∧ r.rid = some i ∧ r.answer = none ∧ bits ((partEntry s p).getD 6 0) 31 0 ≠ 0 ∧
      r.sent + 1000 * bits ((partEntry s p).getD 6 0) 31 0 ≤ s.time

/-- R311: the count of quiescence advances where no access in flight is stamped below it, and its word follows where that is enabled. -/
def Claims.Quiesces : Prop :=
  ∀ s : State, let still := (∀ p ∈ s.cores, ∀ m ∈ p.2.sends, s.qcount ≤ m.stamp) ∧ ∀ b ∈ s.bank, b.here = true ∨ s.qcount ≤ b.stamp
    (still → exec .quiescenceAdvance s = .next { s with qcount := s.qcount + 1 }) ∧ (¬ still → exec .quiescenceAdvance s = .next s) ∧
    (bit (win s 0 0x1010) 63 = true → exec .quiescenceWordWrite s = .next (devStore s 0 (bits (win s 0 0x1010) 56 0) 8 (s.qcount % 2 ^ 64))) ∧
    (bit (win s 0 0x1010) 63 = false → exec .quiescenceWordWrite s = .next s)

/-- R312: the entry of the lowest value, and of those the first, leaves the quarantine once the count has reached it, to the freed-page ring, while that has room. -/
def Claims.Leaves : Prop :=
  ∀ s : State, let ring := win s 0 0x1080
    let room := bit ring 63 = true ∧ (win s 0 0x1088 - win s 0 0x1090).toNat < 2 ^ bits ring 61 57
    ((∀ q ∈ s.quarantine, s.qcount < q.v) ∨ ¬ room → exec .quarantineLeave s = .next s) ∧
    ∀ (l l' : List Quar) (q : Quar), s.quarantine = l ++ q :: l' → (∀ x ∈ l, q.v < x.v) → (∀ x ∈ l', q.v ≤ x.v) → q.v ≤ s.qcount → room →
      ∀ w, w = devWriteWs s 0 (bits ring 56 0 + 8 * ((win s 0 0x1088).toNat % 2 ^ bits ring 61 57))
        [BitVec.ofNat 64 (bits (BitVec.ofNat 64 q.page) 56 16 * 2 ^ 16 + if q.big then 1 else 0)] →
      (w = none → exec .quarantineLeave s = .next s) ∧
      ∀ u, w = some u → exec .quarantineLeave s =
        .next { setWin { u with quarantine := l ++ l' } 0 0x1088 (win s 0 0x1088 + 1) with msix := s.msix ++ [(0, 21)] }

/-- R55: a halt bundle whose syllables have executed stays at issue until the context's commands have left the queues, and then halts its context. -/
def Claims.Halts : Prop :=
  ∀ s : State, let at_ := ∃ k, s.me.iss = some k ∧ k.halting = true
    (at_ → ownCmds s s.cur = [] → exec .haltBundle s = .next (haltCtx s s.cur)) ∧ (¬ at_ ∨ ownCmds s s.cur ≠ [] → exec .haltBundle s = .next s)

/-- R55, R311, R312, R446 to R448, R452: page requests and their replies, quiescence, the quarantine, and the end of a halt bundle. -/
def Obligations.QuietEvents : Prop :=
  Claims.Requests ∧ Claims.Replies ∧ Claims.Timeouts ∧ Claims.Quiesces ∧ Claims.Leaves ∧ Claims.Halts

/-- Every instruction, step of the device and input from outside has an effect in every state: none stops the machine (R119, R407, R408: what an instruction cannot do, it
traps on, waits for or leaves out). -/
def Obligations.NothingStops : Prop := ∀ (i : Instr) (s : State), ∃ t, exec i s = .next t

/-! ### Statements of several parts -/

/-- One-source, bit-field, select, compare and move instructions complete with their results: `Claims.OneSourceResults`; `Claims.SelectCompareMoveResults`. -/
def Obligations.BitFieldAndMoveResults : Prop :=
  Claims.OneSourceResults ∧ Claims.SelectCompareMoveResults

/-- div and rem: results on their way, and the two faults: `Claims.DivisionResults`; `Claims.DivisionFaults`. -/
def Obligations.DivisionResultsAndFaults : Prop :=
  Claims.DivisionResults ∧ Claims.DivisionFaults

/-- How registers are read and written, and the forms of the two sources: `Claims.SourceRegisters`; `Claims.SlotOneReadsOldValues`; `Claims.DestinationRegisters`; `Claims.TwoSourceForms`. -/
def Obligations.RegisterOperands : Prop :=
  Claims.SourceRegisters ∧ Claims.SlotOneReadsOldValues ∧ Claims.DestinationRegisters ∧ Claims.TwoSourceForms

/-- A register name bound to a chute pops or pushes it, faults or waits: `Claims.ChutePopsSource`; `Claims.ChutePushesDestination`; `Claims.ChutePortsFaultOrWait`. -/
def Obligations.ChuteOperands : Prop :=
  Claims.ChutePopsSource ∧ Claims.ChutePushesDestination ∧ Claims.ChutePortsFaultOrWait

/-- Trap-level rules, and what the end of a bundle does with a transfer: `Claims.LevelRules`; `Claims.TransfersAtBundleEnd`. -/
def Obligations.LevelsAndTransfers : Prop :=
  Claims.LevelRules ∧ Claims.TransfersAtBundleEnd

/-- Entry into a precise exception, the kill without a level, and the return: `Claims.PreciseFaultEntry`; `Claims.NoLevelKills`; `Claims.TrapReturnResumes`. -/
def Obligations.TrapEntryAndReturn : Prop :=
  Claims.PreciseFaultEntry ∧ Claims.NoLevelKills ∧ Claims.TrapReturnResumes

/-- srw and its special forms write system registers, with the fields that each keeps: `Claims.SystemRegisterWrites`; `Claims.SystemRegisterStores`; `Claims.PaddockTests`. -/
def Obligations.SystemRegisterWriting : Prop :=
  Claims.SystemRegisterWrites ∧ Claims.SystemRegisterStores ∧ Claims.PaddockTests

/-- Loads and stores of slices and of virtual addresses: values, checks and what they leave alone: `Claims.SliceAccesses`; `Claims.TranslatedAccesses`. -/
def Obligations.ThreadAccesses : Prop :=
  Claims.SliceAccesses ∧ Claims.TranslatedAccesses

/-- ldl, stl, ldg, stg and pref: `Claims.LocalLoadsStores`; `Claims.LayoutLoadsStores`. -/
def Obligations.LoadsAndStores : Prop :=
  Claims.LocalLoadsStores ∧ Claims.LayoutLoadsStores

/-- ldf, ste, ldpk and stf with their tags, and the steps that serve their waits: `Claims.TaggedOperations`; `Claims.TaggedWaits`. -/
def Obligations.TaggedMemory : Prop :=
  Claims.TaggedOperations ∧ Claims.TaggedWaits

/-- gnew, join, leave and arrive, and the faults of a group object: `Claims.GroupInstructions`; `Claims.GroupFaults`. -/
def Obligations.GroupObjects : Prop :=
  Claims.GroupInstructions ∧ Claims.GroupFaults

/-- card, gpget, gpset and grepl: the request and the answer: `Claims.LaunchUnitRequests`; `Claims.LaunchUnitAnswers`. -/
def Obligations.LaunchUnitTraffic : Prop :=
  Claims.LaunchUnitRequests ∧ Claims.LaunchUnitAnswers

/-- Every vector instruction enqueues its command; the first limit that fails is the fault: `Claims.VectorCommands`; `Claims.VectorLimits`. -/
def Obligations.VectorCommandsAndLimits : Prop :=
  Claims.VectorCommands ∧ Claims.VectorLimits

/-- Every copy instruction enqueues its command, or faults at the limits of its descriptor: `Claims.CopyCommands`; `Claims.CopyLimits`. -/
def Obligations.CopyCommandsAndLimits : Prop :=
  Claims.CopyCommands ∧ Claims.CopyLimits

/-- How a matrix command starts, start tokens, relocation and the ring: `Claims.MatrixHeads`; `Claims.ArrayEvents`. -/
def Obligations.MatrixStarts : Prop :=
  Claims.MatrixHeads ∧ Claims.ArrayEvents

/-- How a copy command starts, and how its sectors perform: `Claims.CopyStarts`; `Claims.CopySectors`. -/
def Obligations.CopyPerformance : Prop :=
  Claims.CopyStarts ∧ Claims.CopySectors

/-- The dealer starts units; launches step and end: `Claims.UnitStarts`; `Claims.LaunchSteps`. -/
def Obligations.UnitsAndLaunches : Prop :=
  Claims.UnitStarts ∧ Claims.LaunchSteps

/-- Pre-emption, resumption, watchdogs, wake times, cancels and asynchronous faults: `Claims.Preemption`; `Claims.RunningLimits`. -/
def Obligations.PreemptionAndLimits : Prop :=
  Claims.Preemption ∧ Claims.RunningLimits

/-- Levels, rails, overdraw, heat, telemetry, memory errors, the loss of a die, and the clock: `Claims.PowerEvents`; `Claims.SensorEvents`; `Claims.DieAndClockEvents`. -/
def Obligations.DieEvents : Prop :=
  Claims.PowerEvents ∧ Claims.SensorEvents ∧ Claims.DieAndClockEvents
end

