-- ==== Sys2Proof/Laws/Map.lean ====
section
/-! SUPPORT. Laws of the sparse maps: reading after a change, and the canonical form. -/

namespace Sys2Proof.Machine

variable {α : Type}

@[simp] theorem mapGet_nil (d : α) (i : Nat) : mapGet d [] i = d := rfl

theorem mapGet_mapPut (d v : α) (i j : Nat) (m : List (Nat × α)) :
    mapGet d (mapPut i v m) j = if j = i then v else mapGet d m j := by
  induction m with
  | nil => simp [mapPut, mapGet]
  | cons p t ih =>
    obtain ⟨k, w⟩ := p
    simp only [mapPut]
    split
    · simp [mapGet]
    · split
      · subst_vars
        by_cases h : j = k <;> simp [mapGet, h]
      · simp only [mapGet, ih]
        by_cases hk : j = k
        · subst hk
          have : j ≠ i := by omega
          simp [this]
        · simp [hk]

theorem mapGet_mapDel (d : α) (i j : Nat) (m : List (Nat × α)) :
    mapGet d (mapDel i m) j = if j = i then d else mapGet d m j := by
  induction m with
  | nil => simp [mapDel]
  | cons p t ih =>
    obtain ⟨k, w⟩ := p
    simp only [mapDel]
    split
    · subst_vars
      rw [ih]
      by_cases h : j = k <;> simp [mapGet, h]
    · simp only [mapGet, ih]
      by_cases hk : j = k
      · subst hk
        have : j ≠ i := by omega
        simp [this]
      · simp [hk]

/-- A read after a change at one key. -/
theorem mapGet_mapSet [DecidableEq α] (d v : α) (i j : Nat) (m : List (Nat × α)) :
    mapGet d (mapSet d m i v) j = if j = i then v else mapGet d m j := by
  unfold mapSet
  split
  · subst_vars
    exact mapGet_mapDel ..
  · exact mapGet_mapPut ..

@[simp] theorem mapGet_mapSet_same [DecidableEq α] (d v : α) (i : Nat) (m : List (Nat × α)) :
    mapGet d (mapSet d m i v) i = v := by simp [mapGet_mapSet]

theorem mapGet_mapSet_ne [DecidableEq α] (d v : α) {i j : Nat} (m : List (Nat × α)) (h : j ≠ i) :
    mapGet d (mapSet d m i v) j = mapGet d m j := by simp [mapGet_mapSet, h]

/-- Keys that rise from a bound. -/
theorem keysRise_cons (k : Nat) (v : α) (t : List (Nat × α)) :
    keysRise ((k, v) :: t) = true ↔ (∀ p ∈ t.head?, k < p.1) ∧ keysRise t = true := by
  cases t with
  | nil => simp [keysRise]
  | cons p t => simp [keysRise]

theorem head_mapPut (i : Nat) (v : α) (m : List (Nat × α)) :
    ∀ p ∈ (mapPut i v m).head?, p.1 = i ∨ ∃ q ∈ m.head?, p.1 = q.1 ∧ q.1 < i := by
  cases m with
  | nil => simp [mapPut]
  | cons q t =>
    obtain ⟨k, w⟩ := q
    simp only [mapPut]
    split
    · simp
    · split
      · simp
      · simp; omega

theorem keysRise_mapPut (i : Nat) (v : α) (m : List (Nat × α)) (h : keysRise m = true) :
    keysRise (mapPut i v m) = true := by
  induction m with
  | nil => rfl
  | cons q t ih =>
    obtain ⟨k, w⟩ := q
    rw [keysRise_cons] at h
    simp only [mapPut]
    split
    · next hlt => rw [keysRise_cons, keysRise_cons]; exact ⟨by simpa using hlt, h⟩
    · split
      · subst_vars; rw [keysRise_cons]; exact h
      · rw [keysRise_cons]
        refine ⟨fun p hp => ?_, ih h.2⟩
        rcases head_mapPut i v t p hp with h1 | ⟨q, hq, h2, -⟩
        · omega
        · have := h.1 q hq
          omega

theorem keysRise_above (k : Nat) (m : List (Nat × α)) (h : keysRise m = true) (hk : ∀ p ∈ m.head?, k < p.1) :
    ∀ p ∈ m, k < p.1 := by
  induction m generalizing k with
  | nil => simp
  | cons q t ih =>
    obtain ⟨j, w⟩ := q
    rw [keysRise_cons] at h
    have hj : k < j := by simpa using hk
    intro p hp
    rcases List.mem_cons.mp hp with rfl | hp
    · exact hj
    · exact lt_trans hj (ih j h.2 h.1 p hp)

theorem keysRise_filter (f : Nat × α → Bool) (m : List (Nat × α)) (h : keysRise m = true) :
    keysRise (m.filter f) = true := by
  induction m with
  | nil => rfl
  | cons q t ih =>
    obtain ⟨k, w⟩ := q
    rw [keysRise_cons] at h
    simp only [List.filter_cons]
    split
    · rw [keysRise_cons]
      refine ⟨fun p hp => ?_, ih h.2⟩
      have hm : p ∈ t.filter f := List.mem_of_mem_head? hp
      exact keysRise_above k t h.2 h.1 p (List.mem_filter.mp hm).1
    · exact ih h.2

theorem mapDel_eq_filter (i : Nat) (m : List (Nat × α)) : mapDel i m = m.filter fun p => decide (i ≠ p.1) := by
  induction m with
  | nil => rfl
  | cons q t ih =>
    obtain ⟨k, w⟩ := q
    by_cases h : i = k
    · subst h; simpa [mapDel] using ih
    · simpa [mapDel, h] using ih

theorem mem_mapPut (i : Nat) (v : α) (m : List (Nat × α)) : ∀ p ∈ mapPut i v m, p = (i, v) ∨ p ∈ m := by
  induction m with
  | nil => simp [mapPut]
  | cons q t ih =>
    obtain ⟨k, w⟩ := q
    intro p hp
    simp only [mapPut] at hp
    split at hp
    · simpa using hp
    · split at hp
      · rcases List.mem_cons.mp hp with h | h <;> simp [h]
      · rcases List.mem_cons.mp hp with h | h
        · simp [h]
        · rcases ih p h with h | h <;> simp [h]

/-- The canonical form of a filtered map. -/
theorem mapWf_filter [DecidableEq α] (d : α) (f : Nat × α → Bool) (m : List (Nat × α)) (h : mapWf d m = true) :
    mapWf d (m.filter f) = true := by
  simp only [mapWf, Bool.and_eq_true, List.all_eq_true] at h ⊢
  exact ⟨keysRise_filter f m h.1, fun p hp => h.2 p (List.mem_filter.mp hp).1⟩

/-- The canonical form after a change at one key. -/
theorem mapWf_mapSet [DecidableEq α] (d v : α) (i : Nat) (m : List (Nat × α)) (h : mapWf d m = true) :
    mapWf d (mapSet d m i v) = true := by
  unfold mapSet
  split
  · rw [mapDel_eq_filter]; exact mapWf_filter d _ m h
  · next hv =>
    simp only [mapWf, Bool.and_eq_true, List.all_eq_true] at h ⊢
    refine ⟨keysRise_mapPut i v m h.1, fun p hp => ?_⟩
    rcases mem_mapPut i v m p hp with rfl | hp
    · simpa using hv
    · exact h.2 p hp

@[simp] theorem mapWf_nil [DecidableEq α] (d : α) : mapWf d ([] : List (Nat × α)) = true := rfl

/-- A listed value is what its key reads as. -/
theorem mapGet_of_mem (d : α) (m : List (Nat × α)) (h : keysRise m = true) :
    ∀ p ∈ m, mapGet d m p.1 = p.2 := by
  induction m with
  | nil => simp
  | cons q t ih =>
    obtain ⟨k, w⟩ := q
    rw [keysRise_cons] at h
    intro p hp
    rcases List.mem_cons.mp hp with rfl | hp
    · simp [mapGet]
    · have := keysRise_above k t h.2 h.1 p hp
      have hne : p.1 ≠ k := by omega
      simp [mapGet, hne, ih h.2 p hp]

theorem mapGet_unlisted (d : α) (m : List (Nat × α)) (i : Nat) (h : ∀ p ∈ m, p.1 ≠ i) : mapGet d m i = d := by
  induction m with
  | nil => rfl
  | cons q t ih =>
    obtain ⟨k, w⟩ := q
    have hk : i ≠ k := fun e => h (k, w) (by simp) e.symm
    simp [mapGet, hk, ih fun p hp => h p (by simp [hp])]

theorem mapPut_cons {α : Type} (i k : Nat) (v x : α) (t : List (Nat × α)) : mapPut i v ((k, x) :: t) =
    if i < k then (i, v) :: (k, x) :: t else if i = k then (i, v) :: t else (k, x) :: mapPut i v t := rfl
/-- A second entry for a key replaces the first. -/
theorem mapPut_mapPut {α : Type} (i : Nat) (v w : α) : ∀ m : List (Nat × α), mapPut i w (mapPut i v m) = mapPut i w m := by
  intro m
  induction m with
  | nil => show (if i < i then _ else if i = i then _ else _) = _; rw [if_neg (by omega), if_pos rfl]; rfl
  | cons p t ih =>
    obtain ⟨k, x⟩ := p
    rw [mapPut_cons, mapPut_cons]
    by_cases h1 : i < k
    · rw [if_pos h1, if_pos h1, mapPut_cons, if_neg (by omega), if_pos rfl]
    · by_cases h2 : i = k
      · rw [if_neg h1, if_pos h2, if_neg h1, if_pos h2, mapPut_cons, if_neg (by omega), if_pos rfl]
      · rw [if_neg h1, if_neg h2, if_neg h1, if_neg h2, mapPut_cons, if_neg h1, if_neg h2, ih]

end Sys2Proof.Machine
end

