-- ==== Sys2Proof/Laws/State.lean ====
section
/-! SUPPORT. What each replacement of a part of the state leaves: one lemma for each field, and what each part reads as afterwards. -/

namespace Sys2Proof.Machine

section
variable (s : State) (i j : Nat) (v : Ctx)

@[simp] theorem State.setCtx_mem : (s.setCtx i v).mem = s.mem := rfl
@[simp] theorem State.setCtx_tags : (s.setCtx i v).tags = s.tags := rfl
@[simp] theorem State.setCtx_bank : (s.setCtx i v).bank = s.bank := rfl
@[simp] theorem State.setCtx_poison : (s.setCtx i v).poison = s.poison := rfl
@[simp] theorem State.setCtx_latent : (s.setCtx i v).latent = s.latent := rfl
@[simp] theorem State.setCtx_det : (s.setCtx i v).det = s.det := rfl
@[simp] theorem State.setCtx_time : (s.setCtx i v).time = s.time := rfl
@[simp] theorem State.setCtx_cst : (s.setCtx i v).cst = s.cst := rfl
@[simp] theorem State.setCtx_cofs : (s.setCtx i v).cofs = s.cofs := rfl
@[simp] theorem State.setCtx_slew : (s.setCtx i v).slew = s.slew := rfl
@[simp] theorem State.setCtx_slewAcc : (s.setCtx i v).slewAcc = s.slewAcc := rfl
@[simp] theorem State.setCtx_stepped : (s.setCtx i v).stepped = s.stepped := rfl
@[simp] theorem State.setCtx_cores : (s.setCtx i v).cores = s.cores := rfl
@[simp] theorem State.setCtx_clusters : (s.setCtx i v).clusters = s.clusters := rfl
@[simp] theorem State.setCtx_dies : (s.setCtx i v).dies = s.dies := rfl
@[simp] theorem State.setCtx_jobs : (s.setCtx i v).jobs = s.jobs := rfl
@[simp] theorem State.setCtx_nextJob : (s.setCtx i v).nextJob = s.nextJob := rfl
@[simp] theorem State.setCtx_jobSeq : (s.setCtx i v).jobSeq = s.jobSeq := rfl
@[simp] theorem State.setCtx_saved : (s.setCtx i v).saved = s.saved := rfl
@[simp] theorem State.setCtx_nextHandle : (s.setCtx i v).nextHandle = s.nextHandle := rfl
@[simp] theorem State.setCtx_streams : (s.setCtx i v).streams = s.streams := rfl
@[simp] theorem State.setCtx_graphs : (s.setCtx i v).graphs = s.graphs := rfl
@[simp] theorem State.setCtx_queues : (s.setCtx i v).queues = s.queues := rfl
@[simp] theorem State.setCtx_flows : (s.setCtx i v).flows = s.flows := rfl
@[simp] theorem State.setCtx_pf : (s.setCtx i v).pf = s.pf := rfl
@[simp] theorem State.setCtx_chunkNo : (s.setCtx i v).chunkNo = s.chunkNo := rfl
@[simp] theorem State.setCtx_ports : (s.setCtx i v).ports = s.ports := rfl
@[simp] theorem State.setCtx_outKept : (s.setCtx i v).outKept = s.outKept := rfl
@[simp] theorem State.setCtx_sent : (s.setCtx i v).sent = s.sent := rfl
@[simp] theorem State.setCtx_served : (s.setCtx i v).served = s.served := rfl
@[simp] theorem State.setCtx_msix : (s.setCtx i v).msix = s.msix := rfl
@[simp] theorem State.setCtx_reqs : (s.setCtx i v).reqs = s.reqs := rfl
@[simp] theorem State.setCtx_rid : (s.setCtx i v).rid = s.rid := rfl
@[simp] theorem State.setCtx_tlb : (s.setCtx i v).tlb = s.tlb := rfl
@[simp] theorem State.setCtx_qcount : (s.setCtx i v).qcount = s.qcount := rfl
@[simp] theorem State.setCtx_quarantine : (s.setCtx i v).quarantine = s.quarantine := rfl
@[simp] theorem State.setCtx_records : (s.setCtx i v).records = s.records := rfl
@[simp] theorem State.setCtx_sideband : (s.setCtx i v).sideband = s.sideband := rfl
@[simp] theorem State.setCtx_fw : (s.setCtx i v).fw = s.fw := rfl
@[simp] theorem State.setCtx_recovery : (s.setCtx i v).recovery = s.recovery := rfl
@[simp] theorem State.setCtx_attn : (s.setCtx i v).attn = s.attn := rfl
@[simp] theorem State.setCtx_cur : (s.setCtx i v).cur = s.cur := rfl
@[simp] theorem State.setCtx_agenda : (s.setCtx i v).agenda = s.agenda := rfl
@[simp] theorem State.setCtx_free : (s.setCtx i v).free = s.free := rfl
@[simp] theorem State.setCtx_failures : (s.setCtx i v).failures = s.failures := rfl
theorem State.ctx_setCtx : (s.setCtx i v).ctx j = if j = i then v else s.ctx j := mapGet_mapSet ..
@[simp] theorem State.ctx_setCtx_same : (s.setCtx i v).ctx i = v := by simp [State.ctx_setCtx]
theorem State.ctx_setCtx_ne (h : j ≠ i) : (s.setCtx i v).ctx j = s.ctx j := by simp [State.ctx_setCtx, h]
@[simp] theorem State.core_setCtx : (s.setCtx i v).core j = s.core j := rfl
@[simp] theorem State.cluster_setCtx : (s.setCtx i v).cluster j = s.cluster j := rfl
@[simp] theorem State.die_setCtx : (s.setCtx i v).die j = s.die j := rfl
@[simp] theorem State.job_setCtx : (s.setCtx i v).job j = s.job j := rfl
@[simp] theorem State.stream_setCtx : (s.setCtx i v).stream j = s.stream j := rfl
@[simp] theorem State.graph_setCtx : (s.setCtx i v).graph j = s.graph j := rfl
@[simp] theorem State.queue_setCtx : (s.setCtx i v).queue j = s.queue j := rfl
@[simp] theorem State.flow_setCtx : (s.setCtx i v).flow j = s.flow j := rfl

end

section
variable (s : State) (i j : Nat) (v : Core)

@[simp] theorem State.setCore_mem : (s.setCore i v).mem = s.mem := rfl
@[simp] theorem State.setCore_tags : (s.setCore i v).tags = s.tags := rfl
@[simp] theorem State.setCore_bank : (s.setCore i v).bank = s.bank := rfl
@[simp] theorem State.setCore_poison : (s.setCore i v).poison = s.poison := rfl
@[simp] theorem State.setCore_latent : (s.setCore i v).latent = s.latent := rfl
@[simp] theorem State.setCore_det : (s.setCore i v).det = s.det := rfl
@[simp] theorem State.setCore_time : (s.setCore i v).time = s.time := rfl
@[simp] theorem State.setCore_cst : (s.setCore i v).cst = s.cst := rfl
@[simp] theorem State.setCore_cofs : (s.setCore i v).cofs = s.cofs := rfl
@[simp] theorem State.setCore_slew : (s.setCore i v).slew = s.slew := rfl
@[simp] theorem State.setCore_slewAcc : (s.setCore i v).slewAcc = s.slewAcc := rfl
@[simp] theorem State.setCore_stepped : (s.setCore i v).stepped = s.stepped := rfl
@[simp] theorem State.setCore_ctxs : (s.setCore i v).ctxs = s.ctxs := rfl
@[simp] theorem State.setCore_clusters : (s.setCore i v).clusters = s.clusters := rfl
@[simp] theorem State.setCore_dies : (s.setCore i v).dies = s.dies := rfl
@[simp] theorem State.setCore_jobs : (s.setCore i v).jobs = s.jobs := rfl
@[simp] theorem State.setCore_nextJob : (s.setCore i v).nextJob = s.nextJob := rfl
@[simp] theorem State.setCore_jobSeq : (s.setCore i v).jobSeq = s.jobSeq := rfl
@[simp] theorem State.setCore_saved : (s.setCore i v).saved = s.saved := rfl
@[simp] theorem State.setCore_nextHandle : (s.setCore i v).nextHandle = s.nextHandle := rfl
@[simp] theorem State.setCore_streams : (s.setCore i v).streams = s.streams := rfl
@[simp] theorem State.setCore_graphs : (s.setCore i v).graphs = s.graphs := rfl
@[simp] theorem State.setCore_queues : (s.setCore i v).queues = s.queues := rfl
@[simp] theorem State.setCore_flows : (s.setCore i v).flows = s.flows := rfl
@[simp] theorem State.setCore_pf : (s.setCore i v).pf = s.pf := rfl
@[simp] theorem State.setCore_chunkNo : (s.setCore i v).chunkNo = s.chunkNo := rfl
@[simp] theorem State.setCore_ports : (s.setCore i v).ports = s.ports := rfl
@[simp] theorem State.setCore_outKept : (s.setCore i v).outKept = s.outKept := rfl
@[simp] theorem State.setCore_sent : (s.setCore i v).sent = s.sent := rfl
@[simp] theorem State.setCore_served : (s.setCore i v).served = s.served := rfl
@[simp] theorem State.setCore_msix : (s.setCore i v).msix = s.msix := rfl
@[simp] theorem State.setCore_reqs : (s.setCore i v).reqs = s.reqs := rfl
@[simp] theorem State.setCore_rid : (s.setCore i v).rid = s.rid := rfl
@[simp] theorem State.setCore_tlb : (s.setCore i v).tlb = s.tlb := rfl
@[simp] theorem State.setCore_qcount : (s.setCore i v).qcount = s.qcount := rfl
@[simp] theorem State.setCore_quarantine : (s.setCore i v).quarantine = s.quarantine := rfl
@[simp] theorem State.setCore_records : (s.setCore i v).records = s.records := rfl
@[simp] theorem State.setCore_sideband : (s.setCore i v).sideband = s.sideband := rfl
@[simp] theorem State.setCore_fw : (s.setCore i v).fw = s.fw := rfl
@[simp] theorem State.setCore_recovery : (s.setCore i v).recovery = s.recovery := rfl
@[simp] theorem State.setCore_attn : (s.setCore i v).attn = s.attn := rfl
@[simp] theorem State.setCore_cur : (s.setCore i v).cur = s.cur := rfl
@[simp] theorem State.setCore_agenda : (s.setCore i v).agenda = s.agenda := rfl
@[simp] theorem State.setCore_free : (s.setCore i v).free = s.free := rfl
@[simp] theorem State.setCore_failures : (s.setCore i v).failures = s.failures := rfl
@[simp] theorem State.ctx_setCore : (s.setCore i v).ctx j = s.ctx j := rfl
theorem State.core_setCore : (s.setCore i v).core j = if j = i then v else s.core j := mapGet_mapSet ..
@[simp] theorem State.core_setCore_same : (s.setCore i v).core i = v := by simp [State.core_setCore]
theorem State.core_setCore_ne (h : j ≠ i) : (s.setCore i v).core j = s.core j := by simp [State.core_setCore, h]
@[simp] theorem State.cluster_setCore : (s.setCore i v).cluster j = s.cluster j := rfl
@[simp] theorem State.die_setCore : (s.setCore i v).die j = s.die j := rfl
@[simp] theorem State.job_setCore : (s.setCore i v).job j = s.job j := rfl
@[simp] theorem State.stream_setCore : (s.setCore i v).stream j = s.stream j := rfl
@[simp] theorem State.graph_setCore : (s.setCore i v).graph j = s.graph j := rfl
@[simp] theorem State.queue_setCore : (s.setCore i v).queue j = s.queue j := rfl
@[simp] theorem State.flow_setCore : (s.setCore i v).flow j = s.flow j := rfl

end

section
variable (s : State) (i j : Nat) (v : Cluster)

@[simp] theorem State.setCluster_mem : (s.setCluster i v).mem = s.mem := rfl
@[simp] theorem State.setCluster_tags : (s.setCluster i v).tags = s.tags := rfl
@[simp] theorem State.setCluster_bank : (s.setCluster i v).bank = s.bank := rfl
@[simp] theorem State.setCluster_poison : (s.setCluster i v).poison = s.poison := rfl
@[simp] theorem State.setCluster_latent : (s.setCluster i v).latent = s.latent := rfl
@[simp] theorem State.setCluster_det : (s.setCluster i v).det = s.det := rfl
@[simp] theorem State.setCluster_time : (s.setCluster i v).time = s.time := rfl
@[simp] theorem State.setCluster_cst : (s.setCluster i v).cst = s.cst := rfl
@[simp] theorem State.setCluster_cofs : (s.setCluster i v).cofs = s.cofs := rfl
@[simp] theorem State.setCluster_slew : (s.setCluster i v).slew = s.slew := rfl
@[simp] theorem State.setCluster_slewAcc : (s.setCluster i v).slewAcc = s.slewAcc := rfl
@[simp] theorem State.setCluster_stepped : (s.setCluster i v).stepped = s.stepped := rfl
@[simp] theorem State.setCluster_cores : (s.setCluster i v).cores = s.cores := rfl
@[simp] theorem State.setCluster_ctxs : (s.setCluster i v).ctxs = s.ctxs := rfl
@[simp] theorem State.setCluster_dies : (s.setCluster i v).dies = s.dies := rfl
@[simp] theorem State.setCluster_jobs : (s.setCluster i v).jobs = s.jobs := rfl
@[simp] theorem State.setCluster_nextJob : (s.setCluster i v).nextJob = s.nextJob := rfl
@[simp] theorem State.setCluster_jobSeq : (s.setCluster i v).jobSeq = s.jobSeq := rfl
@[simp] theorem State.setCluster_saved : (s.setCluster i v).saved = s.saved := rfl
@[simp] theorem State.setCluster_nextHandle : (s.setCluster i v).nextHandle = s.nextHandle := rfl
@[simp] theorem State.setCluster_streams : (s.setCluster i v).streams = s.streams := rfl
@[simp] theorem State.setCluster_graphs : (s.setCluster i v).graphs = s.graphs := rfl
@[simp] theorem State.setCluster_queues : (s.setCluster i v).queues = s.queues := rfl
@[simp] theorem State.setCluster_flows : (s.setCluster i v).flows = s.flows := rfl
@[simp] theorem State.setCluster_pf : (s.setCluster i v).pf = s.pf := rfl
@[simp] theorem State.setCluster_chunkNo : (s.setCluster i v).chunkNo = s.chunkNo := rfl
@[simp] theorem State.setCluster_ports : (s.setCluster i v).ports = s.ports := rfl
@[simp] theorem State.setCluster_outKept : (s.setCluster i v).outKept = s.outKept := rfl
@[simp] theorem State.setCluster_sent : (s.setCluster i v).sent = s.sent := rfl
@[simp] theorem State.setCluster_served : (s.setCluster i v).served = s.served := rfl
@[simp] theorem State.setCluster_msix : (s.setCluster i v).msix = s.msix := rfl
@[simp] theorem State.setCluster_reqs : (s.setCluster i v).reqs = s.reqs := rfl
@[simp] theorem State.setCluster_rid : (s.setCluster i v).rid = s.rid := rfl
@[simp] theorem State.setCluster_tlb : (s.setCluster i v).tlb = s.tlb := rfl
@[simp] theorem State.setCluster_qcount : (s.setCluster i v).qcount = s.qcount := rfl
@[simp] theorem State.setCluster_quarantine : (s.setCluster i v).quarantine = s.quarantine := rfl
@[simp] theorem State.setCluster_records : (s.setCluster i v).records = s.records := rfl
@[simp] theorem State.setCluster_sideband : (s.setCluster i v).sideband = s.sideband := rfl
@[simp] theorem State.setCluster_fw : (s.setCluster i v).fw = s.fw := rfl
@[simp] theorem State.setCluster_recovery : (s.setCluster i v).recovery = s.recovery := rfl
@[simp] theorem State.setCluster_attn : (s.setCluster i v).attn = s.attn := rfl
@[simp] theorem State.setCluster_cur : (s.setCluster i v).cur = s.cur := rfl
@[simp] theorem State.setCluster_agenda : (s.setCluster i v).agenda = s.agenda := rfl
@[simp] theorem State.setCluster_free : (s.setCluster i v).free = s.free := rfl
@[simp] theorem State.setCluster_failures : (s.setCluster i v).failures = s.failures := rfl
@[simp] theorem State.ctx_setCluster : (s.setCluster i v).ctx j = s.ctx j := rfl
@[simp] theorem State.core_setCluster : (s.setCluster i v).core j = s.core j := rfl
theorem State.cluster_setCluster : (s.setCluster i v).cluster j = if j = i then v else s.cluster j := mapGet_mapSet ..
@[simp] theorem State.cluster_setCluster_same : (s.setCluster i v).cluster i = v := by simp [State.cluster_setCluster]
theorem State.cluster_setCluster_ne (h : j ≠ i) : (s.setCluster i v).cluster j = s.cluster j := by simp [State.cluster_setCluster, h]
@[simp] theorem State.die_setCluster : (s.setCluster i v).die j = s.die j := rfl
@[simp] theorem State.job_setCluster : (s.setCluster i v).job j = s.job j := rfl
@[simp] theorem State.stream_setCluster : (s.setCluster i v).stream j = s.stream j := rfl
@[simp] theorem State.graph_setCluster : (s.setCluster i v).graph j = s.graph j := rfl
@[simp] theorem State.queue_setCluster : (s.setCluster i v).queue j = s.queue j := rfl
@[simp] theorem State.flow_setCluster : (s.setCluster i v).flow j = s.flow j := rfl

end

section
variable (s : State) (i j : Nat) (v : Die)

@[simp] theorem State.setDie_mem : (s.setDie i v).mem = s.mem := rfl
@[simp] theorem State.setDie_tags : (s.setDie i v).tags = s.tags := rfl
@[simp] theorem State.setDie_bank : (s.setDie i v).bank = s.bank := rfl
@[simp] theorem State.setDie_poison : (s.setDie i v).poison = s.poison := rfl
@[simp] theorem State.setDie_latent : (s.setDie i v).latent = s.latent := rfl
@[simp] theorem State.setDie_det : (s.setDie i v).det = s.det := rfl
@[simp] theorem State.setDie_time : (s.setDie i v).time = s.time := rfl
@[simp] theorem State.setDie_cst : (s.setDie i v).cst = s.cst := rfl
@[simp] theorem State.setDie_cofs : (s.setDie i v).cofs = s.cofs := rfl
@[simp] theorem State.setDie_slew : (s.setDie i v).slew = s.slew := rfl
@[simp] theorem State.setDie_slewAcc : (s.setDie i v).slewAcc = s.slewAcc := rfl
@[simp] theorem State.setDie_stepped : (s.setDie i v).stepped = s.stepped := rfl
@[simp] theorem State.setDie_cores : (s.setDie i v).cores = s.cores := rfl
@[simp] theorem State.setDie_ctxs : (s.setDie i v).ctxs = s.ctxs := rfl
@[simp] theorem State.setDie_clusters : (s.setDie i v).clusters = s.clusters := rfl
@[simp] theorem State.setDie_jobs : (s.setDie i v).jobs = s.jobs := rfl
@[simp] theorem State.setDie_nextJob : (s.setDie i v).nextJob = s.nextJob := rfl
@[simp] theorem State.setDie_jobSeq : (s.setDie i v).jobSeq = s.jobSeq := rfl
@[simp] theorem State.setDie_saved : (s.setDie i v).saved = s.saved := rfl
@[simp] theorem State.setDie_nextHandle : (s.setDie i v).nextHandle = s.nextHandle := rfl
@[simp] theorem State.setDie_streams : (s.setDie i v).streams = s.streams := rfl
@[simp] theorem State.setDie_graphs : (s.setDie i v).graphs = s.graphs := rfl
@[simp] theorem State.setDie_queues : (s.setDie i v).queues = s.queues := rfl
@[simp] theorem State.setDie_flows : (s.setDie i v).flows = s.flows := rfl
@[simp] theorem State.setDie_pf : (s.setDie i v).pf = s.pf := rfl
@[simp] theorem State.setDie_chunkNo : (s.setDie i v).chunkNo = s.chunkNo := rfl
@[simp] theorem State.setDie_ports : (s.setDie i v).ports = s.ports := rfl
@[simp] theorem State.setDie_outKept : (s.setDie i v).outKept = s.outKept := rfl
@[simp] theorem State.setDie_sent : (s.setDie i v).sent = s.sent := rfl
@[simp] theorem State.setDie_served : (s.setDie i v).served = s.served := rfl
@[simp] theorem State.setDie_msix : (s.setDie i v).msix = s.msix := rfl
@[simp] theorem State.setDie_reqs : (s.setDie i v).reqs = s.reqs := rfl
@[simp] theorem State.setDie_rid : (s.setDie i v).rid = s.rid := rfl
@[simp] theorem State.setDie_tlb : (s.setDie i v).tlb = s.tlb := rfl
@[simp] theorem State.setDie_qcount : (s.setDie i v).qcount = s.qcount := rfl
@[simp] theorem State.setDie_quarantine : (s.setDie i v).quarantine = s.quarantine := rfl
@[simp] theorem State.setDie_records : (s.setDie i v).records = s.records := rfl
@[simp] theorem State.setDie_sideband : (s.setDie i v).sideband = s.sideband := rfl
@[simp] theorem State.setDie_fw : (s.setDie i v).fw = s.fw := rfl
@[simp] theorem State.setDie_recovery : (s.setDie i v).recovery = s.recovery := rfl
@[simp] theorem State.setDie_attn : (s.setDie i v).attn = s.attn := rfl
@[simp] theorem State.setDie_cur : (s.setDie i v).cur = s.cur := rfl
@[simp] theorem State.setDie_agenda : (s.setDie i v).agenda = s.agenda := rfl
@[simp] theorem State.setDie_free : (s.setDie i v).free = s.free := rfl
@[simp] theorem State.setDie_failures : (s.setDie i v).failures = s.failures := rfl
@[simp] theorem State.ctx_setDie : (s.setDie i v).ctx j = s.ctx j := rfl
@[simp] theorem State.core_setDie : (s.setDie i v).core j = s.core j := rfl
@[simp] theorem State.cluster_setDie : (s.setDie i v).cluster j = s.cluster j := rfl
theorem State.die_setDie : (s.setDie i v).die j = if j = i then v else s.die j := mapGet_mapSet ..
@[simp] theorem State.die_setDie_same : (s.setDie i v).die i = v := by simp [State.die_setDie]
theorem State.die_setDie_ne (h : j ≠ i) : (s.setDie i v).die j = s.die j := by simp [State.die_setDie, h]
@[simp] theorem State.job_setDie : (s.setDie i v).job j = s.job j := rfl
@[simp] theorem State.stream_setDie : (s.setDie i v).stream j = s.stream j := rfl
@[simp] theorem State.graph_setDie : (s.setDie i v).graph j = s.graph j := rfl
@[simp] theorem State.queue_setDie : (s.setDie i v).queue j = s.queue j := rfl
@[simp] theorem State.flow_setDie : (s.setDie i v).flow j = s.flow j := rfl

end

section
variable (s : State) (i j : Nat) (v : Job)

@[simp] theorem State.setJob_mem : (s.setJob i v).mem = s.mem := rfl
@[simp] theorem State.setJob_tags : (s.setJob i v).tags = s.tags := rfl
@[simp] theorem State.setJob_bank : (s.setJob i v).bank = s.bank := rfl
@[simp] theorem State.setJob_poison : (s.setJob i v).poison = s.poison := rfl
@[simp] theorem State.setJob_latent : (s.setJob i v).latent = s.latent := rfl
@[simp] theorem State.setJob_det : (s.setJob i v).det = s.det := rfl
@[simp] theorem State.setJob_time : (s.setJob i v).time = s.time := rfl
@[simp] theorem State.setJob_cst : (s.setJob i v).cst = s.cst := rfl
@[simp] theorem State.setJob_cofs : (s.setJob i v).cofs = s.cofs := rfl
@[simp] theorem State.setJob_slew : (s.setJob i v).slew = s.slew := rfl
@[simp] theorem State.setJob_slewAcc : (s.setJob i v).slewAcc = s.slewAcc := rfl
@[simp] theorem State.setJob_stepped : (s.setJob i v).stepped = s.stepped := rfl
@[simp] theorem State.setJob_cores : (s.setJob i v).cores = s.cores := rfl
@[simp] theorem State.setJob_ctxs : (s.setJob i v).ctxs = s.ctxs := rfl
@[simp] theorem State.setJob_clusters : (s.setJob i v).clusters = s.clusters := rfl
@[simp] theorem State.setJob_dies : (s.setJob i v).dies = s.dies := rfl
@[simp] theorem State.setJob_nextJob : (s.setJob i v).nextJob = s.nextJob := rfl
@[simp] theorem State.setJob_jobSeq : (s.setJob i v).jobSeq = s.jobSeq := rfl
@[simp] theorem State.setJob_saved : (s.setJob i v).saved = s.saved := rfl
@[simp] theorem State.setJob_nextHandle : (s.setJob i v).nextHandle = s.nextHandle := rfl
@[simp] theorem State.setJob_streams : (s.setJob i v).streams = s.streams := rfl
@[simp] theorem State.setJob_graphs : (s.setJob i v).graphs = s.graphs := rfl
@[simp] theorem State.setJob_queues : (s.setJob i v).queues = s.queues := rfl
@[simp] theorem State.setJob_flows : (s.setJob i v).flows = s.flows := rfl
@[simp] theorem State.setJob_pf : (s.setJob i v).pf = s.pf := rfl
@[simp] theorem State.setJob_chunkNo : (s.setJob i v).chunkNo = s.chunkNo := rfl
@[simp] theorem State.setJob_ports : (s.setJob i v).ports = s.ports := rfl
@[simp] theorem State.setJob_outKept : (s.setJob i v).outKept = s.outKept := rfl
@[simp] theorem State.setJob_sent : (s.setJob i v).sent = s.sent := rfl
@[simp] theorem State.setJob_served : (s.setJob i v).served = s.served := rfl
@[simp] theorem State.setJob_msix : (s.setJob i v).msix = s.msix := rfl
@[simp] theorem State.setJob_reqs : (s.setJob i v).reqs = s.reqs := rfl
@[simp] theorem State.setJob_rid : (s.setJob i v).rid = s.rid := rfl
@[simp] theorem State.setJob_tlb : (s.setJob i v).tlb = s.tlb := rfl
@[simp] theorem State.setJob_qcount : (s.setJob i v).qcount = s.qcount := rfl
@[simp] theorem State.setJob_quarantine : (s.setJob i v).quarantine = s.quarantine := rfl
@[simp] theorem State.setJob_records : (s.setJob i v).records = s.records := rfl
@[simp] theorem State.setJob_sideband : (s.setJob i v).sideband = s.sideband := rfl
@[simp] theorem State.setJob_fw : (s.setJob i v).fw = s.fw := rfl
@[simp] theorem State.setJob_recovery : (s.setJob i v).recovery = s.recovery := rfl
@[simp] theorem State.setJob_attn : (s.setJob i v).attn = s.attn := rfl
@[simp] theorem State.setJob_cur : (s.setJob i v).cur = s.cur := rfl
@[simp] theorem State.setJob_agenda : (s.setJob i v).agenda = s.agenda := rfl
@[simp] theorem State.setJob_free : (s.setJob i v).free = s.free := rfl
@[simp] theorem State.setJob_failures : (s.setJob i v).failures = s.failures := rfl
@[simp] theorem State.ctx_setJob : (s.setJob i v).ctx j = s.ctx j := rfl
@[simp] theorem State.core_setJob : (s.setJob i v).core j = s.core j := rfl
@[simp] theorem State.cluster_setJob : (s.setJob i v).cluster j = s.cluster j := rfl
@[simp] theorem State.die_setJob : (s.setJob i v).die j = s.die j := rfl
theorem State.job_setJob : (s.setJob i v).job j = if j = i then v else s.job j := mapGet_mapSet ..
@[simp] theorem State.job_setJob_same : (s.setJob i v).job i = v := by simp [State.job_setJob]
theorem State.job_setJob_ne (h : j ≠ i) : (s.setJob i v).job j = s.job j := by simp [State.job_setJob, h]
@[simp] theorem State.stream_setJob : (s.setJob i v).stream j = s.stream j := rfl
@[simp] theorem State.graph_setJob : (s.setJob i v).graph j = s.graph j := rfl
@[simp] theorem State.queue_setJob : (s.setJob i v).queue j = s.queue j := rfl
@[simp] theorem State.flow_setJob : (s.setJob i v).flow j = s.flow j := rfl

end

section
variable (s : State) (i j : Nat) (v : Stream)

@[simp] theorem State.setStream_mem : (s.setStream i v).mem = s.mem := rfl
@[simp] theorem State.setStream_tags : (s.setStream i v).tags = s.tags := rfl
@[simp] theorem State.setStream_bank : (s.setStream i v).bank = s.bank := rfl
@[simp] theorem State.setStream_poison : (s.setStream i v).poison = s.poison := rfl
@[simp] theorem State.setStream_latent : (s.setStream i v).latent = s.latent := rfl
@[simp] theorem State.setStream_det : (s.setStream i v).det = s.det := rfl
@[simp] theorem State.setStream_time : (s.setStream i v).time = s.time := rfl
@[simp] theorem State.setStream_cst : (s.setStream i v).cst = s.cst := rfl
@[simp] theorem State.setStream_cofs : (s.setStream i v).cofs = s.cofs := rfl
@[simp] theorem State.setStream_slew : (s.setStream i v).slew = s.slew := rfl
@[simp] theorem State.setStream_slewAcc : (s.setStream i v).slewAcc = s.slewAcc := rfl
@[simp] theorem State.setStream_stepped : (s.setStream i v).stepped = s.stepped := rfl
@[simp] theorem State.setStream_cores : (s.setStream i v).cores = s.cores := rfl
@[simp] theorem State.setStream_ctxs : (s.setStream i v).ctxs = s.ctxs := rfl
@[simp] theorem State.setStream_clusters : (s.setStream i v).clusters = s.clusters := rfl
@[simp] theorem State.setStream_dies : (s.setStream i v).dies = s.dies := rfl
@[simp] theorem State.setStream_jobs : (s.setStream i v).jobs = s.jobs := rfl
@[simp] theorem State.setStream_nextJob : (s.setStream i v).nextJob = s.nextJob := rfl
@[simp] theorem State.setStream_jobSeq : (s.setStream i v).jobSeq = s.jobSeq := rfl
@[simp] theorem State.setStream_saved : (s.setStream i v).saved = s.saved := rfl
@[simp] theorem State.setStream_nextHandle : (s.setStream i v).nextHandle = s.nextHandle := rfl
@[simp] theorem State.setStream_graphs : (s.setStream i v).graphs = s.graphs := rfl
@[simp] theorem State.setStream_queues : (s.setStream i v).queues = s.queues := rfl
@[simp] theorem State.setStream_flows : (s.setStream i v).flows = s.flows := rfl
@[simp] theorem State.setStream_pf : (s.setStream i v).pf = s.pf := rfl
@[simp] theorem State.setStream_chunkNo : (s.setStream i v).chunkNo = s.chunkNo := rfl
@[simp] theorem State.setStream_ports : (s.setStream i v).ports = s.ports := rfl
@[simp] theorem State.setStream_outKept : (s.setStream i v).outKept = s.outKept := rfl
@[simp] theorem State.setStream_sent : (s.setStream i v).sent = s.sent := rfl
@[simp] theorem State.setStream_served : (s.setStream i v).served = s.served := rfl
@[simp] theorem State.setStream_msix : (s.setStream i v).msix = s.msix := rfl
@[simp] theorem State.setStream_reqs : (s.setStream i v).reqs = s.reqs := rfl
@[simp] theorem State.setStream_rid : (s.setStream i v).rid = s.rid := rfl
@[simp] theorem State.setStream_tlb : (s.setStream i v).tlb = s.tlb := rfl
@[simp] theorem State.setStream_qcount : (s.setStream i v).qcount = s.qcount := rfl
@[simp] theorem State.setStream_quarantine : (s.setStream i v).quarantine = s.quarantine := rfl
@[simp] theorem State.setStream_records : (s.setStream i v).records = s.records := rfl
@[simp] theorem State.setStream_sideband : (s.setStream i v).sideband = s.sideband := rfl
@[simp] theorem State.setStream_fw : (s.setStream i v).fw = s.fw := rfl
@[simp] theorem State.setStream_recovery : (s.setStream i v).recovery = s.recovery := rfl
@[simp] theorem State.setStream_attn : (s.setStream i v).attn = s.attn := rfl
@[simp] theorem State.setStream_cur : (s.setStream i v).cur = s.cur := rfl
@[simp] theorem State.setStream_agenda : (s.setStream i v).agenda = s.agenda := rfl
@[simp] theorem State.setStream_free : (s.setStream i v).free = s.free := rfl
@[simp] theorem State.setStream_failures : (s.setStream i v).failures = s.failures := rfl
@[simp] theorem State.ctx_setStream : (s.setStream i v).ctx j = s.ctx j := rfl
@[simp] theorem State.core_setStream : (s.setStream i v).core j = s.core j := rfl
@[simp] theorem State.cluster_setStream : (s.setStream i v).cluster j = s.cluster j := rfl
@[simp] theorem State.die_setStream : (s.setStream i v).die j = s.die j := rfl
@[simp] theorem State.job_setStream : (s.setStream i v).job j = s.job j := rfl
theorem State.stream_setStream : (s.setStream i v).stream j = if j = i then v else s.stream j := mapGet_mapSet ..
@[simp] theorem State.stream_setStream_same : (s.setStream i v).stream i = v := by simp [State.stream_setStream]
theorem State.stream_setStream_ne (h : j ≠ i) : (s.setStream i v).stream j = s.stream j := by simp [State.stream_setStream, h]
@[simp] theorem State.graph_setStream : (s.setStream i v).graph j = s.graph j := rfl
@[simp] theorem State.queue_setStream : (s.setStream i v).queue j = s.queue j := rfl
@[simp] theorem State.flow_setStream : (s.setStream i v).flow j = s.flow j := rfl

end

section
variable (s : State) (i j : Nat) (v : Graph)

@[simp] theorem State.setGraph_mem : (s.setGraph i v).mem = s.mem := rfl
@[simp] theorem State.setGraph_tags : (s.setGraph i v).tags = s.tags := rfl
@[simp] theorem State.setGraph_bank : (s.setGraph i v).bank = s.bank := rfl
@[simp] theorem State.setGraph_poison : (s.setGraph i v).poison = s.poison := rfl
@[simp] theorem State.setGraph_latent : (s.setGraph i v).latent = s.latent := rfl
@[simp] theorem State.setGraph_det : (s.setGraph i v).det = s.det := rfl
@[simp] theorem State.setGraph_time : (s.setGraph i v).time = s.time := rfl
@[simp] theorem State.setGraph_cst : (s.setGraph i v).cst = s.cst := rfl
@[simp] theorem State.setGraph_cofs : (s.setGraph i v).cofs = s.cofs := rfl
@[simp] theorem State.setGraph_slew : (s.setGraph i v).slew = s.slew := rfl
@[simp] theorem State.setGraph_slewAcc : (s.setGraph i v).slewAcc = s.slewAcc := rfl
@[simp] theorem State.setGraph_stepped : (s.setGraph i v).stepped = s.stepped := rfl
@[simp] theorem State.setGraph_cores : (s.setGraph i v).cores = s.cores := rfl
@[simp] theorem State.setGraph_ctxs : (s.setGraph i v).ctxs = s.ctxs := rfl
@[simp] theorem State.setGraph_clusters : (s.setGraph i v).clusters = s.clusters := rfl
@[simp] theorem State.setGraph_dies : (s.setGraph i v).dies = s.dies := rfl
@[simp] theorem State.setGraph_jobs : (s.setGraph i v).jobs = s.jobs := rfl
@[simp] theorem State.setGraph_nextJob : (s.setGraph i v).nextJob = s.nextJob := rfl
@[simp] theorem State.setGraph_jobSeq : (s.setGraph i v).jobSeq = s.jobSeq := rfl
@[simp] theorem State.setGraph_saved : (s.setGraph i v).saved = s.saved := rfl
@[simp] theorem State.setGraph_nextHandle : (s.setGraph i v).nextHandle = s.nextHandle := rfl
@[simp] theorem State.setGraph_streams : (s.setGraph i v).streams = s.streams := rfl
@[simp] theorem State.setGraph_queues : (s.setGraph i v).queues = s.queues := rfl
@[simp] theorem State.setGraph_flows : (s.setGraph i v).flows = s.flows := rfl
@[simp] theorem State.setGraph_pf : (s.setGraph i v).pf = s.pf := rfl
@[simp] theorem State.setGraph_chunkNo : (s.setGraph i v).chunkNo = s.chunkNo := rfl
@[simp] theorem State.setGraph_ports : (s.setGraph i v).ports = s.ports := rfl
@[simp] theorem State.setGraph_outKept : (s.setGraph i v).outKept = s.outKept := rfl
@[simp] theorem State.setGraph_sent : (s.setGraph i v).sent = s.sent := rfl
@[simp] theorem State.setGraph_served : (s.setGraph i v).served = s.served := rfl
@[simp] theorem State.setGraph_msix : (s.setGraph i v).msix = s.msix := rfl
@[simp] theorem State.setGraph_reqs : (s.setGraph i v).reqs = s.reqs := rfl
@[simp] theorem State.setGraph_rid : (s.setGraph i v).rid = s.rid := rfl
@[simp] theorem State.setGraph_tlb : (s.setGraph i v).tlb = s.tlb := rfl
@[simp] theorem State.setGraph_qcount : (s.setGraph i v).qcount = s.qcount := rfl
@[simp] theorem State.setGraph_quarantine : (s.setGraph i v).quarantine = s.quarantine := rfl
@[simp] theorem State.setGraph_records : (s.setGraph i v).records = s.records := rfl
@[simp] theorem State.setGraph_sideband : (s.setGraph i v).sideband = s.sideband := rfl
@[simp] theorem State.setGraph_fw : (s.setGraph i v).fw = s.fw := rfl
@[simp] theorem State.setGraph_recovery : (s.setGraph i v).recovery = s.recovery := rfl
@[simp] theorem State.setGraph_attn : (s.setGraph i v).attn = s.attn := rfl
@[simp] theorem State.setGraph_cur : (s.setGraph i v).cur = s.cur := rfl
@[simp] theorem State.setGraph_agenda : (s.setGraph i v).agenda = s.agenda := rfl
@[simp] theorem State.setGraph_free : (s.setGraph i v).free = s.free := rfl
@[simp] theorem State.setGraph_failures : (s.setGraph i v).failures = s.failures := rfl
@[simp] theorem State.ctx_setGraph : (s.setGraph i v).ctx j = s.ctx j := rfl
@[simp] theorem State.core_setGraph : (s.setGraph i v).core j = s.core j := rfl
@[simp] theorem State.cluster_setGraph : (s.setGraph i v).cluster j = s.cluster j := rfl
@[simp] theorem State.die_setGraph : (s.setGraph i v).die j = s.die j := rfl
@[simp] theorem State.job_setGraph : (s.setGraph i v).job j = s.job j := rfl
@[simp] theorem State.stream_setGraph : (s.setGraph i v).stream j = s.stream j := rfl
theorem State.graph_setGraph : (s.setGraph i v).graph j = if j = i then v else s.graph j := mapGet_mapSet ..
@[simp] theorem State.graph_setGraph_same : (s.setGraph i v).graph i = v := by simp [State.graph_setGraph]
theorem State.graph_setGraph_ne (h : j ≠ i) : (s.setGraph i v).graph j = s.graph j := by simp [State.graph_setGraph, h]
@[simp] theorem State.queue_setGraph : (s.setGraph i v).queue j = s.queue j := rfl
@[simp] theorem State.flow_setGraph : (s.setGraph i v).flow j = s.flow j := rfl

end

section
variable (s : State) (i j : Nat) (v : HostQ)

@[simp] theorem State.setQueue_mem : (s.setQueue i v).mem = s.mem := rfl
@[simp] theorem State.setQueue_tags : (s.setQueue i v).tags = s.tags := rfl
@[simp] theorem State.setQueue_bank : (s.setQueue i v).bank = s.bank := rfl
@[simp] theorem State.setQueue_poison : (s.setQueue i v).poison = s.poison := rfl
@[simp] theorem State.setQueue_latent : (s.setQueue i v).latent = s.latent := rfl
@[simp] theorem State.setQueue_det : (s.setQueue i v).det = s.det := rfl
@[simp] theorem State.setQueue_time : (s.setQueue i v).time = s.time := rfl
@[simp] theorem State.setQueue_cst : (s.setQueue i v).cst = s.cst := rfl
@[simp] theorem State.setQueue_cofs : (s.setQueue i v).cofs = s.cofs := rfl
@[simp] theorem State.setQueue_slew : (s.setQueue i v).slew = s.slew := rfl
@[simp] theorem State.setQueue_slewAcc : (s.setQueue i v).slewAcc = s.slewAcc := rfl
@[simp] theorem State.setQueue_stepped : (s.setQueue i v).stepped = s.stepped := rfl
@[simp] theorem State.setQueue_cores : (s.setQueue i v).cores = s.cores := rfl
@[simp] theorem State.setQueue_ctxs : (s.setQueue i v).ctxs = s.ctxs := rfl
@[simp] theorem State.setQueue_clusters : (s.setQueue i v).clusters = s.clusters := rfl
@[simp] theorem State.setQueue_dies : (s.setQueue i v).dies = s.dies := rfl
@[simp] theorem State.setQueue_jobs : (s.setQueue i v).jobs = s.jobs := rfl
@[simp] theorem State.setQueue_nextJob : (s.setQueue i v).nextJob = s.nextJob := rfl
@[simp] theorem State.setQueue_jobSeq : (s.setQueue i v).jobSeq = s.jobSeq := rfl
@[simp] theorem State.setQueue_saved : (s.setQueue i v).saved = s.saved := rfl
@[simp] theorem State.setQueue_nextHandle : (s.setQueue i v).nextHandle = s.nextHandle := rfl
@[simp] theorem State.setQueue_streams : (s.setQueue i v).streams = s.streams := rfl
@[simp] theorem State.setQueue_graphs : (s.setQueue i v).graphs = s.graphs := rfl
@[simp] theorem State.setQueue_flows : (s.setQueue i v).flows = s.flows := rfl
@[simp] theorem State.setQueue_pf : (s.setQueue i v).pf = s.pf := rfl
@[simp] theorem State.setQueue_chunkNo : (s.setQueue i v).chunkNo = s.chunkNo := rfl
@[simp] theorem State.setQueue_ports : (s.setQueue i v).ports = s.ports := rfl
@[simp] theorem State.setQueue_outKept : (s.setQueue i v).outKept = s.outKept := rfl
@[simp] theorem State.setQueue_sent : (s.setQueue i v).sent = s.sent := rfl
@[simp] theorem State.setQueue_served : (s.setQueue i v).served = s.served := rfl
@[simp] theorem State.setQueue_msix : (s.setQueue i v).msix = s.msix := rfl
@[simp] theorem State.setQueue_reqs : (s.setQueue i v).reqs = s.reqs := rfl
@[simp] theorem State.setQueue_rid : (s.setQueue i v).rid = s.rid := rfl
@[simp] theorem State.setQueue_tlb : (s.setQueue i v).tlb = s.tlb := rfl
@[simp] theorem State.setQueue_qcount : (s.setQueue i v).qcount = s.qcount := rfl
@[simp] theorem State.setQueue_quarantine : (s.setQueue i v).quarantine = s.quarantine := rfl
@[simp] theorem State.setQueue_records : (s.setQueue i v).records = s.records := rfl
@[simp] theorem State.setQueue_sideband : (s.setQueue i v).sideband = s.sideband := rfl
@[simp] theorem State.setQueue_fw : (s.setQueue i v).fw = s.fw := rfl
@[simp] theorem State.setQueue_recovery : (s.setQueue i v).recovery = s.recovery := rfl
@[simp] theorem State.setQueue_attn : (s.setQueue i v).attn = s.attn := rfl
@[simp] theorem State.setQueue_cur : (s.setQueue i v).cur = s.cur := rfl
@[simp] theorem State.setQueue_agenda : (s.setQueue i v).agenda = s.agenda := rfl
@[simp] theorem State.setQueue_free : (s.setQueue i v).free = s.free := rfl
@[simp] theorem State.setQueue_failures : (s.setQueue i v).failures = s.failures := rfl
@[simp] theorem State.ctx_setQueue : (s.setQueue i v).ctx j = s.ctx j := rfl
@[simp] theorem State.core_setQueue : (s.setQueue i v).core j = s.core j := rfl
@[simp] theorem State.cluster_setQueue : (s.setQueue i v).cluster j = s.cluster j := rfl
@[simp] theorem State.die_setQueue : (s.setQueue i v).die j = s.die j := rfl
@[simp] theorem State.job_setQueue : (s.setQueue i v).job j = s.job j := rfl
@[simp] theorem State.stream_setQueue : (s.setQueue i v).stream j = s.stream j := rfl
@[simp] theorem State.graph_setQueue : (s.setQueue i v).graph j = s.graph j := rfl
theorem State.queue_setQueue : (s.setQueue i v).queue j = if j = i then v else s.queue j := mapGet_mapSet ..
@[simp] theorem State.queue_setQueue_same : (s.setQueue i v).queue i = v := by simp [State.queue_setQueue]
theorem State.queue_setQueue_ne (h : j ≠ i) : (s.setQueue i v).queue j = s.queue j := by simp [State.queue_setQueue, h]
@[simp] theorem State.flow_setQueue : (s.setQueue i v).flow j = s.flow j := rfl

end

section
variable (s : State) (i j : Nat) (v : Flow)

@[simp] theorem State.setFlow_mem : (s.setFlow i v).mem = s.mem := rfl
@[simp] theorem State.setFlow_tags : (s.setFlow i v).tags = s.tags := rfl
@[simp] theorem State.setFlow_bank : (s.setFlow i v).bank = s.bank := rfl
@[simp] theorem State.setFlow_poison : (s.setFlow i v).poison = s.poison := rfl
@[simp] theorem State.setFlow_latent : (s.setFlow i v).latent = s.latent := rfl
@[simp] theorem State.setFlow_det : (s.setFlow i v).det = s.det := rfl
@[simp] theorem State.setFlow_time : (s.setFlow i v).time = s.time := rfl
@[simp] theorem State.setFlow_cst : (s.setFlow i v).cst = s.cst := rfl
@[simp] theorem State.setFlow_cofs : (s.setFlow i v).cofs = s.cofs := rfl
@[simp] theorem State.setFlow_slew : (s.setFlow i v).slew = s.slew := rfl
@[simp] theorem State.setFlow_slewAcc : (s.setFlow i v).slewAcc = s.slewAcc := rfl
@[simp] theorem State.setFlow_stepped : (s.setFlow i v).stepped = s.stepped := rfl
@[simp] theorem State.setFlow_cores : (s.setFlow i v).cores = s.cores := rfl
@[simp] theorem State.setFlow_ctxs : (s.setFlow i v).ctxs = s.ctxs := rfl
@[simp] theorem State.setFlow_clusters : (s.setFlow i v).clusters = s.clusters := rfl
@[simp] theorem State.setFlow_dies : (s.setFlow i v).dies = s.dies := rfl
@[simp] theorem State.setFlow_jobs : (s.setFlow i v).jobs = s.jobs := rfl
@[simp] theorem State.setFlow_nextJob : (s.setFlow i v).nextJob = s.nextJob := rfl
@[simp] theorem State.setFlow_jobSeq : (s.setFlow i v).jobSeq = s.jobSeq := rfl
@[simp] theorem State.setFlow_saved : (s.setFlow i v).saved = s.saved := rfl
@[simp] theorem State.setFlow_nextHandle : (s.setFlow i v).nextHandle = s.nextHandle := rfl
@[simp] theorem State.setFlow_streams : (s.setFlow i v).streams = s.streams := rfl
@[simp] theorem State.setFlow_graphs : (s.setFlow i v).graphs = s.graphs := rfl
@[simp] theorem State.setFlow_queues : (s.setFlow i v).queues = s.queues := rfl
@[simp] theorem State.setFlow_pf : (s.setFlow i v).pf = s.pf := rfl
@[simp] theorem State.setFlow_chunkNo : (s.setFlow i v).chunkNo = s.chunkNo := rfl
@[simp] theorem State.setFlow_ports : (s.setFlow i v).ports = s.ports := rfl
@[simp] theorem State.setFlow_outKept : (s.setFlow i v).outKept = s.outKept := rfl
@[simp] theorem State.setFlow_sent : (s.setFlow i v).sent = s.sent := rfl
@[simp] theorem State.setFlow_served : (s.setFlow i v).served = s.served := rfl
@[simp] theorem State.setFlow_msix : (s.setFlow i v).msix = s.msix := rfl
@[simp] theorem State.setFlow_reqs : (s.setFlow i v).reqs = s.reqs := rfl
@[simp] theorem State.setFlow_rid : (s.setFlow i v).rid = s.rid := rfl
@[simp] theorem State.setFlow_tlb : (s.setFlow i v).tlb = s.tlb := rfl
@[simp] theorem State.setFlow_qcount : (s.setFlow i v).qcount = s.qcount := rfl
@[simp] theorem State.setFlow_quarantine : (s.setFlow i v).quarantine = s.quarantine := rfl
@[simp] theorem State.setFlow_records : (s.setFlow i v).records = s.records := rfl
@[simp] theorem State.setFlow_sideband : (s.setFlow i v).sideband = s.sideband := rfl
@[simp] theorem State.setFlow_fw : (s.setFlow i v).fw = s.fw := rfl
@[simp] theorem State.setFlow_recovery : (s.setFlow i v).recovery = s.recovery := rfl
@[simp] theorem State.setFlow_attn : (s.setFlow i v).attn = s.attn := rfl
@[simp] theorem State.setFlow_cur : (s.setFlow i v).cur = s.cur := rfl
@[simp] theorem State.setFlow_agenda : (s.setFlow i v).agenda = s.agenda := rfl
@[simp] theorem State.setFlow_free : (s.setFlow i v).free = s.free := rfl
@[simp] theorem State.setFlow_failures : (s.setFlow i v).failures = s.failures := rfl
@[simp] theorem State.ctx_setFlow : (s.setFlow i v).ctx j = s.ctx j := rfl
@[simp] theorem State.core_setFlow : (s.setFlow i v).core j = s.core j := rfl
@[simp] theorem State.cluster_setFlow : (s.setFlow i v).cluster j = s.cluster j := rfl
@[simp] theorem State.die_setFlow : (s.setFlow i v).die j = s.die j := rfl
@[simp] theorem State.job_setFlow : (s.setFlow i v).job j = s.job j := rfl
@[simp] theorem State.stream_setFlow : (s.setFlow i v).stream j = s.stream j := rfl
@[simp] theorem State.graph_setFlow : (s.setFlow i v).graph j = s.graph j := rfl
@[simp] theorem State.queue_setFlow : (s.setFlow i v).queue j = s.queue j := rfl
theorem State.flow_setFlow : (s.setFlow i v).flow j = if j = i then v else s.flow j := mapGet_mapSet ..
@[simp] theorem State.flow_setFlow_same : (s.setFlow i v).flow i = v := by simp [State.flow_setFlow]
theorem State.flow_setFlow_ne (h : j ≠ i) : (s.setFlow i v).flow j = s.flow j := by simp [State.flow_setFlow, h]

end

section
variable (s : State) (c : Ctx)

@[simp] theorem State.setMe_me : (s.setMe c).me = c := State.ctx_setCtx_same ..
theorem State.setMe_ctx (j : Nat) : (s.setMe c).ctx j = if j = s.cur then c else s.ctx j := State.ctx_setCtx ..
theorem State.me_eq : s.me = s.ctx s.cur := rfl

@[simp] theorem State.setMe_mem : (s.setMe c).mem = s.mem := rfl
@[simp] theorem State.setMe_tags : (s.setMe c).tags = s.tags := rfl
@[simp] theorem State.setMe_bank : (s.setMe c).bank = s.bank := rfl
@[simp] theorem State.setMe_poison : (s.setMe c).poison = s.poison := rfl
@[simp] theorem State.setMe_latent : (s.setMe c).latent = s.latent := rfl
@[simp] theorem State.setMe_det : (s.setMe c).det = s.det := rfl
@[simp] theorem State.setMe_time : (s.setMe c).time = s.time := rfl
@[simp] theorem State.setMe_cst : (s.setMe c).cst = s.cst := rfl
@[simp] theorem State.setMe_cofs : (s.setMe c).cofs = s.cofs := rfl
@[simp] theorem State.setMe_slew : (s.setMe c).slew = s.slew := rfl
@[simp] theorem State.setMe_slewAcc : (s.setMe c).slewAcc = s.slewAcc := rfl
@[simp] theorem State.setMe_stepped : (s.setMe c).stepped = s.stepped := rfl
@[simp] theorem State.setMe_cores : (s.setMe c).cores = s.cores := rfl
@[simp] theorem State.setMe_clusters : (s.setMe c).clusters = s.clusters := rfl
@[simp] theorem State.setMe_dies : (s.setMe c).dies = s.dies := rfl
@[simp] theorem State.setMe_jobs : (s.setMe c).jobs = s.jobs := rfl
@[simp] theorem State.setMe_nextJob : (s.setMe c).nextJob = s.nextJob := rfl
@[simp] theorem State.setMe_jobSeq : (s.setMe c).jobSeq = s.jobSeq := rfl
@[simp] theorem State.setMe_saved : (s.setMe c).saved = s.saved := rfl
@[simp] theorem State.setMe_nextHandle : (s.setMe c).nextHandle = s.nextHandle := rfl
@[simp] theorem State.setMe_streams : (s.setMe c).streams = s.streams := rfl
@[simp] theorem State.setMe_graphs : (s.setMe c).graphs = s.graphs := rfl
@[simp] theorem State.setMe_queues : (s.setMe c).queues = s.queues := rfl
@[simp] theorem State.setMe_flows : (s.setMe c).flows = s.flows := rfl
@[simp] theorem State.setMe_pf : (s.setMe c).pf = s.pf := rfl
@[simp] theorem State.setMe_chunkNo : (s.setMe c).chunkNo = s.chunkNo := rfl
@[simp] theorem State.setMe_ports : (s.setMe c).ports = s.ports := rfl
@[simp] theorem State.setMe_outKept : (s.setMe c).outKept = s.outKept := rfl
@[simp] theorem State.setMe_sent : (s.setMe c).sent = s.sent := rfl
@[simp] theorem State.setMe_served : (s.setMe c).served = s.served := rfl
@[simp] theorem State.setMe_msix : (s.setMe c).msix = s.msix := rfl
@[simp] theorem State.setMe_reqs : (s.setMe c).reqs = s.reqs := rfl
@[simp] theorem State.setMe_rid : (s.setMe c).rid = s.rid := rfl
@[simp] theorem State.setMe_tlb : (s.setMe c).tlb = s.tlb := rfl
@[simp] theorem State.setMe_qcount : (s.setMe c).qcount = s.qcount := rfl
@[simp] theorem State.setMe_quarantine : (s.setMe c).quarantine = s.quarantine := rfl
@[simp] theorem State.setMe_records : (s.setMe c).records = s.records := rfl
@[simp] theorem State.setMe_sideband : (s.setMe c).sideband = s.sideband := rfl
@[simp] theorem State.setMe_fw : (s.setMe c).fw = s.fw := rfl
@[simp] theorem State.setMe_recovery : (s.setMe c).recovery = s.recovery := rfl
@[simp] theorem State.setMe_attn : (s.setMe c).attn = s.attn := rfl
@[simp] theorem State.setMe_cur : (s.setMe c).cur = s.cur := rfl
@[simp] theorem State.setMe_agenda : (s.setMe c).agenda = s.agenda := rfl
@[simp] theorem State.setMe_free : (s.setMe c).free = s.free := rfl
@[simp] theorem State.setMe_failures : (s.setMe c).failures = s.failures := rfl
@[simp] theorem State.setMe_core (j : Nat) : (s.setMe c).core j = s.core j := rfl
@[simp] theorem State.setMe_cluster (j : Nat) : (s.setMe c).cluster j = s.cluster j := rfl
@[simp] theorem State.setMe_die (j : Nat) : (s.setMe c).die j = s.die j := rfl
@[simp] theorem State.setMe_job (j : Nat) : (s.setMe c).job j = s.job j := rfl
@[simp] theorem State.setMe_stream (j : Nat) : (s.setMe c).stream j = s.stream j := rfl
@[simp] theorem State.setMe_graph (j : Nat) : (s.setMe c).graph j = s.graph j := rfl
@[simp] theorem State.setMe_queue (j : Nat) : (s.setMe c).queue j = s.queue j := rfl
@[simp] theorem State.setMe_flow (j : Nat) : (s.setMe c).flow j = s.flow j := rfl

end

end Sys2Proof.Machine
end

