-- ==== Sys2Proof/Laws/Memory.lean ====
section
/-! SUPPORT. Laws of memory: a byte reads as last written and no other byte changes, the canonical form is kept, and a write
changes nothing but memory. -/

namespace Sys2Proof.Machine

theorem readByte_writeByte (s : State) (k j : Nat) (b : Byte) :
    readByte (writeByte s k b) j = if j = k then b else readByte s j := mapGet_mapSet ..

theorem wf_writeByte (s : State) (k : Nat) (b : Byte) (h : Memory.wf s.mem) : Memory.wf (writeByte s k b).mem :=
  mapWf_mapSet _ _ _ _ h

/-- A byte outside the range written reads as before. -/
theorem readByte_writeBytes_outside (bs : List Byte) (s : State) (k j : Nat) (h : j < k ∨ k + bs.length ≤ j) :
    readByte (writeBytes s k bs) j = readByte s j := by
  induction bs generalizing s k with
  | nil => rfl
  | cons b t ih =>
    simp only [List.length_cons] at h
    rw [writeBytes, ih _ _ (by omega), readByte_writeByte, if_neg (by omega)]

/-- Byte i of the range written reads as the i-th byte. -/
theorem readByte_writeBytes_inside (bs : List Byte) (s : State) (k i : Nat) (h : i < bs.length) :
    readByte (writeBytes s k bs) (k + i) = bs[i] := by
  induction bs generalizing s k i with
  | nil => simp at h
  | cons b t ih =>
    cases i with
    | zero => rw [writeBytes, readByte_writeBytes_outside _ _ _ _ (by omega), readByte_writeByte]; simp
    | succ i =>
      have h' : i < t.length := by simpa using h
      have := ih (writeByte s k b) (k + 1) i h'
      rw [writeBytes, show k + (i + 1) = k + 1 + i by omega, this]
      simp

theorem wf_writeBytes (bs : List Byte) (s : State) (k : Nat) (h : Memory.wf s.mem) : Memory.wf (writeBytes s k bs).mem := by
  induction bs generalizing s k with
  | nil => exact h
  | cons b t ih => exact ih _ _ (wf_writeByte s k b h)

@[simp] theorem natToBytes_length (n v : Nat) : (natToBytes n v).length = n := by
  induction n generalizing v with
  | zero => rfl
  | succ n ih => simp [natToBytes, ih]

theorem wf_writeNat (s : State) (k n v : Nat) (h : Memory.wf s.mem) : Memory.wf (writeNat s k n v).mem :=
  wf_writeBytes _ _ _ h

theorem readByte_writeNat_outside (s : State) (k n v j : Nat) (h : j < k ∨ k + n ≤ j) :
    readByte (writeNat s k n v) j = readByte s j :=
  readByte_writeBytes_outside _ _ _ _ (by simpa using h)

/-- The bytes of a range just written. -/
theorem readBytes_writeBytes (bs : List Byte) (s : State) (k : Nat) : readBytes (writeBytes s k bs) k bs.length = bs := by
  induction bs generalizing s k with
  | nil => rfl
  | cons b t ih =>
    simp only [List.length_cons, readBytes, writeBytes, ih]
    rw [readByte_writeBytes_outside _ _ _ _ (by omega), readByte_writeByte]
    simp

theorem bytesToNat_natToBytes (n v : Nat) : bytesToNat (natToBytes n v) = v % 256 ^ n := by
  induction n generalizing v with
  | zero => simp [natToBytes, bytesToNat, Nat.mod_one]
  | succ n ih =>
    simp only [natToBytes, bytesToNat, ih, BitVec.toNat_ofNat]
    rw [show 256 ^ (n + 1) = 256 * 256 ^ n from Nat.pow_succ', Nat.mod_mul]

/-- A value just written reads back, modulo its width. -/
theorem readNat_writeNat (s : State) (k n v : Nat) : readNat (writeNat s k n v) k n = v % 256 ^ n := by
  unfold readNat writeNat
  have := readBytes_writeBytes (natToBytes n v) s k
  rw [natToBytes_length] at this
  rw [this, bytesToNat_natToBytes]

/-- A range that no write touches reads as before. -/
theorem readBytes_congr (s t : State) (k n : Nat) (h : ∀ j, k ≤ j → j < k + n → readByte t j = readByte s j) :
    readBytes t k n = readBytes s k n := by
  induction n generalizing k with
  | zero => rfl
  | succ n ih =>
    rw [readBytes, readBytes, h k (by omega) (by omega), ih (k + 1) fun j h1 h2 => h j (by omega) (by omega)]

theorem readNat_writeNat_apart (s : State) (k n v j m : Nat) (h : j + m ≤ k ∨ k + n ≤ j) :
    readNat (writeNat s k n v) j m = readNat s j m := by
  unfold readNat
  rw [readBytes_congr s]
  intro i h1 h2
  exact readByte_writeNat_outside _ _ _ _ _ (by omega)

/-- What a write leaves in memory depends on memory alone. -/
theorem writeBytes_mem_congr {s t : State} (h : t.mem = s.mem) (bs : List Byte) (k : Nat) :
    (writeBytes t k bs).mem = (writeBytes s k bs).mem := by
  induction bs generalizing s t k with
  | nil => exact h
  | cons b r ih =>
    refine ih ?_ _
    show mapSet 0 t.mem k b = mapSet 0 s.mem k b
    rw [h]

theorem writeNat_mem_congr {s t : State} (h : t.mem = s.mem) (k n v : Nat) : (writeNat t k n v).mem = (writeNat s k n v).mem :=
  writeBytes_mem_congr h _ _

theorem readByte_of_mem {s t : State} (h : t.mem = s.mem) (k : Nat) : readByte t k = readByte s k := by
  unfold readByte; rw [h]

/-- A write changes memory alone. -/
theorem writeBytes_eq (bs : List Byte) (s : State) (k : Nat) : writeBytes s k bs = { s with mem := (writeBytes s k bs).mem } := by
  induction bs generalizing s k with
  | nil => rfl
  | cons b t ih => rw [writeBytes, ih]; rfl

@[simp] theorem writeByte_tags (s : State) (k : Nat) (b : Byte) : (writeByte s k b).tags = s.tags := rfl
@[simp] theorem writeByte_bank (s : State) (k : Nat) (b : Byte) : (writeByte s k b).bank = s.bank := rfl
@[simp] theorem writeByte_poison (s : State) (k : Nat) (b : Byte) : (writeByte s k b).poison = s.poison := rfl
@[simp] theorem writeByte_latent (s : State) (k : Nat) (b : Byte) : (writeByte s k b).latent = s.latent := rfl
@[simp] theorem writeByte_det (s : State) (k : Nat) (b : Byte) : (writeByte s k b).det = s.det := rfl
@[simp] theorem writeByte_time (s : State) (k : Nat) (b : Byte) : (writeByte s k b).time = s.time := rfl
@[simp] theorem writeByte_cst (s : State) (k : Nat) (b : Byte) : (writeByte s k b).cst = s.cst := rfl
@[simp] theorem writeByte_cofs (s : State) (k : Nat) (b : Byte) : (writeByte s k b).cofs = s.cofs := rfl
@[simp] theorem writeByte_slew (s : State) (k : Nat) (b : Byte) : (writeByte s k b).slew = s.slew := rfl
@[simp] theorem writeByte_slewAcc (s : State) (k : Nat) (b : Byte) : (writeByte s k b).slewAcc = s.slewAcc := rfl
@[simp] theorem writeByte_stepped (s : State) (k : Nat) (b : Byte) : (writeByte s k b).stepped = s.stepped := rfl
@[simp] theorem writeByte_cores (s : State) (k : Nat) (b : Byte) : (writeByte s k b).cores = s.cores := rfl
@[simp] theorem writeByte_ctxs (s : State) (k : Nat) (b : Byte) : (writeByte s k b).ctxs = s.ctxs := rfl
@[simp] theorem writeByte_clusters (s : State) (k : Nat) (b : Byte) : (writeByte s k b).clusters = s.clusters := rfl
@[simp] theorem writeByte_dies (s : State) (k : Nat) (b : Byte) : (writeByte s k b).dies = s.dies := rfl
@[simp] theorem writeByte_jobs (s : State) (k : Nat) (b : Byte) : (writeByte s k b).jobs = s.jobs := rfl
@[simp] theorem writeByte_nextJob (s : State) (k : Nat) (b : Byte) : (writeByte s k b).nextJob = s.nextJob := rfl
@[simp] theorem writeByte_jobSeq (s : State) (k : Nat) (b : Byte) : (writeByte s k b).jobSeq = s.jobSeq := rfl
@[simp] theorem writeByte_saved (s : State) (k : Nat) (b : Byte) : (writeByte s k b).saved = s.saved := rfl
@[simp] theorem writeByte_nextHandle (s : State) (k : Nat) (b : Byte) : (writeByte s k b).nextHandle = s.nextHandle := rfl
@[simp] theorem writeByte_streams (s : State) (k : Nat) (b : Byte) : (writeByte s k b).streams = s.streams := rfl
@[simp] theorem writeByte_graphs (s : State) (k : Nat) (b : Byte) : (writeByte s k b).graphs = s.graphs := rfl
@[simp] theorem writeByte_queues (s : State) (k : Nat) (b : Byte) : (writeByte s k b).queues = s.queues := rfl
@[simp] theorem writeByte_flows (s : State) (k : Nat) (b : Byte) : (writeByte s k b).flows = s.flows := rfl
@[simp] theorem writeByte_pf (s : State) (k : Nat) (b : Byte) : (writeByte s k b).pf = s.pf := rfl
@[simp] theorem writeByte_chunkNo (s : State) (k : Nat) (b : Byte) : (writeByte s k b).chunkNo = s.chunkNo := rfl
@[simp] theorem writeByte_ports (s : State) (k : Nat) (b : Byte) : (writeByte s k b).ports = s.ports := rfl
@[simp] theorem writeByte_outKept (s : State) (k : Nat) (b : Byte) : (writeByte s k b).outKept = s.outKept := rfl
@[simp] theorem writeByte_sent (s : State) (k : Nat) (b : Byte) : (writeByte s k b).sent = s.sent := rfl
@[simp] theorem writeByte_served (s : State) (k : Nat) (b : Byte) : (writeByte s k b).served = s.served := rfl
@[simp] theorem writeByte_msix (s : State) (k : Nat) (b : Byte) : (writeByte s k b).msix = s.msix := rfl
@[simp] theorem writeByte_reqs (s : State) (k : Nat) (b : Byte) : (writeByte s k b).reqs = s.reqs := rfl
@[simp] theorem writeByte_rid (s : State) (k : Nat) (b : Byte) : (writeByte s k b).rid = s.rid := rfl
@[simp] theorem writeByte_tlb (s : State) (k : Nat) (b : Byte) : (writeByte s k b).tlb = s.tlb := rfl
@[simp] theorem writeByte_qcount (s : State) (k : Nat) (b : Byte) : (writeByte s k b).qcount = s.qcount := rfl
@[simp] theorem writeByte_quarantine (s : State) (k : Nat) (b : Byte) : (writeByte s k b).quarantine = s.quarantine := rfl
@[simp] theorem writeByte_fw (s : State) (k : Nat) (b : Byte) : (writeByte s k b).fw = s.fw := rfl
@[simp] theorem writeByte_recovery (s : State) (k : Nat) (b : Byte) : (writeByte s k b).recovery = s.recovery := rfl
@[simp] theorem writeByte_attn (s : State) (k : Nat) (b : Byte) : (writeByte s k b).attn = s.attn := rfl
@[simp] theorem writeByte_cur (s : State) (k : Nat) (b : Byte) : (writeByte s k b).cur = s.cur := rfl
@[simp] theorem writeByte_agenda (s : State) (k : Nat) (b : Byte) : (writeByte s k b).agenda = s.agenda := rfl
@[simp] theorem writeByte_free (s : State) (k : Nat) (b : Byte) : (writeByte s k b).free = s.free := rfl
@[simp] theorem writeByte_failures (s : State) (k : Nat) (b : Byte) : (writeByte s k b).failures = s.failures := rfl
@[simp] theorem writeByte_ctx (s : State) (k : Nat) (b : Byte) (i : Nat) : (writeByte s k b).ctx i = s.ctx i := by simp [State.ctx]
@[simp] theorem writeByte_core (s : State) (k : Nat) (b : Byte) (i : Nat) : (writeByte s k b).core i = s.core i := by simp [State.core]
@[simp] theorem writeByte_cluster (s : State) (k : Nat) (b : Byte) (i : Nat) : (writeByte s k b).cluster i = s.cluster i := by simp [State.cluster]
@[simp] theorem writeByte_die (s : State) (k : Nat) (b : Byte) (i : Nat) : (writeByte s k b).die i = s.die i := by simp [State.die]
@[simp] theorem writeByte_job (s : State) (k : Nat) (b : Byte) (i : Nat) : (writeByte s k b).job i = s.job i := by simp [State.job]
@[simp] theorem writeByte_stream (s : State) (k : Nat) (b : Byte) (i : Nat) : (writeByte s k b).stream i = s.stream i := by simp [State.stream]
@[simp] theorem writeByte_graph (s : State) (k : Nat) (b : Byte) (i : Nat) : (writeByte s k b).graph i = s.graph i := by simp [State.graph]
@[simp] theorem writeByte_queue (s : State) (k : Nat) (b : Byte) (i : Nat) : (writeByte s k b).queue i = s.queue i := by simp [State.queue]
@[simp] theorem writeByte_flow (s : State) (k : Nat) (b : Byte) (i : Nat) : (writeByte s k b).flow i = s.flow i := by simp [State.flow]
@[simp] theorem writeByte_me (s : State) (k : Nat) (b : Byte) : (writeByte s k b).me = s.me := by simp [State.me]

@[simp] theorem writeBytes_tags (s : State) (k : Nat) (bs : List Byte) : (writeBytes s k bs).tags = s.tags := by rw [writeBytes_eq]
@[simp] theorem writeBytes_bank (s : State) (k : Nat) (bs : List Byte) : (writeBytes s k bs).bank = s.bank := by rw [writeBytes_eq]
@[simp] theorem writeBytes_poison (s : State) (k : Nat) (bs : List Byte) : (writeBytes s k bs).poison = s.poison := by rw [writeBytes_eq]
@[simp] theorem writeBytes_latent (s : State) (k : Nat) (bs : List Byte) : (writeBytes s k bs).latent = s.latent := by rw [writeBytes_eq]
@[simp] theorem writeBytes_det (s : State) (k : Nat) (bs : List Byte) : (writeBytes s k bs).det = s.det := by rw [writeBytes_eq]
@[simp] theorem writeBytes_time (s : State) (k : Nat) (bs : List Byte) : (writeBytes s k bs).time = s.time := by rw [writeBytes_eq]
@[simp] theorem writeBytes_cst (s : State) (k : Nat) (bs : List Byte) : (writeBytes s k bs).cst = s.cst := by rw [writeBytes_eq]
@[simp] theorem writeBytes_cofs (s : State) (k : Nat) (bs : List Byte) : (writeBytes s k bs).cofs = s.cofs := by rw [writeBytes_eq]
@[simp] theorem writeBytes_slew (s : State) (k : Nat) (bs : List Byte) : (writeBytes s k bs).slew = s.slew := by rw [writeBytes_eq]
@[simp] theorem writeBytes_slewAcc (s : State) (k : Nat) (bs : List Byte) : (writeBytes s k bs).slewAcc = s.slewAcc := by rw [writeBytes_eq]
@[simp] theorem writeBytes_stepped (s : State) (k : Nat) (bs : List Byte) : (writeBytes s k bs).stepped = s.stepped := by rw [writeBytes_eq]
@[simp] theorem writeBytes_cores (s : State) (k : Nat) (bs : List Byte) : (writeBytes s k bs).cores = s.cores := by rw [writeBytes_eq]
@[simp] theorem writeBytes_ctxs (s : State) (k : Nat) (bs : List Byte) : (writeBytes s k bs).ctxs = s.ctxs := by rw [writeBytes_eq]
@[simp] theorem writeBytes_clusters (s : State) (k : Nat) (bs : List Byte) : (writeBytes s k bs).clusters = s.clusters := by rw [writeBytes_eq]
@[simp] theorem writeBytes_dies (s : State) (k : Nat) (bs : List Byte) : (writeBytes s k bs).dies = s.dies := by rw [writeBytes_eq]
@[simp] theorem writeBytes_jobs (s : State) (k : Nat) (bs : List Byte) : (writeBytes s k bs).jobs = s.jobs := by rw [writeBytes_eq]
@[simp] theorem writeBytes_nextJob (s : State) (k : Nat) (bs : List Byte) : (writeBytes s k bs).nextJob = s.nextJob := by rw [writeBytes_eq]
@[simp] theorem writeBytes_jobSeq (s : State) (k : Nat) (bs : List Byte) : (writeBytes s k bs).jobSeq = s.jobSeq := by rw [writeBytes_eq]
@[simp] theorem writeBytes_saved (s : State) (k : Nat) (bs : List Byte) : (writeBytes s k bs).saved = s.saved := by rw [writeBytes_eq]
@[simp] theorem writeBytes_nextHandle (s : State) (k : Nat) (bs : List Byte) : (writeBytes s k bs).nextHandle = s.nextHandle := by rw [writeBytes_eq]
@[simp] theorem writeBytes_streams (s : State) (k : Nat) (bs : List Byte) : (writeBytes s k bs).streams = s.streams := by rw [writeBytes_eq]
@[simp] theorem writeBytes_graphs (s : State) (k : Nat) (bs : List Byte) : (writeBytes s k bs).graphs = s.graphs := by rw [writeBytes_eq]
@[simp] theorem writeBytes_queues (s : State) (k : Nat) (bs : List Byte) : (writeBytes s k bs).queues = s.queues := by rw [writeBytes_eq]
@[simp] theorem writeBytes_flows (s : State) (k : Nat) (bs : List Byte) : (writeBytes s k bs).flows = s.flows := by rw [writeBytes_eq]
@[simp] theorem writeBytes_pf (s : State) (k : Nat) (bs : List Byte) : (writeBytes s k bs).pf = s.pf := by rw [writeBytes_eq]
@[simp] theorem writeBytes_chunkNo (s : State) (k : Nat) (bs : List Byte) : (writeBytes s k bs).chunkNo = s.chunkNo := by rw [writeBytes_eq]
@[simp] theorem writeBytes_ports (s : State) (k : Nat) (bs : List Byte) : (writeBytes s k bs).ports = s.ports := by rw [writeBytes_eq]
@[simp] theorem writeBytes_outKept (s : State) (k : Nat) (bs : List Byte) : (writeBytes s k bs).outKept = s.outKept := by rw [writeBytes_eq]
@[simp] theorem writeBytes_sent (s : State) (k : Nat) (bs : List Byte) : (writeBytes s k bs).sent = s.sent := by rw [writeBytes_eq]
@[simp] theorem writeBytes_served (s : State) (k : Nat) (bs : List Byte) : (writeBytes s k bs).served = s.served := by rw [writeBytes_eq]
@[simp] theorem writeBytes_msix (s : State) (k : Nat) (bs : List Byte) : (writeBytes s k bs).msix = s.msix := by rw [writeBytes_eq]
@[simp] theorem writeBytes_reqs (s : State) (k : Nat) (bs : List Byte) : (writeBytes s k bs).reqs = s.reqs := by rw [writeBytes_eq]
@[simp] theorem writeBytes_rid (s : State) (k : Nat) (bs : List Byte) : (writeBytes s k bs).rid = s.rid := by rw [writeBytes_eq]
@[simp] theorem writeBytes_tlb (s : State) (k : Nat) (bs : List Byte) : (writeBytes s k bs).tlb = s.tlb := by rw [writeBytes_eq]
@[simp] theorem writeBytes_qcount (s : State) (k : Nat) (bs : List Byte) : (writeBytes s k bs).qcount = s.qcount := by rw [writeBytes_eq]
@[simp] theorem writeBytes_quarantine (s : State) (k : Nat) (bs : List Byte) : (writeBytes s k bs).quarantine = s.quarantine := by rw [writeBytes_eq]
@[simp] theorem writeBytes_fw (s : State) (k : Nat) (bs : List Byte) : (writeBytes s k bs).fw = s.fw := by rw [writeBytes_eq]
@[simp] theorem writeBytes_recovery (s : State) (k : Nat) (bs : List Byte) : (writeBytes s k bs).recovery = s.recovery := by rw [writeBytes_eq]
@[simp] theorem writeBytes_attn (s : State) (k : Nat) (bs : List Byte) : (writeBytes s k bs).attn = s.attn := by rw [writeBytes_eq]
@[simp] theorem writeBytes_cur (s : State) (k : Nat) (bs : List Byte) : (writeBytes s k bs).cur = s.cur := by rw [writeBytes_eq]
@[simp] theorem writeBytes_agenda (s : State) (k : Nat) (bs : List Byte) : (writeBytes s k bs).agenda = s.agenda := by rw [writeBytes_eq]
@[simp] theorem writeBytes_free (s : State) (k : Nat) (bs : List Byte) : (writeBytes s k bs).free = s.free := by rw [writeBytes_eq]
@[simp] theorem writeBytes_failures (s : State) (k : Nat) (bs : List Byte) : (writeBytes s k bs).failures = s.failures := by rw [writeBytes_eq]
@[simp] theorem writeBytes_ctx (s : State) (k : Nat) (bs : List Byte) (i : Nat) : (writeBytes s k bs).ctx i = s.ctx i := by simp [State.ctx]
@[simp] theorem writeBytes_core (s : State) (k : Nat) (bs : List Byte) (i : Nat) : (writeBytes s k bs).core i = s.core i := by simp [State.core]
@[simp] theorem writeBytes_cluster (s : State) (k : Nat) (bs : List Byte) (i : Nat) : (writeBytes s k bs).cluster i = s.cluster i := by simp [State.cluster]
@[simp] theorem writeBytes_die (s : State) (k : Nat) (bs : List Byte) (i : Nat) : (writeBytes s k bs).die i = s.die i := by simp [State.die]
@[simp] theorem writeBytes_job (s : State) (k : Nat) (bs : List Byte) (i : Nat) : (writeBytes s k bs).job i = s.job i := by simp [State.job]
@[simp] theorem writeBytes_stream (s : State) (k : Nat) (bs : List Byte) (i : Nat) : (writeBytes s k bs).stream i = s.stream i := by simp [State.stream]
@[simp] theorem writeBytes_graph (s : State) (k : Nat) (bs : List Byte) (i : Nat) : (writeBytes s k bs).graph i = s.graph i := by simp [State.graph]
@[simp] theorem writeBytes_queue (s : State) (k : Nat) (bs : List Byte) (i : Nat) : (writeBytes s k bs).queue i = s.queue i := by simp [State.queue]
@[simp] theorem writeBytes_flow (s : State) (k : Nat) (bs : List Byte) (i : Nat) : (writeBytes s k bs).flow i = s.flow i := by simp [State.flow]
@[simp] theorem writeBytes_me (s : State) (k : Nat) (bs : List Byte) : (writeBytes s k bs).me = s.me := by simp [State.me]

@[simp] theorem writeNat_tags (s : State) (k n v : Nat) : (writeNat s k n v).tags = s.tags := writeBytes_tags ..
@[simp] theorem writeNat_bank (s : State) (k n v : Nat) : (writeNat s k n v).bank = s.bank := writeBytes_bank ..
@[simp] theorem writeNat_poison (s : State) (k n v : Nat) : (writeNat s k n v).poison = s.poison := writeBytes_poison ..
@[simp] theorem writeNat_latent (s : State) (k n v : Nat) : (writeNat s k n v).latent = s.latent := writeBytes_latent ..
@[simp] theorem writeNat_det (s : State) (k n v : Nat) : (writeNat s k n v).det = s.det := writeBytes_det ..
@[simp] theorem writeNat_time (s : State) (k n v : Nat) : (writeNat s k n v).time = s.time := writeBytes_time ..
@[simp] theorem writeNat_cst (s : State) (k n v : Nat) : (writeNat s k n v).cst = s.cst := writeBytes_cst ..
@[simp] theorem writeNat_cofs (s : State) (k n v : Nat) : (writeNat s k n v).cofs = s.cofs := writeBytes_cofs ..
@[simp] theorem writeNat_slew (s : State) (k n v : Nat) : (writeNat s k n v).slew = s.slew := writeBytes_slew ..
@[simp] theorem writeNat_slewAcc (s : State) (k n v : Nat) : (writeNat s k n v).slewAcc = s.slewAcc := writeBytes_slewAcc ..
@[simp] theorem writeNat_stepped (s : State) (k n v : Nat) : (writeNat s k n v).stepped = s.stepped := writeBytes_stepped ..
@[simp] theorem writeNat_cores (s : State) (k n v : Nat) : (writeNat s k n v).cores = s.cores := writeBytes_cores ..
@[simp] theorem writeNat_ctxs (s : State) (k n v : Nat) : (writeNat s k n v).ctxs = s.ctxs := writeBytes_ctxs ..
@[simp] theorem writeNat_clusters (s : State) (k n v : Nat) : (writeNat s k n v).clusters = s.clusters := writeBytes_clusters ..
@[simp] theorem writeNat_dies (s : State) (k n v : Nat) : (writeNat s k n v).dies = s.dies := writeBytes_dies ..
@[simp] theorem writeNat_jobs (s : State) (k n v : Nat) : (writeNat s k n v).jobs = s.jobs := writeBytes_jobs ..
@[simp] theorem writeNat_nextJob (s : State) (k n v : Nat) : (writeNat s k n v).nextJob = s.nextJob := writeBytes_nextJob ..
@[simp] theorem writeNat_jobSeq (s : State) (k n v : Nat) : (writeNat s k n v).jobSeq = s.jobSeq := writeBytes_jobSeq ..
@[simp] theorem writeNat_saved (s : State) (k n v : Nat) : (writeNat s k n v).saved = s.saved := writeBytes_saved ..
@[simp] theorem writeNat_nextHandle (s : State) (k n v : Nat) : (writeNat s k n v).nextHandle = s.nextHandle := writeBytes_nextHandle ..
@[simp] theorem writeNat_streams (s : State) (k n v : Nat) : (writeNat s k n v).streams = s.streams := writeBytes_streams ..
@[simp] theorem writeNat_graphs (s : State) (k n v : Nat) : (writeNat s k n v).graphs = s.graphs := writeBytes_graphs ..
@[simp] theorem writeNat_queues (s : State) (k n v : Nat) : (writeNat s k n v).queues = s.queues := writeBytes_queues ..
@[simp] theorem writeNat_flows (s : State) (k n v : Nat) : (writeNat s k n v).flows = s.flows := writeBytes_flows ..
@[simp] theorem writeNat_pf (s : State) (k n v : Nat) : (writeNat s k n v).pf = s.pf := writeBytes_pf ..
@[simp] theorem writeNat_chunkNo (s : State) (k n v : Nat) : (writeNat s k n v).chunkNo = s.chunkNo := writeBytes_chunkNo ..
@[simp] theorem writeNat_ports (s : State) (k n v : Nat) : (writeNat s k n v).ports = s.ports := writeBytes_ports ..
@[simp] theorem writeNat_outKept (s : State) (k n v : Nat) : (writeNat s k n v).outKept = s.outKept := writeBytes_outKept ..
@[simp] theorem writeNat_sent (s : State) (k n v : Nat) : (writeNat s k n v).sent = s.sent := writeBytes_sent ..
@[simp] theorem writeNat_served (s : State) (k n v : Nat) : (writeNat s k n v).served = s.served := writeBytes_served ..
@[simp] theorem writeNat_msix (s : State) (k n v : Nat) : (writeNat s k n v).msix = s.msix := writeBytes_msix ..
@[simp] theorem writeNat_reqs (s : State) (k n v : Nat) : (writeNat s k n v).reqs = s.reqs := writeBytes_reqs ..
@[simp] theorem writeNat_rid (s : State) (k n v : Nat) : (writeNat s k n v).rid = s.rid := writeBytes_rid ..
@[simp] theorem writeNat_tlb (s : State) (k n v : Nat) : (writeNat s k n v).tlb = s.tlb := writeBytes_tlb ..
@[simp] theorem writeNat_qcount (s : State) (k n v : Nat) : (writeNat s k n v).qcount = s.qcount := writeBytes_qcount ..
@[simp] theorem writeNat_quarantine (s : State) (k n v : Nat) : (writeNat s k n v).quarantine = s.quarantine := writeBytes_quarantine ..
@[simp] theorem writeNat_fw (s : State) (k n v : Nat) : (writeNat s k n v).fw = s.fw := writeBytes_fw ..
@[simp] theorem writeNat_recovery (s : State) (k n v : Nat) : (writeNat s k n v).recovery = s.recovery := writeBytes_recovery ..
@[simp] theorem writeNat_attn (s : State) (k n v : Nat) : (writeNat s k n v).attn = s.attn := writeBytes_attn ..
@[simp] theorem writeNat_cur (s : State) (k n v : Nat) : (writeNat s k n v).cur = s.cur := writeBytes_cur ..
@[simp] theorem writeNat_agenda (s : State) (k n v : Nat) : (writeNat s k n v).agenda = s.agenda := writeBytes_agenda ..
@[simp] theorem writeNat_free (s : State) (k n v : Nat) : (writeNat s k n v).free = s.free := writeBytes_free ..
@[simp] theorem writeNat_failures (s : State) (k n v : Nat) : (writeNat s k n v).failures = s.failures := writeBytes_failures ..
@[simp] theorem writeNat_ctx (s : State) (k n v : Nat) (i : Nat) : (writeNat s k n v).ctx i = s.ctx i := by simp [State.ctx]
@[simp] theorem writeNat_core (s : State) (k n v : Nat) (i : Nat) : (writeNat s k n v).core i = s.core i := by simp [State.core]
@[simp] theorem writeNat_cluster (s : State) (k n v : Nat) (i : Nat) : (writeNat s k n v).cluster i = s.cluster i := by simp [State.cluster]
@[simp] theorem writeNat_die (s : State) (k n v : Nat) (i : Nat) : (writeNat s k n v).die i = s.die i := by simp [State.die]
@[simp] theorem writeNat_job (s : State) (k n v : Nat) (i : Nat) : (writeNat s k n v).job i = s.job i := by simp [State.job]
@[simp] theorem writeNat_stream (s : State) (k n v : Nat) (i : Nat) : (writeNat s k n v).stream i = s.stream i := by simp [State.stream]
@[simp] theorem writeNat_graph (s : State) (k n v : Nat) (i : Nat) : (writeNat s k n v).graph i = s.graph i := by simp [State.graph]
@[simp] theorem writeNat_queue (s : State) (k n v : Nat) (i : Nat) : (writeNat s k n v).queue i = s.queue i := by simp [State.queue]
@[simp] theorem writeNat_flow (s : State) (k n v : Nat) (i : Nat) : (writeNat s k n v).flow i = s.flow i := by simp [State.flow]
@[simp] theorem writeNat_me (s : State) (k n v : Nat) : (writeNat s k n v).me = s.me := by simp [State.me]

end Sys2Proof.Machine
end

