-- ==== Sys2Proof/Laws/Monad.lean ====
section
/-! SUPPORT. Laws of the form in which a meaning is written: what a computation answers, step by step. -/

namespace Sys2Proof.Machine

variable {α β : Type}

theorem M.bind_apply (x : M α) (f : α → M β) (s : State) :
    (x >>= f) s = match x s with
      | .ok (a, t) => f a t
      | .error e => .error e := by
  show (StateT.bind x f) s = _
  simp only [StateT.bind, bind, Except.bind]
  split <;> simp_all

/-- After a computation that answers, the rest runs in the state it left. -/
theorem M.bind_ok {x : M α} {f : α → M β} {s t : State} {a : α} (h : x s = .ok (a, t)) : (x >>= f) s = f a t := by
  rw [M.bind_apply, h]

/-- A computation that stops ends the whole. -/
theorem M.bind_error {x : M α} {f : α → M β} {s : State} {e : Stop} (h : x s = .error e) : (x >>= f) s = .error e := by
  rw [M.bind_apply, h]

/-- What a sequence that answers went through. -/
theorem M.bind_eq_ok {x : M α} {f : α → M β} {s t : State} {b : β} (h : (x >>= f) s = .ok (b, t)) :
    ∃ a u, x s = .ok (a, u) ∧ f a u = .ok (b, t) := by
  rw [M.bind_apply] at h
  split at h
  · next a u hx => exact ⟨a, u, hx, h⟩
  · simp at h

@[simp] theorem M.pure_apply (a : α) (s : State) : (pure a : M α) s = .ok (a, s) := rfl
@[simp] theorem M.get_apply (s : State) : (get : M State) s = .ok (s, s) := rfl
@[simp] theorem M.getThe_apply (s : State) : (getThe State : M State) s = .ok (s, s) := rfl
@[simp] theorem M.set_apply (t s : State) : (set t : M PUnit) s = .ok (⟨⟩, t) := rfl
@[simp] theorem M.modify_apply (f : State → State) (s : State) : (modify f : M PUnit) s = .ok (⟨⟩, f s) := rfl
@[simp] theorem M.throw_apply (e : Stop) (s : State) : (throw e : M α) s = .error e := rfl
@[simp] theorem M.map_apply (f : α → β) (x : M α) (s : State) :
    (f <$> x) s = match x s with
      | .ok (a, t) => .ok (f a, t)
      | .error e => .error e := by
  show (StateT.map f x) s = _
  simp only [StateT.map, bind, Except.bind]
  cases x s <;> rfl

@[simp] theorem M.bind_pure_apply (a : α) (f : α → M β) (s : State) : (pure a >>= f) s = f a s := rfl
@[simp] theorem M.bind_get_apply (f : State → M β) (s : State) : ((get : M State) >>= f) s = f s s := rfl
@[simp] theorem M.bind_modify_apply (g : State → State) (f : PUnit → M β) (s : State) :
    ((modify g : M PUnit) >>= f) s = f ⟨⟩ (g s) := rfl
@[simp] theorem M.bind_set_apply (t : State) (f : PUnit → M β) (s : State) : ((set t : M PUnit) >>= f) s = f ⟨⟩ t := rfl
@[simp] theorem M.bind_throw_apply (e : Stop) (f : α → M β) (s : State) : ((throw e : M α) >>= f) s = .error e := rfl

@[simp] theorem trapM_apply (c : BitVec 8) (v : W64) (s : State) : (trapM c v : M α) s = .error (.trap c v) := rfl
@[simp] theorem issueTrapM_apply (c : BitVec 8) (v : W64) (s : State) : (issueTrapM c v : M α) s = .error (.issueTrap c v) := rfl
@[simp] theorem waitM_apply (s : State) : (waitM : M α) s = .error .wait := rfl
@[simp] theorem holdM_apply (s : State) : (holdM : M α) s = .error (.hold fun _ => s) := rfl
@[simp] theorem holdWith_apply (f : State → State) (s : State) : (holdWith f : M α) s = .error (.hold f) := rfl

theorem check_apply (ok : Bool) (c : BitVec 8) (v : W64) (s : State) :
    check ok c v s = if ok then .ok ((), s) else .error (.trap c v) := by
  cases ok <;> rfl

@[simp] theorem check_true (c : BitVec 8) (v : W64) (s : State) : check true c v s = .ok ((), s) := rfl
@[simp] theorem check_false (c : BitVec 8) (v : W64) (s : State) : check false c v s = .error (.trap c v) := rfl

theorem await_apply (ok : Bool) (s : State) : await ok s = if ok then .ok ((), s) else .error .wait := by
  cases ok <;> rfl

@[simp] theorem await_true (s : State) : await true s = .ok ((), s) := rfl
@[simp] theorem await_false (s : State) : await false s = .error .wait := rfl

@[simp] theorem getMe_apply (s : State) : getMe s = .ok (s.me, s) := rfl
@[simp] theorem modMe_apply (f : Ctx → Ctx) (s : State) : modMe f s = .ok ((), s.setMe (f s.me)) := rfl
@[simp] theorem myCore_apply (s : State) : myCore s = .ok (coreOf s.cur, s) := rfl
@[simp] theorem drawWord_apply (s : State) : drawWord s = .ok (Config.freeWord s.free, { s with free := s.free + 1 }) := rfl

@[simp] theorem M.bind_getMe (f : Ctx → M β) (s : State) : (getMe >>= f) s = f s.me s := rfl
@[simp] theorem M.bind_modMe (g : Ctx → Ctx) (f : Unit → M β) (s : State) : (modMe g >>= f) s = f () (s.setMe (g s.me)) := rfl
@[simp] theorem M.bind_myCore (f : Nat → M β) (s : State) : (myCore >>= f) s = f (coreOf s.cur) s := rfl
@[simp] theorem M.bind_trapM (c : BitVec 8) (v : W64) (f : α → M β) (s : State) :
    (trapM c v >>= f) s = .error (.trap c v) := rfl
@[simp] theorem M.bind_check_true (c : BitVec 8) (v : W64) (f : Unit → M β) (s : State) :
    (check true c v >>= f) s = f () s := rfl
@[simp] theorem M.bind_await_true (f : Unit → M β) (s : State) : (await true >>= f) s = f () s := rfl

/-- A test that holds is passed. -/
theorem M.bind_check {ok : Bool} (h : ok = true) (c : BitVec 8) (v : W64) (f : Unit → M β) (s : State) :
    (check ok c v >>= f) s = f () s := by subst h; rfl

/-- A test that fails traps. -/
theorem M.bind_check_fails {ok : Bool} (h : ok = false) (c : BitVec 8) (v : W64) (f : Unit → M β) (s : State) :
    (check ok c v >>= f) s = .error (.trap c v) := by subst h; rfl

/-- A wait whose condition holds is passed. -/
theorem M.bind_await {ok : Bool} (h : ok = true) (f : Unit → M β) (s : State) : (await ok >>= f) s = f () s := by
  subst h; rfl

/-- A wait whose condition fails holds the bundle. -/
theorem M.bind_await_fails {ok : Bool} (h : ok = false) (f : Unit → M β) (s : State) :
    (await ok >>= f) s = .error .wait := by subst h; rfl

theorem M.ite_apply (p : Prop) [Decidable p] (x y : M α) (s : State) : (if p then x else y) s = if p then x s else y s := by
  split <;> rfl

end Sys2Proof.Machine
end

