-- ==== Sys2Proof/Laws/Operands.lean ====
section
/-! SUPPORT. Laws of the operand forms: what a register read answers, what a register write does, and when either waits or
faults. -/

namespace Sys2Proof.Machine

@[simp] theorem State.cur_put (s : State) (r : Reg) (v : W64) : (s.put r v).cur = s.cur := by
  unfold State.put; split <;> rfl

@[simp] theorem State.mem_put (s : State) (r : Reg) (v : W64) : (s.put r v).mem = s.mem := by
  unfold State.put; split <;> rfl

@[simp] theorem State.cur_later (s : State) (r : Reg) (v fl : W64) : (s.later r v fl).cur = s.cur := by
  unfold State.later; split <;> rfl

@[simp] theorem State.mem_later (s : State) (r : Reg) (v fl : W64) : (s.later r v fl).mem = s.mem := by
  unfold State.later; split <;> rfl

@[simp] theorem State.cur_iss (s : State) (f : Issue → Issue) : (s.iss f).cur = s.cur := rfl
@[simp] theorem State.mem_iss (s : State) (f : Issue → Issue) : (s.iss f).mem = s.mem := rfl
@[simp] theorem State.cur_synced (s : State) : s.synced.cur = s.cur := rfl
@[simp] theorem State.mem_synced (s : State) : s.synced.mem = s.mem := rfl

@[simp] theorem State.val_zero (s : State) : s.val 0 = 0 := by simp [State.val]

/-- A source that stands ready answers its value and changes nothing. -/
theorem readReg_ready {s : State} {r : Reg} (e : Bool) (h : Reads s r) : readReg r e s = .ok (s.val r, s) := by
  unfold readReg State.val
  rw [M.bind_getMe]
  by_cases h0 : r = 0
  · simp [h0]
  · obtain ⟨hp, hs⟩ := h.resolve_left h0
    simp only [h0, if_false, hp]
    cases hsn : (s.me.iss.getD {}).snap with
    | some v => rfl
    | none =>
      simp only [hsn] at hs
      have he : s.me.empty.getLsbD r.toNat = false := by simpa using hs
      rw [he]
      rfl

theorem M.bind_readReg {β : Type} {s : State} {r : Reg} (e : Bool) (h : Reads s r) (f : W64 → M β) :
    (readReg r e >>= f) s = f (s.val r) s := M.bind_ok (readReg_ready e h)

theorem readSrc_ready {s : State} {a : Src} (h : Reads s a.r) : readSrc a s = .ok (s.val a.r, s) := readReg_ready _ h

theorem M.bind_readSrc {β : Type} {s : State} {a : Src} (h : Reads s a.r) (f : W64 → M β) :
    (readSrc a >>= f) s = f (s.val a.r) s := M.bind_ok (readSrc_ready h)

theorem readOp2_ready {s : State} {o : Op2} (h : Reads2 s o) : readOp2 o s = .ok (s.val2 o, s) := by
  cases o with
  | reg b eb => exact readReg_ready eb h
  | imm v => rfl
  | wide v => rfl

theorem M.bind_readOp2 {β : Type} {s : State} {o : Op2} (h : Reads2 s o) (f : W64 → M β) :
    (readOp2 o >>= f) s = f (s.val2 o) s := M.bind_ok (readOp2_ready h)

theorem readOps_ready {s : State} {r : RArgs} (ha : Reads s r.a) (hb : Reads2 s r.op2) :
    readOps r s = .ok ((s.val r.a, s.val2 r.op2), s) := by
  unfold readOps
  rw [M.bind_readReg _ ha, M.bind_readOp2 hb]
  rfl

theorem M.bind_readOps {β : Type} {s : State} {r : RArgs} (ha : Reads s r.a) (hb : Reads2 s r.op2) (f : W64 × W64 → M β) :
    (readOps r >>= f) s = f (s.val r.a, s.val2 r.op2) s := M.bind_ok (readOps_ready ha hb)

/-- An empty source waits, or raises REG_EMPTY where its e bit is 1. -/
theorem readReg_empty {s : State} {r : Reg} (e : Bool) (h0 : r ≠ 0) (hp : boundPort s.me r = none)
    (hs : (s.me.iss.getD {}).snap = none) (he : s.me.empty.getLsbD r.toNat = true) :
    readReg r e s = .error (if e then .issueTrap cRegEmpty (r.setWidth 64) else .wait) := by
  unfold readReg
  rw [M.bind_getMe]
  simp only [h0, if_false, hp, hs, he, if_true]
  cases e <;> rfl

/-- A destination that stands ready is written; x0 discards. -/
theorem writeReg_ready {s : State} {r : Reg} (v : W64) (h : Writes s r) : writeReg r v s = .ok ((), s.put r v) := by
  unfold writeReg State.put
  rw [M.bind_getMe]
  by_cases h0 : r = 0
  · simp [h0]
  · obtain ⟨hp, he, hr⟩ := h.resolve_left h0
    simp only [h0, if_false, hp, he, hr]
    rfl

theorem M.bind_writeReg {β : Type} {s : State} {r : Reg} (v : W64) (h : Writes s r) (f : Unit → M β) :
    (writeReg r v >>= f) s = f () (s.put r v) := M.bind_ok (writeReg_ready v h)

/-- A destination that is empty waits for the write on its way. -/
theorem writeReg_empty {s : State} {r : Reg} (v : W64) (h0 : r ≠ 0) (hp : boundPort s.me r = none)
    (he : s.me.empty.getLsbD r.toNat = true) : writeReg r v s = .error .wait := by
  unfold writeReg
  rw [M.bind_getMe]
  simp only [h0, if_false, hp, he, if_true]
  rfl

theorem pendRegF_ready {s : State} {r : Reg} (v fl : W64) (h : Pends s r) :
    pendRegF r v fl s = .ok ((), s.later r v fl) := by
  unfold pendRegF State.later
  rw [M.bind_getMe]
  by_cases h0 : r = 0
  · subst h0; rfl
  · obtain ⟨hp, he⟩ := h.resolve_left h0
    simp only [h0, if_false, hp, he]
    rfl

theorem pendReg_ready {s : State} {r : Reg} (v : W64) (h : Pends s r) : pendReg r v s = .ok ((), s.later r v 0) :=
  pendRegF_ready v 0 h

theorem M.bind_pendReg {β : Type} {s : State} {r : Reg} (v : W64) (h : Pends s r) (f : Unit → M β) :
    (pendReg r v >>= f) s = f () (s.later r v 0) := M.bind_ok (pendReg_ready v h)

@[simp] theorem modIss_apply (f : Issue → Issue) (s : State) : modIss f s = .ok ((), s.iss f) := rfl
@[simp] theorem getIss_apply (s : State) : getIss s = .ok (s.me.iss.getD {}, s) := rfl
@[simp] theorem markSync_apply (s : State) : markSync s = .ok ((), s.synced) := rfl
@[simp] theorem lateM_apply (l : Late) (s : State) : lateM l s = .ok ((), s.iss fun i => { i with late := i.late ++ [l] }) := rfl

/-- A limit that holds is passed. -/
theorem M.bind_limit {β : Type} {ok : Bool} (h : ok = true) (f : Unit → M β) (s : State) : (limit ok >>= f) s = f () s := by
  subst h; rfl

/-- A limit that fails reports the syllable (R424). -/
theorem M.bind_limit_fails {β : Type} {ok : Bool} (h : ok = false) (f : Unit → M β) (s : State) :
    (limit ok >>= f) s = .error (.trap cReserved ((s.me.iss.getD {}).syl.setWidth 64)) := by
  subst h; rfl

theorem State.me_iss (s : State) (f : Issue → Issue) : (s.iss f).me = { s.me with iss := some (f (s.me.iss.getD {})) } := by
  unfold State.iss; rw [State.setMe_me]

theorem State.me_synced (s : State) : s.synced.me = { s.me with iss := some { s.me.iss.getD {} with sync := true } } := State.me_iss ..

theorem Reads.synced {s : State} {r : Reg} (h : Reads s r) : Reads s.synced r := by
  unfold Reads at *; rw [State.me_synced]; exact h

theorem Writes.synced {s : State} {r : Reg} (h : Writes s r) : Writes s.synced r := by
  unfold Writes at *; rw [State.me_synced]; exact h

theorem Pends.synced {s : State} {r : Reg} (h : Pends s r) : Pends s.synced r := by
  unfold Pends at *; rw [State.me_synced]; exact h

/-- What a register reads as after a write of a register, in the same bundle slot. -/
theorem get_put (s : State) (r q : Reg) (v : W64) :
    (s.put r v).me.x.get q.toFin = if q = r ∧ r ≠ 0 then v else s.me.x.get q.toFin := by
  unfold State.put
  by_cases h0 : r = 0
  · simp [h0]
  · simp only [h0, if_false, State.setMe_me]
    by_cases h : q = r
    · subst h
      rw [if_pos ⟨rfl, h0⟩]
      have hq : q.toNat < 64 := q.isLt
      show (s.me.x.set q.toNat v)[q.toNat] = v
      rw [Vector.getElem_set_self]
    · have hn : ¬ r.toNat = q.toNat := fun e => h (BitVec.eq_of_toNat_eq e.symm)
      have hq : q.toNat < 64 := q.isLt
      simp only [h, false_and, if_false]
      show (s.me.x.set r.toNat v)[q.toNat] = s.me.x[q.toNat]
      rw [Vector.getElem_set_ne _ _ hn]

end Sys2Proof.Machine
end

