-- ==== Sys2Proof/Laws/Ops.lean ====
section
/-! SUPPORT. Laws of running a syllable, of finishing it, and of taking an exception. -/

namespace Sys2Proof.Machine

/-- An instruction without a state-dependent issue-time fault and an effect that answers: the bundle goes on. -/
theorem runSyl_ok {i : Instr} {m : M Unit} {s t : State} (hi : issueFault s s.cur i = none) (hm : m s = .ok ((), t)) :
    runSyl i m s = .next (advance t s.cur) := by
  simp [runSyl, hi, hm, outcome]

theorem runSyl_trap {i : Instr} {m : M Unit} {s : State} {c : BitVec 8} {v : W64} (hi : issueFault s s.cur i = none)
    (hm : m s = .error (.trap c v)) : runSyl i m s = .next (faultHere s s.cur c false v) := by
  simp [runSyl, hi, hm, outcome]

theorem runSyl_issueTrap {i : Instr} {m : M Unit} {s : State} {c : BitVec 8} {v : W64} (hi : issueFault s s.cur i = none)
    (hm : m s = .error (.issueTrap c v)) : runSyl i m s = .next (faultHere s s.cur c true v) := by
  simp [runSyl, hi, hm, outcome]

theorem runSyl_wait {i : Instr} {m : M Unit} {s : State} (hi : issueFault s s.cur i = none) (hm : m s = .error .wait) :
    runSyl i m s = .next (unissue s s.cur) := by
  simp [runSyl, hi, hm, outcome]

theorem runSyl_hold {i : Instr} {m : M Unit} {s : State} {f : State → State} (hi : issueFault s s.cur i = none)
    (hm : m s = .error (.hold f)) : runSyl i m s = .next (unissue (f s) s.cur) := by
  simp [runSyl, hi, hm, outcome]

/-- A state-dependent issue-time fault comes before the effect. -/
theorem runSyl_issueFault {i : Instr} {m : M Unit} {s : State} {c : BitVec 8} (hi : issueFault s s.cur i = some c) :
    runSyl i m s = .next (faultHere s s.cur c true ((s.me.iss.getD {}).syl.setWidth 64)) := by
  simp [runSyl, hi]

/-- What a run of a syllable can answer. -/
theorem runSyl_cases {i : Instr} {m : M Unit} {s t : State} (h : runSyl i m s = .next t) :
    (∃ c it v, t = faultHere s s.cur c it v) ∨ t = unissue s s.cur ∨
      (∃ f, m s = .error (.hold f) ∧ t = unissue (f s) s.cur) ∨ ∃ u, m s = .ok ((), u) ∧ t = advance u s.cur := by
  unfold runSyl outcome at h
  split at h
  · simp only [Host.Outcome.next.injEq] at h
    exact .inl ⟨_, _, _, h.symm⟩
  · split at h
    · next u hu => simp only [Host.Outcome.next.injEq] at h; exact .inr (.inr (.inr ⟨u, hu, h.symm⟩))
    · simp only [Host.Outcome.next.injEq] at h; exact .inl ⟨_, _, _, h.symm⟩
    · simp only [Host.Outcome.next.injEq] at h; exact .inl ⟨_, _, _, h.symm⟩
    · simp only [Host.Outcome.next.injEq] at h; exact .inr (.inl h.symm)
    · next f hf => simp only [Host.Outcome.next.injEq] at h; exact .inr (.inr (.inl ⟨f, hf, h.symm⟩))
    · simp at h

/-- A syllable is never refused. -/
theorem runSyl_not_refused {i : Instr} {m : M Unit} {s : State} (r : Refusal) : runSyl i m s ≠ .refused r := by
  unfold runSyl outcome
  repeat' split
  all_goals simp

/-- What a run of a step of the device can answer. -/
theorem runEvent_cases {m : M Unit} {s t : State} (h : runEvent m s = .next t) :
    m s = .ok ((), t) ∨ (∃ f, m s = .error (.hold f) ∧ t = f s) ∨ t = s := by
  unfold runEvent at h
  split at h
  · next u hu => simp only [Host.Outcome.next.injEq] at h; subst h; exact .inl hu
  · next f hf => simp only [Host.Outcome.next.injEq] at h; exact .inr (.inl ⟨f, hf, h.symm⟩)
  · simp at h
  · simp only [Host.Outcome.next.injEq] at h; exact .inr (.inr h.symm)

theorem runEvent_ok {m : M Unit} {s t : State} (h : m s = .ok ((), t)) : runEvent m s = .next t := by
  simp [runEvent, h]

@[simp] theorem runEvent_modify (f : State → State) (s : State) : runEvent (modify f) s = .next (f s) := rfl

/-- Whether an instruction has no rule of its own about trap levels and handlers. -/
def levelFree (i : Instr) : Bool :=
  match i with
  | .tret | .tend | .step | .pacq _ => false
  | _ => true

/-- Whether an instruction has no state-dependent issue-time fault of its own: it needs no supervisor privilege, no trap level
and no layout entry. -/
def issuesFreely (i : Instr) : Bool :=
  (layoutUse i).isNone && !needsPriv i && levelFree i

theorem issueFault_free {s : State} {c : Nat} {i : Instr} (h : issuesFreely i = true) : issueFault s c i = none := by
  unfold issuesFreely at h
  simp only [Bool.and_eq_true, Bool.not_eq_true', Option.isNone_iff_eq_none] at h
  obtain ⟨⟨hl, hp⟩, hi⟩ := h
  unfold levelFree at hi
  unfold issueFault coordsPast
  rw [hl, hp]
  split at hi <;> simp_all

theorem applyLate_sys (s : State) (c n : Nat) (v : W64) : applyLate s c (.sys n v) =
    if 0x080 ≤ n then s.updCore (coreOf c) fun k => writeCoreReg k n v else s.updCtx c fun x => writeSysReg x n v := rfl

/-- Whether an instruction has no state-dependent issue-time fault but that of its privilege. -/
def issuesPriv (i : Instr) : Bool :=
  (layoutUse i).isNone && levelFree i

theorem issueFault_priv {s : State} {c : Nat} {i : Instr} (h : issuesPriv i = true) (hp : isPriv s c = true) :
    issueFault s c i = none := by
  unfold issuesPriv at h
  simp only [Bool.and_eq_true, Option.isNone_iff_eq_none] at h
  obtain ⟨hl, hi⟩ := h
  unfold levelFree at hi
  unfold issueFault coordsPast
  rw [hl, hp]
  split at hi <;> simp_all

/-- A privileged instruction at user privilege faults at issue (R170). -/
theorem issueFault_user {s : State} {c : Nat} {i : Instr} (h : issuesPriv i = true) (hn : needsPriv i = true)
    (hp : isPriv s c = false) : issueFault s c i = some cPrivilege := by
  unfold issuesPriv at h
  simp only [Bool.and_eq_true, Option.isNone_iff_eq_none] at h
  obtain ⟨hl, hi⟩ := h
  unfold levelFree at hi
  unfold issueFault coordsPast
  rw [hl, hp]
  split at hi <;> simp_all

/-- A syllable without a fault of its own at issue, whose effect answers, ends. -/
theorem ends_free {i : Instr} {s t : State} {m : M Unit} (hx : exec i s = runSyl i m s) (hi : issuesFreely i = true)
    (hm : m s = .ok ((), t)) : Ends i s t := by
  unfold Ends; rw [hx]; exact runSyl_ok (issueFault_free hi) hm

theorem traps_free {i : Instr} {s : State} {m : M Unit} {c : BitVec 8} {v : W64} (hx : exec i s = runSyl i m s)
    (hi : issuesFreely i = true) (hm : m s = .error (.trap c v)) : Traps i s c v := by
  unfold Traps; rw [hx]; exact runSyl_trap (issueFault_free hi) hm

theorem waits_free {i : Instr} {s : State} {m : M Unit} (hx : exec i s = runSyl i m s) (hi : issuesFreely i = true)
    (hm : m s = .error .wait) : Waits i s := by
  unfold Waits; rw [hx]; exact runSyl_wait (issueFault_free hi) hm

/-- A syllable whose effect answers ends, where nothing faults at issue. -/
theorem ends_of {i : Instr} {s t : State} {m : M Unit} (hx : exec i s = runSyl i m s) (hi : issueFault s s.cur i = none)
    (hm : m s = .ok ((), t)) : Ends i s t := by
  unfold Ends; rw [hx]; exact runSyl_ok hi hm

theorem traps_of {i : Instr} {s : State} {m : M Unit} {c : BitVec 8} {v : W64} (hx : exec i s = runSyl i m s)
    (hi : issueFault s s.cur i = none) (hm : m s = .error (.trap c v)) : Traps i s c v := by
  unfold Traps; rw [hx]; exact runSyl_trap hi hm

/-- Slot 0 has executed: slot 1 comes next. -/
theorem advance_slot0 {s : State} {c : Nat} {i : Issue} (hi : (s.ctx c).iss = some i) (h0 : i.slot1 = false) :
    advance s c = s.setCtx c { (s.ctx c).setWait .none with
      region := if i.sync then (s.ctx c).region + 1 else (s.ctx c).region
      acq := false
      iss := some { i with sync := false, remote := false, pops := 0, waited := false, slot1 := true } } := by
  have hx : ((s.ctx c).setWait .none).iss = some i := hi
  simp only [advance, hx, Option.getD_some, h0, Bool.not_false, if_true]
  rfl

theorem SetsCtx.refl (s : State) (c : Nat) : SetsCtx s s c (s.ctx c) := ⟨rfl, fun _ => by split <;> simp_all⟩

theorem SetsCtx.setCtx (s : State) (c : Nat) (x : Ctx) : SetsCtx s (s.setCtx c x) c x := ⟨rfl, fun _ => State.ctx_setCtx ..⟩

theorem SetsCtx.trans {s t u : State} {c : Nat} {x y : Ctx} (h : SetsCtx s t c x) (g : SetsCtx t u c y) : SetsCtx s u c y := by
  refine ⟨?_, fun j => ?_⟩
  · rw [g.1, h.1]
  · rw [g.2 j]
    split
    · rfl
    · next hj => rw [h.2 j, if_neg hj]

theorem SetsCtx.ctx {s t : State} {c : Nat} {x : Ctx} (h : SetsCtx s t c x) : t.ctx c = x := by simp [h.2 c]

theorem SetsCtx.mem {s t : State} {c : Nat} {x : Ctx} (h : SetsCtx s t c x) : t.mem = s.mem := by rw [h.1]

/-- Slot 1 has executed, of a bundle without REP, without H, and whose slot 0 left nothing for its end: the next bundle comes next. -/
theorem advance_slot1 {s : State} {c : Nat} {i : Issue} (hi : (s.ctx c).iss = some i) (h1 : i.slot1 = true)
    (hr : i.rep = none) (hh : (unpackHeader i.hdr).h = false) (hl : i.late = []) (hg : i.leave = .next) :
    SetsCtx s (advance s c) c { (s.ctx c).setWait .none with
      region := if i.sync then (s.ctx c).region + 1 else (s.ctx c).region
      acq := false
      iss := none
      slot := false
      rep := 0
      pc := (s.ctx c).pc + 16 } := by
  have hx : ((s.ctx c).setWait .none).iss = some i := hi
  simp only [advance, hx, Option.getD_some, h1, Bool.not_true, Bool.false_eq_true, if_false, hr, hh, leaveBundle, trapHeld, applyLates,
    State.ctx_setCtx_same, hl, List.foldl_nil, hg, nextPc]
  exact (SetsCtx.setCtx ..).trans (SetsCtx.setCtx ..)

theorem SetsCtx.me {s t : State} {x : Ctx} (h : SetsCtx s t s.cur x) : t.me = x := by
  have hc : t.cur = s.cur := by rw [h.1]
  rw [State.me_eq, hc]
  exact h.ctx

/-- A write of a register other than x0 changes the running context's registers alone. -/
theorem State.put_ctx {s : State} {r : Reg} {v : W64} (h0 : r ≠ 0) : SetsCtx s (s.put r v) s.cur { s.me with x := s.me.x.set r.toNat v } := by
  unfold State.put
  rw [if_neg h0]
  exact SetsCtx.setCtx ..

/-- A write of a register changes the running context's registers alone. -/
theorem State.put_set (s : State) (d : Reg) (v : W64) : SetsCtx s (s.put d v) s.cur { s.me with x := (s.put d v).me.x } := by
  by_cases h : d = 0
  · simp only [State.put, h, if_true]; exact SetsCtx.refl ..
  · have := State.put_ctx (s := s) (v := v) h
    have h2 : (s.put d v).me = { s.me with x := s.me.x.set d.toNat v } := by
      rw [State.me_eq, State.cur_put]; exact this.ctx
    rw [h2]; exact this

end Sys2Proof.Machine
end

