-- ==== Sys2Proof/Laws/Access.lean ====
section
/-! SUPPORT. Laws of the checks of a slice access and of the checked load and store. -/

namespace Sys2Proof.Machine

theorem quiesceM_free {s : State} {k : Nat} (h : Unheld s k) : quiesceM k s = .ok ((), s) := by
  unfold quiesceM
  rw [M.bind_get_apply]
  rcases h with h | h <;> rw [h]
  · rfl
  · simp [await_apply]

theorem M.bind_quiesceM {β : Type} {s : State} {k : Nat} (h : Unheld s k) (f : Unit → M β) :
    (quiesceM k >>= f) s = f () s := M.bind_ok (quiesceM_free h)

theorem paddockM_free {s : State} {k n : Nat} (v : W64) (h : Unfenced s k n) : paddockM k n v s = .ok ((), s) := by
  unfold paddockM
  rw [M.bind_get_apply]
  have : paddockHit s (keyCore k) (keyOff k) n s.me.job = false := h
  simp [this]

theorem M.bind_paddockM {β : Type} {s : State} {k n : Nat} (v : W64) (h : Unfenced s k n) (f : Unit → M β) :
    (paddockM k n v >>= f) s = f () s := M.bind_ok (paddockM_free v h)

theorem paddockM_hit {s : State} {k n : Nat} (v : W64) (h : paddockHit s (keyCore k) (keyOff k) n s.me.job = true) :
    paddockM k n v s = .error (.trap cRights v) := by
  unfold paddockM
  rw [M.bind_get_apply, h]
  rfl

theorem raceM_free {s : State} {k n : Nat} {w a : Bool} (h : Unraced s k n w a) : raceM k n w a s = .ok ((), s.raced k n w a) := by
  unfold raceM
  rw [M.bind_get_apply]
  have : raceTest s s.cur k n w a = none := h
  rw [this]
  rfl

theorem M.bind_raceM {β : Type} {s : State} {k n : Nat} {w a : Bool} (h : Unraced s k n w a) (f : Unit → M β) :
    (raceM k n w a >>= f) s = f () (s.raced k n w a) := M.bind_ok (raceM_free h)

theorem poisonM_free {s : State} {k n : Nat} (va : Nat) (h : Unpoisoned s k n) : poisonM k n va s = .ok ((), s) := by
  unfold poisonM
  rw [M.bind_get_apply]
  have : (granules k n).find? (fun g => s.poison.contains g) = none := by
    have h' : (granules k n).any (fun g => s.poison.contains g) = false := h
    rw [List.find?_eq_none]
    simpa using h'
  rw [this]
  rfl

theorem M.bind_poisonM {β : Type} {s : State} {k n : Nat} (va : Nat) (h : Unpoisoned s k n) (f : Unit → M β) :
    (poisonM k n va >>= f) s = f () s := M.bind_ok (poisonM_free va h)

/-- The detector's record changes the detector alone. -/
theorem record_eq (s : State) (c g : Nat) (m : BitVec 8) (w a : Bool) : record s c g m w a = { s with det := (record s c g m w a).det } := by
  unfold record
  simp only
  repeat' split
  all_goals rfl

theorem State.raced_eq (s : State) (k n : Nat) (w a : Bool) : s.raced k n w a = { s with det := (s.raced k n w a).det } := by
  unfold State.raced
  generalize granules k n = l
  induction l generalizing s with
  | nil => rfl
  | cons g t ih =>
    rw [List.foldl_cons, record_eq]
    exact ih _

@[simp] theorem State.raced_mem (s : State) (k n : Nat) (w a : Bool) : (s.raced k n w a).mem = s.mem := by rw [State.raced_eq]
@[simp] theorem State.raced_cur (s : State) (k n : Nat) (w a : Bool) : (s.raced k n w a).cur = s.cur := by rw [State.raced_eq]
@[simp] theorem State.raced_ctxs (s : State) (k n : Nat) (w a : Bool) : (s.raced k n w a).ctxs = s.ctxs := by rw [State.raced_eq]
@[simp] theorem State.raced_cores (s : State) (k n : Nat) (w a : Bool) : (s.raced k n w a).cores = s.cores := by rw [State.raced_eq]
@[simp] theorem State.raced_jobs (s : State) (k n : Nat) (w a : Bool) : (s.raced k n w a).jobs = s.jobs := by rw [State.raced_eq]
@[simp] theorem State.raced_poison (s : State) (k n : Nat) (w a : Bool) : (s.raced k n w a).poison = s.poison := by rw [State.raced_eq]
@[simp] theorem State.raced_tags (s : State) (k n : Nat) (w a : Bool) : (s.raced k n w a).tags = s.tags := by rw [State.raced_eq]
@[simp] theorem State.raced_bank (s : State) (k n : Nat) (w a : Bool) : (s.raced k n w a).bank = s.bank := by rw [State.raced_eq]
@[simp] theorem State.raced_ctx (s : State) (k n : Nat) (w a : Bool) (c : Nat) : (s.raced k n w a).ctx c = s.ctx c := by
  simp [State.ctx]
@[simp] theorem State.raced_me (s : State) (k n : Nat) (w a : Bool) : (s.raced k n w a).me = s.me := by simp [State.me]
@[simp] theorem State.raced_core (s : State) (k n : Nat) (w a : Bool) (c : Nat) : (s.raced k n w a).core c = s.core c := by
  simp [State.core]
@[simp] theorem State.raced_readByte (s : State) (k n : Nat) (w a : Bool) (i : Nat) : readByte (s.raced k n w a) i = readByte s i := by
  simp [readByte]
theorem readBytes_of_mem {s t : State} (h : t.mem = s.mem) (k n : Nat) : readBytes t k n = readBytes s k n :=
  readBytes_congr s t k n fun j _ _ => by simp [readByte, h]
theorem readNat_of_mem {s t : State} (h : t.mem = s.mem) (k n : Nat) : readNat t k n = readNat s k n := by
  unfold readNat; rw [readBytes_of_mem h]
theorem readW_of_mem {s t : State} (h : t.mem = s.mem) (k : Nat) : readW t k = readW s k := by
  unfold readW; rw [readNat_of_mem h]
@[simp] theorem State.raced_readNat (s : State) (k n : Nat) (w a : Bool) (i m : Nat) : readNat (s.raced k n w a) i m = readNat s i m :=
  readNat_of_mem (by simp) ..
@[simp] theorem State.raced_readW (s : State) (k n : Nat) (w a : Bool) (i : Nat) : readW (s.raced k n w a) i = readW s i :=
  readW_of_mem (by simp) ..

@[simp] theorem State.racedIf_mem (s : State) (c : Bool) (k n : Nat) (w a : Bool) : (s.racedIf c k n w a).mem = s.mem := by
  cases c <;> simp [State.racedIf]
@[simp] theorem State.racedIf_cur (s : State) (c : Bool) (k n : Nat) (w a : Bool) : (s.racedIf c k n w a).cur = s.cur := by
  cases c <;> simp [State.racedIf]

theorem Unpoisoned.raced {s : State} {k n : Nat} (h : Unpoisoned s k n) (k' n' : Nat) (w a : Bool) :
    Unpoisoned (s.raced k' n' w a) k n := by
  unfold Unpoisoned poisoned at *
  simpa using h

/-- A thread's load of slice bytes that no check stops. -/
theorem loadPlace_slice {s : State} {k n : Nat} {atomic : Bool} (chk : Bool) (ev : W64) (mir : Bool) (hh : Unheld s k) (hf : Unfenced s k n)
    (hp : Unpoisoned s k n) (hr : chk = true → Unraced s k n false atomic) :
    loadPlace (.slice k) n chk atomic ev mir s = .ok (readNat s k n, if chk then s.raced k n false atomic else s) := by
  simp only [loadPlace]
  rw [M.bind_paddockM _ hf, M.bind_quiesceM hh]
  cases chk
  · simp only [Bool.false_eq_true, if_false]
    rw [M.bind_poisonM _ hp]
    rfl
  · simp only [if_true]
    rw [M.bind_raceM (hr rfl), M.bind_poisonM _ (hp.raced ..)]
    simp

/-- A thread's store of slice bytes that no check stops. -/
theorem storePlace_slice {s : State} {k n : Nat} {atomic : Bool} (v : Nat) (chk : Bool) (ev : W64) (mir moved : Bool) (hh : Unheld s k)
    (hf : Unfenced s k n) (hr : chk = true → Unraced s k n true atomic) :
    storePlace (.slice k) n v chk atomic ev mir moved s =
      .ok ((), clearPoison (writeNat (if chk then s.raced k n true atomic else s) k n v) k n) := by
  simp only [storePlace]
  rw [M.bind_paddockM _ hf, M.bind_quiesceM hh]
  cases chk
  · simp only [Bool.false_eq_true, if_false]
    rfl
  · simp only [if_true]
    rw [M.bind_raceM (hr rfl)]
    rfl

theorem clearPoison_eq (s : State) (k n : Nat) : clearPoison s k n = { s with poison := (clearPoison s k n).poison } := by
  unfold clearPoison; split <;> rfl

@[simp] theorem clearPoison_mem (s : State) (k n : Nat) : (clearPoison s k n).mem = s.mem := by rw [clearPoison_eq]
@[simp] theorem clearPoison_cur (s : State) (k n : Nat) : (clearPoison s k n).cur = s.cur := by rw [clearPoison_eq]
@[simp] theorem clearPoison_ctxs (s : State) (k n : Nat) : (clearPoison s k n).ctxs = s.ctxs := by rw [clearPoison_eq]
@[simp] theorem clearPoison_ctx (s : State) (k n : Nat) (c : Nat) : (clearPoison s k n).ctx c = s.ctx c := by simp [State.ctx]
@[simp] theorem clearPoison_me (s : State) (k n : Nat) : (clearPoison s k n).me = s.me := by simp [State.me]
@[simp] theorem clearPoison_readByte (s : State) (k n i : Nat) : readByte (clearPoison s k n) i = readByte s i := by simp [readByte]

/-- A thread's load by local offset that no check stops. -/
theorem loadLocal_ready {s : State} {off n k : Nat} {atomic : Bool} (hk : k = sliceKey (coreOf s.cur) off) (hh : Unheld s k)
    (hf : Unfenced s k n) (hr : Unraced s k n false atomic) (hp : Unpoisoned s k n) :
    loadLocal off n atomic s = .ok (readNat s k n, s.raced k n false atomic) := by
  subst hk
  unfold loadLocal
  rw [M.bind_myCore, loadPlace_slice true _ _ hh hf hp fun _ => hr]
  rfl

/-- A thread's store by local offset that no check stops. -/
theorem storeLocal_ready {s : State} {off n k : Nat} {atomic : Bool} (v : Nat) (hk : k = sliceKey (coreOf s.cur) off) (hh : Unheld s k)
    (hf : Unfenced s k n) (hr : Unraced s k n true atomic) :
    storeLocal off n v atomic s = .ok ((), clearPoison (writeNat (s.raced k n true atomic) k n v) k n) := by
  subst hk
  unfold storeLocal
  rw [M.bind_myCore, storePlace_slice v true _ _ _ hh hf fun _ => hr]
  rfl

end Sys2Proof.Machine
end

