-- ==== Sys2Proof/Laws/Bits.lean ====
section
/-! SUPPORT. Laws of bit fields: what a field reads as after it or another is replaced. -/

namespace Sys2Proof.Machine

theorem testBit_bits (v : W64) (hi lo j : Nat) : (bits v hi lo).testBit j = (decide (j < hi + 1 - lo) && v.toNat.testBit (lo + j)) := by
  unfold bits
  rw [Nat.testBit_mod_two_pow, Nat.testBit_div_two_pow, Nat.add_comm j lo]

/-- A number with a field of k bits at lo replaced. -/
theorem testBit_replace (v lo k n i : Nat) :
    (v - v / 2 ^ lo % 2 ^ k * 2 ^ lo + n % 2 ^ k * 2 ^ lo).testBit i =
      if lo ≤ i ∧ i < lo + k then n.testBit (i - lo) else v.testBit i := by
  have hB : v % 2 ^ lo < 2 ^ lo := Nat.mod_lt _ (by positivity)
  have hv : v = 2 ^ lo * (2 ^ k * (v / 2 ^ lo / 2 ^ k) + v / 2 ^ lo % 2 ^ k) + v % 2 ^ lo := by
    rw [Nat.div_add_mod, Nat.div_add_mod]
  have hN : v - v / 2 ^ lo % 2 ^ k * 2 ^ lo + n % 2 ^ k * 2 ^ lo =
      2 ^ lo * (2 ^ k * (v / 2 ^ lo / 2 ^ k) + n % 2 ^ k) + v % 2 ^ lo := by
    generalize hA : v / 2 ^ lo / 2 ^ k = A at *
    generalize hF : v / 2 ^ lo % 2 ^ k = F at *
    generalize hG : v % 2 ^ lo = B at *
    have h1 : v = 2 ^ lo * (2 ^ k * A) + 2 ^ lo * F + B := by rw [← Nat.mul_add]; exact hv
    rw [Nat.mul_add, Nat.mul_comm F, Nat.mul_comm (n % 2 ^ k)]
    omega
  rw [hN, Nat.testBit_two_pow_mul_add _ hB]
  by_cases h1 : i < lo
  · simp [h1, Nat.not_le.mpr h1, Nat.testBit_mod_two_pow]
  · rw [if_neg h1, Nat.testBit_two_pow_mul_add _ (Nat.mod_lt _ (by positivity))]
    by_cases h2 : i < lo + k
    · have h3 : i - lo < k := by omega
      simp [h2, h3, Nat.not_lt.mp h1, Nat.testBit_mod_two_pow]
    · have h3 : ¬ i - lo < k := by omega
      simp only [h3, if_false, h2, and_false]
      rw [Nat.testBit_div_two_pow, Nat.testBit_div_two_pow]
      congr 1
      omega

theorem testBit_setBits (v : W64) (hi lo n i : Nat) (h : i < 64) (hl : lo ≤ hi + 1) :
    (setBits v hi lo n).toNat.testBit i = if lo ≤ i ∧ i ≤ hi then n.testBit (i - lo) else v.toNat.testBit i := by
  unfold setBits w64
  rw [BitVec.toNat_ofNat, Nat.testBit_mod_two_pow, testBit_replace]
  simp only [h, decide_true, Bool.true_and]
  congr 1
  simp only [eq_iff_iff]
  omega

/-- The field replaced. -/
theorem bits_setBits_same (v : W64) (hi lo n : Nat) (h : lo ≤ hi) (h2 : hi < 64) (hn : n < 2 ^ (hi + 1 - lo)) :
    bits (setBits v hi lo n) hi lo = n := by
  apply Nat.eq_of_testBit_eq
  intro j
  rw [testBit_bits]
  by_cases hj : j < hi + 1 - lo
  · rw [testBit_setBits _ _ _ _ _ (by omega) (by omega), if_pos (by omega)]
    simp [hj]
  · simp only [hj, decide_false, Bool.false_and]
    symm
    apply Nat.testBit_lt_two_pow
    exact lt_of_lt_of_le hn (Nat.pow_le_pow_right (by norm_num) (by omega))

/-- A field apart from the one replaced. -/
theorem bits_setBits_apart (v : W64) (hi lo n hi' lo' : Nat) (h : lo ≤ hi) (h2 : hi' < 64) (ha : hi' < lo ∨ hi < lo') :
    bits (setBits v hi lo n) hi' lo' = bits v hi' lo' := by
  apply Nat.eq_of_testBit_eq
  intro j
  rw [testBit_bits, testBit_bits]
  by_cases hj : j < hi' + 1 - lo'
  · rw [testBit_setBits _ _ _ _ _ (by omega) (by omega), if_neg (by omega)]
  · simp [hj]

/-- A field is its bits. -/
theorem bits_congr {v w : W64} {hi lo : Nat} (h : ∀ i, lo ≤ i → i ≤ hi → v.getLsbD i = w.getLsbD i) : bits v hi lo = bits w hi lo := by
  apply Nat.eq_of_testBit_eq
  intro j
  rw [testBit_bits, testBit_bits]
  by_cases hj : j < hi + 1 - lo
  · have := h (lo + j) (by omega) (by omega)
    simp only [BitVec.getLsbD] at this
    simp [hj, this]
  · simp [hj]

theorem bits_lt (v : W64) (hi lo : Nat) : bits v hi lo < 2 ^ (hi + 1 - lo) := Nat.mod_lt _ (by positivity)

end Sys2Proof.Machine
end

