-- ==== Sys2Proof/Laws/Chutes.lean ====
section
/-! SUPPORT. Laws of the chute ports: what a pop and a push do where no check stops them. -/

namespace Sys2Proof.Machine

/-- The control word after a pop (R81). -/
def popWord (w : W64) : W64 := setBits (setBits w 23 12 ((chuteHead w + 1) % (chuteSize w + 1))) 48 36 (chuteCount w - 1)

/-- The control word after a push (R81). -/
def pushWord (w : W64) : W64 := setBits (setBits w 35 24 ((chuteTail w + 1) % (chuteSize w + 1))) 48 36 (chuteCount w + 1)

theorem chuteSize_lt (w : W64) : chuteSize w < 2 ^ 12 := bits_lt ..

theorem popWord_fields (w : W64) :
    chuteCount (popWord w) = chuteCount w - 1 ∧ chuteHead (popWord w) = (chuteHead w + 1) % (chuteSize w + 1) ∧
      chuteTail (popWord w) = chuteTail w ∧ chuteSize (popWord w) = chuteSize w := by
  have h1 : chuteCount w < 2 ^ 13 := bits_lt ..
  have h2 := chuteSize_lt w
  have h3 : (chuteHead w + 1) % (chuteSize w + 1) < chuteSize w + 1 := Nat.mod_lt _ (by omega)
  unfold popWord
  refine ⟨?_, ?_, ?_, ?_⟩
  · exact bits_setBits_same _ _ _ _ (by omega) (by omega) (by norm_num; omega)
  · unfold chuteHead
    rw [bits_setBits_apart _ _ _ _ _ _ (by omega) (by omega) (by omega)]
    exact bits_setBits_same _ _ _ _ (by omega) (by omega) (by norm_num; unfold chuteHead at h3; omega)
  · unfold chuteTail
    rw [bits_setBits_apart _ _ _ _ _ _ (by omega) (by omega) (by omega), bits_setBits_apart _ _ _ _ _ _ (by omega) (by omega) (by omega)]
  · unfold chuteSize
    rw [bits_setBits_apart _ _ _ _ _ _ (by omega) (by omega) (by omega), bits_setBits_apart _ _ _ _ _ _ (by omega) (by omega) (by omega)]

theorem pushWord_fields (w : W64) (h : chuteCount w < chuteSize w + 1) :
    chuteCount (pushWord w) = chuteCount w + 1 ∧ chuteTail (pushWord w) = (chuteTail w + 1) % (chuteSize w + 1) ∧
      chuteHead (pushWord w) = chuteHead w ∧ chuteSize (pushWord w) = chuteSize w := by
  have h2 := chuteSize_lt w
  have h3 : (chuteTail w + 1) % (chuteSize w + 1) < chuteSize w + 1 := Nat.mod_lt _ (by omega)
  unfold pushWord
  refine ⟨?_, ?_, ?_, ?_⟩
  · exact bits_setBits_same _ _ _ _ (by omega) (by omega) (by norm_num; omega)
  · unfold chuteTail
    rw [bits_setBits_apart _ _ _ _ _ _ (by omega) (by omega) (by omega)]
    exact bits_setBits_same _ _ _ _ (by omega) (by omega) (by norm_num; unfold chuteTail at h3; omega)
  · unfold chuteHead
    rw [bits_setBits_apart _ _ _ _ _ _ (by omega) (by omega) (by omega), bits_setBits_apart _ _ _ _ _ _ (by omega) (by omega) (by omega)]
  · unfold chuteSize
    rw [bits_setBits_apart _ _ _ _ _ _ (by omega) (by omega) (by omega), bits_setBits_apart _ _ _ _ _ _ (by omega) (by omega) (by omega)]

@[simp] theorem wakePorts_mem (s : State) (k : Nat) : (wakePorts s k).mem = s.mem := rfl
@[simp] theorem wakePorts_cur (s : State) (k : Nat) : (wakePorts s k).cur = s.cur := rfl

theorem readW_writeNat (s : State) (k : Nat) (v : W64) : readW (writeNat s k 8 v.toNat) k = v := by
  unfold readW
  rw [readNat_writeNat]
  apply BitVec.eq_of_toNat_eq
  have := v.isLt
  simp only [w64, BitVec.toNat_ofNat]
  omega

theorem readW_writeNat_apart (s : State) (k n v j : Nat) (h : j + 8 ≤ k ∨ k + n ≤ j) : readW (writeNat s k n v) j = readW s j := by
  unfold readW
  rw [readNat_writeNat_apart _ _ _ _ _ _ h]

/-- The slice key of the next element to read. -/
def headKey (s : State) (k : Nat) : Nat := k + 8 + 8 * chuteHead (readW s k)

/-- The slice key of the next slot to write. -/
def tailKey (s : State) (k : Nat) : Nat := k + 8 + 8 * chuteTail (readW s k)

/-- A pop that nothing stops: the oldest element, and the state it leaves. -/
theorem popChute_ready {s : State} {k : Nat} {chk : Bool} (hok : chuteOk k (readW s k) = true) (hb : bit (readW s k) 60 = true)
    (hc : chuteCount (readW s k) ≠ 0) (hh : Unheld s k) (hf : Unfenced s k 8) (hf2 : Unfenced s (headKey s k) 8)
    (hr : chk = true → Unraced s k 8 true true) (hr2 : chk = true → Unraced (s.raced k 8 true true) (headKey s k) 8 false true)
    (hp : Unpoisoned s k 8) (hp2 : Unpoisoned s (headKey s k) 8) :
    popChute k chk s = .ok (readW s (headKey s k),
      (wakePorts (writeNat ((s.racedIf chk k 8 true true).racedIf chk (headKey s k) 8 false true) k 8 (popWord (readW s k)).toNat) k).iss
        fun i => { i with sync := true, remote := i.remote || keyCore k != coreOf s.cur }) := by
  have hk : k + 8 + 8 * chuteHead (readW s k) = headKey s k := rfl
  simp only [popChute]
  rw [M.bind_quiesceM hh, M.bind_paddockM _ hf, M.bind_get_apply, M.bind_check (by rw [hok, hb]; rfl), M.bind_await (by simpa using hc)]
  cases chk
  · simp only [Bool.false_eq_true, if_false]
    rw [hk, M.bind_paddockM _ hf2]
    rw [M.bind_poisonM _ hp, M.bind_poisonM _ hp2, M.bind_get_apply, M.bind_modify_apply, M.bind_myCore, M.bind_ok (modIss_apply _ _),
      M.pure_apply, wakePorts_cur, writeNat_cur]
    simp only [State.racedIf, Bool.false_eq_true, if_false]
    rfl
  · simp only [if_true]
    rw [hk, M.bind_paddockM _ hf2, M.bind_raceM (hr rfl), M.bind_raceM (hr2 rfl), M.bind_poisonM _ ((hp.raced ..).raced ..),
      M.bind_poisonM _ ((hp2.raced ..).raced ..), M.bind_get_apply, M.bind_modify_apply, M.bind_myCore, M.bind_ok (modIss_apply _ _),
      M.pure_apply, State.raced_readW, State.raced_readW, wakePorts_cur, writeNat_cur, State.raced_cur, State.raced_cur]
    simp only [State.racedIf, if_true]
    rfl

/-- A push that nothing stops, and the state it leaves. -/
theorem pushChute_ready {s : State} {k : Nat} {chk : Bool} (v : W64) (hok : chuteOk k (readW s k) = true)
    (hb : bit (readW s k) 61 = true) (hc : chuteCount (readW s k) < chuteSize (readW s k) + 1) (hh : Unheld s k) (hf : Unfenced s k 8)
    (hf2 : Unfenced s (tailKey s k) 8) (hr : chk = true → Unraced s k 8 true true)
    (hr2 : chk = true → Unraced (s.raced k 8 true true) (tailKey s k) 8 true true) (hp : Unpoisoned s k 8) :
    pushChute k chk v s = .ok ((),
      (wakePorts (writeNat (writeNat ((s.racedIf chk k 8 true true).racedIf chk (tailKey s k) 8 true true) (tailKey s k) 8 v.toNat) k 8
        (pushWord (readW s k)).toNat) k).synced) := by
  have hk : k + 8 + 8 * chuteTail (readW s k) = tailKey s k := rfl
  simp only [pushChute]
  rw [M.bind_quiesceM hh, M.bind_paddockM _ hf, M.bind_get_apply, M.bind_check (by rw [hok, hb]; rfl), M.bind_await (by simpa using hc)]
  cases chk
  · simp only [Bool.false_eq_true, if_false]
    rw [hk, M.bind_paddockM _ hf2]
    rw [M.bind_poisonM _ hp]
    rfl
  · simp only [if_true]
    rw [hk, M.bind_paddockM _ hf2, M.bind_raceM (hr rfl), M.bind_raceM (hr2 rfl), M.bind_poisonM _ ((hp.raced ..).raced ..)]
    rfl

/-- A pop changes, of memory, the control word alone. -/
theorem popChute_mem {s : State} {k : Nat} {chk : Bool} (hok : chuteOk k (readW s k) = true) (hb : bit (readW s k) 60 = true)
    (hc : chuteCount (readW s k) ≠ 0) (hh : Unheld s k) (hf : Unfenced s k 8) (hf2 : Unfenced s (headKey s k) 8)
    (hr : chk = true → Unraced s k 8 true true) (hr2 : chk = true → Unraced (s.raced k 8 true true) (headKey s k) 8 false true)
    (hp : Unpoisoned s k 8) (hp2 : Unpoisoned s (headKey s k) 8) :
    ∃ t, popChute k chk s = .ok (readW s (headKey s k), t) ∧ t.cur = s.cur ∧
      t.mem = (writeNat s k 8 (popWord (readW s k)).toNat).mem := by
  refine ⟨_, popChute_ready hok hb hc hh hf hf2 hr hr2 hp hp2, ?_, ?_⟩
  · rw [State.cur_iss, wakePorts_cur, writeNat_cur, State.racedIf_cur, State.racedIf_cur]
  · rw [State.mem_iss, wakePorts_mem]
    exact writeNat_mem_congr (by simp) ..

/-- A push changes, of memory, the slot at the tail and the control word alone. -/
theorem pushChute_mem {s : State} {k : Nat} {chk : Bool} (v : W64) (hok : chuteOk k (readW s k) = true) (hb : bit (readW s k) 61 = true)
    (hc : chuteCount (readW s k) < chuteSize (readW s k) + 1) (hh : Unheld s k) (hf : Unfenced s k 8) (hf2 : Unfenced s (tailKey s k) 8)
    (hr : chk = true → Unraced s k 8 true true) (hr2 : chk = true → Unraced (s.raced k 8 true true) (tailKey s k) 8 true true)
    (hp : Unpoisoned s k 8) :
    ∃ t, pushChute k chk v s = .ok ((), t) ∧
      t.mem = (writeNat (writeNat s (tailKey s k) 8 v.toNat) k 8 (pushWord (readW s k)).toNat).mem := by
  refine ⟨_, pushChute_ready v hok hb hc hh hf hf2 hr hr2 hp, ?_⟩
  rw [State.mem_synced, wakePorts_mem]
  exact writeNat_mem_congr (writeNat_mem_congr (by simp) ..) ..

theorem readReg_port {s : State} {r : Reg} {p : Fin 8} {k : Nat} (e : Bool) (h0 : r ≠ 0) (hb : boundPort s.me r = some (p, k))
    (hp : p.val < 4) : readReg r e s = popPort p k s := by
  simp only [readReg, M.bind_getMe, h0, if_false, hb, hp, if_true]

/-- What a pop through a port leaves: a remote one marks its port, until its value has arrived (R204). -/
def popLeaves (s t : State) (p : Fin 8) (k : Nat) : State :=
  if keyCore k = coreOf s.cur then t else t.iss fun i => { i with pops := i.pops ||| BitVec.twoPow 4 p.val }

theorem popPort_eq {s t : State} {p : Fin 8} {k : Nat} {v : W64} (hl : s.me.latch.toList.getD p.val none = none)
    (h : popChute k (s.me.portChk p) s = .ok (v, t)) (ht : t.cur = s.cur) : popPort p k s = .ok (v, popLeaves s t p k) := by
  simp only [popPort, M.bind_getMe, hl]
  rw [M.bind_ok h, M.bind_myCore, ht]
  unfold popLeaves
  by_cases hk : keyCore k = coreOf s.cur
  · simp [hk]
  · simp only [bne_iff_ne, ne_eq, hk, not_false_eq_true, if_true, if_false]
    rfl

/-- A read through a bound qi port pops its chute. -/
theorem readReg_pop {s t : State} {r : Reg} {p : Fin 8} {k : Nat} {v : W64} (e : Bool) (h0 : r ≠ 0)
    (hb : boundPort s.me r = some (p, k)) (hp : p.val < 4) (hl : s.me.latch.toList.getD p.val none = none)
    (h : popChute k (s.me.portChk p) s = .ok (v, t)) (ht : t.cur = s.cur) : readReg r e s = .ok (v, popLeaves s t p k) :=
  (readReg_port e h0 hb hp).trans (popPort_eq hl h ht)

@[simp] theorem popLeaves_mem (s t : State) (p : Fin 8) (k : Nat) : (popLeaves s t p k).mem = t.mem := by
  unfold popLeaves
  split <;> rfl

theorem writeReg_push {s : State} {r : Reg} {p : Fin 8} {k : Nat} (v : W64) (h0 : r ≠ 0) (hb : boundPort s.me r = some (p, k))
    (hp : 4 ≤ p.val) : writeReg r v s = pushChute k (s.me.portChk p) v s := by
  simp only [writeReg, M.bind_getMe, h0, if_false, hb, hp, if_true]

end Sys2Proof.Machine
end

