-- ==== Sys2Proof/Laws/Places.lean ====
section
/-! SUPPORT. Laws of the operand forms that name memory: the layout form, and the words, atomics and objects it reaches. -/

namespace Sys2Proof.Machine

/-- A load that no check stops. -/
theorem loadPlace_loads {s : State} {k n : Nat} {chk atomic : Bool} (ev : W64) (mir : Bool) (h : Loads s k n chk atomic) :
    loadPlace (.slice k) n chk atomic ev mir s = .ok (readNat s k n, s.loaded k n chk atomic) :=
  loadPlace_slice chk ev mir h.1 h.2.1 h.2.2.2 h.2.2.1

/-- A store that no check stops. -/
theorem storePlace_stores {s : State} {k n : Nat} {chk atomic : Bool} (v : Nat) (ev : W64) (mir moved : Bool) (h : Stores s k n chk atomic) :
    storePlace (.slice k) n v chk atomic ev mir moved s = .ok ((), s.stored k n v chk atomic) :=
  storePlace_slice v chk ev mir moved h.1 h.2.1 h.2.2

theorem State.loaded_eq (s : State) (k n : Nat) (c a : Bool) : s.loaded k n c a = { s with det := (s.loaded k n c a).det } := by
  unfold State.loaded; split
  · exact State.raced_eq ..
  · rfl

@[simp] theorem State.loaded_mem (s : State) (k n : Nat) (c a : Bool) : (s.loaded k n c a).mem = s.mem := by rw [State.loaded_eq]
@[simp] theorem State.loaded_cur (s : State) (k n : Nat) (c a : Bool) : (s.loaded k n c a).cur = s.cur := by rw [State.loaded_eq]
@[simp] theorem State.loaded_ctxs (s : State) (k n : Nat) (c a : Bool) : (s.loaded k n c a).ctxs = s.ctxs := by rw [State.loaded_eq]
@[simp] theorem State.loaded_cores (s : State) (k n : Nat) (c a : Bool) : (s.loaded k n c a).cores = s.cores := by rw [State.loaded_eq]
@[simp] theorem State.loaded_jobs (s : State) (k n : Nat) (c a : Bool) : (s.loaded k n c a).jobs = s.jobs := by rw [State.loaded_eq]
@[simp] theorem State.loaded_tags (s : State) (k n : Nat) (c a : Bool) : (s.loaded k n c a).tags = s.tags := by rw [State.loaded_eq]
@[simp] theorem State.loaded_bank (s : State) (k n : Nat) (c a : Bool) : (s.loaded k n c a).bank = s.bank := by rw [State.loaded_eq]
@[simp] theorem State.loaded_ctx (s : State) (k n : Nat) (c a : Bool) (j : Nat) : (s.loaded k n c a).ctx j = s.ctx j := by simp [State.ctx]
@[simp] theorem State.loaded_me (s : State) (k n : Nat) (c a : Bool) : (s.loaded k n c a).me = s.me := by simp [State.me]
@[simp] theorem State.loaded_readByte (s : State) (k n : Nat) (c a : Bool) (i : Nat) : readByte (s.loaded k n c a) i = readByte s i := by
  simp [readByte]
@[simp] theorem State.loaded_readW (s : State) (k n : Nat) (c a : Bool) (i : Nat) : readW (s.loaded k n c a) i = readW s i :=
  readW_of_mem (by simp) _

theorem State.stored_eq (s : State) (k n v : Nat) (c a : Bool) :
    s.stored k n v c a = { s with mem := (s.stored k n v c a).mem, det := (s.stored k n v c a).det, poison := (s.stored k n v c a).poison } := by
  unfold State.stored
  rw [clearPoison_eq]
  split
  · rw [writeNat, writeBytes_eq, State.raced_eq]
  · rw [writeNat, writeBytes_eq]

@[simp] theorem State.stored_cur (s : State) (k n v : Nat) (c a : Bool) : (s.stored k n v c a).cur = s.cur := by rw [State.stored_eq]
@[simp] theorem State.stored_ctxs (s : State) (k n v : Nat) (c a : Bool) : (s.stored k n v c a).ctxs = s.ctxs := by rw [State.stored_eq]
@[simp] theorem State.stored_cores (s : State) (k n v : Nat) (c a : Bool) : (s.stored k n v c a).cores = s.cores := by rw [State.stored_eq]
@[simp] theorem State.stored_jobs (s : State) (k n v : Nat) (c a : Bool) : (s.stored k n v c a).jobs = s.jobs := by rw [State.stored_eq]
@[simp] theorem State.stored_tags (s : State) (k n v : Nat) (c a : Bool) : (s.stored k n v c a).tags = s.tags := by rw [State.stored_eq]
@[simp] theorem State.stored_bank (s : State) (k n v : Nat) (c a : Bool) : (s.stored k n v c a).bank = s.bank := by rw [State.stored_eq]
@[simp] theorem State.stored_ctx (s : State) (k n v : Nat) (c a : Bool) (j : Nat) : (s.stored k n v c a).ctx j = s.ctx j := by simp [State.ctx]
@[simp] theorem State.stored_me (s : State) (k n v : Nat) (c a : Bool) : (s.stored k n v c a).me = s.me := by simp [State.me]

/-- What was stored reads back. -/
theorem State.readNat_stored (s : State) (k n v : Nat) (c a : Bool) : readNat (s.stored k n v c a) k n = v % 256 ^ n := by
  unfold State.stored
  rw [readNat_of_mem (clearPoison_mem ..), readNat_writeNat]

/-- A store changes its bytes alone. -/
theorem State.readByte_stored (s : State) (k n v : Nat) (c a : Bool) (i : Nat) (h : i < k ∨ k + n ≤ i) :
    readByte (s.stored k n v c a) i = readByte s i := by
  unfold State.stored
  rw [clearPoison_readByte, readByte_writeNat_outside _ _ _ _ _ h]
  split
  · simp
  · rfl

theorem Reads.of_me {s t : State} {r : Reg} (h : t.me = s.me) (hr : Reads s r) : Reads t r := by unfold Reads at *; rw [h]; exact hr
theorem Writes.of_me {s t : State} {r : Reg} (h : t.me = s.me) (hr : Writes s r) : Writes t r := by unfold Writes at *; rw [h]; exact hr
theorem Pends.of_me {s t : State} {r : Reg} (h : t.me = s.me) (hr : Pends s r) : Pends t r := by unfold Pends at *; rw [h]; exact hr
theorem State.val_of_me {s t : State} (h : t.me = s.me) (r : Reg) : t.val r = s.val r := by unfold State.val; rw [h]

theorem Loads.of {s t : State} {k n : Nat} {c a : Bool} (h : Loads s k n c a) (ht : t = s) : Loads t k n c a := ht ▸ h

theorem readRun_ready {s : State} (n : Nat) : ∀ a : Reg, (∀ i, i < n → Reads s (a + BitVec.ofNat 6 i)) →
    readRun a n s = .ok ((List.range n).map fun i => s.val (a + BitVec.ofNat 6 i), s) := by
  induction n with
  | zero => intro a _; rfl
  | succ n ih =>
    intro a h
    have h0 : Reads s a := by simpa using h 0 (by omega)
    have e : ∀ i, a + 1 + BitVec.ofNat 6 i = a + BitVec.ofNat 6 (i + 1) := fun i => by
      rw [BitVec.add_assoc, Nat.add_comm i 1, BitVec.ofNat_add]; rfl
    have ht := ih (a + 1) fun i hi => by rw [e]; exact h (i + 1) (by omega)
    unfold readRun
    rw [M.bind_readReg _ h0, M.bind_ok ht, List.range_succ_eq_map, List.map_cons, List.map_map]
    have z : a + BitVec.ofNat 6 0 = a := by simp
    rw [z]
    show Except.ok _ = _
    congr 3
    apply List.map_congr_left
    intro i _
    rw [e]
    rfl

/-- The coordinates of a layout form, all ready. -/
theorem readCoords_ready {s : State} {a : Reg} {ea : Bool} {n : Nat} (hn : n ≠ 0) (h : ReadsRun s a n) :
    readCoords a ea (max n 1) s = .ok (s.coords a n, s) := by
  obtain ⟨m, rfl⟩ : ∃ m, n = m + 1 := ⟨n - 1, by omega⟩
  have hm : max (m + 1) 1 = m + 1 := by omega
  rw [hm]
  have h0 : Reads s a := by simpa using h.2 0 (by omega)
  have e : ∀ i, a + 1 + BitVec.ofNat 6 i = a + BitVec.ofNat 6 (i + 1) := fun i => by
    rw [BitVec.add_assoc, Nat.add_comm i 1, BitVec.ofNat_add]; rfl
  have ht := readRun_ready (s := s) m (a + 1) fun i hi => by rw [e]; exact h.2 (i + 1) (by omega)
  have hr : reservedUnless (decide (a.toNat + (m + 1 - 1) ≤ 63)) s = .ok ((), s) := by
    rw [show decide (a.toNat + (m + 1 - 1) ≤ 63) = true by simpa using h.1]
    rfl
  unfold readCoords State.coords
  have z : a + BitVec.ofNat 6 0 = a := by simp
  rw [M.bind_ok hr, M.bind_readReg _ h0, Nat.add_sub_cancel, M.bind_ok ht]
  simp only [List.range_succ_eq_map, List.map_cons, List.map_map, z]
  simp only [Function.comp_def, e]
  rfl

theorem LayoutAt.entry {s : State} {a : Reg} {l : BitVec 6} {n : Nat} {rd wr : Bool} {e : Layout} {p : Place}
    (h : LayoutAt s a l n rd wr e p) : getEntry l.toNat s = .ok (e, s) := by
  rw [h.1]; rfl

theorem LayoutAt.coordsOk {s : State} {a : Reg} {l : BitVec 6} {n : Nat} {rd wr ea : Bool} {e : Layout} {p : Place}
    (h : LayoutAt s a l n rd wr e p) : readCoords a ea (max e.rank 1) s = .ok (s.coords a e.rank, s) :=
  readCoords_ready h.2.1 h.2.2.2.1

theorem LayoutAt.placeOk {s : State} {a : Reg} {l : BitVec 6} {n : Nat} {rd wr : Bool} {e : Layout} {p : Place}
    (h : LayoutAt s a l n rd wr e p) : placeM l.toNat e (s.coords a e.rank) n rd wr s = .ok (p, s) := by
  unfold placeM
  rw [M.bind_get_apply, h.2.2.2.2]
  rfl

theorem LayoutAt.spaceOk {s : State} {a : Reg} {l : BitVec 6} {n : Nat} {rd wr ok : Bool} {e : Layout} {p : Place}
    (h : LayoutAt s a l n rd wr e p) (ho : ok = true) : spaceM l.toNat e ok s = .ok ((), s) := by
  unfold spaceM
  rw [h.2.2.1, ho]
  rfl

/-- A NET entry names no place. -/
theorem LayoutAt.not_net {s : State} {a : Reg} {l : BitVec 6} {n : Nat} {rd wr : Bool} {e : Layout} {p : Place}
    (h : LayoutAt s a l n rd wr e p) : (e.space != spNet) = true := by
  have := h.2.2.2.2
  by_cases hs : e.space = spNet
  · unfold placeOf at this
    rw [hs] at this
    split at this
    · cases this
    · simp [spNet, spKv] at this
  · simpa using hs

/-- A layout form of these instructions has no state-dependent issue-time fault. -/
theorem LayoutAt.issues {s : State} {a : Reg} {l : BitVec 6} {n : Nat} {rd wr : Bool} {e : Layout} {p : Place} {i : Instr}
    (h : LayoutAt s a l n rd wr e p) (hl : layoutUse i = some (a, l.toNat)) (hp : needsPriv i = false)
    (hi : levelFree i = true) : issueFault s s.cur i = none := by
  have hc : coordsPast s s.cur i = false := by
    unfold coordsPast
    rw [hl]
    have := h.2.2.2.1.1
    rw [h.1] at this
    simpa using this
  unfold issueFault
  rw [hc, hp]
  unfold levelFree at hi
  split at hi <;> simp_all

theorem WordAt.issues {s : State} {m : MArgs} {rd wr : Bool} {k : Nat} {chk own : Bool} {i : Instr} (h : WordAt s m rd wr k chk own)
    (hl : layoutUse i = match m.loc with
      | .lay l => some (m.a, l.toNat)
      | .off _ => none) (hp : needsPriv i = false)
    (hi : levelFree i = true) : issueFault s s.cur i = none := by
  unfold WordAt at h
  split at h
  · next o ho =>
    rw [ho] at hl
    refine issueFault_free ?_
    unfold issuesFreely
    rw [hl, hp, hi]
    rfl
  · next l ho =>
    rw [ho] at hl
    obtain ⟨e, he, _⟩ := h
    exact he.issues hl hp hi

/-- The word of a tagged form. -/
theorem WordAt.run {s : State} {m : MArgs} {rd wr : Bool} {k : Nat} {chk own : Bool} (h : WordAt s m rd wr k chk own) :
    ∃ ev, taggedLoc m rd wr s = .ok ((k, chk, own, ev), s) := by
  unfold WordAt at h
  unfold taggedLoc
  rw [M.bind_myCore]
  split at h
  · next o ho =>
    obtain ⟨ha, hm, rfl, rfl, rfl⟩ := h
    rw [ho]
    simp only
    rw [M.bind_readReg _ ha, M.bind_check (by simpa using hm)]
    exact ⟨_, rfl⟩
  · next l ho =>
    obtain ⟨e, he, hs, hk, rfl, rfl⟩ := h
    rw [ho]
    simp only
    rw [M.bind_ok he.entry, M.bind_ok he.coordsOk, M.bind_ok (he.spaceOk (by simpa [Layout.inSram] using hs)), M.bind_ok he.placeOk]
    simp only
    rw [M.bind_check (by simpa using hk)]
    exact ⟨_, rfl⟩

theorem AtomicAt.issues {s : State} {m : AArgs} {n : Nat} {p : Place} {chk mir : Bool} {i : Instr} (h : AtomicAt s m n p chk mir)
    (hl : layoutUse i = m.lay.map fun l => (m.a, l.toNat)) (hp : needsPriv i = false)
    (hi : levelFree i = true) : issueFault s s.cur i = none := by
  unfold AtomicAt at h
  split at h
  · next ho =>
    rw [ho] at hl
    refine issueFault_free ?_
    unfold issuesFreely
    rw [hl, hp, hi]
    rfl
  · next l ho =>
    rw [ho] at hl
    obtain ⟨e, he, _⟩ := h
    exact he.issues hl hp hi

theorem LayoutAt.max_rank {s : State} {a : Reg} {l : BitVec 6} {n : Nat} {rd wr : Bool} {e : Layout} {p : Place}
    (h : LayoutAt s a l n rd wr e p) : max e.rank 1 = e.rank := Nat.max_eq_left (Nat.one_le_iff_ne_zero.mpr h.2.1)

/-- The location of an atomic. -/
theorem ObjectAt.issues {s : State} {g : GArgs} {n al k : Nat} {chk : Bool} {i : Instr} (h : ObjectAt s g n al k chk)
    (hl : layoutUse i = g.lay.map fun l => (g.a, l.toNat)) (hp : needsPriv i = false)
    (hi : levelFree i = true) : issueFault s s.cur i = none := by
  unfold ObjectAt at h
  split at h
  · next ho =>
    rw [ho] at hl
    refine issueFault_free ?_
    unfold issuesFreely
    rw [hl, hp, hi]
    rfl
  · next l ho =>
    rw [ho] at hl
    obtain ⟨e, he, _⟩ := h
    exact he.issues hl hp hi

/-- The slice key of a group object or chute. -/
theorem ObjectAt.run {s : State} {g : GArgs} {n al k : Nat} {chk : Bool} (h : ObjectAt s g n al k chk) (hn : 0 < n) :
    objectM g n al s = .ok ((k, chk), s) := by
  unfold ObjectAt at h
  unfold objectM
  split at h
  · next ho =>
    obtain ⟨ha, hm, hb, rfl, rfl⟩ := h
    rw [ho]
    simp only
    rw [M.bind_readReg _ ha, M.bind_limit (by simp; omega), M.bind_check (by simpa using hm), M.bind_check (by simpa using hb), M.bind_myCore]
    rfl
  · next l ho =>
    obtain ⟨e, he, hs, hv, hk, rfl⟩ := h
    rw [ho]
    simp only
    rw [M.bind_ok he.entry, M.bind_ok he.coordsOk, M.bind_ok (he.spaceOk (by simpa [Layout.inSram] using hs)), M.bind_ok he.placeOk]
    simp only
    rw [he.max_rank] at hv
    rw [M.bind_check hv, M.bind_check (by simpa using hk)]
    rfl

/-- The translation cache with a translation filled in. -/
def State.filled (s : State) (t : Option Tlb) : State :=
  match t with
  | some t => { s with tlb := t :: s.tlb }
  | none => s

/-- What a translation answers. -/
theorem xlateM_eq (q : XReq) (s : State) : xlateM q s =
    if openWait s q = true then .error .wait
    else if failedWait s q = true then .ok (.error cXlateS2, dropFailed s q.waiter)
    else match translate s q with
      | .ok k fill => .ok (.ok k, s.filled fill)
      | .fail c => .ok (.error c, s)
      | .miss i => .error (.hold fun s => joinReq s q i) := by
  unfold xlateM
  rw [M.bind_get_apply]
  by_cases ho : openWait s q = true
  · rw [if_pos ho, if_pos ho]; rfl
  · rw [if_neg ho, if_neg ho]
    by_cases hf : failedWait s q = true
    · rw [if_pos hf, if_pos hf]; rfl
    · rw [if_neg hf, if_neg hf]
      cases translate s q with
      | fail c => rfl
      | miss i => rfl
      | ok k fill => cases fill <;> rfl

/-- A translation that answers fills the translation cache at most. -/
theorem xlateM_ok {q : XReq} {s u : State} {k : Nat} (h : xlateM q s = .ok (.ok k, u)) : u = { s with tlb := u.tlb } := by
  rw [xlateM_eq] at h
  split at h
  · cases h
  · split at h
    · cases h
    · split at h
      · next key fill _ =>
        simp only [Except.ok.injEq, Prod.mk.injEq] at h
        rw [← h.2]
        cases fill <;> rfl
      · cases h
      · cases h

theorem xlateT_ok {q : XReq} {s u : State} {k : Nat} (h : xlateT q s = .ok (k, u)) : u = { s with tlb := u.tlb } := by
  unfold xlateT at h
  obtain ⟨r, t, h1, h2⟩ := M.bind_eq_ok h
  cases r with
  | error c => simp at h2
  | ok k' =>
    simp only [M.pure_apply, Except.ok.injEq, Prod.mk.injEq] at h2
    rw [← h2.2]
    exact xlateM_ok h1

theorem check_ok {ok : Bool} {c : BitVec 8} {v : W64} {s u : State} (h : check ok c v s = .ok ((), u)) : ok = true ∧ u = s := by
  cases ok
  · cases h
  · cases h; exact ⟨rfl, rfl⟩

theorem await_ok {ok : Bool} {s u : State} (h : await ok s = .ok ((), u)) : ok = true ∧ u = s := by
  cases ok
  · cases h
  · cases h; exact ⟨rfl, rfl⟩

theorem paddockM_ok {k n : Nat} {v : W64} {s u : State} (h : paddockM k n v s = .ok ((), u)) : u = s := by
  unfold paddockM at h
  rw [M.bind_get_apply] at h
  exact (check_ok h).2

theorem quiesceM_ok {k : Nat} {s u : State} (h : quiesceM k s = .ok ((), u)) : u = s := by
  unfold quiesceM at h
  rw [M.bind_get_apply] at h
  cases hh : (s.core (keyCore k)).holder with
  | none => rw [hh] at h; cases h; rfl
  | some c => rw [hh] at h; exact (await_ok h).2

theorem raceM_ok {k n : Nat} {w a : Bool} {s u : State} (h : raceM k n w a s = .ok ((), u)) : u = s.raced k n w a := by
  unfold raceM at h
  rw [M.bind_get_apply] at h
  cases hh : raceTest s s.cur k n w a with
  | none => rw [hh] at h; cases h; rfl
  | some c => rw [hh] at h; cases h

theorem poisonM_ok {k n va : Nat} {s u : State} (h : poisonM k n va s = .ok ((), u)) : u = s := by
  unfold poisonM at h
  rw [M.bind_get_apply] at h
  cases hh : (granules k n).find? fun g => s.poison.contains g with
  | none => rw [hh] at h; cases h; rfl
  | some c => rw [hh] at h; cases h

theorem lostM_ok {k va : Nat} {s u : State} (h : lostM k va s = .ok ((), u)) : u = s := by
  unfold lostM at h
  rw [M.bind_get_apply] at h
  exact (check_ok h).2

/-- What a load can change: the race detector, the translation cache, and the count of free values. -/
theorem loadPlace_ok {p : Place} {n v : Nat} {chk atomic mir : Bool} {ev : W64} {s u : State}
    (h : loadPlace p n chk atomic ev mir s = .ok (v, u)) : u = { s with det := u.det, tlb := u.tlb, free := u.free } := by
  cases p with
  | slice k =>
    simp only [loadPlace] at h
    obtain ⟨_, t1, h1, g1⟩ := M.bind_eq_ok h
    obtain ⟨_, t2, h2, g2⟩ := M.bind_eq_ok g1
    have e2 : t2 = s := (quiesceM_ok h2).trans (paddockM_ok h1)
    rw [e2] at g2
    clear h g1 h1 h2 e2
    rename' g2 => h
    cases chk
    · simp only [Bool.false_eq_true, if_false] at h
      obtain ⟨_, t3, h3, g3⟩ := M.bind_eq_ok h
      rw [poisonM_ok h3] at g3
      clear h
      rename' g3 => h
      simp only [M.bind_get_apply, M.pure_apply, Except.ok.injEq, Prod.mk.injEq] at h
      rw [← h.2]
    · simp only [if_true] at h
      obtain ⟨_, t3, h3, g3⟩ := M.bind_eq_ok h
      obtain ⟨_, t4, h4, g4⟩ := M.bind_eq_ok g3
      have e3 := raceM_ok h3
      rw [poisonM_ok h4] at g4
      clear h g3
      rename' g4 => h
      simp only [M.bind_get_apply, M.pure_apply, Except.ok.injEq, Prod.mk.injEq] at h
      rw [← h.2, e3, State.raced_eq]
  | virt va host gone =>
    simp only [loadPlace] at h
    rw [M.bind_get_apply] at h
    obtain ⟨k, t1, h1, h⟩ := M.bind_eq_ok h
    have e1 := xlateT_ok h1
    split at h
    · simp only [M.pure_apply, Except.ok.injEq, Prod.mk.injEq] at h
      rw [← h.2, e1]
    · obtain ⟨_, t2, h2, g2⟩ := M.bind_eq_ok h
      obtain ⟨_, t3, h3, g3⟩ := M.bind_eq_ok g2
      rw [(poisonM_ok h3).trans (lostM_ok h2)] at g3
      clear h g2
      rename' g3 => h
      rw [M.bind_get_apply] at h
      split at h
      · simp only [M.pure_apply, Except.ok.injEq, Prod.mk.injEq] at h
        rw [← h.2, e1]
      · obtain ⟨w, t4, h4, h⟩ := M.bind_eq_ok h
        simp only [drawWord_apply, Except.ok.injEq, Prod.mk.injEq] at h4
        simp only [M.pure_apply, Except.ok.injEq, Prod.mk.injEq] at h
        rw [← h.2, ← h4.2, e1]

theorem loadPlace_me {p : Place} {n v : Nat} {chk atomic mir : Bool} {ev : W64} {s u : State}
    (h : loadPlace p n chk atomic ev mir s = .ok (v, u)) : u.me = s.me := by rw [loadPlace_ok h]; rfl

theorem State.setSeq_dies (s : State) (d i : Nat) (q : Seq) : s.setSeq d i q = { s with dies := (s.setSeq d i q).dies } := rfl

theorem taintSeqs_eq (s : State) (part va n : Nat) : taintSeqs s part va n = { s with dies := (taintSeqs s part va n).dies } := by
  unfold taintSeqs
  generalize seqRegions s part va n = l
  induction l generalizing s with
  | nil => rfl
  | cons x t ih =>
    obtain ⟨d, i⟩ := x
    rw [List.foldl_cons]
    simp only
    rw [State.setSeq_dies]
    exact ih _

/-- What a store can change. -/
theorem storePlace_ok {p : Place} {n v : Nat} {chk atomic mir moved : Bool} {ev : W64} {s u : State}
    (h : storePlace p n v chk atomic ev mir moved s = .ok ((), u)) :
    u = { s with mem := u.mem, det := u.det, poison := u.poison, tlb := u.tlb, dies := u.dies } := by
  have w1 : ∀ (s : State) (k : Nat), clearPoison (writeNat s k n v) k n =
      { s with mem := (writeNat s k n v).mem, poison := (clearPoison (writeNat s k n v) k n).poison } := fun s k => by
    rw [clearPoison_eq, writeNat, writeBytes_eq]
  cases p with
  | slice k =>
    simp only [storePlace] at h
    obtain ⟨_, t1, h1, g1⟩ := M.bind_eq_ok h
    obtain ⟨_, t2, h2, g2⟩ := M.bind_eq_ok g1
    have e2 : t2 = s := (quiesceM_ok h2).trans (paddockM_ok h1)
    rw [e2] at g2
    clear h g1 h1 h2 e2
    rename' g2 => h
    cases chk
    · simp only [Bool.false_eq_true, if_false, M.modify_apply, Except.ok.injEq, Prod.mk.injEq, true_and] at h
      rw [← h, w1]
    · simp only [if_true] at h
      obtain ⟨_, t3, h3, h⟩ := M.bind_eq_ok h
      have e3 := raceM_ok h3
      simp only [M.modify_apply, Except.ok.injEq, Prod.mk.injEq, true_and] at h
      rw [← h, w1, e3, State.raced_eq]
  | virt va host gone =>
    simp only [storePlace] at h
    rw [M.bind_get_apply] at h
    obtain ⟨k, t1, h1, h⟩ := M.bind_eq_ok h
    have e1 := xlateT_ok h1
    split at h
    · simp only [M.pure_apply, Except.ok.injEq, Prod.mk.injEq, true_and] at h
      rw [← h, e1]
    · obtain ⟨_, t2, h2, g2⟩ := M.bind_eq_ok h
      rw [lostM_ok h2] at g2
      clear h
      have fin : ∀ (k2 : Option Nat) (t3 : State), t3 = { t1 with tlb := t3.tlb } →
          ((modify fun s => taintSeqs (clearPoison (writeNat s k n v) k n) (partOf s s.cur) va n : M PUnit) >>= fun _ =>
            match k2 with
            | some k2 => modify fun s => clearPoison (writeNat s k2 n v) k2 n
            | none => pure ()) t3 = .ok ((), u) →
          u = { s with mem := u.mem, det := u.det, poison := u.poison, tlb := u.tlb, dies := u.dies } := by
        intro k2 t3 e3 h
        rw [M.bind_modify_apply] at h
        cases k2 with
        | none =>
          simp only [M.pure_apply, Except.ok.injEq, Prod.mk.injEq, true_and] at h
          rw [← h, taintSeqs_eq, w1, e3, e1]
        | some k2 =>
          simp only [M.modify_apply, Except.ok.injEq, Prod.mk.injEq, true_and] at h
          rw [← h, w1, taintSeqs_eq, w1, e3, e1]
      split at g2
      · obtain ⟨k3, t4, h4, g4⟩ := M.bind_eq_ok g2
        exact fin (some k3) t4 (xlateT_ok h4) g4
      · exact fin none t1 rfl g2

theorem storePlace_me {p : Place} {n v : Nat} {chk atomic mir moved : Bool} {ev : W64} {s u : State}
    (h : storePlace p n v chk atomic ev mir moved s = .ok ((), u)) : u.me = s.me := by rw [storePlace_ok h]; rfl

theorem elementM_ready {s : State} {a : Src} {l : BitVec 6} {rd wr : Bool} {e : Layout} {p : Place}
    (h : LayoutAt s a.r l e.es rd wr e p) : elementM a l.toNat rd wr s = .ok ((e, p), s) := by
  unfold elementM
  rw [M.bind_ok h.entry, M.bind_ok h.coordsOk, M.bind_ok (h.spaceOk h.not_net), M.bind_ok h.placeOk]
  rfl

@[simp] theorem setFull_mem (s : State) (k : Nat) : (setFull s k).mem = s.mem := rfl
@[simp] theorem setFull_ctxs (s : State) (k : Nat) : (setFull s k).ctxs = s.ctxs := rfl
@[simp] theorem setFull_cur (s : State) (k : Nat) : (setFull s k).cur = s.cur := rfl
@[simp] theorem setFull_ctx (s : State) (k j : Nat) : (setFull s k).ctx j = s.ctx j := rfl
@[simp] theorem setFull_tags (s : State) (k : Nat) : (setFull s k).tags = setIns (k / 8) s.tags := rfl
@[simp] theorem setEmpty_mem (s : State) (k : Nat) : (setEmpty s k).mem = s.mem := rfl
@[simp] theorem setEmpty_ctx (s : State) (k j : Nat) : (setEmpty s k).ctx j = s.ctx j := rfl
@[simp] theorem setEmpty_tags (s : State) (k : Nat) : (setEmpty s k).tags = setDel (k / 8) s.tags := rfl

theorem mem_setIns (i x : Nat) : ∀ l, i ∈ setIns x l ↔ i ∈ l ∨ i = x
  | [] => by simp [setIns]
  | k :: t => by
    unfold setIns
    split
    · simp [or_comm]
    · split
      · next h => subst h; simp; tauto
      · simp [mem_setIns i x t, or_assoc]

theorem mem_setDel (i x : Nat) (l : List Nat) : i ∈ setDel x l ↔ i ∈ l ∧ i ≠ x := by simp [setDel]

end Sys2Proof.Machine
end

