-- ==== Sys2Proof/Laws/Groups.lean ====
section
/-! SUPPORT. Laws of group objects: what their words read as after a change, and what a change leaves alone. -/

namespace Sys2Proof.Machine

theorem mapGet_mapVals {α : Type} (d : α) (f : α → α) (hf : f d = d) (j : Nat) :
    ∀ m : List (Nat × α), mapGet d (m.map fun p => (p.1, f p.2)) j = f (mapGet d m j)
  | [] => by simp [hf]
  | p :: t => by
    simp only [List.map_cons, mapGet]
    split
    · rfl
    · exact mapGet_mapVals d f hf j t

theorem Group.ext {g h : Group} (h0 : g.w0 = h.w0) (h1 : g.w1 = h.w1) (h2 : g.w2 = h.w2) (h3 : g.w3 = h.w3) : g = h := by
  cases g; cases h; simp_all

theorem readGroup_writeGroup (s : State) (k : Nat) (g : Group) : readGroup (writeGroup s k g) k = g := by
  apply Group.ext
  · show readW _ k = _
    unfold writeGroup
    rw [readW_writeNat_apart _ _ _ _ _ (by omega), readW_writeNat_apart _ _ _ _ _ (by omega), readW_writeNat_apart _ _ _ _ _ (by omega),
      readW_writeNat]
  · show readW _ (k + 8) = _
    unfold writeGroup
    rw [readW_writeNat_apart _ _ _ _ _ (by omega), readW_writeNat_apart _ _ _ _ _ (by omega), readW_writeNat]
  · show readW _ (k + 16) = _
    unfold writeGroup
    rw [readW_writeNat_apart _ _ _ _ _ (by omega), readW_writeNat]
  · show readW _ (k + 24) = _
    unfold writeGroup
    rw [readW_writeNat]

theorem readByte_writeGroup (s : State) (k : Nat) (g : Group) (a : Nat) (h : a < k ∨ k + 32 ≤ a) :
    readByte (writeGroup s k g) a = readByte s a := by
  unfold writeGroup
  rw [readByte_writeNat_outside _ _ _ _ _ (by omega), readByte_writeNat_outside _ _ _ _ _ (by omega),
    readByte_writeNat_outside _ _ _ _ _ (by omega), readByte_writeNat_outside _ _ _ _ _ (by omega)]

@[simp] theorem writeGroup_ctxs (s : State) (k : Nat) (g : Group) : (writeGroup s k g).ctxs = s.ctxs := by simp [writeGroup]
@[simp] theorem writeGroup_ctx (s : State) (k : Nat) (g : Group) (j : Nat) : (writeGroup s k g).ctx j = s.ctx j := by simp [State.ctx]
@[simp] theorem writeGroup_cur (s : State) (k : Nat) (g : Group) : (writeGroup s k g).cur = s.cur := by simp [writeGroup]
@[simp] theorem writeGroup_me (s : State) (k : Nat) (g : Group) : (writeGroup s k g).me = s.me := by simp [State.me]
@[simp] theorem writeGroup_cores (s : State) (k : Nat) (g : Group) : (writeGroup s k g).cores = s.cores := by simp [writeGroup]

theorem readGroup_of_mem {s t : State} (h : t.mem = s.mem) (k : Nat) : readGroup t k = readGroup s k := by
  unfold readGroup
  rw [readW_of_mem h, readW_of_mem h, readW_of_mem h, readW_of_mem h]

theorem extract_bits (v : W64) (lo n : Nat) (hn : 0 < n) : v.extractLsb' lo n = BitVec.ofNat n (bits v (lo + n - 1) lo) := by
  apply BitVec.eq_of_toNat_eq
  rw [BitVec.extractLsb'_toNat, BitVec.toNat_ofNat, Nat.shiftRight_eq_div_pow]
  unfold bits
  rw [show lo + n - 1 + 1 - lo = n by omega, Nat.mod_mod]

@[simp] theorem Group.setMembers_w1 (g : Group) (n : Nat) : (g.setMembers n).w1 = g.w1 := by rw [Group.setMembers]
@[simp] theorem Group.setMembers_w2 (g : Group) (n : Nat) : (g.setMembers n).w2 = g.w2 := by rw [Group.setMembers]
@[simp] theorem Group.setArrived_w1 (g : Group) (n : Nat) : (g.setArrived n).w1 = g.w1 := by rw [Group.setArrived]
@[simp] theorem Group.setEpoch_w0 (g : Group) (n : Nat) : (g.setEpoch n).w0 = g.w0 := by rw [Group.setEpoch]

theorem gen_of_bits {g h : Group} (e : bits g.w0 31 0 = bits h.w0 31 0) : g.gen = h.gen := by
  unfold Group.gen
  rw [extract_bits _ _ _ (by omega), extract_bits _ _ _ (by omega)]
  exact congrArg _ e

theorem epoch_of_w1 {g h : Group} (e : g.w1 = h.w1) : g.epoch = h.epoch ∧ g.valid = h.valid := by
  unfold Group.epoch Group.valid
  rw [e]
  exact ⟨rfl, rfl⟩

/-- A field replaced leaves the others. -/
theorem Group.setMembers_members (g : Group) (n : Nat) (h : n < 2 ^ 16) : (g.setMembers n).members = n :=
  bits_setBits_same _ _ _ _ (by omega) (by omega) h
theorem Group.setMembers_gen (g : Group) (n : Nat) : (g.setMembers n).gen = g.gen :=
  gen_of_bits (bits_setBits_apart _ _ _ _ _ _ (by omega) (by omega) (by omega))
theorem Group.setMembers_arrived (g : Group) (n : Nat) : (g.setMembers n).arrived = g.arrived :=
  bits_setBits_apart _ _ _ _ _ _ (by omega) (by omega) (by omega)
theorem Group.setMembers_epoch (g : Group) (n : Nat) : (g.setMembers n).epoch = g.epoch := (epoch_of_w1 (setMembers_w1 g n)).1
theorem Group.setArrived_arrived (g : Group) (n : Nat) (h : n < 2 ^ 16) : (g.setArrived n).arrived = n :=
  bits_setBits_same _ _ _ _ (by omega) (by omega) h
theorem Group.setArrived_gen (g : Group) (n : Nat) : (g.setArrived n).gen = g.gen :=
  gen_of_bits (bits_setBits_apart _ _ _ _ _ _ (by omega) (by omega) (by omega))
theorem Group.setArrived_members (g : Group) (n : Nat) : (g.setArrived n).members = g.members :=
  bits_setBits_apart _ _ _ _ _ _ (by omega) (by omega) (by omega)
theorem Group.setArrived_epoch (g : Group) (n : Nat) : (g.setArrived n).epoch = g.epoch := (epoch_of_w1 (setArrived_w1 g n)).1
theorem Group.setEpoch_epoch (g : Group) (e : BitVec 32) : (g.setEpoch e.toNat).epoch = e := by
  have hlt := e.isLt
  unfold Group.setEpoch Group.epoch
  rw [extract_bits _ _ _ (by omega), bits_setBits_same _ _ _ _ (by omega) (by omega) (by norm_num at hlt ⊢; exact hlt)]
  exact BitVec.ofNat_toNat .. |>.trans (BitVec.setWidth_eq e)
theorem Group.setEpoch_gen (g : Group) (n : Nat) : (g.setEpoch n).gen = g.gen := gen_of_bits (by rw [setEpoch_w0])
theorem Group.setEpoch_members (g : Group) (n : Nat) : (g.setEpoch n).members = g.members := by unfold Group.members; rw [setEpoch_w0]
theorem Group.setEpoch_arrived (g : Group) (n : Nat) : (g.setEpoch n).arrived = g.arrived := by unfold Group.arrived; rw [setEpoch_w0]

theorem Group.members_lt (g : Group) : g.members < 2 ^ 16 := bits_lt ..
theorem Group.arrived_lt (g : Group) : g.arrived < 2 ^ 16 := bits_lt ..

/-- What the waits of a context become when `gnew` changes an object. -/
def regroupCtx (k : Nat) (gen : BitVec 32) (c : Ctx) : Ctx :=
  { c with waits := c.waits.map fun w =>
    match w with
    | .bar o _ _ | .bwait o _ _ => if o = k then .regrouped gen else w
    | _ => w }

theorem regroupCtx_default (k : Nat) (gen : BitVec 32) : regroupCtx k gen {} = {} := by
  unfold regroupCtx
  rw [show (({} : Ctx).waits) = Vector.replicate 3 Wait.none from rfl, Vector.map_replicate]

theorem regroup_ctx (s : State) (k : Nat) (gen : BitVec 32) (j : Nat) : (regroup s k gen).ctx j = regroupCtx k gen (s.ctx j) :=
  (mapGet_mapVals (d := ({} : Ctx)) (regroupCtx k gen) (regroupCtx_default k gen) j s.ctxs :)

@[simp] theorem regroup_mem (s : State) (k : Nat) (gen : BitVec 32) : (regroup s k gen).mem = s.mem := rfl
@[simp] theorem regroup_cur (s : State) (k : Nat) (gen : BitVec 32) : (regroup s k gen).cur = s.cur := rfl

/-- What the waits of a context become when an episode is released. -/
def releaseCtx (k : Nat) (e : BitVec 32) (c : Ctx) : Ctx :=
  { c with waits := c.waits.map fun w =>
    match w with
    | .bar o n t => if o = k ∧ t = e then .phase o n t else w
    | .bwait o n t => if o = k ∧ t = e then .phase o n t else w
    | _ => w }

theorem releaseCtx_default (k : Nat) (e : BitVec 32) : releaseCtx k e {} = {} := by
  unfold releaseCtx
  rw [show (({} : Ctx).waits) = Vector.replicate 3 Wait.none from rfl, Vector.map_replicate]

theorem releaseEpisode_eq (s : State) (k : Nat) : releaseEpisode s k =
    { writeGroup s k (((readGroup s k).setArrived 0).setEpoch ((readGroup s k).epoch + 1).toNat) with
      ctxs := s.ctxs.map fun p => (p.1, releaseCtx k (readGroup s k).epoch p.2)
      saved := (releaseEpisode s k).saved } := by
  rw [← writeGroup_ctxs s k]
  unfold releaseEpisode mapWaits releaseCtx
  rfl

theorem releaseEpisode_ctx (s : State) (k j : Nat) : (releaseEpisode s k).ctx j = releaseCtx k (readGroup s k).epoch (s.ctx j) := by
  rw [releaseEpisode_eq]
  exact (mapGet_mapVals (d := ({} : Ctx)) (releaseCtx k (readGroup s k).epoch) (releaseCtx_default k _) j s.ctxs :)

theorem releaseEpisode_mem (s : State) (k : Nat) : (releaseEpisode s k).mem =
    (writeGroup s k (((readGroup s k).setArrived 0).setEpoch ((readGroup s k).epoch + 1).toNat)).mem := by
  rw [releaseEpisode_eq]
theorem releaseEpisode_cur (s : State) (k : Nat) : (releaseEpisode s k).cur = s.cur := by
  rw [releaseEpisode_eq]
  simp

theorem readGroup_releaseEpisode (s : State) (k : Nat) : readGroup (releaseEpisode s k) k =
    ((readGroup s k).setArrived 0).setEpoch ((readGroup s k).epoch + 1).toNat := by
  rw [readGroup_of_mem (releaseEpisode_mem s k), readGroup_writeGroup]

/-- No check stops a group instruction's access to its object. -/
theorem groupM_ready {s : State} {g : GArgs} {k : Nat} {chk write : Bool} (h : ObjectAt s g 32 32 k chk) (hh : Unheld s k) (hf : Unfenced s k 32)
    (hr : chk = true → Unraced s k 32 write true) (hp : Unpoisoned s k 32) :
    groupM g write s = .ok (k, if chk then s.raced k 32 write true else s) := by
  unfold groupM
  rw [M.bind_ok (h.run (by omega))]
  simp only
  rw [M.bind_paddockM _ hf, M.bind_quiesceM hh]
  cases chk
  · simp only [Bool.false_eq_true, if_false]
    rw [M.bind_poisonM _ hp]; rfl
  · simp only [if_true]
    rw [M.bind_raceM (hr rfl), M.bind_poisonM _ (hp.raced ..)]; rfl

end Sys2Proof.Machine
end

