-- ==== Sys2Proof/Laws/Traps.lean ====
section
/-! SUPPORT. Laws of taking an exception and returning from one. -/

namespace Sys2Proof.Machine

theorem SetsCtx.upd {s t : State} {c : Nat} {x : Ctx} (h : SetsCtx s t c x) (f : Ctx → Ctx) : SetsCtx s (t.updCtx c f) c (f x) := by
  have := h.trans (SetsCtx.setCtx t c (f (t.ctx c)))
  unfold State.updCtx
  rw [h.ctx] at this ⊢
  exact this

theorem applyLates_nil {s : State} {c : Nat} (h : ((s.ctx c).iss.getD {}).late = []) : applyLates s c = s := by
  unfold applyLates
  rw [h]
  rfl

@[simp] theorem withdraw_ctx (s : State) (c j : Nat) : (withdraw s c).ctx j = s.ctx j := rfl
@[simp] theorem withdraw_mem (s : State) (c : Nat) : (withdraw s c).mem = s.mem := rfl
@[simp] theorem withdraw_cur (s : State) (c : Nat) : (withdraw s c).cur = s.cur := rfl
@[simp] theorem withdraw_jobs (s : State) (c : Nat) : (withdraw s c).jobs = s.jobs := rfl
@[simp] theorem withdraw_cores (s : State) (c : Nat) : (withdraw s c).cores = s.cores := rfl

/-- A trap that has a level and a vector enters the level, and changes neither memory nor another context. -/
theorem takeTrap_enters {s : State} {c : Nat} {cause : BitVec 8} (async islot : Bool) (epc v : W64) (hb : banked s c = false)
    (hl : ((s.ctx c).iss.getD {}).late = []) (ht : (s.ctx c).tlevel ≠ 2) (hv : (s.ctx c).tvec.toNat / 16 % 2 ^ 53 ≠ 0)
    (hc : cause ≠ cOverdraw) :
    takeTrap s c cause async islot epc v = (withdraw s c).setCtx c (enterTrap (s.ctx c) cause async islot epc v) := by
  simp only [takeTrap]
  rw [if_neg (by rw [hb]; decide), applyLates_nil hl]
  rw [if_neg (show ¬ ((withdraw s c).ctx c).tlevel = 2 from ht),
    if_neg (show ¬ ((withdraw s c).ctx c).tvec.toNat / 16 % 2 ^ 53 = 0 from hv), if_neg fun h => hc h.1]
  rfl

/-- An asynchronous trap that has a level and a vector enters the level, whatever its cause (R490: only a precise one takes the level away). -/
theorem takeTrap_async {s : State} {c : Nat} (cause : BitVec 8) (islot : Bool) (epc v : W64) (hb : banked s c = false)
    (hl : ((s.ctx c).iss.getD {}).late = []) (ht : (s.ctx c).tlevel ≠ 2) (hv : (s.ctx c).tvec.toNat / 16 % 2 ^ 53 ≠ 0) :
    takeTrap s c cause true islot epc v = (withdraw s c).setCtx c (enterTrap (s.ctx c) cause true islot epc v) := by
  simp only [takeTrap]
  rw [if_neg (by rw [hb]; decide), applyLates_nil hl]
  rw [if_neg (show ¬ ((withdraw s c).ctx c).tlevel = 2 from ht),
    if_neg (show ¬ ((withdraw s c).ctx c).tvec.toNat / 16 % 2 ^ 53 = 0 from hv), if_neg fun h => h.2 trivial]
  rfl

/-- A trap without a level or a vector left kills the context. -/
theorem takeTrap_kills {s : State} {c : Nat} {cause : BitVec 8} (async islot : Bool) (epc v : W64) (hb : banked s c = false)
    (hl : ((s.ctx c).iss.getD {}).late = []) (h : (s.ctx c).tlevel = 2 ∨ (s.ctx c).tvec.toNat / 16 % 2 ^ 53 = 0) :
    takeTrap s c cause async islot epc v =
      killCtx (withdraw s c) c (if (s.ctx c).tlevel = 2 then 0 else 1) cause epc v := by
  simp only [takeTrap]
  rw [if_neg (by rw [hb]; decide), applyLates_nil hl]
  by_cases ht : (s.ctx c).tlevel = 2
  · rw [if_pos (show ((withdraw s c).ctx c).tlevel = 2 from ht), if_pos ht]
  · rw [if_neg (show ¬ ((withdraw s c).ctx c).tlevel = 2 from ht), if_neg ht,
      if_pos (show ((withdraw s c).ctx c).tvec.toNat / 16 % 2 ^ 53 = 0 from h.resolve_left ht)]

theorem arriveAll_none {x : Ctx} (h : x.pend = []) : arriveAll x = x := by
  unfold arriveAll
  rw [h]
  rfl

/-- Where a vector leads: bits [56:4] of it. -/
theorem vector_toNat (n : Nat) : (BitVec.ofNat 57 (n / 16 % 2 ^ 53 * 16)).toNat = n / 16 % 2 ^ 53 * 16 := by
  have : n / 16 % 2 ^ 53 < 2 ^ 53 := Nat.mod_lt _ (by norm_num)
  rw [BitVec.toNat_ofNat]
  omega

/-- The arrival of values on their way leaves the trap level as it is (R409). -/
theorem arriveAll_tlevel (c : Ctx) : (arriveAll c).tlevel = c.tlevel := by
  have h : ∀ (l : List Nat) (c : Ctx), (l.foldl arrive1 c).tlevel = c.tlevel := by
    intro l
    induction l with
    | nil => exact fun _ => rfl
    | cons r t ih =>
      intro c
      rw [List.foldl_cons, ih]
      unfold arrive1
      split <;> rfl
  exact h _ _

/-- A request to the arbiter that goes changes nothing but what the context waits in. -/
theorem dropAsk_eq (x : Ctx) : x.dropAsk = { x with waits := x.dropAsk.waits } := by
  unfold Ctx.dropAsk
  split <;> rfl

/-- The level entered, for a context with nothing on its way and no halt bundle in issue. -/
theorem enterTrap_plain {x : Ctx} (cause : BitVec 8) (async islot : Bool) (epc v : W64) (hp : x.pend = [])
    (hh : ∀ i, x.iss = some i → i.halting = false) :
    enterTrap x cause async islot epc v =
      let b : TrapBank := ⟨w64 (cause.toNat + (if async then 256 else 0) + (if islot then 512 else 0)), epc, v⟩
      let y := { x with
        waits := x.dropAsk.waits, transfers := x.transfers.set! x.tlevel.toNat x.transfer, acq := false
        iss := none, slot := false, rep := 0, pc := BitVec.ofNat 57 (x.tvec.toNat / 16 % 2 ^ 53 * 16) }
      if x.tlevel = 0 then { y with tlevel := 1, bank1 := b } else { y with tlevel := 2, bank2 := b } := by
  have hw := dropAsk_eq x
  cases h : x.iss with
  | none => simp only [enterTrap, arriveAll_none hp, h, Bool.false_and, Bool.false_eq_true, if_false, beq_iff_eq]; rw [hw]
  | some i => simp only [enterTrap, arriveAll_none hp, h, hh i h, Bool.false_and, Bool.false_eq_true, if_false, beq_iff_eq]; rw [hw]

/-- A precise fault of a bundle in issue: the trap, at the syllable's place. -/
theorem faultHere_enters {s : State} {k : Issue} {cause : BitVec 8} (v : W64) (hb : banked s s.cur = false)
    (hk : s.me.iss = some k) (hl : k.late = []) (hh : k.halting = false) (ht : s.me.tlevel ≠ 2)
    (hv : s.me.tvec.toNat / 16 % 2 ^ 53 ≠ 0) (hc : cause ≠ cOverdraw) (it : Bool) :
    ∃ t : State, faultHere s s.cur cause it v = t.setCtx s.cur (enterTrap (s.me.setWait .none) cause false (it && k.slot1)
        (epcWord s.me.pc k.slot1 (if k.slot1 then k.j else 0)) v) ∧
      t.mem = s.mem ∧ t.cur = s.cur ∧ ∀ j, j ≠ s.cur → t.ctx j = s.ctx j := by
  obtain ⟨u, hu⟩ : ∃ u : State, u = ({ s with free := s.free + 1 } : State).updCtx s.cur fun x => x.setWait .none := ⟨_, rfl⟩
  have hx : ∀ j, u.ctx j = if j = s.cur then s.me.setWait .none else s.ctx j := fun j => by
    rw [hu]
    exact State.ctx_setCtx ..
  have hct : u.ctx s.cur = s.me.setWait .none := by rw [hx, if_pos rfl]
  have hb' : banked u s.cur = false := by rw [hu]; exact hb
  have hm : u.mem = s.mem ∧ u.cur = s.cur := by rw [hu]; exact ⟨rfl, rfl⟩
  have h1 : (s.me.setWait .none).iss = some k := hk
  have h2 : resumePoint (s.me.setWait .none) = (k.slot1, if k.slot1 then k.j else 0) := by
    simp only [resumePoint, h1, hh, Bool.false_eq_true, if_false]
  have e : faultHere s s.cur cause it v = takeTrap u s.cur cause false (it && k.slot1)
      (epcWord s.me.pc k.slot1 (if k.slot1 then k.j else 0)) v := by
    simp only [faultHere, ← hu, hct, h2, h1, Option.getD_some]
    rfl
  refine ⟨withdraw u s.cur, ?_, hm.1, hm.2, fun j hj => by rw [withdraw_ctx, hx, if_neg hj]⟩
  rw [e, takeTrap_enters _ _ _ _ hb' (by rw [hct, h1]; exact hl) (by rw [hct]; exact ht) (by rw [hct]; exact hv) hc, hct]

theorem endOverdraw_ctxs (s : State) (c : Nat) : (endOverdraw s c).ctxs = s.ctxs := by
  unfold endOverdraw; split <;> rfl

theorem endOverdraw_mem (s : State) (c : Nat) : (endOverdraw s c).mem = s.mem := by
  unfold endOverdraw; split <;> rfl

/-- The return from a precise exception, for a context that left no point to take it. -/
theorem trapReturn_precise {s : State} {c : Nat} {b : TrapBank} (hb : (s.ctx c).back = none)
    (hl : (s.ctx c).tlevel = 1 → bit b.cause 8 = false) :
    trapReturn s c b = (endOverdraw s c).setCtx c { s.ctx c with
      tlevel := (s.ctx c).tlevel - 1
      pc := BitVec.ofNat 57 (bits b.epc 56 4 * 16)
      slot := bit b.epc 0
      rep := b.epc.extractLsb' 58 6
      iss := none } := by
  have hctx : ∀ j, (endOverdraw s c).ctx j = s.ctx j := fun j => by unfold State.ctx; rw [endOverdraw_ctxs]
  have h : ¬ ((s.ctx c).tlevel = 1 ∧ bit b.cause 8 = true) := fun h => by rw [hl h.1] at h; exact absurd h.2 (by decide)
  simp only [trapReturn, if_neg h, comeBack, State.updCtx, State.ctx_setCtx_same, hctx, hb]

end Sys2Proof.Machine
end

