-- ==== Sys2Proof/Laws/Kills.lean ====
section
/-! SUPPORT. Laws of the end of a context: what leaving its groups, its chutes and its level leaves alone, and what a kill records. -/

namespace Sys2Proof.Machine

/-- A fold keeps what each of its steps keeps. -/
theorem foldl_keeps {α β γ : Type} (p : β → γ) (f : β → α → β) (h : ∀ b a, p (f b a) = p b) (l : List α) (b : β) :
    p (l.foldl f b) = p b := by
  induction l generalizing b with
  | nil => rfl
  | cons a t ih => rw [List.foldl_cons, ih, h]

@[simp] theorem writeGroup_jobs (s : State) (k : Nat) (g : Group) : (writeGroup s k g).jobs = s.jobs := by simp [writeGroup]

@[simp] theorem releaseEpisode_jobs (s : State) (k : Nat) : (releaseEpisode s k).jobs = s.jobs := by
  simp [releaseEpisode, mapWaits]

@[simp] theorem updCtx_jobs (s : State) (c : Nat) (f : Ctx → Ctx) : (s.updCtx c f).jobs = s.jobs := rfl
@[simp] theorem updCore_jobs (s : State) (c : Nat) (f : Core → Core) : (s.updCore c f).jobs = s.jobs := rfl
@[simp] theorem updDie_jobs (s : State) (c : Nat) (f : Die → Die) : (s.updDie c f).jobs = s.jobs := rfl
@[simp] theorem updCore_ctxs (s : State) (c : Nat) (f : Core → Core) : (s.updCore c f).ctxs = s.ctxs := rfl

@[simp] theorem leaveGroup_jobs (s : State) (c : Nat) (m : Member) : (leaveGroup s c m).jobs = s.jobs := by
  simp only [leaveGroup]
  repeat' split
  all_goals simp

@[simp] theorem leaveAll_jobs (s : State) (c : Nat) : (leaveAll s c).jobs = s.jobs :=
  foldl_keeps State.jobs _ (fun s m => leaveGroup_jobs s c m) ..

@[simp] theorem unbindPort_jobs (s : State) (c : Nat) (p : Fin 8) : (unbindPort s c p).jobs = s.jobs := by
  cases h : (s.ctx c).ports.get p <;> simp only [unbindPort, h, updCtx_jobs, writeNat_jobs]

@[simp] theorem unbindAll_jobs (s : State) (c : Nat) : (unbindAll s c).jobs = s.jobs :=
  foldl_keeps State.jobs _ (fun s p => unbindPort_jobs s c p) ..

@[simp] theorem endLevel_jobs (s : State) (c : Nat) : (endLevel s c).jobs = s.jobs := by
  simp only [endLevel]
  split <;> rfl

@[simp] theorem dropHolds_jobs (s : State) (c : Nat) : (dropHolds s c).jobs = s.jobs := rfl
@[simp] theorem leaveBank_jobs (s : State) (c : Nat) : (leaveBank s c).jobs = s.jobs := rfl
@[simp] theorem leaveArbiter_jobs (s : State) (c : Nat) : (leaveArbiter s c).jobs = s.jobs := rfl
@[simp] theorem bumpRegion_jobs (s : State) (c : Nat) : (bumpRegion s c).jobs = s.jobs := rfl

@[simp] theorem retireCtx_jobs (s : State) (c : Nat) : (retireCtx s c).jobs = s.jobs := by
  simp [retireCtx]

@[simp] theorem discardCmds_jobs (s : State) (k : Nat) (p : Cmd → Bool) : (discardCmds s k p).jobs = s.jobs := by
  unfold discardCmds
  exact updCore_jobs ..

theorem freeUnits_keeps {γ : Type} (q : State → γ) (h : ∀ s k f, q (State.updCore s k f) = q s) (s : State) (core : Nat) :
    q (freeUnits s core) = q s := by
  unfold freeUnits
  refine foldl_keeps q _ (fun t l => ?_) _ _
  simp only
  split
  · exact h ..
  · rfl

@[simp] theorem freeUnits_ctxs (s : State) (core : Nat) : (freeUnits s core).ctxs = s.ctxs := freeUnits_keeps State.ctxs (fun _ _ _ => rfl) ..
@[simp] theorem freeUnits_jobs (s : State) (core : Nat) : (freeUnits s core).jobs = s.jobs := freeUnits_keeps State.jobs (fun _ _ _ => rfl) ..

theorem devWriteWs_jobs {s t : State} {p va : Nat} {l : List W64} (h : devWriteWs s p va l = some t) : t.jobs = s.jobs := by
  induction l generalizing s va with
  | nil => cases h; rfl
  | cons v r ih =>
    simp only [devWriteWs] at h
    split at h
    · rw [ih h, writeNat_jobs]
    · cases h

/-- A kill of a context whose launch does not cancel on a kill: the context is killed, or its handler off, and the launch counts it. -/
theorem killCtx_runs {s : State} {c : Nat} (kind : Nat) (cause : BitVec 8) (epc v : W64) (hk : (s.job (s.ctx c).job).kcancel = false) :
    ((killCtx s c kind cause epc v).ctx c).run = (if isHandler c then .off else .killed) ∧
    ((killCtx s c kind cause epc v).job (s.ctx c).job).nkill = ((s.job (s.ctx c).job).nkill + 1) % 2 ^ 32 := by
  obtain ⟨u, hu⟩ : ∃ u : State, u = (discardCmds (retireCtx s c) (coreOf c) fun y => y.ctx == c).updJob (s.ctx c).job
      fun j => { j with nkill := (j.nkill + 1) % 2 ^ 32 } := ⟨_, rfl⟩
  have hj : (u.job (s.ctx c).job).nkill = ((s.job (s.ctx c).job).nkill + 1) % 2 ^ 32 ∧ (u.job (s.ctx c).job).kcancel = false := by
    have h0 : ((discardCmds (retireCtx s c) (coreOf c) fun y => y.ctx == c).job (s.ctx c).job) = s.job (s.ctx c).job := by
      unfold State.job
      rw [discardCmds_jobs, retireCtx_jobs]
    rw [hu]
    unfold State.updJob
    rw [State.job_setJob_same, h0]
    exact ⟨rfl, hk⟩
  simp only [killCtx, ← hu, hj.2, Bool.false_eq_true, if_false]
  constructor
  · unfold State.ctx
    rw [freeUnits_ctxs]
    show (State.ctx (State.updCtx _ c _) c).run = _
    unfold State.updCtx
    rw [State.ctx_setCtx_same]
  · unfold State.job
    rw [freeUnits_jobs, updCtx_jobs]
    split
    · next w hw => rw [devWriteWs_jobs hw]; exact hj.1
    · exact hj.1

end Sys2Proof.Machine
end

