-- ==== Sys2Proof/Laws/Engine.lean ====
section
/-! SUPPORT. The laws of enqueuing a command (R116, R202, R213, R217). -/

namespace Sys2Proof.Machine

/-- The part of an enqueue after the capture of the arrival. -/
def enqTail (c : Cmd) (a : Option (Nat × BitVec 32)) : M Nat := do
  let s ← get
  let core := coreOf s.cur
  let k := s.core core
  await (decide (k.used c.q < 16))
  let me := s.me
  let n := nextNum k c.q
  let c := { c with num := n, born := k.tlNext.toList.sum, ctx := s.cur, job := me.job, lcore := me.lcore, set := tokenSet s s.cur, arv := a, prof := me.prof }
  modify fun s => s.updCore core fun k => { k with tlNext := k.tlNext.set! c.q n, qs := k.qs.set! c.q (k.queue c.q ++ [c]) }
  markSync
  return n

/-- An enqueue with an arrival captures the object first. -/
theorem enqueue_true (c : Cmd) : enqueue c true = (captureArv c.q >>= fun r => enqTail c (some r)) := by
  unfold enqueue
  rw [if_pos rfl]
  rfl

/-- An enqueue without an arrival. -/
theorem enqueue_false (c : Cmd) : enqueue c false = enqTail c none := by
  unfold enqueue
  rw [if_neg (by decide)]
  rfl

/-- A full queue holds the bundle (R116, R217). -/
theorem enqTail_full {u : State} {c : Cmd} {a : Option (Nat × BitVec 32)} (h : 16 ≤ (u.core (coreOf u.cur)).used c.q) : enqTail c a u = .error .wait := by
  unfold enqTail
  rw [M.bind_get_apply]
  simp only
  rw [M.bind_await_fails (by simpa using h)]

/-- A timeline counter after a write. -/
theorem getD_set (v : Vector Nat 6) (q n : Nat) (h : q < 6) : (v.set! q n).toList.getD q 0 = n := by
  rw [List.getD_eq_getElem _ _ (by simpa using h)]; simp

/-- The queues after a write of one. -/
theorem getQ_set {n : Nat} {α : Type} (v : Vector (List α) n) (q p : Nat) (l : List α) (h : q < n) : (v.set! q l).toList.getD p [] = if p = q then l else v.toList.getD p [] := by
  by_cases hp : p = q
  · subst hp
    rw [if_pos rfl, List.getD_eq_getElem _ _ (by simpa using h)]; simp
  · rw [if_neg hp]
    by_cases hl : p < n
    · rw [List.getD_eq_getElem _ _ (by simpa using hl), List.getD_eq_getElem _ _ (by simpa using hl)]
      have : ¬ q = p := fun e => hp e.symm
      simp [this]
    · rw [List.getD_eq_default _ _ (by simpa using hl), List.getD_eq_default _ _ (by simpa using hl)]

/-- What an enqueue does to a queue with room. -/
theorem enqTail_ok {u : State} {c : Cmd} {a : Option (Nat × BitVec 32)} (h : (u.core (coreOf u.cur)).used c.q < 16) (hq : c.q < 5) :
    ∃ (t : State) (d : Cmd), enqTail c a u = .ok (d.num, t.synced) ∧ t = { u with cores := t.cores } ∧ (∀ j, j ≠ coreOf u.cur → t.core j = u.core j) ∧
      (t.core (coreOf u.cur)).queue c.q = (u.core (coreOf u.cur)).queue c.q ++ [d] ∧
      (∀ p, p < 5 → p ≠ c.q → (t.core (coreOf u.cur)).queue p = (u.core (coreOf u.cur)).queue p) ∧
      (t.core (coreOf u.cur)).tlDone = (u.core (coreOf u.cur)).tlDone ∧
      d.num = (u.core (coreOf u.cur)).tlNext.toList.getD c.q 0 + 1 ∧ (t.core (coreOf u.cur)).tlNext.toList.getD c.q 0 = d.num ∧
      d.instr = c.instr ∧ d.q = c.q ∧ d.vals = c.vals ∧ d.ents = c.ents ∧ d.desc = c.desc ∧ d.tok = c.tok ∧ d.ctx = u.cur ∧ d.job = u.me.job ∧ d.lcore = u.me.lcore ∧
      d.prof = u.me.prof ∧ d.phase = c.phase ∧ d.arv = a ∧ d.fresh = c.fresh ∧ d.nth = c.nth ∧ (t.core (coreOf u.cur)).units = (u.core (coreOf u.cur)).units := by
  obtain ⟨d, hd⟩ : ∃ d : Cmd, d = { c with num := nextNum (u.core (coreOf u.cur)) c.q, born := (u.core (coreOf u.cur)).tlNext.toList.sum, ctx := u.cur, job := u.me.job, lcore := u.me.lcore, set := tokenSet u u.cur, arv := a, prof := u.me.prof } := ⟨_, rfl⟩
  have dq : d.q = c.q := by rw [hd]
  obtain ⟨k, hk⟩ : ∃ k : Core, k = { u.core (coreOf u.cur) with tlNext := (u.core (coreOf u.cur)).tlNext.set! c.q d.num, qs := (u.core (coreOf u.cur)).qs.set! c.q ((u.core (coreOf u.cur)).queue c.q ++ [d]) } := ⟨_, rfl⟩
  refine ⟨u.setCore (coreOf u.cur) k, d, ?_, rfl, fun j hj => State.core_setCore_ne _ _ _ _ hj, ?_, fun p hp hpq => ?_, ?_, ?_, ?_, ?_⟩
  · unfold enqTail
    rw [M.bind_get_apply]
    simp only
    rw [M.bind_await (by simpa using h), ← hd, M.bind_modify_apply]
    have : (u.updCore (coreOf u.cur) fun k => { k with tlNext := k.tlNext.set! c.q (nextNum (u.core (coreOf u.cur)) c.q), qs := k.qs.set! c.q (k.queue c.q ++ [d]) }) = u.setCore (coreOf u.cur) k := by
      unfold State.updCore
      rw [hk, show d.num = nextNum (u.core (coreOf u.cur)) c.q by rw [hd]]
    rw [this, M.bind_ok (markSync_apply _), show d.num = nextNum (u.core (coreOf u.cur)) c.q by rw [hd]]
    rfl
  · rw [State.core_setCore_same, hk]
    unfold Core.queue
    rw [getQ_set _ _ _ _ hq, if_pos rfl]
  · rw [State.core_setCore_same, hk]
    unfold Core.queue
    rw [getQ_set _ _ _ _ hq, if_neg hpq]
  · rw [State.core_setCore_same, hk]
  · rw [hd]; rfl
  · rw [State.core_setCore_same, hk]
    exact getD_set _ _ _ (by omega)
  · rw [State.core_setCore_same, hk, hd]; exact ⟨rfl, rfl, rfl, rfl, rfl, rfl, rfl, rfl, rfl, rfl, rfl, rfl, rfl, rfl, rfl⟩

/-- Two updates joined: the detector, then the cores. -/
theorem det_cores {s u t : State} (hu : u = { s with det := u.det }) (ht : t = { u with cores := t.cores }) : t = { s with det := t.det, cores := t.cores } := by
  obtain ⟨d, hd⟩ : ∃ d, u = { s with det := d } := ⟨_, hu⟩
  obtain ⟨k, hk⟩ : ∃ k, t = { u with cores := k } := ⟨_, ht⟩
  subst hd
  subst hk
  rfl

/-- A wake of a core's contexts ends waits in `idle` alone (R156). -/
theorem wakeCore_fold (core : Nat) : ∀ (l : List Nat) (s : State), ∃ u : State,
    l.foldl (fun s i => if (s.ctx (8 * core + i)).run = .idle then s.updCtx (8 * core + i) fun x => { x with run := .live } else s) s = u ∧
      u = { s with ctxs := u.ctxs } ∧ ∀ j, ∃ r, u.ctx j = { s.ctx j with run := r } := by
  intro l
  induction l with
  | nil => exact fun s => ⟨s, rfl, rfl, fun j => ⟨_, rfl⟩⟩
  | cons i t ih =>
    intro s
    obtain ⟨w, hw⟩ : ∃ w, w = if (s.ctx (8 * core + i)).run = .idle then s.updCtx (8 * core + i) fun x => { x with run := .live } else s := ⟨_, rfl⟩
    have h1 : w = { s with ctxs := w.ctxs } ∧ ∀ j, ∃ r, w.ctx j = { s.ctx j with run := r } := by
      rw [hw]
      split
      · refine ⟨rfl, fun j => ?_⟩
        unfold State.updCtx
        rw [State.ctx_setCtx]
        split
        · next hj => exact ⟨.live, by rw [hj]⟩
        · exact ⟨(s.ctx j).run, rfl⟩
      · exact ⟨rfl, fun j => ⟨(s.ctx j).run, rfl⟩⟩
    obtain ⟨u, e1, e2, e3⟩ := ih w
    refine ⟨u, ?_, ?_, fun j => ?_⟩
    · rw [List.foldl_cons, ← hw]; exact e1
    · obtain ⟨a, ha⟩ : ∃ a, w = { s with ctxs := a } := ⟨_, h1.1⟩
      obtain ⟨b, hb⟩ : ∃ b, u = { w with ctxs := b } := ⟨_, e2⟩
      subst ha
      subst hb
      rfl
    · obtain ⟨r, hr⟩ := e3 j
      obtain ⟨q, hq⟩ := h1.2 j
      exact ⟨r, by rw [hr, hq]⟩

/-- What a wake of a core leaves. -/
theorem wakeCore_eq (s : State) (core : Nat) : wakeCore s core = { s with ctxs := (wakeCore s core).ctxs } ∧
    ∀ j, ∃ r, (wakeCore s core).ctx j = { s.ctx j with run := r } := by
  obtain ⟨u, e1, e2, e3⟩ := wakeCore_fold core (List.range 6) s
  unfold wakeCore
  rw [e1]
  exact ⟨e2, e3⟩

theorem wakeCore_mem (s : State) (core : Nat) : (wakeCore s core).mem = s.mem := by rw [(wakeCore_eq s core).1]
theorem wakeCore_cores (s : State) (core : Nat) : (wakeCore s core).cores = s.cores := by rw [(wakeCore_eq s core).1]
theorem wakeCore_core (s : State) (core i : Nat) : (wakeCore s core).core i = s.core i := by unfold State.core; rw [wakeCore_cores]

/-- A context that is not idle sleeps through a wake. -/
theorem wakeCore_awake (s : State) (core j : Nat) (h : (s.ctx j).run ≠ .idle) : (wakeCore s core).ctx j = s.ctx j := by
  unfold wakeCore
  generalize List.range 6 = l
  induction l generalizing s with
  | nil => rfl
  | cons i t ih =>
    rw [List.foldl_cons]
    split
    · next hi =>
      have hj : j ≠ 8 * core + i := fun e => h (e ▸ hi)
      have e : (s.updCtx (8 * core + i) fun x => { x with run := .live }).ctx j = s.ctx j := State.ctx_setCtx_ne _ _ _ _ hj
      rw [ih _ (by rw [e]; exact h), e]
    · exact ih _ h

/-- The queues of a core after the replacement of a command. -/
theorem putCmd_queue (k : Core) (c : Cmd) (p : Nat) (h : c.q < 5) :
    (k.putCmd c).queue p = if p = c.q then (k.queue c.q).map (fun x => if x.num = c.num then c else x) else k.queue p := by
  unfold Core.putCmd
  show (Vector.toList _).getD p [] = _
  rw [getQ_set _ _ _ _ h]
  rfl

/-- The queues of a core after its timeline follows. -/
theorem drainQ_queue (k : Core) (q p : Nat) (h : q < 5) :
    (drainQ k q).queue p = if p = q then (drainList (k.queue q) (k.tlDone.toList.getD q 0)).1 else k.queue p := by
  unfold drainQ
  show (Vector.toList _).getD p [] = _
  rw [getQ_set _ _ _ _ h]
  rfl

/-- A core whose queues, timelines and tokens are given, all else as before. -/
theorem pushTokens_eq (k : Core) (c : Cmd) : pushTokens k c = { k with tok := (pushTokens k c).tok } := by
  unfold pushTokens setTokens
  simp only
  split
  · rfl
  · split <;> split <;> rfl

theorem popTokens_eq (k : Core) (c : Cmd) : popTokens k c = { k with tok := (popTokens k c).tok } := by
  unfold popTokens setTokens
  simp only
  split
  · rfl
  · split <;> split <;> rfl

/-- A failure (R279, R408) of a command that is neither killed nor cancelled: it keeps its place, marked failed with its cause and
value. -/
theorem failCmd_spec (s : State) (core : Nat) (c : Cmd) (f : BitVec 8) (v : W64)
    (hn : (c.quiet || (s.job c.job).cancelled) = false) : ∃ o : Nat,
    failCmd s core c f v = { s with cores := (failCmd s core c f v).cores, ctxs := (failCmd s core c f v).ctxs, failures := s.failures + 1 } ∧
    (failCmd s core c f v).core core = (s.core core).putCmd { c with phase := .failed, cause := f, faddr := v, order := o } ∧
    (∀ j, j ≠ core → (failCmd s core c f v).core j = s.core j) ∧
    ∀ j, ∃ r, (failCmd s core c f v).ctx j = { s.ctx j with run := r } := by
  refine ⟨s.failures + 1, ?_⟩
  obtain ⟨w, hw⟩ : ∃ w, w = putCmd { s with failures := s.failures + 1 } core { c with phase := .failed, cause := f, faddr := v, order := s.failures + 1 } := ⟨_, rfl⟩
  have hf : failCmd s core c f v = wakeCore w core := by
    rw [hw]
    unfold failCmd
    rw [if_neg (by rw [hn]; decide)]
  have h1 : w = { s with cores := w.cores, failures := s.failures + 1 } := by rw [hw]; rfl
  have h2 := wakeCore_eq w core
  rw [hf]
  refine ⟨?_, ?_, fun j hj => ?_, fun j => ?_⟩
  · obtain ⟨a, ha⟩ : ∃ a, w = { s with cores := a, failures := s.failures + 1 } := ⟨_, h1⟩
    obtain ⟨b, hb⟩ : ∃ b, wakeCore w core = { w with ctxs := b } := ⟨_, h2.1⟩
    rw [hb]
    subst ha
    rfl
  · rw [wakeCore_core, hw]
    exact State.core_setCore_same ..
  · rw [wakeCore_core, hw]
    exact State.core_setCore_ne _ _ _ _ hj
  · obtain ⟨r, hr⟩ := h2.2 j
    exact ⟨r, by rw [hr, h1]; rfl⟩

/-- The queue of a command, in a core that its flags, tokens and arrival have left, once it has finished: the finished commands at the
front leave, and the timeline follows (R213). -/
def drainedBy (s : State) (core : Nat) (c : Cmd) : List Cmd × Nat :=
  drainList (((s.core core).queue c.q).map fun x => if x.num = c.num then { c with phase := .finished, vflags := 0, mflags := 0 } else x)
    ((s.core core).tlDone.toList.getD c.q 0)

/-- A command that reaches its number (R213): its queue and its timeline follow, the idle contexts of its core wake, and nothing else
changes. -/
theorem finishCmd_spec (s : State) (core : Nat) (c : Cmd) (hq : c.q < 5) :
    finishCmd s core c = { s with cores := (finishCmd s core c).cores, ctxs := (finishCmd s core c).ctxs } ∧
    (∀ j, j ≠ core → (finishCmd s core c).core j = s.core j) ∧
    (finishCmd s core c).core core = { s.core core with
      qs := ((finishCmd s core c).core core).qs, tlDone := (s.core core).tlDone.set! c.q (drainedBy s core c).2 } ∧
    (∀ p, ((finishCmd s core c).core core).queue p = if p = c.q then (drainedBy s core c).1 else (s.core core).queue p) ∧
    ∀ j, ∃ r, (finishCmd s core c).ctx j = { s.ctx j with run := r } := by
  unfold drainedBy
  obtain ⟨d, hd⟩ : ∃ d : Cmd, d = { c with phase := .finished, vflags := 0, mflags := 0 } := ⟨_, rfl⟩
  rw [← hd]
  have dq : d.q = c.q := by rw [hd]
  have dn : d.num = c.num := by rw [hd]
  obtain ⟨k, hk⟩ : ∃ k : Core, k = s.core core := ⟨_, rfl⟩
  obtain ⟨w, hw⟩ : ∃ w, w = (s.setCore core (k.putCmd d)).setCore core (drainQ (k.putCmd d) c.q) := ⟨_, rfl⟩
  have hc : finishCmd s core c = wakeCore w core := by
    unfold finishCmd putCmd State.updCore
    rw [← hd, State.core_setCore_same, hw, hk]
  have h1 : w = { s with cores := w.cores } := by rw [hw]; rfl
  have h2 := wakeCore_eq w core
  have wc : w.core core = drainQ (k.putCmd d) c.q := by rw [hw]; exact State.core_setCore_same ..
  have pq : (k.putCmd d).queue c.q = (k.queue c.q).map fun x => if x.num = c.num then d else x := by
    rw [putCmd_queue _ _ _ (by rw [dq]; exact hq), dq, if_pos rfl, dn]
  rw [hc, ← hk]
  refine ⟨?_, fun j hj => ?_, ?_, fun p => ?_, fun j => ?_⟩
  · obtain ⟨b, hb⟩ : ∃ b, w = { s with cores := b } := ⟨_, h1⟩
    obtain ⟨e, he⟩ : ∃ e, wakeCore w core = { w with ctxs := e } := ⟨_, h2.1⟩
    rw [he, hb]
  · rw [wakeCore_core, hw, State.core_setCore_ne _ _ _ _ hj, State.core_setCore_ne _ _ _ _ hj]
  · rw [wakeCore_core, wc]
    unfold drainQ
    simp only
    rw [pq]
    rfl
  · rw [wakeCore_core, wc, drainQ_queue _ _ _ hq, pq]
    split
    · rfl
    · next hp => rw [putCmd_queue _ _ _ (by rw [dq]; exact hq), dq, if_neg hp]
  · obtain ⟨r, hr⟩ := h2.2 j
    exact ⟨r, by rw [hr, show w.ctx j = s.ctx j by rw [h1]; rfl]⟩

end Sys2Proof.Machine
end

