-- ==== Sys2Proof/Laws/Units.lean ====
section
/-! SUPPORT. Laws of units and of the contexts that they hold (R28, R43 to R50). -/

namespace Sys2Proof.Machine

/-- What setting contexts one after the other does: each is set from a state in which it stood as before. -/
theorem foldCtx_spec (g : State → Nat → Ctx) : ∀ (l : List Nat) (s : State), l.Nodup →
    l.foldl (fun s c => s.setCtx c (g s c)) s = { s with ctxs := (l.foldl (fun s c => s.setCtx c (g s c)) s).ctxs } ∧
    (∀ j, j ∉ l → (l.foldl (fun s c => s.setCtx c (g s c)) s).ctx j = s.ctx j) ∧
    ∀ c ∈ l, ∃ a, ({ s with ctxs := a } : State).ctx c = s.ctx c ∧ (l.foldl (fun s c => s.setCtx c (g s c)) s).ctx c = g { s with ctxs := a } c := by
  intro l
  induction l with
  | nil => exact fun s _ => ⟨rfl, fun _ _ => rfl, fun c hc => absurd hc (by simp)⟩
  | cons i t ih =>
    intro s hn
    have ht := (List.nodup_cons.mp hn)
    obtain ⟨h1, h2, h3⟩ := ih (s.setCtx i (g s i)) ht.2
    rw [List.foldl_cons]
    refine ⟨?_, fun j hj => ?_, fun c hc => ?_⟩
    · obtain ⟨a, ha⟩ : ∃ a, t.foldl (fun s c => s.setCtx c (g s c)) (s.setCtx i (g s i)) = { s.setCtx i (g s i) with ctxs := a } := ⟨_, h1⟩
      rw [ha]; rfl
    · rw [h2 j fun h => hj (by simp [h])]
      exact State.ctx_setCtx_ne _ _ _ _ fun h => hj (by simp [h])
    · rcases List.mem_cons.mp hc with rfl | hc
      · refine ⟨s.ctxs, rfl, ?_⟩
        rw [h2 c ht.1]
        exact State.ctx_setCtx_same ..
      · obtain ⟨a, h4, h5⟩ := h3 c hc
        have hne : c ≠ i := fun h => ht.1 (h ▸ hc)
        refine ⟨a, ?_, h5⟩
        exact (h4.trans (State.ctx_setCtx_ne _ _ _ _ hne))

/-- The contexts of a unit are distinct. -/
theorem unitCtxs_nodup (core lane : Nat) (u : UnitSt) : (unitCtxs core lane u).Nodup := by
  unfold unitCtxs
  split
  · simp
  · simp

/-- The contexts of a unit belong to its core, where its lane does. -/
theorem unitCtxs_core {core lane c : Nat} {u : UnitSt} (hl : lane < 8) (h : c ∈ unitCtxs core lane u) : c / 8 = core := by
  unfold unitCtxs at h
  split at h
  · simp at h; omega
  · simp at h; omega

/-- The units of a core after a lane is given one. -/
theorem setUnit_unit (s : State) (core lane : Nat) (u : Option UnitSt) (h : lane < 3) :
    ((setUnit s core lane u).core core).units.toList.getD lane none = u := by
  unfold setUnit State.updCore
  rw [State.core_setCore_same]
  show (Vector.toList _).getD lane none = u
  rw [List.getD_eq_getElem _ _ (by simpa using h)]; simp

/-- The deposit of a record changes memory and the free values alone (R44). -/
theorem depositRecord_eq (s : State) (core lane job idx b : Nat) : depositRecord s core lane job idx b =
    { s with mem := (depositRecord s core lane job idx b).mem, free := (depositRecord s core lane job idx b).free } := by
  have h : ∀ (j : Job) (l : List Nat) (t : State), ∃ m f, l.foldl (fun s i =>
      match xlateDev s j.fn (j.args + idx * j.recsz + i) true false with
      | some k => writeByte s (sliceKey core (bufOff lane b) + i) (readByte s k)
      | none => writeByte { s with free := s.free + 1 } (sliceKey core (bufOff lane b) + i) (Config.freeByte s.free)) t = { t with mem := m, free := f } := by
    intro j l
    induction l with
    | nil => exact fun t => ⟨t.mem, t.free, rfl⟩
    | cons i l ih =>
      intro t
      rw [List.foldl_cons]
      split
      · obtain ⟨m, f, e⟩ := ih (writeByte t (sliceKey core (bufOff lane b) + i) (readByte t _))
        exact ⟨m, f, e⟩
      · obtain ⟨m, f, e⟩ := ih (writeByte { t with free := t.free + 1 } (sliceKey core (bufOff lane b) + i) (Config.freeByte t.free))
        exact ⟨m, f, e⟩
  obtain ⟨m, f, e⟩ := h (s.job job) (List.range (s.job job).recsz) s
  have e' : depositRecord s core lane job idx b = { s with mem := m, free := f } := e
  rw [e']

/-- The arrival of values on their way leaves the region open (R121). -/
theorem arriveAll_region (c : Ctx) : (arriveAll c).region = c.region := by
  have h : ∀ (l : List Nat) (c : Ctx), (l.foldl arrive1 c).region = c.region := by
    intro l
    induction l with
    | nil => exact fun _ => rfl
    | cons r t ih =>
      intro c
      rw [List.foldl_cons, ih]
      unfold arrive1
      split <;> rfl
  exact h _ _

/-- A context whose unit starts a task, but for the contents of x1 to x3 and the pc: what stands of its last task, or nothing (R45, R46). -/
def baseCtx (s : State) (c : Nat) (u : UnitSt) (again : Bool) : Ctx :=
  if again then arriveAll (s.ctx c) else freshCtx s c u.job u.lcore

/-- A task's start (R45, R46). -/
theorem startTask_spec (s : State) (core lane : Nat) (u : UnitSt) (idx : Nat) (again : Bool) (hl : lane < 3) :
    ((startTask s core lane u idx again).core core).units.toList.getD lane none =
      some { u with tasks := u.tasks + 1, cur := idx, began := s.time, deposited := none, ended := 0, atTend := false, stale := true } ∧
    ∀ c ∈ unitCtxs core lane u, ∃ w : State, w.jobs = s.jobs ∧ w.ctx c = s.ctx c ∧
      (startTask s core lane u idx again).ctx c =
        { baseCtx w c u again with
          run := .live
          iss := none
          acq := false
          transfers := Vector.replicate 3 none
          x := (((baseCtx w c u again).x.set 1 (w64 (bufOff lane (u.tasks % 2)))).set 2 (w64 idx)).set 3 (w64 u.job)
          pc := (s.job u.job).entry + BitVec.ofNat 57 (if u.triple then 16 * (c % 8) else 0)
          slot := false
          rep := 0
          wdog := 0
          expired := 0
          disc := 0
          prof := 0
          region := (s.ctx c).region + 1 } := by
  obtain ⟨d, hd⟩ : ∃ d, d = if u.deposited = some idx then s else depositRecord s core lane u.job idx (u.tasks % 2) := ⟨_, rfl⟩
  have d1 : d = { s with mem := d.mem, free := d.free } := by
    rw [hd]
    split
    · rfl
    · exact depositRecord_eq ..
  obtain ⟨v, hv⟩ : ∃ v : UnitSt, v = { u with tasks := u.tasks + 1, cur := idx, began := d.time, deposited := none, ended := 0, atTend := false, stale := true } := ⟨_, rfl⟩
  obtain ⟨e, he⟩ : ∃ e, e = charge (setUnit d core lane (some v)) (core / 128) (d.job u.job).fn := ⟨_, rfl⟩
  have ectx : ∀ c, e.ctx c = s.ctx c := fun c => by rw [he, d1]; rfl
  have ejobs : e.jobs = s.jobs := by rw [he, d1]; rfl
  have hdt : d.time = s.time := by rw [d1]
  obtain ⟨g, hg⟩ : ∃ g : State → Nat → Ctx, g = fun s c =>
      let base := baseCtx s c u again
      let off := if u.triple then 16 * (c % 8) else 0
      { base with
        run := .live
        iss := none
        acq := false
        transfers := Vector.replicate 3 none
        x := ((base.x.set 1 (w64 (bufOff lane (u.tasks % 2)))).set 2 (w64 idx)).set 3 (w64 u.job)
        pc := (s.job u.job).entry + BitVec.ofNat 57 off
        slot := false
        rep := 0
        wdog := 0
        expired := 0
        disc := 0
        prof := 0
        region := base.region + 1 } := ⟨_, rfl⟩
  have hs : startTask s core lane u idx again = (unitCtxs core lane u).foldl (fun s c => s.setCtx c (g s c)) e := by
    rw [hg, he, hv, hd]
    rfl
  obtain ⟨h1, h2, h3⟩ := foldCtx_spec g (unitCtxs core lane u) e (unitCtxs_nodup ..)
  rw [hs]
  constructor
  · rw [h1]
    show (e.core core).units.toList.getD lane none = _
    rw [he]
    refine (setUnit_unit _ _ _ _ hl).trans ?_
    rw [hv, hdt]
  · intro c hc
    obtain ⟨a, h4, h5⟩ := h3 c hc
    refine ⟨{ e with ctxs := a }, ejobs, h4.trans (ectx c), ?_⟩
    rw [h5, hg]
    simp only
    have hr : (baseCtx { e with ctxs := a } c u again).region = (s.ctx c).region := by
      unfold baseCtx
      split
      · rw [arriveAll_region, h4, ectx]
      · show (({ e with ctxs := a } : State).ctx c).region = _
        rw [h4, ectx]
    have hj : (({ e with ctxs := a } : State).job u.job).entry = (s.job u.job).entry := by
      show (e.job u.job).entry = _
      unfold State.job
      rw [ejobs]
    rw [hr, hj]

end Sys2Proof.Machine
end

