-- ==== Sys2Proof/Laws/Spares.lean ====
section
/-! SUPPORT. Which operations spare a context: a kill, a resumption and the start of a task leave every other context as it was, but for what
it waits in. -/

namespace Sys2Proof.Machine

/-- Context j is as it was, but for what it waits in. -/
def Spares (j : Nat) (s t : State) : Prop := t.cur = s.cur ∧ ∃ w, t.ctx j = { s.ctx j with waits := w }

theorem Spares.refl (j : Nat) (s : State) : Spares j s s := ⟨rfl, _, rfl⟩

theorem Spares.trans {j : Nat} {s t u : State} (h : Spares j s t) (g : Spares j t u) : Spares j s u := by
  obtain ⟨h1, w, h2⟩ := h
  obtain ⟨g1, v, g2⟩ := g
  exact ⟨g1.trans h1, v, by rw [g2, h2]⟩

theorem Spares.of_ctxs {j : Nat} {s t : State} (h : t.ctxs = s.ctxs) (hc : t.cur = s.cur) : Spares j s t :=
  ⟨hc, (s.ctx j).waits, by unfold State.ctx; rw [h]⟩

theorem Spares.setCtx {j c : Nat} (s : State) (x : Ctx) (h : j ≠ c) : Spares j s (s.setCtx c x) :=
  ⟨rfl, (s.ctx j).waits, State.ctx_setCtx_ne _ _ _ _ h⟩

theorem Spares.foldl {α : Type} {j : Nat} {f : State → α → State} {l : List α} (h : ∀ s, ∀ a ∈ l, Spares j s (f s a)) (s : State) :
    Spares j s (l.foldl f s) := by
  induction l generalizing s with
  | nil => exact .refl ..
  | cons a t ih =>
    rw [List.foldl_cons]
    exact (h s a (by simp)).trans (ih (fun s b hb => h s b (by simp [hb])) _)

theorem Spares.updCtx {j c : Nat} {s t : State} (g : Spares j s t) (f : Ctx → Ctx) (h : j ≠ c) : Spares j s (t.updCtx c f) :=
  g.trans (.setCtx _ _ h)

theorem Spares.releaseEpisode {j : Nat} {s t : State} (g : Spares j s t) (k : Nat) : Spares j s (Machine.releaseEpisode t k) :=
  g.trans ⟨releaseEpisode_cur .., _, releaseEpisode_ctx ..⟩

theorem Spares.writeGroup {j : Nat} {s t : State} (g : Spares j s t) (k : Nat) (o : Group) : Spares j s (Machine.writeGroup t k o) :=
  g.trans (.of_ctxs (writeGroup_ctxs ..) (writeGroup_cur ..))

theorem Spares.writeNat {j : Nat} {s t : State} (g : Spares j s t) (k n v : Nat) : Spares j s (Machine.writeNat t k n v) :=
  g.trans (.of_ctxs (writeNat_ctxs ..) (writeNat_cur ..))

/-- What changes no context at all spares each. -/
theorem Spares.same {j : Nat} {s t u : State} (g : Spares j s t) (h : u.ctxs = t.ctxs) (hc : u.cur = t.cur) : Spares j s u :=
  g.trans (.of_ctxs h hc)

theorem Spares.updCore {j : Nat} {s t : State} (g : Spares j s t) (i : Nat) (f : Core → Core) : Spares j s (t.updCore i f) := g.same rfl rfl
theorem Spares.updJob {j : Nat} {s t : State} (g : Spares j s t) (i : Nat) (f : Job → Job) : Spares j s (t.updJob i f) := g.same rfl rfl
theorem Spares.updDie {j : Nat} {s t : State} (g : Spares j s t) (i : Nat) (f : Die → Die) : Spares j s (t.updDie i f) := g.same rfl rfl

theorem leaveGroup_spares {j c : Nat} {s t : State} (g : Spares j s t) (m : Member) (h : j ≠ c) : Spares j s (leaveGroup t c m) := by
  obtain ⟨u, hu⟩ : ∃ u : State, u = t.updCtx c fun x => { x with groups := x.groups.filter (· != m) } := ⟨_, rfl⟩
  have g : Spares j s u := by rw [hu]; exact g.updCtx _ h
  have f : ∀ (p : Prop) [Decidable p] (o : Group), Spares j s (if p then releaseEpisode (writeGroup u m.obj o) m.obj else writeGroup u m.obj o) :=
    fun p _ o => by
      split
      · exact (g.writeGroup _ _).releaseEpisode _
      · exact g.writeGroup _ _
  simp only [leaveGroup, ← hu]
  split
  · exact g
  · exact f _ _

theorem leaveAll_spares {j c : Nat} {s t : State} (g : Spares j s t) (h : j ≠ c) : Spares j s (leaveAll t c) :=
  g.trans (.foldl (fun _ m _ => leaveGroup_spares (.refl ..) m h) t)

theorem unbindPort_spares {j c : Nat} (s : State) (p : Fin 8) (h : j ≠ c) : Spares j s (unbindPort s c p) := by
  cases hp : (s.ctx c).ports.get p with
  | none => simp only [unbindPort, hp]; exact .refl ..
  | some k =>
    simp only [unbindPort, hp]
    exact (Spares.writeNat (.refl ..) _ _ _).updCtx _ h

theorem unbindAll_spares {j c : Nat} {s t : State} (g : Spares j s t) (h : j ≠ c) : Spares j s (unbindAll t c) :=
  g.trans (.foldl (fun s p _ => unbindPort_spares s p h) t)

theorem endLevel_spares {j c : Nat} {s t : State} (g : Spares j s t) (h : j ≠ c) : Spares j s (endLevel t c) := by
  simp only [endLevel]
  split
  · exact g
  · exact g.updCtx _ h

theorem retireCtx_spares {j c : Nat} (s : State) (h : j ≠ c) : Spares j s (retireCtx s c) := by
  unfold retireCtx bumpRegion
  refine Spares.updCtx ?_ _ h
  have g : Spares j s (endLevel (unbindAll (leaveAll s c) c) c) :=
    endLevel_spares (unbindAll_spares (leaveAll_spares (.refl ..) h) h) h
  obtain ⟨u, hu⟩ : ∃ u, u = endLevel (unbindAll (leaveAll s c) c) c := ⟨_, rfl⟩
  rw [← hu] at g ⊢
  exact g.same rfl rfl

theorem freeUnits_spares {j : Nat} {s t : State} (g : Spares j s t) (core : Nat) : Spares j s (freeUnits t core) :=
  g.same (freeUnits_ctxs ..) (freeUnits_keeps State.cur (fun _ _ _ => rfl) ..)

theorem devWriteWs_spares {j : Nat} {s t u : State} {p va : Nat} {l : List W64} (g : Spares j s t) (h : devWriteWs t p va l = some u) :
    Spares j s u := by
  induction l generalizing t va with
  | nil => cases h; exact g
  | cons v r ih =>
    simp only [devWriteWs] at h
    split at h
    · exact ih (g.writeNat _ _ _) h
    · cases h

/-- A context that others leave the place of is put back as it stood. -/
theorem Spares.around {j c : Nat} {s t : State} (x : Ctx) (g : j ≠ c → Spares j (s.setCtx c x) t) (hc : t.cur = s.cur) :
    Spares j s (t.setCtx c (s.ctx c)) := by
  by_cases h : j = c
  · subst h
    exact ⟨hc, (s.ctx j).waits, State.ctx_setCtx_same ..⟩
  · exact (Spares.setCtx s x h).trans ((g h).trans (.setCtx _ _ h))

theorem leaveSaved_spares {j : Nat} {s t : State} (g : Spares j s t) (sv : SavedUnit) : Spares j s (leaveSaved t sv) := by
  refine g.trans (.foldl (fun s p _ => ?_) t)
  have e : ∀ t c, Spares j s t → Spares j s (dropHolds t c) := fun t c h => h.same rfl rfl
  refine e _ _ ?_
  have f : ∀ {c i : Nat} {t : State}, i ≠ c → Spares i t (unbindAll (leaveAll t c) c) := fun h =>
    unbindAll_spares (leaveAll_spares (.refl ..) h) h
  exact Spares.around p.2 (fun h => f h) (f (Nat.succ_ne_self (8 * sv.core + p.1))).1

theorem dropSaved_spares {j : Nat} {s t : State} (g : Spares j s t) (job : Nat) : Spares j s (dropSaved t job) := by
  have h : Spares j s ((t.saved.filter fun v => v.unit.job == job).foldl leaveSaved t) :=
    g.trans (.foldl (fun s v _ => leaveSaved_spares (.refl ..) v) t)
  unfold dropSaved
  obtain ⟨u, hu⟩ : ∃ u, u = (t.saved.filter fun v => v.unit.job == job).foldl leaveSaved t := ⟨_, rfl⟩
  rw [← hu] at h ⊢
  exact h.same rfl rfl

theorem freeRing_spares {j : Nat} {s t : State} (g : Spares j s t) (a : Arrival) : Spares j s (freeRing t a) := by
  unfold freeRing
  split
  · exact g.same rfl rfl
  · exact g

theorem discardJob_spares {j : Nat} {s t : State} (g : Spares j s t) (job : Nat) : Spares j s (discardJob t job) := by
  refine g.trans (.foldl (fun s p _ => ?_) t)
  have h : ∀ l : List Arrival, Spares j s (l.foldl freeRing s) := fun l => .foldl (fun s a _ => freeRing_spares (.refl ..) a) s
  have f : ∀ (u : State) (f1 f2 : Core → Core), Spares j s u → Spares j s ((u.updCore p.1 f1).updCore p.1 f2) := fun u f1 f2 hu => hu.same rfl rfl
  exact f _ _ _ (h _)

theorem cancelJob_spares {j : Nat} {s t : State} (g : Spares j s t) (job : Nat) : Spares j s (cancelJob t job) := by
  unfold cancelJob
  have h : ∀ (l : List Nat) (u : State), Spares j s u → Spares j s (l.foldl (fun s i => discardJob (dropSaved s i) i) u) := fun l u h =>
    h.trans (.foldl (fun s i _ => discardJob_spares (dropSaved_spares (.refl ..) i) i) u)
  exact h _ _ (g.same rfl rfl)

/-- A kill spares every other context. -/
theorem killCtx_spares {j c : Nat} {s t : State} (g : Spares j s t) (kind : Nat) (cause : BitVec 8) (epc v : W64) (h : j ≠ c) :
    Spares j s (killCtx t c kind cause epc v) := by
  refine g.trans ?_
  obtain ⟨u, hu⟩ : ∃ u, u = (discardCmds (retireCtx t c) (coreOf c) fun y => y.ctx == c).updJob (t.ctx c).job
      fun j => { j with nkill := (j.nkill + 1) % 2 ^ 32 } := ⟨_, rfl⟩
  have h1 : Spares j t u := by
    have f : ∀ (w : State) (p : Cmd → Bool) (i : Nat) (g : Job → Job), Spares j t w → Spares j t ((discardCmds w (coreOf c) p).updJob i g) :=
      fun w p i g hw => by
        unfold discardCmds
        exact (hw.updCore _ _).updJob _ _
    rw [hu]
    exact f _ _ _ _ (retireCtx_spares t h)
  have h2 : ∀ (o : Option State), (∀ w, o = some w → Spares j t w) → Spares j t (match o with | some s' => s' | none => u) := fun o ho => by
    cases o with
    | none => exact h1
    | some w => exact ho w rfl
  have h3 : ∀ (o : Option State) (f : Ctx → Ctx) (b : Bool) (i : Nat), (∀ w, o = some w → Spares j t w) →
      Spares j t (if b = true then cancelJob (freeUnits ((match o with | some s' => s' | none => u).updCtx c f) (coreOf c)) i
        else freeUnits ((match o with | some s' => s' | none => u).updCtx c f) (coreOf c)) := fun o f b i ho => by
    split
    · exact cancelJob_spares (freeUnits_spares ((h2 o ho).updCtx _ h) _) _
    · exact freeUnits_spares ((h2 o ho).updCtx _ h) _
  simp only [killCtx, ← hu]
  exact h3 _ _ _ _ fun w hw => devWriteWs_spares h1 hw

theorem depositRecord_spares {j : Nat} {s t : State} (g : Spares j s t) (core lane job idx b : Nat) :
    Spares j s (depositRecord t core lane job idx b) := by
  rw [depositRecord_eq]
  exact g.same rfl rfl

/-- A task's start spares the contexts of other units. -/
theorem startTask_spares {j : Nat} {s t : State} (g : Spares j s t) (core lane : Nat) (u : UnitSt) (idx : Nat) (again : Bool)
    (h : j ∉ unitCtxs core lane u) : Spares j s (startTask t core lane u idx again) := by
  obtain ⟨d, hd⟩ : ∃ d, d = if u.deposited = some idx then t else depositRecord t core lane u.job idx (u.tasks % 2) := ⟨_, rfl⟩
  have gd : Spares j s d := by
    rw [hd]
    split
    · exact g
    · exact depositRecord_spares g ..
  have f : ∀ (e : State) (v : State → Nat → Ctx), Spares j s e → Spares j s ((unitCtxs core lane u).foldl (fun s c => s.setCtx c (v s c)) e) :=
    fun e v he => he.trans (.foldl (fun s c hc => .setCtx _ _ fun he => h (by rw [he]; exact hc)) e)
  unfold startTask
  simp only [← hd]
  exact f _ _ ((gd.updCore _ _).updDie _ _)

/-- So does what a unit does at the end of a task. -/
theorem nextRecord_spares {j : Nat} {s t : State} (g : Spares j s t) (core lane : Nat) (u : UnitSt) (h : j ∉ unitCtxs core lane u) :
    Spares j s (nextRecord t core lane u) := by
  have close : ∀ (w : State) (v : UnitSt), Spares j s w → Spares j s ((unitCtxs core lane u).foldl
      (fun s c => s.updCtx c fun x => { x with run := .live, iss := none }) (setUnit w core lane (some v))) := fun w v hw =>
    (hw.updCore _ _).trans (.foldl (fun s c hc => Spares.updCtx (.refl ..) _ fun he => h (by rw [he]; exact hc)) _)
  have take : ∀ f n w, takeChunk t (core / 128) u.job = some (f, n, w) → Spares j s w := by
    intro f n w hw
    have p : Spares j s (passTurn t (core / 128) (t.job u.job)) := by
      unfold passTurn
      split
      · exact g.updDie _ _
      · exact g
    simp only [takeChunk] at hw
    split at hw
    · cases hw
    · split at hw <;> (cases hw; exact p.same rfl rfl)
  unfold nextRecord
  split
  · exact startTask_spares g _ _ _ _ _ h
  · split
    · next f n w hw =>
      split
      · exact close _ _ (take _ _ _ hw)
      · exact startTask_spares (take _ _ _ hw) _ _ _ _ _ h
    · exact close _ _ g

theorem writeByte_spares {j : Nat} {s t : State} (g : Spares j s t) (k : Nat) (b : Byte) : Spares j s (writeByte t k b) := g.same rfl rfl

theorem clearSlice_spares {j : Nat} {s t : State} (g : Spares j s t) (core lo n : Nat) : Spares j s (clearSlice t core lo n) := g.same rfl rfl
theorem setFull_spares {j : Nat} {s t : State} (g : Spares j s t) (k : Nat) : Spares j s (setFull t k) := g.same rfl rfl
theorem renameBank_spares {j : Nat} {s t : State} (g : Spares j s t) (a b : Nat) : Spares j s (renameBank t a b) := g.same rfl rfl
theorem renameHolder_spares {j : Nat} {s t : State} (g : Spares j s t) (a b : Nat) : Spares j s (renameHolder t a b) := g.same rfl rfl
theorem dropHolds_spares {j : Nat} {s t : State} (g : Spares j s t) (c : Nat) : Spares j s (dropHolds t c) := g.same rfl rfl
theorem renameWaiter_spares {j : Nat} {s t : State} (g : Spares j s t) (a b : Nat × Nat) : Spares j s (renameWaiter t a b) := g.same rfl rfl

theorem restoreSlice_spares {j : Nat} {s t : State} (g : Spares j s t) (jb : Job) (sv : SavedUnit) (core : Nat) :
    Spares j s (restoreSlice t jb sv core) := by
  unfold restoreSlice
  extract_lets drop live all s1 keep s2 s3
  have h1 : Spares j s s1 := g.trans (.foldl (fun s r _ => clearSlice_spares (.refl ..) _ _ _) t)
  have h2 : Spares j s s2 := h1.trans (.foldl (fun s p _ => by split; exacts [writeByte_spares (.refl ..) _ _, .refl ..]) s1)
  have h3 : Spares j s s3 := h2.trans (.foldl (fun s p _ => by split; exacts [setFull_spares (.refl ..) _, .refl ..]) s2)
  exact h3.same rfl rfl

theorem requeue_spares {j : Nat} {s t : State} (g : Spares j s t) (core h : Nat) (cmds : List (Cmd × Nat)) :
    Spares j s (requeue t core h cmds).1 := by
  have f : ∀ (l : List Nat) (a : State × List (Nat × Int)), Spares j s a.1 → Spares j s (l.foldl (fun (s, os) q =>
      let l := cmds.filter fun c => c.1.q == q
      match l with
      | [] => (s, os)
      | (c0, _) :: _ =>
        let base := nextNum (s.core core) q
        let s := l.foldl (fun s (c, i) =>
          let c' := { c with num := base + (c.num - c0.num), born := (s.core core).tlNext.toList.sum, ctx := 8 * core + c.ctx % 8 }
          let s := renameWaiter s (2 ^ 20 + h, i) (cmdWaiter core c')
          s.updCore core fun k => { k with qs := k.qs.set! q (k.queue q ++ [c']), tlNext := k.tlNext.set! q c'.num }) s
        (s, os ++ [(q, (c0.num : Int) - base)])) a).1 := by
    intro l
    induction l with
    | nil => exact fun a ha => ha
    | cons q r ih =>
      intro a ha
      rw [List.foldl_cons]
      refine ih _ ?_
      simp only
      split
      · exact ha
      · exact ha.trans (.foldl (fun s p _ => (renameWaiter_spares (.refl ..) _ _).updCore _ _) _)
  exact f _ (t, []) g

theorem rebase_spares {j : Nat} {s t : State} (g : Spares j s t) (sv : SavedUnit) (core : Nat) (os : List (Nat × Int)) (b : Bool) :
    Spares j s (rebase t sv core os b) :=
  g.trans (.foldl (fun _ _ _ => Spares.updJob (.refl ..) _ _) t)

/-- A resumption spares the contexts of other units. -/
theorem resumeUnit_spares {j : Nat} {s t : State} (g : Spares j s t) (sv : SavedUnit) (core : Nat)
    (h : ∀ p ∈ sv.ctxs, j ≠ 8 * core + p.1) (hu : j ∉ unitCtxs core sv.lane sv.unit) : Spares j s (resumeUnit t sv core) := by
  unfold resumeUnit
  extract_lets u jb set moved disc s1 s2 back s4 stays s5 s6 s7 old s8 s9 s10 s11
  have h1 : Spares j s s1 := g.same rfl rfl
  have h2 : Spares j s s2 := (restoreSlice_spares h1 ..).updDie _ _
  have h4 : Spares j s s4 := requeue_spares h2 ..
  have h5 : Spares j s s5 := rebase_spares h4 ..
  have h6 : Spares j s s6 := h5.updJob _ _
  have h7 : Spares j s s7 := h6.updCore _ _
  have h8 : Spares j s s8 := by
    unfold s8
    split
    · exact (h7.updCore _ _).updCore _ _
    · exact h7
  have h9 : Spares j s s9 := by
    unfold s9
    split
    · exact h8.same rfl rfl
    · exact h8
  have h10 : Spares j s s10 := h9.trans (.foldl (fun s p hp => renameBank_spares (renameHolder_spares (.setCtx s _ (h p hp)) _ _) _ _) s9)
  have h11 : Spares j s s11 := h10.trans (.foldl (fun _ _ _ => Spares.updDie (.refl ..) _ _) s10)
  split
  · exact nextRecord_spares h11 _ _ _ hu
  · exact h11

/-- The kill of a context of a suspended unit spares the contexts of the part. -/
theorem killSaved_spares {j : Nat} {s t : State} (g : Spares j s t) (sv : SavedUnit) (n : Nat) (h : j < 4096) :
    Spares j s (killSaved t sv n) := by
  have f : ∀ (l : List (Nat × Ctx)) (w : State), Spares j s w → Spares j s (l.foldl (fun s (i, x) =>
      let c := 4096 + 8 * sv.core + i
      let s := s.setCtx c x
      let (slot, rep) := resumePoint x
      let s := if i = n then killCtx s c 2 0 (epcWord x.pc slot rep) 0 else retireCtx s c
      dropHolds (s.setCtx c {}) (savedName sv.handle i)) w) := fun l w hw => hw.trans (.foldl (fun s p _ => by
    have hj : j ≠ 4096 + 8 * sv.core + p.1 := by omega
    have h1 := Spares.setCtx s p.2 hj
    have h2 : ∀ u, Spares j s u → Spares j s (dropHolds (u.setCtx (4096 + 8 * sv.core + p.1) {}) (savedName sv.handle p.1)) := fun u hu =>
      dropHolds_spares (hu.trans (.setCtx _ _ hj)) _
    refine h2 _ ?_
    split
    · exact killCtx_spares h1 _ _ _ _ hj
    · exact h1.trans (retireCtx_spares _ hj)) w)
  exact f _ _ (g.same rfl rfl)

/-- A register that is written at once in the running context still is, in a state that spares it. -/
theorem Writes.spared {s t : State} {d : Reg} (h : Writes s d) (g : Spares s.cur s t) : Writes t d := by
  obtain ⟨hc, w, hw⟩ := g
  have : t.me = { s.me with waits := w } := by rw [State.me_eq, hc]; exact hw
  unfold Writes at *
  rw [this]
  exact h

end Sys2Proof.Machine
end

