-- ==== Sys2Proof/Laws/Streams.lean ====
section
/-! SUPPORT. What the device's own writes, a stream's write-back and the shedding of load can change. -/

namespace Sys2Proof.Machine

/-- A write of a value changes memory alone. -/
theorem writeNat_only (s : State) (k n v : Nat) : writeNat s k n v = { s with mem := (writeNat s k n v).mem } := writeBytes_eq ..

/-- A device write changes memory alone. -/
theorem devStore_only (s : State) (part va n v : Nat) : ∃ m, devStore s part va n v = { s with mem := m } := by
  unfold devStore
  split
  · exact ⟨_, writeNat_only ..⟩
  · exact ⟨s.mem, rfl⟩

/-- Device writes of words change memory alone. -/
theorem devWriteWs_only : ∀ (w : List W64) (s u : State) (part va : Nat), devWriteWs s part va w = some u → ∃ m, u = { s with mem := m } := by
  intro w
  induction w with
  | nil =>
    intro s u part va h
    cases h
    exact ⟨s.mem, rfl⟩
  | cons v t ih =>
    intro s u part va h
    unfold devWriteWs at h
    split at h
    · next k hk =>
      obtain ⟨m, hm⟩ := ih _ _ _ _ h
      exact ⟨m, by rw [hm, writeNat_only]⟩
    · cases h

/-- A write-back changes memory alone. -/
theorem writeBack_only (s : State) (n : Nat) : ∃ m, writeBack s n = { s with mem := m } := devStore_only ..

/-- A stream's new level changes its entry and memory alone. -/
theorem setLevel_only (s : State) (n l : Nat) : ∃ m st, setLevel s n l = { s with mem := m, streams := st } := by
  unfold setLevel
  obtain ⟨m, hm⟩ := writeBack_only (s.updStream n fun st => { st with
    level := l
    status := if l = 3 ∧ sdClass st.desc = 1 ∧ st.status = 1 then 3 else st.status }) n
  exact ⟨m, _, by rw [hm]; rfl⟩

/-- Shedding changes streams and memory alone (R328). -/
theorem shed_only (thr : Bool) (die : Nat) : ∀ (n : Nat) (s : State), ∃ m st, shed s thr die n = { s with mem := m, streams := st } := by
  intro n
  induction n with
  | zero => exact fun s => ⟨s.mem, s.streams, rfl⟩
  | succ n ih =>
    intro s
    unfold shed
    split
    · exact ⟨s.mem, s.streams, rfl⟩
    · split
      · exact ⟨s.mem, s.streams, rfl⟩
      · next u hu =>
        unfold raiseOne at hu
        split at hu
        · cases hu
        · cases hu
          obtain ⟨m, st, h⟩ := setLevel_only s _ _
          rw [h]
          exact ih _

/-- Shedding a die's load changes streams and memory alone (R328). -/
theorem shedDie_only (s : State) (thr : Bool) (die : Nat) : ∃ m st, shedDie s thr die = { s with mem := m, streams := st } := shed_only ..

/-- A stream's new level changes its level and status alone. -/
theorem setLevel_stream (s : State) (n l k : Nat) : ∃ v x, (setLevel s n l).stream k = { s.stream k with level := v, status := x } := by
  unfold setLevel
  obtain ⟨m, hm⟩ := writeBack_only (s.updStream n fun st => { st with
    level := l
    status := if l = 3 ∧ sdClass st.desc = 1 ∧ st.status = 1 then 3 else st.status }) n
  rw [hm]
  show ∃ v x, (s.setStream n _).stream k = _
  rw [State.stream_setStream]
  split
  · next h => rw [h]; exact ⟨_, _, rfl⟩
  · exact ⟨_, _, rfl⟩

/-- Shedding changes the level and status of streams alone (R328). -/
theorem shed_stream (thr : Bool) (die k : Nat) : ∀ (n : Nat) (s : State), ∃ v x, (shed s thr die n).stream k = { s.stream k with level := v, status := x } := by
  intro n
  induction n with
  | zero => exact fun s => ⟨_, _, rfl⟩
  | succ n ih =>
    intro s
    unfold shed
    split
    · exact ⟨_, _, rfl⟩
    · split
      · exact ⟨_, _, rfl⟩
      · next u hu =>
        unfold raiseOne at hu
        split at hu
        · cases hu
        · cases hu
          obtain ⟨v, x, h⟩ := ih (setLevel s _ _)
          obtain ⟨v', x', h'⟩ := setLevel_stream s _ _ k
          exact ⟨v, x, by rw [h, h']⟩

end Sys2Proof.Machine
end

