-- ==== Sys2Proof/Laws/Cancels.lean ====
section
/-! SUPPORT. What a cancel of a job or of an instance can change: memory, contexts, cores, jobs, saved units, streams, graphs and flows. -/

namespace Sys2Proof.Machine

/-- t is s but for what a cancel can change; a cancelled job stays cancelled, and no job ends or leaves the table. -/
def Cancels (s t : State) : Prop :=
  t = { s with mem := t.mem, ctxs := t.ctxs, cores := t.cores, jobs := t.jobs, saved := t.saved, streams := t.streams, graphs := t.graphs, flows := t.flows } ∧
    ∀ j, ((s.job j).cancelled = true → (t.job j).cancelled = true) ∧ (t.job j).fin = (s.job j).fin ∧ ((∃ p ∈ s.jobs, p.1 = j) → ∃ p ∈ t.jobs, p.1 = j)

theorem Cancels.refl (s : State) : Cancels s s := ⟨rfl, fun _ => ⟨id, rfl, id⟩⟩

theorem Cancels.trans {s t u : State} (h : Cancels s t) (g : Cancels t u) : Cancels s u := by
  obtain ⟨m, x, k, j, v, st, gr, f, e⟩ : ∃ m x k j v st gr f,
    t = { s with mem := m, ctxs := x, cores := k, jobs := j, saved := v, streams := st, graphs := gr, flows := f } := ⟨_, _, _, _, _, _, _, _, h.1⟩
  subst e
  exact ⟨g.1, fun j => ⟨fun c => (g.2 j).1 ((h.2 j).1 c), (g.2 j).2.1.trans (h.2 j).2.1, fun c => (g.2 j).2.2 ((h.2 j).2.2 c)⟩⟩

theorem Cancels.foldl {α : Type} {f : State → α → State} (h : ∀ s a, Cancels s (f s a)) (l : List α) (s : State) : Cancels s (l.foldl f s) := by
  induction l generalizing s with
  | nil => exact .refl s
  | cons a t ih => exact (h s a).trans (ih _)

theorem Cancels.writeNat {s t : State} (h : Cancels s t) (k n v : Nat) : Cancels s (Machine.writeNat t k n v) := by
  rw [writeNat_only]
  exact h.trans ⟨rfl, fun _ => ⟨id, rfl, id⟩⟩

theorem Cancels.devStore {s t : State} (h : Cancels s t) (part va n v : Nat) : Cancels s (Machine.devStore t part va n v) := by
  obtain ⟨m, e⟩ := devStore_only t part va n v
  rw [e]
  exact h.trans ⟨rfl, fun _ => ⟨id, rfl, id⟩⟩

theorem Cancels.writeGroup {s t : State} (h : Cancels s t) (k : Nat) (g : Group) : Cancels s (Machine.writeGroup t k g) := by
  unfold Machine.writeGroup
  exact (((h.writeNat _ _ _).writeNat _ _ _).writeNat _ _ _).writeNat _ _ _

theorem Cancels.setCtx {s t : State} (h : Cancels s t) (c : Nat) (x : Ctx) : Cancels s (t.setCtx c x) := h.trans ⟨rfl, fun _ => ⟨id, rfl, id⟩⟩
theorem Cancels.dropHolds {s t : State} (h : Cancels s t) (c : Nat) : Cancels s (Machine.dropHolds t c) := h.trans ⟨rfl, fun _ => ⟨id, rfl, id⟩⟩
theorem Cancels.setSaved {s t : State} (h : Cancels s t) (v : List SavedUnit) : Cancels s { t with saved := v } := h.trans ⟨rfl, fun _ => ⟨id, rfl, id⟩⟩
theorem Cancels.setGraphs {s t : State} (h : Cancels s t) (v : List (Nat × Graph)) : Cancels s { t with graphs := v } := h.trans ⟨rfl, fun _ => ⟨id, rfl, id⟩⟩
theorem Cancels.setGraph {s t : State} (h : Cancels s t) (i : Nat) (g : Graph) : Cancels s (t.setGraph i g) := h.trans ⟨rfl, fun _ => ⟨id, rfl, id⟩⟩
theorem Cancels.setStream {s t : State} (h : Cancels s t) (i : Nat) (x : Stream) : Cancels s (t.setStream i x) := h.trans ⟨rfl, fun _ => ⟨id, rfl, id⟩⟩
theorem Cancels.updCore {s t : State} (h : Cancels s t) (i : Nat) (f : Core → Core) : Cancels s (t.updCore i f) := h.trans ⟨rfl, fun _ => ⟨id, rfl, id⟩⟩
theorem Cancels.freeSlot {s t : State} (h : Cancels s t) (f n : Nat) : Cancels s (Machine.freeSlot t f n) := h.trans ⟨rfl, fun _ => ⟨id, rfl, id⟩⟩
theorem Cancels.mapWaits {s t : State} (h : Cancels s t) (f : Wait → Wait) : Cancels s (Machine.mapWaits t f) := h.trans ⟨rfl, fun _ => ⟨id, rfl, id⟩⟩

theorem Cancels.releaseEpisode {s t : State} (h : Cancels s t) (k : Nat) : Cancels s (Machine.releaseEpisode t k) := by
  unfold Machine.releaseEpisode
  exact (h.writeGroup k _).mapWaits _

theorem leaveGroup_cancels (s : State) (c : Nat) (m : Member) : Cancels s (leaveGroup s c m) := by
  obtain ⟨u, hu⟩ : ∃ u : State, u = s.updCtx c fun x => { x with groups := x.groups.filter (· != m) } := ⟨_, rfl⟩
  have g : Cancels s u := by rw [hu]; exact ⟨rfl, fun _ => ⟨id, rfl, id⟩⟩
  have f : ∀ (p : Prop) [Decidable p] (o : Group), Cancels s (if p then releaseEpisode (writeGroup u m.obj o) m.obj else writeGroup u m.obj o) :=
    fun p _ o => by
      split
      · exact (g.writeGroup _ _).releaseEpisode _
      · exact g.writeGroup _ _
  simp only [leaveGroup, ← hu]
  split
  · exact g
  · exact f _ _

theorem leaveAll_cancels (s : State) (c : Nat) : Cancels s (leaveAll s c) := .foldl (fun s m => leaveGroup_cancels s c m) _ s

theorem unbindPort_cancels (s : State) (c : Nat) (p : Fin 8) : Cancels s (unbindPort s c p) := by
  unfold unbindPort
  split
  · exact .refl s
  · exact (Cancels.writeNat (.refl s) _ _ _).trans ⟨rfl, fun _ => ⟨id, rfl, id⟩⟩

theorem unbindAll_cancels (s : State) (c : Nat) : Cancels s (unbindAll s c) := .foldl (fun s p => unbindPort_cancels s c p) _ s

theorem leaveSaved_cancels (s : State) (sv : SavedUnit) : Cancels s (leaveSaved s sv) := by
  refine .foldl (fun s p => ?_) _ s
  have h : Cancels s (unbindAll (leaveAll (s.setCtx (8 * sv.core + p.1) p.2) (8 * sv.core + p.1)) (8 * sv.core + p.1)) :=
    ((Cancels.refl s).setCtx _ _).trans ((leaveAll_cancels _ _).trans (unbindAll_cancels _ _))
  exact (h.setCtx (8 * sv.core + p.1) (s.ctx (8 * sv.core + p.1))).dropHolds (savedName sv.handle p.1)

theorem dropSaved_cancels (s : State) (j : Nat) : Cancels s (dropSaved s j) := by
  unfold dropSaved
  exact (Cancels.foldl leaveSaved_cancels (s.saved.filter fun v => v.unit.job == j) s).setSaved _

theorem freeRing_cancels (s : State) (a : Arrival) : Cancels s (freeRing s a) := by
  unfold freeRing
  split <;> exact ⟨rfl, fun _ => ⟨id, rfl, id⟩⟩

theorem discardJob_cancels (s : State) (j : Nat) : Cancels s (discardJob s j) := by
  refine .foldl (fun s p => ?_) _ s
  have h : Cancels s (((s.core p.1).arrivals.filter fun a => a.job == j).foldl freeRing s) := .foldl freeRing_cancels _ s
  exact (h.updCore p.1 _).updCore p.1 _

theorem mapGet_mapped {α : Type} (d : α) (f : Nat → α → α) (j : Nat) (m : List (Nat × α)) (h : ∃ p ∈ m, p.1 = j) :
    mapGet d (m.map fun p => (p.1, f p.1 p.2)) j = f j (mapGet d m j) := by
  induction m with
  | nil => simp at h
  | cons p t ih =>
    obtain ⟨k, v⟩ := p
    by_cases e : j = k
    · subst e; simp [mapGet]
    · have : ∃ p ∈ t, p.1 = j := by
        obtain ⟨p, hp, hj⟩ := h
        rcases List.mem_cons.mp hp with x | x
        · subst x; exact absurd hj.symm e
        · exact ⟨p, x, hj⟩
      simpa [mapGet, e] using ih this

/-- What a cancel does first: the live jobs of the lineage are cancelled (R59). -/
theorem markCancelled (s : State) (hit : List Nat) (u : State)
    (hu : u = { s with jobs := s.jobs.map fun p => (p.1, if hit.contains p.1 then { p.2 with cancelled := true, rem := 0, returned := [] } else p.2) }) :
    Cancels s u ∧ ∀ j ∈ hit, (∃ p ∈ s.jobs, p.1 = j) → (u.job j).cancelled = true := by
  have hj : ∀ j, (∃ p ∈ s.jobs, p.1 = j) → u.job j = if hit.contains j then { s.job j with cancelled := true, rem := 0, returned := [] } else s.job j :=
    fun j h => by
      rw [hu]
      exact mapGet_mapped {} (fun i x => if hit.contains i then { x with cancelled := true, rem := 0, returned := [] } else x) j s.jobs h
  have hk : ∀ j, (∃ p ∈ u.jobs, p.1 = j) ↔ ∃ p ∈ s.jobs, p.1 = j := fun j => by
    rw [hu]
    simp
  refine ⟨⟨by rw [hu], fun j => ?_⟩, fun j hm h => ?_⟩
  · by_cases h : ∃ p ∈ s.jobs, p.1 = j
    · rw [hj j h]
      refine ⟨fun c => ?_, ?_, (hk j).mpr⟩
      · split
        · rfl
        · exact c
      · split <;> rfl
    · have e1 : s.job j = {} := mapGet_unlisted _ _ _ fun p hp e => h ⟨p, hp, e⟩
      have e2 : u.job j = {} := mapGet_unlisted _ _ _ fun p hp e => h ((hk j).mp ⟨p, hp, e⟩)
      rw [e1, e2]
      exact ⟨id, rfl, (hk j).mpr⟩
  · rw [hj j h, if_pos (by simpa using hm)]

/-- What a cancel of a job can change, and that it cancels the job where that is live (R59, R420). -/
theorem cancelJob_spec (s : State) (j : Nat) : Cancels s (cancelJob s j) ∧
    (j ≠ 0 → (∃ p ∈ s.jobs, p.1 = j) → (s.job j).fin = 0 → ((cancelJob s j).job j).cancelled = true) := by
  obtain ⟨hit, hh⟩ : ∃ hit, hit = (s.jobs.map (·.1)).filter fun i => inLineage s j i && (s.job i).fin == 0 := ⟨_, rfl⟩
  obtain ⟨u, hu⟩ : ∃ u : State, u = { s with jobs := s.jobs.map fun p => (p.1, if hit.contains p.1 then { p.2 with cancelled := true, rem := 0, returned := [] } else p.2) } :=
    ⟨_, rfl⟩
  have e : cancelJob s j = hit.foldl (fun s i => discardJob (dropSaved s i) i) u := by
    rw [hu, hh]
    rfl
  have h := markCancelled s hit u hu
  have g : Cancels u (cancelJob s j) := by
    rw [e]
    exact .foldl (fun s i => (dropSaved_cancels s i).trans (discardJob_cancels _ i)) _ _
  refine ⟨h.1.trans g, fun h0 hl hf => (g.2 j).1 (h.2 j ?_ hl)⟩
  rw [hh]
  obtain ⟨p, hp, rfl⟩ := hl
  simp only [List.mem_filter, List.mem_map, Bool.and_eq_true, beq_iff_eq]
  exact ⟨⟨p, hp, rfl⟩, by simp [inLineage, descends, h0], hf⟩

/-- What a cancel of a job can change (R59, R420). -/
theorem cancelJob_cancels (s : State) (j : Nat) : Cancels s (cancelJob s j) := (cancelJob_spec s j).1

theorem stampCard_cancels (s : State) (g : Graph) (n i : Nat) : Cancels s (stampCard s g n i) := by
  unfold stampCard
  simp only
  split
  · exact ((((Cancels.refl s).devStore _ _ _ _).devStore _ _ _ _).devStore _ _ _ _).devStore _ _ _ _
  · exact .refl s

theorem patchCards_cancels (s : State) (g : Graph) (ok : Nat → Bool) : Cancels s (patchCards s g ok) := by
  have h : Cancels s (patchAll s g ok) := by
    refine .foldl (fun s a => ?_) _ s
    simp only
    split
    · exact (Cancels.refl s).devStore _ _ _ _
    · exact .refl s
  unfold patchCards
  simp only
  split
  · exact h
  · exact h.trans (.foldl (fun s i => stampCard_cancels s g _ i) _ _)

theorem startInstance_cancels (s : State) (id : Nat) (o : Option Nat) (p : Nat) (st : Option Nat) : Cancels s (startInstance s id o p st) := by
  unfold startInstance
  exact ((Cancels.refl s).setGraph id _).trans (patchCards_cancels _ _ _)

theorem freeSlots_cancels (s : State) (l : List (Nat × Nat)) : Cancels s (freeSlots s l) :=
  .foldl (fun s (p : Nat × Nat) => (Cancels.refl s).freeSlot p.1 p.2) _ s

theorem dropStream_cancels (s : State) (n : Nat) : Cancels s (dropStream s n) := (freeSlots_cancels s _).setStream n {}

theorem endStream_cancels (s : State) (n : Nat) : Cancels s (endStream s n) := by
  unfold endStream
  simp only
  split
  · exact dropStream_cancels s n
  · exact (freeSlots_cancels s _).setStream n _

/-- What the end of an instance can change (R330). -/
theorem endInstance_cancels (s : State) (id : Nat) : Cancels s (endInstance s id) := by
  unfold endInstance
  extract_lets g s1 s2
  have h1 : Cancels s s1 := ⟨rfl, fun _ => ⟨fun h => h, rfl, fun h => h⟩⟩
  have h2 : Cancels s s2 := by
    show Cancels s (match g.stream with
      | some n => endStream s1 n
      | none => s1)
    split
    · exact h1.trans (endStream_cancels _ _)
    · exact h1
  clear_value s1 s2
  split
  · exact h2.trans (startInstance_cancels _ _ _ _ _)
  · exact h2

/-- What a cancel of an instance can change (R330). -/
theorem cancelInstance_cancels (s : State) (id : Nat) : Cancels s (cancelInstance s id) :=
  (Cancels.foldl (fun s (p : Nat × Nat) => cancelJob_cancels s p.2) _ s).trans (endInstance_cancels _ _)

/-- What the destruction of a queue cancels (R484). -/
theorem cancelQueue_cancels (s : State) (k : Nat) : Cancels s (cancelQueue s k) := by
  unfold cancelQueue
  exact ((Cancels.foldl cancelJob_cancels _ s).setGraphs _).trans (Cancels.foldl (fun s (p : Nat × Graph) => cancelInstance_cancels s p.1) _ _)

end Sys2Proof.Machine
end

