-- ==== Sys2Proof/Laws/Preempt.lean ====
section
/-! SUPPORT. Laws of saving a unit and of what touches the contexts of one. -/

namespace Sys2Proof.Machine

/-- Page requests alone change where their waiters take other names. -/
theorem reqs_fold (f : Cmd × Nat → Nat × Nat) (g : Cmd × Nat → Nat × Nat) : ∀ (l : List (Cmd × Nat)) (s : State), ∃ r,
    l.foldl (fun (s : State) x => renameWaiter s (f x) (g x)) s = { s with reqs := r } := by
  intro l
  induction l with
  | nil => exact fun s => ⟨s.reqs, rfl⟩
  | cons a t ih =>
    intro s
    obtain ⟨r, hr⟩ := ih (renameWaiter s (f a) (g a))
    exact ⟨r, by rw [List.foldl_cons, hr]; rfl⟩

/-- What leaves a core with a unit changes neither the saved units nor the next handle. -/
theorem vacateCtxs_keeps (s : State) (core h : Nat) (cs : List Nat) :
    (vacateCtxs s core h cs).saved = s.saved ∧ (vacateCtxs s core h cs).nextHandle = s.nextHandle := by
  refine ⟨?_, ?_⟩
  · refine (foldl_keeps State.saved (fun s c => renameBank s c (savedName h (c % 8))) (fun _ _ => rfl) cs _).trans ?_
    refine (foldl_keeps State.saved (fun s c => dropHolds (renameHolder s c (savedName h (c % 8))) c) (fun _ _ => rfl) cs _).trans ?_
    exact foldl_keeps State.saved (fun s c => s.setCtx c { region := (s.ctx c).region + 1 }) (fun _ _ => rfl) cs _
  · refine (foldl_keeps State.nextHandle (fun s c => renameBank s c (savedName h (c % 8))) (fun _ _ => rfl) cs _).trans ?_
    refine (foldl_keeps State.nextHandle (fun s c => dropHolds (renameHolder s c (savedName h (c % 8))) c) (fun _ _ => rfl) cs _).trans ?_
    exact foldl_keeps State.nextHandle (fun s c => s.setCtx c { region := (s.ctx c).region + 1 }) (fun _ _ => rfl) cs _

/-- The lane of a unit that leaves its core is free. -/
theorem vacateCore_units (k : Core) (lane : Nat) (u : UnitSt) (cs : List Nat) : (vacateCore k lane u cs).units = k.units.set! lane none := by
  unfold vacateCore
  simp only
  rw [foldl_keeps Core.units drainQ (fun k q => by unfold drainQ; rfl)]

/-- A save (R47, R48, R174): the lane is free, and the unit is kept under the next handle, with its contexts' registers. -/
theorem saveUnit_spec (s : State) (core lane : Nat) (u : UnitSt) (forced sus : Bool) (hl : lane < 3) :
    (saveUnit s core lane u forced sus).2 = s.nextHandle ∧ (saveUnit s core lane u forced sus).1.nextHandle = s.nextHandle + 1 ∧
    ((saveUnit s core lane u forced sus).1.core core).units.toList.getD lane none = none ∧
    ∃ t cmds, t = { s with reqs := t.reqs } ∧
      (saveUnit s core lane u forced sus).1.saved = s.saved ++ [savedOf t core lane u forced sus cmds] := by
  obtain ⟨cmds, hc⟩ : ∃ l, l = ((s.core core).qs.toList.flatMap id).filter fun c => (unitCtxs core lane u).contains c.ctx && c.phase != .finished := ⟨_, rfl⟩
  obtain ⟨r, hr⟩ := reqs_fold (fun x => cmdWaiter core x.1) (fun x => (2 ^ 20 + s.nextHandle, x.2)) cmds.zipIdx s
  obtain ⟨t, ht⟩ : ∃ t : State, t = { s with reqs := r } := ⟨_, rfl⟩
  rw [← ht] at hr
  obtain ⟨w, hw⟩ : ∃ w, w = charge (keepSaved t (savedOf t core lane u forced sus cmds)) (core / 128) (t.job u.job).fn := ⟨_, rfl⟩
  have he : saveUnit s core lane u forced sus =
      ((vacateCtxs w core s.nextHandle (unitCtxs core lane u)).updCore core fun k => vacateCore k lane u (unitCtxs core lane u), s.nextHandle) := by
    unfold saveUnit
    simp only
    rw [← hc, hr, hw]
  rw [he]
  have hk := vacateCtxs_keeps w core s.nextHandle (unitCtxs core lane u)
  have th : t.nextHandle = s.nextHandle := by rw [ht]
  have ts : t.saved = s.saved := by rw [ht]
  refine ⟨rfl, ?_, ?_, t, cmds, by rw [ht], ?_⟩
  · unfold State.updCore
    rw [State.setCore_nextHandle, hk.2, hw]
    unfold charge State.updDie
    rw [State.setDie_nextHandle]
    unfold keepSaved
    rw [th]
  · unfold State.updCore
    rw [State.core_setCore_same, vacateCore_units]
    show (Vector.toList _).getD lane none = none
    rw [List.getD_eq_getElem _ _ (by simpa using hl)]; simp
  · unfold State.updCore
    rw [State.setCore_saved, hk.1, hw]
    unfold charge State.updDie
    rw [State.setDie_saved]
    unfold keepSaved
    rw [ts]

/-- A unit stands in a lane of a core (R28). -/
theorem unitOf_lane {s : State} {c lane : Nat} {u : UnitSt} (h : unitOf s c = some (lane, u)) : lane < 3 := by
  unfold unitOf at h
  simp only at h
  split at h
  · next v hv =>
    split at h
    · cases h
    · next hh =>
      cases h
      by_contra hc
      rw [List.getD_eq_default _ _ (by simpa using hc)] at hv
      cases hv
  · split at h
    · split at h
      · cases h; omega
      · cases h
    · cases h

/-- A change of those contexts of a list that pass a test. -/
theorem foldRun_spec (p : Ctx → Bool) (g : Ctx → Ctx) : ∀ (l : List Nat) (s : State), l.Nodup → ∃ x,
    l.foldl (fun s c => if p (s.ctx c) then s.updCtx c g else s) s = { s with ctxs := x } ∧
    ∀ c, (l.foldl (fun s c => if p (s.ctx c) then s.updCtx c g else s) s).ctx c = if c ∈ l ∧ p (s.ctx c) = true then g (s.ctx c) else s.ctx c := by
  intro l
  induction l with
  | nil => exact fun s _ => ⟨s.ctxs, rfl, fun c => by simp⟩
  | cons a t ih =>
    intro s hn
    rw [List.foldl_cons]
    have hat := (List.nodup_cons.mp hn).1
    obtain ⟨x, h1, h2⟩ := ih (if p (s.ctx a) then s.updCtx a g else s) (List.nodup_cons.mp hn).2
    refine ⟨x, ?_, fun c => ?_⟩
    · rw [h1]
      split <;> rfl
    · rw [h2]
      by_cases hp : p (s.ctx a) = true
      · rw [if_pos hp]
        unfold State.updCtx
        rw [State.ctx_setCtx]
        by_cases hc : c = a
        · subst hc
          rw [if_neg (fun e => hat e.1), if_pos rfl, if_pos ⟨by simp, hp⟩]
        · rw [if_neg hc]
          simp [hc]
      · rw [if_neg hp]
        by_cases hc : c = a
        · subst hc
          rw [if_neg (fun e => hat e.1), if_neg (fun e => hp e.2)]
        · simp [hc]

end Sys2Proof.Machine
end

