-- ==== Sys2Proof/Laws/Scalar.lean ====
section
/-! SUPPORT. Laws of the shapes of scalar instructions: what each shape does where its operands stand ready. -/

namespace Sys2Proof.Machine

theorem scalar2_ready {r : RArgs} {s : State} (f : W64 → W64 → W64) (ha : Reads s r.a) (hb : Reads2 s r.op2)
    (hd : Writes s r.d) : scalar2 r f s = .ok ((), s.put r.d (f (s.val r.a) (s.val2 r.op2))) := by
  unfold scalar2
  rw [M.bind_readOps ha hb]
  exact writeReg_ready _ hd

theorem scalar3_ready {r : RArgs} {s : State} (f : W64 → W64 → W64 → W64) (ha : Reads s r.a) (hb : Reads2 s r.op2)
    (hr : Reads s r.d) (hd : Writes s r.d) :
    scalar3 r f s = .ok ((), s.put r.d (f (s.val r.a) (s.val2 r.op2) (s.val r.d))) := by
  unfold scalar3
  rw [M.bind_readOps ha hb]
  show (readReg r.d false >>= _) s = _
  rw [M.bind_readReg _ hr]
  exact writeReg_ready _ hd

theorem scalar1_ready {u : UArgs} {s : State} (f : W64 → W64) (ha : Reads s u.a) (hd : Writes s u.d) :
    scalar1 u f s = .ok ((), s.put u.d (f (s.val u.a))) := by
  unfold scalar1
  rw [M.bind_readReg _ ha]
  exact writeReg_ready _ hd

/-- The sign extension of a number is that of its bits. -/
theorem sx_eq_toInt {w : Nat} (v : BitVec w) : sx w v.toNat = v.toInt := by
  cases w with
  | zero => rw [BitVec.eq_nil v]; rfl
  | succ w =>
    have hlt := v.isLt
    rw [BitVec.toInt_eq_toNat_cond]
    have h1 : ((v.toNat : Int) % 2 ^ (w + 1)) = v.toNat := Int.emod_eq_of_lt (by omega) (by exact_mod_cast hlt)
    unfold sx
    rw [Nat.mod_eq_of_lt hlt, h1, Nat.add_sub_cancel]
    rw [pow_succ] at hlt ⊢
    push_cast
    split <;> split <;> first | rfl | omega

end Sys2Proof.Machine
end

