-- ==== Sys2Proof/Laws/Words.lean ====
section
/-! SUPPORT. Laws of memory read and written as words. -/

namespace Sys2Proof.Machine

theorem bytesToNat_append (a b : List Byte) : bytesToNat (a ++ b) = bytesToNat a + 256 ^ a.length * bytesToNat b := by
  induction a with
  | nil => simp [bytesToNat]
  | cons x t ih =>
    simp only [List.cons_append, bytesToNat, ih, List.length_cons, Nat.pow_succ]
    ring

theorem bytesToNat_lt (l : List Byte) : bytesToNat l < 256 ^ l.length := by
  induction l with
  | nil => simp [bytesToNat]
  | cons x t ih =>
    have := x.isLt
    simp only [bytesToNat, List.length_cons, Nat.pow_succ]
    omega

@[simp] theorem readBytes_length (s : State) (k n : Nat) : (readBytes s k n).length = n := by
  induction n generalizing k with
  | zero => rfl
  | succ n ih => simp [readBytes, ih]

theorem readBytes_add (s : State) (k a b : Nat) : readBytes s k (a + b) = readBytes s k a ++ readBytes s (k + a) b := by
  induction a generalizing k with
  | zero => simp [readBytes]
  | succ a ih =>
    rw [Nat.succ_add]
    simp only [readBytes, ih, List.cons_append]
    rw [Nat.succ_add_eq_add_succ]

theorem readNat_add (s : State) (k a b : Nat) : readNat s k (a + b) = readNat s k a + 256 ^ a * readNat s (k + a) b := by
  unfold readNat
  rw [readBytes_add, bytesToNat_append, readBytes_length]

theorem readNat_lt (s : State) (k n : Nat) : readNat s k n < 256 ^ n := by
  have := bytesToNat_lt (readBytes s k n)
  rwa [readBytes_length] at this

/-- The words above the lowest. -/
theorem drop_word (a b i : Nat) (h : a < 2 ^ 64) : (a + 2 ^ 64 * b) / 2 ^ (64 * (i + 1)) = b / 2 ^ (64 * i) := by
  rw [show 64 * (i + 1) = 64 + 64 * i by ring, pow_add, ← Nat.div_div_eq_div_mul, Nat.add_mul_div_left _ _ (by norm_num),
    Nat.div_eq_of_lt h, Nat.zero_add]

/-- The words of a long little-endian value are the words of memory. -/
theorem words_readNat (s : State) (k m : Nat) :
    ((List.range m).map fun i => w64 (readNat s k (8 * m) / 2 ^ (64 * i))) = readWs s k m := by
  induction m generalizing k with
  | zero => rfl
  | succ m ih =>
    rw [List.range_succ_eq_map, List.map_cons, List.map_map, readWs, ← ih (k + 8)]
    have e : readNat s k (8 * (m + 1)) = readNat s k 8 + 2 ^ 64 * readNat s (k + 8) (8 * m) := by
      rw [show 8 * (m + 1) = 8 + 8 * m by ring, readNat_add]
      norm_num
    have hlt : readNat s k 8 < 2 ^ 64 := by
      have := readNat_lt s k 8
      norm_num at this ⊢
      exact this
    rw [e]
    refine congrArg₂ List.cons ?_ ?_
    · unfold readW w64
      apply BitVec.eq_of_toNat_eq
      simp only [BitVec.toNat_ofNat, Nat.mul_zero, pow_zero, Nat.div_one]
      rw [Nat.add_mul_mod_self_left]
    · apply List.map_congr_left
      intro i _
      simp only [Function.comp, Nat.succ_eq_add_one]
      rw [drop_word _ _ _ hlt]

/-- A part of what was written reads back. -/
theorem readNat_writeNat_inside (s : State) (k n v i m : Nat) (h : i + m ≤ n) :
    readNat (writeNat s k n v) (k + i) m = v / 256 ^ i % 256 ^ m := by
  obtain ⟨r, rfl⟩ : ∃ r, n = i + (m + r) := ⟨n - (i + m), by omega⟩
  have h1 := readNat_writeNat s k (i + (m + r)) v
  have h2 := readNat_lt (writeNat s k (i + (m + r)) v) k i
  have h3 := readNat_lt (writeNat s k (i + (m + r)) v) (k + i) m
  rw [readNat_add, readNat_add] at h1
  have e := congrArg (fun x => x / 256 ^ i % 256 ^ m) h1
  rw [Nat.add_mul_div_left _ _ (Nat.pow_pos (by norm_num)), Nat.div_eq_of_lt h2, Nat.zero_add, Nat.add_mul_mod_self_left,
    Nat.mod_eq_of_lt h3] at e
  rw [e, pow_add, pow_add, Nat.mod_mul_right_div_self, Nat.mod_mod_of_dvd _ (Dvd.intro _ rfl)]

theorem readW_writeNat_inside (s : State) (k n v i : Nat) (h : i + 8 ≤ n) :
    readW (writeNat s k n v) (k + i) = w64 (v / 256 ^ i) := by
  unfold readW w64
  rw [readNat_writeNat_inside _ _ _ _ _ _ h]
  apply BitVec.eq_of_toNat_eq
  simp only [BitVec.toNat_ofNat]
  norm_num

theorem readWs_length (s : State) (k n : Nat) : (readWs s k n).length = n := by
  induction n generalizing k with
  | zero => rfl
  | succ n ih => simp [readWs, ih]

theorem readWs_of_mem {s t : State} (h : t.mem = s.mem) (k n : Nat) : readWs t k n = readWs s k n := by
  rw [← words_readNat, ← words_readNat]
  unfold readNat
  rw [readBytes_congr s t k (8 * n) fun j _ _ => readByte_of_mem h j]

/-- Words written as one value read back as the words. -/
theorem readWs_writeNat (s : State) (k : Nat) (l : List W64) : readWs (writeNat s k (8 * l.length) (wordsNat l)) k l.length = l := by
  rw [← words_readNat, readNat_writeNat]
  have hw : ∀ l : List W64, wordsNat l < 256 ^ (8 * l.length) := by
    intro l
    induction l with
    | nil => simp [wordsNat]
    | cons x t ih =>
      have := x.isLt
      have e : (256 : Nat) ^ (8 * (t.length + 1)) = 2 ^ 64 * 256 ^ (8 * t.length) := by
        rw [show 8 * (t.length + 1) = 8 + 8 * t.length by ring, pow_add]; norm_num
      simp only [wordsNat, List.length_cons, e]
      omega
  rw [Nat.mod_eq_of_lt (hw l)]
  clear hw
  induction l with
  | nil => rfl
  | cons x t ih =>
    rw [List.length_cons, List.range_succ_eq_map, List.map_cons, List.map_map]
    congr 1
    · apply BitVec.eq_of_toNat_eq
      have := x.isLt
      simpa [wordsNat, w64] using this
    · rw [← ih]
      simp only [List.length_map, List.length_range]
      apply List.map_congr_left
      intro i _
      simp only [Function.comp, Nat.succ_eq_add_one, wordsNat]
      rw [ih]
      rw [drop_word _ _ _ x.isLt]

end Sys2Proof.Machine
end

