-- ==== Sys2Proof/Tests/Slice0.lean ====
section
/-! SUPPORT. Tests: an ill-formed term for each check of `Instr.wf`, words written out from the spec's encodings, single steps on small
states whose results the spec states, and for every statement with hypotheses concrete states and operands that meet them. -/

namespace Sys2Proof.Tests

open Sys2Proof Sys2Proof.Machine

set_option Elab.async false

/-! ### An ill-formed term for each check -/

/-- E-format fields from registers and fn alone. -/
def ef (a b c : Reg) (fn : BitVec 16) : EArgs := ⟨false, false, false, false, false, false, a, b, c, fn⟩

/-- V-format fields from type, variant and rounding mode. -/
def vf (ty var : BitVec 4) (rnd : BitVec 2) : VArgs := ⟨4, 5, 6, 7, ty, var, rnd, 0, 0⟩

/-- V-format fields of a one-source form. -/
def vu (ty var : BitVec 4) (rnd : BitVec 2) : VArgs := { vf ty var rnd with b := 0 }

theorem test_wf_refuses_scalar : ∀ i ∈ [Instr.bfx true ⟨1, 2, false, 60, 4⟩, .bfi ⟨1, 2, false, 1, 63⟩, .cmp 6 ⟨1, 2, false, .imm 0⟩,
    .br ⟨5, 1, false, 1, 0⟩, .srr 1 0x005, .srr 1 0x07F, .srw ⟨1, false⟩ 0x008, .srw ⟨1, false⟩ 0x038,
    .arrivalRegisterWrite ⟨1, false⟩ 5, .lview 47 0 ⟨1, false⟩, .lview 63 0 ⟨1, false⟩, .lview 48 63 ⟨1, false⟩,
    .tlbiS1pg ⟨1, ⟨1, false⟩, ⟨2, false⟩⟩, .tlbiS1all ⟨5, ⟨1, false⟩, ⟨2, false⟩⟩, .tlbiS2pg ⟨0, ⟨1, false⟩, ⟨2, false⟩⟩,
    .tlbiPart ⟨1, ⟨1, false⟩, ⟨2, false⟩⟩, .tlbiAll ⟨5, ⟨1, false⟩, ⟨2, false⟩⟩, .pacq 0], i.wf = false := by decide

theorem test_wf_refuses_memory : ∀ i ∈ [Instr.ldf ⟨1, 2, false, true, .off 0⟩, .ldpk ⟨1, 2, false, true, .off 0⟩,
    .amoAdd ⟨1, 2, false, false, none, true, 0, 7⟩, .amoSwap ⟨1, 2, false, false, none, true, 0, 6⟩,
    .amoCas ⟨63, 2, false, false, none, true, 0, 0⟩, .amoAddb ⟨63, 2, false, false, none, true, 0, 0⟩,
    .amoFadd ⟨1, 2, false, false, none, true, 0, 0⟩, .amoSadd ⟨1, 2, false, false, none, true, 0, 0⟩, .fence 0 0, .fence 1 6,
    .tlwait ⟨6, 0, true, ⟨1, false⟩, ⟨2, false⟩⟩, .tlwait ⟨0, 6, true, ⟨1, false⟩, ⟨2, false⟩⟩, .tlwait ⟨0, 0, false, ⟨1, false⟩, ⟨2, false⟩⟩,
    .tlread 6 1 true ⟨2, false⟩, .tlread 0 1 false ⟨0, true⟩, .tlmark 6 1], i.wf = false := by decide

theorem test_wf_refuses_matrix : ∀ i ∈ [Instr.mcfg (ef 1 0 0 0), .mcfg { ef 1 0 0 1 with arv := true }, .mcfg (ef 1 0 0 0x400),
    .mcfgr (ef 1 0 0 46), .mcfgr (ef 1 1 0 0), .mgo (ef 1 0 0 0), .mgo (ef 0 0 8 0), .mma (ef 0 0 8 0), .mma (ef 0 0 0 0x00C0), .mma (ef 0 0 0 0x0300),
    .mma (ef 0 0 0 0x0200), .mma (ef 0 0 0 0x0040), .mma (ef 63 0 0 0x8000), .mma (ef 0 63 0 0x2000), .mma (ef 8 0 0 0), .mma (ef 0 0 0 0xC000),
    .mma (ef 0 0 0 0x3000), .mma { ef 0 0 0 0 with rel := true }, .acz (ef 0 0 8 0), .acz (ef 0 0 0 1), .acmvSt (ef 1 0 0 1), .acmvLd (ef 1 0 0 0),
    .zld (ef 63 0 0 0), .zld (ef 1 0 0 0x200), .zst (ef 1 1 0 0), .zclrE (ef 0 0 0 1), .zclrZ (ef 0 0 0 0), .rrotUp (ef 1 2 1 0), .rrotDn (ef 1 2 0 0),
    .mtab (ef 63 0 0 0), .mtab { ef 1 0 0 0 with rel := true }], i.wf = false := by decide

theorem test_wf_refuses_vector : ∀ i ∈ [Instr.vadd (vf 10 0 0), .vsub (vf 6 1 0), .vmul (vf 8 0 0), .vfma (vf 0 0 1), .vdiv (vf 0 0 0), .vdiv (vf 6 1 0),
    .vsqrt (vu 6 2 0), .vrsqrt (vf 6 0 0), .vmin (vf 0 1 0), .vmax (vf 7 0 1), .vabs (vu 3 0 0), .vneg (vu 6 1 0), .vand (vf 6 0 0), .vor (vf 0 1 0),
    .vxor (vf 0 0 1), .vshl (vf 7 0 0), .vshr (vf 8 0 0), .vsra (vf 9 0 0), .vcmp (vf 0 6 0), .vcmp (vf 10 0 0), .vsel (vf 0 0 0), .vcvt (vu 0 0 0),
    .vcvt (vu 0 10 0), .vcvt (vu 0 1 1), .vsadd (vf 7 0 0), .vssub (vf 8 1 0), .vsmul (vf 8 0 1), .vsdiv (vf 0 0 0), .vsexp (vu 7 0 0), .vslog (vf 8 0 0),
    .vred (vu 8 0 0), .vscan (vu 6 8 0), .vred (vu 0 3 0), .vperm (vf 0 1 0), .vshuf (vf 0 5 0), .vbcast (vf 10 0 0), .vepi (vf 0 0 0), .vfn (vu 6 8 0),
    .vfn (vu 0 0 0), .vtab ⟨0, 5, 0, 0, 1, 0, 0, 0, 0⟩, .vtab ⟨0, 5, 0, 0, 0, 8, 0, 0, 0⟩, .vfill (vf 0 0 0), .vmov (vu 0 1 0), .vlds (vf 0 0 0),
    .vsts ⟨4, 5, 6, 0, 0, 0, 1, 0, 0⟩], i.wf = false := by decide

theorem test_wf_refuses_copy_and_generation : ∀ i ∈ [Instr.cpin (ef 1 1 0 0), .cpin (ef 1 0 0 1), .cpin (ef 1 0 0 0xA000), .cpout { ef 1 0 0 0 with rel := true },
    .cpx (ef 1 2 0 0x200), .cgather (ef 1 2 0 0x600), .cscatter (ef 1 2 1 0), .cfill (ef 1 2 0 0x100), .cmirror (ef 1 2 1 0), .cred (ef 1 0 0 0x300),
    .cmsg (ef 1 2 3 1), .cpref (ef 1 1 0 0), .ctrOpen (ef 1 2 1 0), .ctrTrim { ef 1 2 0 0 with ui := true }, .smpRun (ef 1 2 0 1), .smpAccept (ef 1 2 0 0xA000),
    .ctrClose (ef 1 1 0 0), .kvtDrop (ef 1 0 1 0), .ctrAppend { ef 1 2 3 0 with rel := true }, .ctrProp (ef 1 2 3 1), .ctrSave (ef 1 2 3 0x1000),
    .ctrLoad { ef 1 2 3 0 with dn := true }, .kvtOpen (ef 1 2 3 0xC000), .kvtCommit { ef 1 2 3 0 with uo := true }], i.wf = false := by decide

theorem test_wf_refuses_steps : ∀ i ∈ [Instr.remoteValueArrival 6 0, .remoteValueArrival 0 64, .taggedWaitServed 4096, .pacqGrant 7, .sendLanding 512,
    .mxCommandComplete 512 0, .copyCommandStart 512 false, .startTokenRefill 4, .mgoRelocation 0 0, .mgoRelocation 0 8, .rrotCollectiveStart 64,
    .unitDispatch 0 3, .recordDeposit 512 0, .unitResumption 1 0 3, .preemptionRequest 6 1, .doorbell 33 0, .doorbell 1 16, .launchPacket 0 17,
    .streamTimerRelease 8192, .graphNodeSubmit 4096 0, .graphNodeSubmit 0 256, .graphInstanceComplete 4096, .flowWrite 33, .portDown 4,
    .pageRequestWrite 0, .pageReplyRead 33, .pageRequestTimeout 0 0], i.wf = false := by decide

/-! ### Words written out from the encodings (R115, R120, R123 to R132) -/

theorem test_decode_scalar :
    decodeTableWord 48 0x011860080008 = some (.add ⟨6, 6, false, .imm 8⟩) ∧
    decodeTableWord 48 0x051482400000 = some (.div false ⟨5, 8, false, .reg 9 false⟩) ∧
    decodeTableWord 48 0x1B1000000005 = some (.movi 4 (.narrow 5)) ∧
    decodeTableWord 48 0x34003FFFFFFF = some (.loop false (-1)) ∧
    decodeTableWord 48 0x3A0000000001 = some (.trap 1) ∧
    decodeTableWord 48 0x715030000002 = some (.lget 20 3 2) ∧
    decodeTableWord 48 0x78000000000C = some (.pacq 12) ∧ decodeTableWord 48 0x790000000000 = some .prel ∧
    decodeTableWord 48 0x7A0000000003 = some (.pvote 3) ∧ decodeTableWord 48 0x7B0000000005 = some (.aprof 5) := by decide

theorem test_decode_memory :
    decodeTableWord 48 0x421890C80000 = some (.ldg false 6 ⟨9, false⟩ 3) ∧
    decodeTableWord 48 0x411CA0030004 = some (.stl 3 ⟨7, false⟩ ⟨10, false⟩ 4) ∧
    decodeTableWord 48 0x59209001000F = some (.amoAddb ⟨8, 9, false, false, none, true, 3, 3⟩) ∧
    decodeTableWord 48 0x600002000004 = some (.fence 2 4) ∧
    decodeTableWord 48 0x670050000000 = some (.bar ⟨5, false, none⟩) := by decide

theorem test_decode_engines :
    decodeTableWord 48 0x8600A0000005 = some (.zld (ef 10 0 0 5)) ∧
    decodeTableWord 48 0xBC1461C82009 = some (.vperm ⟨5, 6, 7, 8, 2, 0, 0, 9, 0⟩) ∧
    decodeTableWord 48 0xB630D38F9210 = some (.vsmul ⟨12, 13, 14, 15, 9, 2, 0, 16, 0⟩) ∧
    decodeTableWord 48 0xBA28B00C7000 = some (.vred ⟨10, 11, 0, 12, 7, 0, 0, 0, 0⟩) ∧
    decodeTableWord 48 0xD30012400000 = some (.cgather (ef 1 9 0 0)) ∧
    decodeTableWord 48 0xEA0041466000 = some (.kvtCommit (ef 4 5 6 0x6000)) ∧
    decodeTableWord 48 0xEC1C00010000 = some (.gpgetCm 7 0) ∧
    decodeTableWord 48 0xED1051800003 = some (.gpset 4 ⟨5, false⟩ ⟨6, false⟩ 3) := by decide

theorem test_decode_refuses :
    decodeTableWord 48 0 = none ∧ decodeTableWord 48 0xFFFFFFFFFFFE = none ∧ decodeTableWord 48 0xF30000000000 = none ∧
    decodeSyllable false 0 0x1A1C61C70000 = .error .illegal ∧ decodeSyllable false 0 0x011461C00001 = .error .reserved ∧
    decodeSyllable true 0 0xFE0D50000000 = .error .illegal := by decide

/-! ### Small states -/

/-- A part with context 0, core 0 and job 1. -/
def part (x : Ctx) (k : Core) (j : Job) : State := { State.reset with ctxs := [(0, x)], cores := [(0, k)], jobs := [(1, j)] }

/-- A live role context whose bundle stands at slot 0; x5 = 0x40, x6 = -1, x7 = -2^63, x9 = 3. -/
def x0 : Ctx := { run := .live, job := 1, iss := some {}, pc := 0x1000, tvec := 0x2000, x :=
  ((((Vector.replicate 64 0).set 5 0x40).set 6 (-1)).set 7 0x8000000000000000).set 9 3 }

/-- The unit of lane 0. -/
def u0 : UnitSt := { job := 1, triple := false, lcore := 0 }

/-- A core with that unit. -/
def k0 : Core := { units := #v[some u0, none, none] }

/-- A privileged job of core 0. -/
def j0 : Job := { priv := true, dies := [0], cores := [(0, 0)] }

/-- The part with them. -/
def one : State := part x0 k0 j0

/-- The same in slot 1. -/
def two : State := part { x0 with iss := some { slot1 := true } } k0 j0

/-- The state that an outcome leads to. -/
def next (o : Host.Outcome State Fault Refusal) : State :=
  match o with
  | .next t => t
  | _ => State.reset

/-- The context after an instruction has run in `one`. -/
def ran (i : Instr) : Ctx := (next (exec i one)).me

/-! ### Single steps: results that the spec states -/

theorem test_add_wraps : (ran (.add ⟨8, 6, false, .reg 5 false⟩)).x[8] = 0x3F := by decide +kernel
theorem test_x0_is_zero : (ran (.add ⟨0, 5, false, .imm 1⟩)).x[0] = 0 := by decide +kernel
theorem test_mulh_signed : (ran (.mulh false ⟨8, 7, false, .reg 6 false⟩)).x[8] = 0 := by decide +kernel
theorem test_mulh_unsigned : (ran (.mulh true ⟨8, 7, false, .imm 2⟩)).x[8] = 1 := by decide +kernel
theorem test_rem_overflow : (ran (.rem false ⟨8, 7, false, .reg 6 false⟩)).pend = [⟨8, 0, 0, 0⟩] := by decide +kernel
theorem test_div_zero : (ran (.div true ⟨8, 5, false, .imm 0⟩)).bank1 = ⟨5, 0x1000, 0x40⟩ := by decide +kernel
theorem test_div_overflow : (ran (.div false ⟨8, 7, false, .reg 6 false⟩)).bank1.cause = 6 := by decide +kernel
theorem test_shift_by_64 : (ran (.shl ⟨8, 9, false, .imm 64⟩)).x[8] = 3 := by decide +kernel
theorem test_bfx_sign : (ran (.bfx false ⟨8, 9, false, 1, 0⟩)).x[8] = -1 := by decide +kernel
theorem test_clz_of_zero : (ran (.clz ⟨8, 0, false⟩)).x[8] = 64 := by decide +kernel
theorem test_jr_misaligned : (ran (.jr ⟨9, false⟩)).bank1 = ⟨8, 0x1000, 3⟩ := by decide +kernel
theorem test_trap_goes_to_vector : (ran (.tret)).pc = 0x2000 := by decide +kernel
theorem test_slot1_ends_bundle : (next (exec (.jmp (-1)) two)).me.pc = 0xFF0 := by decide +kernel
theorem test_call_link : (next (exec (.call 8 2) two)).me.x[8] = 0x1010 := by decide +kernel
theorem test_stl_then_ldl : (next (exec (.ldl 0 false 8 ⟨5, false⟩ 7) (next (exec (.stl 3 ⟨7, false⟩ ⟨5, false⟩ 0) one)))).me.x[8] = -128 := by decide +kernel
theorem test_fetch_runs : (next (step (State.reset.withFetchWord 48 0x1B1000000005))).me.x[4] = 5 := by decide +kernel

/-! ### Witnesses: states and operands that meet the hypotheses of the statements

Each theorem names the statement, and gives for each clause concrete values that meet its premises together. -/

/-- `one` with another context. -/
def withX (x : Ctx) : State := part x k0 j0

/-- The context at trap level n. -/
def xl (n : BitVec 2) : Ctx := { x0 with tlevel := n, bank1 := ⟨5, 0x1010, 0⟩, bank2 := ⟨5, 0x1021, 0⟩ }

/-- The context whose register x63 is empty. -/
def xe : Ctx := { x0 with empty := BitVec.twoPow 64 63 }

/-- The context at a bundle with this transfer at its end. -/
def xv (l : Leave) : Ctx := { x0 with iss := some { slot1 := true, leave := l } }

/-- A two-source form from x(a) and x6 to x(d). -/
def rr (d a : Reg) : RArgs := ⟨d, a, false, .reg 6 false⟩

/-- TwoSourceResults and the select, compare and move results: registers, both immediates, x0 and x63, a source that is the destination. -/
theorem witness_two_source : (Reads one (rr 63 5).a ∧ Reads2 one (rr 63 5).op2 ∧ Writes one (rr 63 5).d) ∧
    (Reads one (rr 5 5).a ∧ Reads2 one (rr 5 5).op2 ∧ Reads one (rr 5 5).d ∧ Writes one (rr 5 5).d) ∧
    (Reads one (rr 0 0).a ∧ Reads2 one (.imm 0xFFFF) ∧ Writes one (rr 0 0).d) ∧ Reads2 one (.wide 0x80000000) := by
  simp only [Reads, Reads2, Writes, rr]
  decide +kernel

/-- BitFieldAndMoveResults: a field that ends at bit 63, one-source operands, and a negative immediate. -/
theorem witness_bit_field : (FArgs.wf ⟨8, 6, false, 60, 3⟩ = true ∧ Reads one 6 ∧ Writes one 8 ∧ Reads one 8) ∧
    (FArgs.wf ⟨8, 6, false, 0, 63⟩ = true) ∧ (Reads one 63 ∧ Writes one 63) := by
  simp only [Reads, Writes]
  decide +kernel

/-- DivisionResultsAndFaults: an ordinary divisor, zero, and -1 under -2^63. -/
theorem witness_division :
    (Reads one 7 ∧ Reads2 one (.reg 9 false) ∧ Pends one 8 ∧ one.val2 (.reg 9 false) ≠ 0 ∧
      ¬ ((one.val 7).toInt = -2 ^ 63 ∧ (one.val2 (.reg 9 false)).toInt = -1)) ∧
    (Reads one 7 ∧ Reads2 one (.imm 0) ∧ one.val2 (.imm 0) = 0) ∧
    (Reads one 7 ∧ Reads2 one (.reg 6 false) ∧ (one.val 7).toInt = -2 ^ 63 ∧ (one.val2 (.reg 6 false)).toInt = -1 ∧ Pends one 0) := by
  simp only [Reads, Reads2, Pends]
  decide +kernel

/-- RegisterOperands: a full register, an empty one with either e bit, slot 1's view, and a write to each. -/
theorem witness_registers :
    ((63 : Reg) ≠ 0 ∧ boundPort one.me 63 = none ∧ (one.me.iss.getD {}).snap = none ∧ one.me.empty.getLsbD 63 = false ∧
      (one.me.iss.getD {}).remote = false) ∧
    (boundPort (withX xe).me 63 = none ∧ ((withX xe).me.iss.getD {}).snap = none ∧ (withX xe).me.empty.getLsbD 63 = true) ∧
    (boundPort (withX { x0 with iss := some { snap := some x0.x } }).me 1 = none ∧
      ((withX { x0 with iss := some { snap := some x0.x } }).me.iss.getD {}).snap = some x0.x) := by
  decide +kernel

/-- BundleAdvances: slot 0; slot 1 of a plain bundle; a repetition that is not the last. -/
theorem witness_advances :
    ((one.ctx 0).iss = some {} ∧ (({} : Issue).sync = false ∧ ({} : Issue).slot1 = false)) ∧
    ((two.ctx 0).iss = some { slot1 := true } ∧ (unpackHeader ({ slot1 := true } : Issue).hdr).h = false) ∧
    ((withX { x0 with iss := some { slot1 := true, rep := some (1, 1, 0, 0) } }).ctx 0).iss = some { slot1 := true, rep := some (1, 1, 0, 0) } := by
  decide +kernel

/-- ScalarFrame: `madd` of three registers, and `movi`, which has no source. -/
theorem witness_frame :
    (Claims.scalarDst (.madd (rr 63 5)) = some 63 ∧ one.me.iss = some {} ∧ (∀ p ∈ srcsOf (rankOf one one.cur) (.madd (rr 63 5)), Reads one p.1) ∧
      Writes one 63) ∧
    (Claims.scalarDst (.movi 0 (.narrow 1)) = some 0 ∧ (∀ p ∈ srcsOf (rankOf one one.cur) (.movi 0 (.narrow 1)), Reads one p.1) ∧ Writes one 0) := by
  simp only [Reads, Writes]
  decide +kernel

/-- ControlTransfers: each condition on a value that meets it and on one that does not. -/
theorem witness_branches :
    (∀ p ∈ [((0 : BitVec 3), (0 : W64), (0 : BitVec 6)), (1, 1, 0), (2, -1, 0), (3, 0, 0), (4, 1, 0), (5, 0, 0), (6, 0x8000000000000000, 63), (7, 1, 63)],
      Claims.taken p.1 p.2.1 p.2.2) ∧
    (∀ p ∈ [((0 : BitVec 3), (1 : W64), (0 : BitVec 6)), (1, 0, 0), (2, 0, 0), (3, -1, 0), (4, 0, 0), (5, 1, 0), (6, 1, 63), (7, 1, 0)],
      ¬ Claims.taken p.1 p.2.1 p.2.2) := by
  refine ⟨?_, ?_⟩ <;> simp [Claims.taken]

/-- ControlTransfers: aligned and misaligned targets; counters 0, 1, 2 and the largest. -/
theorem witness_transfers :
    (Reads one 5 ∧ (one.val 5).toNat % 16 = 0) ∧ (Reads one 9 ∧ (one.val 9).toNat % 16 ≠ 0) ∧ Writes one 8 ∧
    ((unpackHeader (one.me.iss.getD {}).hdr).s = false ∧ one.me.lc0.toNat ≤ 1 ∧ 1 < (withX { x0 with lc1 := 2 }).me.lc1.toNat ∧
      (withX { x0 with lc1 := 1 }).me.lc1.toNat ≤ 1 ∧ 1 < (withX { x0 with lc0 := -1 }).me.lc0.toNat) := by
  simp only [Reads, Writes]
  decide +kernel

/-- SchedulingPoints and LevelsAndTransfers: the levels, `step` before and after its release, and a handler. -/
theorem witness_levels :
    (one.me.tlevel = 0 ∧ isHandler one.cur = false ∧ one.me.stepGo = false) ∧ (withX { x0 with stepGo := true }).me.stepGo = true ∧
    (withX (xl 1)).me.tlevel ≠ 0 ∧ (withX (xl 2)).me.tlevel ≠ 0 ∧ isHandler ({ one with cur := 3 } : State).cur = true := by
  decide +kernel

/-- LevelsAndTransfers: each transfer at the end of a bundle, of a role context and of a handler. -/
theorem witness_bundle_ends :
    (∀ l ∈ [Leave.jump 0, .idle, .trap 1], ((withX (xv l)).ctx 0).iss = some { slot1 := true, leave := l }) ∧
    (((withX (xv .ppt)).ctx 0).iss = some { slot1 := true, leave := .ppt } ∧ isHandler 0 = false ∧
      ((withX (xv .ppt)).job ((withX (xv .ppt)).ctx 0).job).cancelled = false ∧
      unitOf (withX (xv .ppt)) 0 = some (0, u0) ∧ pendingFor (withX (xv .ppt)) (coreOf 0) 0 u0 = false) ∧
    (∀ l ∈ [Leave.ppt, .tend], ∀ s ∈ [{ one with ctxs := [(3, xv l)] }], isHandler 3 = true ∧ (s.ctx 3).iss = some { slot1 := true, leave := l } ∧ (s.ctx 3).ring = none) ∧
    (banked (withX (xv (.trap 1))) 0 = false ∧ ((withX (xv (.trap 1))).ctx 0).tlevel = 0 ∧ ((withX (xv (.trap 1))).ctx 0).pend = [] ∧
      bits ((withX (xv (.trap 1))).ctx 0).tvec 56 4 ≠ 0) := by
  decide +kernel

/-- TrapEntryAndReturn: entry from level 0 and from level 1; the kill at level 2 and without a vector; the return from either level. -/
theorem witness_traps :
    (∀ n ∈ [(0 : BitVec 2), 1], banked (withX (xl n)) 0 = false ∧ (withX (xl n)).me.iss = some {} ∧ (withX (xl n)).me.pend = [] ∧
      (withX (xl n)).me.tlevel.toNat < 2 ∧ bits (withX (xl n)).me.tvec 56 4 ≠ 0 ∧ (withX (xl n)).me.pc.toNat % 16 = 0) ∧
    (∀ x ∈ [xl 2, { x0 with tvec := 0 }], banked (withX x) 0 = false ∧ (((withX x).ctx 0).iss.getD {}).late = [] ∧
      (((withX x).ctx 0).tlevel = 2 ∨ bits ((withX x).ctx 0).tvec 56 4 = 0) ∧ ((withX x).job ((withX x).ctx 0).job).kcancel = false) ∧
    (((withX (xl 1)).ctx 0).back = none ∧ ((withX (xl 1)).ctx 0).tlevel = 1 ∧ bit ((withX (xl 1)).ctx 0).bank1.cause 8 = false ∧
      ((withX (xl 2)).ctx 0).tlevel = 2) := by
  decide +kernel

/-- The context with chute ports 0 and 4 bound to the word at 0x100 of its slice. -/
def xc : Ctx := { x0 with ports := ((Vector.replicate 8 none).set 0 (some 0x100)).set 4 (some 0x100) }

/-- The part with a chute of four slots, both ends bound, and this head, tail and count. -/
def chuted (h t n : Byte) : State := { withX xc with mem := [(0x100, 3), (0x101, 16 * h), (0x103, t), (0x104, 16 * n), (0x107, 0x30)].filter (·.2 != 0) }

/-- ChuteOperands: a pop of the last element at the last slot, and a push of the last free slot there. -/
theorem witness_chutes : (∀ s ∈ [chuted 3 0 1], boundPort s.me 56 = some (0, 0x100) ∧ s.me.latch.toList.getD 0 none = none ∧
      chuteOk 0x100 (readW s 0x100) = true ∧ bit (readW s 0x100) 60 = true ∧ chuteCount (readW s 0x100) ≠ 0 ∧ Unheld s 0x100 ∧ Unfenced s 0x100 8 ∧
      Unfenced s (0x100 + 8 + 8 * chuteHead (readW s 0x100)) 8 ∧ Unraced s 0x100 8 true true ∧
      Unraced (s.raced 0x100 8 true true) (0x100 + 8 + 8 * chuteHead (readW s 0x100)) 8 false true ∧ Unpoisoned s 0x100 8 ∧
      Unpoisoned s (0x100 + 8 + 8 * chuteHead (readW s 0x100)) 8) ∧
    (∀ s ∈ [chuted 0 3 3], boundPort s.me 60 = some (4, 0x100) ∧ chuteOk 0x100 (readW s 0x100) = true ∧ bit (readW s 0x100) 61 = true ∧
      chuteCount (readW s 0x100) < chuteSize (readW s 0x100) + 1 ∧ Unheld s 0x100 ∧ Unfenced s 0x100 8 ∧
      Unfenced s (0x100 + 8 + 8 * chuteTail (readW s 0x100)) 8 ∧ Unraced s 0x100 8 true true ∧
      Unraced (s.raced 0x100 8 true true) (0x100 + 8 + 8 * chuteTail (readW s 0x100)) 8 true true ∧ Unpoisoned s 0x100 8) := by
  simp only [Unheld, Unfenced, Unraced, Unpoisoned]
  decide +kernel

/-- ChuteOperands: a word that fails its tests, an empty chute and a full one. -/
theorem witness_chute_faults : (∀ s ∈ [chuted 0 0 5, chuted 0 0 0, chuted 0 0 4], Unheld s 0x100 ∧ Unfenced s 0x100 8 ∧
      boundPort s.me 56 = some (0, 0x100) ∧ boundPort s.me 60 = some (4, 0x100) ∧ s.me.latch.toList.getD 4 none = none) ∧
    chuteOk 0x100 (readW (chuted 0 0 5) 0x100) = false ∧
    ((chuteOk 0x100 (readW (chuted 0 0 0) 0x100) && bit (readW (chuted 0 0 0) 0x100) 60) = true ∧
      chuteCount (readW (chuted 0 0 0) 0x100) = 0) ∧
    ((chuteOk 0x100 (readW (chuted 0 0 4) 0x100) && bit (readW (chuted 0 0 4) 0x100) 61) = true ∧
      chuteSize (readW (chuted 0 0 4) 0x100) + 1 ≤ chuteCount (readW (chuted 0 0 4) 0x100)) := by
  simp only [Unheld, Unfenced]
  decide +kernel

/-- `one` at user privilege. -/
def user : State := part x0 k0 { j0 with priv := false }

/-- SystemRegisterReads and SystemRegisterWriting: a destination and a source; either privilege; both values of S; an arrival value with en = 0, and one with
en = 1 that names an object. -/
theorem witness_system : (Writes one 8 ∧ isPriv one one.cur = true ∧ (0x07F : BitVec 12).toNat < 0x080) ∧ isPriv user user.cur = false ∧
    (Reads one 5 ∧ (unpackHeader (one.me.iss.getD {}).hdr).s = false ∧ bit (one.val 5) 31 = false) ∧
    (unpackHeader ((withX { x0 with iss := some { hdr := 2 ^ 30 } }).me.iss.getD {}).hdr).s = true ∧
    (∀ s ∈ [withX { x0 with x := x0.x.set 5 0x80000040 }], bit (s.val 5) 31 = true ∧ arvKey s s.cur (s.val 5) = some 0x40) := by
  simp only [Reads, Writes]
  decide +kernel

/-- A one-dimensional entry of n elements. -/
def lay (space base fmt n : Nat) : Layout :=
  { w0 := w64 base, w1 := w64 (space + 2 ^ 8 + fmt * 2 ^ 16 + 3 * 2 ^ 32), w2 := w64 n, w5 := 1 }

/-- The context with a LOCAL entry L48 of words, an SRAM entry L49 of core 1 and a VM entry L50, and words at their first coordinate. -/
def xy : Ctx := { x0 with view := ((((Vector.replicate 15 {}).set 0 (lay 0 0x40 4 8)).set 1 (lay 2 0x800000 4 8)).set 2 (lay 3 0x1000 4 8)).set 3 (lay 0 0x40 3 8) }

/-- The part with those entries. -/
def layed : State := withX xy

/-- The part with a view descriptor at 0x40 of the slice that asks for n elements of the entry, with the read right. -/
def viewing (n : Byte) : State := { layed with mem := [(0x58, n), (0x70, 9)] }

/-- LayoutInstructions: `lget` of a LOCAL base, of an SRAM base and of another word; `lview` with a misaligned descriptor, without a parent, with one that a
descriptor breaks, and one that holds. -/
theorem witness_layouts : (Writes layed 8 ∧ (entryOf layed layed.cur 48).space ∉ [2, 3, 4, 6] ∧ (entryOf layed layed.cur 49).space ∈ [2, 3, 4, 6]) ∧
    (Reads layed 9 ∧ (layed.val 9).toNat % 64 ≠ 0) ∧ (Reads layed 5 ∧ (layed.val 5).toNat % 64 = 0 ∧ (entryOf layed layed.cur 60).valid = false) ∧
    (viewOf (entryOf (viewing 8) 0 48) (readWs (viewing 8) 0x40 8)).isSome = true ∧ viewOf (entryOf (viewing 9) 0 48) (readWs (viewing 9) 0x40 8) = none ∧
    (∀ s ∈ [viewing 8, viewing 9], isHandler s.cur = false ∧ (entryOf s s.cur 48).valid = true ∧ Unheld s 0x40 ∧ Unfenced s 0x40 64 ∧
      Unraced s 0x40 64 false false ∧ Unpoisoned s 0x40 64) := by
  simp only [Reads, Writes, Unheld, Unfenced, Unraced, Unpoisoned]
  decide +kernel

/-- PrivilegeRule: each privileged form, at user privilege. -/
theorem witness_privilege : isPriv user user.cur = false ∧ 0x080 ≤ (0x080 : BitVec 12).toNat := by decide +kernel

/-- TranslationInstructions: partition 32, the last; an address aligned to both page sizes and one to neither; a quarantine with room, and a full one. -/
theorem witness_translation : (isPriv one one.cur = true ∧ Reads one 5 ∧ Reads one 9 ∧ (one.val 9).toNat ≤ 32 ∧ Writes one 8) ∧
    ((one.val 5).toNat % 2 ^ 16 ≠ 0 ∧ (one.val 0).toNat % 2 ^ 29 = 0 ∧ (one.val 7).toNat % 2 ^ 16 = 0) ∧
    (one.quarantine.length < 1024 ∧ 1024 ≤ ({ one with quarantine := List.replicate 1024 ⟨0, false, 2⟩ } : State).quarantine.length) ∧
    (∀ s ∈ [withX { x0 with x := x0.x.set 5 32 }], Reads s 5 ∧ (s.val 5).toNat ≤ 32) := by
  simp only [Reads, Writes]
  decide +kernel

/-- A core held by a context. -/
def heldBy (c : Nat) : State := part x0 { k0 with holder := some c } j0

/-- QuiesceHoldsSlice: a free slice, one held by the context itself, one held by another; cores 511 and 512. -/
theorem witness_quiesce : (isPriv one one.cur = true ∧ Reads one 0 ∧ (one.val 0).toNat < 512 ∧ (one.core (one.val 0).toNat).holder = none) ∧
    ((heldBy 0).core ((heldBy 0).val 0).toNat).holder = some (heldBy 0).cur ∧ (1 ≠ (heldBy 1).cur ∧ ((heldBy 1).core ((heldBy 1).val 0).toNat).holder = some 1) ∧
    (∀ s ∈ [withX { x0 with x := (x0.x.set 5 511).set 6 512 }], Reads s 5 ∧ (s.val 5).toNat < 512 ∧ Reads s 6 ∧ 512 ≤ (s.val 6).toNat) ∧
    (((heldBy 1).core (keyCore 0x40)).holder = some 1 ∧ Unfenced (heldBy 1) 0x40 8) := by
  simp only [Reads, Unfenced]
  decide +kernel

/-- The context with targets in x10 to x13 (itself, a lane above 2, context 1, a handler) and image addresses in x14 (aligned) and x9 (not). -/
def xt : Ctx := { x0 with x := ((((x0.x.set 10 0).set 11 3).set 12 1).set 13 6).set 14 0x400 }

/-- A core with units in lanes 0 and 1. -/
def k2 : Core := { units := #v[some u0, some u0, none] }

/-- A saved unit of handle 0. -/
def sv0 : SavedUnit where
  handle := 0
  unit := u0
  lane := 2
  core := 0
  ctxs := [(2, x0)]
  tl := []
  mx := none
  tok := Vector.replicate 8 0
  ftab := []
  bytes := []
  tags := []
  regions := []
  cmds := []
  levels := []
  suspended := true

/-- The part in which the contexts of lanes 0 and 1 run. -/
def both : State := { part xt k2 j0 with ctxs := [(0, xt), (1, x0)] }

/-- ContextInstructions: `ctxsave` of a handler, of a lane without a unit, of its own unit, of another; a misaligned image; `ctxkill` of itself and of another. -/
theorem witness_contexts : (isPriv both both.cur = true ∧ Reads both 10 ∧ Reads both 14 ∧ Writes both 8 ∧ (both.val 14).toNat % 1024 = 0 ∧ both.me.wait = .none) ∧
    (3 ≤ (both.val 11).toNat % 8 ∧ (both.val 9).toNat < 4096 ∧ (both.val 9).toNat % 1024 ≠ 0) ∧ unitOf both 2 = none ∧
    (unitOf both (both.val 10).toNat = some (0, u0) ∧ coreOf (both.val 10).toNat = coreOf both.cur ∧ both.cur ∈ unitCtxs (coreOf 0) 0 u0) ∧
    (unitOf both (both.val 12).toNat = some (1, u0) ∧ ¬ (both.cur ∈ unitCtxs (coreOf 1) 1 u0) ∧ u0.saver = none) ∧
    ((both.val 12).toNat ≠ both.cur ∧ (both.val 12).toNat % 8 < 6 ∧ ctxLive (both.ctx (both.val 12).toNat) = true ∧
      Writes (killCtx both 1 2 0 (epcWord (both.ctx 1).pc (resumePoint (both.ctx 1)).1 (resumePoint (both.ctx 1)).2) 0) 8) ∧
    (6 ≤ (both.val 13).toNat % 8 ∧ ∀ v ∈ both.saved, v.core ≠ coreOf 6) := by
  simp only [Reads, Writes]
  decide +kernel

/-- `both` with the saved unit, and ctxsave's answer waiting. -/
def savedIn : State := { both with saved := [sv0], ctxs := [(0, { xt with waits := (Vector.replicate 3 .none).set 0 (.saved 0 2) }), (1, x0)] }

/-- ContextInstructions: `ctxload` of an image that no unit answers to, of one of a suspended unit whose lane is free, and the end of a `ctxsave`. -/
theorem witness_context_images :
    (∀ s ∈ [both, savedIn], Reads s 12 ∧ Reads s 14 ∧ 0x400 = sliceKey (coreOf s.cur) ((s.val 14).toNat % 2 ^ 23) ∧ Unheld s 0x400 ∧ Unfenced s 0x400 1024 ∧
      Unraced s 0x400 1024 false false ∧ Unraced s 0x400 1024 true false ∧ Unpoisoned s 0x400 1024) ∧
    (loadStatus (both.raced 0x400 1024 false false) ((both.val 12).toNat % 4096) (readWs both 0x400 128) ≠ 0 ∧ Writes both 8) ∧
    (loadStatus (savedIn.raced 0x400 1024 false false) ((savedIn.val 12).toNat % 4096) (readWs savedIn 0x400 128) = 0 ∧
      savedIn.saved.find? (fun x => BitVec.ofNat 64 x.handle == (readWs savedIn 0x400 128).getD 120 0) = some sv0 ∧
      Writes (resumeUnit (savedIn.raced 0x400 1024 false false) { sv0 with ctxs := sv0.ctxs.map fun (i, x) =>
        if i = sv0.named then (i, editCtx x (readWs savedIn 0x400 128)) else (i, x) } (coreOf ((savedIn.val 12).toNat % 4096))) 8) ∧
    (savedIn.me.wait = .saved 0 2 ∧ savedIn.saved.find? (fun x => x.handle == 0) = some sv0 ∧ Writes savedIn 8) := by
  simp only [Reads, Writes, Unheld, Unfenced, Unraced, Unpoisoned]
  decide +kernel

/-- The context at levels asked for, granted and given up. -/
def xp (h : Nat) (w : Wait) : Ctx := { x0 with held := h, waits := (Vector.replicate 3 .none).set 0 w }

/-- PowerInstructions: a level at most the one held, one above it, one that has been granted; no level and one to give up; a profile that exists and one that does not. -/
theorem witness_power : (isHandler one.cur = false ∧ (withX (xp 12 .none)).me.wait = .none ∧ (12 : BitVec 6).toNat ≤ (withX (xp 12 .none)).me.held) ∧
    ((withX (xp 62 .none)).me.held < (63 : BitVec 6).toNat ∧ ∀ w ∈ ((withX (xp 62 .none)).die (dieOf 0)).waiters, w.1 ≠ 0) ∧
    (withX (xp 63 (.granted 63))).me.wait = .granted (63 : BitVec 6).toNat ∧
    (one.me.held = 0 ∧ (withX (xp 1 .none)).me.held ≠ 0 ∧ ownCmds (withX (xp 1 .none)) 0 = []) ∧
    (profOk j0 0 = true ∧ profOk { j0 with profs := List.replicate 31 0 ++ [1] } 15 = false) := by
  decide +kernel

/-- A cached translation of the first 64 KiB of partition 0. -/
def tlb0 (r w : Bool) : Tlb := ⟨0, 0, false, 0, 2 ^ 16, 0, 0, 2 ^ 16, 0, 2 ^ 16, 0, false, r, w, r⟩

/-- `layed` with that translation cached. -/
def mapped (r w : Bool) : State := { layed with tlb := [tlb0 r w] }

/-- ElementPlaces: the last element of an entry and the one past it; an entry without a right; a slice entry and a virtual one that run out of their space. -/
theorem witness_places : ((lay 0 0x40 4 8).space < 5 ∧ (lay 0 0x40 4 8).valid = true ∧ (∀ i, i < (lay 0 0x40 4 8).rank → [7].getD i 0 < (lay 0 0x40 4 8).ext i) ∧
      ((List.range (lay 0 0x40 4 8).rank).map fun i => ([7].getD i 0 : Int) * (lay 0 0x40 4 8).str i * (lay 0 0x40 4 8).es).sum = 56 ∧
      (lay 0 0x40 4 8).space ≤ 2 ∧ ((lay 0 0x40 4 8).base % 2 ^ 23 : Nat) + 56 + 8 ≤ 2 ^ 23) ∧
    (lay 0 0x40 4 8).ext 0 ≤ [8].getD 0 0 ∧ ({} : Layout).valid = false ∧ ({ lay 0 0x40 4 8 with w1 := 0x40100 } : Layout).rd = false ∧
    (∀ e ∈ [lay 0 0x7FFFF8 4 8], (2 : Int) ^ 23 < ((e.base % 2 ^ 23 : Nat) : Int) + 8 + 8 ∧ (1 : Nat) < e.ext 0) ∧
    (∀ e ∈ [lay 3 (2 ^ 57 - 8) 4 8], 3 ≤ e.space ∧ (2 : Int) ^ 57 < (e.base : Int) + 8 + 8 ∧ e.base + 0 + 8 ≤ 2 ^ 57) := by
  decide +kernel

/-- A slice whose paddock keeps job 1 out of [0x10000, 0x20000). -/
def fenced : State := part x0 { k0 with paddock := (Vector.replicate 4 0).set 0 0x8000020000010000 } j0

/-- A word that context 8 has written, and a poisoned granule. -/
def raced : State := { one with det := [(1, { writer := some ⟨8, 0, false, 0xFF⟩ })], poison := [2] }

/-- ThreadAccesses on a slice: the last bytes below a paddock and the first inside it; a race; a poisoned granule; a held slice. -/
theorem witness_slice_accesses : Loads fenced 0xFFF8 8 true false ∧ Stores fenced 0xFFF8 8 true false ∧ ¬ Unfenced fenced 0xFFF8 9 ∧ ¬ Unfenced fenced 0x1FFFF 1 ∧
    Unfenced fenced 0x20000 1 ∧ (Unfenced raced 0x40 8 ∧ Unheld raced 0x40 ∧ (raceTest raced raced.cur 0x40 8 false false).isSome = true ∧
      (raceTest raced raced.cur 0x40 8 true false).isSome = true) ∧
    (Unfenced raced 0x80 8 ∧ Unheld raced 0x80 ∧ Unraced raced 0x80 8 false false ∧ (granules 0x80 8).find? (fun g => raced.poison.contains g) = some 2 ∧
      isSlice 0x80 = true) := by
  simp only [Loads, Stores, Unheld, Unfenced, Unraced, Unpoisoned]
  decide +kernel

/-- The part whose job is of partition 1, whose stage 2 misses raise requests. -/
def missing : State := { part x0 k0 { j0 with fn := 1 } with mem := [(2 ^ 58 + 71, 0xC0)] }

/-- A translation that answers a key. -/
def okKey (r : XRes) : Option Nat :=
  match r with
  | .ok k _ => some k
  | _ => none

/-- ThreadAccesses at virtual addresses: the last bytes of a page, a right that is missing, a lost die, and a miss of stage 2. -/
theorem witness_translated : (openWait (mapped true true) (threadReq (mapped true true) 0xFFF8 true false false false) = false ∧
      failedWait (mapped true true) (threadReq (mapped true true) 0xFFF8 true false false false) = false ∧
      okKey (translate (mapped true true) (threadReq (mapped true true) 0xFFF8 true false false false)) = some (2 ^ 58 + 0xFFF8) ∧
      ¬ (2 ^ 58 + 2 ^ 39 ≤ 2 ^ 58 + 0xFFF8) ∧ lostKey (mapped true true) (2 ^ 58 + 0xFFF8) = false ∧ Unpoisoned (mapped true true) (2 ^ 58 + 0xFFF8) 8 ∧
      seqRegions (mapped true true) (partOf (mapped true true) 0) 0xFFF8 8 = []) ∧
    (lostKey { mapped true true with dies := [(0, { lost := true })] } (2 ^ 58 + 0xFFF8) = true ∧
      goneHit { mapped true true with dies := [(0, { lost := true })] } (2 ^ 58 + 0xFFF8) false = false) ∧
    (∃ c, translate (mapped true false) (threadReq (mapped true false) 0 false true false false) = .fail c) ∧
    ∃ i, translate missing (threadReq missing 0 true false false false) = .miss i := by
  simp only [Unpoisoned]
  exact ⟨by decide +kernel, by decide +kernel, ⟨_, rfl⟩, ⟨_, rfl⟩⟩

/-- LoadsAndStores: the last offset of the slice, reached modulo 2^23, one that is misaligned, and an access that goes through. -/
theorem witness_local : (Reads one 0 ∧ (one.val 0 + (0xFFF8 : BitVec 16).signExtend 64).toNat % 2 ^ 23 = 0x7FFFF8 ∧ 0x7FFFF8 % 2 ^ (3 : BitVec 2).toNat = 0 ∧
      Writes one 8 ∧ Reads one 7) ∧ ((one.val 9 + (0 : BitVec 16).signExtend 64).toNat % 2 ^ 23 % 2 ^ (1 : BitVec 2).toNat ≠ 0) ∧
    (∃ v u, LoadsFrom one (.slice 0x7FFFF8) 8 true false false v u) ∧ ∃ u, StoresTo one (.slice 0x7FFFF8) 8 7 true false false false u := by
  simp only [Reads, Writes]
  exact ⟨by decide +kernel, by decide +kernel, ⟨_, _, fun _ => rfl⟩, ⟨_, fun _ => rfl⟩⟩

/-- LoadsAndStores: the last element of a LOCAL entry and the first of an SRAM entry of another core. -/
theorem witness_layout_accesses : (LayoutAt { layed with ctxs := [(0, { xy with x := xy.x.set 5 7 })] } 5 48 8 true false (lay 0 0x40 4 8) (.slice 0x78)) ∧
    (lay 0 0x40 4 8).space = 0 ∧ (lay 2 0x800000 4 8).space ≠ 0 ∧ Pends layed 8 ∧ Writes layed 8 ∧
    LayoutAt layed 0 49 8 false true (lay 2 0x800000 4 8) (.slice 0x800000) ∧ (entryOf layed layed.cur 48).rank ≠ 0 ∧
    ReadsRun layed 63 (entryOf layed layed.cur 48).rank := by
  simp only [LayoutAt, ReadsRun, Reads, Writes, Pends]
  refine ⟨⟨by decide +kernel, by decide +kernel, by decide +kernel, by decide +kernel, by decide +kernel⟩, by decide +kernel, by decide +kernel,
    by decide +kernel, by decide +kernel, ⟨by decide +kernel, by decide +kernel, by decide +kernel, by decide +kernel, by decide +kernel⟩,
    by decide +kernel, by decide +kernel⟩

/-- A tagged operation by local offset, and one through an SRAM entry of core 1. -/
def tagged (l : MLoc) : MArgs := ⟨8, 0, false, false, l⟩

/-- `layed` with the words at keys 0x40 and 0x800000 full. -/
def full : State := { layed with tags := [8, 0x100000] }

/-- A tagged operation that waits at a bank of another slice. -/
def wait0 (ste : Bool) : BankWait := ⟨0, 0x800000, ste, false, 8, 7, 0, 1⟩

/-- TaggedMemory: full and empty words of the core's own slice and of another; what waits at a bank when its tag allows it; a value that arrives. -/
theorem witness_tagged : (∀ s ∈ [layed, full], WordAt s (tagged (.off 0x40)) true false 0x40 true true ∧ Loads s 0x40 8 true true ∧ Stores s 0x40 8 true true ∧
      (∀ b ∈ s.bank, b.ctx ≠ s.cur) ∧ Writes s 8 ∧ Pends s 8 ∧ Reads s 8) ∧
    (0x40 / 8 ∈ full.tags ∧ 0x40 / 8 ∉ layed.tags ∧ keyCore 0x40 = coreOf layed.cur ∧ keyCore 0x800000 ≠ coreOf layed.cur ∧ (tagged (.off 0x40)).d ≠ 0) ∧
    (∀ s ∈ [layed, full], Loads s 0x800000 8 false true ∧ Stores s 0x800000 8 false true) ∧
    (0x800000 / 8 ∈ full.tags ∧ 0x800000 / 8 ∉ layed.tags) ∧
    (∀ b ∈ [wait0 false, wait0 true], ∀ s ∈ [{ full with bank := [b] }, { layed with bank := [b] }],
      s.bank = [b] ∧ b.here = false ∧ (s.core (keyCore b.key)).holder = none) ∧
    ((withX { x0 with pend := [⟨63, 7, 0, 0⟩], empty := BitVec.twoPow 64 63 }).ctx 0).pend = [⟨(63 : Reg).toNat, 7, 0, 0⟩] := by
  simp only [tagged, WordAt, Loads, Stores, Unheld, Unfenced, Unraced, Unpoisoned, Reads, Writes, Pends]
  refine ⟨by decide +kernel, by decide +kernel, by decide +kernel, by decide +kernel, by decide +kernel, by decide +kernel⟩

/-- TaggedMemory: the word of another core's slice through its entry. -/
theorem witness_tagged_far : WordAt layed (tagged (.lay 49)) true false 0x800000 false false := by
  simp only [tagged, WordAt, LayoutAt, ReadsRun, Reads]
  exact ⟨_, ⟨rfl, by decide +kernel, by decide +kernel, by decide +kernel, by decide +kernel⟩, by decide +kernel, by decide +kernel, by decide +kernel, by decide +kernel⟩

/-- An atomic of x6 (and x7) on the word at 0x40: x5 holds its address. -/
def atom (w64 : Bool) : AArgs := ⟨6, 5, false, false, none, w64, 0, 0⟩

/-- AtomicResults: both widths on a word that goes through; a write and none, in the slice and through a translation; a match and no match; a sum below
the bound and one above it. -/
theorem witness_atomics : (∀ w ∈ [true, false], AtomicAt one (atom w) (Claims.amoBytes (atom w)) (.slice 0x40) true false) ∧
    (Reads one 6 ∧ Reads one (6 + 1) ∧ Pends one 6 ∧ Pends one (6 + 1)) ∧
    (∀ new ∈ [some 7, none], ∃ t, Claims.AtomicRun one (.slice 0x40) 8 true false 0 new t) ∧
    (∀ new ∈ [some 7, none], ∃ t, Claims.AtomicRun (mapped true true) (.virt 0xFFF8 false false) 8 true false 0 new t) ∧
    (0 ≠ Claims.amoOp one (atom true) ∧ Claims.amoOp one { atom true with d := 8 } = 0) ∧
    (Claims.amoOp2 one (atom true) < 0 + Claims.amoOp one (atom true) ∧ 0 + Claims.amoOp one { atom true with d := 8 } ≤ Claims.amoOp2 one { atom true with d := 8 }) := by
  simp only [atom, AtomicAt, Reads, Pends, Unheld, Unfenced, Unraced, Unpoisoned, Claims.AtomicRun, List.forall_mem_cons, List.not_mem_nil, false_implies, implies_true, and_true]
  exact ⟨by decide +kernel, by decide +kernel, ⟨⟨_, by decide +kernel, by decide +kernel, by decide +kernel, by decide +kernel, by decide +kernel, rfl⟩,
    ⟨_, by decide +kernel, by decide +kernel, by decide +kernel, by decide +kernel, by decide +kernel, rfl⟩⟩,
    ⟨⟨_, _, fun _ => rfl, fun _ => rfl⟩, ⟨_, _, fun _ => rfl, rfl⟩⟩, by decide +kernel, by decide +kernel⟩

/-- FencesAndTimelines: a value reached and one not; the context's own logical core, one that the launch holds, one that it does not, and one past 16 bits. -/
theorem witness_timelines : (Reads one 0 ∧ (one.val 0).toNat ≤ myTl one one.cur 5) ∧ (Reads one 9 ∧ myTl one one.cur 0 < (one.val 9).toNat) ∧
    (Reads one 6 ∧ 2 ^ 16 ≤ (one.val 6).toNat) ∧ ((one.val 9).toNat < 2 ^ 16 ∧ tlOf one one.me.job (one.val 9).toNat 0 = none) ∧
    ((one.val 0).toNat < 2 ^ 16 ∧ tlOf one one.me.job (one.val 0).toNat 0 = some 0 ∧ (one.val 0).toNat = one.me.lcore) ∧
    (∀ s ∈ [{ part x0 k0 { j0 with cores := [(0, 0), (3, 1)] } with cores := [(0, k0), (1, { units := #v[some { u0 with lcore := 3 }, none, none] })] }], tlOf s s.me.job (s.val 9).toNat 0 = some 0 ∧ (s.val 9).toNat ≠ s.me.lcore) ∧
    Writes one 8 ∧ Pends one 8 ∧ mapGet (0, 0) (one.job 1).tloff (8 * 0 + 0) = (0, 0) := by
  simp only [Reads, Writes, Pends]
  exact ⟨by decide +kernel, by decide +kernel, by decide +kernel, by decide +kernel, by decide +kernel, by decide +kernel, by decide +kernel, by decide +kernel,
    by decide +kernel⟩

/-- The part with a group object of generation 1 at 0x40, with these members, arrivals and this epoch, and a context listed in it or not. -/
def grouped (members arrived epoch : Byte) (gs : List Member) : State :=
  { withX { x0 with groups := gs } with mem := [(0x40, 1), (0x44, members), (0x46, arrived), (0x48, 8), (0x4C, epoch)].filter (·.2 != 0) }

/-- The operand that names it. -/
def g0 : GArgs := ⟨5, false, none⟩

/-- The context's entry for it. -/
def m0 (gen : BitVec 32) (at_ : Option (BitVec 32)) : Member := ⟨0x40, gen, at_⟩

/-- The access of every group instruction to the object goes through. -/
theorem witness_objects : ∀ s ∈ [one, grouped 2 0 7 [], grouped 2 0 7 [m0 1 none], grouped 2 1 7 [m0 1 (some 6)], grouped 2 1 7 [m0 1 (some 7)], grouped 2 1 7 [m0 2 none],
    grouped 1 2 7 [m0 1 none], grouped 2 1 7 []], ∀ w, Claims.Objects s g0 0x40 w ∧ Claims.Gives s 8 0x40 := by
  intro s hs w
  refine ⟨⟨true, ?_⟩, ?_⟩
  · simp only [g0, ObjectAt, Unheld, Unfenced, Unraced, Unpoisoned, Reads]
    revert w s
    decide +kernel
  · simp only [Claims.Gives, Writes, Pends]
    revert w s
    decide +kernel

/-- GroupObjects: values that make an object and one that ends it; an object to join; a member that arrives first and one that arrives last; every fault. -/
theorem witness_groups : ((0x5FFFFF : W64) &&& 0x7FFFFFFFFF800000 = 0 ∧ bits 0x5FFFFF 22 20 < 6 ∧ (0x8000000000000000 : W64) &&& 0x7FFFFFFFFF800000 = 0 ∧ bits 0x8000000000000000 22 20 < 6) ∧
    ((readGroup (grouped 2 0 7 []) 0x40).valid = true ∧ (readGroup (grouped 2 0 7 []) 0x40).sound = true ∧ (readGroup (grouped 2 0 7 []) 0x40).members < 3072) ∧
    (memberOf (grouped 2 0 7 [m0 1 none]).me 0x40 = some (m0 1 none) ∧ (m0 1 none).gen = (readGroup (grouped 2 0 7 [m0 1 none]) 0x40).gen ∧
      (readGroup (grouped 2 0 7 [m0 1 none]) 0x40).arrived + 1 < (readGroup (grouped 2 0 7 [m0 1 none]) 0x40).members) ∧
    (memberOf (grouped 2 1 7 [m0 1 (some 6)]).me 0x40 = some (m0 1 (some 6)) ∧ (some 6 : Option (BitVec 32)) ≠ some (readGroup (grouped 2 1 7 [m0 1 (some 6)]) 0x40).epoch ∧
      (readGroup (grouped 2 1 7 [m0 1 (some 6)]) 0x40).arrived + 1 = (readGroup (grouped 2 1 7 [m0 1 (some 6)]) 0x40).members ∧
      coreOf (grouped 2 1 7 [m0 1 (some 6)]).cur % (readGroup (grouped 2 1 7 [m0 1 (some 6)]) 0x40).phases = 0) ∧
    (memberOf (grouped 2 1 7 []).me 0x40 = none ∧ (readGroup one 0x40).valid = false ∧ (readGroup (grouped 1 2 7 [m0 1 none]) 0x40).sound = false ∧
      (m0 2 none).gen ≠ (readGroup (grouped 2 1 7 [m0 2 none]) 0x40).gen) ∧
    (m0 1 (some 7)).arrived = some (readGroup (grouped 2 1 7 [m0 1 (some 7)]) 0x40).epoch := by
  decide +kernel

/-- BarrierInstructions: `bwait` of an episode that has ended and of the one in progress; a waiter that is ready and one in its phase delay. -/
theorem witness_barriers : (Reads one 9 ∧ (grouped 2 0 3 [m0 1 none]).me.wait = .none ∧ bits ((grouped 2 0 3 [m0 1 none]).val 9) 31 0 = (readGroup (grouped 2 0 3 [m0 1 none]) 0x40).epoch.toNat ∧
      bits ((grouped 2 0 7 [m0 1 none]).val 9) 31 0 ≠ (readGroup (grouped 2 0 7 [m0 1 none]) 0x40).epoch.toNat) ∧
    (∃ chk, ObjectAt (withX (xp 0 (.ready 0x40 7))) g0 32 32 0x40 chk) ∧ (withX (xp 0 (.ready 0x40 7))).me.wait = .ready 0x40 7 ∧
    (((withX (xp 0 (.phase 0x40 1 7))).ctx 0).tlevel.toNat < 3 ∧ ((withX (xp 0 (.phase 0x40 1 7))).ctx 0).wait = .phase 0x40 1 7) := by
  simp only [g0, ObjectAt, Reads]
  exact ⟨by decide +kernel, ⟨true, by decide +kernel⟩, by decide +kernel, by decide +kernel⟩

/-- ChuteInstructions: ports 3 and 4, the boundary between the two ends; a free port and a bound one; an element popped ahead. -/
theorem witness_chute_instructions : (∀ s ∈ [{ chuted 0 0 1 with ctxs := [(0, { x0 with x := x0.x.set 5 0x100 })] }], ObjectAt s g0 8 8 0x100 true ∧ Unheld s 0x100 ∧ Unfenced s 0x100 8 ∧
      Unraced s 0x100 8 true true ∧ Unpoisoned s 0x100 8 ∧ chuteOk 0x100 (readW s 0x100) = true ∧ s.me.ports.toList.getD 3 none = none ∧ bit (readW s 0x100) 60 = true) ∧
    (∀ s ∈ [{ withX { x0 with x := x0.x.set 5 0x100 } with mem := [(0x100, 3)] }], ObjectAt s g0 8 8 0x100 true ∧ Unheld s 0x100 ∧ Unfenced s 0x100 8 ∧
      Unraced s 0x100 8 true true ∧ Unpoisoned s 0x100 8 ∧ chuteOk 0x100 (readW s 0x100) = true ∧ s.me.ports.toList.getD 4 none = none ∧ bit (readW s 0x100) 60 = false ∧
      bit (readW s 0x100) 61 = false) ∧
    ((chuted 0 0 1).me.ports[(4 : BitVec 3).toNat] = some 0x100 ∧ (chuted 0 0 1).me.ports[(3 : BitVec 3).toNat] = none ∧ Unheld (chuted 0 0 1) 0x100 ∧
      ∃ q ∈ (withX { xc with pend := [⟨8, 0, 0, 1⟩] }).me.pend, q.pops.getLsbD (0 : BitVec 3).toNat = true) := by
  simp only [g0, ObjectAt, Reads, Unheld, Unfenced, Unraced, Unpoisoned]
  decide +kernel

/-- A message of eight bytes on its way from core 0 to core 1. -/
def msg0 (h : W64) : Msg := ⟨1, 0, 1, 1, 0x80, [1, 2, 3, 4, 5, 6, 7, 8], h, 0⟩

/-- The part whose context sends from x8 = 0x100 to x10 (core 0 of the launch, offset 0x7FFF00) with handler x11. -/
def sending (n : Nat) : State := part { x0 with x := ((x0.x.set 8 0x100).set 10 0x7FFF00).set 11 0x3000 }
  { k0 with sends := List.replicate n (msg0 0) } { j0 with cores := [(0, 0)] }

/-- MessageInstructions: the longest payload up to the slice's end; seven and eight messages on their way; a core that the launch does not hold; each misalignment; a landing; a start. -/
theorem witness_messages : (∀ n ∈ [7, 8], ∀ s ∈ [sending n], Reads s 10 ∧ Reads s 11 ∧ Reads s 8 ∧ s.val 10 &&& 0xFFFF0000FF800000 = 0 ∧ bits (s.val 8) 22 0 % 8 = 0 ∧
      bits (s.val 10) 22 0 % 8 = 0 ∧ (s.val 11).toNat % 16 = 0 ∧ coreOfLogical s s.me.job (bits (s.val 10) 47 32) = some 0 ∧
      bits (s.val 10) 22 0 + Claims.sendLen 31 ≤ 2 ^ 23 ∧ Loads s (sliceKey (coreOf s.cur) (bits (s.val 8) 22 0)) (Claims.sendLen 31) true false ∧
      Unfenced s (sliceKey 0 (bits (s.val 10) 22 0)) (Claims.sendLen 31) ∧ Unheld s (sliceKey 0 (bits (s.val 10) 22 0)) ∧
      ((s.core (coreOf s.cur)).sends.filter fun m => m.ctx == s.cur).length = n) ∧
    (coreOfLogical one one.me.job 1 = none ∧ bits (one.val 9) 22 0 % 8 ≠ 0 ∧ (one.val 9).toNat % 16 ≠ 0 ∧ one.val 9 &&& 0xFFFF0000FF800000 = 0) ∧
    (∀ m ∈ [msg0 0, msg0 0x3000], ((part x0 { k0 with sends := [m] } j0).core 0).sends = [m] ∧ migratingTo (part x0 { k0 with sends := [m] } j0) 1 1 = false) ∧
    ((msg0 0).handler = 0 ∧ (msg0 0x3000).handler ≠ 0 ∧ 16 ≤ ({ k0 with arrivals := List.replicate 16 ⟨0, 0, 0, 0, 1, none⟩ } : Core).arrivals.length) ∧
    (∀ s ∈ [part x0 { k0 with arrivals := [⟨0x3000, 0, 0, 0, 1, none⟩] } j0], (s.die (0 / 128)).lost = false ∧ s.flows = [] ∧
      nextArrival s 0 = some ⟨0x3000, 0, 0, 0, 1, none⟩ ∧ dormant s 0 = some 3 ∧ handlerReady s 0 3 ⟨0x3000, 0, 0, 0, 1, none⟩ = true ∧ (s.ctx 3).job ≠ 1) := by
  simp only [Reads, Loads, Unheld, Unfenced, Unraced, Unpoisoned]
  exact ⟨by decide +kernel, by decide +kernel, by decide +kernel, by decide +kernel, by decide +kernel⟩

/-- The context waiting in a request to the launch unit, with a graph of function 0 or 1 defined, or none, and its job cancelled or not. -/
def asking (r : LaunchReq) (gs : List (Nat × Graph)) (c : Bool) : State := { part (xp 0 (.launch r)) k0 { j0 with cancelled := c } with graphs := gs }

/-- A graph of a function. -/
def graph0 (fn : Nat) : List (Nat × Graph) := [(4095, { defined := true, fn })]

/-- LaunchUnitTraffic: a request before it is put, while it waits, and with each answer; a misaligned card; graph 4095; each answer of the launch unit. -/
theorem witness_launch_unit : (Reads one 9 ∧ bits (one.val 9) 22 0 % 64 ≠ 0 ∧ Reads one 5 ∧ bits (one.val 5) 22 0 % 64 = 0 ∧ Unfenced one 0x40 192 ∧ Unheld one 0x40 ∧ Writes one 8 ∧
      (one.val 9).toNat < 4096 ∧ one.me.wait = .none) ∧
    (∀ w ∈ [Wait.launch (.card 0x40), .answered (.value 0), .answered .cancelled, .answered .rights], (withX (xp 0 w)).me.wait = w) ∧
    (∀ r ∈ [LaunchReq.gpget 4095 15, .gpset 4095 15 1, .grepl 4095, .card 0x40], ∀ gs ∈ [[], graph0 0, graph0 1], ∀ c, ((asking r gs c).ctx 0).waits[0] = .launch r ∧
      ((asking r gs c).ctx 0).tlevel = 0 ∧ ((asking r gs c).ctx 0).waits[1] = .none ∧ ((asking r gs c).ctx 0).waits[2] = .none) ∧
    (((asking (.grepl 4095) [] false).graph 4095).defined = false ∧ ((asking (.grepl 4095) (graph0 0) false).graph 4095).fn = ((asking (.grepl 4095) (graph0 0) false).job 1).fn ∧
      ((asking (.grepl 4095) (graph0 1) false).graph 4095).fn ≠ ((asking (.grepl 4095) (graph0 1) false).job 1).fn) ∧
    cardOk (localCard (asking (.card 0x40) [] false) 0 0x40) = false := by
  simp only [Reads, Writes, Unheld, Unfenced]
  exact ⟨by decide +kernel, by decide +kernel, by decide +kernel, by decide +kernel, by decide +kernel⟩

/-- The part with a child job 3 of job 1 in this state. -/
def parent (fin : Nat) (c : Bool) : State := { one with jobs := [(1, j0), (3, { parent := 1, fin, cancelled := c })] }

/-- JobInstructions: a child that runs, that has ended and that is cancelled; no child; job 0; an id of 33 bits. -/
theorem witness_jobs : (Reads one 9 ∧ Writes one 8 ∧ isChild one one.me.job 3 = false ∧ (one.val 9).toNat = 3 ∧ (one.val 0).toNat = 0) ∧ (Reads one 6 ∧ 2 ^ 32 ≤ (one.val 6).toNat) ∧
    (∀ f ∈ [0, 1, 2], ∀ c, isChild (parent f c) (parent f c).me.job 3 = true ∧ ((parent f c).job 3).fin = f ∧ ((parent f c).job 3).cancelled = c) ∧
    Writes (cancelJob (parent 0 false) 3) 8 := by
  simp only [Reads, Writes]
  decide +kernel

/-- The part whose unit is a role triple, with registers for the engines: x8 = 0x400, x10 and x11 descriptors of the slice, x12 a count of two, x14 a region. -/
def engines : State := part { x0 with x := (((((x0.x.set 8 0x400).set 10 0x1000400).set 11 0x17FFFF8).set 12 2).set 13 0x400).set 14 0x1000800 }
  { units := #v[some { u0 with triple := true }, none, none] } j0

/-- The same with sixteen commands in a queue. -/
def crowded (q : Fin 5) : State := part engines.me
  { (engines.core 0) with qs := (Vector.replicate 5 []).set q.val (List.replicate 16 { instr := .nop, q := q.val, num := 1, ctx := 0, job := 1, lcore := 0, set := 0 }) } j0

/-- Every command: a queue with room, one that is full, and an arrival register that names no object, or one. -/
theorem witness_queues : (∀ q : Fin 5, (engines.core (coreOf engines.cur)).used q.val < 16 ∧ 16 ≤ ((crowded q).core (coreOf (crowded q).cur)).used q.val) ∧
    Claims.arrival engines 0 = none ∧ (Claims.arrival (withX { x0 with arv := Vector.replicate 5 0x80000040 }) 4).isSome = true := by
  decide +kernel

/-- A descriptor pair of rows of 384 bytes from 0x400: 64 of them, and 192. -/
def pair0 (n : Nat) : W64 × W64 := (w64 (0x400 + 384 * 2 ^ 24), w64 (n * 2 ^ 24))

/-- The part whose x20 and x21, x22 and x23 hold descriptor pairs of n rows. -/
def paired (n : Nat) : State := part { x0 with x := ((((x0.x.set 20 (pair0 n).1).set 21 (pair0 n).2).set 22 (pair0 n).1).set 23 (pair0 n).2).set 8 0x7F0000 }
  { units := #v[some { u0 with triple := true }, none, none] } { j0 with cores := (List.range 8).map fun i => (i, i) }

/-- MatrixCommands: a unit that owns the array and one that does not; offsets up to the slice's end; pairs of 64 and of 192 rows; a profile that exists. -/
theorem witness_matrix : Claims.Owns engines ∧ Claims.Owns (paired 64) ∧ ¬ Claims.Owns one ∧
    (Reads (paired 64) 8 ∧ ((paired 64).val 8).toNat % 64 = 0 ∧ ((paired 64).val 8).toNat + 65536 ≤ 2 ^ 23 ∧ ((paired 64).val 8).toNat + 384 ≤ 2 ^ 23) ∧
    (Claims.mmaA (ef 20 22 0 0xA000) = true ∧ Claims.mmaB (ef 20 22 0 0xA000) = true ∧ Reads (paired 64) 20 ∧ Reads (paired 64) 21 ∧ Reads (paired 64) 22 ∧ Reads (paired 64) 23 ∧
      1 ≤ bits ((paired 64).val 21) 31 24 ∧ bits ((paired 64).val 21) 31 24 ≤ 64 ∧
      Claims.PairOk ((paired 64).val 20) ((paired 64).val 21) (bits ((paired 64).val 21) 31 24) (keff (mmaSp (ef 20 22 0 0xA000))) ∧
      Claims.PairOk ((paired 64).val 22) ((paired 64).val 23) 192 (rowB (mmaFmt (ef 20 22 0 0xA000)))) ∧
    (Claims.mmaA (ef 0 1 0 0) = false ∧ Claims.mmaB (ef 0 1 0 0) = false ∧
      profOk ((paired 64).job (paired 64).me.job) (min 15 ((paired 64).me.prof.toNat + profOff (paired 64) ((paired 64).job (paired 64).me.job))) = true) ∧
    (bits ((paired 64).val 21) 31 24 * zLen (ef 20 0 0 0) ≤ 12288 ∧ Claims.PairOk ((paired 64).val 20) ((paired 64).val 21) (bits ((paired 64).val 21) 31 24) (zLen (ef 20 0 0 0))) ∧
    (bits ((paired 192).val 21) 31 24 = 192 ∧ Claims.PairOk ((paired 192).val 20) ((paired 192).val 21) 192 128) := by
  refine ⟨⟨0, { u0 with triple := true }, by decide +kernel⟩, ⟨0, { u0 with triple := true }, by decide +kernel⟩, ?_, ?_⟩
  · rintro ⟨l, u, h, ho⟩
    obtain ⟨rfl, rfl⟩ : 0 = l ∧ u0 = u := by simpa using (by decide +kernel : unitOf one one.cur = some (0, u0)).symm.trans h
    exact absurd ho (by decide)
  · simp only [Reads, Claims.PairOk]
    decide +kernel

/-- MatrixCommands: `rrot` on a cluster whose eight cores the job holds. -/
theorem witness_rrot : ∀ s ∈ [{ paired 64 with cores := (List.range 8).map fun i => (i, { units := #v[some { u0 with triple := true, lcore := i }, none, none] }) }],
    mxHeld s s.me.job (clusterOf s.cur) = 255 ∧ (s.val 8).toNat + rrotLen (ef 8 5 0 0) ≤ 2 ^ 23 ∧ (s.val 5).toNat + rrotLen (ef 8 5 0 0) ≤ 2 ^ 23 := by
  decide +kernel

/-- V-format fields with the registers of `engines`. -/
def ve (d a b : Reg) : VArgs := ⟨d, a, b, 12, 7, 0, 0, 0, 0⟩

/-- The limits hold where every condition of the lists does, at the values that the registers hold. -/
theorem limits_ok {s : State} {v : VArgs} {f : VForm} (d a b n m : W64)
    (hr : Claims.VReads s f.d v.d ∧ Claims.VReads s f.a v.a ∧ Claims.VReads s f.b v.b ∧ (f.count = true → Reads s v.n) ∧ (v.m = 0 ∨ Reads s v.m))
    (hv : Claims.vvals s v f = [d, a, b, n, m])
    (h : ((vLims f d a b n m (v.m != 0)).ef ++ (vLims f d a b n m (v.m != 0)).mis ++ (vLims f d a b n m (v.m != 0)).lb).all (·.1) = true) :
    Claims.VOk s v f := by
  obtain ⟨h1, h2, h3, h4, h5⟩ := hr
  simp only [Claims.vvals, List.cons.injEq, and_true] at hv
  obtain ⟨rfl, rfl, rfl, rfl, rfl⟩ := hv
  simp only [List.all_append, Bool.and_eq_true, List.all_eq_true] at h
  exact ⟨h1, h2, h3, h4, h5, h.1.1, h.1.2, h.2⟩

/-- VectorCommandsAndLimits: operands of every form that meet its limits, up to the last element of the slice; with a mask. -/
theorem witness_vectors : Claims.VOk engines (ve 10 11 14) (formBin (ve 10 11 14)) ∧ Claims.VOk engines { ve 10 11 14 with m := 13 } (formBin (ve 10 11 14)) ∧
    Claims.VOk engines (ve 10 11 0) (formUn (ve 10 11 0)) ∧ Claims.VOk engines (ve 13 11 14) (formCmp (ve 13 11 14)) ∧
    Claims.VOk engines (ve 10 11 0) (formCvt (ve 10 11 0)) ∧ Claims.VOk engines (ve 10 11 0) (formRed (ve 10 11 0)) ∧
    Claims.VOk engines (ve 10 11 14) (formPerm (ve 10 11 14)) ∧ Claims.VOk engines (ve 10 11 9) (formShuf (ve 10 11 9)) ∧
    Claims.VOk engines (ve 0 5 0) formTab ∧ Claims.VOk engines (ve 10 0 6) (formFill (ve 10 0 6)) ∧
    Claims.VOk engines (ve 10 6 9) (formSts (ve 10 6 9)) ∧ Claims.VOk engines (ve 10 7 5) (formEpi (ve 10 7 5)) ∧
    Claims.VOk engines (ve 8 10 9) (formLds (ve 8 10 9)) := by
  refine ⟨?_, ?_, ?_, ?_, ?_, ?_, ?_, ?_, ?_, ?_, ?_, ?_, ?_⟩ <;>
    refine limits_ok _ _ _ _ _ (by simp only [Claims.VReads, Reads]; decide +kernel) (by simp only [Claims.vvals, Claims.vval]; rfl) ?_ <;> decide +kernel

/-- VectorCommandsAndLimits: `vlds` before its command, while it runs, and when its value stands. -/
theorem witness_vlds : engines.me.tlevel.toNat < 3 ∧ engines.me.wait = .none ∧ Writes engines 8 ∧ (withX (xp 0 (.vldsDone 1 7))).me.wait = .vldsDone 1 7 ∧
    ((withX (xp 0 (.vldsDone 1 7))).core 0).cmd 2 1 = none ∧
    (∀ s ∈ [part (xp 0 (.vlds 1)) ((crowded 2).core 0) j0], s.me.wait = .vlds 1 ∧ ((s.core (coreOf s.cur)).cmd 2 1).isSome = true ∧
      ((s.core (coreOf s.cur)).cmd 2 1).map (·.phase) ≠ some .finished) := by
  simp only [Writes]
  decide +kernel

/-- VectorCommandsAndLimits: a first failing limit in each class. -/
theorem witness_limits : (∀ p ∈ [(true, (0 : W64))], p.1 = true) ∧ ({ ef := [(true, 0), (false, 1)] } : Lims).ef = [(true, 0)] ++ (false, 1) :: [] ∧
    ({ mis := [(false, 1)] } : Lims).mis = [] ++ (false, 1) :: [] ∧ ({ lb := [(false, 1)] } : Lims).lb = [] ++ (false, 1) :: [] := by
  refine ⟨?_, rfl, rfl, rfl⟩
  simp

/-- The context with a KV entry, a VM entry that is mirrored and one of the network besides, and x8 = 0x400, x10 = 0x480. -/
def xk : Ctx := { xy with
  view := ((xy.view.set 4 { lay 3 0x1000 4 8 with w1 := 0x1300040103 }).set 5 (lay 5 0 4 8)).set 6 { lay 3 0x1000 4 8 with w1 := 0x100040103 }
  x := (xy.x.set 8 0x400).set 10 0x480 }

/-- Two copy descriptors of one dimension, of entries L(l) and L(l2): n elements from the origin and the local side at 0x200 + b. -/
def copying (l l2 n b : Byte) : State := { withX xk with mem :=
  [(0x418, n), (0x430, b), (0x431, 2), (0x436, l), (0x498, 8), (0x4B6, l2)].filter (·.2 != 0) }

/-- The descriptor that the register v of `copying` names. -/
def boxAt (s : State) (v : W64) : Box := ⟨entryOf s 0 (bits ((readWs s v.toNat 8).getD 6 0) 53 48), readWs s v.toNat 8⟩

/-- The descriptor is read: whatever its fields. -/
theorem witness_boxes : ∀ s ∈ [copying 50 50 8 0, copying 50 50 9 0, copying 50 50 0 0, copying 50 50 8 1, copying 54 50 8 0, copying 51 50 8 0, copying 52 50 8 0],
    Reads s 8 ∧ Reads s 5 ∧ Claims.BoxAt s (s.val 8) (boxAt s 0x400) (s.loaded 0x400 64 true false) := by
  intro s hs
  simp only [Reads, Claims.BoxAt, Loads, Unheld, Unfenced, Unraced, Unpoisoned]
  refine ⟨by revert s; decide +kernel, by revert s; decide +kernel, by revert s; decide +kernel, by revert s; decide +kernel, ?_, by revert s; decide +kernel, by revert s; decide +kernel⟩
  have h : sliceKey (coreOf s.cur) ((s.val 8).toNat % 2 ^ 23) = 0x400 := by revert s; decide +kernel
  rw [h]

/-- CopyCommandsAndLimits: the last element of an entry and one past it, an empty box, a misaligned local side, and an entry without the right; the tests of `cred`, `cmirror`,
`cgather` and `cpx`. -/
theorem witness_copies : (boxBad (boxAt (copying 50 50 8 0) 0x400) true = none ∧ boxMis (boxAt (copying 50 50 8 0) 0x400) false = none ∧
      boxPast (boxAt (copying 50 50 8 0) 0x400) true none = none ∧ Claims.Allows (boxAt (copying 50 50 8 0) 0x400) true true (fun sp => sp = 3)) ∧
    (boxPast (boxAt (copying 50 50 9 0) 0x400) true none = some 9 ∧ boxBad (boxAt (copying 50 50 0 0) 0x400) true = some 0 ∧
      boxMis (boxAt (copying 50 50 8 1) 0x400) false = some 0x201 ∧ (boxAt (copying 54 50 8 0) 0x400).e.wr = false) ∧
    ((boxAt (copying 51 50 8 0) 0x400).e.fmt = 3 ∧ (boxAt (copying 51 50 8 0) 0x400).e.space ≤ 3 ∧ (boxAt (copying 52 50 8 0) 0x400).e.mir = true ∧
      (bits (0x7FFFE0 : W64) 63 23 = 0 ∧ (0x7FFFE0 : W64).toNat % 4 = 0 ∧ (0x7FFFE0 : W64).toNat + 4 * 8 ≤ 2 ^ 23) ∧ cpSel (ef 8 5 0 0) < (boxAt (copying 50 50 8 0) 0x400).rank ∧
      (boxAt (copying 50 50 8 0) 0x400).org (cpSel (ef 8 5 0 0)) = 0) ∧
    (∀ s ∈ [copying 50 53 8 0], (boxAt s 0x480).e.space = 5 ∧ (boxAt s 0x480).lbase = 0 ∧ (boxAt s 0x480).lpitch = 0 ∧ (boxAt s 0x480).haddr = 0 ∧ boxBad (boxAt s 0x480) false = none ∧
      (boxAt s 0x480).n = 8 ∧ (boxAt s 0x480).e.es = 8 ∧ boxPast (boxAt s 0x480) false none = none ∧ (boxAt s 0x480).e.valid = true ∧ (boxAt s 0x480).e.wr = true) := by
  simp only [Claims.Allows]
  decide +kernel

/-- CopyCommandsAndLimits: `cmirror` of a job of a mirrored stream. -/
theorem witness_mirror : ∀ s ∈ [{ copying 52 50 8 0 with jobs := [(1, { j0 with card := 0x400000 :: List.replicate 16 0 ++ [5] })], streams := [(5, { desc := [0x80000000000000] })] }],
    (s.job s.me.job).strm = true ∧ bit ((s.stream (bits ((s.job s.me.job).w 17) 12 0)).desc.getD 0 0) 55 = true := by
  decide +kernel

/-- CopyCommandsAndLimits: `cmsg` of 512 KiB to a core that the launch holds, and to one that it does not. -/
theorem witness_cmsg : 8 * (bits (0xFFFF00780000 : W64) 47 32 + 1) = 0x80000 ∧ bits (0xFFFF00780000 : W64) 63 48 = 0 ∧ bits (0xFFFF00780000 : W64) 31 23 = 0 ∧
    bits (0x780000 : W64) 63 48 = 0 ∧ bits (0x780000 : W64) 31 23 = 0 ∧ bits (0xFFFF00780000 : W64) 22 0 % 8 = 0 ∧ bits (0x780000 : W64) 22 0 % 8 = 0 ∧ (0x3000 : W64).toNat % 16 = 0 ∧
    bits (0xFFFF00780000 : W64) 22 0 + 0x80000 ≤ 2 ^ 23 ∧ bits (0x780000 : W64) 22 0 + 0x80000 ≤ 2 ^ 23 ∧ coreOfLogical one one.me.job (bits (0x780000 : W64) 47 32) = some 0 ∧
    coreOfLogical one one.me.job 1 = none := by
  decide +kernel

/-- GenerationCommands: handles at the top of their fields and with a reserved bit; the last entry and one past it; counts at the ends of their ranges; offsets up to the slice's
end, and misaligned. -/
theorem witness_generation : Reads engines 5 ∧ Reads engines 8 ∧ Reads engines 9 ∧
    ((0xFFFF07FF : W64).toNat < 2 ^ 32 ∧ bits (0xFFFF07FF : W64) 15 11 = 0 ∧ (0xFFFFFFFF07FF : W64).toNat < 2 ^ 48 ∧ bits (0xFFFFFFFF07FF : W64) 15 11 = 0) ∧
    (¬ ((0x100000000 : W64).toNat < 2 ^ 32) ∧ bits (0x800 : W64) 15 11 ≠ 0 ∧ ¬ ((0x1000000000000 : W64).toNat < 2 ^ 48)) ∧
    ((63 : W64).toNat < 64 ∧ 64 ≤ (64 : W64).toNat ∧ (0x7FFFF8 : W64).toNat % 8 = 0 ∧ (0x7FFFF8 : W64).toNat + 8 ≤ 2 ^ 23 ∧ (3 : W64).toNat % 8 ≠ 0) ∧
    ((0x7FC000 : W64).toNat % 4 = 0 ∧ (0x7FC000 : W64).toNat + 4 * (4096 : W64).toNat ≤ 2 ^ 23 ∧ 1 ≤ (4096 : W64).toNat ∧ 4096 < (4097 : W64).toNat ∧ (0 : W64).toNat < 1) ∧
    ((0x300FF : W64) &&& ~~~ 0x300FF = 0 ∧ bits (0x300FF : W64) 7 0 ≠ 0 ∧ (0x7FEFC0 : W64).toNat % 64 = 0 ∧ (0x7FEFC0 : W64).toNat + (32 + 16 * bits (0x300FF : W64) 7 0) ≤ 2 ^ 23) ∧
    ((0xFFFF00000000 : W64) &&& ~~~ 0x0000FFFF007FFFFF = 0 ∧ bits (0xFFFF00000000 : W64) 22 0 + 2 * bits (0xFFFF00000000 : W64) 47 32 ≤ 2 ^ 23 ∧ 1 ≤ (1024 : W64).toNat ∧
      (1024 : W64).toNat ≤ 1024) := by
  simp only [Reads]
  decide +kernel

/-- A command of context 0 in queue q, in a phase, with one unit of work, and its token bits. -/
def cmd0 (i : Instr) (q : Nat) (ph : CmdPhase) (tok : BitVec 4) : Cmd :=
  { instr := i, q, num := 1, ctx := 0, job := 1, lcore := 0, set := 0, tok, phase := ph, total := 1, started := decide (ph ≠ .queued) }

/-- A core with these commands in its queues, its token FIFOs holding n each. -/
def coreOfCmds (cs : List Cmd) (n : Nat) : Core :=
  { units := #v[some { u0 with triple := true }, none, none], tok := Vector.replicate 6 (Vector.replicate 8 n)
    qs := Vector.ofFn fun q => cs.filter fun c => c.q == q.val }

/-- The part whose core 0 has them. -/
def running (cs : List Cmd) (n : Nat) : State := part engines.me (coreOfCmds cs n) j0

/-- A command that has done its work. -/
def worked (i : Instr) (q : Nat) : Cmd := { cmd0 i q .running 0 with done := 1 }

/-- The end of a command: FIFOs with room, and full ones; an arrival that a paddock keeps off; one that is made, and one whose context is no member. -/
theorem witness_ends : (fullFifos ((running [] 7).core 0) (cmd0 .nop 1 .running 0xF) = 0 ∧ fullFifos ((running [] 8).core 0) (cmd0 .nop 1 .running 0xF) = 3 ∧
      neverFails (.cpref (ef 1 0 0 0)) = true ∧ neverFails .nop = false) ∧
    (paddockHit fenced (keyCore 0x10000) (keyOff 0x10000) 32 1 = true ∧ paddockHit fenced (keyCore 0xFFE0) (keyOff 0xFFE0) 32 1 = false) ∧
    (∃ w, arriveAt (grouped 2 0 7 [m0 1 none]) 0 0x40 1 = .ok w) ∧ (∃ v, arriveAt (grouped 2 0 7 []) 0 0x40 1 = .error v) ∧
    (∃ v, arriveAt (grouped 2 1 7 [m0 1 (some 7)]) 0 0x40 1 = .error v) := by
  refine ⟨by decide +kernel, by decide +kernel, ⟨_, rfl⟩, ⟨_, rfl⟩, ⟨_, rfl⟩⟩

/-- CommandCompletions: a matrix command of the tile port and one of the array; a vector command; a copy command, one of a cancelled job; a generation command, one of a cancelled job
that waits; each before and after its work. -/
theorem witness_completions :
    (∀ i ∈ [Instr.zclrE (ef 0 0 0 0), .mma (ef 0 0 0 0), .acmvSt (ef 5 0 0 2)], ((running [worked i 1] 0).core 0).cmd 1 1 = some (worked i 1) ∧
      (worked i 1).started = true ∧ (worked i 1).total ≤ (worked i 1).done ∧ (cmd0 i 1 .running 0).done < (cmd0 i 1 .running 0).total) ∧
    (onArray (.zclrE (ef 0 0 0 0)) = false ∧ onArray (.mma (ef 0 0 0 0)) = true ∧ mxHead (running [worked (.mma (ef 0 0 0 0)) 1] 0) 0 = none) ∧
    (∀ ph ∈ [CmdPhase.queued, .running], headCmd ((running [cmd0 (.vadd (ve 10 11 14)) 2 ph 0] 0).core 0) 2 = some (cmd0 (.vadd (ve 10 11 14)) 2 ph 0)) ∧
    (∀ q ∈ [0, 3], ∀ b ∈ [true, false], headCmd ((running [{ worked (.cpin (ef 1 0 0 0)) q with done := if b then 1 else 0 }] 0).core 0) q =
        some { worked (.cpin (ef 1 0 0 0)) q with done := if b then 1 else 0 } ∧ ({ worked (.cpin (ef 1 0 0 0)) q with done := if b then 1 else 0 } : Cmd).busy = !b) ∧
    (∀ ph ∈ [CmdPhase.queued, .running, .waiting], headCmd ((running [cmd0 (.ctrClose (ef 1 0 0 0)) 4 ph 0] 0).core 0) 4 = some (cmd0 (.ctrClose (ef 1 0 0 0)) 4 ph 0)) ∧
    ({ running [cmd0 (.ctrClose (ef 1 0 0 0)) 4 .waiting 0] 0 with jobs := [(1, { j0 with cancelled := true })] }.job 1).cancelled = true := by
  decide +kernel

/-- CommandCompletions: a message's handler whose arrival enters a queue of fifteen, and waits at one of sixteen; tokens that pop and push; commands that drain. -/
theorem witness_completion_effects :
    (∀ c ∈ [{ worked (.cmsg (ef 1 2 3 0)) 3 with vals := [0, 0x80, 0x3000, 0] }], cpHandler (running [c] 0) 0 c = some (0, ⟨0x3000, 0x80, 8, 0, 1, none⟩) ∧
      (enterArrival { running [c] 0 with cores := [(0, { arrivals := List.replicate 15 ⟨0, 0, 0, 0, 1, none⟩ })] } 0 ⟨0x3000, 0x80, 8, 0, 1, none⟩).isSome = true ∧
      enterArrival { running [c] 0 with cores := [(0, { arrivals := List.replicate 16 ⟨0, 0, 0, 0, 1, none⟩ })] } 0 ⟨0x3000, 0x80, 8, 0, 1, none⟩ = none) ∧
    (cpHandler (running [] 0) 0 (worked (.cpin (ef 1 0 0 0)) 0) = none) ∧
    (∀ q ∈ [0, 3], 0 < tokens (coreOfCmds [] 1) 5 ((q + 3) % 4) ∧ 0 < tokens (coreOfCmds [] 1) 5 (4 + q) ∧ tokens (coreOfCmds [] 7) 5 (4 + q) < 8) ∧
    (∀ x ∈ [cmd0 .nop 1 .finished 0], x.phase = .finished) ∧ (cmd0 .nop 1 .failed 0).phase ≠ .finished := by
  decide +kernel

/-- A vector command with operands captured. -/
def vcmd (i : Instr) (vals : List W64) : Cmd := { cmd0 i 2 .queued 0 with vals, total := 2 }

/-- VectorStarts: no command; one that waits for a token, one that is ready, and one retried for its tokens alone; a plan, a start test that fails, and a tile with an error. -/
theorem witness_vector_starts : vxNext (running [] 0) 0 = none ∧
    (∀ c ∈ [{ vcmd (.vadd (ve 10 11 14)) [0x1000400, 0x1000800, 0x1000C00, 2, 0] with tok := 8 }], vxNext (running [c] 0) 0 = some c ∧ vxReady (running [c] 0) 0 c = false ∧
      vxReady (running [c] 1) 0 c = true) ∧
    (∀ c ∈ [{ vcmd (.vadd (ve 10 11 14)) [0x1000400, 0x1000800, 0x1000C00, 2, 0] with rest := .push }], vxNext (running [c] 0) 0 = some c ∧ vxReady (running [c] 0) 0 c = true ∧ c.rest ≠ .all) ∧
    (∀ c ∈ [vcmd (.vadd (ve 10 11 14)) [0x1000400, 0x1000800, 0x1000C00, 2, 0]], ∃ p, vPlan (Claims.popped (running [c] 0) 0 c) 0 (Claims.begun c) = .ok p ∧
      startTests (Claims.popped (running [c] 0) 0 c) 0 { Claims.begun c with foot := p.2.2, wr := p.2.1 } p.2.2 true = none ∧
      (startTests { Claims.popped (running [c] 0) 0 c with poison := [32] } 0 { Claims.begun c with foot := p.2.2, wr := p.2.1 } p.2.2 true).isSome = true) := by
  refine ⟨by decide +kernel, by decide +kernel, by decide +kernel, ?_⟩
  simp only [List.forall_mem_cons, List.not_mem_nil, false_implies, implies_true, and_true]
  exact ⟨_, rfl, by decide +kernel, by decide +kernel⟩

/-- VectorStarts: a table image with a reserved byte, and a `vepi` that releases a tile, with and without an error in it. -/
theorem witness_vector_plans : (∃ f v, vPlan { running [] 0 with mem := [(0x54, 1)] } 0 { vcmd (.vtab ⟨0, 5, 0, 0, 0, 0, 0, 0, 0⟩) [0, 0x40, 0, 0, 0] with total := 1 } = .error (f, v)) ∧
    ∃ p, vPlan (running [] 0) 0 { vcmd (.vepi { ve 10 7 5 with var := 1 }) [0x1000400, 0, 0x40, 0, 0] with total := 1 } = .ok p ∧
      (∃ k ∈ p.2.1, ({ badTiles := [8] } : Core).badTiles.contains k = true) ∧ ¬ ∃ k ∈ p.2.1, ({} : Core).badTiles.contains k = true := by
  refine ⟨⟨_, _, rfl⟩, _, rfl, by decide +kernel, by decide +kernel⟩

/-- A matrix command that waits. -/
def mcmd (i : Instr) : Cmd := cmd0 i 1 .queued 0

/-- A core with a matrix command, its array in this state, and a configuration of one step in cmode 1. -/
def arrayed (c : Cmd) (a : Nat) : Core :=
  { coreOfCmds [c] 1 with array := a, mx := { z := Vector.replicate 8 { full := true }, shadow := [(0, 0x100008), (17, 0x0100000000000000), (21, 0x1000000000000000)] } }

/-- The part with it, its die's bucket holding b start tokens. -/
def started (c : Cmd) (a b : Nat) : State := { part engines.me (arrayed c a) j0 with dies := [(0, { bucket := b })] }

/-- MatrixStarts: no command; one of the tile port and one of the array that are ready, the array idle, in ballast or followed at once, with and without a start token; one that is not ready;
one retried for its tokens alone; an `rrot`; and a nest that waits for a tile and can go on, or cannot. -/
theorem witness_matrix_starts : (mxHead (running [] 0) 0 = none ∧ stalledNest (running [] 0) 0 = none) ∧
    (∀ i ∈ [Instr.zclrE (ef 0 0 0 0), .acz (ef 0 0 0 0), .mma (ef 0 1 0 0)], ∀ a ∈ [0, 1, 2], ∀ b ∈ [0, 1], mxHead (started (mcmd i) a b) 0 = some ([], mcmd i) ∧
      stalledNest (started (mcmd i) a b) 0 = none ∧ isRrot i = false ∧ mxReady (started (mcmd i) a b) 0 0 [] (mcmd i) = true ∧
      heldFoot (started (mcmd i) a b) (footNow (started (mcmd i) a b) 0 (mcmd i)) = false ∧ ((started (mcmd i) a b).core 0).array = a ∧
      ((started (mcmd i) a b).die (0 / 128)).bucket = b) ∧
    (mxReady (running [mcmd (.mma (ef 0 1 0 0))] 1) 0 0 [] (mcmd (.mma (ef 0 1 0 0))) = false ∧ isRrot (.rrotUp (ef 1 2 0 0)) = true ∧
      mxReady (started { mcmd (.mma (ef 0 0 0 0)) with rest := .push } 0 1) 0 0 [] { mcmd (.mma (ef 0 0 0 0)) with rest := .push } = true) ∧
    ∀ c ∈ [cmd0 (.mgo (ef 0 0 0 0)) 1 .running 0], stalledNest (started c 2 0) 0 = some c ∧ stopServing (started c 2 0) c = false ∧ ((started c 2 0).job c.job).cancelled = false ∧
      roomAcz ((started c 2 0).core 0).mx 0 = true ∧ roomWrite ((started c 2 0).core 0).mx 0 = true ∧
      roomWrite { acc := (Vector.replicate 8 [{}]).set 1 (List.replicate 12 { isOpen := true }) } 0 = false := by
  refine ⟨by decide +kernel, ?_, by decide +kernel, ?_⟩ <;> decide +kernel

/-- MatrixStarts: what a start meets: an error in a tile that it reads and none; a paddock and none; a configuration that serves, and one that does not. -/
theorem witness_matrix_runs :
    (Machine.badTile ({ badTiles := [1] } : Core) (mcmd (.mma (ef 0 1 0 0))) (touches {} (mcmd (.mma (ef 0 1 0 0)))).1 = some 1 ∧
      Machine.badTile ({} : Core) (mcmd (.mma (ef 0 1 0 0))) (touches {} (mcmd (.mma (ef 0 1 0 0)))).1 = none) ∧
    (∀ c ∈ [{ mcmd (.zld (ef 20 0 0 0)) with vals := [w64 (0x10000 + 384 * 2 ^ 24), w64 (2 ^ 24)] }], (startTests fenced 0 c (mxFoot 0 {} c none) true).isSome = true ∧
      startTests one 0 c (mxFoot 0 {} c none) true = none ∧ ∃ r fl, mxEffect one 0 0 c = .ok (r, fl)) ∧
    (∀ c ∈ [mcmd (.mgo (ef 0 0 0 0))], (planOf (takeConfig (started c 0 1) 0 c).1 0 (takeConfig (started c 0 1) 0 c).2).isSome = true ∧
      (planOf (takeConfig (running [c] 1) 0 c).1 0 (takeConfig (running [c] 1) 0 c).2).isSome = false) := by
  simp only [List.forall_mem_cons, List.not_mem_nil, false_implies, implies_true, and_true]
  refine ⟨by decide +kernel, ⟨by decide +kernel, by decide +kernel, _, _, rfl⟩, by decide +kernel, by decide +kernel⟩

/-- TileEffects: each instruction of the tile port, in a command. -/
theorem witness_tile_effects : ∀ i ∈ [Instr.mcfgr (ef 5 0 0 45), .mcfg (ef 5 0 0 0x3FF), .zclrE (ef 0 0 7 0), .zclrZ (ef 0 0 7 1), .zld (ef 20 0 7 0), .acz (ef 0 0 7 0), .acmvSt (ef 5 0 7 0)],
    ({ mcmd i with vals := [0x400, w64 (2 ^ 24)] } : Cmd).instr = i := by
  decide

/-- A copy command of one dimension of n elements from L50 to the slice, its descriptor captured. -/
def ccmd (i : Instr) (q : Nat) (ph : CmdPhase) (n : Nat) : Cmd :=
  { cmd0 i q ph 0 with vals := [0], ents := [lay 3 0x1000 4 8], desc := [0, 0, 0, w64 n, 0, 0, 0x32000000000200, 0], total := n }

/-- CopyPerformance: no command; one that is ready and one that waits for a token, behind four that perform, or on a lost die; `cpref`; one retried for its tokens alone; a race and none. -/
theorem witness_copy_starts : cpHead ((running [] 0).core 0) 0 = none ∧
    (∀ c ∈ [ccmd (.cpin (ef 8 5 0 0)) 0 .queued 8, { ccmd (.cpin (ef 8 5 0 0)) 0 .queued 8 with rest := .arrival }, ccmd (.cpref (ef 8 0 0 0)) 0 .queued 8],
      ∀ s ∈ [running [c] 0], cpHead (s.core 0) 0 = some c ∧ tokensReady (s.core 0) c = true ∧ stopServing s c = false ∧ (s.die (0 / 128)).lost = false ∧ cpPerforming (s.core 0) 0 < 4 ∧
        startRace s 0 c (cpFoot s 0 c) = none) ∧
    (tokensReady ((running [] 0).core 0) { ccmd (.cpin (ef 8 5 0 0)) 0 .queued 8 with tok := 8 } = false ∧
      cpPerforming ((running (List.replicate 4 (ccmd (.cpin (ef 8 5 0 0)) 0 .running 8)) 0).core 0) 0 = 4) ∧
    (∀ c ∈ [ccmd (.cpin (ef 8 5 0 0)) 0 .queued 8], (startRace { running [c] 0 with det := [(8, { writer := some ⟨8, 0, false, 0xFF⟩ })] } 0 { c with foot := cpFoot (running [c] 0) 0 c }
      (cpFoot (running [c] 0) 0 c)).isSome = true) := by
  decide +kernel

/-- MessageInstructions: an arrival for a handler context that last ran for another launch and whose command has not completed. -/
theorem witness_handler_waits : ∀ s ∈ [{ part x0 { coreOfCmds [{ mcmd (.zclrE (ef 0 0 0 0)) with ctx := 3 }] 0 with arrivals := [⟨0x3000, 0, 0, 0, 1, none⟩] } j0 with ctxs := [(0, x0), (3, { job := 2 })] }],
    nextArrival s 0 = some ⟨0x3000, 0, 0, 0, 1, none⟩ ∧ dormant s 0 = some 3 ∧ handlerReady s 0 3 ⟨0x3000, 0, 0, 0, 1, none⟩ = false := by
  decide +kernel

/-- A copy command that performs, its elements in the LOCAL entry L48 at `base`. -/
def lcmd (i : Instr) (q base : Nat) : Cmd := { ccmd i q .running 8 with ents := [lay 0 base 4 8], desc := [0, 0, 0, 8, 0, 0, 0x30000000000200, 0] }

/-- CopyPerformance: a command that is due, one that waits for the order of its queue, and one whose slice is held; elements that all pass, that a paddock stops, and that wait for a page. -/
theorem witness_sectors :
    (∀ c ∈ [lcmd (.cpin (ef 8 5 0 0)) 0 0x40], ∀ s ∈ [running [c] 0], (s.core 0).cmd 0 1 = some c ∧ c.busy = true ∧ stopServing s c = false ∧ (s.job c.job).cancelled = false ∧
      cpTurn (s.core 0) c = true ∧ heldFoot s c.foot = false ∧ waitingReq s (1 + 5 * 0 + c.q, c.num) = false ∧ (cpMain c).e.space ≠ 5 ∧ c.total ≤ c.done + min (cpSector c) (c.total - c.done)) ∧
    ((∀ c ∈ [lcmd (.cpin (ef 8 5 0 0)) 0 0x40], heldFoot { running [c] 0 with cores := [(0, { coreOfCmds [c] 0 with holder := some 1 })] } (cpFoot (running [c] 0) 0 c) = true) ∧
      ∀ c ∈ [{ lcmd (.cpin (ef 8 5 0 0x1000)) 0 0x40 with num := 2 }], cpTurn (coreOfCmds [lcmd (.cpin (ef 8 5 0 0x1000)) 0 0x40, c] 0) c = false) ∧
    (∃ ps u, sectorCheck 0 (lcmd (.cpin (ef 8 5 0 0)) 0 0x40) [0, 1] one = .ok (.ok ps, u)) ∧
    (∃ f v u, sectorCheck 0 (lcmd (.cpin (ef 8 5 0 0)) 0 0xFFF8) [0, 1] fenced = .ok (.error (.bad f v), u)) ∧
    ∃ u, sectorCheck 0 (ccmd (.cpin (ef 8 5 0 0)) 0 .running 8) [0, 1] missing = .ok (.error .miss, u) := by
  refine ⟨by decide +kernel, by decide +kernel, ⟨_, _, rfl⟩, ⟨_, _, _, rfl⟩, _, rfl⟩

/-- What a gather's run answers: the elements that wait, and those that failed. -/
def gathered (r : Except Stop ((List Nat × Cmd) × State)) : Option (List Nat × List Nat) :=
  match r with
  | .ok ((w, d), _) => some (w, d.pend)
  | .error _ => none

/-- A run with this answer. -/
theorem gathered_run {r : Except Stop ((List Nat × Cmd) × State)} {w p : List Nat} (h : gathered r = some (w, p)) :
    ∃ d u, r = .ok ((w, d), u) ∧ d.pend = p := by
  unfold gathered at h
  split at h
  · simp only [Option.some.injEq, Prod.mk.injEq] at h
    obtain ⟨rfl, rfl⟩ := h
    exact ⟨_, _, rfl, rfl⟩
  · cases h

/-- CopyPerformance: the elements of a gather that all pass, of one that wait, and of one that an index past the extent fails; and a message's payload with a paddock and without. -/
theorem witness_gathers :
    (∃ d u, gatherRun 0 [0, 1] [] (lcmd (.cgather (ef 8 5 0 0)) 0 0x40) one = .ok (([], d), u) ∧ d.pend = []) ∧
    (∃ d u, gatherRun 0 [0, 1] [] (lcmd (.cgather (ef 8 5 0 0)) 0 0x40) { one with mem := [(0, 9)] } = .ok (([], d), u) ∧ d.pend = [0]) ∧
    (∃ d u, gatherRun 0 [0, 1] [] (ccmd (.cgather (ef 8 5 0 0)) 0 .running 8) missing = .ok (([0, 1], d), u) ∧ d.pend = []) ∧
    ∀ c ∈ [{ cmd0 (.cmsg (ef 1 2 3 0)) 3 .running 0 with vals := [0, 0x10000, 0, 0] }], cpFoot one 0 c = [⟨0, 8, false, true, false⟩, ⟨0x10000, 8, true, true, false⟩] ∧
      migratingTo one c.job (c.vals.getD 3 0).toNat = false ∧ startPaddock one c (cpFoot one 0 c) = none ∧ (startPaddock fenced c (cpFoot one 0 c)).isSome = true :=
  ⟨gathered_run (by decide +kernel), gathered_run (by decide +kernel), gathered_run (by decide +kernel), by decide +kernel⟩

/-- A generation command. -/
def gcmd (i : Instr) (rest : Rest) : Cmd := { cmd0 i 4 .queued 0 with vals := [0x800, 0, 1], ents := [lay 3 0x1000 4 8], rest }

/-- GenerationStarts: no command; one retried for its arrival alone; one of `ctr` that can start, whose body fails; one of the sampler; the turn of a sampler that is free, and one that is
busy. -/
theorem witness_generation_starts : (headCmd ((running [] 0).core 0) 4 = none) ∧
    (∀ c ∈ [gcmd (.ctrClose (ef 1 0 0 0)) .arrival], headCmd ((running [c] 0).core 0) 4 = some c ∧ c.phase = .queued ∧ c.rest ≠ .all) ∧
    (∀ c ∈ [gcmd (.ctrClose (ef 1 0 0 0)) .all], headCmd ((running [c] 0).core 0) 4 = some c ∧ gxNext (running [c] 0) 0 = some c ∧ isSmp c.instr = false) ∧
    (∃ f v, gxBody 0 (gcmd (.ctrClose (ef 1 0 0 0)) .all) one = .error (.trap f v)) ∧
    (∀ c ∈ [gcmd (.smpRun (ef 1 2 0 0)) .all], gxNext (running [c] 0) 0 = some c ∧ isSmp c.instr = true ∧ samplerBusy (running [c] 0) 0 = false ∧
      samplerTurns { running [c] 0 with clusters := [(0, { smpLast := 0 })] } 0 = [1, 2, 3, 4, 5, 6, 7] ++ 0 :: [] ∧ ∀ i ∈ [1, 2, 3, 4, 5, 6, 7], gxNext (running [c] 0) i = none) ∧
    (samplerBusy (running [{ gcmd (.smpRun (ef 1 2 0 0)) .all with phase := .running, started := true }] 0) 0 = true) := by
  refine ⟨by decide +kernel, by decide +kernel, by decide +kernel, ⟨_, _, rfl⟩, by decide +kernel, by decide +kernel⟩

/-- An owner whose array runs a command, the next an `mgo` that may move, and the array of a sibling in this state. -/
def moving (a b : Nat) : State := { running [{ cmd0 (.mma (ef 0 0 1 0xA000)) 1 .running 0 with runner := none }, { mcmd (.mgo { ef 0 0 0 0 with rel := true }) with num := 2 }] 1 with
  cores := [(0, coreOfCmds [cmd0 (.mma (ef 0 0 1 0xA000)) 1 .running 0, { mcmd (.mgo { ef 0 0 0 0 with rel := true }) with num := 2 }] 1), (1, { array := a })], dies := [(0, { bucket := b })] }

/-- MatrixStarts: a sibling that may take the head, its array idle, in ballast or followed at once, with and without a start token; one further away, and no command. -/
theorem witness_relocates : (∀ a ∈ [0, 1, 2], ∀ b ∈ [0, 1], ∀ h ∈ [{ mcmd (.mgo { ef 0 0 0 0 with rel := true }) with num := 2 }],
      mxHead (moving a b) 0 = some ([cmd0 (.mma (ef 0 0 1 0xA000)) 1 .running 0], h) ∧ mayTake (moving a b) 0 1 h = true ∧
      mxReady (moving a b) 0 1 [cmd0 (.mma (ef 0 0 1 0xA000)) 1 .running 0] h = true ∧ heldFoot (moving a b) (footNow (moving a b) 0 h) = false ∧
      ((moving a b).core 1).array = a ∧ ((moving a b).die (1 / 128)).bucket = b ∧ mayTake (moving a b) 0 0 h = false) ∧
    (∀ i, i < 8 → i ≠ 1 → ¬ (ringDist 0 i < ringDist 0 1 ∨ ringDist 0 i = ringDist 0 1 ∧ i < 1) ∨ i = 0) ∧ mxHead (moving 0 0) 1 = none := by
  refine ⟨by decide +kernel, by decide +kernel, by decide +kernel⟩

/-- The cluster whose eight cores have these instructions at the heads of their matrix queues. -/
def ring8 (i : Nat → Instr) : State := { running [] 0 with
  cores := (List.range 8).map fun k => (k, coreOfCmds [{ mcmd (i k) with vals := [0x400, 0x800], ctx := 8 * k }] 0) }

/-- MatrixStarts: eight heads that are one `rrot`, that differ, and that do not all stand; what a held slice and a paddock keep back. -/
theorem witness_rotates :
    (∀ s ∈ [ring8 fun _ => .rrotUp (ef 8 9 0 0), ring8 fun k => if k = 7 then .rrotDn (ef 8 9 0 0) else .rrotUp (ef 8 9 0 0)], ∀ k ∈ List.range 8, ∃ h ∈ ((s.core k).queue 1).head?,
      mxHead s k = some ([], h) ∧ (Claims.ring h.instr).isSome = true ∧ h.rest = .all ∧ mxReady s k k [] h = true ∧ h.job = 1 ∧ h.nth = 0) ∧
    (Claims.ring (.rrotUp (ef 8 9 0 0)) ≠ Claims.ring (.rrotDn (ef 8 9 0 0))) ∧ mxHead (running [] 0) 0 = none ∧
    (∀ n ∈ [rrotLen (ef 8 9 0 0)], heldFoot (heldBy 1) [⟨0x400, n, false, true, false⟩, ⟨0x800800, n, true, true, false⟩] = true ∧
      heldFoot one [⟨0x400, n, false, true, false⟩, ⟨0x800800, n, true, true, false⟩] = false ∧
      startTests one 0 (mcmd (.rrotUp (ef 8 9 0 0))) [⟨0x400, 64, false, true, false⟩] true = none ∧
      (startTests fenced 0 (mcmd (.rrotUp (ef 8 9 0 0))) [⟨0x10000, 64, false, true, false⟩] true).isSome = true) := by
  refine ⟨by decide +kernel, by decide, by decide +kernel, by decide +kernel⟩

/-- A job with n records left, whose placement covers every core of die 0. -/
def jobOf (n : Nat) : Job := { j0 with rem := n, masks := [0xFFFF], card := [0, 0, 0, 2 * 2 ^ 48, 1000], entry := 0x4000 }

/-- The part with one free core and that job. -/
def free_ (j : Job) : State := { State.reset with cores := [(0, {})], jobs := [(1, j)] }

/-- UnitsAndLaunches: no job; a job whose unit starts; one with a saved unit; chunks of records left, of records that came back, and of none. -/
theorem witness_unit_starts : chooseJob State.reset 0 0 = none ∧ (chooseJob (free_ (jobOf 5)) 0 2 = some 1 ∧ resumable (free_ (jobOf 5)) 1 0 2 = none) ∧
    (∀ s ∈ [{ free_ (jobOf 0) with saved := [{ sv0 with suspended := false }] }], chooseJob s 0 2 = some 1 ∧ (resumable s 1 0 2).isSome = true) ∧
    ((jobOf 5).dealing = true ∧ (jobOf 5).returned = [] ∧ ({ jobOf 0 with returned := [(7, 3)] } : Job).dealing = true ∧ (jobOf 0).dealing = false) ∧
    ((takeChunk (setUnit (free_ (jobOf 5)) 0 2 (some { u0 with lcore := 0 })) 0 1).map fun o => (o.1, o.2.1)) = some (0, 5) := by
  decide +kernel

/-- UnitsAndLaunches: a unit that takes the next record of its chunk into the other buffer, one that does not, and none. -/
theorem witness_deposits : (∀ u ∈ [{ u0 with left := 1, tasks := 1 }], Claims.unit (part x0 { units := #v[some u, none, none] } j0) 0 0 = some u ∧ u.left ≠ 0 ∧ u.tasks ≠ 0 ∧
      u.deposited = none ∧ u.closing = false) ∧ Claims.unit one 0 0 = some u0 ∧ u0.left = 0 ∧ Claims.unit one 0 1 = none := by
  decide +kernel

/-- A unit for which a request stands, its contexts in this state. -/
def asked (r : Run) (forced : Bool) : State := part { x0 with run := r, iss := none } { units := #v[some { u0 with req := some 3, forced }, none, none] } (jobOf 0)

/-- PreemptionAndLimits: a request that may be made and one that may not; a unit whose contexts stand, with a request and without; one that is forced, and one that still runs; a unit that resumes. -/
theorem witness_preemption :
    (∀ s ∈ [{ asked .live false with jobs := [(1, jobOf 0), (4, { jobOf 1 with prio := 9, seq := 1, masks := [1] })], cores := (List.range 8).map fun i => (i, { units := Vector.replicate 3 (some u0) }) }],
      (unitAt s 0).isSome = true ∧ mayRequest s 0 1 = false ∧ mayRequest s 0 4 = true) ∧
    (unitOf one 9 = none) ∧
    (∀ s ∈ [asked .stopped false], unitOf s 0 = some (0, { u0 with req := some 3 }) ∧ (∀ c ∈ unitCtxs (coreOf 0) 0 { u0 with req := some 3 }, (s.ctx c).atPoint = true ∧ banked s c = false ∧
        (s.ctx c).before = none) ∧ stopsFor s (coreOf 0) 0 { u0 with req := some 3 } = true ∧ Machine.drained s (coreOf 0) (unitCtxs (coreOf 0) 0 { u0 with req := some 3 }) = true) ∧
    (stopsFor (asked .stopped false) (coreOf 0) 0 u0 = false ∧ (∀ c ∈ unitCtxs (coreOf 0) 0 u0, ((asked .live false).ctx c).atPoint = false)) ∧
    (∀ s ∈ [asked .stopped true], unitOf s 0 = some (0, { u0 with req := some 3, forced := true }) ∧ (s.ctx 0).atPoint = true ∧ (∀ w ∈ (s.ctx 0).waits.toList, w = .none) ∧
      ∀ q, q < 5 → (s.core 0).queue q = []) ∧
    (∀ s ∈ [{ free_ (jobOf 0) with saved := [{ sv0 with suspended := false }] }], (s.saved.find? fun v => v.handle == 0).isSome = true ∧ (s.saved.find? fun v => v.handle == 1) = none ∧
      moveTarget s { sv0 with suspended := false } = none ∧ (s.job sv0.unit.job).covers 0 = true ∧ laneFree s 0 2 false = true ∧ chooseJob s 0 2 = some 1) := by
  refine ⟨by decide +kernel, by decide +kernel, by decide +kernel, by decide +kernel, by decide +kernel, by decide +kernel⟩

/-- The part whose context has counted w cycles, its launch's limit being 1000 and its handler limit 0x10000. -/
def counted (w : BitVec 48) (u : UnitSt) : State := { part { x0 with wdog := w } { units := #v[some u, none, none] } (jobOf 0) with
  ctxs := [(0, { x0 with wdog := w, iss := none }), (3, { x0 with wdog := w, hlimit := 0x10000 })] }

/-- PreemptionAndLimits: a count below a limit and at it, with a pre-emption pending and without, of a role context and of a handler. -/
theorem witness_limits_on_time :
    (∀ s ∈ [counted 1000 u0], unitOf s 0 = some (0, u0) ∧ (s.ctx 0).resident = true ∧ (s.job u0.job).climit = 1000 ∧
      (s.job u0.job).climit * ((s.ctx 0).expired + 1) ≤ (s.ctx 0).wdog.toNat ∧ pendingFor s (coreOf 0) 0 u0 = false ∧ ((counted 999 u0).ctx 0).wdog.toNat < 1000) ∧
    (∀ s ∈ [counted 1000 { u0 with req := some 3 }], unitOf s 0 = some (0, { u0 with req := some 3 }) ∧ pendingFor s (coreOf 0) 0 { u0 with req := some 3 } = true) ∧
    (isHandler 3 = true ∧ isHandler 0 = false ∧ ((counted 0x10000 u0).ctx 3).resident = true ∧
      ((counted 0x10000 u0).ctx 3).hlimit.toNat * (((counted 0x10000 u0).ctx 3).expired + 1) ≤ ((counted 0x10000 u0).ctx 3).wdog.toNat ∧
      ((counted 0xFFFF u0).ctx 3).wdog.toNat < 0x10000) := by
  refine ⟨by decide +kernel, by decide +kernel, by decide +kernel⟩

/-- The part whose context stands between bundles with a failed command, or a missed deadline, with a vector or none, and a save area or none. -/
def failing (cs : List Cmd) (m : Option W64) (vec : W64) (e : Layout) : State :=
  { part { x0 with iss := none, miss := m, tvec := vec, save := e } { coreOfCmds cs 0 with units := k0.units } j0 with cur := 0 }

/-- A save area in the context's own slice. -/
def area0 : Layout := { lay 0 0x400 1 512 with w1 := 0x300000100 + 0x0A * 2 ^ 16 }

/-- PreemptionAndLimits: a context that an asynchronous fault reaches, and one that none does; a record that can be written and one that cannot; a vector and none. -/
theorem witness_delivery :
    (∀ s ∈ [failing [cmd0 .nop 1 .failed 0] none 0x2000 {}, failing [cmd0 .nop 1 .failed 0] none 0 area0, failing [cmd0 .nop 1 .failed 0] none 0x2000 area0], (s.ctx 0).resident = true ∧ (s.ctx 0).tlevel = 0 ∧
      (s.ctx 0).between = true ∧ (∀ p ∈ unitOf s 0, p.2.forced = false) ∧ banked s 0 = false ∧ nextFailed s 0 = some (cmd0 .nop 1 .failed 0)) ∧
    (writeRecord (failing [] none 0x2000 {}) 0 [1] = none) ∧ (writeRecord (failing [] none 0x2000 area0) 0 [1]).isSome = true ∧
    (∀ s ∈ [failing [] (some 5) 0x2000 {}, failing [] (some 5) 0 {}], nextFailed s 0 = none ∧ (s.ctx 0).miss = some 5 ∧ banked s 0 = false ∧ ((s.ctx 0).iss.getD {}).late = []) ∧
    ((failing [] none 0x2000 {}).ctx 0).miss = none ∧ (0x2000 : W64).toNat / 16 % 2 ^ 53 ≠ 0 ∧ (0xF : W64).toNat / 16 % 2 ^ 53 = 0 := by
  refine ⟨by decide +kernel, by decide +kernel, by decide +kernel, by decide +kernel, by decide +kernel, by decide, by decide⟩

/-- PreemptionAndLimits: a context of a cancelled launch at a point, and one that runs. -/
theorem witness_cancelled : (∀ r ∈ [Run.idle, .atStep, .ended, .stopped], ∀ s ∈ [part { x0 with run := r, iss := none } k0 { j0 with cancelled := true }], isHandler 0 = false ∧
      (s.job (s.ctx 0).job).cancelled = true ∧ (unitOf s 0).isSome = true ∧ (s.ctx 0).run = r) ∧
    (∀ s ∈ [part (xp 0 (.launch (.card 0x40))) k0 { j0 with cancelled := false }], (s.job (s.ctx 0).job).cancelled = false) := by
  decide +kernel

/-- The part whose context stands at `step`, of a job with bounds on its dies. -/
def stepping (lo hi : W64) : State := part { x0 with run := .atStep, iss := none } k0 { jobOf 0 with card := [lo <<< 26 ||| hi <<< 23, 0, 0, 0, 0] }

/-- UnitsAndLaunches: a rendezvous that is complete and one that is not, on dies within the bounds; a launch that is done, cancelled or not, and one that is not. -/
theorem witness_steps : (∀ s ∈ [stepping 1 1], stepReady s 1 = true ∧ (∀ d ∈ (s.job 1).dies, (s.die d).lost = false) ∧ bits ((s.job 1).w 0) 28 26 ≤ (s.job 1).dies.length ∧
      (s.job 1).dies.length ≤ bits ((s.job 1).w 0) 25 23) ∧ stepReady one 1 = false ∧
    (∀ b ∈ [true, false], launchDone (free_ { jobOf 0 with cancelled := b }) 1 ((free_ { jobOf 0 with cancelled := b }).job 1) = true) ∧ launchDone one 1 (one.job 1) = false := by
  decide +kernel

/-- The part that fetches this syllable in slot 0, with `nop` in slot 1, on its next step. -/
def fetched (w : Syl) : State := State.reset.withFetchWord 48 w.toNat

/-- Its bundle. -/
def bundle0 (w : Syl) : Bundle := ⟨0, w, 0xFFFFFFFFFFFF⟩

/-- The same, resumed at slot 1. -/
def resumed (w : Syl) : State := { fetched w with ctxs := [(0, { (fetched w).ctx 0 with slot := true })] }

/-- StepRunsDecoded: a context whose turn it is, undisturbed; its bundle stands at its pc and may issue. -/
theorem witness_step :
    (Claims.Turn (fetched 0x1B1000000005) { fetched 0x1B1000000005 with agenda := [] } 0 ∧ ((fetched 0x1B1000000005).ctx 0).iss = none ∧ ((fetched 0x1B1000000005).ctx 0).slot = false ∧
      ((fetched 0x1B1000000005).ctx 0).rep = 0 ∧ Claims.Undisturbed (fetched 0x1B1000000005) 0) ∧
    ∃ v, Claims.BundleAt (fetched 0x1B1000000005) 0 (bundle0 0x1B1000000005) v ∧ Claims.MayIssue v 0 (bundle0 0x1B1000000005) (.movi 4 (.narrow 5)) .nop := by
  refine ⟨⟨⟨Or.inr ⟨by decide +kernel, [], rfl, rfl⟩, by decide +kernel⟩, by decide +kernel, by decide +kernel, by decide +kernel, Or.inr ⟨by decide +kernel, by decide +kernel⟩, by decide +kernel, by decide +kernel⟩,
    { fetched 0x1B1000000005 with tlb := (fetched 0x1B1000000005).tlb }, ⟨_, devKey (2 ^ 16), none, rfl, by decide +kernel, by decide +kernel, by rfl, by decide +kernel, rfl, by decide +kernel, by decide +kernel, by decide +kernel⟩, ?_⟩
  simp only [Claims.MayIssue]
  refine ⟨by decide +kernel, by decide +kernel, by decide +kernel, by decide +kernel, by decide +kernel, by decide +kernel, ?_, by decide +kernel, by decide +kernel, by decide +kernel, by decide +kernel, by decide +kernel, by decide +kernel⟩
  intro cnt ds as bs h
  cases (by decide +kernel : repOf (.movi 4 (.narrow 5)) = none).symm.trans h

/-- StepRunsDecoded: slot 1 of a bundle in issue. -/
theorem witness_step_slot1 : ∀ s ∈ [withX { x0 with iss := some { slot1 := true, s1 := 0x1B1001000005 } }], Claims.Turn s s 0 ∧ ∃ k, (s.ctx 0).iss = some k ∧ k.slot1 = true ∧ k.halting = false ∧ k.leaving = false ∧
    (s.die (dieOf 0)).waiters = [] ∧ k.waited = false ∧ slot1Word k.rep k.s1 k.j.toNat = some 0x1B1001000005 ∧
    decodeSyllable true (unpackHeader k.hdr).bimm 0x1B1001000005 = .ok (.movi 4 (.wide 5)) ∧ emptyBlock (s.ctx 0) ((dstsOf (.movi 4 (.wide 5))).map plain) = false ∧
    orderBlock s 0 (.movi 4 (.wide 5)) = false := by
  simp only [List.forall_mem_cons, List.not_mem_nil, false_implies, implies_true, and_true]
  exact ⟨⟨Or.inl ⟨by decide +kernel, by decide +kernel, rfl⟩, by decide +kernel⟩, _, rfl, by decide +kernel⟩

/-- StepRunsDecoded: a bundle resumed at slot 1. -/
theorem witness_step_resumed : ((resumed 0x1B1000000005).ctx 0).iss = none ∧ ((resumed 0x1B1000000005).ctx 0).slot = true ∧ Claims.Undisturbed (resumed 0x1B1000000005) 0 ∧
    (∃ v, Claims.BundleAt (resumed 0x1B1000000005) 0 (bundle0 0x1B1000000005) v) ∧
    headerFault (resumed 0x1B1000000005) 0 (unpackHeader 0) (.ok (.movi 4 (.narrow 5))) (.ok .nop) = none ∧ ((resumed 0x1B1000000005).ctx 0).rep = 0 ∧
    sylFault (resumed 0x1B1000000005) 0 (unpackHeader 0) 0xFFFFFFFFFFFF (.ok .nop) = none ∧ slot1Word none 0xFFFFFFFFFFFF 0 = some 0xFFFFFFFFFFFF := by
  refine ⟨by decide +kernel, by decide +kernel, ⟨Or.inr ⟨by decide +kernel, by decide +kernel⟩, by decide +kernel, by decide +kernel⟩,
    ⟨{ resumed 0x1B1000000005 with tlb := (resumed 0x1B1000000005).tlb }, _, devKey (2 ^ 16), none, rfl, by decide +kernel, by decide +kernel, by rfl, by decide +kernel, rfl, by decide +kernel, by decide +kernel, by decide +kernel⟩,
    by decide +kernel, by decide +kernel, by decide +kernel, by decide +kernel⟩

/-- StepRunsDecoded: a step of the device at the head of the agenda, and an empty agenda. -/
theorem witness_step_events : ({ State.reset with agenda := [.event .syncLoss] } : State).me.midBundle = false ∧ State.reset.me.midBundle = false ∧ State.reset.agenda = [] := by
  decide +kernel

/-- DecodeEncode, DecodeIsEncoded: an instruction of each format, in each slot, with fields at the ends of their ranges; a word that decodes. -/
theorem witness_encodings : (∀ i ∈ [Instr.add ⟨63, 63, true, .reg 63 true⟩, .movi 63 (.wide 0xFFFFFFFFFF), .ldl 3 true 63 ⟨63, true⟩ 0xFFFF, .cpin { ef 63 0 0 0 with arv := true }, .vadd ⟨63, 63, 63, 63, 7, 0, 0, 0, 15⟩],
      i.wf = true ∧ (encode true i).isSome = true ∧ Claims.slotZeroOnly i = false) ∧ Claims.slotZeroOnly (.rep 1 0 0 0) = true ∧
    decodeSyllable false 0 0x1B1000000005 = .ok (.movi 4 (.narrow 5)) := by
  decide +kernel

/-- UnassignedEncodings: words whose major opcode is not assigned, a word with a reserved field, and states that make an opcode illegal or do not. -/
theorem witness_unassigned : formatOf ((0xF30000000000 : Syl).extractLsb' 40 8).toNat = none ∧ ((0xFE0000000000 : Syl).extractLsb' 40 8).toNat = 0xFE ∧
    decodeSyllable false 0 0x011461C00001 = .error .reserved ∧ ¬ Claims.IllegalHere one 0x011461C00001 ∧ Claims.IllegalHere one 0x3B0000000001 ∧ ¬ Claims.IllegalHere (withX (xl 1)) 0x3B0000000001 ∧
    (∀ m ∈ [0, 0xF0, 0xFD, 256], 256 ≤ m ∨ m = 0 ∨ 0xF0 ≤ m ∧ m ≤ 0xFD) := by
  simp only [Claims.IllegalHere]
  decide +kernel

/-- MemoryKeepsForm, MemoryBytes: memories in form that a step runs on. -/
theorem witness_memory : Memory.wf one.mem = true ∧ Memory.wf layed.mem = true ∧ (∃ t, step (fetched 0x1B1000000005) = .next t) ∧ Memory.wf (fetched 0x1B1000000005).mem = true := by
  exact ⟨by decide +kernel, by decide +kernel, ⟨_, rfl⟩, by decide +kernel⟩

/-- 64-bit words of device memory, at rising addresses. -/
def cellsAt (l : List (Nat × Nat)) : List Host.Cell :=
  l.flatMap fun p => ((List.range 8).map fun i => (devKey p.1 + i, BitVec.ofNat 8 (p.2 / 256 ^ i))).filter (·.2 != 0)

/-- `one` with partition 0's first 512 MiB mapped with every right, and these words above. -/
def hosted (l : List (Nat × Nat)) : State :=
  { one with mem := cellsAt ([(0, 0x10000), (0x10000, 0x20001), (0x20000, 0x30001), (0x30000, 0x1F)] ++ l) }

/-- A queue with one packet, at 0x50000. -/
def hq0 : HostQ := { live := true, qcb := 0x40000, ring := 0x50000, lgsz := 4, head := 0, tail := 1 }

/-- The part whose queue 0 has the packet of these words at its head, and these words above it. -/
def packet (w : List Nat) (l : List (Nat × Nat)) : State := { hosted (w.zipIdx.map (fun p => (0x50000 + 8 * p.2, p.1)) ++ l) with queues := [(0, hq0)] }

/-- The words of each kind of packet. -/
def kinds : List (Nat × List Nat) :=
  [(1, [1, 0x60000]), (2, [2, 5]), (3, [3, 0, 0x60000, 7]), (4, [4, 0x60000, 7]), (5, [5, 0x60000, 0x70000, 16]), (6, [6, 1]), (7, [7, 0x60000]), (8, [8, 5]),
    (9, [9, 3, 0x0000000000001800]), (10, [10, 0x60000, 5]), (11, [7, 0x60000, 1]), (12, [10, 0, 5])]

/-- HostPackets: a packet of each kind at the head of the queue whose turn it is, malformed or unreadable in two cases; a queue whose turn it is not. -/
theorem witness_packets : (∀ p ∈ kinds, Claims.PacketAt (packet p.2 []) p.1 0 0 (((p.2 ++ List.replicate 8 0).take 8).map w64)) ∧
    (nextQueue (packet [6, 1] []) ≠ some (queueKey 0 1)) ∧ readPacket (packet [0x406, 1] []) 0 hq0 = .error (4, 0) ∧
    readPacket (packet [6, 1] []) 0 { hq0 with ring := 2 ^ 40 } = .error (6, 0) := by
  simp only [Claims.PacketAt]
  refine ⟨by decide +kernel, by decide +kernel, by decide +kernel, by decide +kernel⟩

/-- The words of a card that holds, its placement table at 0x70000. -/
def card0 : List (Nat × Nat) := [(0x60000, 1 + 2 ^ 26 + 2 ^ 23), (0x60018, 2 ^ 48), (0x60020, 1), (0x60040, 0x70000), (0x70000, 0xFFFF)]

/-- HostPackets: a card that holds, with all that acceptance reads; one that breaks a limit, one that cannot be read, too few dies, and recovery. -/
theorem witness_launches : (∀ s ∈ [packet [1, 0x60000] card0], ∀ c ∈ devReadWs s 0 0x60000 24, cardOk c = true ∧ bits (c.getD 0 0) 37 36 + 1 = 1 ∧ bits (c.getD 8 0) 56 0 = 0x70000 ∧
      (devReadWs s 0 (bits (c.getD 7 0) 56 0) (8 * bits (c.getD 0 0) 47 40)).isSome = true ∧ (devReadWs s 0 0x70100 32).isSome = true ∧ (devReadWs s 0 0x70200 8).isSome = true ∧
      (∀ t ∈ devReadWs s 0 0x70000 8, placeOk c t = true) ∧ bits (c.getD 0 0) 25 23 ≤ ((List.range 4).filter fun d => !(s.die d).lost).length) ∧
    (devReadWs (packet [1, 0x60000] card0) 0 0x60000 24).isSome = true ∧ (devReadWs (packet [1, 0x60000] card0) 0 0x70000 8).isSome = true ∧
    devReadWs (packet [1, 0x60000] card0) 0 (2 ^ 40) 24 = none ∧ cardOk [] = false ∧ placeOk [w64 (2 ^ 26)] [] = false ∧
    (∀ s ∈ [{ packet [1, 0x60000] card0 with recovery := true }], s.recovery = true ∧ nextQueue s = some 0) ∧
    (∀ s ∈ [{ packet [1, 0x60000] card0 with dies := (List.range 4).map fun i => (i, { lost := true }) }], ((List.range 4).filter fun d => !(s.die d).lost).length < 1) := by
  refine ⟨by decide +kernel, by decide +kernel, by decide +kernel, by decide +kernel, by decide +kernel, by decide +kernel, by decide +kernel, by decide +kernel⟩

/-- HostPackets: a graph that is idle, live, live with a replay that waits, of another function and not defined. -/
theorem witness_replays : ∀ g ∈ [({ defined := true } : Graph), { defined := true, live := true }, { defined := true, live := true, pending := some (none, 0) }, { defined := true, fn := 1 }, {}],
    ∀ s ∈ [{ packet [2, 5] [] with graphs := [(5, g)] }], bits ((([2, 5].map w64) : List W64).getD 1 0) 11 0 = 5 ∧ s.graph 5 = g := by
  decide +kernel

/-- HostPackets: counters that have reached their values, that have not, and that cannot be read; words and bytes that can be written and that cannot; a job to cancel, and none. -/
theorem witness_stores : (fenceState (hosted [(0x60000, 7)]) 0 [(0x60000, 7)] = some true ∧ fenceState (hosted [(0x60000, 6)]) 0 [(0x60000, 7)] = some false ∧
      fenceState (hosted []) 0 [(2 ^ 40, 7)] = none) ∧
    ((devWriteWs (hosted []) 0 0x60000 [7]).isSome = true ∧ devWriteWs (hosted []) 0 (2 ^ 40) [7] = none) ∧
    ((devReadBytes (hosted []) 0 0x60000 16).isSome = true ∧ devReadBytes (hosted []) 0 (2 ^ 40) 16 = none) ∧
    ((devWriteBytes (hosted []) 0 0x70000 [1, 2]).isSome = true ∧ devWriteBytes (hosted []) 0 (2 ^ 40) [1, 2] = none) ∧
    ((1 : Nat) ≠ 0 ∧ (∃ p ∈ one.jobs, p.1 = 1) ∧ (one.job 1).fn = 0 ∧ (one.job 1).cancelled = false ∧ (one.job 1).fin = 0 ∧ ∀ p ∈ one.jobs, p.1 ≠ 2) := by
  refine ⟨by decide +kernel, by decide +kernel, by decide +kernel, by decide +kernel, by decide +kernel⟩

/-- HostPackets: a stream of each status, and of another function; bounds at 384 units, past them, and out of order; a graph of another function, and images that hold and that do not. -/
theorem witness_admits : (∀ st ∈ [0, 1, 2, 3, 4], ∀ f ∈ [0, 1], ∀ s ∈ [{ one with streams := [(5, { status := st, fn := f })] }], (s.stream 5).status = st ∧ (s.stream 5).fn = f) ∧
    (∀ k, k < 4 → bits (0x0000000000001800 : W64) (16 * k + 15) (16 * k) ≤ 6144) ∧ (∀ k, k < 3 → bits (0x0000000000001800 : W64) (16 * (k + 1) + 15) (16 * (k + 1)) ≤ bits (0x0000000000001800 : W64) (16 * k + 15) (16 * k)) ∧
    6144 < bits (0x0000000000001801 : W64) (16 * 0 + 15) (16 * 0) ∧ bits (0x0000000000010000 : W64) (16 * 0 + 15) (16 * 0) < bits (0x0000000000010000 : W64) (16 * 1 + 15) (16 * 1) ∧
    (∀ s ∈ [{ one with graphs := [(5, { defined := true, fn := 1 })] }], (s.graph 5).defined = true ∧ (s.graph 5).fn ≠ 0) ∧
    (∀ im ∈ devReadWs (hosted []) 0 0x60000 130, imageOk im = true ∧ bits (im.getD 0 0) 13 8 = 0) ∧ (devReadWs (hosted []) 0 0x60000 130).isSome = true ∧ imageOk [0x40] = false := by
  refine ⟨by decide +kernel, by decide +kernel, by decide +kernel, by decide +kernel, by decide +kernel, by decide +kernel, by decide +kernel, by decide +kernel, by decide +kernel⟩

/-- HostQueues: a status byte that can be written and one that cannot; a control block that can be read, one that cannot, one that is misaligned; rings that hold and that do not; a queue that is live and one that
is not; a fence that waits, and one whose time has passed. -/
theorem witness_queues_of_host : ((xlateDev (hosted []) 0 (hq0.unitVa + 3) false true).isSome = true ∧ xlateDev (hosted []) 0 ({ hq0 with ring := 2 ^ 40 }.unitVa + 3) false true = none) ∧
    ((devReadWs (hosted []) 0 (hq0.qcb + 0x18) 2).isSome = true ∧ devReadWs (hosted []) 0 (2 ^ 40 + 0x18) 2 = none) ∧
    (bits (0x40000 : W64) 56 0 % 64 = 0 ∧ bits (0x40008 : W64) 56 0 % 64 ≠ 0) ∧
    (∀ w ∈ devReadWs (hosted [(0x40000, 0x50000), (0x40008, 4)]) 0 0x40000 5, bits (w.getD 0 0) 56 0 % 4096 = 0 ∧ bits (w.getD 1 0) 4 0 = 4) ∧
    (∀ w ∈ devReadWs (hosted [(0x40000, 0x50000), (0x40008, 17)]) 0 0x40000 5, 16 < bits (w.getD 1 0) 4 0) ∧
    ((packet [6, 1] []).queue 0).live = true ∧ (one.queue 0).live = false ∧ (one.queue 0).fence = none ∧ one.recovery = false ∧
    (∀ s ∈ [{ hosted [] with queues := [(0, { hq0 with fence := some (100, 1, [(0x60000, 7)]) })], time := 1100 }], (s.queue (queueKey 0 0)).fence = some (100, 1, [(0x60000, 7)]) ∧
      fenceState s 0 [(0x60000, 7)] = some false ∧ 1 ≠ 0 ∧ 100 + 1000 * 1 ≤ s.time) := by
  refine ⟨by decide +kernel, by decide +kernel, by decide +kernel, by decide +kernel, by decide +kernel, by decide +kernel, by decide +kernel, by decide +kernel, by decide +kernel, by decide +kernel⟩

/-- The part whose context 0 waits at the arbiter for n units, its pool at p units. -/
def pooled (n p : Nat) : State := { setWin (withX (xp 0 (.pacq n 4))) 0 0x2400 (BitVec.ofNat 64 p) with dies := [(0, { waiters := [(0, n)] })] }

/-- DieEvents: a request that stands, at the base level and above it, within the pool and past it, on a die that stands and on one that is lost; and none. -/
theorem witness_grants : (∀ n ∈ [4, 63], ∀ s ∈ [pooled n 7552], (s.die (dieOf 0)).waiters.find? (fun w => w.1 == 0) = some (0, n) ∧ (s.die (dieOf 0)).lost = false ∧
      (s.ctx 0).wait = .pacq n 4 ∧ (s.ctx 0).tlevel.toNat < 3 ∧ (s.cluster (clusterOf 0)).throttle = 0 ∧ aheadOf s 0 (s.die (dieOf 0)).waiters true = false ∧
      poolUsed (s.setCtx 0 { s.ctx 0 with held := n }) (dieOf 0) ≤ bits (win s 0 (0x2400 + 8 * dieOf 0)) 12 0) ∧
    (∀ s ∈ [pooled 63 0], bits (win s 0 (0x2400 + 8 * dieOf 0)) 12 0 < poolUsed (s.setCtx 0 { s.ctx 0 with held := 63 }) (dieOf 0) ∧ ¬ 63 ≤ 4) ∧
    (one.die (dieOf 0)).waiters.find? (fun w => w.1 == 0) = none := by
  refine ⟨by decide +kernel, by decide +kernel, by decide +kernel⟩

/-- DieEvents: a level given up whose commands have completed, and one whose have not; a rail's fall that is due for its levels and for its time, and one that is not; none of either. -/
theorem witness_falls : (∀ s ∈ [withX { x0 with release := some [(1, 1)] }], (s.ctx 0).release = some [(1, 1)] ∧ ownCmds s 0 = []) ∧
    (∀ s ∈ [part { engines.me with release := some [(1, 1)] } (coreOfCmds [mcmd (.zclrE (ef 0 0 0 0))] 0) j0], (1, 1) ∈ ownCmds s 0) ∧ (one.ctx 0).release = none ∧
    (∀ s ∈ [{ withX (xp 5 .none) with dies := [(0, { low := { fall := some (100, [0]) } })], time := 50099 }], (s.die 0).low.fall = some (100, [0]) ∧ (s.ctx 0).held ≠ 0 ∧
      s.time < 100 + 50000 ∧ 100 + 50000 ≤ ({ s with time := 50100 } : State).time ∧ (∀ c ∈ [1], (s.ctx c).held = 0) ∧ (s.die 0).high.fall = none) := by
  refine ⟨by decide +kernel, by decide +kernel, by decide +kernel, by decide +kernel⟩

/-- DieEvents: an estimate at the declared level and above it; the context that holds the largest level, and the one of the oldest command that runs. -/
theorem witness_overdraws : declared (withX (xp 12 .none)) 0 < declared (withX (xp 12 .none)) 0 + 1 ∧ ((withX (xp 12 .none)).core 0).overBy = none ∧
    (∀ i, i < 6 → ((withX (xp 12 .none)).ctx (8 * 0 + i)).before = none) ∧ (0 < ((withX (xp 12 .none)).ctx (8 * 0 + 0)).held ∧ (∀ j, j < 3 → ((withX (xp 12 .none)).ctx (8 * 0 + j)).held ≤ 12)) ∧
    (((withX (xp 12 .none)).ctx 0).run ≠ .halted ∧ ((withX (xp 12 .none)).ctx 0).run ≠ .killed) ∧
    (∀ s ∈ [running [{ cmd0 (.acz (ef 0 0 0 0)) 1 .running 0 with ctx := 3 }] 0], (∀ j, j < 3 → (s.ctx (8 * 0 + j)).held = 0) ∧
      ((s.core 0).qs.toList.flatMap id).filter (fun x => x.phase == .running) = [] ++ { cmd0 (.acz (ef 0 0 0 0)) 1 .running 0 with ctx := 3 } :: []) := by
  decide +kernel

/-- The part at a time, with a telemetry ring or none, die 0 lost or not. -/
def telling (time : Nat) (ring : W64) (lost : Bool) : State := { setWin one 0 0x1000 ring with time, dies := [(0, { lost, lastBeat := 5 })] }

/-- DieEvents: temperatures at each trip and below it; an interval that ends and one that does not, with a ring that can be written, that cannot, and none. -/
theorem witness_sensors : (∀ s ∈ [telling 1000000 0 true], (s.die (0 / 128)).lost = true) ∧
    (∀ s ∈ [telling 999999 0 false], (s.die (0 / 128)).lost = false ∧ s.time / 10 ^ 6 = (s.die 0).telemMs) ∧
    (∀ s ∈ [telling 1000000 0 false, telling 1000000 0x8800000000001000 false], s.time / 10 ^ 6 ≠ (s.die 0).telemMs ∧ (s.die 0).lost = false ∧ (s.core 0).trips = 0) ∧
    (bit (win (telling 1000000 0 false) 0 0x1000) 63 = false ∧ bit (win (telling 1000000 0x8800000000001000 false) 0 0x1000) 63 = true) ∧
    (devWriteWs (hosted []) 0 0x1000 [1]).isSome = true ∧ devWriteWs (telling 1000000 0 false) 0 0x1000 [1] = none := by
  refine ⟨by decide +kernel, by decide +kernel, by decide +kernel, by decide +kernel, by decide +kernel, by decide +kernel⟩

/-- DieEvents: granules of a die with an error and without; errors of a register, a tile, the detector and a tag. -/
theorem witness_errors : (granuleDie 1 = some 0 ∧ 1 ∈ ({ one with latent := [1] } : State).latent ∧ 1 ∉ one.latent ∧ 64 / 64 ∉ one.poison ∧ 64 / 64 ∈ ({ one with poison := [1] } : State).poison) ∧
    (granuleDie (2 ^ 60) = none) ∧ ((2 ^ 61 + 0 - 2 ^ 61) / 2 ^ 56 = 0 ∧ (one.ctx ((2 ^ 61) % 2 ^ 56)).run = .live ∧ (one.ctx ((2 ^ 61) % 2 ^ 56)).before = none) ∧
    ((2 ^ 61 + 2 ^ 56 + 8 - 2 ^ 61) / 2 ^ 56 = 1 ∧ (2 ^ 61 + 2 * 2 ^ 56 - 2 ^ 61) / 2 ^ 56 = 2 ∧ (2 ^ 61 + 3 * 2 ^ 56 - 2 ^ 61) / 2 ^ 56 = 3) := by
  refine ⟨by decide +kernel, by decide +kernel, by decide +kernel, by decide +kernel⟩

/-- DieEvents: a beat that is due and one that is not; a clock that has stepped and one that has not, forward by more than a millisecond and by one; a clock with a source and without. -/
theorem witness_clock : (∀ s ∈ [telling 20005 0 false], (s.die 0).lost = false ∧ (s.die 0).lastBeat + 20000 ≤ s.time ∧ (telling 20004 0 false).time < (s.die 0).lastBeat + 20000) ∧
    (one.stepped = false ∧ ({ one with stepped := true } : State).stepped = true ∧ (0 : Int) < 1 ∧ (10 : Int) ^ 6 < 1000001 ∧ one.cst = 0 ∧ ({ one with cst := 1 } : State).cst ≠ 0) := by
  refine ⟨by decide +kernel, by decide +kernel⟩

/-- A stream of period 1000, its graph 5: released by a timer, or by messages of flow 3. -/
def stream0 (trig : Bool) (st : Nat) : Stream :=
  { status := st, desc := [if trig then 0x40000000000000 else 0, 0, 1000, 0, 900, 0, 5, 0, 3], release := 2000, inst := 1 }

/-- The part with that stream as stream 7, at a time, its graph defined and idle. -/
def streaming (x : Stream) (time : Nat) (g : Graph) : State := { hosted [] with streams := [(7, x)], time, graphs := [(5, g)] }

/-- StreamsAndGraphs: a timer stream that is due, one period late and not yet; a stream with a message that is due and one that is not, of each status; a graph that can start. -/
theorem witness_releases : (∀ x ∈ [stream0 false 1, stream0 false 2], (x.status = 1 ∨ x.status = 2) ∧ sdTrig x.eff = false ∧ x.period ≠ 0 ∧ x.due = 3000 ∧ x.due + 1 * x.period ≤ 4999 ∧ 4999 < x.due + (1 + 1) * x.period) ∧
    (∀ st ∈ [1, 3], ∀ x ∈ [{ stream0 true st with msgs := [(3, 0, 64, 0x60000, 1500)] }], sdTrig x.eff = true ∧ max 1500 (x.release + x.period) = 3000 ∧ x.msgs ≠ []) ∧
    (∀ s ∈ [streaming (stream0 false 1) 3000 { defined := true }], sdGraph (s.stream 7).eff = 5 ∧ (s.graph 5).defined = true ∧ (s.graph 5).live = false ∧ s.time = 3000) := by
  refine ⟨by decide +kernel, by decide +kernel, by decide +kernel⟩

/-- A graph of two nodes, the second after the first, whose cards are at 0x60000, live with these nodes. -/
def graph1 (nodes : List (Nat × Nat)) : Graph := { defined := true, live := true, image := [1, 0x80000, 0x60000, 0, 0x60000, 1], nodes }

/-- StreamsAndGraphs: a node that is due and one that waits for another; a card that fits and one that does not; nodes that have all completed, one cancelled, and none. -/
theorem witness_submits :
    (∀ s ∈ [{ hosted card0 with graphs := [(5, graph1 [])] }], (s.graph 5).live = true ∧ 0 < (s.graph 5).nnode ∧ (s.graph 5).nodes = [] ∧ (∀ k, k < (s.graph 5).nnode → bit ((s.graph 5).dep 0) k = false) ∧
      bit ((s.graph 5).dep 1) 0 = true ∧ nodeDone s (s.graph 5) 0 = false ∧ (s.graph 5).parent = 0 ∧ (devReadWs s 0 ((s.graph 5).card 0) 24).isSome = true) ∧
    (∀ s ∈ [{ hosted [] with graphs := [(5, graph1 [(0, 2), (1, 3)])], jobs := [(2, { fin := 1 }), (3, { fin := 1 })] }], ∀ i, i < (s.graph 5).nnode → nodeDone s (s.graph 5) i = true) ∧
    (∀ s ∈ [{ hosted [] with graphs := [(5, graph1 [(0, 2)])], jobs := [(2, { fin := 2 })] }], nodeDone s (s.graph 5) 0 = false ∧ (∃ p ∈ (s.graph 5).nodes, (s.job p.2).fin = 2) ∧ ∀ p ∈ (s.graph 5).nodes, (s.job p.2).fin ≠ 0) := by
  refine ⟨by decide +kernel, by decide +kernel, by decide +kernel⟩

/-- StreamsAndGraphs: a card that fits. -/
theorem witness_fits : Claims.Fits (hosted card0) { fn := 0, card := [w64 (1 + 2 ^ 26 + 2 ^ 23), 0, 0, w64 (2 ^ 48), 1, 0, 0, 0, 0x70000] } := by
  simp only [Claims.Fits]
  exact ⟨by decide +kernel, by decide +kernel, by decide +kernel, by decide +kernel, ⟨[0xFFFF, 0, 0, 0, 0, 0, 0, 0], by decide +kernel, by decide +kernel⟩, fun _ => by decide +kernel⟩

/-- StreamsAndGraphs: a live instance before its deadline, at it, and one that is exempt until its period ends; and the ends of instances of streams of each status. -/
theorem witness_lateness : (∀ x ∈ [{ stream0 false 2 with live := some (2000, 2900, 0) }], x.late = false ∧ x.live = some (2000, 2900, 0) ∧ ({ x with exempt := true } : Stream).release + sdT x.desc = 3000) ∧
    (∀ st ∈ [1, 2, 4], ∀ s ∈ [streaming (stream0 false st) 0 { graph1 [] with stream := some 7, pending := some (none, 0) }], (s.graph 5).stream = some 7 ∧ (s.stream 7).status = st ∧ (s.graph 5).pending = some (none, 0)) := by
  decide +kernel

/-- An inbound flow of function 0: binding 1 of the stream with ring 0x60000, or 2 of core 0 with ring 0x400 and handler 0x3000; slots of 64 bytes, two of them. -/
def flow0 (bind : Nat) (slots : List Nat) : Flow :=
  { applied := true, desc := [w64 (bind * 2 ^ 59 + if bind = 2 then 2 ^ 19 else 0), if bind = 2 then 0x400 else 0x60000, w64 (6 * 2 ^ 16 + 2 ^ 9), if bind = 2 then 0x3000 else 0], slots }

/-- The part with that flow as flow 3, port 0 up. -/
def flowing (f : Flow) : State := { streaming (stream0 true 1) 3000 { defined := true } with flows := [(3, f)], ports := 1 }

/-- NetworkEvents: the next free slot, past one that is taken; a message that is too long for its slot; a ring that is full. -/
theorem witness_lands : (∀ b ∈ [1, 2], Claims.Lands (flowing (flow0 b [])) 3 b 64 0 ∧ Claims.Lands (flowing (flow0 b [0])) 3 b 64 1 ∧ (∀ sl, ¬ Claims.Lands (flowing (flow0 b [])) 3 b 65 sl)) := by
  intro b hb
  simp only [List.mem_cons, List.not_mem_nil, or_false] at hb
  refine ⟨⟨?_, 0, ?_⟩, ⟨?_, 1, ?_⟩, ?_⟩
  · rcases hb with rfl | rfl <;> decide +kernel
  · rcases hb with rfl | rfl <;> decide +kernel
  · rcases hb with rfl | rfl <;> decide +kernel
  · rcases hb with rfl | rfl <;> decide +kernel
  · rintro sl ⟨h, -⟩
    have h' := h.2.2.2.2.2.2.2
    rcases hb with rfl | rfl <;> exact absurd h' (by decide +kernel)

/-- NetworkEvents: a slot that can be written and one that cannot; a stream that takes the message and none; a core whose job stands, has ended, is kept off by a paddock, whose slice is held, whose die is
lost. -/
theorem witness_inbound : (devWriteBytes (flowing (flow0 1 [])) 0 0x60000 [1]).isSome = true ∧ devWriteBytes (flowing (flow0 1 [])) 0 (2 ^ 40) [1] = none ∧ streamOf (flowing (flow0 1 [])) 3 = some 7 ∧
    streamOf { flowing (flow0 1 []) with streams := [] } 3 = none ∧
    (∀ s ∈ [flowing (flow0 2 [])], (s.job (s.flow 3).job).fin = 0 ∧ paddockHit s (s.flow 3).core 0x400 64 (s.flow 3).job = false ∧ (s.core (s.flow 3).core).holder = none ∧
      (s.die ((s.flow 3).core / 128)).lost = false ∧ holdsUnit s 1 0 = true ∧ holdsUnit s 1 1 = false ∧ (s.core 0).arrivals.length < 16) := by
  refine ⟨by decide +kernel, by decide +kernel, by decide +kernel, by decide +kernel, by decide +kernel⟩

/-- NetworkEvents: descriptors that hold, of each binding, and one that breaks a limit; a flow of another function, one that a stream names, a core binding without its job; ports up and down; a message to
acknowledge. -/
theorem witness_flow_writes : Claims.FlowFields (flow0 1 []).desc ∧ Claims.FlowFields (flow0 2 []).desc ∧ ¬ Claims.FlowFields [1 <<< 51] ∧
    ((flowing (flow0 1 [])).flow 3).owner = 0 ∧ flowNamed (flowing (flow0 1 [])) 3 = true ∧ (flow0 1 []).ring ≠ ({ flow0 1 [] with desc := [w64 (2 ^ 59), 0x70000, w64 (6 * 2 ^ 16 + 2 ^ 9), 0] } : Flow).ring ∧
    (one.job 2).fin = 0 ∧ (∀ p ∈ one.jobs, p.1 ≠ 2) ∧ (flowing (flow0 1 [])).ports.getLsbD 0 = true ∧ (flowing (flow0 1 [])).ports.getLsbD 1 = false ∧
    (∀ s ∈ [{ one with outKept := [(4, [1]), (3, [2])] }], s.outKept = [(4, [1])] ++ (3, [2]) :: [] ∧ ∀ x ∈ s.outKept, x.1 ≠ 5) := by
  refine ⟨?_, ?_, ?_, by decide +kernel⟩ <;> simp only [Claims.FlowFields]
  · decide +kernel
  · decide +kernel
  · exact fun h => absurd h.1 (by decide +kernel)

/-- ManagementEvents: windows in recovery and out of it; ring registers that hold and that do not; points of a rail within their range and past it; BAR2 bytes at the end of its range and past it. -/
theorem witness_windows : one.recovery = false ∧ ({ one with recovery := true } : State).recovery = true ∧
    (bit (0x8800000000001000 : W64) 63 = true ∧ bits (0x8800000000001000 : W64) 56 0 % 4096 = 0 ∧ 4 ≤ bits (0x8800000000001000 : W64) 61 57 ∧ bits (0x8800000000001000 : W64) 61 57 ≤ 16) ∧
    (∀ i, i < 8 → bits (0x1F1F1F1F1F1F1F1F : W64) (8 * i + 7) (8 * i + 5) = 0) ∧ bits (0x20 : W64) (8 * 0 + 7) (8 * 0 + 5) ≠ 0 ∧
    (0x1FFFFFFF + 1 ≤ 2 ^ 36 ∧ (devWriteBytes (hosted []) 0 0x1FFFFFFF [1]).isSome = true ∧ devWriteBytes (hosted []) 0 0x20000000 [1] = none) ∧ 2 ^ 36 < 2 ^ 36 - 1 + ([1, 2] : List Byte).length := by
  refine ⟨by decide +kernel, by decide +kernel, by decide +kernel, by decide +kernel, by decide +kernel, by decide +kernel, by decide +kernel⟩

/-- ManagementEvents: a report that may be asked for, one while another is made, a buffer that is misaligned; a buffer that can be read and one that cannot. -/
theorem witness_attests : win one 0 0x308 ≠ 1 ∧ win (setWin one 0 0x308 1) 0 0x308 = 1 ∧ bits (0x60000 : W64) 56 0 % 64 = 0 ∧ bits (0x60020 : W64) 56 0 % 64 ≠ 0 ∧
    (∀ s ∈ [{ hosted [] with attn := [(1, 0), (0, 0x60000)] }], s.attn = [(1, 0)] ++ (0, 0x60000) :: [] ∧ (devReadBytes s 0 0x60010 32).isSome = true ∧ devReadBytes s 0 (2 ^ 40) 32 = none) := by
  refine ⟨by decide +kernel, by decide +kernel, by decide +kernel, by decide +kernel, by decide +kernel⟩

/-- ManagementEvents: no image is staged, so that every staged one is good; and a function with a job, a sequence and flows. (Which images are good rests on keys and fuses, which Config leaves open, log 95.) -/
theorem witness_boots : (∀ k, k < 3 → (one.fw.find? fun p => p.1 == k) = none) ∧ (0 : BitVec 2) ≠ 3 ∧
    (∀ s ∈ [{ one with dies := [(0, { seqs := [(4, { isOpen := true })] })] }], (s.seq 0 4).isOpen = true ∧ (s.seq 0 4).part = 0 ∧ (∃ p ∈ s.jobs, p.1 = 1) ∧ (s.job 1).fn = 0 ∧ (s.job 1).fin = 0) := by
  refine ⟨by decide +kernel, by decide +kernel, by decide +kernel⟩

/-- A page request of partition 1, with a number or none. -/
def req0 (rid : Option Nat) : PageReq := { part := 1, ipa := 0x20000, rid, kind := 1, va := 0x20000, waiters := [(0, 0, 0)], time := 5 }

/-- The part with that request, partition 1's rings of two entries at 0x60000 and 0x61000, the reply ring at this tail, its timeout 1 µs. -/
def paging (r : PageReq) (tail time : Nat) : State :=
  { one with mem := cellsAt ([(0, 0x10000), (80, 0x60000 + 2 ^ 60), (88, 0x61000 + 2 ^ 60), (104, tail), (112, 1), (0x10000, 0x20001), (0x20000, 0x30001), (0x30000, 0x1F)]), reqs := [r], time }

/-- QuietEvents: a request that waits with room in the ring; one that is outstanding, with a reply and without, its time passed and not; a ring that can be written and one that cannot. -/
theorem witness_page_requests :
    (∀ s ∈ [paging (req0 none) 0 0], s.reqs = [] ++ req0 none :: [] ∧ (req0 none).part = 1 ∧ (req0 none).rid = none ∧ (req0 none).answer = none ∧
      (s.reqs.filter fun r => decide (r.part = 1 ∧ r.rid ≠ none ∧ r.answer = none)).length < 64 ∧ bits ((partEntry s 1).getD 4 0) 63 32 = 0 ∧
      (0 + 2 ^ 32 - bits ((partEntry s 1).getD 4 0) 31 0) % 2 ^ 32 < 2 ^ bits ((partEntry s 1).getD 2 0) 63 60 ∧ (devWriteWs s 0 (bits ((partEntry s 1).getD 2 0) 56 0) [0, 0, 0, 0]).isSome = true) ∧
    (devWriteWs (hosted []) 0 (2 ^ 40) [0, 0, 0, 0] = none) ∧
    (∀ s ∈ [paging (req0 (some 9)) 1 1000], bits ((partEntry s 1).getD 5 0) 63 32 ≠ bits ((partEntry s 1).getD 5 0) 31 0 ∧ (devReadWs s 0 (bits ((partEntry s 1).getD 3 0) 56 0) 2).isSome = true ∧
      bits ((partEntry s 1).getD 6 0) 31 0 = 1 ∧ (req0 (some 9)).sent + 1000 * 1 ≤ s.time ∧ (paging (req0 (some 9)) 0 999).time < (req0 (some 9)).sent + 1000 * 1 ∧
      bits ((partEntry (paging (req0 (some 9)) 0 0) 1).getD 5 0) 63 32 = bits ((partEntry (paging (req0 (some 9)) 0 0) 1).getD 5 0) 31 0) := by
  refine ⟨by decide +kernel, by decide +kernel, by decide +kernel⟩

/-- QuietEvents: accesses in flight at the count and below it; an entry of the quarantine that leaves, with room in the ring, and one whose count has not come; a halt bundle with commands and without. -/
theorem witness_quiet :
    ((∀ p ∈ one.cores, ∀ m ∈ p.2.sends, one.qcount ≤ m.stamp) ∧ (∀ b ∈ one.bank, b.here = true ∨ one.qcount ≤ b.stamp)) ∧
    (∀ s ∈ [{ part x0 { k0 with sends := [msg0 0] } j0 with qcount := 1 }], ∃ p ∈ s.cores, ∃ m ∈ p.2.sends, m.stamp < s.qcount) ∧
    (∀ s ∈ [{ setWin (hosted []) 0 0x1080 0x8800000000060000 with quarantine := [⟨3, false, 2⟩, ⟨4, false, 1⟩], qcount := 1 }], bit (win s 0 0x1080) 63 = true ∧ (win s 0 0x1088 - win s 0 0x1090).toNat < 2 ^ bits (win s 0 0x1080) 61 57 ∧
      s.quarantine = [⟨3, false, 2⟩] ++ ⟨4, false, 1⟩ :: [] ∧ 1 ≤ s.qcount ∧ (devWriteWs s 0 0x60000 [0x30000]).isSome = true) ∧
    (∀ s ∈ [withX { x0 with iss := some { slot1 := true, halting := true } }], (∃ k ∈ s.me.iss, k.halting = true) ∧ ownCmds s s.cur = []) ∧
    (∀ s ∈ [part { engines.me with iss := some { slot1 := true, halting := true } } (coreOfCmds [mcmd (.zclrE (ef 0 0 0 0))] 0) j0], ownCmds s s.cur ≠ []) := by
  refine ⟨by decide +kernel, by decide +kernel, by decide +kernel, by decide +kernel, by decide +kernel⟩

end Sys2Proof.Tests
end

section
/-! PROOFS. The register windows (R8, R312, R369 to R378, R387, R388, R398, R399, R499): what a read answers and what a write does, row by row. -/

namespace Sys2Proof.Machine

/-! ### What an event of the host does -/

@[simp] theorem exec_registerWrite (fn off : Nat) (v : W64) (s : State) : exec (.registerWrite fn off v) s = .next (writeWindow s fn off v) := rfl
@[simp] theorem exec_doorbell (fn q : Nat) (s : State) : exec (.doorbell fn q) s = .next (ringBell s fn q) := rfl
@[simp] theorem exec_queueCreate (fn q : Nat) (v : W64) (s : State) : exec (.queueCreate fn q v) s = .next (createQueue s fn q v) := rfl
@[simp] theorem exec_flowWrite (fn : Nat) (s : State) : exec (.flowWrite fn) s = .next (applyFlow s fn) := rfl
@[simp] theorem exec_attestationRequest (fn : Nat) (v : W64) (s : State) :
    exec (.attestationRequest fn v) s = .next (askReport s fn (bits v 56 0)) := rfl

/-! ### Reads -/

section
variable (s : State) (fn off : Nat)

theorem readWindow_number : readWindow s fn 0 = w64 fn := by simp [readWindow]

theorem readWindow_recovery (h : s.recovery = true) (h0 : off ≠ 0) :
    readWindow s fn off = if fn = 0 ∧ off = Config.recoveryOff then Config.recoveryStatus else 0 := by simp [readWindow, h, h0]

theorem readWindow_doorbell (h : s.recovery = false) (q : Nat) (hq : q < 16) : readWindow s fn (0x108 + 16 * q) = 0 := by
  have hr : 0x100 ≤ 0x108 + 16 * q ∧ 0x108 + 16 * q < 0x200 := by omega
  have hm : ¬ (0x108 + 16 * q) % 16 = 0 := by omega
  rw [readWindow, if_neg (by omega), h, if_neg Bool.false_ne_true, if_pos hr, if_neg hm]

theorem readWindow_queue (h : s.recovery = false) (q : Nat) (hq : q < 16) :
    readWindow s fn (0x100 + 16 * q) = win s fn (0x100 + 16 * q) := by
  have hr : 0x100 ≤ 0x100 + 16 * q ∧ 0x100 + 16 * q < 0x200 := by omega
  have hm : (0x100 + 16 * q) % 16 = 0 := by omega
  rw [readWindow, if_neg (by omega), h, if_neg Bool.false_ne_true, if_pos hr, if_pos hm]

theorem readWindow_own (h : s.recovery = false) (h1 : 0x200 ≤ off) (h2 : off < 0x1000) : readWindow s fn off = win s fn off := by
  rw [readWindow, if_neg (by omega), h, if_neg Bool.false_ne_true, if_neg (by omega), if_pos h2]

/-- The rows from 0x1000 on are the physical function's alone (R387). -/
theorem readWindow_foreign (h : s.recovery = false) (hf : fn ≠ 0) (h1 : 0x1000 ≤ off) : readWindow s fn off = 0 := by
  rw [readWindow, if_neg (by omega), h, if_neg Bool.false_ne_true, if_neg (by omega), if_neg (by omega), if_pos hf]

theorem readWindow_physical (h : s.recovery = false) (hf : ¬ fn ≠ 0) (h1 : 0x1000 ≤ off) (h2 : off ≠ 0x1018) :
    readWindow s fn off = win s 0 off := by
  rw [readWindow, if_neg (by omega), h, if_neg Bool.false_ne_true, if_neg (by omega), if_neg (by omega), if_neg hf, if_neg h2]

/-- The clock register, its word under a name: the kernel is not to compare two copies of it. -/
theorem readWindow_clock {x : W64} (h : s.recovery = false) (hx : x = w64 ((s.cofs % 2 ^ 32).toNat * 2 ^ 32 + s.cst % 4)) :
    readWindow s 0 0x1018 = x := by
  unfold readWindow
  rw [← hx]
  simp [h]

end

/-- The upper half of a word of two halves. -/
theorem extractLsb'_upper (a b : Nat) (hb : b < 2 ^ 32) : BitVec.extractLsb' 32 32 (w64 (a * 2 ^ 32 + b)) = BitVec.ofNat 32 a := by
  apply BitVec.eq_of_getLsbD_eq
  intro i hi
  have h1 : ¬ 32 + i < 32 := by omega
  have h2 : 32 + i < 64 := by omega
  rw [Nat.mul_comm a, w64, BitVec.getLsbD_extractLsb', BitVec.getLsbD_ofNat, BitVec.getLsbD_ofNat, Nat.testBit_two_pow_mul_add _ hb, if_neg h1,
    Nat.add_sub_cancel_left]
  simp [h2]

/-- The lower half of a word of two halves. -/
theorem extractLsb'_lower (a b : Nat) (hb : b < 2 ^ 32) : BitVec.extractLsb' 0 32 (w64 (a * 2 ^ 32 + b)) = BitVec.ofNat 32 b := by
  apply BitVec.eq_of_getLsbD_eq
  intro i hi
  rw [Nat.mul_comm a, w64, BitVec.getLsbD_extractLsb', BitVec.getLsbD_ofNat, BitVec.getLsbD_ofNat, Nat.testBit_two_pow_mul_add _ hb, Nat.zero_add, if_pos hi]
  simp [hi]
  omega

/-- A signed number's word is that of its residue. -/
theorem ofNat_emod_toNat (i : Int) : BitVec.ofNat 32 (i % 2 ^ 32).toNat = BitVec.ofInt 32 i := by
  apply BitVec.eq_of_toNat_eq
  rw [BitVec.toNat_ofNat, BitVec.toNat_ofInt]
  omega

/-- R8, R387, R399: reads of the window. -/
theorem windowReads : Claims.WindowReads := by
  refine ⟨fun fn s => ⟨readWindow_number s fn, fun h off h0 hx => ?_, fun h h0 => ?_, fun h => ⟨fun q hq => ?_, fun off => ?_, fun hf off ho => ?_, fun off ho hc => ?_⟩⟩,
    fun s h => ?_⟩
  · rw [readWindow_recovery s fn off h h0, if_neg (by tauto)]
  · rw [readWindow_recovery s 0 _ h h0, if_pos ⟨rfl, rfl⟩]
  · exact ⟨readWindow_doorbell s fn h q hq, readWindow_queue s fn h q hq⟩
  · exact readWindow_own s fn off h
  · exact readWindow_foreign s fn off h hf ho
  · exact readWindow_physical s 0 off h (by simp) ho hc
  · have hc : s.cst % 4 < 2 ^ 32 := by omega
    rw [readWindow_clock s h rfl, extractLsb'_upper _ _ hc, extractLsb'_lower _ _ hc, ofNat_emod_toNat]
    exact ⟨rfl, rfl⟩

/-! ### Writes -/

section
variable (s : State) (fn off : Nat) (v : W64)

theorem writeWindow_recovery (h : s.recovery = true) : writeWindow s fn off v = s := by rw [writeWindow, if_pos h]

variable (h : s.recovery = false)
include h

theorem writeWindow_doorbell (q : Nat) (hq : q < 16) : writeWindow s fn (0x108 + 16 * q) v = ringBell s fn q := by
  have hr : 0x100 ≤ 0x108 + 16 * q ∧ 0x108 + 16 * q < 0x200 := by omega
  have hm : (0x108 + 16 * q) % 16 = 8 := by omega
  have hk : (0x108 + 16 * q - 0x100) / 16 = q := by omega
  rw [writeWindow, h, if_neg Bool.false_ne_true, if_pos hr]
  simp only [hk, hm, if_true]

theorem writeWindow_queue (q : Nat) (hq : q < 16) : writeWindow s fn (0x100 + 16 * q) v =
    if bit v 63 then createQueue s fn q v else destroyQueue (setWin s fn (0x100 + 16 * q) (w64 (bits v 56 0))) fn q := by
  have hr : 0x100 ≤ 0x100 + 16 * q ∧ 0x100 + 16 * q < 0x200 := by omega
  have hm : (0x100 + 16 * q) % 16 = 0 := by omega
  rw [writeWindow, h, if_neg Bool.false_ne_true, if_pos hr]
  simp [hm]

theorem writeWindow_flow : writeWindow s fn 0x200 v =
    if bit v 63 then applyFlow (setWin s fn 0x200 (w64 (bits v 56 0))) fn else setWin s fn 0x200 (w64 (bits v 56 0)) := by
  simp [writeWindow, h]

theorem writeWindow_flowNumber : writeWindow s fn 0x208 v = setWin s fn 0x208 (w64 (bits v 15 0)) := by simp [writeWindow, h]

theorem writeWindow_report : writeWindow s fn 0x300 v =
    if bit v 63 then askReport s fn (bits v 56 0) else setWin s fn 0x300 (w64 (bits v 56 0)) := by simp [writeWindow, h]

/-- What lies at none of the rows that every function can write is left to the physical function (R387). -/
theorem writeWindow_else (h1 : ¬ (0x100 ≤ off ∧ off < 0x200)) (h2 : off ≠ 0x200) (h3 : off ≠ 0x208) (h4 : off ≠ 0x300) :
    writeWindow s fn off v = if fn = 0 then writePf s off v else s := by
  rw [writeWindow, h, if_neg Bool.false_ne_true, if_neg h1, if_neg h2, if_neg h3, if_neg h4]

theorem writeWindow_physical (h1 : 0x1000 ≤ off) : writeWindow s 0 off v = writePf s off v := by
  rw [writeWindow_else s 0 off v h (by omega) (by omega) (by omega) (by omega), if_pos rfl]

/-- Registers that only the device writes, and the physical function's registers in another window, keep what they hold. -/
theorem writeWindow_readOnly
    (ho : off = 0 ∨ off = 0x210 ∨ off = 0x308 ∨ off = 0x1008 ∨ off = 0x1018 ∨ off = 0x1088 ∨ 0x1000 ≤ off ∧ fn ≠ 0) :
    writeWindow s fn off v = s := by
  rw [writeWindow_else s fn off v h (by omega) (by omega) (by omega) (by omega)]
  split
  · next hf =>
    have hp : off = 0 ∨ off = 0x210 ∨ off = 0x308 ∨ off = 0x1008 ∨ off = 0x1018 ∨ off = 0x1088 := by tauto
    rcases hp with rfl | rfl | rfl | rfl | rfl | rfl <;> simp [writePf]
  · rfl

end

section
variable (s : State) (v : W64)

theorem ringReg_eq : ringReg v = w64 (bits v 61 0 +
    if bit v 63 = true ∧ bits v 56 0 % 4096 = 0 ∧ 4 ≤ bits v 61 57 ∧ bits v 61 57 ≤ 16 then 2 ^ 63 else 0) := by
  simp [ringReg, and_assoc]

theorem writePf_ring {off : Nat} (ho : off = 0x1000 ∨ off = 0x1080) : writePf s off v = setWin s 0 off (ringReg v) := by
  rw [writePf, if_pos ho]

theorem writePf_quiescence : writePf s 0x1010 v =
    setWin s 0 0x1010 (w64 (bits v 56 0 + if bit v 63 ∧ bits v 56 0 % 8 = 0 then 2 ^ 63 else 0)) := by simp [writePf]

theorem writePf_scrub : writePf s 0x1030 v = setWin s 0 0x1030 (w64 (max 1 (min 100 (bits v 6 0)))) := by simp [writePf]

theorem writePf_vpdef (p : Nat) (hp : p ≤ 32) : writePf s (0x2008 + 16 * p) v = setWin s 0 (0x2008 + 16 * p) (w64 (bits v 2 0)) := by
  have hr : 0x2000 ≤ 0x2008 + 16 * p ∧ 0x2008 + 16 * p < 0x2210 ∧ (0x2008 + 16 * p) % 16 = 8 := by omega
  rw [writePf, if_neg (by omega), if_neg (by omega), if_neg (by omega), if_neg (by omega), if_neg (by omega), if_pos hr]

/-- The points of a partition are stored where each is in its range (R371). -/
theorem writePf_vpmap (p : Nat) (hp : p ≤ 32) : writePf s (0x2000 + 16 * p) v =
    if ∃ i < 8, bits v (8 * i + 7) (8 * i + 5) ≠ 0 then s else setWin s 0 (0x2000 + 16 * p) v := by
  have hr : 0x2000 ≤ 0x2000 + 16 * p ∧ 0x2000 + 16 * p < 0x2210 ∧ (0x2000 + 16 * p) % 16 = 0 := by omega
  rw [writePf, if_neg (by omega), if_neg (by omega), if_neg (by omega), if_neg (by omega), if_pos hr]
  simp only [List.any_eq_true, List.mem_range, bne_iff_ne]

theorem writePf_pool (d : Nat) (hd : d < 4) : writePf s (0x2400 + 8 * d) v = setWin s 0 (0x2400 + 8 * d) (w64 (min 7552 (bits v 12 0))) := by
  have hr : 0x2400 ≤ 0x2400 + 8 * d ∧ 0x2400 + 8 * d < 0x2420 ∧ (0x2400 + 8 * d) % 8 = 0 := by omega
  rw [writePf, if_neg (by omega), if_neg (by omega), if_neg (by omega), if_neg (by omega), if_neg (by omega), if_neg (by omega), if_pos hr]

theorem writePf_didt (d : Nat) (hd : d < 4) : writePf s (0x2420 + 8 * d) v = setWin s 0 (0x2420 + 8 * d) (w64 (max 1 (bits v 11 0))) := by
  have hr : 0x2420 ≤ 0x2420 + 8 * d ∧ 0x2420 + 8 * d < 0x2440 ∧ (0x2420 + 8 * d) % 8 = 0 := by omega
  rw [writePf, if_neg (by omega), if_neg (by omega), if_neg (by omega), if_neg (by omega), if_neg (by omega), if_neg (by omega), if_neg (by omega), if_pos hr]

end

/-- R312, R369, R371, R373, R378, R387, R388, R398, R399, R401, R499: writes of the window. -/
theorem windowWrites : Claims.WindowWrites := by
  intro fn v s
  refine ⟨fun h off => by rw [exec_registerWrite, writeWindow_recovery s fn off v h], fun h set hset => ?_⟩
  subst hset
  intro a ring
  refine ⟨fun q hq => ⟨?_, fun hb => ?_, fun hb => ?_⟩, ?_, ?_, fun hb => ?_, fun hb => ?_, fun off ho => ?_, fun hf => ?_⟩
  · rw [exec_registerWrite, writeWindow_doorbell s fn v h q hq, exec_doorbell]
  · rw [exec_registerWrite, writeWindow_queue s fn v h q hq, if_pos hb, exec_queueCreate]
  · rw [exec_registerWrite, writeWindow_queue s fn v h q hq, hb, if_neg Bool.false_ne_true]
    rfl
  · rw [exec_registerWrite, writeWindow_flow s fn v h, exec_flowWrite]
    split <;> rfl
  · rw [exec_registerWrite, writeWindow_flowNumber s fn v h]
    rfl
  · rw [exec_registerWrite, writeWindow_report s fn v h, if_pos hb, exec_attestationRequest]
  · rw [exec_registerWrite, writeWindow_report s fn v h, hb, if_neg Bool.false_ne_true]
    rfl
  · rw [exec_registerWrite, writeWindow_readOnly s fn off v h ho]
  · subst hf
    have key : ∀ off, 0x1000 ≤ off → exec (.registerWrite 0 off v) s = .next (writePf s off v) := fun off ho => by
      rw [exec_registerWrite, writeWindow_physical s off v h ho]
    refine ⟨?_, ?_, ?_, ?_, fun p hp => ⟨?_, fun hi => ?_, fun hi => ?_⟩, fun d hd => ⟨?_, ?_⟩⟩
    · rw [key _ (by omega), writePf_ring s v (.inl rfl), ringReg_eq]
      rfl
    · rw [key _ (by omega), writePf_ring s v (.inr rfl), ringReg_eq]
      rfl
    · rw [key _ (by omega), writePf_quiescence]
      rfl
    · rw [key _ (by omega), writePf_scrub]
      rfl
    · rw [key _ (by omega), writePf_vpdef s v p hp]
      rfl
    · rw [key _ (by omega), writePf_vpmap s v p hp, if_neg (by push Not; exact hi)]
      show _ = Host.Outcome.next (setWin s 0 _ (BitVec.ofNat 64 v.toNat))
      rw [BitVec.ofNat_toNat, BitVec.setWidth_eq]
    · rw [key _ (by omega), writePf_vpmap s v p hp, if_pos hi]
    · rw [key _ (by omega), writePf_pool s v d hd]
      rfl
    · rw [key _ (by omega), writePf_didt s v d hd]
      rfl

end Sys2Proof.Machine
end

section
/-! PROOFS. BAR2 and the reports of attestation (R387, R400, R401). -/

namespace Sys2Proof.Machine

/-- R387: BAR2. -/
theorem bar2 : Claims.Bar2 := by
  intro fn a b s
  have key : ∀ w : Bool, exec (.bar2Access fn a w b) s =
      .next (if w && !s.recovery && decide (a + b.length ≤ 2 ^ 36) then (devWriteBytes s fn a b).getD s else s) := fun _ => rfl
  refine ⟨by rw [key]; simp, fun h => ?_, fun u h1 h2 h3 => ?_⟩
  · rw [key]
    rcases h with h | h | h
    · simp [h]
    · rw [decide_eq_false (Nat.not_le.mpr h)]
      simp
    · simp [h]
  · rw [key, h1, h3, decide_eq_true h2]
    rfl

/-! ### Attestation -/

section
variable (s : State) (fn a : Nat)

theorem askReport_ignored (h : s.recovery = true ∨ win s fn 0x308 = 1) : askReport s fn a = s := by rw [askReport, if_pos h]

variable (h1 : s.recovery = false) (h2 : win s fn 0x308 ≠ 1)
include h1 h2

theorem askReport_heard : askReport s fn a = let u := setWin s fn 0x300 (w64 a)
    if a % 64 ≠ 0 then setWin u fn 0x308 3 else { setWin u fn 0x308 1 with attn := u.attn ++ [(fn, a)] } := by
  rw [askReport, if_neg (by rw [h1]; exact fun h => h.elim Bool.false_ne_true h2)]

end

section
variable {fn a : Nat} {s u : State}

theorem attestationDone_unasked (h : s.attn.find? (fun p => p.1 == fn) = none) : exec (.attestationDone fn) s = .next s := by
  show execAttestationDone fn s = _
  rw [execAttestationDone, runEvent_modify, h]

variable (h : s.attn.find? (fun p => p.1 == fn) = some (fn, a)) (hu : u = { s with attn := s.attn.filter fun p => p.1 != fn })
include h hu

/-- The buffer's nonce cannot be read. -/
theorem attestationDone_unread (hr : devReadBytes u fn (a + 0x10) 32 = none) : exec (.attestationDone fn) s = .next (setWin u fn 0x308 3) := by
  subst hu
  show execAttestationDone fn s = _
  rw [execAttestationDone, runEvent_modify, h]
  simp only [hr]

variable {n : List Byte} (hr : devReadBytes u fn (a + 0x10) 32 = some n)
include hr

/-- The report cannot be written. -/
theorem attestationDone_unwritten (hw : devWriteBytes u fn a (report u fn n) = none) : exec (.attestationDone fn) s = .next (setWin u fn 0x308 3) := by
  subst hu
  show execAttestationDone fn s = _
  rw [execAttestationDone, runEvent_modify, h]
  simp only [hr, hw]

theorem attestationDone_written {w : State} (hw : devWriteBytes u fn a (report u fn n) = some w) :
    exec (.attestationDone fn) s = .next (signal (setWin w fn 0x308 2) fn 17) := by
  subst hu
  show execAttestationDone fn s = _
  rw [execAttestationDone, runEvent_modify, h]
  simp only [hr, hw]

end

/-- The paddock registers of a report are enabled ones that name its partition (R83). -/
theorem mem_ownPaddocks {s : State} {fn i k : Nat} {v : W64} (h : (i, k, v) ∈ ownPaddocks s fn) : bit v 63 = true ∧ bits v 53 48 = fn := by
  simp only [ownPaddocks, List.mem_flatMap, List.mem_filterMap] at h
  obtain ⟨c, -, p, -, hp⟩ := h
  split at hp
  · next hv =>
    cases hp
    exact hv
  · cases hp

/-- R387, R400, R401: reports. -/
theorem attests : Claims.Attests := by
  refine ⟨fun fn v s => ⟨fun h => ?_, fun h1 h2 => ?_⟩, fun fn s => ⟨fun h => ?_, fun a l l' u hs hl hu => ?_⟩, fun fn n s => ?_⟩
  · rw [exec_attestationRequest, askReport_ignored s fn _ h]
  · rw [exec_attestationRequest, askReport_heard s fn _ h1 h2]
    refine ⟨fun ha => ?_, fun ha => ?_⟩
    · simp only [if_pos ha]
      rfl
    · simp only [if_neg (not_not.mpr ha)]
      rfl
  · exact attestationDone_unasked (List.find?_eq_none.mpr fun p hp => by simpa using h p hp)
  · have h : s.attn.find? (fun p => p.1 == fn) = some (fn, a) := by
      rw [hs, List.find?_append, List.find?_eq_none.mpr fun p hp => by simpa using hl p hp]
      simp
    refine ⟨attestationDone_unread h hu, fun n hr => ⟨attestationDone_unwritten h hu hr, fun w hw => ?_⟩⟩
    exact attestationDone_written h hu hr hw
  · exact ⟨reportBody s fn n, rfl, rfl, fun i k v => mem_ownPaddocks⟩

end Sys2Proof.Machine
end

section
/-! PROOFS. The device's reset (R397 to R399, R443): the images that a boot takes, and the tables that it writes for partition 0. -/

namespace Sys2Proof.Machine

/-! ### Images -/

theorem imageGood_iff (im : List Byte) : imageGood im = true ↔ Claims.Good im := by
  simp only [imageGood, Claims.Good, Bool.and_eq_true, beq_iff_eq, decide_eq_true_eq, and_assoc]

/-- The image that waits for the next reset (R398). -/
def stagedImage (fw : List (Nat × List Byte)) (k : Nat) : Option (List Byte) := (fw.find? fun p => p.1 == k).map (·.2)

/-- What a boot makes of image k, after those before it (R399). -/
def bootImage (fw : List (Nat × List Byte)) (acc : Option (List (Nat × List Byte))) (k : Nat) : Option (List (Nat × List Byte)) :=
  acc.bind fun m => ((stagedImage fw k).elim (some m)) fun im => if imageGood im then some (mapSet [] m (4 + k) (shake256 im 64)) else none

/-- The body of a boot is `bootImage`, image by image. -/
theorem boot_eq (fw : List (Nat × List Byte)) : boot fw = [0, 1, 2].foldl (bootImage fw) (some fw) := by
  unfold boot
  congr 1
  funext acc k
  unfold bootImage stagedImage
  cases acc with
  | none => rfl
  | some m => cases fw.find? fun p => p.1 == k <;> rfl

theorem foldl_bootImage_none (fw : List (Nat × List Byte)) (ks : List Nat) : ks.foldl (bootImage fw) none = none := by
  induction ks with
  | nil => rfl
  | cons k ks ih => exact ih

/-- One image that is refused stops the boot (R399). -/
theorem foldl_bootImage_refused (fw : List (Nat × List Byte)) (ks : List Nat) (acc : Option (List (Nat × List Byte))) {k : Nat} {im : List Byte}
    (hk : k ∈ ks) (hs : stagedImage fw k = some im) (hb : ¬ Claims.Good im) : ks.foldl (bootImage fw) acc = none := by
  obtain ⟨l, l', rfl⟩ := List.append_of_mem hk
  rw [List.foldl_append, List.foldl_cons]
  have h : ∀ a, bootImage fw a k = none := fun a => by
    cases a with
    | none => rfl
    | some m =>
      show (stagedImage fw k).elim (some m) _ = none
      rw [hs, Option.elim_some, if_neg (fun g => hb ((imageGood_iff im).mp g))]
  rw [h, foldl_bootImage_none]

/-- Where every staged image is good the boot goes on, and measures each (R399). -/
theorem foldl_bootImage_good (fw : List (Nat × List Byte)) (ks : List Nat) (m : List (Nat × List Byte))
    (hg : ∀ k ∈ ks, ∀ im, stagedImage fw k = some im → Claims.Good im) :
    ∃ m', ks.foldl (bootImage fw) (some m) = some m' ∧ (∀ k ∈ ks, ∀ im, stagedImage fw k = some im → mapGet [] m' (4 + k) = shake256 im 64) ∧
      ∀ k im, stagedImage fw k = some im → mapGet [] m (4 + k) = shake256 im 64 → mapGet [] m' (4 + k) = shake256 im 64 := by
  induction ks generalizing m with
  | nil => exact ⟨m, rfl, by simp, fun _ _ _ h => h⟩
  | cons k ks ih =>
    have hg' : ∀ j ∈ ks, ∀ im, stagedImage fw j = some im → Claims.Good im := fun j hj => hg j (List.mem_cons_of_mem _ hj)
    cases hs : stagedImage fw k with
    | none =>
      obtain ⟨m', h1, h2, h3⟩ := ih m hg'
      refine ⟨m', ?_, fun j hj im hj' => ?_, h3⟩
      · rw [List.foldl_cons, ← h1]
        simp [bootImage, hs]
      · rcases List.mem_cons.mp hj with rfl | hj
        · rw [hs] at hj'
          cases hj'
        · exact h2 j hj im hj'
    | some im =>
      obtain ⟨m', h1, h2, h3⟩ := ih (mapSet [] m (4 + k) (shake256 im 64)) hg'
      have hk : mapGet [] m' (4 + k) = shake256 im 64 := h3 k im hs (mapGet_mapSet_same ..)
      refine ⟨m', ?_, fun j hj im' hj' => ?_, fun j im' hj' hm => ?_⟩
      · rw [List.foldl_cons, ← h1]
        simp [bootImage, hs, (imageGood_iff im).mpr (hg k (by simp) im hs)]
      · rcases List.mem_cons.mp hj with rfl | hj
        · rw [hs] at hj'
          cases hj'
          exact hk
        · exact h2 j hj im' hj'
      · by_cases e : j = k
        · subst e
          rw [hs] at hj'
          cases hj'
          exact hk
        · exact h3 j im' hj' (by rw [mapGet_mapSet_ne _ _ _ (by omega)]; exact hm)

/-! ### Partition 0's tables -/

/-- n words, of which the list's stand first and the rest are zero. -/
def tableBytes (l : List Nat) (n : Nat) : List Byte := (List.range n).flatMap fun i => natToBytes 8 (l.getD i 0)

@[simp] theorem tableBytes_length (l : List Nat) (n : Nat) : (tableBytes l n).length = 8 * n := by
  simp [tableBytes, Nat.mul_comm]

theorem writeBytes_append (a b : List Byte) (s : State) (k : Nat) : writeBytes s k (a ++ b) = writeBytes (writeBytes s k a) (k + a.length) b := by
  induction a generalizing s k with
  | nil => rfl
  | cons x t ih =>
    rw [List.cons_append, writeBytes, writeBytes, ih, List.length_cons, Nat.add_right_comm, Nat.add_assoc]

/-- The words before number i, the word itself, and those after it. -/
theorem tableBytes_split (l : List Nat) (i n : Nat) (h : i < n) :
    ∃ c, tableBytes l n = tableBytes l i ++ natToBytes 8 (l.getD i 0) ++ c := by
  obtain ⟨m, rfl⟩ : ∃ m, n = i + 1 + m := ⟨n - (i + 1), by omega⟩
  refine ⟨((List.range m).map (i + 1 + ·)).flatMap fun i => natToBytes 8 (l.getD i 0), ?_⟩
  rw [tableBytes, List.range_add, List.flatMap_append, List.range_succ, List.flatMap_append, List.flatMap_singleton]
  rfl

/-- A word of a table just written. -/
theorem readNat_tableBytes (s : State) (k : Nat) (l : List Nat) (i n : Nat) (h : i < n) :
    readNat (writeBytes s k (tableBytes l n)) (k + 8 * i) 8 = l.getD i 0 % 2 ^ 64 := by
  obtain ⟨c, e⟩ := tableBytes_split l i n h
  have hl : k + (tableBytes l i ++ natToBytes 8 (l.getD i 0)).length = k + 8 * i + 8 := by simp; omega
  rw [e, writeBytes_append, hl, writeBytes_append, tableBytes_length, readNat, readBytes_congr (writeNat (writeBytes s k (tableBytes l i)) (k + 8 * i) 8 (l.getD i 0))]
  · exact (readNat_writeNat ..).trans (by norm_num)
  · exact fun j _ hj => readByte_writeBytes_outside _ _ _ _ (.inl (by omega))

/-- A word of a table that a function lists. -/
theorem readNat_tableBytes_map (s : State) (k : Nat) (f : Nat → Nat) (i m n : Nat) (hm : i < m) (hn : i < n) (hf : f i < 2 ^ 64) :
    readNat (writeBytes s k (tableBytes ((List.range m).map f) n)) (k + 8 * i) 8 = f i := by
  rw [readNat_tableBytes _ _ _ _ _ hn, List.getD_eq_getElem _ _ (by simpa using hm), List.getElem_map, List.getElem_range, Nat.mod_eq_of_lt hf]

theorem readByte_tableBytes_outside (s : State) (k : Nat) (l : List Nat) (n j : Nat) (h : j < k ∨ k + 8 * n ≤ j) :
    readByte (writeBytes s k (tableBytes l n)) j = readByte s j :=
  readByte_writeBytes_outside _ _ _ _ (by rwa [tableBytes_length])

/-- A word apart from a table just written. -/
theorem readNat_tableBytes_apart (s : State) (k : Nat) (l : List Nat) (n j : Nat) (h : j + 8 ≤ k ∨ k + 8 * n ≤ j) :
    readNat (writeBytes s k (tableBytes l n)) j 8 = readNat s j 8 := by
  unfold readNat
  rw [readBytes_congr s]
  intro i h1 h2
  exact readByte_tableBytes_outside _ _ _ _ _ (by omega)

/-- The entry at d, and from d + a on the root and the nodes of level 2 and 1 (R443). -/
def bootTables (s : State) (d a : Nat) : State :=
  let s := writeBytes s d (tableBytes [a] 8)
  let s := writeBytes s (d + a) (tableBytes [a + 2 ^ 16 + 1] 4)
  let s := writeBytes s (d + (a + 2 ^ 16)) (tableBytes [a + 2 ^ 17 + 1] 8192)
  writeBytes s (d + (a + 2 ^ 17)) (tableBytes ((List.range 1024).map fun i => 2 ^ 29 * i + 0x1F) 8192)

theorem bootTables_only (s : State) (d a : Nat) : ∃ m, bootTables s d a = { s with mem := m } := by
  have trans : ∀ {s t u : State}, (∃ m, t = { s with mem := m }) → (∃ m, u = { t with mem := m }) → ∃ m, u = { s with mem := m } := by
    rintro s _ u ⟨m, rfl⟩ h
    exact h
  have write : ∀ (s : State) (k : Nat) (b : List Byte), ∃ m, writeBytes s k b = { s with mem := m } := fun s k b => ⟨_, writeBytes_eq b s k⟩
  exact trans (trans (trans (write ..) (write ..)) (write ..)) (write ..)

/-- The first word of a table just written. -/
theorem readNat_tableBytes_head (s : State) (k v n : Nat) (hn : 0 < n) (hv : v < 2 ^ 64) : readNat (writeBytes s k (tableBytes [v] n)) k 8 = v :=
  (readNat_tableBytes s k [v] 0 n hn).trans (Nat.mod_eq_of_lt hv)

theorem readNat_bootTables_entry (s : State) (d a : Nat) (h1 : 2 ^ 16 ≤ a) (h2 : a < 2 ^ 64) : readNat (bootTables s d a) d 8 = a :=
  (readNat_tableBytes_apart _ _ _ _ _ (.inl (by omega))).trans <| (readNat_tableBytes_apart _ _ _ _ _ (.inl (by omega))).trans <|
    (readNat_tableBytes_apart _ _ _ _ _ (.inl (by omega))).trans (readNat_tableBytes_head s d a 8 (by omega) h2)

theorem readNat_bootTables_leaf (s : State) (d a i : Nat) (hi : i < 1024) :
    readNat (bootTables s d a) (d + (a + 2 ^ 17) + 8 * i) 8 = 2 ^ 29 * i + 0x1F := by
  simp only [bootTables]
  exact readNat_tableBytes_map _ _ (fun i => 2 ^ 29 * i + 0x1F) i 1024 8192 hi (by omega) (by omega)

theorem readByte_bootTables_outside (s : State) (d a j : Nat) (h1 : j < d ∨ d + 64 ≤ j) (h2 : j < d + a ∨ d + (a + 3 * 2 ^ 16) ≤ j) :
    readByte (bootTables s d a) j = readByte s j := by
  simp only [bootTables]
  rw [readByte_tableBytes_outside _ _ _ _ _ (by omega), readByte_tableBytes_outside _ _ _ _ _ (by omega),
    readByte_tableBytes_outside _ _ _ _ _ (by omega), readByte_tableBytes_outside _ _ _ _ _ (by omega)]

/-- The page at which partition 0's tables begin (log 129). -/
def tablePage : Nat := 1 + Config.bootPage % (2 ^ 23 - 4)

theorem tablePage_pos : 1 ≤ tablePage := Nat.le_add_right ..

theorem tablePage_le : tablePage + 4 ≤ 2 ^ 23 := by
  have : Config.bootPage % (2 ^ 23 - 4) < 2 ^ 23 - 4 := Nat.mod_lt _ (by norm_num)
  unfold tablePage
  omega

theorem devKey_eq_add (a : Nat) : devKey a = devKey 0 + a := by simp [devKey]

/-- Evden's writes are those of the tables at their page (R443). -/
theorem bootMap_eq (s : State) : bootMap s = bootTables s (devKey 0) (2 ^ 16 * tablePage) := by
  unfold bootTables
  rw [← devKey_eq_add, ← devKey_eq_add, ← devKey_eq_add]
  unfold bootMap tablePage tableBytes
  rfl

/-! ### The reset -/

/-- The part with every register at its reset value, before the images are looked at (R397, R399). -/
def resetRegisters (s : State) : State := { State.reset with
  mem := s.mem, fw := s.fw, free := s.free, agenda := s.agenda, msix := s.msix, sent := s.sent, sideband := s.sideband }

theorem deviceReset_refused {s : State} (h : boot s.fw = none) : exec .deviceReset s = .next { resetRegisters s with recovery := true } := by
  show execDeviceReset s = _
  rw [execDeviceReset, runEvent_modify, h]
  rfl

theorem deviceReset_booted {s : State} {fw : List (Nat × List Byte)} (h : boot s.fw = some fw) :
    exec .deviceReset s = .next (bootMap { resetRegisters s with fw := fw }) := by
  show execDeviceReset s = _
  rw [execDeviceReset, runEvent_modify, h]
  rfl

theorem exec_firmwareStage (k : BitVec 2) (im : List Byte) (s : State) :
    exec (.firmwareStage k im) s = .next (if k = 3 then s else { s with fw := mapSet [] s.fw k.toNat im }) := rfl

/-- R398, R399, R443: images and the device's reset. -/
theorem boots : Claims.Boots := by
  refine ⟨fun k im s => ⟨fun hk => ?_, fun hk => ?_⟩, fun s => ⟨?_, fun h => ?_⟩⟩
  · rw [exec_firmwareStage, if_pos hk]
  · rw [exec_firmwareStage, if_neg hk]
    exact ⟨_, rfl, rfl, fun j => mapGet_mapSet ..⟩
  · rintro ⟨k, hk, im, hs, hb⟩
    refine deviceReset_refused ?_
    rw [boot_eq]
    exact foldl_bootImage_refused s.fw _ _ (by simp; omega) hs hb
  · obtain ⟨fw, h1, h2, -⟩ := foldl_bootImage_good s.fw [0, 1, 2] s.fw fun k hk => h k (by simp at hk; omega)
    obtain ⟨r, hr⟩ : ∃ r : State, r = { resetRegisters s with fw := fw } := ⟨_, rfl⟩
    obtain ⟨p, hp⟩ : ∃ p, p = tablePage := ⟨_, rfl⟩
    have hp1 : 1 ≤ p := hp ▸ tablePage_pos
    have hp2 : p + 4 ≤ 2 ^ 23 := hp ▸ tablePage_le
    have hx : exec .deviceReset s = .next (bootTables r (devKey 0) (2 ^ 16 * p)) := by
      rw [deviceReset_booted ((boot_eq s.fw).trans h1), bootMap_eq, ← hr, ← hp]
    obtain ⟨m, hm⟩ := bootTables_only r (devKey 0) (2 ^ 16 * p)
    have hf : (bootTables r (devKey 0) (2 ^ 16 * p)).fw = fw := by rw [hm, hr]
    refine ⟨_, hx, ?_, fun k hk im hs => ?_, p, hp2, hp1, readNat_bootTables_entry _ _ _ (by omega) (by omega), fun i hi => ?_, fun a ha hb => ?_⟩
    · rw [hf]
      rw [hm, hr]
      rfl
    · rw [hf]
      exact h2 k (by simp; omega) im hs
    · rw [devKey_eq_add, show 2 ^ 16 * (p + 2) = 2 ^ 16 * p + 2 ^ 17 by omega]
      exact readNat_bootTables_leaf _ _ _ i hi
    · rw [devKey_eq_add (2 ^ 16 * p), devKey_eq_add (2 ^ 16 * (p + 3)), show 2 ^ 16 * (p + 3) = 2 ^ 16 * p + 3 * 2 ^ 16 by omega] at hb
      rw [readByte_bootTables_outside _ _ _ _ ha hb, hr]
      rfl

end Sys2Proof.Machine
end

section
/-! PROOFS. The function-level reset (R345, R389, R453, R490): what each of its parts keeps, and what is left at its end. -/

namespace Sys2Proof.Machine

/-! ### The parts of the reset -/

/-- The jobs, instances and streams of a function end. -/
def cancelOwn (s : State) (fn : Nat) : State :=
  let s := ((s.jobs.filter fun p => p.2.fn == fn && p.2.fin == 0).map (·.1)).foldl cancelJob s
  let s := { s with graphs := s.graphs.map fun (p : Nat × Graph) => (p.1, if p.2.fn = fn then { p.2 with pending := none } else p.2) }
  let s := ((s.graphs.filter fun p => p.2.fn == fn && p.2.live).map (·.1)).foldl cancelInstance s
  ((s.streams.filter fun p => p.2.fn == fn && p.2.status != 0).map (·.1)).foldl dropStream s

/-- The function's queues are destroyed. -/
def destroyOwn (s : State) (fn : Nat) : State := (List.range 17).foldl (fun s q => destroyQueue s fn q) s

/-- The open sequences of a function, by die and slot. -/
def ownSeqs (s : State) (fn : Nat) : List (Nat × Nat) :=
  s.dies.flatMap fun (d, x) => x.seqs.filterMap fun (n, q) => if q.isOpen && q.part == fn then some (d, n) else none

/-- They are closed. -/
def closeOwn (s : State) (fn : Nat) : State := (ownSeqs s fn).foldl (fun s p => closeSeq s p.1 p.2) s

/-- The function's flows, requests, reports, levels and registers go. -/
def clearOwn (s : State) (fn : Nat) : State := { s with
  flows := s.flows.filter fun p => p.2.owner != fn
  outKept := s.outKept.filter fun p => (s.flow p.1).owner != fn
  reqs := s.reqs.filter fun r => r.part != fn
  attn := s.attn.filter fun p => p.1 != fn
  ctxs := s.ctxs.map fun (p : Nat × Ctx) => if (s.job p.2.job).fn = fn then (p.1, { p.2 with held := 0, release := none }) else p
  pf := s.pf.filter fun p => p.1 / 2 ^ 16 != fn }

theorem resetFn_eq (s : State) (fn : Nat) : resetFn s fn = clearOwn (closeOwn (destroyOwn (cancelOwn s fn) fn) fn) fn := by
  unfold resetFn
  extract_lets s1 s2 s3 s4 s5 s6 s7
  have h4 : s4 = cancelOwn s fn := rfl
  have h5 : s5 = destroyOwn s4 fn := rfl
  have h6 : s6 = closeOwn s5 fn := rfl
  rw [← h4, ← h5, ← h6]
  clear_value s6
  rfl

/-! ### What the cancels and the destruction of queues keep -/

/-- What the end of jobs and queues keeps: the dies and windows, every cancelled job and every dead queue. -/
structure WorkEnds (s t : State) : Prop where
  dies : t.dies = s.dies
  pf : t.pf = s.pf
  cancelled : ∀ j, (s.job j).cancelled = true → (t.job j).cancelled = true
  dead : ∀ k, (s.queue k).live = false → (t.queue k).live = false

theorem WorkEnds.refl (s : State) : WorkEnds s s := ⟨rfl, rfl, fun _ h => h, fun _ h => h⟩

theorem WorkEnds.trans {s t u : State} (h : WorkEnds s t) (g : WorkEnds t u) : WorkEnds s u :=
  ⟨g.dies.trans h.dies, g.pf.trans h.pf, fun j c => g.cancelled j (h.cancelled j c), fun k c => g.dead k (h.dead k c)⟩

theorem WorkEnds.foldl {α : Type} {f : State → α → State} (h : ∀ s a, WorkEnds s (f s a)) (l : List α) (s : State) : WorkEnds s (l.foldl f s) := by
  induction l generalizing s with
  | nil => exact .refl s
  | cons a t ih => exact (h s a).trans (ih _)

theorem Cancels.ends {s t : State} (h : Cancels s t) : WorkEnds s t := by
  obtain ⟨e, hj⟩ := h
  refine ⟨?_, ?_, fun j => (hj j).1, fun k hk => ?_⟩
  · rw [e]
  · rw [e]
  · have : t.queue k = s.queue k := by rw [e]; rfl
    rwa [this]

/-- What the stop of a queue changes (R316, R398): its entry is marked stopped, its control block is written, and the host or the sideband is told. -/
theorem stopQueue_only (s : State) (fn q err pos : Nat) : ∃ m v b, stopQueue s fn q err pos =
    { s.setQueue (queueKey fn q) { s.queue (queueKey fn q) with stop := true } with mem := m, msix := v, sideband := b } := by
  unfold stopQueue
  extract_lets h s1 s2
  obtain ⟨m, e⟩ : ∃ m, s2 = { s1 with mem := m } := devStore_only ..
  rw [e]
  split
  · exact ⟨m, _, _, rfl⟩
  · exact ⟨m, _, _, rfl⟩

theorem stopQueue_ends (s : State) (fn q err pos : Nat) : WorkEnds s (stopQueue s fn q err pos) := by
  obtain ⟨m, v, b, e⟩ := stopQueue_only s fn q err pos
  rw [e]
  refine ⟨rfl, rfl, fun _ h => h, fun k hk => ?_⟩
  show ((s.setQueue _ _).queue k).live = false
  rw [State.queue_setQueue]
  split
  · next h => rwa [h] at hk
  · exact hk

/-- A queue that its number names is dead once it has been destroyed (R484). -/
theorem destroyQueue_spec (s : State) (fn q : Nat) :
    WorkEnds s (destroyQueue s fn q) ∧ ((destroyQueue s fn q).queue (queueKey fn q)).live = false := by
  unfold destroyQueue
  extract_lets k h s1
  split
  · next hl => exact ⟨.refl s, by simpa using hl⟩
  · have h1 : WorkEnds s s1 := ⟨rfl, rfl, fun _ h => h, fun i hi => by
      show ((s.setQueue _ _).queue i).live = false
      rw [State.queue_setQueue]
      split
      · rfl
      · exact hi⟩
    have h2 := (cancelQueue_cancels s1 k).ends.trans (stopQueue_ends (cancelQueue s1 k) fn q 8 h.head)
    exact ⟨h1.trans h2, h2.dead _ (by show ((s.setQueue k _).queue k).live = false; rw [State.queue_setQueue_same])⟩

theorem cancelOwn_cancels (s : State) (fn : Nat) : Cancels s (cancelOwn s fn) := by
  unfold cancelOwn
  exact (((Cancels.foldl cancelJob_cancels _ s).setGraphs _).trans (.foldl cancelInstance_cancels _ _)).trans (.foldl dropStream_cancels _ _)

/-- A live job among those that are cancelled in turn is cancelled. -/
theorem foldl_cancelJob_cancelled (s : State) (l : List Nat) {j : Nat} (hj : j ∈ l) (h0 : j ≠ 0) (hl : ∃ p ∈ s.jobs, p.1 = j) (hf : (s.job j).fin = 0) :
    ((l.foldl cancelJob s).job j).cancelled = true := by
  obtain ⟨a, b, rfl⟩ := List.append_of_mem hj
  rw [List.foldl_append, List.foldl_cons]
  obtain ⟨-, hk⟩ := Cancels.foldl cancelJob_cancels a s
  obtain ⟨-, hfin, hin⟩ := hk j
  exact (Cancels.foldl cancelJob_cancels b _).ends.cancelled j ((cancelJob_spec _ j).2 h0 (hin hl) (hfin.trans hf))

/-- The entry that a listed key reads as. -/
theorem mem_mapGet {α : Type} (d : α) (m : List (Nat × α)) (i : Nat) (h : ∃ p ∈ m, p.1 = i) : (i, mapGet d m i) ∈ m := by
  induction m with
  | nil => simp at h
  | cons p t ih =>
    obtain ⟨k, v⟩ := p
    by_cases e : i = k
    · subst e; simp [mapGet]
    · have : ∃ p ∈ t, p.1 = i := by
        obtain ⟨p, hp, hi⟩ := h
        rcases List.mem_cons.mp hp with x | x
        · subst x; exact absurd hi.symm e
        · exact ⟨p, x, hi⟩
      rw [mapGet, if_neg e]
      exact List.mem_cons_of_mem _ (ih this)

theorem mem_of_mapGet_ne {α : Type} (d : α) (m : List (Nat × α)) (i : Nat) (h : mapGet d m i ≠ d) : (i, mapGet d m i) ∈ m :=
  mem_mapGet d m i (by
    by_contra hn
    exact h (mapGet_unlisted d m i fun p hp e => hn ⟨p, hp, e⟩))

/-- A live job of the function is cancelled (R389, R490). -/
theorem cancelOwn_cancelled (s : State) (fn j : Nat) (h0 : j ≠ 0) (hl : ∃ p ∈ s.jobs, p.1 = j) (hn : (s.job j).fn = fn) (hf : (s.job j).fin = 0) :
    ((cancelOwn s fn).job j).cancelled = true := by
  have hm : j ∈ (s.jobs.filter fun p => p.2.fn == fn && p.2.fin == 0).map (·.1) := by
    rw [List.mem_map]
    refine ⟨(j, s.job j), ?_, rfl⟩
    rw [List.mem_filter]
    exact ⟨mem_mapGet ({} : Job) s.jobs j hl, by simp [hn, hf]⟩
  unfold cancelOwn
  exact ((((Cancels.refl _).setGraphs _).trans (.foldl cancelInstance_cancels _ _)).trans (.foldl dropStream_cancels _ _)).ends.cancelled j
    (foldl_cancelJob_cancelled s _ hm h0 hl hf)

theorem destroyOwn_ends (s : State) (fn : Nat) : WorkEnds s (destroyOwn s fn) := .foldl (fun s q => (destroyQueue_spec s fn q).1) _ s

/-- Every queue of the function is dead (R389). -/
theorem destroyOwn_dead (s : State) (fn q : Nat) (hq : q < 17) : ((destroyOwn s fn).queue (queueKey fn q)).live = false := by
  obtain ⟨a, b, e⟩ := List.append_of_mem (List.mem_range.mpr hq)
  rw [destroyOwn, e, List.foldl_append, List.foldl_cons]
  exact (WorkEnds.foldl (fun s q => (destroyQueue_spec s fn q).1) b _).dead _ (destroyQueue_spec _ fn q).2

/-! ### The sequences -/

theorem looseSlots_only (s : State) (q : Seq) : ∃ m f, looseSlots s q = { s with mem := m, free := f } := by
  unfold looseSlots
  split
  · exact ⟨s.mem, s.free, rfl⟩
  · next cap _ _ =>
    generalize List.range cap = l
    induction l using List.reverseRecOn with
    | nil => exact ⟨s.mem, s.free, rfl⟩
    | append_singleton l n ih =>
      obtain ⟨m, f, e⟩ := ih
      rw [List.foldl_append, e, List.foldl_cons, List.foldl_nil]
      split
      · rw [writeBytes_eq]
        exact ⟨_, _, rfl⟩
      · exact ⟨m, f, rfl⟩

/-- A sequence that closes leaves an empty slot with the next generation (R345). -/
theorem closeSeq_only (s : State) (d n : Nat) : ∃ m f, closeSeq s d n =
    ({ s with mem := m, free := f } : State).setSeq d n { gen := ((s.seq d n).gen + 1) % 2 ^ 14 } := by
  unfold closeSeq
  extract_lets q
  obtain ⟨m, f, e⟩ := looseSlots_only s q
  obtain ⟨m', e'⟩ := devStore_only (looseSlots s q) q.part (q.dva + 0x20) 4 q.clen
  rw [e', e]
  exact ⟨m', f, rfl⟩

theorem State.seq_setSeq (s : State) (d n d' n' : Nat) (q : Seq) :
    (s.setSeq d n q).seq d' n' = if d' = d ∧ n' = n then q else s.seq d' n' := by
  unfold State.seq State.setSeq State.updDie
  rw [State.die_setDie]
  by_cases hd : d' = d
  · subst hd
    rw [if_pos rfl]
    simp only [mapGet_mapSet, true_and]
  · rw [if_neg hd, if_neg (by tauto)]

/-- What the close of sequences keeps: the jobs, windows and queues, and every closed sequence. -/
structure Closes (s t : State) : Prop where
  jobs : t.jobs = s.jobs
  pf : t.pf = s.pf
  queues : t.queues = s.queues
  closed : ∀ d n, (s.seq d n).isOpen = false → (t.seq d n).isOpen = false

theorem Closes.foldl {α : Type} {f : State → α → State} (h : ∀ s a, Closes s (f s a)) (l : List α) (s : State) : Closes s (l.foldl f s) := by
  induction l generalizing s with
  | nil => exact ⟨rfl, rfl, rfl, fun _ _ h => h⟩
  | cons a t ih =>
    have h1 := h s a
    have h2 := ih (f s a)
    exact ⟨h2.jobs.trans h1.jobs, h2.pf.trans h1.pf, h2.queues.trans h1.queues, fun d n c => h2.closed d n (h1.closed d n c)⟩

theorem closeSeq_spec (s : State) (d n : Nat) : Closes s (closeSeq s d n) ∧ ((closeSeq s d n).seq d n).isOpen = false := by
  obtain ⟨m, f, e⟩ := closeSeq_only s d n
  have h : ∀ d' n', (closeSeq s d n).seq d' n' = if d' = d ∧ n' = n then { gen := ((s.seq d n).gen + 1) % 2 ^ 14 } else s.seq d' n' := fun d' n' => by
    rw [e, State.seq_setSeq]
    rfl
  refine ⟨⟨by rw [e]; rfl, by rw [e]; rfl, by rw [e]; rfl, fun d' n' c => ?_⟩, by rw [h, if_pos ⟨rfl, rfl⟩]⟩
  rw [h]
  split
  · rfl
  · exact c

theorem closeSeqs_closes (l : List (Nat × Nat)) (s : State) : Closes s (l.foldl (fun s p => closeSeq s p.1 p.2) s) :=
  Closes.foldl (f := fun s (p : Nat × Nat) => closeSeq s p.1 p.2) (fun s p => (closeSeq_spec s p.1 p.2).1) l s

theorem closeOwn_closes (s : State) (fn : Nat) : Closes s (closeOwn s fn) := closeSeqs_closes (ownSeqs s fn) s

theorem mem_dies_of_open (s : State) (d n : Nat) (ho : (s.seq d n).isOpen = true) : (d, s.die d) ∈ s.dies := by
  refine mem_of_mapGet_ne ({} : Die) s.dies d fun e => ?_
  rw [State.seq, State.die, e] at ho
  cases ho

theorem mem_seqs_of_open (s : State) (d n : Nat) (ho : (s.seq d n).isOpen = true) : (n, s.seq d n) ∈ (s.die d).seqs := by
  refine mem_of_mapGet_ne ({} : Seq) (s.die d).seqs n fun e => ?_
  rw [State.seq, e] at ho
  cases ho

theorem mem_ownSeqs (s : State) (fn d n : Nat) (ho : (s.seq d n).isOpen = true) (hp : (s.seq d n).part = fn) : (d, n) ∈ ownSeqs s fn := by
  rw [ownSeqs, List.mem_flatMap]
  refine ⟨_, mem_dies_of_open s d n ho, List.mem_filterMap.mpr ⟨_, mem_seqs_of_open s d n ho, ?_⟩⟩
  simp [ho, hp]

/-- Every open sequence of the function closes (R345). -/
theorem closeOwn_closed (s : State) (fn d n : Nat) (ho : (s.seq d n).isOpen = true) (hp : (s.seq d n).part = fn) :
    ((closeOwn s fn).seq d n).isOpen = false := by
  obtain ⟨a, b, e⟩ := List.append_of_mem (mem_ownSeqs s fn d n ho hp)
  rw [closeOwn, e, List.foldl_append, List.foldl_cons]
  have h := (closeSeq_spec (a.foldl (fun s p => closeSeq s p.1 p.2) s) d n).2
  exact (closeSeqs_closes b _).closed d n h

/-! ### What is cleared -/

theorem mapGet_filter_key {α : Type} (d : α) (f : Nat → Bool) (i : Nat) (m : List (Nat × α)) :
    mapGet d (m.filter fun p => f p.1) i = if f i then mapGet d m i else d := by
  induction m with
  | nil => simp
  | cons p t ih =>
    obtain ⟨k, v⟩ := p
    rw [List.filter_cons]
    by_cases e : i = k
    · subst e
      by_cases hf : f i = true <;> simp [hf, mapGet, ih]
    · by_cases hf : f k = true <;> simp [hf, mapGet, ih, e]

/-- A window that is cleared reads its reset values, and no other window changes (R387, R389). -/
theorem win_clearOwn (s : State) (fn fn' off : Nat) (h : off < 2 ^ 16) :
    win (clearOwn s fn) fn' off = if fn' = fn then winReset fn' off else win s fn' off := by
  have hk : winKey fn' off / 2 ^ 16 = fn' := by unfold winKey; omega
  have hm : win (clearOwn s fn) fn' off = if winKey fn' off / 2 ^ 16 != fn then win s fn' off else winReset fn' off :=
    mapGet_filter_key _ (fun k => k / 2 ^ 16 != fn) _ _
  rw [hm, hk]
  by_cases e : fn' = fn <;> simp [e]

theorem mapGet_mapped_value {α : Type} (d : α) (f : α → α) (hd : f d = d) (j : Nat) (m : List (Nat × α)) :
    mapGet d (m.map fun p => (p.1, f p.2)) j = f (mapGet d m j) := by
  by_cases h : ∃ p ∈ m, p.1 = j
  · exact mapGet_mapped d (fun _ => f) j m h
  · have hu : ∀ p ∈ m, p.1 ≠ j := fun p hp e => h ⟨p, hp, e⟩
    rw [mapGet_unlisted d m j hu, hd]
    refine mapGet_unlisted d _ j fun q hq => ?_
    obtain ⟨p, hp, rfl⟩ := List.mem_map.mp hq
    exact hu p hp

/-- A context of the function's jobs declares no level and releases none (R490); others keep theirs. -/
theorem ctx_clearOwn (s : State) (fn c : Nat) : (clearOwn s fn).ctx c =
    if (s.job (s.ctx c).job).fn = fn then { s.ctx c with held := 0, release := none } else s.ctx c := by
  have e : (clearOwn s fn).ctxs = s.ctxs.map fun p => (p.1, if (s.job p.2.job).fn = fn then { p.2 with held := 0, release := none } else p.2) := by
    refine List.map_congr_left fun p _ => ?_
    split <;> rfl
  unfold State.ctx
  rw [e]
  exact mapGet_mapped_value {} (fun x => if (s.job x.job).fn = fn then { x with held := 0, release := none } else x) (by split <;> rfl) c s.ctxs

theorem exec_functionLevelReset (fn : Nat) (s : State) :
    exec (.functionLevelReset fn) s = .next (if fn = 0 then (List.range 33).foldl resetFn s else resetFn s fn) := rfl

/-- R345, R389, R453, R490: function-level resets. -/
theorem functionResets : Claims.FunctionResets := by
  refine ⟨fun s => by rw [exec_functionLevelReset, if_pos rfl], fun fn s => ⟨fun hf => by rw [exec_functionLevelReset, if_neg hf], fun t ht => ?_⟩⟩
  obtain ⟨u, hu⟩ : ∃ u, u = destroyOwn (cancelOwn s fn) fn := ⟨_, rfl⟩
  obtain ⟨w, hw⟩ : ∃ w, w = closeOwn u fn := ⟨_, rfl⟩
  have e : t = clearOwn w fn := by rw [ht, resetFn_eq, hw, hu]
  have h1 : WorkEnds s u := by rw [hu]; exact (cancelOwn_cancels s fn).ends.trans (destroyOwn_ends _ fn)
  have h2 : Closes u w := by rw [hw]; exact closeOwn_closes u fn
  clear ht
  subst e
  refine ⟨fun off ho => ?_, fun fn' off hn ho => ?_, fun j h0 hl hn hf => ?_, fun q hq => ?_, fun d n ho hp => ?_, ?_, ?_, ?_, fun c hc => ?_⟩
  · rw [win_clearOwn _ _ _ _ ho, if_pos rfl]
  · rw [win_clearOwn _ _ _ _ ho, if_neg hn]
    unfold win
    rw [h2.pf, h1.pf]
  · have hj : (u.job j).cancelled = true := by
      rw [hu]
      exact (destroyOwn_ends _ fn).cancelled j (cancelOwn_cancelled s fn j h0 hl hn hf)
    show (mapGet {} w.jobs j).cancelled = true
    rw [h2.jobs]
    exact hj
  · have hd : (u.queue (queueKey fn q)).live = false := by
      rw [hu]
      exact destroyOwn_dead (cancelOwn s fn) fn q hq
    show (mapGet {} w.queues (queueKey fn q)).live = false
    rw [h2.queues]
    exact hd
  · have hs : u.seq d n = s.seq d n := by
      unfold State.seq State.die
      rw [h1.dies]
    show (w.seq d n).isOpen = false
    rw [hw]
    exact closeOwn_closed u fn d n (by rw [hs]; exact ho) (by rw [hs]; exact hp)
  · intro p hp
    simpa using (List.mem_filter.mp hp).2
  · intro r hr
    simpa using (List.mem_filter.mp hr).2
  · intro p hp
    simpa using (List.mem_filter.mp hp).2
  · rw [ctx_clearOwn] at hc ⊢
    split at hc
    · next h => rw [if_pos h]; exact ⟨rfl, rfl⟩
    · next h => exact absurd hc h

/-- Settles O58: windows, BAR2, reports, images and resets, each by the lemma of its part. -/
theorem managementEvents : Obligations.ManagementEvents := ⟨windowReads, windowWrites, bar2, attests, boots, functionResets⟩

end Sys2Proof.Machine
end

section
/-! PROOFS. Page requests and their replies (R446 to R448, R452), quiescence (R311), the quarantine (R312), the halt bundle (R55), and the part at reset. -/

namespace Sys2Proof.Machine

/-! ### Page requests that fail -/

/-- Failing what `p` picks answers every such request with fail, and lets those go on which nobody waits. -/
theorem failReqs_failed (s : State) (p : PageReq → Bool) : Claims.ReqsFailed s (failReqs s p) fun x => p x = true := by
  refine ⟨rfl, fun x => ?_⟩
  simp only [failReqs, List.mem_filter, List.mem_map, Bool.not_eq_true', Bool.and_eq_false_iff, beq_eq_false_iff_ne, List.isEmpty_eq_false_iff]
  refine and_congr (exists_congr fun y => and_congr Iff.rfl ?_) ⟨fun h ha => h.resolve_left (not_not.mpr ha), fun h => ?_⟩
  · by_cases hp : p y = true <;> simp [hp, eq_comm]
  · by_cases ha : x.answer = some false
    · exact .inr (h ha)
    · exact .inl ha

/-- The same where the test decides a proposition. -/
theorem failReqs_of (s : State) (p : PageReq → Bool) (q : PageReq → Prop) (h : ∀ x, p x = true ↔ q x) : Claims.ReqsFailed s (failReqs s p) q := by
  rw [show q = fun x => p x = true from funext fun x => propext (h x).symm]
  exact failReqs_failed s p

theorem PageReq.outstanding_iff (r : PageReq) : r.outstanding = true ↔ r.rid ≠ none ∧ r.answer = none := by
  simp [outstanding, Option.isSome_iff_ne_none]

/-! ### Requests (R446) -/

theorem unwritten_none {s : State} {p : Nat} (h : ∀ r ∈ s.reqs, ¬ (r.part = p ∧ r.rid = none ∧ r.answer = none)) : unwritten s p = none := by
  refine List.find?_eq_none.mpr fun r hr => ?_
  simpa [and_assoc] using h r hr

/-- The first request of a partition that waits is the one to be written. -/
theorem unwritten_first {s : State} {p : Nat} {l l' : List PageReq} {r : PageReq} (hs : s.reqs = l ++ r :: l')
    (hr : r.part = p ∧ r.rid = none ∧ r.answer = none) (hl : ∀ x ∈ l, ¬ (x.part = p ∧ x.rid = none ∧ x.answer = none)) : unwritten s p = some r := by
  refine List.find?_eq_some_iff_append.mpr ⟨by simpa [and_assoc] using hr, l, l', hs, fun x hx => ?_⟩
  rw [Bool.not_eq_true', ← Bool.not_eq_true]
  simpa [and_assoc] using hl x hx

theorem canRequest_iff (s : State) (p : Nat) : canRequest s p = true ↔
    (s.reqs.filter fun r => decide (r.part = p ∧ r.rid ≠ none ∧ r.answer = none)).length < 64 ∧
      (bits ((partEntry s p).getD 4 0) 63 32 + 2 ^ 32 - bits ((partEntry s p).getD 4 0) 31 0) % 2 ^ 32 < 2 ^ bits ((partEntry s p).getD 2 0) 63 60 := by
  have he (r : PageReq) : decide (r.part = p ∧ r.rid ≠ none ∧ r.answer = none) = (r.part == p && r.outstanding) := by
    rw [Bool.eq_iff_iff, decide_eq_true_eq, Bool.and_eq_true, PageReq.outstanding_iff, beq_iff_eq]
  simp only [canRequest, he, Bool.and_eq_true, decide_eq_true_eq]

/-- R446, R452: the oldest request that waits is written. -/
theorem requests : Claims.Requests := by
  intro p s e tail waits room
  have hroom : canRequest s p = true ↔ room := canRequest_iff s p
  refine ⟨fun h => ?_, fun l l' r hs hr hl hc n w hn hw => ⟨fun hnone => ⟨failReqs s fun x => x == r, ?_, failReqs_of s _ _ fun x => beq_iff_eq⟩, fun u hu => ?_⟩⟩
  · show execPageRequestWrite p s = _
    rw [execPageRequestWrite, runEvent_modify]
    rcases h with h | h
    · rw [unwritten_none h]
    · have hc : canRequest s p = false := by rwa [← hroom, Bool.not_eq_true] at h
      rw [hc]
      cases unwritten s p <;> rfl
  · show execPageRequestWrite p s = _
    rw [hw, hn] at hnone
    rw [execPageRequestWrite, runEvent_modify, unwritten_first hs hr hl, hroom.mpr hc]
    simp only [Bool.not_true, if_neg Bool.false_ne_true, w64]
    rw [hnone]
  · show execPageRequestWrite p s = _
    obtain ⟨m, rfl⟩ := devWriteWs_only _ _ _ _ _ (hw.symm.trans hu)
    rw [hw, hn] at hu
    rw [execPageRequestWrite, runEvent_modify, unwritten_first hs hr hl, hroom.mpr hc]
    simp only [Bool.not_true, if_neg Bool.false_ne_true, w64]
    rw [hu, hn, show devKey (64 * p + 36) = partKey p 4 + 4 from by simp only [devKey, partKey]; omega, writeNat_only]
    rfl

/-! ### Replies (R447, R452) -/

/-- The requests of a partition that are outstanding, oldest first. -/
theorem outstanding_nil {s : State} {p : Nat} (h : ∀ r ∈ s.reqs, ¬ (r.part = p ∧ r.rid ≠ none ∧ r.answer = none)) :
    (s.reqs.filter fun r => r.part == p && r.outstanding) = [] := by
  refine List.filter_eq_nil_iff.mpr fun r hr => ?_
  rw [Bool.and_eq_true, PageReq.outstanding_iff, beq_iff_eq]
  exact h r hr

theorem outstanding_first {s : State} {p : Nat} {l l' : List PageReq} {r : PageReq} (hs : s.reqs = l ++ r :: l')
    (hr : r.part = p ∧ r.rid ≠ none ∧ r.answer = none) (hl : ∀ x ∈ l, ¬ (x.part = p ∧ x.rid ≠ none ∧ x.answer = none)) :
    ∃ t, (s.reqs.filter fun r => r.part == p && r.outstanding) = r :: t := by
  have ho (x : PageReq) : (x.part == p && x.outstanding) = true ↔ x.part = p ∧ x.rid ≠ none ∧ x.answer = none := by
    rw [Bool.and_eq_true, PageReq.outstanding_iff, beq_iff_eq]
  refine ⟨l'.filter fun r => r.part == p && r.outstanding, ?_⟩
  rw [hs, List.filter_append, List.filter_eq_nil_iff.mpr fun x hx => by rw [ho]; exact hl x hx, List.nil_append]
  exact List.filter_cons_of_pos ((ho r).mpr hr)

/-- R447, R452: the replies of a partition. -/
theorem replies : Claims.Replies := by
  intro p s e head open_
  have ho (x : PageReq) (n : Nat) : (x.part == p && x.outstanding && x.rid == some n) = true ↔ open_ x ∧ x.rid = some n := by
    rw [Bool.and_eq_true, Bool.and_eq_true, PageReq.outstanding_iff, beq_iff_eq, beq_iff_eq]
  refine ⟨fun h => ?_, fun l l' r hs hr hl hh w u hw hu => ?_⟩
  · show execPageReplyRead p s = _
    rw [execPageReplyRead, runEvent_modify]
    rcases h with h | h
    · simp only [outstanding_nil h]
    · have h : bits ((partEntry s p).getD 5 0) 63 32 = bits ((partEntry s p).getD 5 0) 31 0 := h
      simp only [if_pos h]
      split <;> rfl
  · obtain ⟨t, hf⟩ := outstanding_first hs hr hl
    have hh : bits ((partEntry s p).getD 5 0) 63 32 ≠ bits ((partEntry s p).getD 5 0) 31 0 := hh
    have hk : devKey (64 * p + 44) = partKey p 5 + 4 := by simp only [devKey, partKey]; omega
    have hx : exec (.pageReplyRead p) s = execPageReplyRead p s := rfl
    have hr : u.reqs = s.reqs := by rw [hu, writeNat_only]
    rw [hk] at hu
    rw [execPageReplyRead, runEvent_modify] at hx
    simp only [hf, if_neg hh] at hx
    rw [← hw, ← hu] at hx
    rw [hx]
    refine ⟨fun hf => ⟨failReqs u fun x => x == r, by rw [hf], failReqs_of u _ _ fun x => beq_iff_eq⟩, fun v hv n hn => ⟨fun h0 => ?_, fun h0 => ?_⟩⟩
    · refine ⟨{ u with reqs := u.reqs.filter fun x => !(x.part == p && x.outstanding && x.rid == some n) }, by simp only [hv, if_pos h0, ← hn], rfl, fun x => ?_⟩
      rw [List.mem_filter, hr, Bool.not_eq_true', ← Bool.not_eq_true, ho]
    · have h0 : ¬ (bits (v.getD 0 0) 47 0 = 0 ∧ v.getD 1 0 = 0) := fun h => h0.elim (· h.1) (· h.2)
      have hf := failReqs_of u _ _ fun x => ho x n
      rw [hv]
      simp only [if_neg h0]
      rw [← hn]
      exact ⟨_, rfl, hf⟩

/-! ### Time limits, quiescence and the quarantine (R311, R312, R447) -/

/-- R447: a request fails once it has waited its time. -/
theorem timeouts : Claims.Timeouts := by
  intro p i s
  refine ⟨_, rfl, failReqs_of s _ _ fun x => ?_⟩
  simp only [requestLate, Bool.and_eq_true, beq_iff_eq, bne_iff_ne, decide_eq_true_eq, PageReq.outstanding_iff]
  constructor
  · rintro ⟨⟨rfl, hi⟩, ⟨⟨-, ha⟩, h0⟩, ht⟩
    exact ⟨rfl, hi, ha, h0, ht⟩
  · rintro ⟨rfl, hi, ha, h0, ht⟩
    exact ⟨⟨rfl, hi⟩, ⟨⟨by simp [hi], ha⟩, h0⟩, ht⟩

/-- R311: the count and its word. -/
theorem quiesces : Claims.Quiesces := by
  intro s still
  have hs : canAdvance s = true ↔ still := by simp [canAdvance, still]
  refine ⟨fun h => ?_, fun h => ?_, fun h => ?_, fun h => ?_⟩
  · show execQuiescenceAdvance s = _
    rw [execQuiescenceAdvance, runEvent_modify, if_pos (hs.mpr h)]
  · show execQuiescenceAdvance s = _
    rw [execQuiescenceAdvance, runEvent_modify, if_neg (hs.not.mpr h)]
  · show execQuiescenceWordWrite s = _
    simp only [execQuiescenceWordWrite, runEvent_modify, h, if_true]
  · show execQuiescenceWordWrite s = _
    simp only [execQuiescenceWordWrite, runEvent_modify, h, if_neg Bool.false_ne_true]

/-- The lower of two entries of the quarantine, the first where they are even (R312). -/
def lowerQuar (b x : Quar) : Quar := if x.v < b.v then x else b

theorem foldl_lowerQuar_least (l : List Quar) (a : Quar) (h : ∀ x ∈ l, a.v ≤ x.v) : l.foldl lowerQuar a = a := by
  induction l with
  | nil => rfl
  | cons x l ih =>
    have hx : lowerQuar a x = a := if_neg (by have := h x (by simp); omega)
    rw [List.foldl_cons, hx]
    exact ih fun y hy => h y (by simp [hy])

/-- The fold answers one of the entries. -/
theorem foldl_lowerQuar_mem (l : List Quar) (a : Quar) : l.foldl lowerQuar a ∈ a :: l := by
  induction l generalizing a with
  | nil => simp
  | cons x l ih =>
    have hx : lowerQuar a x = a ∨ lowerQuar a x = x := by unfold lowerQuar; split <;> simp
    rw [List.foldl_cons]
    rcases hx with h | h <;> rw [h]
    · exact List.mem_cons.mpr ((List.mem_cons.mp (ih a)).imp_right (List.mem_cons_of_mem x))
    · exact List.mem_cons_of_mem a (ih x)

/-- The first entry of the lowest value. -/
theorem foldl_lowerQuar_first (l l' : List Quar) (a q : Quar) (ha : q.v < a.v) (hl : ∀ x ∈ l, q.v < x.v) (hl' : ∀ x ∈ l', q.v ≤ x.v) :
    (l ++ q :: l').foldl lowerQuar a = q := by
  induction l generalizing a with
  | nil => rw [List.nil_append, List.foldl_cons, lowerQuar, if_pos ha]; exact foldl_lowerQuar_least l' q hl'
  | cons x l ih =>
    rw [List.cons_append, List.foldl_cons]
    refine ih _ ?_ fun y hy => hl y (by simp [hy])
    unfold lowerQuar
    split
    · exact hl x (by simp)
    · exact ha

theorem nextFreed_cons {s : State} {a : Quar} {t : List Quar} (h : s.quarantine = a :: t) :
    nextFreed s = if (t.foldl lowerQuar a).v ≤ s.qcount then some (t.foldl lowerQuar a) else none := by
  rw [nextFreed, h]
  rfl

theorem nextFreed_none {s : State} (h : ∀ q ∈ s.quarantine, s.qcount < q.v) : nextFreed s = none := by
  cases hq : s.quarantine with
  | nil => rw [nextFreed, hq]
  | cons a t =>
    have hm := h _ (hq ▸ foldl_lowerQuar_mem t a)
    rw [nextFreed_cons hq, if_neg (by omega)]

theorem nextFreed_first {s : State} {l l' : List Quar} {q : Quar} (hs : s.quarantine = l ++ q :: l') (hl : ∀ x ∈ l, q.v < x.v)
    (hl' : ∀ x ∈ l', q.v ≤ x.v) (hq : q.v ≤ s.qcount) : nextFreed s = some q := by
  cases l with
  | nil => rw [nextFreed_cons hs, foldl_lowerQuar_least l' q hl', if_pos hq]
  | cons a t =>
    have hf := foldl_lowerQuar_first t l' a q (hl a (by simp)) (fun x hx => hl x (by simp [hx])) hl'
    rw [nextFreed_cons (a := a) (t := t ++ q :: l') hs, hf, if_pos hq]

theorem ringRoom_iff (s : State) : ringRoom s = true ↔
    bit (win s 0 0x1080) 63 = true ∧ (win s 0 0x1088 - win s 0 0x1090).toNat < 2 ^ bits (win s 0 0x1080) 61 57 := by
  simp only [ringRoom, Bool.and_eq_true, decide_eq_true_eq]

/-- R312: the quarantine. -/
theorem leaves : Claims.Leaves := by
  intro s ring room
  have hroom : ringRoom s = true ↔ room := ringRoom_iff s
  refine ⟨fun h => ?_, fun l l' q hs hl hl' hq hr w hw => ?_⟩
  · show execQuarantineLeave s = _
    rw [execQuarantineLeave, runEvent_modify]
    rcases h with h | h
    · rw [nextFreed_none h]
    · have hr : ringRoom s = false := by rwa [← hroom, Bool.not_eq_true] at h
      rw [hr]
      cases nextFreed s <;> rfl
  · have hx : exec .quarantineLeave s = execQuarantineLeave s := rfl
    rw [execQuarantineLeave, runEvent_modify, nextFreed_first hs hl hl' hq, hroom.mpr hr] at hx
    simp only [Bool.not_true, if_neg Bool.false_ne_true, w64] at hx
    rw [← hw] at hx
    rw [hx]
    refine ⟨fun hn => by rw [hn], fun u hu => ?_⟩
    obtain ⟨m, hm⟩ := devWriteWs_only _ _ _ _ _ (hw.symm.trans hu)
    have he : u.quarantine.erase q = l ++ l' := by
      have hn : q ∉ l := fun h => absurd (hl q h) (lt_irrefl _)
      rw [hm, hs, List.erase_append_right _ hn, List.erase_cons_head]
    have hi : u.msix = s.msix := by rw [hm]
    have hv : BitVec.ofNat 64 ((win s 0 0x1088).toNat + 1) = win s 0 0x1088 + 1 := by rw [BitVec.ofNat_add, BitVec.ofNat_toNat, BitVec.setWidth_eq]; rfl
    rw [hu, ← hi]
    simp only [he, hv]
    rfl

/-- R55: the halt bundle. -/
theorem halts : Claims.Halts := by
  intro s at_
  have ha : (s.me.iss.getD {}).halting = true ↔ at_ := by
    cases hi : s.me.iss <;> simp [at_, hi]
  refine ⟨fun h ho => ?_, fun h => ?_⟩
  · show execHaltBundle s = _
    rw [execHaltBundle, ha.mpr h, if_neg (by simp), if_pos ho]
  · show execHaltBundle s = _
    rw [execHaltBundle]
    rcases h with h | h
    · rw [if_pos (by rw [Bool.not_eq_true', ← Bool.not_eq_true, ha]; exact h)]
    · rw [if_neg h, ite_self]

/-- Settles O59: page requests, replies, time limits, quiescence, the quarantine and the halt bundle, each by the lemma of its part. -/
theorem quietEvents : Obligations.QuietEvents := ⟨requests, replies, timeouts, quiesces, leaves, halts⟩

/-! ### Reset -/

/-- A list of copies of the default reads as the default everywhere. -/
theorem getD_replicate_default {α : Type} (n i : Nat) (a : α) : (List.replicate n a).getD i a = a := by
  rw [List.getD_eq_getElem?_getD, List.getElem?_replicate]
  split <;> rfl

/-- Settles O49: every part that nothing lists reads as it stands at reset. -/
theorem resetState : Obligations.ResetState := by
  refine ⟨rfl, rfl, rfl, rfl, fun c => ⟨rfl, rfl, rfl, rfl, rfl, rfl, rfl, rfl, rfl, rfl, rfl, fun q => ?_, fun _ => ⟨rfl, rfl, fun r => ?_⟩⟩,
    fun k => ⟨rfl, fun n => ?_, fun j i => ?_, rfl, rfl, rfl⟩, fun d => ⟨rfl, rfl⟩, fun n => rfl, fun f => rfl⟩
  · exact Vector.getElem_replicate _
  · exact Vector.getElem_replicate _
  · exact Vector.getElem_replicate _
  · show ((Vector.replicate 6 (Vector.replicate 8 0)).toList.getD j (Vector.replicate 8 0)).toList.getD i 0 = 0
    rw [Vector.toList_replicate, getD_replicate_default, Vector.toList_replicate, getD_replicate_default]

end Sys2Proof.Machine
end

section
/-! PROOFS. A context's turn (R26, R112, R116, R117, R119, R125, R158): what `step` runs. -/

namespace Sys2Proof.Machine

variable {s t u v w : State} {c : Nat} {b : Bundle} {i i0 i1 : Instr}

/-! ### From the step to the turn -/

/-- A turn of a context is a step of that context. -/
theorem step_of_turn (h : Claims.Turn s w c) : step s = stepCtx c w := by
  obtain ⟨⟨hm, rfl, rfl⟩ | ⟨hm, t, ha, rfl⟩, -⟩ := h
  · rw [step, if_pos hm]
  · rw [step, if_neg (by rw [hm]; exact Bool.false_ne_true), ha]
    rfl

/-- A context that may issue runs the instruction that its turn answers, or is held back by slot 1. -/
theorem stepCtx_run (hc : canIssue w c = true) (ht : turn w c = .run i t) :
    stepCtx c w = match heldBySlot1 t c with
      | some u => .next u
      | none => settleOutcome t c (exec i t) := by
  rw [stepCtx, if_pos hc, ht] <;> rfl

/-- Slot 1 at its turn holds nothing back. -/
theorem heldBySlot1_slot1 {k : Issue} (hk : (t.ctx c).iss = some k) (h1 : k.slot1 = true) : heldBySlot1 t c = none := by
  simp [heldBySlot1, hk, h1]

theorem stepCtx_slot1 {k : Issue} (hc : canIssue w c = true) (ht : turn w c = .run i t) (hk : (t.ctx c).iss = some k) (h1 : k.slot1 = true) :
    stepCtx c w = settleOutcome t c (exec i t) := by
  rw [stepCtx_run hc ht, heldBySlot1_slot1 hk h1]

/-! ### The turn -/

/-- A context that nothing reaches first goes on with the rest of its bundle, or with the bundle at its program counter (R116, R407, R408). -/
theorem turn_undisturbed (hu : u = { w with cur := c }) (hw : ∀ x ∈ (u.die (dieOf c)).waiters, x.1 ≠ c)
    (hb : (u.ctx c).between = true → Claims.Undisturbed u c) :
    (∀ k, (u.ctx c).iss = some k → k.leaving = false → k.halting = false → turn w c = runSlot1 u c k) ∧
    (∀ b v, (u.ctx c).iss = none → fetchBundle c u = .ok (b, v) →
      turn w c = if (u.ctx c).slot then issueSlot1 v c b else if (u.ctx c).rep = 0 then issueWhole v c b else issueSlot1 v c b) := by
  have hany : ((u.die (dieOf c)).waiters.any fun x => x.1 == c) = false := by
    rw [List.any_eq_false]
    exact fun x hx => by simpa using hw x hx
  have hbefore : (if (u.ctx c).between = true then (u.ctx c).before else none) = none := by
    split
    · next h => exact (hb h).2.1
    · rfl
  have hfail : ¬ ((u.ctx c).between = true ∧ (u.ctx c).tlevel = 0 ∧ (nextFailed u c).isSome = true) := fun ⟨h, hl, hf⟩ => by
    obtain ⟨h0 | ⟨hn, -⟩, -⟩ := hb h
    · exact h0 hl
    · simp [hn] at hf
  have hmiss : ¬ ((u.ctx c).between = true ∧ (u.ctx c).tlevel = 0 ∧ (u.ctx c).miss.isSome = true) := fun ⟨h, hl, hf⟩ => by
    obtain ⟨h0 | ⟨-, hn⟩, -⟩ := hb h
    · exact h0 hl
    · simp [hn] at hf
  unfold turn
  rw [← hu]
  simp only [if_neg hfail, hbefore, if_neg hmiss, hany, if_neg Bool.false_ne_true]
  refine ⟨fun k hk hl hh => ?_, fun b v hk hf => ?_⟩
  · rw [hk]
    simp only [hl, hh, if_neg Bool.false_ne_true]
  · rw [hk, hf]

/-- The fetch of a bundle that stands at the program counter. -/
theorem fetchBundle_at (h : Claims.BundleAt u c b v) : fetchBundle c u = .ok (b, v) := by
  obtain ⟨q, k, fill, hq, ho, hf, ht, hm, hv, hp, hl, hb⟩ := h
  have hx : xlateM q u = .ok (.ok k, v) := by
    rw [xlateM_eq, if_neg (by simp [ho]), if_neg (by simp [hf]), ht, hv]
    cases fill <;> rfl
  have hx : xlateT q u = .ok (k, v) := by rw [xlateT, M.bind_ok hx]; rfl
  have hr : readAt k 16 v = .ok (readBytes v k 16, v) := by rw [readAt, hm]; rfl
  rw [fetchBundle, M.bind_get_apply]
  simp only [← hq]
  rw [M.bind_ok hx, M.bind_get_apply, hp, hl, if_neg (by simp)]
  show (readAt k 16 >>= fun l => pure (bundleOfBytes l)) v = _
  rw [M.bind_ok hr, hb]
  rfl

/-! ### The issue of a bundle -/

/-- A bundle that may issue from slot 0 runs slot 0's instruction (R116, R117, R119). -/
theorem issueWhole_run (h : Claims.MayIssue v c b i0 i1) : issueWhole v c b = .run i0 (v.setCtx c { v.ctx c with
      iss := some { hdr := b.hdr, s0 := b.s0, s1 := b.s1, rep := repOf i0, syl := b.s0
                    snap := if (unpackHeader b.hdr).s || (repOf i0).isSome then none else some (v.ctx c).x }
      region := if (unpackHeader b.hdr).wsel != 0 && !(v.ctx c).acq then (v.ctx c).region + 1 else (v.ctx c).region
      acq := (unpackHeader b.hdr).wsel != 0 }) := by
  obtain ⟨h0, h1, hh, hwait, hs0, hs1, hrep, hpair, hempty, hport, hq, ho0, ho1⟩ := h
  have hblock : (emptyBlock (v.ctx c) (srcsOf (rankOf v c) i0 ++ (if (repOf i0).isSome then [] else before (unpackHeader b.hdr) (.ok i0) (srcsOf (rankOf v c) i1)) ++
      (dstsOf i0 ++ (if (repOf i0).isSome then [] else dstsOf i1)).map plain) ||
      portBlock v (v.ctx c) (srcsOf (rankOf v c) i0 ++ (if (repOf i0).isSome then [] else before (unpackHeader b.hdr) (.ok i0) (srcsOf (rankOf v c) i1)))
        (dstsOf i0 ++ (if (repOf i0).isSome then [] else dstsOf i1)) || !queuesFree v c [i0, i1] || orderBlock v c i0 || orderBlock v c i1) = false := by
    rw [hempty, hport, hq, ho0, ho1]
    rfl
  unfold issueWhole
  simp only [h0, h1, hh, hwait, hs0]
  cases hr : repOf i0 with
  | none =>
    rw [hr] at hblock
    simp only [hs1 hr, hpair, hblock]
    simp
  | some r =>
    obtain ⟨cnt, ds, as, bs⟩ := r
    rw [hr] at hblock
    obtain ⟨hn, hf⟩ := hrep cnt ds as bs hr
    simp only [hn, hf, hpair, hblock]
    simp

/-- Slot 1 at its turn runs its instruction, with the stepped fields of its repetition (R125). -/
theorem runSlot1_run {k : Issue} {w1 : Syl} (hw : slot1Word k.rep k.s1 k.j.toNat = some w1)
    (hd : decodeSyllable true (unpackHeader k.hdr).bimm w1 = .ok i1) (ht : t = u.updCtx c fun x => { x with iss := some { k with syl := w1 } })
    (he : emptyBlock (t.ctx c) ((dstsOf i1).map plain) = false) (ho : orderBlock t c i1 = false) : runSlot1 u c k = .run i1 t := by
  unfold runSlot1
  simp only [hw, ← ht, hd, he, ho, Bool.or_self, if_neg Bool.false_ne_true]

/-- A second value for a context that is in issue replaces the first. -/
theorem updCtx_updCtx_issue (s : State) (c : Nat) (k j : Issue) :
    (s.updCtx c fun x => { x with iss := some k }).updCtx c (fun x => { x with iss := some j }) = s.updCtx c fun x => { x with iss := some j } := by
  have hn (x : Ctx) (k : Issue) : ({ x with iss := some k } : Ctx) ≠ {} := fun h => by simpa using congrArg Ctx.iss h
  simp only [State.updCtx, State.ctx_setCtx_same]
  unfold State.setCtx mapSet
  rw [if_neg (hn _ _), if_neg (hn _ _), if_neg (hn _ _), mapPut_mapPut]

/-- The REP of a slot 0 as decoded (R125). -/
def decRep (d0 : Dec) : Option (BitVec 6 × BitVec 2 × BitVec 2 × BitVec 2) :=
  match d0 with
  | .ok i0 => repOf i0
  | .error _ => none

/-- The bundle in issue of a context that resumes at slot 1 (R119, R125). -/
def resumedIssue (v : State) (c : Nat) (b : Bundle) (d0 : Dec) : Issue :=
  { hdr := b.hdr, s0 := b.s0, s1 := b.s1, slot1 := true, rep := decRep d0, j := (v.ctx c).rep, syl := b.s1, leave := (v.ctx c).keptLeave }

/-- A resume point in slot 1 issues slot 1 alone, at its repetition (R119, R125). -/
theorem issueSlot1_runs {d0 d1 : Dec} (h0 : decodeSyllable false (unpackHeader b.hdr).bimm b.s0 = d0)
    (h1 : decodeSyllable true (unpackHeader b.hdr).bimm b.s1 = d1) (hh : headerFault v c (unpackHeader b.hdr) d0 d1 = none)
    (hn : decRep d0 = none → (v.ctx c).rep = 0 ∧ sylFault v c (unpackHeader b.hdr) b.s1 d1 = none)
    (hs : ∀ x, decRep d0 = some x → (v.ctx c).rep.toNat ≤ x.1.toNat) {k : Issue}
    (hk : k = resumedIssue v c b d0) :
    issueSlot1 v c b = runSlot1 (v.updCtx c fun x => { x with iss := some k }) c k := by
  have hd : issueSlot1 v c b = match headerFault v c (unpackHeader b.hdr) d0 d1 with
      | some f => issueFaultAt v c f false (b.hdr.setWidth 64)
      | none =>
        if (match decRep d0 with
          | some (cnt, _, _, _) => decide (cnt.toNat < (v.ctx c).rep.toNat)
          | none => (v.ctx c).rep != 0) then issueFaultAt v c cIllegal false (b.s0.setWidth 64)
        else match (if (decRep d0).isSome then none else sylFault v c (unpackHeader b.hdr) b.s1 d1) with
          | some (f, x) => issueFaultAt v c f true x
          | none => runSlot1 (v.updCtx c fun x => { x with iss := some k }) c k := by
    subst h0 h1 hk
    rfl
  rw [hd, hh]
  cases hr : decRep d0 with
  | none =>
    obtain ⟨hj, hf⟩ := hn hr
    simp [hj, hf]
  | some r => simp [hs r hr]

/-- Settles O48: what a turn runs, from slot 0, at slot 1, and from a resume point in slot 1; and what else a step may be. -/
theorem stepRunsDecoded : Obligations.StepRunsDecoded := by
  refine ⟨fun s w u v c b i0 i1 hturn hu hiss hslot hrep hun hat hmay => ?_,
    fun s w u c k w1 i1 hturn hu hk h1 hhalt hleave hwait hun hw1 hd => ?_,
    fun s w u v c b d0 w1 i1 hturn hu hiss hres hun hat => ?_, fun s t i hm ha => ?_, fun s hm ha => ?_⟩
  · have ht := (turn_undisturbed hu hun.2.2 fun _ => hun).2 b v hiss (fetchBundle_at hat)
    rw [hslot, if_neg Bool.false_ne_true, if_pos hrep, issueWhole_run hmay] at ht
    rw [step_of_turn hturn, stepCtx_run hturn.2 ht] <;> rfl
  · intro z he ho
    have hb : (u.ctx c).between = true → Claims.Undisturbed u c := fun h => hun (by simpa [Ctx.between, hk, hhalt] using h)
    have ht := (turn_undisturbed hu hwait hb).1 k hk hleave hhalt
    rw [runSlot1_run hw1 hd rfl he ho] at ht
    have hz : (z.ctx c).iss = some { k with syl := w1 } := by simp [z, State.updCtx]
    rw [step_of_turn hturn, stepCtx_slot1 hturn.2 ht hz h1]
  · intro h d1 r h0 hh hn hs hw1 hd z he ho
    obtain ⟨k, hk⟩ : ∃ k, k = resumedIssue v c b d0 := ⟨_, rfl⟩
    have hz : z = v.updCtx c fun x => { x with iss := some { k with syl := w1 } } := by rw [hk]; rfl
    have hzk : (z.ctx c).iss = some { k with syl := w1 } := by rw [hz]; simp only [State.updCtx, State.ctx_setCtx_same]
    have ht := (turn_undisturbed hu hun.2.2 fun _ => hun).2 b v hiss (fetchBundle_at hat)
    have hres : turn w c = issueSlot1 v c b := by
      rw [ht]
      rcases hres with h | h
      · rw [if_pos h]
      · rw [if_neg h, ite_self]
    rw [← updCtx_updCtx_issue v c k] at hz
    clear_value z
    rw [issueSlot1_runs h0 rfl hh hn hs hk, runSlot1_run (by rw [hk]; exact hw1) (by rw [hk]; exact hd) hz he ho] at hres
    rw [step_of_turn hturn, stepCtx_slot1 hturn.2 hres hzk (by rw [hk]; rfl)]
  · rw [step, if_neg (by rw [hm]; exact Bool.false_ne_true), ha]
    rfl
  · rw [step, if_neg (by rw [hm]; exact Bool.false_ne_true), ha]

end Sys2Proof.Machine
end

section
/-! PROOFS. What the device's writes of bytes, the start of a graph's run and a release of a stream change (R320, R321, R324, R330). -/

namespace Sys2Proof.Machine

/-! ### Writes of memory alone -/

/-- `t` is `s` but for its memory. -/
def MemOnly (s t : State) : Prop := ∃ m, t = { s with mem := m }

theorem MemOnly.refl (s : State) : MemOnly s s := ⟨s.mem, rfl⟩

theorem MemOnly.trans {s t u : State} (h : MemOnly s t) (g : MemOnly t u) : MemOnly s u := by
  obtain ⟨m, rfl⟩ := h
  obtain ⟨n, rfl⟩ := g
  exact ⟨n, rfl⟩

theorem MemOnly.foldl {α : Type} {f : State → α → State} (h : ∀ s a, MemOnly s (f s a)) (l : List α) (s : State) : MemOnly s (l.foldl f s) := by
  induction l generalizing s with
  | nil => exact .refl s
  | cons a l ih => exact (h s a).trans (ih _)

theorem devStore_memOnly (s : State) (part va n v : Nat) : MemOnly s (devStore s part va n v) := devStore_only ..

/-! ### The start of a run (R330) -/

theorem patchAll_memOnly (s : State) (g : Graph) (ok : Nat → Bool) : MemOnly s (patchAll s g ok) := by
  refine .foldl (fun s i => ?_) _ s
  dsimp only
  split
  · exact devStore_memOnly ..
  · exact .refl s

theorem stampCard_memOnly (s : State) (g : Graph) (n i : Nat) : MemOnly s (stampCard s g n i) := by
  unfold stampCard
  dsimp only
  split
  · exact (((devStore_memOnly ..).trans (devStore_memOnly ..)).trans (devStore_memOnly ..)).trans (devStore_memOnly ..)
  · exact .refl s

theorem patchCards_memOnly (s : State) (g : Graph) (ok : Nat → Bool) : MemOnly s (patchCards s g ok) := by
  unfold patchCards
  dsimp only
  split
  · exact patchAll_memOnly ..
  · exact (patchAll_memOnly ..).trans (.foldl (fun s i => stampCard_memOnly s g _ i) _ _)

/-- A run is mirrored where its stream is (R478). -/
def mirroredBy (s : State) (st : Option Nat) : Bool :=
  match st with
  | some n => bit ((s.stream n).desc.getD 0 0) 55
  | none => false

/-- A graph whose run has started (R330, R478). -/
def startedGraph (s : State) (g : Graph) (o : Option Nat) (p : Nat) (st : Option Nat) : Graph := { g with
  live := true, origin := o, parent := p, stream := st, nodes := []
  snap := if mirroredBy s st then g.gp.set 13 (BitVec.allOnes 64) else g.gp
  image := if g.next = [] then g.image else g.next
  next := [] }

/-- The start of a run changes its graph, and memory. -/
theorem startInstance_only (s : State) (id : Nat) (o : Option Nat) (p : Nat) (st : Option Nat) :
    startInstance s id o p st = { s with mem := (startInstance s id o p st).mem, graphs := (startInstance s id o p st).graphs } ∧
      ∀ k, (startInstance s id o p st).graph k = if k = id then startedGraph s (s.graph id) o p st else s.graph k := by
  obtain ⟨m, hm⟩ := patchCards_memOnly (s.setGraph id (startedGraph s (s.graph id) o p st)) (startedGraph s (s.graph id) o p st) fun _ => true
  have h : startInstance s id o p st = { s.setGraph id (startedGraph s (s.graph id) o p st) with mem := m } := hm
  rw [h]
  exact ⟨rfl, fun k => mapGet_mapSet ..⟩

/-! ### Releases (R320, R321) -/

/-- The ring slot of the message that makes a release, where there is one. -/
def msgSlots (msg : Option (Nat × Nat × Nat × Nat)) : List (Nat × Nat) := msg.toList.map fun m => (m.1, m.2.1)

/-- What a release leaves of a stream that skips it (R320, R321). -/
def skippedStream (x : Stream) (r : Nat) (mine : List (Nat × Nat)) : Stream := { x with
  release := r, inst := x.inst + 1, misses := (x.misses + 1) % 2 ^ 32, skipped := x.skipped ++ mine }

/-- A release that finds a run live, or the graph unable to start, is counted as a miss (R320, R321). -/
theorem releaseStream_skips {s : State} {n r : Nat} {msg : Option (Nat × Nat × Nat × Nat)} (hs : (s.stream n).status = 1 ∨ (s.stream n).status = 2)
    (h : (s.stream n).status = 2 ∨ ¬ ((s.graph (sdGraph (s.stream n).eff)).defined = true ∧ (s.graph (sdGraph (s.stream n).eff)).live = false)) :
    releaseStream s n r msg = writeBack (s.setStream n (skippedStream (s.stream n) r (msgSlots msg))) n := by
  have hr : ¬ ((s.stream n).status ≠ 1 ∧ (s.stream n).status ≠ 2) := by omega
  have hg : (s.stream n).status = 2 ∨ ¬ (s.graph (sdGraph (s.stream n).eff)).defined = true ∨ (s.graph (sdGraph (s.stream n).eff)).live = true := by
    simpa [imp_iff_not_or] using h
  unfold releaseStream
  dsimp only
  rw [if_neg hr]
  refine (if_pos hg).trans ?_
  cases msg <;> rfl

/-- The graph with the length and the address of the message that releases its run (R320). -/
def withMsg (g : Graph) (msg : Option (Nat × Nat × Nat × Nat)) : Graph :=
  match msg with
  | some (_, _, len, va) => { g with gp := (g.gp.set 14 (w64 len)).set 15 (w64 va) }
  | none => g

/-- What a release leaves of a stream that goes live (R320, R321, R323, R324). -/
def liveStream (x : Stream) (r : Nat) (mine : List (Nat × Nat)) : Stream := { x with
  release := r, inst := x.inst + 1, status := 2, desc := x.eff, newDesc := [], live := some (r, r + sdD x.eff, x.level), late := false
  exempt := false, slots := x.skipped ++ mine, skipped := [], tile := BitVec.allOnes 64 }

/-- The graph of a stream takes the message that releases its run. -/
def givenMsg (s : State) (id : Nat) (msg : Option (Nat × Nat × Nat × Nat)) : State :=
  match msg with
  | some x => s.setGraph id (withMsg (s.graph id) (some x))
  | none => s

theorem givenMsg_graph (s : State) (id k : Nat) (msg : Option (Nat × Nat × Nat × Nat)) :
    (givenMsg s id msg).graph k = if k = id then withMsg (s.graph id) msg else s.graph k := by
  cases msg with
  | none => by_cases h : k = id <;> simp [givenMsg, withMsg, h]
  | some x => exact mapGet_mapSet ..

theorem givenMsg_only (s : State) (id : Nat) (msg : Option (Nat × Nat × Nat × Nat)) :
    givenMsg s id msg = { s with graphs := (givenMsg s id msg).graphs } := by cases msg <;> rfl

/-- A release that finds its stream idle and its graph ready goes live, and starts the graph's run (R320, R324, R330). -/
theorem releaseStream_starts {s : State} {n r : Nat} {msg : Option (Nat × Nat × Nat × Nat)} (hs : (s.stream n).status = 1)
    (hd : (s.graph (sdGraph (s.stream n).eff)).defined = true) (hl : (s.graph (sdGraph (s.stream n).eff)).live = false) :
    releaseStream s n r msg = startInstance (writeBack (givenMsg (s.setStream n (liveStream (s.stream n) r (msgSlots msg)))
      (sdGraph (s.stream n).eff) msg) n) (sdGraph (s.stream n).eff) none 0 (some n) := by
  have hr : ¬ ((s.stream n).status ≠ 1 ∧ (s.stream n).status ≠ 2) := by omega
  have hg : ¬ ((s.stream n).status = 2 ∨ ¬ (s.graph (sdGraph (s.stream n).eff)).defined = true ∨ (s.graph (sdGraph (s.stream n).eff)).live = true) := by
    simp [hs, hd, hl]
  unfold releaseStream
  dsimp only
  rw [if_neg hr]
  refine (if_neg hg).trans ?_
  cases msg <;> rfl

/-- What a release makes of a stream of the table (R320, R321, R324, R330). -/
theorem releaseStream_released {s : State} {n r : Nat} {msg : Option (Nat × Nat × Nat × Nat)} (hs : (s.stream n).status = 1 ∨ (s.stream n).status = 2) :
    Claims.Released s (releaseStream s n r msg) n r msg := by
  by_cases hskip : (s.stream n).status = 2 ∨ ¬ ((s.graph (sdGraph (s.stream n).eff)).defined = true ∧ (s.graph (sdGraph (s.stream n).eff)).live = false)
  · obtain ⟨m, hm⟩ := writeBack_only (s.setStream n (skippedStream (s.stream n) r (msgSlots msg))) n
    have ht : releaseStream s n r msg = { s.setStream n (skippedStream (s.stream n) r (msgSlots msg)) with mem := m } := by
      rw [releaseStream_skips hs hskip, hm]
    have hx : (releaseStream s n r msg).stream n = skippedStream (s.stream n) r (msgSlots msg) := by rw [ht]; exact State.stream_setStream_same ..
    unfold Claims.Released
    rw [hx]
    refine ⟨rfl, rfl, by rw [ht]; rfl, by rw [ht]; rfl, fun _ => ⟨rfl, rfl, rfl, by cases msg <;> rfl, by rw [ht]; rfl⟩, fun h1 hr => ?_⟩
    rcases hskip with h | h
    · omega
    · exact absurd hr h
  · have hidle : (s.stream n).status = 1 := hs.resolve_right fun h => hskip (.inl h)
    obtain ⟨hd, hl⟩ := not_not.mp (mt Or.inr hskip)
    obtain ⟨u, hu⟩ : ∃ u, u = s.setStream n (liveStream (s.stream n) r (msgSlots msg)) := ⟨_, rfl⟩
    obtain ⟨v, hv⟩ : ∃ v, v = givenMsg u (sdGraph (s.stream n).eff) msg := ⟨_, rfl⟩
    obtain ⟨m, hm⟩ := writeBack_only v n
    obtain ⟨ht, hg⟩ := startInstance_only (writeBack v n) (sdGraph (s.stream n).eff) none 0 (some n)
    have hr := releaseStream_starts (r := r) (msg := msg) hidle hd hl
    rw [← hu, ← hv] at hr
    rw [← hr] at ht hg
    rw [hm] at ht hg
    have hw : v = { u with graphs := v.graphs } := by rw [hv]; exact givenMsg_only ..
    have hx : (releaseStream s n r msg).stream n = liveStream (s.stream n) r (msgSlots msg) := by
      have h : (releaseStream s n r msg).streams = u.streams := by rw [ht, hw]
      rw [State.stream, h, hu]
      exact State.stream_setStream_same ..
    have hgr (k : Nat) : v.graph k = if k = sdGraph (s.stream n).eff then withMsg (s.graph (sdGraph (s.stream n).eff)) msg else s.graph k := by
      rw [hv, givenMsg_graph, hu]
      rfl
    have hid := hg (sdGraph (s.stream n).eff)
    rw [if_pos rfl, show State.graph { v with mem := m } (sdGraph (s.stream n).eff) = _ from hgr _, if_pos rfl] at hid
    unfold Claims.Released
    rw [hx]
    refine ⟨rfl, rfl, by rw [ht, hw, hu]; rfl, by rw [ht, hw, hu]; rfl, fun h => absurd h hskip,
      fun _ _ => ⟨rfl, rfl, rfl, rfl, rfl, by cases msg <;> rfl, by rw [hid]; rfl, by rw [hid]; rfl, by rw [hid]; rfl, fun f sl len va he => ?_, fun k hk => ?_⟩⟩
    · rw [hid, he]
      exact ⟨by simp [startedGraph, withMsg, w64], by simp [startedGraph, withMsg, w64]⟩
    · rw [hg k, if_neg hk, show State.graph { v with mem := m } k = _ from hgr k, if_neg hk]

end Sys2Proof.Machine
end

section
/-! PROOFS. The network endpoint (R31, R33, R84, R172, R320, R390 to R393, R402, R420, R483): inbound messages, flow writes, ports and acknowledgements. -/

namespace Sys2Proof.Machine

/-! ### The slot of a message (R390 to R392) -/

/-- The next free slot is the first one after the last taken that no message holds. -/
theorem freeSlot_iff (f : Flow) (sl : Nat) : f.freeSlot = some sl ↔
    ∃ k < 2 ^ f.lgr, sl = (f.nxt + k) % 2 ^ f.lgr ∧ sl ∉ f.slots ∧ ∀ i < k, (f.nxt + i) % 2 ^ f.lgr ∈ f.slots := by
  unfold Flow.freeSlot
  rw [List.find?_map, Option.map_eq_some_iff]
  refine exists_congr fun k => ?_
  rw [List.find?_range_eq_some]
  simp only [Function.comp, List.contains_eq_mem, List.mem_range, Bool.not_eq_true', decide_eq_false_iff_not, Bool.not_not, decide_eq_true_eq]
  constructor
  · rintro ⟨⟨hk, hlt, hb⟩, rfl⟩
    exact ⟨hlt, rfl, hk, hb⟩
  · rintro ⟨hlt, rfl, hk, hb⟩
    exact ⟨⟨hk, hlt, hb⟩, rfl⟩

theorem inboundSlot_iff (s : State) (f bind len sl : Nat) : inboundSlot s f bind len = some sl ↔ Claims.Lands s f bind len sl := by
  unfold inboundSlot Claims.Lands
  dsimp only
  rw [← freeSlot_iff, Option.ite_none_left_eq_some]
  refine and_congr_left fun _ => ?_
  simp only [Bool.or_eq_true, Bool.not_eq_true', bne_iff_ne, decide_eq_true_eq, not_or, Bool.not_eq_false, ne_eq, not_not, not_lt, Bool.not_eq_true]
  constructor
  · rintro ⟨⟨⟨⟨⟨⟨ha, ho⟩, hb⟩, hu⟩, hp⟩, hl⟩, hn, hm⟩
    exact ⟨ha, ho, hb, hu, hp, by omega, hm, hl⟩
  · rintro ⟨ha, ho, hb, hu, hp, h1, hm, hl⟩
    exact ⟨⟨⟨⟨⟨⟨ha, ho⟩, hb⟩, hu⟩, hp⟩, hl⟩, by omega, hm⟩

theorem inboundSlot_none {s : State} {f bind len : Nat} (h : ∀ sl, ¬ Claims.Lands s f bind len sl) : inboundSlot s f bind len = none := by
  refine Option.eq_none_iff_forall_ne_some.mpr fun sl hs => h sl ((inboundSlot_iff ..).mp hs)

/-! ### Messages to streams (R320, R392) -/

/-- The oldest message that waits makes its release once its time has come. -/
theorem arrivalRelease_waiting {s : State} {n g k len w a due : Nat} {m : List (Nat × Nat × Nat × Nat × Nat)}
    (hm : (s.stream n).msgs = (g, k, len, w, a) :: m)
    (hd : due = if (s.stream n).inst = 0 then a else max a ((s.stream n).release + (s.stream n).period)) :
    arrivalRelease s n = if due ≤ s.time then releaseStream (s.setStream n { s.stream n with msgs := m }) n due (some (g, k, len, w)) else s := by
  have ha : (s.stream n).arrivalDue = some due := by rw [Stream.arrivalDue, hm, hd]
  unfold arrivalRelease
  dsimp only
  rw [ha, hm]

/-- R320, R390, R392, R402: messages to streams. -/
theorem streamMessages : Claims.StreamMessages := by
  intro f p s x
  refine ⟨fun h => ?_, fun sl va hl hva => ⟨fun hw => ?_, fun u hu => ⟨fun hn => ?_, fun n st v hn hst hstat hv g k len w a m due hm hdue => ?_⟩⟩⟩
  · show execInboundStreamMessage f p s = _
    rw [execInboundStreamMessage, runEvent_modify, inboundSlot_none h]
  · show execInboundStreamMessage f p s = _
    rw [execInboundStreamMessage, runEvent_modify, (inboundSlot_iff ..).mpr hl]
    rw [hva] at hw
    dsimp only
    rw [hw]
  · show execInboundStreamMessage f p s = _
    rw [execInboundStreamMessage, runEvent_modify, (inboundSlot_iff ..).mpr hl]
    rw [hva] at hu
    dsimp only
    rw [hu]
    dsimp only
    rw [hn]
  · have hx : exec (.inboundStreamMessage f p) s = .next (arrivalRelease v n) := by
      show execInboundStreamMessage f p s = _
      rw [execInboundStreamMessage, runEvent_modify, (inboundSlot_iff ..).mpr hl]
      rw [hva] at hu
      dsimp only
      rw [hu]
      dsimp only
      rw [hn, hv, hva, hst]
      rfl
    have hvn : v.stream n = { st with msgs := st.msgs ++ [(f, sl, p.length, va, u.time)] } := by rw [hv]; exact State.stream_setStream_same ..
    have hvt : v.time = u.time := by rw [hv]; rfl
    have hdue : due = if (v.stream n).inst = 0 then a else max a ((v.stream n).release + (v.stream n).period) := by rw [hdue, hvn]; rfl
    rw [hx, arrivalRelease_waiting hm hdue, hvt]
    refine ⟨fun h => by rw [if_neg (by omega)], fun h => ⟨_, by rw [if_pos h], releaseStream_released ?_⟩⟩
    rw [State.stream_setStream_same, hvn]
    exact hstat

/-! ### Messages to cores (R31, R33, R392, R420) -/

/-- An arrival that finds room enters its core's queue (R33). -/
theorem enterArrival_room {s : State} {core : Nat} {a : Arrival} (hc : (s.job a.job).cancelled = false) (hr : (s.core core).arrivals.length < 16) :
    enterArrival s core a = some (wakeCore (s.updCore core fun k => { k with arrivals := k.arrivals ++ [a] }) core) := by
  rw [enterArrival, hc, if_neg Bool.false_ne_true, if_neg (by omega)]

theorem enterArrival_full {s : State} {core : Nat} {a : Arrival} (hc : (s.job a.job).cancelled = false) (hr : 16 ≤ (s.core core).arrivals.length) :
    enterArrival s core a = none := by
  rw [enterArrival, hc, if_neg Bool.false_ne_true, if_pos hr]

/-- An arrival of a cancelled job is discarded (R420). -/
theorem enterArrival_cancelled {s : State} {core : Nat} {a : Arrival} (hc : (s.job a.job).cancelled = true) :
    enterArrival s core a = some (freeRing s a) := by
  rw [enterArrival, hc, if_pos rfl]

/-- R33, R392, R420: the messages of a flow that wait for a core. -/
theorem pulls : Claims.Pulls := by
  refine fun s f core => ⟨rfl, fun k a l => ⟨fun hk => ?_, fun hu => ?_, fun hu => ⟨fun hc hr => ?_, fun hc hr => ?_, fun hc u hu' => ?_⟩⟩⟩
  · rw [pullFlow, if_pos hk]
  · rw [pullFlow, if_neg (by simp), if_pos (by simp [hu])]
  · rw [pullFlow, if_neg (by simp), if_neg (by simp [hu]), enterArrival_full hc hr]
  · obtain ⟨v, hv⟩ : ∃ v, v = s.updCore core fun k => { k with arrivals := k.arrivals ++ [a] } := ⟨_, rfl⟩
    obtain ⟨hw, hrun⟩ := wakeCore_eq v core
    refine ⟨(wakeCore v core).setFlow f { s.flow f with waiting := (s.flow f).waiting.erase (core, a) }, ?_, ?_, fun j hj => ?_, ?_, ?_, fun j hj => ?_, fun j => ?_⟩
    · have hf : (wakeCore v core).flow f = s.flow f := by rw [hw, hv]; rfl
      rw [pullFlow, if_neg (by simp), if_neg (by simp [hu]), enterArrival_room hc hr, ← hv]
      dsimp only
      rw [hf]
    · rw [State.core_setFlow, wakeCore_core, hv]
      exact State.core_setCore_same ..
    · rw [State.core_setFlow, wakeCore_core, hv]
      exact State.core_setCore_ne _ _ _ _ hj
    · rw [State.setFlow_mem, wakeCore_mem, hv]
      rfl
    · exact State.flow_setFlow_same ..
    · have hf : (wakeCore v core).flow j = s.flow j := by rw [hw, hv]; rfl
      rw [State.flow_setFlow_ne _ _ _ _ hj, hf]
    · obtain ⟨r, hr⟩ := hrun j
      exact ⟨r, by rw [State.ctx_setFlow, hr, hv]; rfl⟩
  · rw [pullFlow, if_neg (by simp), if_neg (by simp [hu]), enterArrival_cancelled hc, ← hu']

/-- The state in which the bytes of a message to a core stand in its slot. -/
def landedMessage (s : State) (f o : Nat) (p : List Byte) : State :=
  clearPoison (writeBytes s (sliceKey (s.flow f).core o) p) (sliceKey (s.flow f).core o) p.length

theorem landedMessage_only (s : State) (f o : Nat) (p : List Byte) :
    landedMessage s f o p = { s with mem := (landedMessage s f o p).mem, poison := (landedMessage s f o p).poison } := by
  unfold landedMessage
  rw [clearPoison_eq, writeBytes_eq]

/-- The state in which a message to a core waits in its slot for its handler (R392). -/
def heldMessage (s : State) (f sl o : Nat) (p : List Byte) : State :=
  let u := takeSlot (landedMessage s f o p) f sl
  u.setFlow f { u.flow f with
    waiting := (u.flow f).waiting ++ [((s.flow f).core, ⟨w64 (s.flow f).haddr, w64 o, w64 p.length, w64 f, (s.flow f).job, some (f, sl)⟩)] }

theorem heldMessage_only (s : State) (f sl o : Nat) (p : List Byte) : heldMessage s f sl o p =
    { s with mem := (landedMessage s f o p).mem, poison := (landedMessage s f o p).poison, flows := (heldMessage s f sl o p).flows } := by
  have h := landedMessage_only s f o p
  unfold heldMessage takeSlot
  rw [h]
  rfl

theorem heldMessage_flow (s : State) (f sl o : Nat) (p : List Byte) : (heldMessage s f sl o p).flow f = { s.flow f with
    slots := (s.flow f).slots ++ [sl], nxt := (sl + 1) % 2 ^ (s.flow f).lgr
    waiting := (s.flow f).waiting ++ [((s.flow f).core, ⟨w64 (s.flow f).haddr, w64 o, w64 p.length, w64 f, (s.flow f).job, some (f, sl)⟩)] } := by
  have h : (landedMessage s f o p).flow f = s.flow f := by rw [landedMessage_only]; rfl
  unfold heldMessage takeSlot
  rw [h]
  dsimp only
  rw [State.flow_setFlow_same, State.flow_setFlow_same]

theorem heldMessage_flow_ne (s : State) (f sl o : Nat) (p : List Byte) {j : Nat} (hj : j ≠ f) : (heldMessage s f sl o p).flow j = s.flow j := by
  have h : (landedMessage s f o p).flow j = s.flow j := by rw [landedMessage_only]; rfl
  unfold heldMessage takeSlot
  dsimp only
  rw [State.flow_setFlow_ne _ _ _ _ hj, State.flow_setFlow_ne _ _ _ _ hj, h]

theorem heldMessage_mem (s : State) (f sl o : Nat) (p : List Byte) :
    (heldMessage s f sl o p).mem = (writeBytes s (sliceKey (s.flow f).core o) p).mem := clearPoison_mem ..

/-- R31, R33, R84, R172, R392: messages to cores. -/
theorem coreMessages : Claims.CoreMessages := by
  intro f p s x
  refine ⟨fun h => ?_, fun sl o hl ho => ?_⟩
  · show execInboundCoreMessage f p s = _
    rw [execInboundCoreMessage, runEvent_modify, inboundSlot_none h]
  · intro barred
    have hb : barred ↔ (s.job x.job).fin ≠ 0 ∨ paddockHit s x.core o p.length x.job = true ∨ (s.core x.core).holder.isSome = true ∨
        (s.die (x.core / 128)).lost = true := by rw [Option.isSome_iff_ne_none]
    have hx : exec (.inboundCoreMessage f p) s = execInboundCoreMessage f p s := rfl
    rw [execInboundCoreMessage, runEvent_modify, (inboundSlot_iff ..).mpr hl] at hx
    dsimp only at hx
    rw [hx]
    rw [ho] at hb
    refine ⟨fun h => by rw [if_pos (hb.mp h)], fun h => ?_⟩
    rw [if_neg (hb.not.mp h)]
    rw [← ho]
    refine ⟨heldMessage s f sl o p, rfl, ?_, heldMessage_flow .., fun j hj => heldMessage_flow_ne _ _ _ _ _ hj, ?_, fun a ha => ?_⟩
    · rw [heldMessage_only]
    · rw [readBytes_of_mem (heldMessage_mem ..)]
      exact readBytes_writeBytes ..
    · rw [readByte_of_mem (heldMessage_mem ..)]
      exact readByte_writeBytes_outside _ _ _ _ ha

/-! ### Flow writes (R391, R393, R402, R483) -/

/-- The fields of a descriptor, as tests and as statements. -/
theorem flowOk_iff (d : List W64) : flowOk d = true ↔ Claims.FlowFields d := by
  unfold flowOk Claims.FlowFields
  simp only [Bool.and_eq_true, Bool.or_eq_true, beq_iff_eq, bne_iff_ne, decide_eq_true_eq, Bool.not_eq_true', and_assoc, imp_iff_not_or, ne_eq, not_not,
    Bool.not_eq_false]

theorem flowTest_unread {fn : Nat} {s : State} (h : devReadWs s fn (bits (win s fn 0x200) 56 0) 4 = none) : flowTest s fn = (1, []) := by
  rw [flowTest, h]

/-- What a flow write answers once its descriptor has been read (R391, R393, R402): the first of its four tests that fails. -/
theorem flowTest_read {fn n : Nat} {s : State} {d : List W64} (hd : devReadWs s fn (bits (win s fn 0x200) 56 0) 4 = some d) (hn : n = bits (win s fn 0x208) 15 0) :
    let o := s.flow n
    let f : Flow := { desc := d }
    let breaks := n = 65535 ∨ bits (win s fn 0x200) 56 0 % 32 ≠ 0 ∨ ¬ flowOk d = true
    let foreign := o.applied = true ∧ o.owner ≠ fn
    let named := o.applied = true ∧ flowNamed s n = true ∧ (f.out ≠ o.out ∨ f.bind ≠ o.bind ∨ f.ring ≠ o.ring)
    let jobless := f.bind = 2 ∧ (f.job = 0 ∨ ¬ (s.jobs.any fun p => p.1 == f.job) = true ∨ (s.job f.job).fn ≠ fn ∨ (s.job f.job).fin ≠ 0)
    (breaks → flowTest s fn = (1, [])) ∧ (¬ breaks → (foreign → flowTest s fn = (2, [])) ∧ (¬ foreign → (named → flowTest s fn = (3, [])) ∧
      (¬ named → (jobless → flowTest s fn = (4, [])) ∧ (¬ jobless → flowTest s fn = (0, d))))) := by
  intro o f breaks foreign named jobless
  unfold flowTest
  simp only [hd, ← hn]
  refine ⟨fun h => if_pos h, fun h1 => ⟨fun h => (if_neg h1).trans (if_pos h), fun h2 => ⟨fun h => (if_neg h1).trans ((if_neg h2).trans (if_pos h)), fun h3 =>
    ⟨fun h => (if_neg h1).trans ((if_neg h2).trans ((if_neg h3).trans (if_pos h))), fun h =>
      (if_neg h1).trans ((if_neg h2).trans ((if_neg h3).trans (if_neg h)))⟩⟩⟩⟩

/-- R391, R393, R402, R483: flow writes. -/
theorem flowWrites : Claims.FlowWrites := by
  refine ⟨fun fn s d n hn hd => ?_, fun fn s => ⟨fun h => ?_, fun h n u hn hu => ⟨fun h0 => ?_, fun h0 => ?_⟩⟩⟩
  · intro o f breaks foreign named jobless
    cases d with
    | none => exact ⟨fun _ => by rw [flowTest_unread hd.symm], fun h => absurd (.inl rfl) h⟩
    | some d =>
      have hb : (n = 65535 ∨ bits (win s fn 0x200) 56 0 % 32 ≠ 0 ∨ ¬ flowOk d = true) ↔ breaks := by
        rw [flowOk_iff]
        exact ⟨Or.inr, fun h => h.resolve_left nofun⟩
      have hj : ¬ (s.jobs.any fun p => p.1 == f.job) = true ↔ ∀ p ∈ s.jobs, p.1 ≠ f.job := by simp only [List.any_eq_true, beq_iff_eq, not_exists, not_and, ne_eq]
      have hjob : f.bind = 2 ∧ (f.job = 0 ∨ ¬ (s.jobs.any fun p => p.1 == f.job) = true ∨ (s.job f.job).fn ≠ fn ∨ (s.job f.job).fin ≠ 0) ↔ jobless :=
        and_congr_right fun _ => or_congr_right (or_congr_left hj)
      obtain ⟨h1, h⟩ := flowTest_read hd.symm hn
      rw [hb] at h1 h
      refine ⟨fun e => congrArg Prod.fst (h1 e), fun e => ?_⟩
      obtain ⟨h2, h⟩ := h e
      refine ⟨fun e => congrArg Prod.fst (h2 e), fun e => ?_⟩
      obtain ⟨h3, h⟩ := h e
      refine ⟨fun e => congrArg Prod.fst (h3 e), fun e => ?_⟩
      obtain ⟨h4, h5⟩ := h e
      exact ⟨fun e => congrArg Prod.fst (h4 (hjob.mpr e)), fun e => h5 fun k => e (hjob.mp k)⟩
  all_goals
    have hx : exec (.flowWrite fn) s = .next (applyFlow s fn) := rfl
    rw [hx, applyFlow]
  · rw [if_pos h]
  · rw [if_neg (by simp [h]), hu]
    exact congrArg _ (if_pos h0)
  · rw [if_neg (by simp [h]), hu, hn]
    exact congrArg _ (if_neg (not_not.mpr h0))

/-! ### Ports (R483) -/

/-- R483: ports and acknowledgements. -/
theorem ports : Claims.Ports := by
  refine ⟨fun n s => ⟨⟨{ s with ports := s.ports &&& ~~~ BitVec.twoPow 4 n.val }, rfl, rfl, fun i => ?_⟩, fun h => ?_, fun h => ?_⟩,
    fun f s => ⟨fun h => ?_, fun p l l' hs hl => ?_⟩⟩
  · by_cases hi : i < 4
    · simp [hi]
    · have hn : s.ports.getLsbD i = false := BitVec.getLsbD_of_ge _ _ (by omega)
      simp [hn]
  · show execPortUp n.val s = _
    rw [execPortUp, runEvent_modify, if_pos h]
  · refine ⟨{ s with ports := s.ports ||| BitVec.twoPow 4 n.val, sent := s.sent ++ s.outKept.filter fun p => (s.flow p.1).port == n.val }, ?_, rfl, fun i => ?_, rfl⟩
    · show execPortUp n.val s = _
      rw [execPortUp, runEvent_modify, if_neg (by rw [h]; exact Bool.false_ne_true)]
    · simp [@eq_comm Nat i]
  · show execPeerAcknowledgement f s = _
    rw [execPeerAcknowledgement, runEvent_modify, List.eraseP_of_forall_not (by simpa using h)]
  · show execPeerAcknowledgement f s = _
    rw [execPeerAcknowledgement, runEvent_modify, hs, List.eraseP_append_right _ (by simpa using hl), List.eraseP_cons_of_pos (by simp)]

/-- Settles O57: messages to streams and to cores, those that wait, flow writes, and ports, each by the lemma of its part. -/
theorem networkEvents : Obligations.NetworkEvents := ⟨streamMessages, pulls, coreMessages, flowWrites, ports⟩

end Sys2Proof.Machine
end

section
/-! PROOFS. Host packets (R41, R42, R309, R315 to R318, R324 to R326, R329 to R331): the turn of a queue, and what each packet does and answers. -/

namespace Sys2Proof.Machine

/-! ### The turn of a queue (R315, R316) -/

/-- A queue whose turn it is not, or whose packet is of another kind, is left alone. -/
theorem packetM_else {kind fn q : Nat} {body : State → List W64 → State × Option Nat} {s : State}
    (h : nextQueue s ≠ some (queueKey fn q) ∨ packetKind s fn (s.queue (queueKey fn q)) ≠ kind) : packetM kind fn q body s = s := by
  unfold packetM
  exact if_pos h

/-- A packet that cannot be read, or that is malformed, is discarded whole. -/
theorem packetM_error {kind fn q st len : Nat} {body : State → List W64 → State × Option Nat} {s : State} (hq : nextQueue s = some (queueKey fn q))
    (hk : packetKind s fn (s.queue (queueKey fn q)) = kind) (he : readPacket s fn (s.queue (queueKey fn q)) = .error (st, len)) :
    packetM kind fn q body s = { finishPacket s fn q len st with served := queueKey fn q + 1 } := by
  unfold packetM
  dsimp only
  rw [if_neg (by simp [hq, hk]), he]

/-- A packet that its body answers finishes with that status. -/
theorem packetM_answers {kind fn q st : Nat} {body : State → List W64 → State × Option Nat} {s u : State} {w : List W64}
    (h : Claims.PacketAt s kind fn q w) (hb : body s w = (u, some st)) :
    packetM kind fn q body s = { finishPacket u fn q (bits (w.getD 0 0) 9 8) st with served := queueKey fn q + 1 } := by
  obtain ⟨hq, hk, hw⟩ := h
  unfold packetM
  dsimp only
  rw [if_neg (by simp [hq, hk]), hw]
  dsimp only
  rw [hb]

/-- A packet that its body makes wait stays at the head. -/
theorem packetM_waits {kind fn q : Nat} {body : State → List W64 → State × Option Nat} {s u : State} {w : List W64}
    (h : Claims.PacketAt s kind fn q w) (hb : body s w = (u, none)) : packetM kind fn q body s = { u with served := queueKey fn q + 1 } := by
  obtain ⟨hq, hk, hw⟩ := h
  unfold packetM
  dsimp only
  rw [if_neg (by simp [hq, hk]), hw]
  dsimp only
  rw [hb]

/-- An event of a packet answers what its body answers. -/
theorem answers_of {i : Nat → Nat → Instr} {kind fn q st : Nat} {body : State → List W64 → State × Option Nat} {s u : State} {w : List W64}
    (hx : exec (i fn q) s = .next (packetM kind fn q body s)) (h : Claims.PacketAt s kind fn q w) (hb : body s w = (u, some st)) :
    Claims.Answers i s fn q w u st := by rw [Claims.Answers, hx, packetM_answers h hb]

/-- Each event of a packet is the turn of its kind. -/
theorem packets_take : ∀ p ∈ Claims.packets, ∀ fn q s, ∃ body, exec (p.2 fn q) s = .next (packetM p.1 fn q body s) := by
  intro p hp fn q s
  simp only [Claims.packets, List.mem_cons, List.not_mem_nil, or_false] at hp
  rcases hp with rfl | rfl | rfl | rfl | rfl | rfl | rfl | rfl | rfl | rfl | rfl | rfl
  all_goals exact ⟨_, rfl⟩

/-- R315, R316: the packets that are left alone, and those that are discarded. -/
theorem discards : Claims.Discards := by
  intro p hp fn q s
  obtain ⟨body, hx⟩ := packets_take p hp fn q s
  exact ⟨fun h => by rw [hx, packetM_else h], fun st len hq hk he => by rw [hx, packetM_error hq hk he]⟩

/-! ### Launch packets (R41, R42, R335) -/

theorem decide_badCard {s : State} {q : Submit} (h : cardOk q.card = false) : decide_ s q = .rejected := by
  unfold decide_
  exact if_pos (by rw [h]; rfl)

/-- A structure that acceptance reads cannot be read. -/
theorem decide_unread {s : State} {q : Submit} (h : cardOk q.card = true)
    (hr : devReadWs s q.fn (bits (q.card.getD 7 0) 56 0) (8 * bits (q.card.getD 0 0) 47 40) = none ∨
      devReadWs s q.fn (bits (q.card.getD 8 0) 56 0) (8 * (bits (q.card.getD 0 0) 37 36 + 1)) = none ∨
      devReadWs s q.fn (bits (q.card.getD 8 0) 56 0 + 0x100) 32 = none ∨ devReadWs s q.fn (bits (q.card.getD 8 0) 56 0 + 0x200) 8 = none) :
    decide_ s q = .unreadable := by
  unfold decide_
  dsimp only
  rw [if_neg (by rw [h]; decide)]
  split
  case h_1 h1 h2 h3 h4 =>
    rw [h1, h2, h3, h4] at hr
    simp at hr
  case h_2 => rfl

section
variable {s : State} {q : Submit} {lay plc prof tmpl : List W64} (h : cardOk q.card = true)
  (hlay : devReadWs s q.fn (bits (q.card.getD 7 0) 56 0) (8 * bits (q.card.getD 0 0) 47 40) = some lay)
  (hplc : devReadWs s q.fn (bits (q.card.getD 8 0) 56 0) (8 * (bits (q.card.getD 0 0) 37 36 + 1)) = some plc)
  (hprof : devReadWs s q.fn (bits (q.card.getD 8 0) 56 0 + 0x100) 32 = some prof)
  (htmpl : devReadWs s q.fn (bits (q.card.getD 8 0) 56 0 + 0x200) 8 = some tmpl)
include h hlay hplc hprof htmpl

/-- A placement table that breaks R40, or too few dies. -/
theorem decide_unplaced (hp : placeOk q.card plc = false ∨ chooseDies s q.card q.die = none) : decide_ s q = .rejected := by
  unfold decide_
  dsimp only
  rw [if_neg (by rw [h]; decide), hlay, hplc, hprof, htmpl]
  dsimp only
  rcases hp with hp | hp
  · exact if_pos (by rw [hp]; rfl)
  · rw [hp]
    exact ite_self _

/-- A card that is accepted becomes a job. -/
theorem decide_accepts {dies : List Nat} (hp : placeOk q.card plc = true) (hd : chooseDies s q.card q.die = some dies) (hc : q.cap = none) :
    ∃ j : Job, decide_ s q = .accepted (devStore ({ s with nextJob := max s.nextJob (freshJob s + 1), jobSeq := s.jobSeq + 1 }.setJob (freshJob s) j)
        q.fn (bits (q.card.getD 8 0) 56 0 + 0x240) 8 0) (freshJob s) ∧
      j.fn = q.fn ∧ j.card = q.card ∧ j.priv = q.priv ∧ j.parent = q.parent ∧ j.prio = bits (q.card.getD 0 0) 19 16 ∧ j.next = 0 ∧
      j.rem = bits (q.card.getD 3 0) 31 0 + 1 ∧ j.seq = s.jobSeq ∧ j.queue = q.queue ∧ j.fin = 0 ∧ j.cancelled = false ∧ j.dies = dies := by
  unfold decide_
  dsimp only
  rw [if_neg (by rw [h]; decide), hlay, hplc, hprof, htmpl, hd, hc]
  dsimp only
  rw [if_neg (by rw [hp]; decide)]
  exact ⟨_, rfl, rfl, rfl, rfl, rfl, rfl, rfl, rfl, rfl, rfl, rfl, rfl, rfl⟩

end

/-- The compute dies that stand. -/
def standing (s : State) : List Nat := (List.range 4).filter fun d => !(s.die d).lost

theorem rankedDies_perm (s : State) : (rankedDies s).Perm (standing s) := List.mergeSort_perm ..

/-- A card asks for no more dies than it takes at most (R39). -/
theorem cardOk_dies {w : List W64} (h : cardOk w = true) : bits (w.getD 0 0) 25 23 ≤ bits (w.getD 0 0) 28 26 := by
  unfold cardOk at h
  simp only [Bool.and_eq_true, decide_eq_true_eq] at h
  tauto

/-- A launch gets its dies where as many stand as it asks for at least (R335). -/
theorem chooseDies_none_iff {s : State} {w : List W64} (h : cardOk w = true) :
    chooseDies s w none = none ↔ (standing s).length < bits (w.getD 0 0) 25 23 := by
  have hle := cardOk_dies h
  unfold chooseDies
  dsimp only
  rw [ite_eq_left_iff, List.length_take, (rankedDies_perm s).length_eq]
  constructor
  · intro hn
    by_contra hc
    exact absurd (hn (by omega)) nofun
  · intro hlt hn
    omega

/-- The dies of a launch stand, and are as many as there are up to its most (R335). -/
theorem chooseDies_some {s : State} {w : List W64} {dies : List Nat} (h : chooseDies s w none = some dies) :
    (∀ d ∈ dies, d < 4 ∧ (s.die d).lost = false) ∧ dies.length = min (bits (w.getD 0 0) 28 26) (standing s).length := by
  have hp := rankedDies_perm s
  unfold chooseDies at h
  dsimp only at h
  rw [Option.ite_none_left_eq_some, Option.some.injEq] at h
  obtain ⟨-, rfl⟩ := h
  have hsub : ∀ d ∈ (rankedDies s).take (bits (w.getD 0 0) 28 26), d < 4 ∧ (s.die d).lost = false := by
    intro d hd
    have hm := (hp.mem_iff).mp (List.mem_of_mem_take hd)
    simpa [standing] using hm
  have hnd : ((rankedDies s).take (bits (w.getD 0 0) 28 26)).Nodup :=
    ((hp.nodup_iff).mpr (List.nodup_range.filter _)).sublist (List.take_sublist ..)
  have hperm : ((List.range 4).filter fun d => ((rankedDies s).take (bits (w.getD 0 0) 28 26)).contains d).Perm
      ((rankedDies s).take (bits (w.getD 0 0) 28 26)) := by
    refine (List.perm_ext_iff_of_nodup (List.nodup_range.filter _) hnd).mpr fun d => ?_
    simp only [List.mem_filter, List.mem_range, List.contains_eq_mem, decide_eq_true_eq]
    exact ⟨And.right, fun hd => ⟨(hsub d hd).1, hd⟩⟩
  exact ⟨fun d hd => hsub d ((hperm.mem_iff).mp hd), by rw [hperm.length_eq, List.length_take, hp.length_eq]⟩

theorem cardIds_root (id : Nat) : (cardIds id 0).toNat = id % 2 ^ 32 := by
  unfold cardIds w64
  rw [BitVec.toNat_ofNat]
  omega

/-- R41, R42, R170, R318, R335, R399, R419: launch packets. -/
theorem launches : Claims.Launches := by
  intro fn q s w h
  let sub (card : List W64) : Submit := { fn, card, priv := bit (w.getD 0 0) 16, queue := some (queueKey fn q) }
  refine ⟨fun hr => answers_of rfl h ?_, fun card hcard => ⟨fun hbad => answers_of rfl h ?_, ?_⟩⟩
  · rw [hr]
  · rw [hcard]
    dsimp only
    rcases hbad with hb | hb
    · rw [if_pos hb]
    · rw [decide_badCard (q := sub card) hb]
      exact ite_self _
  rintro hrec hok tab n rfl rfl
  refine ⟨fun hr => answers_of rfl h ?_, fun lay plc prof tmpl hlay hplc hprof htmpl => ⟨fun hp => answers_of rfl h ?_, fun hp hd => ?_⟩⟩
  · rw [hcard]
    dsimp only
    rw [if_neg (by rw [hrec]; decide), decide_unread (q := sub card) hok hr]
  · rw [hcard]
    dsimp only
    rw [if_neg (by rw [hrec]; decide), decide_unplaced (q := sub card) hok hlay hplc hprof htmpl (hp.imp_right (chooseDies_none_iff hok).mpr)]
  · obtain ⟨dies, hdies⟩ : ∃ dies, chooseDies s card none = some dies :=
      Option.ne_none_iff_exists'.mp fun e => absurd ((chooseDies_none_iff hok).mp e) (Nat.not_lt.mpr hd)
    obtain ⟨hstand, hlen⟩ := chooseDies_some hdies
    obtain ⟨j, hj, h1, h2, h3, h4, h5, h6, h7, h8, h9, h10, h11, h12⟩ :=
      decide_accepts (q := sub card) hok hlay hplc hprof htmpl hp hdies rfl
    refine ⟨j, _, rfl, answers_of rfl h ?_, h1, h2, h3, h4, h5, h6, h7, h8, h9, h10, h11, h12 ▸ hstand, h12 ▸ hlen⟩
    rw [hcard]
    dsimp only
    rw [if_neg (by rw [hrec]; decide), hj]
    dsimp only
    rw [cardIds_root]

/-! ### Replay packets (R330, R331) -/

/-- Of two writes of one graph the last stands. -/
theorem setGraph_setGraph {s : State} {id : Nat} {g h : Graph} (hg : g ≠ {}) (hh : h ≠ {}) : (s.setGraph id g).setGraph id h = s.setGraph id h := by
  have hm : mapSet {} (mapSet {} s.graphs id g) id h = mapSet {} s.graphs id h := by
    rw [mapSet, mapSet, mapSet, if_neg hg, if_neg hh, if_neg hh, mapPut_mapPut]
  exact congrArg (fun m => { s with graphs := m }) hm

theorem Graph.ne_default_of_defined {g : Graph} (h : g.defined = true) : g ≠ {} := by
  rintro rfl
  exact Bool.false_ne_true h

/-- R330, R331: replay packets. -/
theorem replays : Claims.Replays := by
  intro fn q s w h id gp hid hgp
  have hgd : gp.defined = (s.graph id).defined := by rw [hgp]; rfl
  have hgl : gp.live = (s.graph id).live := by rw [hgp]; rfl
  have hgn : gp.pending = (s.graph id).pending := by rw [hgp]; rfl
  refine ⟨fun hbad => answers_of rfl h ?_, fun hd hf => ?_⟩
  · rw [← hid]
    exact if_pos (by simpa using hbad)
  have hown : ¬ (!(s.graph id).defined || (s.graph id).fn != fn) = true := by simp [hd, hf]
  refine ⟨fun hl hp => answers_of rfl h ?_, fun hl hp => answers_of rfl h ?_, fun hl => ?_⟩
  · rw [← hid]
    refine (if_neg hown).trans (if_pos ?_)
    rw [hl, Option.isSome_iff_ne_none.mpr hp]
    rfl
  · rw [← hid]
    refine (if_neg hown).trans ((if_neg (by simp [hp])).trans ?_)
    rw [← hgp, replayGraph, State.graph_setGraph_same, hgd, hgl, hgn, hd, hl, hp]
    refine congrArg (·, some 1) (setGraph_setGraph (Graph.ne_default_of_defined (by rw [hgd, hd])) (Graph.ne_default_of_defined ?_))
    rw [← hd, ← hgd]
  · obtain ⟨honly, hgraph⟩ := startInstance_only (s.setGraph id gp) id (some (queueKey fn q)) 0 none
    have hsame := hgraph id
    rw [if_pos rfl, State.graph_setGraph_same] at hsame
    refine ⟨startInstance (s.setGraph id gp) id (some (queueKey fn q)) 0 none, answers_of rfl h ?_, honly, fun k hk => ?_, ?_⟩
    · rw [← hid]
      refine (if_neg hown).trans ((if_neg (by simp [hl])).trans ?_)
      rw [← hgp, replayGraph, State.graph_setGraph_same, hgd, hgl, hd, hl]
      rfl
    · rw [hgraph, if_neg hk, State.graph_setGraph_ne _ _ _ _ hk]
    · rw [hsame]
      exact ⟨rfl, rfl, rfl, rfl, rfl, rfl⟩

/-! ### Fences, signal writes, copies and cancels (R309, R318) -/

/-- R309, R318: the packets that wait, store, copy and cancel. -/
theorem stores : Claims.Stores := by
  refine fun fn q s w => ⟨fun h cs hcs => ⟨fun hf => ?_, fun hf => ?_, fun hf => ?_⟩, fun h => ⟨fun u hu => ?_, fun hn => ?_⟩,
    fun h => ⟨fun hn => ?_, fun b hb => ⟨fun hn => ?_, fun u hu => ?_⟩⟩, fun h j hj => ⟨fun h1 h2 h3 h4 h5 => ?_, fun hbad => ?_⟩⟩
  · refine answers_of rfl h ?_
    dsimp only
    rw [← hcs, hf]
  · refine answers_of rfl h ?_
    dsimp only
    rw [← hcs, hf]
  · refine congrArg _ (packetM_waits h ?_)
    dsimp only
    rw [← hcs, hf]
  · refine answers_of rfl h ?_
    rw [hu]
  · refine answers_of rfl h ?_
    rw [hn]
  · refine answers_of rfl h ?_
    rw [hn]
  · refine answers_of rfl h ?_
    rw [hb]
    dsimp only
    rw [hn]
  · refine answers_of rfl h ?_
    rw [hb]
    dsimp only
    rw [hu]
  all_goals
    have hany : (s.jobs.any fun p => p.1 == j) = true ↔ ∃ p ∈ s.jobs, p.1 = j := by simp only [List.any_eq_true, beq_iff_eq]
    refine answers_of rfl h ?_
    rw [← hj]
  · exact if_pos ⟨h1, hany.mpr h2, h3, h4, h5⟩
  · refine if_neg fun ⟨h1, h2, h3, h4, h5⟩ => ?_
    obtain ⟨p, hp, hpj⟩ := hany.mp h2
    rcases hbad with hb | hb | hb | hb | hb
    · exact h1 hb
    · exact hb p hp hpj
    · exact hb h3
    · exact Bool.false_ne_true (h4.symm.trans hb)
    · exact hb h5

/-! ### Streams and bounds (R324 to R326) -/

/-- Slots that are freed change flows alone. -/
theorem freeSlots_only (s : State) (l : List (Nat × Nat)) : freeSlots s l = { s with flows := (freeSlots s l).flows } := by
  induction l generalizing s with
  | nil => rfl
  | cons p l ih =>
    show freeSlots (freeSlot s p.1 p.2) l = { s with flows := (freeSlots (freeSlot s p.1 p.2) l).flows }
    rw [ih]
    rfl

/-- A stream that leaves the table: its entry is empty, and no other changes. -/
theorem dropStream_gone (s : State) (n : Nat) :
    (dropStream s n).stream n = {} ∧ (dropStream s n).mem = s.mem ∧ ∀ k, k ≠ n → (dropStream s n).stream k = s.stream k := by
  unfold dropStream
  dsimp only
  rw [freeSlots_only]
  exact ⟨State.stream_setStream_same .., rfl, fun k hk => State.stream_setStream_ne _ _ _ _ hk⟩

/-- The bounds of the four bands, as a list, read as they were written. -/
theorem mapGet_bands (b : Nat → Nat) {k : Nat} (hk : k < 4) : mapGet 0 ((List.range 4).map fun k => (k, b k)) k = b k := by
  interval_cases k
  all_goals rfl

/-- R326: bounds fall from band to band, and stay within 384 units. -/
def FallingBounds (b : Nat → Nat) : Prop := (∀ k < 4, b k ≤ 6144) ∧ ∀ k < 3, b (k + 1) ≤ b k

theorem not_fallingBounds {b : Nat → Nat} (h : (∃ k < 4, 6144 < b k) ∨ ∃ k < 3, b k < b (k + 1)) : ¬ FallingBounds b := by
  rintro ⟨h1, h2⟩
  obtain ⟨k, hk, hb⟩ | ⟨k, hk, hb⟩ := h
  · exact absurd (h1 k hk) (Nat.not_le.mpr hb)
  · exact absurd (h2 k hk) (Nat.not_le.mpr hb)

/-- Bounds that fall are set, on their die alone (R326). -/
theorem setBounds_falling {s : State} {die : Nat} {v : W64} {b : Nat → Nat} (hb : b = fun k => bits v (16 * k + 15) (16 * k)) (h : FallingBounds b) :
    ∃ u, setBounds s die v = some u ∧ (∀ k < 4, mapGet 0 (u.die die).bounds k = b k) ∧ ∀ d, d ≠ die → u.die d = s.die d := by
  obtain ⟨t, ht⟩ : ∃ t, t = s.updDie die fun x => { x with bounds := (List.range 4).map fun k => (k, b k) } := ⟨_, rfl⟩
  have hsame : (t.die die).bounds = (List.range 4).map fun k => (k, b k) := by rw [ht, State.updDie, State.die_setDie_same]
  have hother : ∀ d, d ≠ die → t.die d = s.die d := fun d hd => by rw [ht, State.updDie, State.die_setDie_ne _ _ _ _ hd]
  obtain ⟨m, st, hs⟩ := shedDie_only t false die
  have hdies : ∀ d, (shedDie t false die).die d = t.die d := fun d => by rw [hs]; rfl
  refine ⟨shedDie t false die, ?_, fun k hk => by rw [hdies, hsame, mapGet_bands b hk], fun d hd => by rw [hdies, hother d hd]⟩
  unfold setBounds
  rw [ht, hb]
  rw [hb] at h
  exact if_pos (by simpa [FallingBounds] using h)

theorem setBounds_malformed {s : State} {die : Nat} {v : W64} {b : Nat → Nat} (hb : b = fun k => bits v (16 * k + 15) (16 * k))
    (h : ¬ FallingBounds b) : setBounds s die v = none := by
  unfold setBounds
  dsimp only
  rw [hb] at h
  exact if_neg (by simpa [FallingBounds] using h)

/-- R324 to R326: admission, modification, retirement and bounds. -/
theorem admits : Claims.Admits := by
  refine fun fn q s w => ⟨fun h => answers_of rfl h rfl, fun h => answers_of rfl h rfl, fun h n hn => ⟨fun hbad => ?_, fun hf h2 => ?_, fun hf h13 => ?_⟩,
    fun h b hb => ⟨fun hok => ?_, fun hbad => ?_⟩⟩
  · refine answers_of rfl h ?_
    rw [← hn, retireStream]
    rcases hbad with hf | h0 | h4
    · rw [if_pos hf]
    · rw [h0]
      exact congrArg (·, some 1) (ite_self _)
    · rw [h4]
      exact congrArg (·, some 1) (ite_self _)
  · refine answers_of rfl h ?_
    rw [← hn, retireStream, if_neg (not_not.mpr hf), h2]
    rfl
  · refine ⟨dropStream s n, answers_of rfl h ?_, dropStream_gone s n⟩
    rw [← hn, retireStream, if_neg (not_not.mpr hf)]
    rcases h13 with h1 | h3
    · rw [h1]
      rfl
    · rw [h3]
      rfl
  · obtain ⟨u, hu, hset⟩ := setBounds_falling (s := s) (die := bits (w.getD 1 0) 1 0) hb hok
    refine ⟨u, answers_of rfl h ?_, hset⟩
    rw [hu]
  · refine answers_of rfl h ?_
    rw [setBounds_malformed hb (not_fallingBounds hbad)]

/-! ### Graphs (R317, R329, R402) -/

theorem foreign_iff (g : Graph) (fn : Nat) : g.foreign fn = true ↔ (g.defined = true ∨ g.live = true) ∧ g.fn ≠ fn := by
  simp [Graph.foreign]

/-- R317, R329, R402: definitions and deletions of graphs. -/
theorem defines : Claims.Defines := by
  intro fn q s w id hid held
  have hheld : (s.graph id).foreign fn = true ↔ held := foreign_iff ..
  refine ⟨fun h => ⟨fun hh => answers_of rfl h ?_, fun hn => ⟨fun hr => answers_of rfl h ?_, fun im him => ⟨fun hr => answers_of rfl h ?_,
    fun ps hps => ⟨fun hb => answers_of rfl h ?_, fun hok => answers_of rfl h ?_⟩⟩⟩⟩, fun h => ⟨fun hh => answers_of rfl h ?_, fun hn => answers_of rfl h ?_⟩⟩
  all_goals rw [← hid]
  · exact if_pos (hheld.mpr hh)
  · rw [if_neg (hheld.not.mpr hn), hr]
  · rw [if_neg (hheld.not.mpr hn), him]
    dsimp only
    rw [hr]
  · rw [if_neg (hheld.not.mpr hn), him]
    dsimp only
    rw [hps]
    exact if_pos (by rw [hb]; rfl)
  · rw [if_neg (hheld.not.mpr hn), him]
    dsimp only
    rw [hps]
    exact if_neg (by rw [hok]; decide)
  · exact if_pos (hheld.mpr hh)
  · rw [if_neg (hheld.not.mpr hn)]
    exact (apply_ite (fun g => (s.setGraph id g, some 1)) ..).symm

/-- Settles O54: the packets that are discarded, and each kind that is not, by the lemma of its part. -/
theorem hostPackets : Obligations.HostPackets := ⟨discards, launches, replays, stores, admits, defines⟩

end Sys2Proof.Machine
end

section
/-! PROOFS. Messages between cores (R31 to R34, R166, R172, R205, R392, R420, R493, R505): `send`, the landing and the start of a handler. -/

namespace Sys2Proof.Machine

/-! ### send (R33, R205) -/

/-- The state in which a core has put a message on its way, its number the next of timeline 5. -/
def sentMsg (s : State) (m : Msg) : State :=
  (s.updCore (coreOf s.cur) fun k => { k with tlNext := k.tlNext.set! 5 m.num, sends := k.sends ++ [m] })

/-- What a sent message changes: its core alone. -/
theorem sentMsg_eq (s : State) (m : Msg) : sentMsg s m = { s with cores := (sentMsg s m).cores } ∧
    (sentMsg s m).core (coreOf s.cur) = { s.core (coreOf s.cur) with
      tlNext := (s.core (coreOf s.cur)).tlNext.set! 5 m.num, sends := (s.core (coreOf s.cur)).sends ++ [m] } ∧
    ∀ j, j ≠ coreOf s.cur → (sentMsg s m).core j = s.core j :=
  ⟨rfl, State.core_setCore_same .., fun _ hj => State.core_setCore_ne _ _ _ _ hj⟩

/-- The message that a `send` puts on its way: its payload read at issue. -/
def msgOf (s : State) (n : BitVec 5) (src dst core : Nat) (handler : W64) : Msg := {
  num := nextNum (s.core (coreOf s.cur)) 5
  ctx := s.cur
  job := s.me.job
  core
  off := dst
  data := natToBytes (Claims.sendLen n) (readNat s (sliceKey (coreOf s.cur) src) (Claims.sendLen n))
  handler
  stamp := s.qcount }

theorem nextNum_five (k : Core) : nextNum k 5 = k.tlNext[5] + 1 := by
  unfold nextNum
  rw [List.getD_eq_getElem _ _ (by simp), Vector.getElem_toList]

/-- R33, R205: `send`. -/
theorem sendRuns : Claims.SendRuns := by
  intro d a b n s src dst ha hb hd hsrc hdst
  subst hsrc hdst
  simp only [Claims.sendLen]
  refine ⟨fun core h0 hs8 hd8 hh16 hcore hsb hdb hload hfence hheld => ?_, fun h0 => traps_free rfl rfl ?_, fun h0 => ⟨fun hs8 => traps_free rfl rfl ?_,
    fun hs8 hd8 => traps_free rfl rfl ?_, fun hs8 hd8 hh16 => traps_free rfl rfl ?_, fun hs8 hd8 hh16 => ⟨fun hcore => traps_free rfl rfl ?_,
      fun hcore => ⟨fun hsb => traps_free rfl rfl ?_, fun hsb hdb => traps_free rfl rfl ?_⟩⟩⟩⟩
  · obtain ⟨hown, hmine, hrace, hclean⟩ := hload
    obtain ⟨x, hx⟩ : ∃ x, s.raced (sliceKey (coreOf s.cur) (bits (s.val d) 22 0)) (8 * (n.toNat + 1)) false false = { s with det := x } :=
      ⟨_, State.raced_eq ..⟩
    have hread := loadLocal_ready rfl hown hmine (hrace rfl) hclean
    rw [hx] at hread
    obtain ⟨m, hm⟩ : ∃ m, m = msgOf s n (bits (s.val d) 22 0) (bits (s.val a.r) 22 0) core (s.val b.r) := ⟨_, rfl⟩
    obtain ⟨-, hsame, hother⟩ := sentMsg_eq { s with det := x } m
    refine ⟨fun hroom => ⟨sentMsg { s with det := x } m, m, ends_free rfl rfl ?_, rfl, hother, hsame, by rw [hm]; exact nextNum_five _, by rw [hm]; rfl,
      by rw [hm]; rfl, by rw [hm]; rfl, by rw [hm]; rfl, by rw [hm]; rfl, by rw [hm]; rfl⟩, fun hfull => waits_free rfl rfl ?_⟩
    all_goals
      rw [M.bind_readSrc ha, M.bind_readSrc hb, M.bind_readReg _ hd]
      dsimp only
      rw [M.bind_limit (by simpa using h0), M.bind_check (by simpa using hs8), M.bind_check (by simpa using hd8), M.bind_check (by simpa using hh16),
        M.bind_get_apply, hcore]
      dsimp only
      rw [M.bind_check (by simpa using hsb), M.bind_check (by simpa using hdb), M.bind_myCore, M.bind_paddockM _ hmine, M.bind_paddockM _ hfence,
        M.bind_quiesceM hheld, M.bind_ok hread]
    · rw [M.bind_await (by simpa using hroom), hm]
      rfl
    · rw [M.bind_await_fails (by simpa using hfull)]
  all_goals
    rw [M.bind_readSrc ha, M.bind_readSrc hb, M.bind_readReg _ hd]
    dsimp only
  · rw [M.bind_limit_fails (by simpa using h0), BitVec.ofNat_toNat]
    rfl
  all_goals rw [M.bind_limit (by simpa using h0)]
  · rw [M.bind_check_fails (by simpa using hs8)]
    rfl
  all_goals rw [M.bind_check (by simpa using hs8)]
  · rw [M.bind_check_fails (by simpa using hd8)]
    rfl
  all_goals rw [M.bind_check (by simpa using hd8)]
  · rw [M.bind_check_fails (by simpa using hh16)]
    rfl
  all_goals rw [M.bind_check (by simpa using hh16), M.bind_get_apply]
  · rw [hcore]
    rfl
  all_goals
    obtain ⟨core, hcore⟩ := Option.ne_none_iff_exists'.mp hcore
    rw [hcore]
    dsimp only
  · rw [M.bind_check_fails (by simpa using hsb)]
    rfl
  · rw [M.bind_check (by simpa using hsb), M.bind_check_fails (by simpa using hdb)]
    rfl

/-! ### The landing (R33, R172, R420, R493) -/

/-- The bytes of a payload stand, and its number is reached. -/
def landedSend (s : State) (core : Nat) (m : Msg) (rest : List Msg) : State :=
  wakeCore ((clearPoison (writeBytes s (sliceKey m.core m.off) m.data) (sliceKey m.core m.off) m.data.length).updCore core fun k =>
    { k with sends := rest, tlDone := k.tlDone.set! 5 m.num }) core

theorem landedSend_mem (s : State) (core : Nat) (m : Msg) (rest : List Msg) :
    (landedSend s core m rest).mem = (writeBytes s (sliceKey m.core m.off) m.data).mem := by
  unfold landedSend
  rw [wakeCore_mem]
  exact clearPoison_mem ..

/-- What a landing changes of the cores: the sends and the timeline of the message's source. -/
theorem landedSend_core (s : State) (core : Nat) (m : Msg) (rest : List Msg) (j : Nat) : (landedSend s core m rest).core j =
    if j = core then { s.core core with sends := rest, tlDone := (s.core core).tlDone.set! 5 m.num } else s.core j := by
  have hc : ∀ i, (clearPoison (writeBytes s (sliceKey m.core m.off) m.data) (sliceKey m.core m.off) m.data.length).core i = s.core i := fun i => by
    rw [clearPoison_eq, writeBytes_eq]
    rfl
  unfold landedSend
  rw [wakeCore_core, State.updCore, State.core_setCore, hc, hc]

theorem landedSend_job (s : State) (core : Nat) (m : Msg) (rest : List Msg) (j : Nat) : (landedSend s core m rest).job j = s.job j := by
  unfold landedSend
  rw [(wakeCore_eq _ core).1, clearPoison_eq, writeBytes_eq]
  rfl

/-- A landing wakes contexts, and changes nothing else of them. -/
theorem landedSend_ctx (s : State) (core : Nat) (m : Msg) (rest : List Msg) (j : Nat) : ∃ r, (landedSend s core m rest).ctx j = { s.ctx j with run := r } := by
  obtain ⟨r, hr⟩ := (wakeCore_eq ((clearPoison (writeBytes s (sliceKey m.core m.off) m.data) (sliceKey m.core m.off) m.data.length).updCore core fun k =>
    { k with sends := rest, tlDone := k.tlDone.set! 5 m.num }) core).2 j
  refine ⟨r, hr.trans ?_⟩
  rw [clearPoison_eq, writeBytes_eq]
  rfl

/-- The arrival that a landed message makes where it has a handler (R33). -/
def arrivalOf (m : Msg) : Arrival := ⟨m.handler, w64 m.off, w64 m.data.length, w64 m.ctx, m.job, none⟩

theorem freeRing_arrivalOf (s : State) (m : Msg) : freeRing s (arrivalOf m) = s := rfl

/-- The state in which an arrival has entered a core's queue, and woken its contexts. -/
def queuedArrival (s : State) (core : Nat) (a : Arrival) : State := wakeCore (s.updCore core fun k => { k with arrivals := k.arrivals ++ [a] }) core

theorem queuedArrival_mem (s : State) (core : Nat) (a : Arrival) : (queuedArrival s core a).mem = s.mem := wakeCore_mem ..

theorem queuedArrival_core (s : State) (core : Nat) (a : Arrival) (j : Nat) : (queuedArrival s core a).core j =
    if j = core then { s.core core with arrivals := (s.core core).arrivals ++ [a] } else s.core j := by
  unfold queuedArrival
  rw [wakeCore_core, State.updCore, State.core_setCore]

/-- An arrival that enters a queue leaves every core's sends and timelines. -/
theorem queuedArrival_sends (s : State) (core : Nat) (a : Arrival) (j : Nat) :
    ((queuedArrival s core a).core j).sends = (s.core j).sends ∧ ((queuedArrival s core a).core j).tlDone = (s.core j).tlDone := by
  rw [queuedArrival_core]
  split
  · next h => rw [h]; exact ⟨rfl, rfl⟩
  · exact ⟨rfl, rfl⟩

theorem queuedArrival_ctx (s : State) (core : Nat) (a : Arrival) (j : Nat) : ∃ r, (queuedArrival s core a).ctx j = { s.ctx j with run := r } :=
  (wakeCore_eq (s.updCore core fun k => { k with arrivals := k.arrivals ++ [a] }) core).2 j

/-- A payload whose unit is being migrated, or whose slice another context holds, stays on its way. -/
theorem sendLanding_barred {s : State} {core : Nat} {m : Msg} {rest : List Msg} (hs : (s.core core).sends = m :: rest)
    (h : migratingTo s m.job m.core = true ∨ ∃ c, (s.core m.core).holder = some c ∧ c ≠ m.ctx) : exec (.sendLanding core) s = .next s := by
  show execSendLanding core s = _
  refine runEvent_ok ?_
  rw [M.bind_get_apply, hs]
  dsimp only
  rw [if_pos]
  · rfl
  · rcases h with h | ⟨c, hc, hne⟩
    · simp [h]
    · simp [hc, hne]

/-- A payload lands, and with a handler its arrival enters the target's queue. -/
theorem sendLanding_lands {s : State} {core : Nat} {m : Msg} {rest : List Msg} (hs : (s.core core).sends = m :: rest)
    (hmig : migratingTo s m.job m.core = false) (hheld : ∀ c, (s.core m.core).holder = some c → c = m.ctx) :
    exec (.sendLanding core) s = .next (if m.handler = 0 then landedSend s core m rest
      else (enterArrival (landedSend s core m rest) m.core (arrivalOf m)).getD s) := by
  show execSendLanding core s = _
  refine runEvent_ok ?_
  unfold landedSend arrivalOf
  rw [M.bind_get_apply, hs]
  dsimp only
  rw [if_neg]
  · by_cases h0 : m.handler = 0
    · rw [if_pos h0, if_pos h0, M.set_apply]
    · rw [if_neg h0, if_neg h0]
      generalize enterArrival _ _ _ = o
      cases o <;> rfl
  · cases hc : (s.core m.core).holder with
    | none => simp [hmig]
    | some c => simp [hmig, hheld c hc]

/-- R33, R172, R205, R420, R493: the landing. -/
theorem sendLands : Claims.SendLands := by
  intro s core
  refine ⟨fun h => ?_, fun m rest hs => ⟨sendLanding_barred hs, fun hmig hheld => ?_⟩⟩
  · show execSendLanding core s = _
    refine runEvent_ok ?_
    rw [M.bind_get_apply, h]
    rfl
  have hx := sendLanding_lands hs hmig hheld
  have hcan : ((landedSend s core m rest).job m.job).cancelled = (s.job m.job).cancelled := by rw [landedSend_job]
  have harr : ((landedSend s core m rest).core m.core).arrivals = (s.core m.core).arrivals := by
    rw [landedSend_core]
    split
    · next h => rw [h]
    · rfl
  have hbytes := readBytes_writeBytes m.data s (sliceKey m.core m.off)
  refine ⟨fun h0 hc hfull => ?_, fun hroom => ?_⟩
  · rw [hx, if_neg h0, enterArrival_full (a := arrivalOf m) (hcan.trans hc) (by rwa [harr]), Option.getD_none]
  by_cases hq : m.handler = 0 ∨ (s.job m.job).cancelled = true
  · refine ⟨landedSend s core m rest, ?_, ?_, ?_, ?_, ?_, ?_, landedSend_ctx s core m rest⟩
    · rw [hx]
      rcases hq with h | h
      · rw [if_pos h]
      · rw [enterArrival_cancelled (a := arrivalOf m) (hcan.trans h), Option.getD_some, freeRing_arrivalOf, ite_self]
    · rw [readBytes_of_mem (landedSend_mem ..)]
      exact hbytes
    · intro a ha
      rw [readByte_of_mem (landedSend_mem ..)]
      exact readByte_writeBytes_outside _ _ _ _ ha
    · rw [landedSend_core, if_pos rfl]
    · rw [landedSend_core, if_pos rfl]
    · rw [harr, if_pos hq, List.append_nil]
  · obtain ⟨h0, hc⟩ := not_or.mp hq
    have hc : (s.job m.job).cancelled = false := Bool.eq_false_iff.mpr hc
    have hr : ((landedSend s core m rest).core m.core).arrivals.length < 16 := by
      rw [harr]
      exact (hroom.resolve_left h0).resolve_left (by simp [hc])
    refine ⟨queuedArrival (landedSend s core m rest) m.core (arrivalOf m), ?_, ?_, ?_, ?_, ?_, ?_, fun j => ?_⟩
    · rw [hx, if_neg h0, enterArrival_room (a := arrivalOf m) (hcan.trans hc) hr, Option.getD_some, queuedArrival]
    · rw [readBytes_of_mem ((queuedArrival_mem ..).trans (landedSend_mem ..))]
      exact hbytes
    · intro a ha
      rw [readByte_of_mem ((queuedArrival_mem ..).trans (landedSend_mem ..))]
      exact readByte_writeBytes_outside _ _ _ _ ha
    · rw [(queuedArrival_sends ..).1, landedSend_core, if_pos rfl]
    · rw [(queuedArrival_sends ..).2, landedSend_core, if_pos rfl]
    · rw [queuedArrival_core, if_pos rfl, if_neg hq, ← harr]
      rfl
    · obtain ⟨r, hr⟩ := queuedArrival_ctx (landedSend s core m rest) m.core (arrivalOf m) j
      obtain ⟨q, hq⟩ := landedSend_ctx s core m rest j
      exact ⟨r, by rw [hr, hq]⟩

/-! ### The start of a handler (R31, R32, R166, R392, R505) -/

theorem dormant_lt {s : State} {core i : Nat} (h : dormant s core = some i) : i < 6 := by
  have hm := List.mem_of_find?_eq_some h
  simp only [List.mem_cons, List.not_mem_nil, or_false] at hm
  omega

/-- The state in which a handler starts for an arrival, its launch charged and its core awake. -/
def startedHandler (u : State) (core i : Nat) (a : Arrival) : State :=
  wakeCore (charge ((u.updCore core fun k =>
    { (if (u.ctx (8 * core + i)).job = a.job then k else freshHandler k i) with arrivals := k.arrivals.erase a }).setCtx (8 * core + i)
      (handlerCtx u core i a)) (core / 128) (u.job a.job).fn) core

theorem startedHandler_mem (u : State) (core i : Nat) (a : Arrival) : (startedHandler u core i a).mem = u.mem := wakeCore_mem ..

theorem startedHandler_core (u : State) (core i : Nat) (a : Arrival) : (startedHandler u core i a).core core =
    { (if (u.ctx (8 * core + i)).job = a.job then u.core core else freshHandler (u.core core) i) with arrivals := (u.core core).arrivals.erase a } := by
  unfold startedHandler
  rw [wakeCore_core]
  exact State.core_setCore_same ..

theorem charge_ctx (s : State) (die fn j : Nat) : (charge s die fn).ctx j = s.ctx j := rfl

theorem startedHandler_ctx_same (u : State) (core i : Nat) (a : Arrival) : (startedHandler u core i a).ctx (8 * core + i) = handlerCtx u core i a := by
  unfold startedHandler
  rw [wakeCore_awake]
  · rw [charge_ctx, State.ctx_setCtx_same]
  · rw [charge_ctx, State.ctx_setCtx_same]
    exact nofun

theorem startedHandler_ctx_ne (u : State) (core i : Nat) (a : Arrival) {j : Nat} (hj : j ≠ 8 * core + i) :
    ∃ r, (startedHandler u core i a).ctx j = { u.ctx j with run := r } := by
  obtain ⟨r, hr⟩ := (wakeCore_eq (charge ((u.updCore core fun k =>
    { (if (u.ctx (8 * core + i)).job = a.job then k else freshHandler k i) with arrivals := k.arrivals.erase a }).setCtx (8 * core + i)
      (handlerCtx u core i a)) (core / 128) (u.job a.job).fn) core).2 j
  refine ⟨r, hr.trans (congrArg (fun x : Ctx => { x with run := r }) ?_)⟩
  rw [charge_ctx, State.ctx_setCtx_ne _ _ _ _ hj]
  rfl

/-- A handler of another launch starts with its token set and its function table empty (R505). -/
theorem freshHandler_empty (k : Core) {i : Nat} (h : i < 6) :
    (freshHandler k i).tok[i] = Vector.replicate 8 0 ∧ ∀ p ∈ (freshHandler k i).ftab, p.1 / 8 ≠ i := by
  refine ⟨?_, fun p hp => ?_⟩
  · simp [freshHandler]
  · simpa using (List.mem_filter.mp hp).2

/-- What a handler's context holds when it starts (R32, R166). -/
theorem handlerCtx_x (u : State) (core i : Nat) (a : Arrival) : (handlerCtx u core i a).x[1] = a.x1 ∧ (handlerCtx u core i a).x[2] = a.x2 ∧
    (handlerCtx u core i a).x[3] = a.x3 ∧
    ∀ (r : Nat) (h : r < 64), r ≠ 1 → r ≠ 2 → r ≠ 3 → (handlerCtx u core i a).x[r] = (arriveAll (u.ctx (8 * core + i))).x[r] := by
  have hx : (handlerCtx u core i a).x = (((arriveAll (u.ctx (8 * core + i))).x.set 1 a.x1).set 2 a.x2).set 3 a.x3 := rfl
  simp only [hx]
  refine ⟨by simp, by simp, by simp, fun r h h1 h2 h3 => ?_⟩
  rw [Vector.getElem_set_ne _ _ (Ne.symm h3), Vector.getElem_set_ne _ _ (Ne.symm h2), Vector.getElem_set_ne _ _ (Ne.symm h1)]

/-- The start of a handler, by its steps: what waited at the endpoint enters, then the oldest arrival starts where it can. -/
theorem handlerStart_eq {s u : State} {core : Nat} (hl : (s.die (core / 128)).lost = false) (hu : u = pullWaiting s core) :
    (nextArrival u core = none ∨ dormant u core = none → exec (.handlerStart core) s = .next u) ∧
      ∀ (i : Nat) (a : Arrival), nextArrival u core = some a → dormant u core = some i →
        exec (.handlerStart core) s = .next (if handlerReady u core i a = true then startedHandler u core i a else u) := by
  have hx : exec (.handlerStart core) s = execHandlerStart core s := rfl
  rw [execHandlerStart, runEvent_modify, if_neg (by rw [hl]; exact Bool.false_ne_true)] at hx
  dsimp only at hx
  rw [← hu] at hx
  refine ⟨fun h => ?_, fun i a ha hi => ?_⟩
  · rw [hx]
    rcases h with h | h
    · rw [h]
    · rw [h]
      cases nextArrival u core <;> rfl
  · rw [hx, ha, hi]
    by_cases hr : handlerReady u core i a = true
    · rw [if_pos hr]
      exact congrArg _ (if_neg (by rw [hr]; decide))
    · rw [if_neg hr]
      exact congrArg _ (if_pos (by simpa using hr))

/-- R31, R32, R166, R392, R505: the start of a handler. -/
theorem handlerStarts : Claims.HandlerStarts := by
  intro s core
  refine ⟨fun h => ?_, fun h => ?_, fun hl u hu => ⟨(handlerStart_eq hl hu).1, fun i a ha hi => ⟨fun hr => ?_, fun hr => ?_⟩⟩⟩
  · show execHandlerStart core s = _
    rw [execHandlerStart, runEvent_modify, if_pos h]
  · rw [pullWaiting, h]
    rfl
  all_goals have hx := (handlerStart_eq hl hu).2 i a ha hi
  · rw [hx, if_neg (by rw [hr]; exact Bool.false_ne_true)]
  · rw [if_pos hr] at hx
    obtain ⟨h1, h2, h3, hrest⟩ := handlerCtx_x u core i a
    have hc := startedHandler_ctx_same u core i a
    have hcore := startedHandler_core u core i a
    refine ⟨startedHandler u core i a, hx, ?_, startedHandler_mem .., ?_, ?_, ?_, ?_, ?_, ?_, ?_, ?_, ?_, fun j hj => startedHandler_ctx_ne _ _ _ _ hj,
      fun hj => ?_⟩
    · rw [hcore]
    · rw [hc]
      rfl
    · rw [hc]
      exact BitVec.toNat_ofNat ..
    · rw [hc, h1]
    · rw [hc, h2]
    · rw [hc, h3]
    · intro r h
      rw [hc]
      exact hrest r h
    · rw [hc]
      rfl
    · rw [hc]
      rfl
    · rw [hc]
      rfl
    · rw [hcore, if_neg hj]
      have hf := freshHandler_empty (u.core core) (dormant_lt hi)
      exact ⟨fun _ => hf.1, hf.2⟩

/-- Settles O29: `send`, the landing and the start of a handler, each by the lemma of its part. -/
theorem messageInstructions : Obligations.MessageInstructions := ⟨sendRuns, sendLands, handlerStarts⟩

end Sys2Proof.Machine
end

section
/-! PROOFS. The dealer, and the steps and ends of launches (R43 to R46, R51 to R57, R154, R205, R332, R420). -/

namespace Sys2Proof.Machine

/-! ### Chunks (R43, R54, R332) -/

/-- The turn of a level passes to the job after the one that took a chunk (R332). -/
theorem passTurn_turns (s : State) (d : Nat) (j : Job) (i l : Nat) : mapGet 0 ((passTurn s d j).die i).turns l =
    if i = d ∧ l = j.prio ∧ 1 ≤ j.prio ∧ j.prio ≤ 7 then j.seq + 1 else mapGet 0 (s.die i).turns l := by
  unfold passTurn
  by_cases hp : 1 ≤ j.prio ∧ j.prio ≤ 7
  · rw [if_pos hp, State.updDie, State.die_setDie]
    by_cases hi : i = d
    · simp [hi, hp, mapGet_mapSet]
    · simp [hi]
  · rw [if_neg hp, if_neg (by tauto)]

theorem passTurn_only (s : State) (d : Nat) (j : Job) : passTurn s d j = { s with dies := (passTurn s d j).dies } := by
  unfold passTurn
  split <;> rfl

theorem holders_passTurn (s : State) (d : Nat) (j : Job) (job : Nat) : holders (passTurn s d j) job = holders s job := by
  rw [passTurn_only]
  rfl

/-- The records that a holder's chunk has at most (R43). -/
def chunkWant (s : State) (job : Nat) : Nat :=
  max (s.job job).cmin (((s.job job).left + (s.job job).k * max 1 (holders s job) - 1) / ((s.job job).k * max 1 (holders s job)))

/-- Records that came back go first (R54). -/
theorem takeChunk_returned {s : State} {d id f n : Nat} {t : List (Nat × Nat)} (hd : (s.job id).dealing = true) (hr : (s.job id).returned = (f, n) :: t) :
    takeChunk s d id = some (f, min n (min (s.job id).left (chunkWant s id)), (passTurn s d (s.job id)).setJob id { s.job id with
      returned := if min n (min (s.job id).left (chunkWant s id)) < n then
        (f + min n (min (s.job id).left (chunkWant s id)), n - min n (min (s.job id).left (chunkWant s id))) :: t else t }) := by
  unfold takeChunk
  dsimp only
  rw [if_neg (by rw [hd]; decide), holders_passTurn, hr]
  rfl

/-- The record counter gives the others (R43). -/
theorem takeChunk_counter {s : State} {d id : Nat} (hd : (s.job id).dealing = true) (hr : (s.job id).returned = []) :
    takeChunk s d id = some ((s.job id).next, min (s.job id).rem (chunkWant s id), (passTurn s d (s.job id)).setJob id { s.job id with
      next := (s.job id).next + min (s.job id).rem (chunkWant s id), rem := (s.job id).rem - min (s.job id).rem (chunkWant s id) }) := by
  unfold takeChunk
  dsimp only
  rw [if_neg (by rw [hd]; decide), holders_passTurn, hr]
  rfl

/-- R43, R44, R54, R332: chunks. -/
theorem chunks : Claims.Chunks := by
  intro s d id j want turns
  have hturns : ∀ v : Job, turns ((passTurn s d j).setJob id v) := fun v i l => passTurn_turns s d j i l
  have hctxs : ∀ v : Job, ((passTurn s d j).setJob id v).ctxs = s.ctxs := fun v => by
    rw [passTurn_only]
    rfl
  refine ⟨fun h => ?_, fun h hr => ⟨_, takeChunk_counter h hr, hturns _, hctxs _, State.job_setJob_same ..⟩,
    fun h f n t hr => ⟨_, takeChunk_returned h hr, hturns _, hctxs _, State.job_setJob_same ..⟩⟩
  unfold takeChunk
  exact if_pos (by rw [show (s.job id).dealing = false from h]; rfl)

/-- What a chunk leaves of the launch's entry. -/
theorem takeChunk_only {s w : State} {d id f n : Nat} (h : takeChunk s d id = some (f, n, w)) :
    w.ctxs = s.ctxs ∧ w.time = s.time ∧ (w.job id).entry = (s.job id).entry := by
  by_cases hd : (s.job id).dealing = true
  · have hp := passTurn_only s d (s.job id)
    cases hr : (s.job id).returned with
    | nil =>
      rw [takeChunk_counter hd hr] at h
      cases h
      rw [State.job_setJob_same, hp]
      exact ⟨rfl, rfl, rfl⟩
    | cons r t =>
      rw [takeChunk_returned hd hr] at h
      cases h
      rw [State.job_setJob_same, hp]
      exact ⟨rfl, rfl, rfl⟩
  · rw [takeChunk, if_pos (by simpa using hd)] at h
    cases h

/-! ### The start of a unit (R43 to R45) -/

/-- The dealer has nothing for the lane. -/
theorem unitDispatch_none {core lane : Nat} {s : State} (h : chooseJob s core lane = none) : exec (.unitDispatch core lane) s = .next s := by
  show execUnitDispatch core lane s = _
  rw [execUnitDispatch, runEvent_modify, h]

/-- A unit that was pre-empted resumes first. -/
theorem unitDispatch_resumes {core lane id : Nat} {v : SavedUnit} {s : State} (h : chooseJob s core lane = some id) (hv : resumable s id core lane = some v) :
    exec (.unitDispatch core lane) s = .next (resumeUnit s v core) := by
  show execUnitDispatch core lane s = _
  rw [execUnitDispatch, runEvent_modify, h]
  dsimp only
  rw [hv]

theorem unitDispatch_deals {core lane id : Nat} {s : State} (h : chooseJob s core lane = some id) (hv : resumable s id core lane = none) :
    exec (.unitDispatch core lane) s = .next (dealUnit s core lane id) := by
  show execUnitDispatch core lane s = _
  rw [execUnitDispatch, runEvent_modify, h]
  dsimp only
  rw [hv]

/-- The unit that the dealer gives a lane, before its first task (log 125). -/
def newUnit (s : State) (core id : Nat) : UnitSt :=
  { job := id, triple := (s.job id).triple, lcore := (((s.job id).cores.find? fun p => p.2 == core).map (·.1)).getD 0 }

/-- The state in which the first task of a dealt unit starts. -/
def readiedUnit (w : State) (core lane id : Nat) (triple : Bool) : State :=
  let t := freshUnit w core lane triple
  ({ t with saved := t.saved.map fun (x : SavedUnit) => if x.core = core then { x with displaced := true } else x } : State).updJob id fun j =>
    { j with started := true }

theorem readiedUnit_only (w : State) (core lane id : Nat) (triple : Bool) : (readiedUnit w core lane id triple).ctxs = w.ctxs ∧
    (readiedUnit w core lane id triple).time = w.time ∧ ((readiedUnit w core lane id triple).job id).entry = (w.job id).entry := by
  refine ⟨rfl, rfl, ?_⟩
  unfold readiedUnit State.updJob
  dsimp only
  rw [State.job_setJob_same]
  rfl

theorem dealUnit_nothing {core lane id : Nat} {s : State} (h : takeChunk (setUnit s core lane (some (newUnit s core id))) (core / 128) id = none ∨
    ∃ f w, takeChunk (setUnit s core lane (some (newUnit s core id))) (core / 128) id = some (f, 0, w)) : dealUnit s core lane id = s := by
  unfold newUnit at h
  unfold dealUnit
  dsimp only
  rcases h with h | ⟨f, w, h⟩
  · rw [h]
  · rw [h]
    exact if_pos rfl

/-- What a context holds when its unit starts the first task of a launch (R45): record idx, in buffer 0. -/
def FirstTask (s t : State) (lane c idx : Nat) (u : UnitSt) : Prop :=
  (t.ctx c).run = .live ∧ (t.ctx c).pc = (s.job u.job).entry + BitVec.ofNat 57 (if u.triple then 16 * (c % 8) else 0) ∧
    (t.ctx c).x.get 1 = w64 (bufOff lane 0) ∧ (t.ctx c).x.get 2 = w64 idx ∧ (t.ctx c).x.get 3 = w64 u.job ∧ (t.ctx c).tlevel = 0 ∧
    (t.ctx c).empty = 0 ∧ (t.ctx c).wdog = 0 ∧ (t.ctx c).job = u.job ∧ (t.ctx c).region = (s.ctx c).region + 1

theorem startTask_first {s : State} {core lane idx c : Nat} {u : UnitSt} (hl : lane < 3) (ht : u.tasks = 0) (hc : c ∈ unitCtxs core lane u) :
    FirstTask s (startTask s core lane u idx false) lane c idx u := by
  obtain ⟨w, -, -, hw⟩ := (startTask_spec s core lane u idx false hl).2 c hc
  unfold FirstTask
  rw [hw, ht]
  exact ⟨rfl, rfl, rfl, rfl, rfl, rfl, rfl, rfl, rfl, rfl⟩

/-- A unit with the chunk of n records from f, the first of them its task. -/
def dealtUnit (u : UnitSt) (f n : Nat) : UnitSt := { u with next := f + 1, left := n - 1 }

theorem dealUnit_starts {core lane id f n : Nat} {s w : State} (hl : lane < 3)
    (h : takeChunk (setUnit s core lane (some (newUnit s core id))) (core / 128) id = some (f, n, w)) (hn : n ≠ 0) :
    Claims.unit (dealUnit s core lane id) core lane =
      some { newUnit s core id with next := f + 1, left := n - 1, tasks := 1, cur := f, began := s.time, stale := true } ∧
    ∀ c ∈ unitCtxs core lane (newUnit s core id), FirstTask s (dealUnit s core lane id) lane c f (newUnit s core id) := by
  obtain ⟨hw1, hw2, hw3⟩ := takeChunk_only h
  obtain ⟨hz1, hz2, hz3⟩ := readiedUnit_only w core lane id (s.job id).triple
  have hdeal : dealUnit s core lane id = startTask (readiedUnit w core lane id (s.job id).triple) core lane (dealtUnit (newUnit s core id) f n) f false := by
    unfold newUnit at h
    unfold dealUnit
    dsimp only
    rw [h]
    exact if_neg hn
  generalize readiedUnit w core lane id (s.job id).triple = z at *
  have hctx : ∀ c, z.ctx c = s.ctx c := fun c => congrArg (fun m => mapGet ({} : Ctx) m c) (hz1.trans hw1)
  have htime : z.time = s.time := hz2.trans hw2
  have hentry : (z.job id).entry = (s.job id).entry := hz3.trans hw3
  rw [hdeal]
  constructor
  · refine (startTask_spec z core lane (dealtUnit (newUnit s core id) f n) f false hl).1.trans ?_
    rw [htime]
    rfl
  · intro c hc
    have hfirst := startTask_first (s := z) (idx := f) (u := dealtUnit (newUnit s core id) f n) hl rfl hc
    unfold FirstTask at hfirst ⊢
    rw [hctx, show (dealtUnit (newUnit s core id) f n).job = id from rfl, hentry] at hfirst
    exact hfirst

/-- The deposit of a chunk's next record (R44). -/
theorem recordDeposit_eq {core lane : Nat} {u : UnitSt} {s : State} (hu : Claims.unit s core lane = some u) : exec (.recordDeposit core lane) s =
    .next (if u.left ≠ 0 ∧ u.tasks ≠ 0 ∧ u.deposited = none ∧ u.closing = false then
      setUnit (depositRecord s core lane u.job u.next (u.tasks % 2)) core lane (some { u with deposited := some u.next }) else s) := by
  show execRecordDeposit core lane s = _
  unfold Claims.unit at hu
  rw [execRecordDeposit, runEvent_modify, hu]
  simp

/-- R43 to R46, R332: units start, and records are deposited. -/
theorem unitStarts : Claims.UnitStarts := by
  refine ⟨fun core lane s => unitDispatch_none, fun core lane id v s => unitDispatch_resumes, fun core lane id s hl hc hr => ?_, chunks, fun core lane s h => ?_,
    fun core lane u s hl hu => ⟨fun hd => ?_, fun hd => by rw [recordDeposit_eq hu, if_neg hd]⟩⟩
  · intro j u o
    have hx := unitDispatch_deals hc hr
    refine ⟨fun ho => by rw [hx, dealUnit_nothing ho], fun f n w ho hn => ?_⟩
    obtain ⟨hunit, hctxs⟩ := dealUnit_starts hl ho hn
    exact ⟨dealUnit s core lane id, hx, hunit, hctxs⟩
  · show execRecordDeposit core lane s = _
    unfold Claims.unit at h
    rw [execRecordDeposit, runEvent_modify, h]
  · have hx := recordDeposit_eq hu
    rw [if_pos hd] at hx
    have hctxs : (depositRecord s core lane u.job u.next (u.tasks % 2)).ctxs = s.ctxs := by rw [depositRecord_eq]
    exact ⟨_, hx, rfl, hctxs, setUnit_unit _ _ _ _ hl⟩

/-! ### Steps (R51 to R54, R154) -/

/-- A context that stands at `step` goes on. -/
def steppedCtx (x : Ctx) : Ctx := if x.run = .atStep then { x with run := .live, stepGo := true } else x

/-- A context that has gone on from its step stands at none. -/
theorem steppedCtx_steppedCtx (x : Ctx) : steppedCtx (steppedCtx x) = steppedCtx x := by
  unfold steppedCtx
  by_cases h : x.run = .atStep
  · rw [if_pos h]
    exact if_neg nofun
  · rw [if_neg h, if_neg h]

/-- The contexts of a list go on from their step. -/
def stepAll (s : State) (l : List Nat) : State :=
  l.foldl (fun s c => if (s.ctx c).run = .atStep then s.updCtx c fun x => { x with run := .live, stepGo := true } else s) s

theorem stepAll_spec (l : List Nat) (s : State) : stepAll s l = { s with ctxs := (stepAll s l).ctxs } ∧
    ∀ c, (stepAll s l).ctx c = if c ∈ l then steppedCtx (s.ctx c) else s.ctx c := by
  induction l generalizing s with
  | nil => exact ⟨rfl, fun _ => rfl⟩
  | cons i l ih =>
    obtain ⟨w, hw⟩ : ∃ w, w = if (s.ctx i).run = .atStep then s.updCtx i fun x => { x with run := .live, stepGo := true } else s := ⟨_, rfl⟩
    have hone : ∀ c, w.ctx c = if c = i then steppedCtx (s.ctx i) else s.ctx c := fun c => by
      rw [hw, steppedCtx]
      by_cases hr : (s.ctx i).run = .atStep
      · rw [if_pos hr, if_pos hr]
        exact State.ctx_setCtx ..
      · rw [if_neg hr, if_neg hr]
        split
        · next h => rw [h]
        · rfl
    obtain ⟨a, ha⟩ : ∃ a, w = { s with ctxs := a } := ⟨w.ctxs, by rw [hw]; split <;> rfl⟩
    obtain ⟨h1, h2⟩ := ih w
    have hl : stepAll s (i :: l) = stepAll w l := by rw [hw]; rfl
    rw [hl]
    refine ⟨?_, fun c => ?_⟩
    · obtain ⟨b, hb⟩ : ∃ b, stepAll w l = { w with ctxs := b } := ⟨_, h1⟩
      rw [hb, ha]
    · rw [h2, hone]
      by_cases hi : c = i
      · simp [hi, steppedCtx_steppedCtx]
      · simp [hi]

/-- A saved unit whose contexts stand at `step` goes on with its launch. -/
def steppedSaved (job : Nat) (v : SavedUnit) : SavedUnit :=
  if v.unit.job = job then { v with ctxs := v.ctxs.map fun p => (p.1, steppedCtx p.2) } else v

/-- The rendezvous of a launch that keeps its dies (R51, R52). -/
theorem stepRelease_keeps {job : Nat} {s : State} (h : stepReady s job = true) (hlost : ∀ d ∈ (s.job job).dies, (s.die d).lost = false)
    (hmax : bits ((s.job job).w 0) 28 26 ≤ (s.job job).dies.length) (hmin : (s.job job).dies.length ≤ bits ((s.job job).w 0) 25 23) :
    exec (.stepRelease job) s = .next { stepAll s (ctxsOf s job) with saved := s.saved.map (steppedSaved job) } := by
  obtain ⟨a, ha⟩ : ∃ a, stepAll s (ctxsOf s job) = { s with ctxs := a } := ⟨_, (stepAll_spec _ _).1⟩
  have hx : exec (.stepRelease job) s = execStepRelease job s := rfl
  rw [execStepRelease, runEvent_modify, if_neg (by rw [h]; decide)] at hx
  rw [hx]
  refine congrArg _ ?_
  extract_lets j mind maxd s1 s2 s3 j3 worst
  have h1 : s1 = { s with ctxs := a } := ha
  have h2 : s2 = { s with ctxs := a, saved := s.saved.map (steppedSaved job) } := by
    show { s1 with saved := s1.saved.map (steppedSaved job) } = _
    rw [h1]
  have h3 : s3 = s2 := by
    have hf : j.dies.filter (fun d => (s2.die d).lost) = [] := by
      rw [List.filter_eq_nil_iff]
      intro d hd
      rw [h2]
      exact Bool.eq_false_iff.mp (hlost d hd)
    show (j.dies.filter fun d => (s2.die d).lost).foldl (fun s d => withdrawDie s job d) s2 = s2
    rw [hf]
    rfl
  have hj : j3 = j := by
    show s3.job job = s.job job
    rw [h3, h2]
    rfl
  rw [hj, if_neg fun h => absurd h.1 (Nat.not_lt.mpr hmin)]
  have hs : s3 = { stepAll s (ctxsOf s job) with saved := s.saved.map (steppedSaved job) } := by
    rw [h3, h2, show stepAll s (ctxsOf s job) = { s with ctxs := a } from ha]
  rw [← hs]
  split
  · exact if_neg (Nat.not_lt.mpr hmax)
  · rfl

/-! ### The end of a launch (R55 to R57, R420, R485) -/

/-- The transactions that a launch drops change memory, dies and free values alone. -/
theorem dropTxs_only (s : State) (id : Nat) : ∃ m d f, dropTxs s id = { s with mem := m, dies := d, free := f } := by
  unfold dropTxs
  generalize (s.dies.flatMap fun (d, x) => x.seqs.map fun (n, _) => (d, n)) = l
  induction l using List.reverseRecOn with
  | nil => exact ⟨s.mem, s.dies, s.free, rfl⟩
  | append_singleton l p ih =>
    obtain ⟨m, d, f, e⟩ := ih
    rw [List.foldl_append, e, List.foldl_cons, List.foldl_nil]
    dsimp only
    split
    · split
      · obtain ⟨m', f', e'⟩ := looseSlots_only { s with mem := m, dies := d, free := f } (State.seq { s with mem := m, dies := d, free := f } p.1 p.2)
        rw [e']
        exact ⟨_, _, _, rfl⟩
      · exact ⟨m, d, f, rfl⟩
    · exact ⟨m, d, f, rfl⟩

/-- A launch that is not done goes on. -/
theorem launchCompletion_undone {job : Nat} {s : State} (h : job = 0 ∨ launchDone s job (s.job job) = false) : exec (.launchCompletion job) s = .next s := by
  show execLaunchCompletion job s = _
  rw [execLaunchCompletion, runEvent_modify]
  exact congrArg _ (if_pos (by simpa using h))

/-- The state in which a launch's end field, then its signal, are written (R57). -/
def signalledEnd (s : State) (j : Job) (e : Nat) : State :=
  let u := devStore s j.fn (bits (j.w 8) 56 0 + 0x240) 8 (j.nkill * 2 ^ 32 + e)
  if j.csig = 0 then u else devStore u j.fn j.csig 8 (j.w 11).toNat

theorem signalledEnd_memOnly (s : State) (j : Job) (e : Nat) : MemOnly s (signalledEnd s j e) := by
  unfold signalledEnd
  dsimp only
  split
  · exact devStore_memOnly ..
  · exact (devStore_memOnly ..).trans (devStore_memOnly ..)

/-- A launch that is done ends. -/
theorem launchCompletion_done {job : Nat} {s : State} (h0 : job ≠ 0) (h : launchDone s job (s.job job) = true) :
    exec (.launchCompletion job) s = .next (clearBindings ((signalledEnd (if (s.job job).cancelled = true then dropTxs s job else s) (s.job job)
      (if (s.job job).cancelled = true then 2 else 1)).updJob job fun j => { j with fin := if (s.job job).cancelled = true then 2 else 1 }) job) := by
  show execLaunchCompletion job s = _
  rw [execLaunchCompletion, runEvent_modify]
  exact congrArg _ (if_neg (by simp [h0, h]))

/-- R51 to R57, R154, R205, R420: steps, and the ends of launches. -/
theorem launchSteps : Claims.LaunchSteps := by
  refine ⟨fun job s h => ?_, fun job s h hlost hmax hmin => ?_, fun job s h => launchCompletion_undone h, fun job s h0 h => ?_⟩
  · show execStepRelease job s = _
    rw [execStepRelease, runEvent_modify, if_pos (by rw [h]; rfl)]
  · obtain ⟨h1, h2⟩ := stepAll_spec (ctxsOf s job) s
    refine ⟨_, stepRelease_keeps h hlost hmax hmin, ?_, ?_, fun c => ?_, ?_⟩
    · rw [h1]
    · rw [h1]
    · refine (h2 c).trans ?_
      unfold steppedCtx
      split_ifs <;> tauto
    · rfl
  · intro j e v u
    have hx := launchCompletion_done h0 h
    obtain ⟨m, d, f, hv⟩ : ∃ m d f, v = { s with mem := m, dies := d, free := f } := by
      show ∃ m d f, (if j.cancelled = true then dropTxs s job else s) = _
      split
      · exact dropTxs_only s job
      · exact ⟨_, _, _, rfl⟩
    obtain ⟨n, hn⟩ := signalledEnd_memOnly v j e
    have hz : signalledEnd v j e = { s with mem := n, dies := d, free := f } := by rw [hn, hv]
    have hx : exec (.launchCompletion job) s = .next (clearBindings ((signalledEnd v j e).updJob job fun x => { x with fin := e }) job) := hx
    refine ⟨_, hx, ?_, ?_, rfl⟩
    · show ((signalledEnd v j e).updJob job fun x => { x with fin := e }).job job = _
      rw [State.updJob, State.job_setJob_same, hz]
      rfl
    · show (signalledEnd v j e).ctxs = _
      rw [hz]

/-- Settles O42: units start and records are deposited, then the steps and the ends of launches. -/
theorem unitsAndLaunches : Obligations.UnitsAndLaunches := ⟨unitStarts, launchSteps⟩

end Sys2Proof.Machine
end

section
/-! PROOFS. Pre-emption and resumption (R47, R50, R174, R241, R333, R462 to R464). -/

namespace Sys2Proof.Machine

/-! ### Requests (R47, R156, R333) -/

/-- A unit whose contexts wake from `idle`. -/
theorem wakeUnit_spec (s : State) (core lane : Nat) (u : UnitSt) : ∃ x, wakeUnit s core lane u = { s with ctxs := x } ∧
    ∀ c, (wakeUnit s core lane u).ctx c = if c ∈ unitCtxs core lane u ∧ (s.ctx c).run = .idle then { s.ctx c with run := .live } else s.ctx c := by
  have h := foldRun_spec (fun x => decide (x.run = .idle)) (fun x => { x with run := .live }) (unitCtxs core lane u) s (unitCtxs_nodup ..)
  unfold wakeUnit
  simpa only [decide_eq_true_eq] using h

/-- The unit of a lane, by the lane's key. -/
theorem unitAt_eq (s : State) (key : Nat) : unitAt s key = Claims.unit s (key / 8) (key % 8) := rfl

/-- R47, R156, R333: a request that the scheduler makes. -/
theorem preemptionRequests (victim job : Nat) (s : State) : (mayRequest s victim job = false → exec (.preemptionRequest victim job) s = .next s) ∧
    (mayRequest s victim job = true → victim % 8 < 3 → ∀ u, unitAt s victim = some u → ∃ t, exec (.preemptionRequest victim job) s = .next t ∧ t.mem = s.mem ∧
      unitAt t victim = some { u with req := some job } ∧
      ∀ c, (t.ctx c) = if c ∈ unitCtxs (victim / 8) (victim % 8) u ∧ (s.ctx c).run = .idle then { s.ctx c with run := .live } else s.ctx c) := by
  have hx : exec (.preemptionRequest victim job) s = execPreemptionRequest victim job s := rfl
  rw [execPreemptionRequest, runEvent_modify] at hx
  refine ⟨fun h => by rw [hx, if_pos (by rw [h]; rfl)], fun h hl u hu => ?_⟩
  rw [if_neg (by rw [h]; decide), hu] at hx
  obtain ⟨v, hv⟩ : ∃ v, v = setUnit s (victim / 8) (victim % 8) (some { u with req := some job }) := ⟨_, rfl⟩
  obtain ⟨x, hw, hctx⟩ := wakeUnit_spec v (victim / 8) (victim % 8) u
  have hc : ∀ c, v.ctx c = s.ctx c := fun c => by rw [hv]; rfl
  refine ⟨wakeUnit v (victim / 8) (victim % 8) u, by rw [hx, hv], by rw [hw, hv]; rfl, ?_, fun c => by rw [hctx, hc]⟩
  rw [unitAt_eq, hw, hv]
  exact setUnit_unit _ _ _ _ hl

/-! ### Saves (R47, R174, R241, R463, R464) -/

/-- The answer that a context gets about a save leaves what was saved. -/
theorem saves_updCtx {s t : State} {core lane : Nat} {u : UnitSt} (h : Claims.Saves s t core lane u) (c : Nat) (f : Ctx → Ctx) :
    Claims.Saves s (t.updCtx c f) core lane u := h

/-- A save, with the answer to the `ctxsave` that asked for it, leaves the lane free and keeps the unit (R174). -/
theorem saveNow_saves (s : State) (core lane : Nat) (u : UnitSt) (forced : Bool) (hl : lane < 3) : Claims.Saves s (saveNow s core lane u forced) core lane u := by
  obtain ⟨-, hnext, hunit, t, cmds, ht, hsaved⟩ := saveUnit_spec s core lane u forced u.saver.isSome hl
  have hkeep : ∀ c, t.ctx c = s.ctx c := fun c => by rw [ht]; rfl
  have hspec : Claims.Saves s (saveUnit s core lane u forced u.saver.isSome).1 core lane u := by
    refine ⟨hunit, hnext, _, hsaved, ?_, rfl, rfl, rfl, rfl, ?_⟩
    · show t.nextHandle = _
      rw [ht]
    · show (unitCtxs core lane u).map (fun c => (c % 8, savedCtx (t.ctx c))) = _
      simp only [hkeep]
  unfold saveNow
  generalize saveUnit s core lane u forced u.saver.isSome = r at hspec
  cases u.saver with
  | none => exact hspec
  | some w => exact saves_updCtx hspec w _

/-- Nothing of a unit's contexts waits to reach a register, and none has a fault to take. -/
def Settled (s : State) (cs : List Nat) : Prop := ∀ c ∈ cs, banked s c = false ∧ (s.ctx c).before = none

theorem settled_iff (s : State) (cs : List Nat) : (cs.all fun c => (s.ctx c).atPoint && !banked s c && (s.ctx c).before.isNone) = true ↔
    (∀ c ∈ cs, (s.ctx c).atPoint = true) ∧ Settled s cs := by
  simp only [List.all_eq_true, Bool.and_eq_true, Bool.not_eq_true', Option.isNone_iff_eq_none, Settled]
  exact ⟨fun h => ⟨fun c hc => (h c hc).1.1, fun c hc => ⟨(h c hc).1.2, (h c hc).2⟩⟩, fun h c hc => ⟨⟨h.1 c hc, (h.2 c hc).1⟩, (h.2 c hc).2⟩⟩

/-- A save in its time: what the event does of a unit that stands at its pre-emption points (R47, R241). -/
theorem preemptionSave_eq {ctx lane : Nat} {u : UnitSt} {s : State} (h : unitOf s ctx = some (lane, u)) :
    let cs := unitCtxs (coreOf ctx) lane u
    let stand := u.forced = false ∧ ∀ c ∈ cs, (s.ctx c).atPoint = true
    let quiet := Settled s cs ∧ Machine.drained s (coreOf ctx) cs = true
    (stand → stopsFor s (coreOf ctx) lane u = false → exec (.preemptionSave ctx) s = .next (goOn s (coreOf ctx) lane u)) ∧
    (stand → stopsFor s (coreOf ctx) lane u = true → quiet → exec (.preemptionSave ctx) s = .next (saveNow s (coreOf ctx) lane u false)) ∧
    (¬ stand ∨ stopsFor s (coreOf ctx) lane u = true ∧ ¬ quiet → exec (.preemptionSave ctx) s = .next s) := by
  intro cs stand quiet
  have hx : exec (.preemptionSave ctx) s = execPreemptionSave ctx s := rfl
  rw [execPreemptionSave, runEvent_modify, h] at hx
  dsimp only at hx
  have hgo : (!stopsFor s (coreOf ctx) lane u && (cs.all fun c => (s.ctx c).atPoint) && !u.forced) = true ↔ stopsFor s (coreOf ctx) lane u = false ∧ stand := by
    simp only [Bool.and_eq_true, Bool.not_eq_true', List.all_eq_true, stand]
    tauto
  have hsave : (!u.forced && (cs.all fun c => (s.ctx c).atPoint && !banked s c && (s.ctx c).before.isNone) && drained s (coreOf ctx) cs) = true ↔
      stand ∧ quiet := by
    rw [Bool.and_eq_true, Bool.and_eq_true, settled_iff, Bool.not_eq_true']
    simp only [stand, quiet]
    tauto
  refine ⟨fun hs hn => ?_, fun hs hn hq => ?_, fun hno => ?_⟩
  · rw [hx]
    exact congrArg _ (if_pos (hgo.mpr ⟨hn, hs⟩))
  · rw [hx]
    refine congrArg _ ((if_neg (hgo.not.mpr fun e => ?_)).trans (if_pos (hsave.mpr ⟨hs, hq⟩)))
    rw [e.1] at hn
    exact Bool.false_ne_true hn
  · rw [hx]
    refine congrArg _ ((if_neg (hgo.not.mpr fun e => ?_)).trans (if_neg (hsave.not.mpr fun e => ?_)))
    · rcases hno with hno | hno
      · exact hno e.2
      · exact Bool.false_ne_true (e.1.symm.trans hno.1)
    · exact hno.elim (fun hno => hno e.1) fun hno => hno.2 e.2

/-- The commands of a core are those of its five queues. -/
theorem mem_commands_iff (k : Core) (c : Cmd) : c ∈ k.qs.toList.flatMap id ↔ ∃ q < 5, c ∈ k.queue q := by
  unfold Core.queue
  simp only [List.mem_flatMap, id]
  constructor
  · rintro ⟨l, hl, hc⟩
    obtain ⟨q, hq, rfl⟩ := List.mem_iff_getElem.mp hl
    refine ⟨q, by simpa using hq, ?_⟩
    rwa [List.getD_eq_getElem _ _ hq]
  · rintro ⟨q, hq, hc⟩
    have hq : q < k.qs.toList.length := by simpa using hq
    rw [List.getD_eq_getElem _ _ hq] at hc
    exact ⟨_, List.getElem_mem hq, hc⟩

/-- A context whose request the launch unit has not answered. -/
def Asks (x : Ctx) : Prop := ∃ w ∈ x.waits.toList, ∃ p, w = .launch p

theorem asks_iff (x : Ctx) (f : Wait → Bool) (hf : ∀ p, f (.launch p) = true) (hn : ∀ w, (∀ p, w ≠ .launch p) → f w = false) :
    x.waits.toList.any f = true ↔ Asks x := by
  rw [List.any_eq_true]
  refine exists_congr fun w => and_congr_right fun _ => ⟨fun h => ?_, fun ⟨p, hp⟩ => hp ▸ hf p⟩
  by_contra hc
  rw [hn w fun p hp => hc ⟨p, hp⟩] at h
  exact Bool.false_ne_true h

/-- Nothing of a forcibly stopped unit runs: each context stands, nothing is on its way to a register, the launch unit has answered, and no engine
runs a command of it (R463). -/
def Still (s : State) (core : Nat) (cs : List Nat) : Prop :=
  (∀ c ∈ cs, (s.ctx c).atPoint = true ∧ banked s c = false ∧ ¬ Asks (s.ctx c)) ∧
    ∀ q < 5, ∀ c ∈ (s.core core).queue q, c.ctx ∈ cs → stillRuns c = false

/-- The save of a unit that is forcibly pre-empted (R463, R464). -/
theorem forcedPreemptionSave_eq {ctx lane : Nat} {u : UnitSt} {s : State} (h : unitOf s ctx = some (lane, u)) :
    (u.forced = true → Still s (coreOf ctx) (unitCtxs (coreOf ctx) lane u) →
      exec (.forcedPreemptionSave ctx) s = .next (saveNow s (coreOf ctx) lane u true)) ∧
    (u.forced = false ∨ ¬ Still s (coreOf ctx) (unitCtxs (coreOf ctx) lane u) → exec (.forcedPreemptionSave ctx) s = .next s) := by
  have hx : exec (.forcedPreemptionSave ctx) s = execForcedPreemptionSave ctx s := rfl
  rw [execForcedPreemptionSave, runEvent_modify, h] at hx
  extract_lets core asks at hx
  dsimp only at hx
  have hasks : ∀ c, asks c = true ↔ Asks (s.ctx c) := fun c => asks_iff _ _ (fun _ => rfl) fun w hw => by
    cases w with
    | launch p => exact absurd rfl (hw p)
    | _ => rfl
  have hno : ∀ c, asks c = false ↔ ¬ Asks (s.ctx c) := fun c => by rw [← hasks, Bool.not_eq_true]
  have htest : (u.forced && ((unitCtxs core lane u).all fun c => (s.ctx c).atPoint && !asks c && !banked s c) &&
      !((s.core core).qs.toList.flatMap id).any fun c => (unitCtxs core lane u).contains c.ctx && stillRuns c) = true ↔
      u.forced = true ∧ Still s core (unitCtxs core lane u) := by
    simp only [Bool.and_eq_true, List.all_eq_true, Bool.not_eq_true', hno, List.any_eq_false, mem_commands_iff, List.contains_eq_mem, decide_eq_true_eq,
      Still, and_assoc, not_and, Bool.not_eq_true]
    refine and_congr_right fun _ => and_congr ⟨fun h c hc => ?_, fun h c hc => ?_⟩ ⟨fun h q hq c hc => h c ⟨q, hq, hc⟩, fun h c ⟨q, hq, hc⟩ => h q hq c hc⟩
    · obtain ⟨h1, h2, h3⟩ := h c hc
      exact ⟨h1, h3, h2⟩
    · obtain ⟨h1, h2, h3⟩ := h c hc
      exact ⟨h1, h3, h2⟩
  refine ⟨fun hf hs => ?_, fun hn => ?_⟩
  · rw [hx, if_pos (htest.mpr ⟨hf, hs⟩)]
  · rw [hx, if_neg (htest.not.mpr ?_)]
    rintro ⟨hf, hs⟩
    rcases hn with hn | hn
    · exact Bool.false_ne_true (hn.symm.trans hf)
    · exact hn hs

/-- R47, R174, R241, R463, R464: the saves of a unit. -/
theorem unitSaves (ctx lane : Nat) (u : UnitSt) (s : State) (h : unitOf s ctx = some (lane, u)) :
    let cs := unitCtxs (coreOf ctx) lane u
    let stand := u.forced = false ∧ ∀ c ∈ cs, (s.ctx c).atPoint = true
    let quiet := Settled s cs ∧ Machine.drained s (coreOf ctx) cs = true
    (stand → stopsFor s (coreOf ctx) lane u = false → exec (.preemptionSave ctx) s = .next (goOn s (coreOf ctx) lane u)) ∧
    (stand → stopsFor s (coreOf ctx) lane u = true → quiet → ∃ t, exec (.preemptionSave ctx) s = .next t ∧ Claims.Saves s t (coreOf ctx) lane u) ∧
    (¬ stand ∨ stopsFor s (coreOf ctx) lane u = true ∧ ¬ quiet → exec (.preemptionSave ctx) s = .next s) ∧
    (u.forced = true → Still s (coreOf ctx) cs → ∃ t, exec (.forcedPreemptionSave ctx) s = .next t ∧ Claims.Saves s t (coreOf ctx) lane u) ∧
    (u.forced = false ∨ ¬ Still s (coreOf ctx) cs → exec (.forcedPreemptionSave ctx) s = .next s) := by
  obtain ⟨h1, h2, h3⟩ := preemptionSave_eq h
  obtain ⟨h4, h5⟩ := forcedPreemptionSave_eq h
  have hl := unitOf_lane h
  exact ⟨h1, fun hs hn hq => ⟨_, h2 hs hn hq, saveNow_saves _ _ _ _ _ hl⟩, h3, fun hf hs => ⟨_, h4 hf hs, saveNow_saves _ _ _ _ _ hl⟩, h5⟩

/-! ### Resumption (R48, R50, R492) -/

/-- R50, R492: a saved unit resumes on a core of its die with its lane free, or at the target of its migration. -/
theorem unitResumptions (h core lane : Nat) (s : State) :
    ((s.saved.find? fun v => v.handle == h) = none → exec (.unitResumption h core lane) s = .next s) ∧
    ∀ v, (s.saved.find? fun v => v.handle == h) = some v →
      let free := v.suspended = false ∧ v.core / 128 = core / 128 ∧ moveTarget s v = none ∧ (s.job v.unit.job).covers core = true ∧
        laneFree s core lane v.unit.triple = true ∧ chooseJob s core lane = some v.unit.job
      (v.lane = lane ∧ (moveTarget s v = some core ∨ free) → exec (.unitResumption h core lane) s = .next (resumeUnit s v core)) ∧
      (¬ (v.lane = lane ∧ (moveTarget s v = some core ∨ free)) → exec (.unitResumption h core lane) s = .next s) := by
  have hx : exec (.unitResumption h core lane) s = execUnitResumption h core lane s := rfl
  rw [execUnitResumption, runEvent_modify] at hx
  refine ⟨fun hn => by rw [hx, hn], fun v hv => ?_⟩
  intro free
  rw [hv] at hx
  dsimp only at hx
  have hmove : (v.lane == lane && moveTarget s v == some core) = true ↔ v.lane = lane ∧ moveTarget s v = some core := by simp
  have hfree : (!v.suspended && v.lane == lane && v.core / 128 == core / 128 && (moveTarget s v).isNone && (s.job v.unit.job).covers core &&
      laneFree s core lane v.unit.triple && chooseJob s core lane == some v.unit.job) = true ↔ v.lane = lane ∧ free := by
    simp only [Bool.and_eq_true, Bool.not_eq_true', beq_iff_eq, Option.isNone_iff_eq_none, free]
    tauto
  refine ⟨fun hr => ?_, fun hn => ?_⟩
  · rw [hx]
    by_cases hm : v.lane = lane ∧ moveTarget s v = some core
    · rw [if_pos (hmove.mpr hm)]
    · have hf : v.lane = lane ∧ free := ⟨hr.1, hr.2.resolve_left fun e => hm ⟨hr.1, e⟩⟩
      rw [if_neg (hmove.not.mpr hm), if_pos (hfree.mpr hf)]
  · rw [hx, if_neg (hmove.not.mpr fun e => hn ⟨e.1, .inl e.2⟩), if_neg (hfree.not.mpr fun e => hn ⟨e.1, .inr e.2⟩)]

/-- R47, R50, R241, R333, R462 to R464: pre-emption and resumption. -/
theorem preemption : Claims.Preemption := by
  refine ⟨preemptionRequests, fun ctx s h => ⟨?_, ?_⟩, unitSaves, unitResumptions⟩
  · show execPreemptionSave ctx s = _
    rw [execPreemptionSave, runEvent_modify, h]
  · show execForcedPreemptionSave ctx s = _
    rw [execForcedPreemptionSave, runEvent_modify, h]

end Sys2Proof.Machine
end

section
/-! PROOFS. Limits on running time, asynchronous faults, wake times and cancelled contexts (R32, R49, R156, R166, R408, R420, R461, R462, R473). -/

namespace Sys2Proof.Machine

/-! ### A context leaves the point at which it stands (R407, R408) -/

/-- A context that counts cycles stands at none of the ends. -/
theorem resident_iff (x : Ctx) : x.resident = true ↔ x.run = .live ∨ x.run = .atStep ∨ x.run = .ended ∨ x.run = .stopped ∨ x.run = .idle := by
  unfold Ctx.resident
  cases x.run <;> simp

/-- A context that leaves its point runs, where it counts cycles; the return may bring it back. -/
theorem leavePoint_ctx (s : State) (c : Nat) (h : (s.ctx c).resident = true) : ∃ b, (leavePoint s c).ctx c = { s.ctx c with run := .live, back := b } := by
  unfold leavePoint
  dsimp only
  split
  · exact ⟨_, State.ctx_setCtx_same ..⟩
  · exact ⟨_, State.ctx_setCtx_same ..⟩
  · exact ⟨_, State.ctx_setCtx_same ..⟩
  · exact ⟨_, State.ctx_setCtx_same ..⟩
  · next h1 h2 h3 h4 =>
    have hlive : (s.ctx c).run = .live := ((resident_iff _).mp h).resolve_right (by tauto)
    exact ⟨(s.ctx c).back, by rw [← hlive]⟩

/-- Leaving a point changes its context and its core's unit alone. -/
theorem leavePoint_only (s : State) (c : Nat) : ∃ k x, leavePoint s c = { s with cores := k, ctxs := x } ∧
    ∀ j, j ≠ c → (leavePoint s c).ctx j = s.ctx j := by
  unfold leavePoint
  dsimp only
  split
  · exact ⟨_, _, rfl, fun j hj => State.ctx_setCtx_ne _ _ _ _ hj⟩
  · split
    · exact ⟨_, _, rfl, fun j hj => State.ctx_setCtx_ne _ _ _ _ hj⟩
    · exact ⟨_, _, rfl, fun j hj => State.ctx_setCtx_ne _ _ _ _ hj⟩
  · exact ⟨_, _, rfl, fun j hj => State.ctx_setCtx_ne _ _ _ _ hj⟩
  · exact ⟨_, _, rfl, fun j hj => State.ctx_setCtx_ne _ _ _ _ hj⟩
  · exact ⟨_, _, rfl, fun _ _ => rfl⟩

/-- A context that leaves its point to take a fault before its next bundle (R407). -/
theorem faultBefore_faults (s : State) (ctx : Nat) (cause : BitVec 8) (v : W64) (h : (s.ctx ctx).resident = true) :
    Claims.FaultsBefore s (faultBefore (s.updCtx ctx fun x => { x with expired := x.expired + 1 }) ctx cause v) ctx cause v := by
  obtain ⟨w, hw⟩ : ∃ w, w = s.updCtx ctx fun x => { x with expired := x.expired + 1 } := ⟨_, rfl⟩
  have hself : w.ctx ctx = { s.ctx ctx with expired := (s.ctx ctx).expired + 1 } := by rw [hw]; exact State.ctx_setCtx_same ..
  have hother : ∀ j, j ≠ ctx → w.ctx j = s.ctx j := fun j hj => by rw [hw]; exact State.ctx_setCtx_ne _ _ _ _ hj
  obtain ⟨b, hb⟩ := leavePoint_ctx w ctx (by rw [hself]; exact h)
  obtain ⟨k, x, ho, hj⟩ := leavePoint_only w ctx
  rw [← hw]
  have hc : (faultBefore w ctx cause v).ctx ctx = { (leavePoint w ctx).ctx ctx with before := some (cause, v) } := State.ctx_setCtx_same ..
  unfold Claims.FaultsBefore
  rw [hc, hb, hself]
  refine ⟨?_, rfl, rfl, rfl, rfl, fun c hne => ?_⟩
  · show (leavePoint w ctx).mem = s.mem
    rw [ho, hw]
    rfl
  · exact (State.ctx_setCtx_ne _ _ _ _ hne).trans ((hj c hne).trans (hother c hne))

/-! ### Limits (R49, R461, R462) -/

theorem updCore_units (s : State) (core : Nat) (f : Core → Core) (h : ∀ k, (f k).units = k.units) (k : Nat) :
    ((s.updCore core f).core k).units = (s.core k).units := by
  unfold State.updCore
  rw [State.core_setCore]
  split
  · next e => rw [h, e]
  · rfl

theorem putCmd_units (s : State) (core : Nat) (c : Cmd) (k : Nat) : ((putCmd s core c).core k).units = (s.core k).units :=
  updCore_units s core (fun k => k.putCmd c) (fun _ => rfl) k

/-- A command that fails leaves every unit in its lane. -/
theorem failCmd_units (s : State) (core : Nat) (c : Cmd) (cause : BitVec 8) (v : W64) (k : Nat) :
    ((failCmd s core c cause v).core k).units = (s.core k).units := by
  unfold failCmd finishCmd
  split
  · rw [wakeCore_core, updCore_units _ _ (fun k => drainQ k c.q) (fun _ => rfl), putCmd_units]
  · rw [wakeCore_core, putCmd_units]
    rfl

/-- A context that forced pre-emption stops where it stands (R462). -/
def forcedCtx (x : Ctx) : Ctx :=
  match x.run with
  | .live | .idle => { x with run := .stopped }
  | _ => x

theorem forcedCtx_stops (x : Ctx) : (forcedCtx x).run ≠ .live ∧ (forcedCtx x).run ≠ .idle := by
  unfold forcedCtx
  split
  · exact ⟨nofun, nofun⟩
  · exact ⟨nofun, nofun⟩
  · next h1 h2 => exact ⟨h1, h2⟩

/-- Forced pre-emption marks the unit, and stops its contexts (R462). -/
theorem forceUnit_spec (s : State) (core lane : Nat) (u : UnitSt) (hl : lane < 3) :
    Claims.unit (forceUnit s core lane u) core lane = some { u with forced := true } ∧
    ∀ c ∈ unitCtxs core lane u, ((forceUnit s core lane u).ctx c).run ≠ .live ∧ ((forceUnit s core lane u).ctx c).run ≠ .idle := by
  obtain ⟨l, w, hw, hforce⟩ : ∃ (l : List (Nat × Cmd)) (w : State),
      w = l.foldl (fun s p => failCmd s p.1 p.2 cEngine 2) (setUnit s core lane (some { u with forced := true })) ∧
      forceUnit s core lane u = (unitCtxs core lane u).foldl (fun s c => s.setCtx c (forcedCtx (s.ctx c))) w := ⟨_, _, rfl, rfl⟩
  obtain ⟨h1, -, h3⟩ := foldCtx_spec (fun s c => forcedCtx (s.ctx c)) (unitCtxs core lane u) w (unitCtxs_nodup ..)
  rw [hforce]
  constructor
  · rw [Claims.unit, h1]
    show (w.core core).units.toList.getD lane none = _
    have hkeep := foldl_keeps (fun s : State => (s.core core).units) (fun s (p : Nat × Cmd) => failCmd s p.1 p.2 cEngine 2)
      (fun s p => failCmd_units s p.1 p.2 _ _ core) l (setUnit s core lane (some { u with forced := true }))
    rw [hw, hkeep]
    exact setUnit_unit _ _ _ _ hl
  · intro c hc
    obtain ⟨a, -, h5⟩ := h3 c hc
    rw [h5]
    exact forcedCtx_stops _

/-- R49, R461, R462: the limit of a launch. -/
theorem watchdogs (ctx lane : Nat) (u : UnitSt) (s : State) (h : unitOf s ctx = some (lane, u)) :
    let lim := (s.job u.job).climit
    ((s.ctx ctx).resident = false ∨ u.forced = true ∨ lim = 0 ∨ (s.ctx ctx).wdog.toNat < lim * ((s.ctx ctx).expired + 1) →
      exec (.watchdogExpiry ctx) s = .next s) ∧
    ((s.ctx ctx).resident = true → u.forced = false → lim ≠ 0 → lim * ((s.ctx ctx).expired + 1) ≤ (s.ctx ctx).wdog.toNat →
      (pendingFor s (coreOf ctx) lane u = false → ∃ t, exec (.watchdogExpiry ctx) s = .next t ∧ Claims.FaultsBefore s t ctx 0x21 (w64 lim)) ∧
      (pendingFor s (coreOf ctx) lane u = true → lane < 3 → ∃ t, exec (.watchdogExpiry ctx) s = .next t ∧
        Claims.unit t (coreOf ctx) lane = some { u with forced := true } ∧
        ∀ c ∈ unitCtxs (coreOf ctx) lane u, (t.ctx c).run ≠ .live ∧ (t.ctx c).run ≠ .idle)) := by
  intro lim
  have hx : exec (.watchdogExpiry ctx) s = execWatchdogExpiry ctx s := rfl
  rw [execWatchdogExpiry, runEvent_modify, h] at hx
  dsimp only at hx
  have hpend : pendingFor (s.updCtx ctx fun x => { x with expired := x.expired + 1 }) (coreOf ctx) lane u = pendingFor s (coreOf ctx) lane u := rfl
  rw [hpend] at hx
  refine ⟨fun hno => ?_, fun hr hf hl hd => ?_⟩
  · rw [hx]
    exact congrArg _ (if_pos (by simpa [or_assoc] using hno))
  · have hn : ¬ (!(s.ctx ctx).resident || u.forced || decide ((s.job u.job).climit = 0) ||
        decide ((s.ctx ctx).wdog.toNat < (s.job u.job).climit * ((s.ctx ctx).expired + 1))) = true := by
      simp only [hr, hf, Bool.not_true, Bool.false_or, Bool.or_eq_true, decide_eq_true_eq, not_or, not_lt]
      exact ⟨hl, hd⟩
    refine ⟨fun hp => ⟨_, hx.trans ?_, faultBefore_faults _ _ _ _ hr⟩, fun hp hlane => ⟨_, hx.trans ?_, forceUnit_spec (s.updCtx ctx fun x =>
      { x with expired := x.expired + 1 }) _ _ _ hlane⟩⟩
    · rw [hp]
      exact congrArg _ (if_neg hn)
    · rw [hp]
      exact congrArg _ (if_neg hn)

/-- R49, R461, R462: the limits on running time. -/
theorem limits : Claims.Limits := by
  refine ⟨fun ctx s h => ?_, watchdogs, fun ctx s => ?_⟩
  · show execWatchdogExpiry ctx s = _
    rw [execWatchdogExpiry, runEvent_modify, h]
  · have hx : exec (.handlerLimitExpiry ctx) s = execHandlerLimitExpiry ctx s := rfl
    rw [execHandlerLimitExpiry, runEvent_modify] at hx
    refine ⟨fun hno => ?_, fun hh hr hd => ⟨_, hx.trans ?_, faultBefore_faults _ _ _ _ hr⟩⟩
    · rw [hx]
      exact congrArg _ (if_pos (by simpa [or_assoc] using hno))
    · exact congrArg _ (if_neg (by simpa [hh, hr] using hd))

/-! ### Asynchronous faults (R408, R409, R416, R473) -/

/-- A byte of a save area changes memory and poison alone. -/
theorem saveByte_only {s u : State} {c off : Nat} {b : Byte} (h : saveByte s c off b = some u) : ∃ m p, u = { s with mem := m, poison := p } := by
  unfold saveByte at h
  dsimp only at h
  split at h
  · split at h
    · cases h
    · cases h
      rw [clearPoison_eq]
      exact ⟨_, _, rfl⟩
  · obtain ⟨ks, -, rfl⟩ := Option.map_eq_some_iff.mp h
    obtain ⟨m, hm⟩ := MemOnly.foldl (fun s k => ⟨_, rfl⟩ : ∀ s k, MemOnly s (writeByte s k b)) ks s
    exact ⟨m, s.poison, hm⟩
  · cases h

/-- A record of a fault changes memory and poison alone (R416). -/
theorem writeRecord_only {s u : State} {c : Nat} {r : List W64} (h : writeRecord s c r = some u) : ∃ m p, u = { s with mem := m, poison := p } := by
  unfold writeRecord at h
  generalize ((r.flatMap fun v => natToBytes 8 v.toNat).zipIdx) = l at h
  induction l using List.reverseRecOn generalizing u with
  | nil =>
    cases h
    exact ⟨_, _, rfl⟩
  | append_singleton l a ih =>
    rw [List.foldl_append, List.foldl_cons, List.foldl_nil] at h
    obtain ⟨w, hw, hu⟩ := Option.bind_eq_some_iff.mp h
    obtain ⟨m, p, rfl⟩ := ih hw
    obtain ⟨m', p', rfl⟩ := saveByte_only hu
    exact ⟨m', p', rfl⟩

/-- What an asynchronous fault finds at level 0 (R409). -/
theorem enterTrap_async {x : Ctx} (cause : BitVec 8) (epc v : W64) (h : x.tlevel = 0) :
    (enterTrap x cause true false epc v).tlevel = 1 ∧ (enterTrap x cause true false epc v).iss = none ∧
    (enterTrap x cause true false epc v).pc = BitVec.ofNat 57 (x.tvec.toNat / 16 % 2 ^ 53 * 16) ∧
    (enterTrap x cause true false epc v).bank1 = ⟨w64 (cause.toNat + 256), epc, v⟩ := by
  have hl : ((arriveAll x).dropAsk.tlevel == 0) = true := by
    rw [dropAsk_eq, beq_iff_eq]
    exact (arriveAll_tlevel x).trans h
  unfold enterTrap
  extract_lets c b y halting z
  rw [if_pos (show (z.tlevel == 0) = true from hl)]
  exact ⟨rfl, rfl, rfl, rfl⟩

/-- A context that may take an asynchronous fault: resident at level 0 between its bundles, its unit not forcibly stopped (R408, R466). -/
def OpenTo (s : State) (ctx : Nat) : Prop :=
  (s.ctx ctx).resident = true ∧ (s.ctx ctx).tlevel = 0 ∧ (s.ctx ctx).between = true ∧ ∀ l v, unitOf s ctx = some (l, v) → v.forced = false

/-- The delivery of an asynchronous fault reaches a context that may take it: a fault of an engine first, else a missed deadline. -/
theorem asyncFaultDelivery_eq (ctx : Nat) (s : State) :
    (¬ OpenTo s ctx → exec (.asyncFaultDelivery ctx) s = .next s) ∧
    (OpenTo s ctx → (∀ c, nextFailed s ctx = some c → exec (.asyncFaultDelivery ctx) s = .next (deliverAsync s ctx)) ∧
      (nextFailed s ctx = none → (∀ v, (s.ctx ctx).miss = some v → exec (.asyncFaultDelivery ctx) s = .next (deliverMiss s ctx v)) ∧
        ((s.ctx ctx).miss = none → exec (.asyncFaultDelivery ctx) s = .next s))) := by
  have hx : exec (.asyncFaultDelivery ctx) s = execAsyncFaultDelivery ctx s := rfl
  rw [execAsyncFaultDelivery, runEvent_modify] at hx
  extract_lets x forced at hx
  have hforced : forced = false ↔ ∀ l v, unitOf s ctx = some (l, v) → v.forced = false := by
    show (match unitOf s ctx with | some (_, u) => u.forced | none => false) = false ↔ _
    cases unitOf s ctx with
    | none => simp
    | some p => exact ⟨fun h l v e => by cases e; exact h, fun h => h p.1 p.2 rfl⟩
  have hopen : (x.resident && x.tlevel == 0 && x.between && !forced) = true ↔ OpenTo s ctx := by
    simp only [Bool.and_eq_true, beq_iff_eq, Bool.not_eq_true', hforced, OpenTo, and_assoc]
    rfl
  refine ⟨fun h => by rw [hx, if_neg (hopen.not.mpr h)], fun h => ?_⟩
  rw [if_pos (hopen.mpr h)] at hx
  refine ⟨fun c hc => by rw [hx, hc]; rfl, fun hn => ?_⟩
  rw [hn] at hx
  refine ⟨fun v hv => ?_, fun hv => ?_⟩
  · rw [hx, show x.miss = some v from hv]
    rfl
  · rw [hx, show x.miss = none from hv]
    rfl

/-- A context whose record is about to be written: its point left, its flags those of the command (R408). -/
theorem failing_ctx (s : State) (ctx : Nat) (v m : W64) (c : Cmd) (h : (s.ctx ctx).resident = true) :
    ∃ b vf mf, (putCmd (orFlags (leavePoint s ctx) ctx v m) (coreOf ctx) c).ctx ctx = { s.ctx ctx with run := .live, back := b, vflags := vf, mflags := mf } := by
  obtain ⟨b, hb⟩ := leavePoint_ctx s ctx h
  have hf : (putCmd (orFlags (leavePoint s ctx) ctx v m) (coreOf ctx) c).ctx ctx = { (leavePoint s ctx).ctx ctx with
    vflags := ((leavePoint s ctx).ctx ctx).vflags ||| (v &&& 0x1FF), mflags := ((leavePoint s ctx).ctx ctx).mflags ||| (m &&& 0xF) } :=
      State.ctx_setCtx_same ..
  exact ⟨b, _, _, by rw [hf, hb]⟩

/-- An asynchronous fault that a context at level 0 takes with a vector: it enters level 1, and memory stays (R409). -/
theorem takeTrap_entersAsync {s u : State} {ctx : Nat} {cause : BitVec 8} {v : W64} {b : Option (Run × BitVec 57)} {vf mf : W64} {ms : Option W64}
    (hu : u.ctx ctx = { s.ctx ctx with run := .live, back := b, vflags := vf, mflags := mf, miss := ms }) (hb : banked u ctx = false)
    (hl : (s.ctx ctx).tlevel = 0) (hlate : ((s.ctx ctx).iss.getD {}).late = []) (hv : (s.ctx ctx).tvec.toNat / 16 % 2 ^ 53 ≠ 0) :
    ∃ t, takeTrap u ctx cause true false (epcWord (s.ctx ctx).pc (resumePoint (s.ctx ctx)).1 (resumePoint (s.ctx ctx)).2) v = t ∧ t.mem = u.mem ∧
      Claims.EntersAsync s t ctx cause v := by
  have hlev : (u.ctx ctx).tlevel = 0 := by rw [hu]; exact hl
  obtain ⟨h1, h2, h3, h4⟩ := enterTrap_async cause (epcWord (s.ctx ctx).pc (resumePoint (s.ctx ctx)).1 (resumePoint (s.ctx ctx)).2) v hlev
  refine ⟨_, takeTrap_async cause false _ v hb (by rw [hu]; exact hlate) (by rw [hlev]; decide) (by rw [hu]; exact hv), rfl, ?_⟩
  unfold Claims.EntersAsync
  rw [State.ctx_setCtx_same]
  rw [show (u.ctx ctx).tvec = (s.ctx ctx).tvec by rw [hu]] at h3
  exact ⟨h1, h2, h3, h4⟩

/-- The state in which the record of a failed command is written (R408, R416). -/
def failingState (s : State) (ctx : Nat) (c : Cmd) : State :=
  putCmd (orFlags (leavePoint s ctx) ctx c.vflags c.mflags) (coreOf ctx) { c with phase := .delivered, vflags := 0, mflags := 0 }

/-- Where a context stands, as its bank of a trap records it (R411). -/
def standsAt (x : Ctx) : W64 := epcWord x.pc (resumePoint x).1 (resumePoint x).2

/-- The number of a failed command, as its launch sees it (R191). -/
def failedNum (s : State) (ctx : Nat) (c : Cmd) : W64 := w64 (presentNum (failingState s ctx c) c.job c.lcore (coreOf ctx) c.q c.num)

/-- A fault of an engine that reaches a context: its record is written first; where it cannot be, the context is killed (R408, R410, R416). -/
theorem deliverAsync_cases {s : State} {ctx : Nat} {c : Cmd} (hr : (s.ctx ctx).resident = true) (hb : banked s ctx = false) (hc : nextFailed s ctx = some c) :
    (writeRecord (failingState s ctx c) ctx (recordOf (failingState s ctx c) c) = none →
      deliverAsync s ctx = killCtx (failingState s ctx c) ctx 3 c.cause (standsAt (s.ctx ctx)) (failedNum s ctx c)) ∧
    ∀ u, writeRecord (failingState s ctx c) ctx (recordOf (failingState s ctx c) c) = some u →
      deliverAsync s ctx = takeTrap u ctx c.cause true false (standsAt (s.ctx ctx)) (failedNum s ctx c) := by
  obtain ⟨b, vf, mf, hx⟩ := failing_ctx s ctx c.vflags c.mflags { c with phase := .delivered, vflags := 0, mflags := 0 } hr
  have hstand : standsAt ((failingState s ctx c).ctx ctx) = standsAt (s.ctx ctx) := by
    rw [failingState, hx]
    rfl
  rw [← hstand]
  unfold failedNum standsAt deliverAsync
  rw [if_neg (by rw [hb]; decide), hc]
  refine ⟨fun hw => ?_, fun u hw => ?_⟩
  · unfold failingState at hw ⊢
    dsimp only
    rw [hw]
  · unfold failingState at hw ⊢
    dsimp only
    rw [hw]

/-- Memory apart, what the record of a fault leaves of the state in which it is written. -/
theorem failingState_banked {s u : State} {ctx : Nat} {c : Cmd} {r : List W64} (h : writeRecord (failingState s ctx c) ctx r = some u)
    (hr : (s.ctx ctx).resident = true) : banked u ctx = banked s ctx ∧
    ∃ b vf mf, u.ctx ctx = { s.ctx ctx with run := .live, back := b, vflags := vf, mflags := mf, miss := (s.ctx ctx).miss } := by
  obtain ⟨m, p, hu⟩ := writeRecord_only h
  obtain ⟨k, x, hl, -⟩ := leavePoint_only s ctx
  obtain ⟨b, vf, mf, hx⟩ := failing_ctx s ctx c.vflags c.mflags { c with phase := .delivered, vflags := 0, mflags := 0 } hr
  have hbank : (failingState s ctx c).bank = s.bank := by
    show (leavePoint s ctx).bank = s.bank
    rw [hl]
  refine ⟨?_, b, vf, mf, ?_⟩
  · unfold banked
    rw [hu]
    exact congrArg (fun l => l.any fun b => b.ctx == ctx && !b.here && !b.ste) hbank
  · rw [hu]
    exact hx

/-- A missed deadline that reaches a context: dropped where there is no vector, else taken (R473). -/
theorem deliverMiss_cases {s : State} {ctx : Nat} {v : W64} (hr : (s.ctx ctx).resident = true) (hl : (s.ctx ctx).tlevel = 0) (hb : banked s ctx = false) :
    ((s.ctx ctx).tvec.toNat / 16 % 2 ^ 53 = 0 → deliverMiss s ctx v = s.updCtx ctx fun x => { x with miss := none }) ∧
    ((s.ctx ctx).tvec.toNat / 16 % 2 ^ 53 ≠ 0 → ((s.ctx ctx).iss.getD {}).late = [] →
      (deliverMiss s ctx v).mem = s.mem ∧ Claims.EntersAsync s (deliverMiss s ctx v) ctx 0x23 v) := by
  obtain ⟨w, hw⟩ : ∃ w, w = s.updCtx ctx fun x => { x with miss := none } := ⟨_, rfl⟩
  have hself : w.ctx ctx = { s.ctx ctx with miss := none } := by rw [hw]; exact State.ctx_setCtx_same ..
  have hv : (w.ctx ctx).tvec = (s.ctx ctx).tvec := by rw [hself]
  obtain ⟨b, hpoint⟩ := leavePoint_ctx w ctx (by rw [hself]; exact hr)
  rw [hself] at hpoint
  obtain ⟨k, x, ho, -⟩ := leavePoint_only w ctx
  have hbank : banked (leavePoint w ctx) ctx = false := by
    rw [ho, hw]
    exact hb
  rw [← hw]
  unfold deliverMiss
  rw [if_neg (by rw [hb]; decide), ← hw]
  dsimp only
  rw [hv]
  refine ⟨fun h0 => if_pos h0, fun h0 hlate => ?_⟩
  rw [if_neg h0]
  have hstand : standsAt ((leavePoint w ctx).ctx ctx) = standsAt (s.ctx ctx) := by
    rw [hpoint]
    rfl
  obtain ⟨t, ht, hm, he⟩ := takeTrap_entersAsync (cause := 0x23) (v := v) (b := b) (vf := (s.ctx ctx).vflags) (mf := (s.ctx ctx).mflags) (ms := none)
    hpoint hbank hl hlate h0
  have htrap : takeTrap (leavePoint w ctx) ctx cDeadline true false (standsAt ((leavePoint w ctx).ctx ctx)) v = t := by
    rw [hstand]
    exact ht
  have hmem : (leavePoint w ctx).mem = s.mem := by
    rw [ho, hw]
    rfl
  show (takeTrap (leavePoint w ctx) ctx cDeadline true false (standsAt ((leavePoint w ctx).ctx ctx)) v).mem = _ ∧
    Claims.EntersAsync s (takeTrap (leavePoint w ctx) ctx cDeadline true false (standsAt ((leavePoint w ctx).ctx ctx)) v) ctx 0x23 v
  rw [htrap]
  exact ⟨hm.trans hmem, he⟩

/-- R408, R410, R416, R473: asynchronous faults are delivered. -/
theorem delivers : Claims.Delivers := by
  intro ctx s
  obtain ⟨hclosed, hopen⟩ := asyncFaultDelivery_eq ctx s
  refine ⟨?_, fun ho hb c hc => ?_, fun ho hb hn v hv => ?_⟩
  · rintro (h | h | ⟨hn, hm⟩)
    · exact hclosed h
    · by_cases ho : OpenTo s ctx
      · obtain ⟨hf, hrest⟩ := hopen ho
        cases hc : nextFailed s ctx with
        | some c => rw [hf c hc, deliverAsync, if_pos h]
        | none =>
          cases hm : (s.ctx ctx).miss with
          | some v => rw [(hrest hc).1 v hm, deliverMiss, if_pos h]
          | none => exact (hrest hc).2 hm
      · exact hclosed ho
    · by_cases ho : OpenTo s ctx
      · exact ((hopen ho).2 hn).2 hm
      · exact hclosed ho
  · have hx := (hopen ho).1 c hc
    obtain ⟨hr, hl, -, -⟩ := ho
    obtain ⟨hnone, hsome⟩ := deliverAsync_cases hr hb hc
    refine ⟨fun hw => by rw [hx, hnone hw]; rfl, fun u hw hlate => ?_⟩
    obtain ⟨hbank, b, vf, mf, hu⟩ := failingState_banked hw hr
    rw [hb] at hbank
    refine ⟨fun hv => ?_, fun hv => ?_⟩
    · have hlev : (u.ctx ctx).tlevel = 0 := by rw [hu]; exact hl
      rw [hx, hsome u hw, takeTrap_kills true false _ _ hbank (by rw [hu]; exact hlate) (.inr (by rw [hu]; exact hv)), hlev]
      rfl
    · obtain ⟨t, ht, hm, he⟩ := takeTrap_entersAsync (cause := c.cause) (v := failedNum s ctx c) hu hbank hl hlate hv
      exact ⟨t, by rw [hx, hsome u hw, ← ht]; rfl, hm, he⟩
  · have hx := ((hopen ho).2 hn).1 v hv
    obtain ⟨hdrop, htake⟩ := deliverMiss_cases (v := v) ho.1 ho.2.1 hb
    exact ⟨fun h0 => by rw [hx, hdrop h0], fun h0 hlate => ⟨_, hx, htake h0 hlate⟩⟩

/-! ### Cancelled contexts (R420) -/

theorem updCtx_ctx_same (s : State) (c : Nat) (f : Ctx → Ctx) : (s.updCtx c f).ctx c = f (s.ctx c) := State.ctx_setCtx_same ..

/-- A port that is unbound names no chute, and no other port takes one (R204). -/
theorem unbindPort_ports (s : State) (c : Nat) (p q : Fin 8) :
    ((unbindPort s c p).ctx c).ports.get q = if q = p then none else (s.ctx c).ports.get q := by
  unfold unbindPort
  cases h : (s.ctx c).ports.get p with
  | none =>
    show (s.ctx c).ports.get q = _
    split
    · next e => rw [e, h]
    · rfl
  | some k =>
    dsimp only
    rw [updCtx_ctx_same, writeNat_ctx]
    show ((s.ctx c).ports.set p.val none)[q.val] = if q = p then none else (s.ctx c).ports[q.val]
    rw [Vector.getElem_set]
    simp only [Fin.ext_iff, eq_comm]

theorem unbindAll_ports (s : State) (c : Nat) (q : Fin 8) : ((unbindAll s c).ctx c).ports.get q = none := by
  unfold unbindAll
  have h : ∀ (l : List (Fin 8)) (s : State), q ∈ l ∨ (s.ctx c).ports.get q = none → ((l.foldl (fun s p => unbindPort s c p) s).ctx c).ports.get q = none := by
    intro l
    induction l with
    | nil => exact fun s h => h.resolve_left List.not_mem_nil
    | cons p l ih =>
      intro s h
      rw [List.foldl_cons]
      refine ih _ ?_
      by_cases hq : q ∈ l
      · exact .inl hq
      · refine .inr ?_
        rw [unbindPort_ports]
        split
        · rfl
        · next hne => exact h.resolve_left fun hm => (List.mem_cons.mp hm).elim hne hq
  exact h _ s (.inl (List.mem_finRange q))

/-- A context that retires is bound to no chute (R204). -/
theorem retireCtx_ports (s : State) (c : Nat) (q : Fin 8) : ((retireCtx s c).ctx c).ports.get q = none := by
  have hlevel : ∀ t : State, ((endLevel t c).ctx c).ports = (t.ctx c).ports := fun t => by
    unfold endLevel
    split
    · rfl
    · dsimp only
      rw [updCtx_ctx_same]
      split <;> rfl
  have hbump : ∀ t : State, ((bumpRegion (leaveArbiter (leaveBank (dropHolds t c) c) c) c).ctx c).ports = (t.ctx c).ports := fun t => by
    rw [bumpRegion, updCtx_ctx_same]
    rfl
  rw [retireCtx, hbump, hlevel, unbindAll_ports]

/-- What a context that a cancel stops holds (R420). -/
theorem stopCancelled_stops (s : State) (c : Nat) : ((stopCancelled s c).ctx c).run = .halted ∧ ((stopCancelled s c).ctx c).iss = none ∧
    ((stopCancelled s c).ctx c).before = none ∧ (∀ p, ((stopCancelled s c).ctx c).ports.get p = none) ∧ (stopCancelled s c).jobs = s.jobs := by
  have hfree : ∀ (t : State) (k : Nat), (freeUnits t k).ctx c = t.ctx c := fun t k => by
    unfold State.ctx
    rw [freeUnits_ctxs]
  have hports := retireCtx_ports s c
  have hjobs := retireCtx_jobs s c
  unfold stopCancelled
  generalize retireCtx s c = t at *
  dsimp only
  rw [hfree, updCtx_ctx_same, freeUnits_jobs, updCtx_jobs]
  exact ⟨rfl, rfl, rfl, hports, hjobs⟩

/-- A cancelled role context that a cancel stops now: it waits, or stands at a pre-emption point (R420). -/
def CancelStops (s : State) (ctx : Nat) : Prop :=
  isHandler ctx = false ∧ (s.job (s.ctx ctx).job).cancelled = true ∧ (unitOf s ctx).isSome = true ∧
    ((s.ctx ctx).run = .idle ∨ (s.ctx ctx).run = .atStep ∨ (s.ctx ctx).run = .ended ∨ (s.ctx ctx).run = .stopped ∨
      (s.ctx ctx).run = .live ∧ waitsNow s ctx = true)

theorem cancelWaitTimeout_eq (ctx : Nat) (s : State) : (CancelStops s ctx → exec (.cancelWaitTimeout ctx) s = .next (stopCancelled s ctx)) ∧
    (¬ CancelStops s ctx → exec (.cancelWaitTimeout ctx) s = .next s) := by
  have hx : exec (.cancelWaitTimeout ctx) s = execCancelWaitTimeout ctx s := rfl
  rw [execCancelWaitTimeout, runEvent_modify] at hx
  dsimp only at hx
  have hout : (isHandler ctx || !(s.job (s.ctx ctx).job).cancelled || (unitOf s ctx).isNone) = true ↔
      ¬ (isHandler ctx = false ∧ (s.job (s.ctx ctx).job).cancelled = true ∧ (unitOf s ctx).isSome = true) := by
    cases isHandler ctx <;> cases (s.job (s.ctx ctx).job).cancelled <;> cases unitOf s ctx <;> simp
  by_cases hin : isHandler ctx = false ∧ (s.job (s.ctx ctx).job).cancelled = true ∧ (unitOf s ctx).isSome = true
  · rw [if_neg (hout.not.mpr (not_not.mpr hin))] at hx
    obtain ⟨h1, h2, h3⟩ := hin
    unfold CancelStops
    by_cases hw : waitsNow s ctx = true
    all_goals
      cases hr : (s.ctx ctx).run
      all_goals
        rw [hr] at hx
        simp [h1, h2, h3, hx, hw]
  · rw [if_pos (hout.mpr hin)] at hx
    exact ⟨fun h => absurd ⟨h.1, h.2.1, h.2.2.1⟩ hin, fun _ => hx⟩

/-- R32, R49, R156, R166, R408, R420, R461, R462, R473: the limits on running time, asynchronous faults, wake times and cancelled contexts. -/
theorem runningLimits : Claims.RunningLimits := by
  refine ⟨limits, delivers, fun ctx s => ?_, fun ctx s => ?_⟩
  · show execWakeTimeReached ctx s = _
    rw [execWakeTimeReached, runEvent_modify]
    simp only [Bool.and_eq_true, beq_iff_eq, bne_iff_ne, decide_eq_true_eq, and_assoc]
  · obtain ⟨hstops, hgoes⟩ := cancelWaitTimeout_eq ctx s
    exact ⟨fun h => ⟨_, hstops h, stopCancelled_stops s ctx⟩, hgoes⟩

/-- Settles O43: pre-emption and resumption, then the limits on running time. -/
theorem preemptionAndLimits : Obligations.PreemptionAndLimits := ⟨preemption, runningLimits⟩

end Sys2Proof.Machine
end

section
/-! PROOFS. The form of memory (R61 to R64, log entry 2): what keeps it, and the rules by which a computation does.
Each function of the model that answers a state has its lemma, `<function>_inForm`, and each computation `<function>_keeps`. -/

namespace Sys2Proof.Machine

/-- Memory stands in its one form. -/
def State.InForm (s : State) : Prop := Memory.wf s.mem = true

/-- What a run of a computation leaves is in form; a wait's change keeps the form. -/
def KeptBy {α : Type} : Except Stop (α × State) → Prop
  | .ok p => p.2.InForm
  | .error (.hold f) => ∀ s : State, s.InForm → (f s).InForm
  | .error _ => True

/-- A computation keeps the form of memory, whether it answers or stops. -/
def M.Keeps {α : Type} (m : M α) : Prop := ∀ s : State, s.InForm → KeptBy (m s)

/-- Where the outcome is a next state, it is in form. -/
def OutcomeInForm (o : Host.Outcome State Fault Refusal) : Prop := ∀ t, o = .next t → t.InForm

section
variable {α β : Type}

theorem foldl_inForm {f : State → α → State} {l : List α} (hf : ∀ s a, s.InForm → (f s a).InForm) {s : State} (h : s.InForm) :
    (l.foldl f s).InForm := by
  induction l generalizing s with
  | nil => exact h
  | cons a t ih => exact ih (hf s a h)

/-- A fold over the state and what is carried beside it keeps the form of the state. -/
theorem foldl_fst_inForm {f : State × β → α → State × β} {l : List α} (hf : ∀ p a, p.1.InForm → (f p a).1.InForm) {p : State × β}
    (h : p.1.InForm) : (l.foldl f p).1.InForm := by
  induction l generalizing p with
  | nil => exact h
  | cons a t ih => exact ih (hf p a h)

theorem getD_inForm {o : Option State} {s : State} (h : s.InForm) (ho : ∀ t, o = some t → t.InForm) : (o.getD s).InForm := by
  cases o with
  | none => exact h
  | some t => exact ho t rfl

theorem pure_keeps {a : α} : M.Keeps (pure a : M α) := fun _ h => h

theorem M.Keeps.bind {m : M α} {f : α → M β} (hm : m.Keeps) (hf : ∀ a, (f a).Keeps) : (m >>= f).Keeps := by
  intro s hs
  have h := hm s hs
  rw [M.bind_apply]
  cases e : m s with
  | error x => rw [e] at h; cases x <;> exact h
  | ok p => rw [e] at h; exact hf p.1 p.2 h

/-- After `get`, the state at hand is in form. -/
theorem get_bind_keeps {f : State → M β} (hf : ∀ s, s.InForm → (f s).Keeps) : ((get : M State) >>= f).Keeps := fun s hs => hf s hs s hs

theorem modify_keeps {f : State → State} (hf : ∀ s, s.InForm → (f s).InForm) : M.Keeps (modify f : M PUnit) := hf
theorem set_keeps {t : State} (h : t.InForm) : M.Keeps (set t : M PUnit) := fun _ _ => h

theorem modify_bind_keeps {f : State → State} {k : PUnit → M α} (hf : ∀ s, s.InForm → (f s).InForm) (hk : ∀ a, (k a).Keeps) :
    ((modify f : M PUnit) >>= k).Keeps := (modify_keeps hf).bind hk

theorem holdWith_keeps {f : State → State} (hf : ∀ s, s.InForm → (f s).InForm) : M.Keeps (holdWith f : M α) := fun _ _ => hf
theorem holdM_keeps : M.Keeps (holdM : M α) := fun _ h _ _ => h
theorem waitM_keeps : M.Keeps (waitM : M α) := fun _ _ => trivial
theorem trapM_keeps {c : BitVec 8} {v : W64} : M.Keeps (trapM c v : M α) := fun _ _ => trivial
theorem issueTrapM_keeps {c : BitVec 8} {v : W64} : M.Keeps (issueTrapM c v : M α) := fun _ _ => trivial

theorem ite_keeps {c : Prop} [Decidable c] {m n : M α} (hm : m.Keeps) (hn : n.Keeps) : M.Keeps (if c then m else n) := by
  split
  exacts [hm, hn]

/-- A step that is made under a condition, and what follows it in either case. -/
theorem M.Keeps.whenever {c : Prop} [Decidable c] {m : M PUnit} {f : PUnit → M β} (hm : m.Keeps) (hf : ∀ a, (f a).Keeps) :
    M.Keeps (if c then m >>= f else f ⟨⟩) := ite_keeps (hm.bind hf) (hf _)

theorem ite_inForm {c : Prop} [Decidable c] {s t : State} (hs : s.InForm) (ht : t.InForm) : (if c then s else t).InForm := by
  split
  exacts [hs, ht]

/-- A choice between two states with something beside them. -/
theorem ite_fst_inForm {c : Prop} [Decidable c] {p q : State × α} (hp : p.1.InForm) (hq : q.1.InForm) : (if c then p else q).1.InForm := by
  split
  exacts [hp, hq]

theorem foldlM_keeps {f : β → α → M β} {l : List α} (hf : ∀ b a, (f b a).Keeps) {b : β} : (l.foldlM f b).Keeps := by
  induction l generalizing b with
  | nil => exact pure_keeps
  | cons a t ih => exact (hf b a).bind fun _ => ih

theorem mapM_keeps {f : α → M β} {l : List α} (hf : ∀ a, (f a).Keeps) : (l.mapM f).Keeps := by
  rw [← List.mapM'_eq_mapM]
  induction l with
  | nil => exact pure_keeps
  | cons a t ih => exact (hf a).bind fun _ => ih.bind fun _ => pure_keeps

theorem forIn_keeps {f : α → β → M (ForInStep β)} {l : List α} (hf : ∀ a b, (f a b).Keeps) {b : β} : (forIn l b f).Keeps := by
  induction l generalizing b with
  | nil => exact pure_keeps
  | cons a t ih =>
    rw [List.forIn_cons]
    refine (hf a b).bind fun r => ?_
    cases r
    exacts [pure_keeps, ih]

end
end Sys2Proof.Machine
end

section
/-! PROOFS. The form of memory (R61 to R64, log entry 2): the state's own updates, the races, translation and the accesses of a thread. -/

namespace Sys2Proof.Machine

theorem check_keeps {ok : Bool} {cause : BitVec 8} {eval : W64} : M.Keeps (check ok cause eval) := ite_keeps pure_keeps trapM_keeps

theorem await_keeps {ok : Bool} : M.Keeps (await ok) := ite_keeps pure_keeps waitM_keeps

theorem State.setCtx_inForm {s : State} {c : Nat} {v : Ctx} (h : s.InForm) : (State.setCtx s c v).InForm := h

theorem State.setCore_inForm {s : State} {c : Nat} {v : Core} (h : s.InForm) : (State.setCore s c v).InForm := h

theorem State.setCluster_inForm {s : State} {c : Nat} {v : Cluster} (h : s.InForm) : (State.setCluster s c v).InForm := h

theorem State.setDie_inForm {s : State} {d : Nat} {v : Die} (h : s.InForm) : (State.setDie s d v).InForm := h

theorem State.setJob_inForm {s : State} {j : Nat} {v : Job} (h : s.InForm) : (State.setJob s j v).InForm := h

theorem State.setStream_inForm {s : State} {n : Nat} {v : Stream} (h : s.InForm) : (State.setStream s n v).InForm := h

theorem State.setGraph_inForm {s : State} {n : Nat} {v : Graph} (h : s.InForm) : (State.setGraph s n v).InForm := h

theorem State.setQueue_inForm {s : State} {n : Nat} {v : HostQ} (h : s.InForm) : (State.setQueue s n v).InForm := h

theorem State.setFlow_inForm {s : State} {n : Nat} {v : Flow} (h : s.InForm) : (State.setFlow s n v).InForm := h

theorem State.setMe_inForm {s : State} {c : Ctx} (h : s.InForm) : (State.setMe s c).InForm := State.setCtx_inForm h

theorem State.updCtx_inForm {s : State} {c : Nat} {f : Ctx → Ctx} (h : s.InForm) : (State.updCtx s c f).InForm := State.setCtx_inForm h

theorem State.updCore_inForm {s : State} {c : Nat} {f : Core → Core} (h : s.InForm) : (State.updCore s c f).InForm := State.setCore_inForm h

theorem State.updJob_inForm {s : State} {j : Nat} {f : Job → Job} (h : s.InForm) : (State.updJob s j f).InForm := State.setJob_inForm h

theorem State.updDie_inForm {s : State} {d : Nat} {f : Die → Die} (h : s.InForm) : (State.updDie s d f).InForm := State.setDie_inForm h

theorem State.updCluster_inForm {s : State} {c : Nat} {f : Cluster → Cluster} (h : s.InForm) : (State.updCluster s c f).InForm :=
  State.setCluster_inForm h

theorem State.updStream_inForm {s : State} {c : Nat} {f : Stream → Stream} (h : s.InForm) : (State.updStream s c f).InForm := State.setStream_inForm h

theorem getMe_keeps : M.Keeps getMe := get_bind_keeps fun _ _ => pure_keeps

theorem modMe_keeps {f : Ctx → Ctx} : M.Keeps (modMe f) := modify_keeps fun _ hs => State.setMe_inForm hs

theorem myCore_keeps : M.Keeps myCore := get_bind_keeps fun _ _ => pure_keeps

theorem drawWord_keeps : M.Keeps drawWord := by
  unfold drawWord
  grind only [State.InForm, M.Keeps.bind, get_bind_keeps, pure_keeps, modify_keeps, set_keeps]

theorem writeByte_inForm {s : State} {k : Nat} {b : Byte} (h : s.InForm) : (writeByte s k b).InForm := wf_writeByte s k b h

theorem writeBytes_inForm {s : State} {k : Nat} {bs : List Byte} (h : s.InForm) : (writeBytes s k bs).InForm := wf_writeBytes bs s k h

theorem writeNat_inForm {s : State} {k n v : Nat} (h : s.InForm) : (writeNat s k n v).InForm := writeBytes_inForm h

theorem signal_inForm {s : State} {fn vec : Nat} (h : s.InForm) : (signal s fn vec).InForm := h

theorem bumpRegion_inForm {s : State} {c : Nat} (h : s.InForm) : (bumpRegion s c).InForm := State.updCtx_inForm h

theorem orFlags_inForm {s : State} {c : Nat} {v m : W64} (h : s.InForm) : (orFlags s c v m).InForm := State.updCtx_inForm h

theorem record_inForm {s : State} {c g : Nat} {m : BitVec 8} {write atomic : Bool} (h : s.InForm) : (record s c g m write atomic).InForm :=
  ite_inForm h (ite_inForm h (ite_inForm h (ite_inForm h (ite_inForm h h))))

theorem raceM_keeps {k n : Nat} {write atomic : Bool} : M.Keeps (raceM k n write atomic) :=
  get_bind_keeps fun _ hs => by split; exacts [trapM_keeps, set_keeps (foldl_inForm (fun _ _ hs1 => record_inForm hs1) hs)]

theorem paddockM_keeps {k n : Nat} {eval : W64} : M.Keeps (paddockM k n eval) := get_bind_keeps fun _ _ => check_keeps

theorem quiesceM_keeps {k : Nat} : M.Keeps (quiesceM k) := get_bind_keeps fun _ hs => by split; exacts [pure_keeps, await_keeps]

theorem clearPoison_inForm {s : State} {k n : Nat} (h : s.InForm) : (clearPoison s k n).InForm := ite_inForm h h

theorem joinReq_inForm {s : State} {q : XReq} {ipa : Nat} (h : s.InForm) : (joinReq s q ipa).InForm := ite_inForm h h

theorem dropFailed_inForm {s : State} {w : Nat × Nat} (h : s.InForm) : (dropFailed s w).InForm := h

theorem freeBytes_keeps {n : Nat} : M.Keeps (freeBytes n) := by
  induction n with
  | zero => exact pure_keeps
  | succ n ih =>
    refine get_bind_keeps fun s hs => ?_
    exact (set_keeps (t := { s with free := s.free + 1 }) hs).bind fun _ => ih.bind fun _ => pure_keeps

theorem readAt_keeps {k n : Nat} : M.Keeps (readAt k n) := ite_keeps freeBytes_keeps (get_bind_keeps fun _ _ => pure_keeps)

theorem xlateM_keeps {q : XReq} : M.Keeps (xlateM q) := by
  refine get_bind_keeps fun s hs => ?_
  refine waitM_keeps.whenever fun _ => ?_
  refine ite_keeps ((set_keeps (dropFailed_inForm hs)).bind fun _ => pure_keeps) ?_
  split
  · split
    · exact (modify_keeps (f := fun s => { s with tlb := _ :: s.tlb }) fun _ hs => hs).bind fun _ => pure_keeps
    · exact pure_keeps.bind fun _ => pure_keeps
  · exact pure_keeps
  · exact holdWith_keeps fun _ hs => joinReq_inForm hs

theorem xlateT_keeps {q : XReq} : M.Keeps (xlateT q) := xlateM_keeps.bind fun _ => by split; exacts [pure_keeps, trapM_keeps]

theorem devWriteWs_inForm {s t : State} {fn va : Nat} {ws : List W64} (h : s.InForm) (e : devWriteWs s fn va ws = some t) : t.InForm := by
  induction ws generalizing s va with
  | nil => cases e; exact h
  | cons v ws ih =>
    unfold devWriteWs at e
    split at e
    · exact ih (writeNat_inForm h) e
    · cases e

theorem devStore_inForm {s : State} {part va n v : Nat} (h : s.InForm) : (devStore s part va n v).InForm := by
  unfold devStore
  split
  · exact writeNat_inForm h
  · exact h

theorem State.setSeq_inForm {s : State} {d slot : Nat} {q : Seq} (h : s.InForm) : (State.setSeq s d slot q).InForm := State.updDie_inForm h

theorem looseSlots_inForm {s : State} {q : Seq} (h : s.InForm) : (looseSlots s q).InForm := by
  unfold looseSlots
  split
  · exact h
  · exact foldl_inForm (fun _ _ hs => by split; exacts [writeBytes_inForm hs, hs]) h

theorem closeSeq_inForm {s : State} {die slot : Nat} (h : s.InForm) : (closeSeq s die slot).InForm :=
  State.setSeq_inForm (devStore_inForm (looseSlots_inForm h))

theorem lostM_keeps {k va : Nat} : M.Keeps (lostM k va) := get_bind_keeps fun _ _ => check_keeps

theorem poisonM_keeps {k n va : Nat} : M.Keeps (poisonM k n va) := get_bind_keeps fun _ hs => by split; exacts [pure_keeps, trapM_keeps]

theorem loadPlace_keeps {p : Place} {n : Nat} {chk atomic : Bool} {ev : W64} {mirror : Bool} : M.Keeps (loadPlace p n chk atomic ev mirror) :=
    by
  unfold loadPlace
  split
  · exact paddockM_keeps.bind fun _ => quiesceM_keeps.bind fun _ => raceM_keeps.whenever fun _ => poisonM_keeps.bind fun _ => get_bind_keeps fun _
        hs => pure_keeps
  · exact get_bind_keeps fun _ hs => xlateT_keeps.bind fun _ => ite_keeps pure_keeps (lostM_keeps.bind fun _ => poisonM_keeps.bind fun _ =>
      get_bind_keeps fun _ hs1 => ite_keeps pure_keeps (drawWord_keeps.bind fun _ => pure_keeps))

theorem taintSeqs_inForm {s : State} {part va n : Nat} (h : s.InForm) : (taintSeqs s part va n).InForm :=
  foldl_inForm (fun _ _ hs => by split; exact State.setSeq_inForm hs) h

theorem storePlace_keeps {p : Place} {n v : Nat} {chk atomic : Bool} {ev : W64} {mir moved : Bool} : M.Keeps (storePlace p n v
    chk atomic ev mir moved) := by
  unfold storePlace
  split
  · exact paddockM_keeps.bind fun _ => quiesceM_keeps.bind fun _ => raceM_keeps.whenever fun _ => modify_keeps fun _ hs => clearPoison_inForm
      (writeNat_inForm hs)
  · exact get_bind_keeps fun _ hs => xlateT_keeps.bind fun _ => ite_keeps pure_keeps (lostM_keeps.bind fun _ => ite_keeps (xlateT_keeps.bind fun _ =>
      pure_keeps.bind fun _ => modify_bind_keeps (fun _ hs1 => taintSeqs_inForm (clearPoison_inForm (writeNat_inForm hs1))) fun _ => by
        split
        · exact modify_keeps fun _ hs1 => clearPoison_inForm (writeNat_inForm hs1)
        · exact pure_keeps
      ) (pure_keeps.bind fun _ => modify_bind_keeps (fun _ hs1 => taintSeqs_inForm (clearPoison_inForm (writeNat_inForm hs1))) fun _ => by
        split
        · exact modify_keeps fun _ hs1 => clearPoison_inForm (writeNat_inForm hs1)
        · exact pure_keeps))

theorem loadLocal_keeps {off n : Nat} {atomic : Bool} : M.Keeps (loadLocal off n atomic) := myCore_keeps.bind fun _ => loadPlace_keeps

theorem storeLocal_keeps {off n v : Nat} {atomic : Bool} : M.Keeps (storeLocal off n v atomic) :=
  myCore_keeps.bind fun _ => storePlace_keeps

theorem setFull_inForm {s : State} {k : Nat} (h : s.InForm) : (setFull s k).InForm := h

theorem setEmpty_inForm {s : State} {k : Nat} (h : s.InForm) : (setEmpty s k).InForm := h

end Sys2Proof.Machine
end

section
/-! PROOFS. The form of memory (R61 to R64, log entry 2): operands, the units of a core, the queues of commands, and the run of a syllable. -/

namespace Sys2Proof.Machine

theorem getIss_keeps : M.Keeps getIss := getMe_keeps.bind fun _ => pure_keeps

theorem modIss_keeps {f : Issue → Issue} : M.Keeps (modIss f) := modMe_keeps

theorem sylValue_keeps : M.Keeps sylValue := getIss_keeps.bind fun _ => pure_keeps

theorem limit_keeps {ok : Bool} : M.Keeps (limit ok) := sylValue_keeps.bind fun _ => check_keeps

theorem reservedUnless_keeps {ok : Bool} : M.Keeps (reservedUnless ok) := sylValue_keeps.bind fun _ => ite_keeps pure_keeps issueTrapM_keeps

theorem markSync_keeps : M.Keeps markSync := modIss_keeps

theorem wakePorts_inForm {s : State} {k : Nat} (h : s.InForm) : (wakePorts s k).InForm := h

theorem popChute_keeps {k : Nat} {chk : Bool} : M.Keeps (popChute k chk) :=
  quiesceM_keeps.bind fun _ => paddockM_keeps.bind fun _ => get_bind_keeps fun _ _ => check_keeps.bind fun _ => await_keeps.bind fun _ =>
    paddockM_keeps.bind fun _ => raceM_keeps.whenever fun _ => raceM_keeps.whenever fun _ => poisonM_keeps.bind fun _ => poisonM_keeps.bind fun _ =>
    get_bind_keeps fun _ _ => modify_bind_keeps (fun _ hs2 => wakePorts_inForm (writeNat_inForm hs2)) fun _ => myCore_keeps.bind fun _ =>
    modIss_keeps.bind fun _ => pure_keeps

theorem pushChute_keeps {k : Nat} {chk : Bool} {v : W64} : M.Keeps (pushChute k chk v) :=
  quiesceM_keeps.bind fun _ => paddockM_keeps.bind fun _ => get_bind_keeps fun _ _ => check_keeps.bind fun _ => await_keeps.bind fun _ =>
    paddockM_keeps.bind fun _ => raceM_keeps.whenever fun _ => raceM_keeps.whenever fun _ => poisonM_keeps.bind fun _ => modify_bind_keeps (fun _
        hs1 => writeNat_inForm hs1) fun _ => modify_bind_keeps (fun _ hs1 => wakePorts_inForm (writeNat_inForm hs1)) fun _ => markSync_keeps

theorem popPort_keeps {p : Fin 8} {k : Nat} : M.Keeps (popPort p k) :=
  getMe_keeps.bind fun _ => by
      split
      · exact modMe_keeps.bind fun _ => markSync_keeps.bind fun _ => pure_keeps
      · exact popChute_keeps.bind fun _ => myCore_keeps.bind fun _ => modIss_keeps.whenever fun _ => pure_keeps

theorem readReg_keeps {r : Reg} {e : Bool} : M.Keeps (readReg r e) :=
  getMe_keeps.bind fun _ => ite_keeps pure_keeps (by
      split
      · exact ite_keeps popPort_keeps (get_bind_keeps fun _ hs => trapM_keeps)
      · exact by split; exacts [pure_keeps, ite_keeps (ite_keeps issueTrapM_keeps waitM_keeps) pure_keeps])

theorem readSrc_keeps {a : Src} : M.Keeps (readSrc a) := readReg_keeps

theorem flagMe_keeps {fl : W64} : M.Keeps (flagMe fl) := modMe_keeps

theorem pendRegF_keeps {r : Reg} {v fl : W64} : M.Keeps (pendRegF r v fl) :=
  getMe_keeps.bind fun _ => ite_keeps flagMe_keeps (by
      split
      · exact ite_keeps (pushChute_keeps.bind fun _ => flagMe_keeps) (get_bind_keeps fun _ hs => trapM_keeps)
      · exact ite_keeps waitM_keeps modMe_keeps)

theorem pendReg_keeps {r : Reg} {v : W64} : M.Keeps (pendReg r v) := pendRegF_keeps

theorem writeReg_keeps {r : Reg} {v : W64} : M.Keeps (writeReg r v) :=
  getMe_keeps.bind fun _ => ite_keeps pure_keeps (by
      split
      · exact ite_keeps pushChute_keeps (get_bind_keeps fun _ hs => trapM_keeps)
      · exact ite_keeps waitM_keeps (ite_keeps pendReg_keeps modMe_keeps))

theorem readOp2_keeps {o : Op2} : M.Keeps (readOp2 o) := by
  unfold readOp2
  split
  · exact readReg_keeps
  · exact pure_keeps
  · exact pure_keeps

theorem readOps_keeps {r : RArgs} : M.Keeps (readOps r) := readReg_keeps.bind fun _ => readOp2_keeps.bind fun _ => pure_keeps

theorem readRun_keeps {a : Reg} {n : Nat} : M.Keeps (readRun a n) := by
  induction n generalizing a with
  | zero => exact pure_keeps
  | succ n ih => exact readReg_keeps.bind fun _ => ih.bind fun _ => pure_keeps

theorem readCoords_keeps {a : Reg} {ea : Bool} {rank : Nat} : M.Keeps (readCoords a ea rank) :=
  reservedUnless_keeps.bind fun _ => readReg_keeps.bind fun _ => readRun_keeps.bind fun _ => pure_keeps

theorem readPair_keeps {a : Reg} : M.Keeps (readPair a) := readReg_keeps.bind fun _ => readReg_keeps.bind fun _ => pure_keeps

theorem getEntry_keeps {l : Nat} : M.Keeps (getEntry l) := get_bind_keeps fun _ _ => pure_keeps

theorem placeM_keeps {l : Nat} {e : Layout} {coords : List Nat} {n : Nat} {rd wr : Bool} : M.Keeps (placeM l e coords n rd wr) :=
  get_bind_keeps fun _ hs => by split; exacts [pure_keeps, trapM_keeps]

theorem spaceM_keeps {l : Nat} {e : Layout} {ok : Bool} : M.Keeps (spaceM l e ok) := check_keeps

theorem objectM_keeps {g : GArgs} {n al : Nat} : M.Keeps (objectM g n al) := by
  unfold objectM
  split
  · exact readReg_keeps.bind fun _ => limit_keeps.bind fun _ => check_keeps.bind fun _ => check_keeps.bind fun _ => myCore_keeps.bind fun _ =>
      pure_keeps
  · exact getEntry_keeps.bind fun _ => readCoords_keeps.bind fun _ => spaceM_keeps.bind fun _ => placeM_keeps.bind fun _ => by
        split
        · exact check_keeps.bind fun _ => check_keeps.bind fun _ => pure_keeps
        · exact trapM_keeps

theorem charge_inForm {s : State} {die fn : Nat} (h : s.InForm) : (charge s die fn).InForm := State.updDie_inForm h

theorem endLevel_inForm {s : State} {c : Nat} (h : s.InForm) : (endLevel s c).InForm := ite_inForm h (State.updCtx_inForm h)

theorem writeGroup_inForm {s : State} {k : Nat} {g : Group} (h : s.InForm) : (writeGroup s k g).InForm :=
  writeNat_inForm (writeNat_inForm (writeNat_inForm (writeNat_inForm h)))

theorem mapWaits_inForm {s : State} {f : Wait → Wait} (h : s.InForm) : (mapWaits s f).InForm := h

theorem releaseEpisode_inForm {s : State} {k : Nat} (h : s.InForm) : (releaseEpisode s k).InForm := mapWaits_inForm (writeGroup_inForm h)

theorem leaveGroup_inForm {s : State} {c : Nat} {m : Member} (h : s.InForm) : (leaveGroup s c m).InForm := by
  unfold leaveGroup
  extract_lets u g g1 g2 v
  have hv : v.InForm := writeGroup_inForm h
  split
  · exact h
  · split
    · exact releaseEpisode_inForm hv
    · exact hv

theorem leaveAll_inForm {s : State} {c : Nat} (h : s.InForm) : (leaveAll s c).InForm := by
  unfold leaveAll
  grind only [foldl_inForm, leaveGroup_inForm]

theorem unbindPort_inForm {s : State} {c : Nat} {p : Fin 8} (h : s.InForm) : (unbindPort s c p).InForm := by
  unfold unbindPort
  split
  · exact h
  · exact State.updCtx_inForm (writeNat_inForm h)

theorem unbindAll_inForm {s : State} {c : Nat} (h : s.InForm) : (unbindAll s c).InForm := by
  unfold unbindAll
  grind only [foldl_inForm, unbindPort_inForm]

theorem dropHolds_inForm {s : State} {c : Nat} (h : s.InForm) : (dropHolds s c).InForm := h

theorem discardCmds_inForm {s : State} {core : Nat} {p : Cmd → Bool} (h : s.InForm) : (discardCmds s core p).InForm := by
  unfold discardCmds
  grind only [foldl_inForm, State.updCore_inForm]

theorem leaveBank_inForm {s : State} {c : Nat} (h : s.InForm) : (leaveBank s c).InForm := h

theorem leaveArbiter_inForm {s : State} {c : Nat} (h : s.InForm) : (leaveArbiter s c).InForm := State.updDie_inForm h

theorem retireCtx_inForm {s : State} {c : Nat} (h : s.InForm) : (retireCtx s c).InForm :=
  bumpRegion_inForm (leaveArbiter_inForm (leaveBank_inForm (dropHolds_inForm (endLevel_inForm (unbindAll_inForm (leaveAll_inForm h))))))

theorem renameBank_inForm {s : State} {a b : Nat} (h : s.InForm) : (renameBank s a b).InForm := h

theorem renameHolder_inForm {s : State} {a b : Nat} (h : s.InForm) : (renameHolder s a b).InForm := h

theorem leaveSaved_inForm {s : State} {sv : SavedUnit} (h : s.InForm) : (leaveSaved s sv).InForm :=
  foldl_inForm (fun _ _ hs => by split; exact dropHolds_inForm (State.setCtx_inForm (unbindAll_inForm (leaveAll_inForm (State.setCtx_inForm hs))))
    ) h

theorem freeSlot_inForm {s : State} {flow slot : Nat} (h : s.InForm) : (freeSlot s flow slot).InForm := State.setFlow_inForm h

theorem freeRing_inForm {s : State} {a : Arrival} (h : s.InForm) : (freeRing s a).InForm := by
  unfold freeRing
  split
  · exact freeSlot_inForm h
  · exact h

theorem discardJob_inForm {s : State} {j : Nat} (h : s.InForm) : (discardJob s j).InForm := by
  unfold discardJob
  grind only [foldl_inForm, freeRing_inForm, State.updCore_inForm]

theorem dropSaved_inForm {s : State} {j : Nat} (h : s.InForm) : (dropSaved s j).InForm := by
  unfold dropSaved
  grind only [State.InForm, foldl_inForm, leaveSaved_inForm]

theorem cancelJob_inForm {s : State} {j : Nat} (h : s.InForm) : (cancelJob s j).InForm :=
  foldl_inForm (fun _ _ hs => discardJob_inForm (dropSaved_inForm hs)) h

theorem freeUnits_inForm {s : State} {core : Nat} (h : s.InForm) : (freeUnits s core).InForm :=
  foldl_inForm (fun _ _ hs => ite_inForm (State.updCore_inForm hs) hs) h

theorem killCtx_inForm {s : State} {c kind : Nat} {cause : BitVec 8} {epc eval : W64} (h : s.InForm) : (killCtx s c kind cause epc eval).InForm := by
  unfold killCtx
  grind [retireCtx_inForm, discardCmds_inForm, State.updJob_inForm, devWriteWs_inForm, State.updCtx_inForm, freeUnits_inForm, cancelJob_inForm]

theorem stopCancelled_inForm {s : State} {c : Nat} (h : s.InForm) : (stopCancelled s c).InForm := by
  unfold stopCancelled
  grind only [retireCtx_inForm, freeUnits_inForm, State.updCtx_inForm]

theorem setUnit_inForm {s : State} {core lane : Nat} {u : Option UnitSt} (h : s.InForm) : (setUnit s core lane u).InForm := State.updCore_inForm h

theorem passTurn_inForm {s : State} {d : Nat} {j : Job} (h : s.InForm) : (passTurn s d j).InForm := ite_inForm (State.updDie_inForm h) h

theorem takeChunk_inForm {s t : State} {d job f m : Nat} (h : s.InForm) (e : takeChunk s d job = some (f, m, t)) : t.InForm := by
  unfold takeChunk at e
  grind [passTurn_inForm, State.setJob_inForm]

theorem depositRecord_inForm {s : State} {core lane job idx b : Nat} (h : s.InForm) : (depositRecord s core lane job idx
    b).InForm := foldl_inForm (fun _ _ hs => by split <;> exact writeByte_inForm hs) h

theorem startTask_inForm {s : State} {core lane : Nat} {u : UnitSt} {idx : Nat} {again : Bool} (h : s.InForm) : (startTask s core lane u idx
    again).InForm := foldl_inForm (fun _ _ hs => State.setCtx_inForm hs) (charge_inForm (setUnit_inForm (ite_inForm h (depositRecord_inForm h))))

theorem nextRecord_inForm {s : State} {core lane : Nat} {u : UnitSt} (h : s.InForm) : (nextRecord s core lane u).InForm := by
  unfold nextRecord
  grind only [State.InForm, foldl_inForm, setUnit_inForm, State.updCtx_inForm, startTask_inForm, takeChunk_inForm]

theorem endTask_inForm {s : State} {core lane : Nat} {u : UnitSt} (h : s.InForm) : (endTask s core lane u).InForm := by
  unfold endTask
  grind only [foldl_inForm, endLevel_inForm, stopCancelled_inForm, setUnit_inForm, State.updCtx_inForm, nextRecord_inForm]

theorem retireTend_inForm {s : State} {c : Nat} (h : s.InForm) : (retireTend s c).InForm := by
  unfold retireTend
  grind only [State.InForm, freeSlot_inForm, State.updCtx_inForm, endTask_inForm, setUnit_inForm]

theorem retirePpt_inForm {s : State} {c : Nat} (h : s.InForm) : (retirePpt s c).InForm :=
  ite_inForm h (ite_inForm (stopCancelled_inForm (State.updCtx_inForm h)) (by
      split
      · exact ite_inForm (State.updCtx_inForm (State.updCtx_inForm h)) (State.updCtx_inForm h)
      · exact State.updCtx_inForm h))

theorem retireStep_inForm {s : State} {c : Nat} (h : s.InForm) : (retireStep s c).InForm := State.updCtx_inForm h

theorem retireIdle_inForm {s : State} {c : Nat} (h : s.InForm) : (retireIdle s c).InForm := State.updCtx_inForm h

theorem wakeUnit_inForm {s : State} {core lane : Nat} {u : UnitSt} (h : s.InForm) : (wakeUnit s core lane u).InForm :=
  foldl_inForm (fun _ _ hs => ite_inForm (State.updCtx_inForm hs) hs) h

theorem wakeCore_inForm {s : State} {core : Nat} (h : s.InForm) : (wakeCore s core).InForm :=
  foldl_inForm (fun _ _ hs => ite_inForm (State.updCtx_inForm hs) hs) h

theorem putCmd_inForm {s : State} {core : Nat} {c : Cmd} (h : s.InForm) : (putCmd s core c).InForm := State.updCore_inForm h

theorem finishCmd_inForm {s : State} {core : Nat} {c : Cmd} (h : s.InForm) : (finishCmd s core c).InForm :=
  wakeCore_inForm (State.updCore_inForm (putCmd_inForm h))

theorem failCmd_inForm {s : State} {core : Nat} {c : Cmd} {cause : BitVec 8} {faddr : W64} (h : s.InForm) : (failCmd s core c cause faddr).InForm :=
  ite_inForm (finishCmd_inForm h) (wakeCore_inForm (putCmd_inForm h))

theorem arriveAt_inForm {s t : State} {ctx obj : Nat} {gen : BitVec 32} (h : s.InForm) (e : arriveAt s ctx obj gen = .ok t) : t.InForm := by
  unfold arriveAt at e
  dsimp only at e
  split at e
  · cases e
  · split at e
    · cases e
    · split at e
      · cases e
      · cases e
        split
        · exact releaseEpisode_inForm (writeGroup_inForm h)
        · exact writeGroup_inForm h

theorem cmdArrives_inForm {s t : State} {c : Cmd} (h : s.InForm) (e : cmdArrives s c = .ok t) : t.InForm := by
  unfold cmdArrives at e
  grind [arriveAt_inForm]

theorem completeCmd_inForm {s : State} {core : Nat} {c : Cmd} (h : s.InForm) : (completeCmd s core c).InForm := by
  unfold completeCmd
  grind only [orFlags_inForm, failCmd_inForm, State.updCore_inForm, cmdArrives_inForm, finishCmd_inForm]

theorem discardCmd_inForm {s : State} {core : Nat} {c : Cmd} (h : s.InForm) : (discardCmd s core c).InForm := by
  unfold discardCmd
  grind only [finishCmd_inForm, State.updCore_inForm, cmdArrives_inForm]

theorem resolveCmd_inForm {s : State} {ctx : Nat} {code : BitVec 8} (h : s.InForm) : (resolveCmd s ctx code).InForm := by
  unfold resolveCmd
  split
  · exact h
  · exact ite_inForm (discardCmd_inForm h) (putCmd_inForm h)

theorem captureArv_keeps {q : Nat} : M.Keeps (captureArv q) := by
  unfold captureArv
  grind only [M.Keeps.bind, get_bind_keeps, pure_keeps, modify_keeps, set_keeps, trapM_keeps]

theorem enqueue_keeps {c : Cmd} {arv : Bool} : M.Keeps (enqueue c arv) :=
  ite_keeps (captureArv_keeps.bind fun _ => pure_keeps.bind fun _ => get_bind_keeps fun _ _ => await_keeps.bind fun _ => modify_bind_keeps (fun _
    hs1 => State.updCore_inForm hs1) fun _ => markSync_keeps.bind fun _ => pure_keeps) (pure_keeps.bind fun _ => get_bind_keeps fun _ _ =>
    await_keeps.bind fun _ => modify_bind_keeps (fun _ hs1 => State.updCore_inForm hs1) fun _ => markSync_keeps.bind fun _ => pure_keeps)

theorem engine_keeps {ok : Bool} {v : W64} : M.Keeps (engine ok v) := check_keeps

theorem aligned_keeps {ok : Bool} {v : W64} : M.Keeps (aligned ok v) := check_keeps

theorem within_keeps {ok : Bool} {v : W64} : M.Keeps (within ok v) := check_keeps

theorem applyLate_inForm {s : State} {c : Nat} {l : Late} (h : s.InForm) : (applyLate s c l).InForm := by
  unfold applyLate
  split
  · exact ite_inForm (State.updCore_inForm h) (State.updCtx_inForm h)
  · exact State.updCtx_inForm h
  · exact State.updCtx_inForm h
  · exact State.updCtx_inForm h

theorem applyLates_inForm {s : State} {c : Nat} (h : s.InForm) : (applyLates s c).InForm := by
  unfold applyLates
  grind only [foldl_inForm, applyLate_inForm]

theorem lateM_keeps {l : Late} : M.Keeps (lateM l) := modIss_keeps

theorem serialM_keeps : M.Keeps serialM := getIss_keeps.bind fun _ => pure_keeps

theorem sysWrite_keeps {n : Nat} {v : W64} : M.Keeps (sysWrite n v) :=
  serialM_keeps.bind fun _ => ite_keeps (modify_keeps fun _ hs => applyLate_inForm hs) lateM_keeps

theorem unissue_inForm {s : State} {c : Nat} (h : s.InForm) : (unissue s c).InForm := State.updCtx_inForm h

theorem withdraw_inForm {s : State} {c : Nat} (h : s.InForm) : (withdraw s c).InForm :=
  leaveArbiter_inForm (show (dropFailed s (0, c)).InForm from dropFailed_inForm h)

theorem takeTrap_inForm {s : State} {c : Nat} {cause : BitVec 8} {async islot : Bool} {epc eval : W64} (h : s.InForm) : (takeTrap s c
    cause async islot epc eval).InForm :=
  ite_inForm (unissue_inForm h) (ite_inForm (killCtx_inForm (withdraw_inForm (applyLates_inForm h))) (ite_inForm (killCtx_inForm (withdraw_inForm
    (applyLates_inForm h))) (ite_inForm (State.updCore_inForm (State.updCtx_inForm (State.setCtx_inForm (withdraw_inForm (applyLates_inForm h)))))
    (State.setCtx_inForm (withdraw_inForm (applyLates_inForm h))))))

theorem endOverdraw_inForm {s : State} {c : Nat} (h : s.InForm) : (endOverdraw s c).InForm := ite_inForm (State.updCore_inForm h) h

theorem faultHere_inForm {s : State} {c : Nat} {cause : BitVec 8} {issueTime : Bool} {eval : W64} (h : s.InForm) :
    (faultHere s c cause issueTime eval).InForm := by
  unfold faultHere
  grind only [State.InForm, State.updCtx_inForm, takeTrap_inForm]

theorem saveByte_inForm {s t : State} {c off : Nat} {b : Byte} (h : s.InForm) (e : saveByte s c off b = some t) : t.InForm := by
  unfold saveByte at e
  dsimp only at e
  split at e
  · split at e
    · cases e
    · cases e
      exact clearPoison_inForm (writeByte_inForm h)
  · obtain ⟨ks, _, rfl⟩ := Option.map_eq_some_iff.mp e
    exact foldl_inForm (fun _ _ hs => writeByte_inForm hs) h
  · cases e

theorem foldl_option_inForm {α : Type} {f : State → α → Option State} {l : List α} (hf : ∀ s a t, s.InForm → f s a = some t → t.InForm)
    {o : Option State} {t : State} (h : ∀ s, o = some s → s.InForm) (e : l.foldl (fun o a => o.bind fun s => f s a) o = some t) : t.InForm := by
  induction l generalizing o with
  | nil => exact h t e
  | cons a l ih =>
    refine ih (fun s hs => ?_) e
    obtain ⟨u, hu, hs⟩ := Option.bind_eq_some_iff.mp hs
    exact hf u a s (h u hu) hs

theorem writeRecord_inForm {s t : State} {c : Nat} {r : List W64} (h : s.InForm) (e : writeRecord s c r = some t) : t.InForm := by
  refine foldl_option_inForm (fun s p t hs e => saveByte_inForm hs e) (fun u hu => ?_) e
  cases hu
  exact h

theorem leavePoint_inForm {s : State} {c : Nat} (h : s.InForm) : (leavePoint s c).InForm := by
  unfold leavePoint
  grind only [State.InForm, State.setCtx_inForm, setUnit_inForm]

theorem comeBack_inForm {s : State} {c : Nat} (h : s.InForm) : (comeBack s c).InForm := by
  unfold comeBack
  grind only [State.setCtx_inForm, retireTend_inForm, State.updCtx_inForm]

theorem deliverAsync_inForm {s : State} {c : Nat} (h : s.InForm) : (deliverAsync s c).InForm := by
  unfold deliverAsync
  grind only [leavePoint_inForm, orFlags_inForm, putCmd_inForm, writeRecord_inForm, killCtx_inForm, takeTrap_inForm]

theorem trapReturn_inForm {s : State} {c : Nat} {b : TrapBank} (h : s.InForm) : (trapReturn s c b).InForm :=
  comeBack_inForm (State.updCtx_inForm (endOverdraw_inForm (ite_inForm (resolveCmd_inForm h) h)))

theorem deliverMiss_inForm {s : State} {c : Nat} {v : W64} (h : s.InForm) : (deliverMiss s c v).InForm := by
  unfold deliverMiss
  grind only [State.updCtx_inForm, leavePoint_inForm, takeTrap_inForm]

theorem leaveBundle_inForm {s : State} {c : Nat} (h : s.InForm) : (leaveBundle s c).InForm :=
  ite_inForm (State.updCtx_inForm h) (by
      split
      · exact State.setCtx_inForm (applyLates_inForm h)
      · exact State.setCtx_inForm (applyLates_inForm h)
      · exact takeTrap_inForm (State.setCtx_inForm (applyLates_inForm h))
      · exact trapReturn_inForm (State.setCtx_inForm (applyLates_inForm h))
      · exact retirePpt_inForm (State.setCtx_inForm (applyLates_inForm h))
      · exact retireStep_inForm (State.setCtx_inForm (applyLates_inForm h))
      · exact retireTend_inForm (State.setCtx_inForm (applyLates_inForm h))
      · exact retireIdle_inForm (State.setCtx_inForm (applyLates_inForm h)))

theorem advance_inForm {s : State} {c : Nat} (h : s.InForm) : (advance s c).InForm :=
  ite_inForm (State.setCtx_inForm h) (by
      split
      · exact ite_inForm (State.setCtx_inForm h) (ite_inForm (State.setCtx_inForm h) (leaveBundle_inForm (State.setCtx_inForm h)))
      · exact ite_inForm (State.setCtx_inForm h) (leaveBundle_inForm (State.setCtx_inForm h)))

theorem runSyl_inForm {i : Instr} {m : M Unit} {s : State} (hm : m.Keeps) (h : s.InForm) : OutcomeInForm (runSyl i m s) := by
  intro t ht
  have hk := hm s h
  rcases runSyl_cases ht with ⟨c, it, v, rfl⟩ | rfl | ⟨f, e, rfl⟩ | ⟨u, e, rfl⟩
  · exact faultHere_inForm h
  · exact unissue_inForm h
  · rw [e] at hk; exact unissue_inForm (hk s h)
  · rw [e] at hk; exact advance_inForm hk

theorem runEvent_inForm {m : M Unit} {s : State} (hm : m.Keeps) (h : s.InForm) : OutcomeInForm (runEvent m s) := by
  intro t ht
  have hk := hm s h
  rcases runEvent_cases ht with e | ⟨f, e, rfl⟩ | rfl
  · rw [e] at hk; exact hk
  · rw [e] at hk; exact hk s h
  · exact h

end Sys2Proof.Machine
end

section
/-! PROOFS. The form of memory (R61 to R64, log entry 2): atomics and chutes, saved units, launches, graphs and jobs. -/

namespace Sys2Proof.Machine

theorem amoLoc_keeps {m : AArgs} {n : Nat} : M.Keeps (amoLoc m n) := by
  unfold amoLoc
  split
  · exact readReg_keeps.bind fun _ => check_keeps.bind fun _ => myCore_keeps.bind fun _ => pure_keeps
  · exact getEntry_keeps.bind fun _ => readCoords_keeps.bind fun _ => spaceM_keeps.bind fun _ => placeM_keeps.bind fun _ => check_keeps.bind fun _ =>
      pure_keeps

theorem amoStep_keeps {p : Place} {n : Nat} {chk mir : Bool} {ev : W64} {g : Nat → AStep} : M.Keeps (amoStep p n chk mir ev g) := by
  unfold amoStep
  split
  · refine paddockM_keeps.bind fun _ => quiesceM_keeps.bind fun _ => get_bind_keeps fun s _ => raceM_keeps.whenever fun _ => poisonM_keeps.bind fun
        _ => ?_
    split
    · exact (modify_keeps fun _ hs => clearPoison_inForm (writeNat_inForm hs)).bind fun _ => pure_keeps
    · exact pure_keeps.bind fun _ => pure_keeps
  · refine get_bind_keeps fun s _ => loadPlace_keeps.bind fun old => ?_
    dsimp only
    split
    · exact storePlace_keeps.bind fun _ => pure_keeps
    · exact pure_keeps.bind fun _ => pure_keeps

theorem amoM_keeps {m : AArgs} {pair : Bool} {f : Nat → Nat → Nat → Nat → AStep} : M.Keeps (amoM m pair f) :=
  amoLoc_keeps.bind fun ⟨_, _, _, _⟩ => readReg_keeps.bind fun _ => ite_keeps (readReg_keeps.bind fun _ => amoStep_keeps.bind fun ⟨_, _⟩ =>
    markSync_keeps.whenever fun _ => pendRegF_keeps.bind fun _ => ite_keeps pendReg_keeps pure_keeps) (pure_keeps.bind fun _ => amoStep_keeps.bind
    fun ⟨_, _⟩ => markSync_keeps.whenever fun _ => pendRegF_keeps.bind fun _ => ite_keeps pendReg_keeps pure_keeps)

@[simp] theorem execAmoAdd_inForm {m : AArgs} {s : State} (h : s.InForm) : OutcomeInForm (execAmoAdd m s) := runSyl_inForm amoM_keeps h

@[simp] theorem execAmoAnd_inForm {m : AArgs} {s : State} (h : s.InForm) : OutcomeInForm (execAmoAnd m s) := runSyl_inForm amoM_keeps h

@[simp] theorem execAmoOr_inForm {m : AArgs} {s : State} (h : s.InForm) : OutcomeInForm (execAmoOr m s) := runSyl_inForm amoM_keeps h

@[simp] theorem execAmoXor_inForm {m : AArgs} {s : State} (h : s.InForm) : OutcomeInForm (execAmoXor m s) := runSyl_inForm amoM_keeps h

@[simp] theorem execAmoMin_inForm {n : Bool} {m : AArgs} {s : State} (h : s.InForm) : OutcomeInForm (execAmoMin n m s) := runSyl_inForm amoM_keeps h

@[simp] theorem execAmoMax_inForm {n : Bool} {m : AArgs} {s : State} (h : s.InForm) : OutcomeInForm (execAmoMax n m s) := runSyl_inForm amoM_keeps h

@[simp] theorem execAmoSwap_inForm {m : AArgs} {s : State} (h : s.InForm) : OutcomeInForm (execAmoSwap m s) := runSyl_inForm amoM_keeps h

@[simp] theorem execAmoCas_inForm {m : AArgs} {s : State} (h : s.InForm) : OutcomeInForm (execAmoCas m s) := runSyl_inForm amoM_keeps h

@[simp] theorem execAmoIncw_inForm {m : AArgs} {s : State} (h : s.InForm) : OutcomeInForm (execAmoIncw m s) := runSyl_inForm amoM_keeps h

@[simp] theorem execAmoAddb_inForm {m : AArgs} {s : State} (h : s.InForm) : OutcomeInForm (execAmoAddb m s) := runSyl_inForm amoM_keeps h

@[simp] theorem execAmoFadd_inForm {m : AArgs} {s : State} (h : s.InForm) : OutcomeInForm (execAmoFadd m s) := runSyl_inForm amoM_keeps h

@[simp] theorem execAmoSadd_inForm {m : AArgs} {s : State} (h : s.InForm) : OutcomeInForm (execAmoSadd m s) := runSyl_inForm amoM_keeps h

@[simp] theorem execCbind_inForm {port : BitVec 3} {g : GArgs} {s : State} (h : s.InForm) : OutcomeInForm (execCbind port g s) :=
  runSyl_inForm (objectM_keeps.bind fun ⟨_, _⟩ => paddockM_keeps.bind fun _ => quiesceM_keeps.bind fun _ => raceM_keeps.whenever fun _ =>
    poisonM_keeps.bind fun _ => get_bind_keeps fun _ _ => getMe_keeps.bind fun _ => check_keeps.bind fun _ => modify_bind_keeps (fun _ hs1 =>
    writeNat_inForm hs1) fun _ => markSync_keeps.bind fun _ => lateM_keeps) h

@[simp] theorem execCunbind_inForm {port : BitVec 3} {s : State} (h : s.InForm) : OutcomeInForm (execCunbind port s) :=
  runSyl_inForm (getMe_keeps.bind fun _ => by
      split
      · exact drawWord_keeps.bind fun _ => trapM_keeps
      · exact await_keeps.bind fun _ => quiesceM_keeps.bind fun _ => modify_bind_keeps (fun _ hs => unbindPort_inForm hs) fun _ => markSync_keeps
    ) h

theorem runPort_inForm {m : M Unit} {s : State} (hm : m.Keeps) (h : s.InForm) : OutcomeInForm (runPort m s) := by
  have hk := hm s h
  intro t e
  unfold runPort at e
  split at e
  · next hx =>
    rw [hx] at hk
    cases e
    exact State.setMe_inForm (ite_inForm (bumpRegion_inForm hk) hk)
  · cases e; exact faultHere_inForm h
  · cases e; exact faultHere_inForm h
  · next hx => rw [hx] at hk; cases e; exact hk s h
  · cases e
  · cases e; exact h

@[simp] theorem execChutePop_inForm {port : BitVec 2} {s : State} (h : s.InForm) : OutcomeInForm (execChutePop port s) :=
  runPort_inForm (getMe_keeps.bind fun _ => by split; exacts [popChute_keeps.bind fun _ => modMe_keeps, pure_keeps]) h

@[simp] theorem execChutePush_inForm {port : BitVec 2} {v : W64} {s : State} (h : s.InForm) : OutcomeInForm (execChutePush port v s) :=
  runPort_inForm (getMe_keeps.bind fun _ => by split; exacts [pushChute_keeps, pure_keeps]) h

theorem transmit_inForm {s : State} {flow : Nat} {payload : List Byte} (h : s.InForm) : (transmit s flow payload).InForm :=
  ite_inForm (ite_inForm h h) (ite_inForm h h)

theorem netPost_inForm {s : State} {flow job : Nat} {payload : List Byte} (h : s.InForm) : (netPost s flow job payload).InForm :=
  ite_inForm h (ite_inForm (transmit_inForm h) (ite_inForm (transmit_inForm h) (ite_inForm h (transmit_inForm h))))

theorem setWin_inForm {s : State} {fn off : Nat} {v : W64} (h : s.InForm) : (setWin s fn off v).InForm := h

theorem clearSlice_inForm {s : State} {core lo n : Nat} (h : s.InForm) : (clearSlice s core lo n).InForm := mapWf_filter _ _ _ h

theorem renameWaiter_inForm {s : State} {a b : Nat × Nat} (h : s.InForm) : (renameWaiter s a b).InForm := h

theorem vacateCtxs_inForm {s : State} {core n : Nat} {cs : List Nat} (h : s.InForm) : (vacateCtxs s core n cs).InForm :=
  foldl_inForm (fun _ _ hs => renameBank_inForm hs)
    (show (cs.foldl (fun s c => dropHolds (renameHolder s c (savedName n (c % 8))) c) _).InForm from
      foldl_inForm (fun _ _ hs => dropHolds_inForm (renameHolder_inForm hs)) (foldl_inForm (fun _ _ hs => State.setCtx_inForm hs)
          (State.updDie_inForm h)))

theorem keepSaved_inForm {s : State} {v : SavedUnit} (h : s.InForm) : (keepSaved s v).InForm := h

theorem saveUnit_inForm {s : State} {core lane : Nat} {u : UnitSt} {forced suspended : Bool} (h : s.InForm) :
    (saveUnit s core lane u forced suspended).1.InForm := by
  unfold saveUnit
  dsimp only
  refine State.updCore_inForm (vacateCtxs_inForm (charge_inForm (keepSaved_inForm ?_)))
  exact foldl_inForm (fun _ _ hs => renameWaiter_inForm hs) h

theorem restoreSlice_inForm {s : State} {j : Job} {sv : SavedUnit} {core : Nat} (h : s.InForm) : (restoreSlice s j sv core).InForm :=
  foldl_inForm (fun _ _ hs => ite_inForm (setFull_inForm hs) hs) (foldl_inForm (fun _ _ hs1 => ite_inForm (writeByte_inForm hs1) hs1) (foldl_inForm
    (fun _ _ hs2 => clearSlice_inForm hs2) h))

theorem requeue_inForm {s : State} {core h : Nat} {cmds : List (Cmd × Nat)} (hs : s.InForm) : (requeue s core h cmds).1.InForm := by
  refine foldl_fst_inForm (fun p q hp => ?_) hs
  obtain ⟨s, os⟩ := p
  dsimp only
  split
  · exact hp
  · exact foldl_inForm (fun s a hs => State.updCore_inForm (renameWaiter_inForm hs)) hp

theorem rebase_inForm {s : State} {sv : SavedUnit} {core : Nat} {os : List (Nat × Int)} {anew : Bool} (h : s.InForm) :
    (rebase s sv core os anew).InForm :=
  foldl_inForm (fun _ _ hs => by split <;> exact State.updJob_inForm hs) h

theorem resumeUnit_inForm {s : State} {sv : SavedUnit} {core : Nat} (h : s.InForm) : (resumeUnit s sv core).InForm := by
  unfold resumeUnit
  grind only [State.InForm, foldl_inForm, charge_inForm, restoreSlice_inForm, requeue_inForm, rebase_inForm, State.updJob_inForm,
      State.updCore_inForm, renameBank_inForm, renameHolder_inForm, State.setCtx_inForm, State.updDie_inForm, nextRecord_inForm]

theorem opaqueWords_inForm {s : State} {n : Nat} (h : s.InForm) : (opaqueWords s n).1.InForm := by
  induction n generalizing s with
  | zero => exact h
  | succ n ih => exact ih (s := { s with free := s.free + 1 }) h

theorem decide_inForm {s t : State} {q : Submit} {j : Nat} (h : s.InForm) (e : decide_ s q = .accepted t j) : t.InForm := by
  unfold decide_ at e
  dsimp only at e
  split at e
  · cases e
  · split at e
    · split at e
      · cases e
      · split at e
        · cases e
        · cases e
          exact devStore_inForm (State.setJob_inForm h)
    · cases e

theorem freshUnit_inForm {s : State} {core lane : Nat} {triple : Bool} (h : s.InForm) : (freshUnit s core lane triple).InForm :=
  State.updCore_inForm h

theorem dealUnit_inForm {s : State} {core lane id : Nat} (h : s.InForm) : (dealUnit s core lane id).InForm := by
  unfold dealUnit
  grind only [State.InForm, setUnit_inForm, takeChunk_inForm, freshUnit_inForm, State.updJob_inForm, startTask_inForm]

@[simp] theorem execUnitDispatch_inForm {core lane : Nat} {s : State} (h : s.InForm) : OutcomeInForm (execUnitDispatch core lane s) :=
  runEvent_inForm (modify_keeps fun _ hs => by split; exacts [hs, by split; exacts [resumeUnit_inForm hs, dealUnit_inForm hs]]) h

@[simp] theorem execRecordDeposit_inForm {core lane : Nat} {s : State} (h : s.InForm) : OutcomeInForm (execRecordDeposit core lane s) :=
  runEvent_inForm (modify_keeps fun _ hs => by split; exacts [ite_inForm (setUnit_inForm (depositRecord_inForm hs)) hs, hs]) h

@[simp] theorem execUnitResumption_inForm {handle core lane : Nat} {s : State} (h : s.InForm) : OutcomeInForm (execUnitResumption handle core lane
    s) := runEvent_inForm (modify_keeps fun _ hs => by split; exacts [ite_inForm (resumeUnit_inForm hs) (ite_inForm (resumeUnit_inForm hs) hs), hs]) h

theorem returnRecords_inForm {s : State} {job : Nat} {u : UnitSt} (h : s.InForm) : (returnRecords s job u).InForm :=
  ite_inForm h (State.updJob_inForm h)

theorem withdrawDie_inForm {s : State} {job d : Nat} (h : s.InForm) : (withdrawDie s job d).InForm :=
  State.updJob_inForm (foldl_inForm (fun _ _ hs => returnRecords_inForm (leaveSaved_inForm hs)) (foldl_inForm (fun _ _ hs1 => by
      split
      all_goals exact returnRecords_inForm (setUnit_inForm (foldl_inForm (fun _ _ hs2 => State.updCtx_inForm (retireCtx_inForm hs2)) hs1))
    ) h))

theorem joinUnit_inForm {s : State} {job core lane : Nat} (h : s.InForm) : (joinUnit s job core lane).InForm :=
  foldl_inForm (fun _ _ hs => State.setCtx_inForm hs) (setUnit_inForm (freshUnit_inForm h))

theorem addDie_inForm {s : State} {job d : Nat} (h : s.InForm) : (addDie s job d).InForm :=
  foldl_inForm (fun _ _ hs => foldl_inForm (fun _ _ hs1 => ite_inForm (joinUnit_inForm hs1) hs1) hs) (State.updJob_inForm h)

@[simp] theorem execStepRelease_inForm {job : Nat} {s : State} (h : s.InForm) : OutcomeInForm (execStepRelease job s) := by
  refine runEvent_inForm ?_ h
  grind only [State.InForm, foldl_inForm, M.Keeps.bind, get_bind_keeps, pure_keeps, modify_keeps, set_keeps, State.updCtx_inForm, withdrawDie_inForm,
      addDie_inForm]

theorem dropTxs_inForm {s : State} {id : Nat} (h : s.InForm) : (dropTxs s id).InForm := by
  unfold dropTxs
  grind only [foldl_inForm, State.setSeq_inForm, looseSlots_inForm]

theorem clearBindings_inForm {s : State} {id : Nat} (h : s.InForm) : (clearBindings s id).InForm := h

@[simp] theorem execLaunchCompletion_inForm {job : Nat} {s : State} (h : s.InForm) : OutcomeInForm (execLaunchCompletion job s) :=
  runEvent_inForm (modify_keeps fun _ hs => ite_inForm hs (clearBindings_inForm (State.updJob_inForm (ite_inForm (devStore_inForm (ite_inForm
    (dropTxs_inForm hs) hs)) (devStore_inForm (devStore_inForm (ite_inForm (dropTxs_inForm hs) hs))))))) h

theorem patchAll_inForm {s : State} {g : Graph} {ok : Nat → Bool} (h : s.InForm) : (patchAll s g ok).InForm := by
  unfold patchAll
  grind only [foldl_inForm, devStore_inForm]

theorem stampCard_inForm {s : State} {g : Graph} {n i : Nat} (h : s.InForm) : (stampCard s g n i).InForm := by
  unfold stampCard
  grind only [devStore_inForm]

theorem patchCards_inForm {s : State} {g : Graph} {ok : Nat → Bool} (h : s.InForm) : (patchCards s g ok).InForm := by
  unfold patchCards
  grind only [foldl_inForm, patchAll_inForm, stampCard_inForm]

theorem startInstance_inForm {s : State} {id : Nat} {origin : Option Nat} {parent : Nat} {stream : Option Nat} (h : s.InForm) :
    (startInstance s id origin
    parent stream).InForm := patchCards_inForm (State.setGraph_inForm h)

theorem replayGraph_inForm {s : State} {id : Nat} {origin : Option Nat} {parent : Nat} (h : s.InForm) :
    (replayGraph s id origin parent).1.InForm := by
  unfold replayGraph
  grind only [startInstance_inForm, State.setGraph_inForm]

theorem writeBack_inForm {s : State} {n : Nat} (h : s.InForm) : (writeBack s n).InForm := devStore_inForm h

theorem freeSlots_inForm {s : State} {l : List (Nat × Nat)} (h : s.InForm) : (freeSlots s l).InForm :=
  foldl_inForm (fun _ _ hs => freeSlot_inForm hs) h

theorem dropStream_inForm {s : State} {n : Nat} (h : s.InForm) : (dropStream s n).InForm := State.setStream_inForm (freeSlots_inForm h)

theorem endStream_inForm {s : State} {n : Nat} (h : s.InForm) : (endStream s n).InForm :=
  ite_inForm (dropStream_inForm h) (State.setStream_inForm (freeSlots_inForm h))

theorem endInstance_inForm {s : State} {id : Nat} (h : s.InForm) : (endInstance s id).InForm := by
  unfold endInstance
  grind only [State.setGraph_inForm, endStream_inForm, startInstance_inForm]

theorem cancelInstance_inForm {s : State} {id : Nat} (h : s.InForm) : (cancelInstance s id).InForm :=
  endInstance_inForm (foldl_inForm (fun _ _ hs => cancelJob_inForm hs) h)

@[simp] theorem execGraphNodeSubmit_inForm {graph node : Nat} {s : State} (h : s.InForm) : OutcomeInForm (execGraphNodeSubmit graph node s) := by
  refine runEvent_inForm (modify_keeps fun s hs => ?_) h
  have hc : (cancelInstance s graph).InForm := cancelInstance_inForm hs
  refine ite_inForm hs (ite_inForm hc ?_)
  split
  · exact hc
  · dsimp only
    split
    · next e => exact State.setGraph_inForm (devStore_inForm (decide_inForm hs e))
    · exact hc

@[simp] theorem execGraphInstanceComplete_inForm {graph : Nat} {s : State} (h : s.InForm) : OutcomeInForm (execGraphInstanceComplete graph s) :=
  runEvent_inForm (modify_keeps fun _ hs => ite_inForm hs (ite_inForm (endInstance_inForm (ite_inForm (State.setGraph_inForm hs) (devStore_inForm
    (State.setGraph_inForm hs)))) (ite_inForm (endInstance_inForm hs) hs))) h

theorem askLaunch_keeps {r : LaunchReq} {rights : W64} {d : Reg} : M.Keeps (askLaunch r rights d) := by
  have hw : M.Keeps (holdWith fun s => s.setMe (s.me.setWait (.launch r)) : M Unit) := holdWith_keeps fun _ hs => State.setMe_inForm hs
  refine M.Keeps.bind getMe_keeps fun c => ?_
  generalize c.wait = w
  cases w with
  | answered a =>
    cases a with
    | value v => exact markSync_keeps.whenever fun _ => writeReg_keeps
    | cancelled => exact trapM_keeps
    | rights => exact trapM_keeps
  | launch => exact waitM_keeps
  | _ => exact hw

@[simp] theorem execCard_inForm {d : Reg} {a : Src} {s : State} (h : s.InForm) : OutcomeInForm (execCard d a s) :=
  runSyl_inForm (readSrc_keeps.bind fun _ => check_keeps.bind fun _ => myCore_keeps.bind fun _ => paddockM_keeps.bind fun _ => quiesceM_keeps.bind
    fun _ => askLaunch_keeps) h

theorem jobArg_keeps {a : Src} : M.Keeps (jobArg a) := readSrc_keeps.bind fun _ => limit_keeps.bind fun _ => pure_keeps

@[simp] theorem execJcancel_inForm {d : Reg} {a : Src} {s : State} (h : s.InForm) : OutcomeInForm (execJcancel d a s) :=
  runSyl_inForm (jobArg_keeps.bind fun _ => get_bind_keeps fun _ _ => ite_keeps writeReg_keeps (ite_keeps writeReg_keeps (modify_bind_keeps (fun _
    hs1 => cancelJob_inForm hs1) fun _ => writeReg_keeps))) h

@[simp] theorem execJpoll_inForm {d : Reg} {a : Src} {s : State} (h : s.InForm) : OutcomeInForm (execJpoll d a s) :=
  runSyl_inForm (jobArg_keeps.bind fun _ => get_bind_keeps fun _ _ => ite_keeps writeReg_keeps (ite_keeps writeReg_keeps (ite_keeps
    (markSync_keeps.bind fun _ => writeReg_keeps) writeReg_keeps))) h

theorem graphArg_keeps {a : Src} : M.Keeps (graphArg a) := readSrc_keeps.bind fun _ => limit_keeps.bind fun _ => pure_keeps

@[simp] theorem execGpgetGp_inForm {d : Reg} {a : Src} {gp : BitVec 4} {s : State} (h : s.InForm) : OutcomeInForm (execGpgetGp d a gp s) :=
  runSyl_inForm (graphArg_keeps.bind fun ⟨_, _⟩ => askLaunch_keeps) h

@[simp] theorem execGpgetCm_inForm {d : Reg} {k : BitVec 2} {s : State} (h : s.InForm) : OutcomeInForm (execGpgetCm d k s) :=
  runSyl_inForm (getMe_keeps.bind fun _ => writeReg_keeps) h

@[simp] theorem execGpset_inForm {d : Reg} {a b : Src} {gp : BitVec 4} {s : State} (h : s.InForm) : OutcomeInForm (execGpset d a b gp s) :=
  runSyl_inForm (graphArg_keeps.bind fun ⟨_, _⟩ => readSrc_keeps.bind fun _ => askLaunch_keeps) h

@[simp] theorem execGrepl_inForm {d : Reg} {a : Src} {s : State} (h : s.InForm) : OutcomeInForm (execGrepl d a s) :=
  runSyl_inForm (graphArg_keeps.bind fun ⟨_, _⟩ => askLaunch_keeps) h

theorem answerOf_inForm {s : State} {ctx : Nat} {r : LaunchReq} (h : s.InForm) : (answerOf s ctx r).1.InForm := by
  have hr : ∀ g x j, (replayGraph s g x j).1.InForm := fun _ _ _ => replayGraph_inForm h
  unfold answerOf
  repeat' split
  all_goals grind only [writeNat_inForm, State.setGraph_inForm, decide_inForm]

@[simp] theorem execLaunchUnitAnswer_inForm {ctx : Nat} {s : State} (h : s.InForm) : OutcomeInForm (execLaunchUnitAnswer ctx s) := by
  refine runEvent_inForm ?_ h
  grind only [M.Keeps.bind, get_bind_keeps, pure_keeps, modify_keeps, set_keeps, answerOf_inForm, State.updCtx_inForm]

end Sys2Proof.Machine
end

section
/-! PROOFS. The form of memory (R61 to R64, log entry 2): streams, the queues of the host and the operations of a die. -/

namespace Sys2Proof.Machine

theorem setLevel_inForm {s : State} {n l : Nat} (h : s.InForm) : (setLevel s n l).InForm := writeBack_inForm (State.updStream_inForm h)

theorem raiseOne_inForm {s : State} {thr : Bool} {die lo hi : Nat} {t : State} (h : s.InForm) (e : raiseOne s thr die lo hi = some t) : t.InForm := by
  unfold raiseOne at e
  grind only [foldl_inForm, setLevel_inForm]

theorem shed_inForm {s : State} {thr : Bool} {die n : Nat} (h : s.InForm) : (shed s thr die n).InForm := by
  induction n generalizing s with
  | zero => exact h
  | succ n ih =>
    unfold shed
    grind [raiseOne_inForm]

theorem shedDie_inForm {s : State} {thr : Bool} {die : Nat} (h : s.InForm) : (shedDie s thr die).InForm := shed_inForm h

theorem admitStream_inForm {s : State} {fn va : Nat} {modify : Bool} (h : s.InForm) : (admitStream s fn va modify).1.InForm := by
  unfold admitStream
  grind only [State.InForm, State.setStream_inForm, writeBack_inForm, shedDie_inForm]

theorem retireStream_inForm {s : State} {fn n : Nat} (h : s.InForm) : (retireStream s fn n).InForm :=
  ite_inForm h (by split; exacts [dropStream_inForm h, dropStream_inForm h, State.setStream_inForm h, h])

theorem setBounds_inForm {s : State} {die : Nat} {v : W64} {t : State} (h : s.InForm) (e : setBounds s die v = some t) : t.InForm := by
  unfold setBounds at e
  grind only [shedDie_inForm, State.updDie_inForm]

theorem releaseStream_inForm {s : State} {n r : Nat} {msg : Option (Nat × Nat × Nat × Nat)} (h : s.InForm) : (releaseStream s n r msg).InForm :=
  ite_inForm (freeSlots_inForm (State.setStream_inForm h)) (ite_inForm (writeBack_inForm (State.setStream_inForm h)) (startInstance_inForm
    (writeBack_inForm (by split; exacts [State.setGraph_inForm (State.setStream_inForm h), State.setStream_inForm h]))))

theorem arrivalRelease_inForm {s : State} {n : Nat} (h : s.InForm) : (arrivalRelease s n).InForm := by
  unfold arrivalRelease
  grind only [releaseStream_inForm, State.setStream_inForm]

@[simp] theorem execStreamTimerRelease_inForm {stream : Nat} {s : State} (h : s.InForm) : OutcomeInForm (execStreamTimerRelease stream s) :=
  runEvent_inForm (modify_keeps fun _ hs => by split; exacts [releaseStream_inForm (State.updStream_inForm hs), arrivalRelease_inForm hs]) h

@[simp] theorem execDeadlineMiss_inForm {stream : Nat} {s : State} (h : s.InForm) : OutcomeInForm (execDeadlineMiss stream s) := by
  refine runEvent_inForm (modify_keeps fun s hs => ?_) h
  grind only [State.setStream_inForm, foldl_inForm, State.updCtx_inForm, getD_inForm, raiseOne_inForm, shedDie_inForm]

theorem devWriteBytes_inForm {s t : State} {fn va : Nat} {bs : List Byte} (h : s.InForm) (e : devWriteBytes s fn va bs = some t) : t.InForm := by
  induction bs generalizing s va with
  | nil => cases e; exact h
  | cons b bs ih =>
    unfold devWriteBytes at e
    split at e
    · exact ih (writeByte_inForm h) e
    · cases e

theorem stopQueue_inForm {s : State} {fn q err errpos : Nat} (h : s.InForm) : (stopQueue s fn q err errpos).InForm :=
  ite_inForm (signal_inForm (devStore_inForm (State.setQueue_inForm h))) (devStore_inForm (State.setQueue_inForm h))

theorem finishPacket_inForm {s : State} {fn q len st : Nat} (h : s.InForm) : (finishPacket s fn q len st).InForm := by
  unfold finishPacket
  grind only [writeNat_inForm, State.setQueue_inForm, devStore_inForm, stopQueue_inForm]

theorem ringBell_inForm {s : State} {fn q : Nat} (h : s.InForm) : (ringBell s fn q).InForm :=
  ite_inForm h (by split; exacts [stopQueue_inForm h, State.setQueue_inForm h])

@[simp] theorem execDoorbell_inForm {fn q : Nat} {s : State} (h : s.InForm) : OutcomeInForm (execDoorbell fn q s) :=
  runEvent_inForm (modify_keeps fun _ hs => ringBell_inForm hs) h

theorem cancelQueue_inForm {s : State} {k : Nat} (h : s.InForm) : (cancelQueue s k).InForm := by
  unfold cancelQueue
  grind only [State.InForm, foldl_inForm, cancelJob_inForm, cancelInstance_inForm]

theorem destroyQueue_inForm {s : State} {fn q : Nat} (h : s.InForm) : (destroyQueue s fn q).InForm :=
  ite_inForm h (stopQueue_inForm (cancelQueue_inForm (State.setQueue_inForm h)))

theorem createQueue_inForm {s : State} {fn q : Nat} {qcb : W64} (h : s.InForm) : (createQueue s fn q qcb).InForm :=
  ite_inForm h (ite_inForm (destroyQueue_inForm (ite_inForm (setWin_inForm h) h)) (by
      split
      · exact stopQueue_inForm (State.setQueue_inForm (ite_inForm (setWin_inForm h) h))
      · exact ite_inForm (State.setQueue_inForm (ite_inForm (setWin_inForm h) h)) (stopQueue_inForm (State.setQueue_inForm (ite_inForm (setWin_inForm
            h) h)))))

@[simp] theorem execQueueCreate_inForm {fn q : Nat} {qcb : W64} {s : State} (h : s.InForm) : OutcomeInForm (execQueueCreate fn q qcb s) :=
  runEvent_inForm (modify_keeps fun _ hs => createQueue_inForm hs) h

@[simp] theorem execQueueDestroy_inForm {fn q : Nat} {s : State} (h : s.InForm) : OutcomeInForm (execQueueDestroy fn q s) :=
  runEvent_inForm (modify_keeps fun _ hs => destroyQueue_inForm (ite_inForm (setWin_inForm hs) hs)) h

theorem packetM_inForm {kind fn q : Nat} {body : State → List W64 → State × Option Nat} (hb : ∀ s w, s.InForm → (body s w).1.InForm) {s : State}
    (h : s.InForm) : (packetM kind fn q body s).InForm := by
  unfold packetM
  refine ite_inForm h ?_
  dsimp only
  split
  · exact finishPacket_inForm (s := s) h
  · next w _ =>
    have hw := hb s w h
    split
    · next e => rw [e] at hw; exact finishPacket_inForm hw
    · next e => rw [e] at hw; exact hw

@[simp] theorem execLaunchPacket_inForm {fn q : Nat} {s : State} (h : s.InForm) : OutcomeInForm (execLaunchPacket fn q s) := by
  refine runEvent_inForm (modify_keeps fun s hs => packetM_inForm (fun s w hs => ?_) hs) h
  repeat' split
  · exact hs
  · exact hs
  · exact hs
  · exact hs
  · next e => exact devStore_inForm (decide_inForm hs e)

@[simp] theorem execReplayPacket_inForm {fn q : Nat} {s : State} (h : s.InForm) : OutcomeInForm (execReplayPacket fn q s) := by
  refine runEvent_inForm ?_ h
  grind only [M.Keeps.bind, get_bind_keeps, pure_keeps, modify_keeps, set_keeps, packetM_inForm, replayGraph_inForm, State.setGraph_inForm]

@[simp] theorem execFencePacket_inForm {fn q : Nat} {s : State} (h : s.InForm) : OutcomeInForm (execFencePacket fn q s) := by
  refine runEvent_inForm ?_ h
  grind only [State.InForm, M.Keeps.bind, get_bind_keeps, pure_keeps, modify_keeps, set_keeps, packetM_inForm, State.setQueue_inForm]

theorem finishFence_inForm {s : State} {fn q : Nat} {cs : List (Nat × Nat)} {st : Nat} (h : s.InForm) : (finishFence s fn q cs st).InForm :=
  finishPacket_inForm h

@[simp] theorem execFenceSatisfied_inForm {fn q : Nat} {s : State} (h : s.InForm) : OutcomeInForm (execFenceSatisfied fn q s) :=
  runEvent_inForm (modify_keeps fun _ hs => by split; exacts [hs, by split; exacts [finishFence_inForm hs, finishFence_inForm hs, hs]]) h

@[simp] theorem execFenceTimeout_inForm {fn q : Nat} {s : State} (h : s.InForm) : OutcomeInForm (execFenceTimeout fn q s) := by
  refine runEvent_inForm ?_ h
  grind only [M.Keeps.bind, get_bind_keeps, pure_keeps, modify_keeps, set_keeps, finishFence_inForm]

@[simp] theorem execSignalWritePacket_inForm {fn q : Nat} {s : State} (h : s.InForm) : OutcomeInForm (execSignalWritePacket fn q s) := by
  refine runEvent_inForm ?_ h
  grind only [M.Keeps.bind, get_bind_keeps, pure_keeps, modify_keeps, set_keeps, packetM_inForm, devWriteWs_inForm]

@[simp] theorem execCopyPacket_inForm {fn q : Nat} {s : State} (h : s.InForm) : OutcomeInForm (execCopyPacket fn q s) := by
  refine runEvent_inForm ?_ h
  grind only [M.Keeps.bind, get_bind_keeps, pure_keeps, modify_keeps, set_keeps, packetM_inForm, devWriteBytes_inForm]

@[simp] theorem execCancelPacket_inForm {fn q : Nat} {s : State} (h : s.InForm) : OutcomeInForm (execCancelPacket fn q s) := by
  refine runEvent_inForm ?_ h
  grind only [M.Keeps.bind, get_bind_keeps, pure_keeps, modify_keeps, set_keeps, packetM_inForm, cancelJob_inForm]

@[simp] theorem execStreamAdmitPacket_inForm {fn q : Nat} {s : State} (h : s.InForm) : OutcomeInForm (execStreamAdmitPacket fn q s) := by
  refine runEvent_inForm ?_ h
  grind only [M.Keeps.bind, get_bind_keeps, pure_keeps, modify_keeps, set_keeps, packetM_inForm, admitStream_inForm]

@[simp] theorem execStreamModifyPacket_inForm {fn q : Nat} {s : State} (h : s.InForm) : OutcomeInForm (execStreamModifyPacket fn q s) := by
  refine runEvent_inForm ?_ h
  grind only [M.Keeps.bind, get_bind_keeps, pure_keeps, modify_keeps, set_keeps, packetM_inForm, admitStream_inForm]

@[simp] theorem execStreamRetirePacket_inForm {fn q : Nat} {s : State} (h : s.InForm) : OutcomeInForm (execStreamRetirePacket fn q s) := by
  refine runEvent_inForm ?_ h
  grind only [M.Keeps.bind, get_bind_keeps, pure_keeps, modify_keeps, set_keeps, packetM_inForm, retireStream_inForm]

@[simp] theorem execBoundsPacket_inForm {fn q : Nat} {s : State} (h : s.InForm) : OutcomeInForm (execBoundsPacket fn q s) := by
  refine runEvent_inForm ?_ h
  grind only [M.Keeps.bind, get_bind_keeps, pure_keeps, modify_keeps, set_keeps, packetM_inForm, setBounds_inForm]

@[simp] theorem execGraphDefinePacket_inForm {fn q : Nat} {s : State} (h : s.InForm) : OutcomeInForm (execGraphDefinePacket fn q s) := by
  refine runEvent_inForm ?_ h
  grind only [M.Keeps.bind, get_bind_keeps, pure_keeps, modify_keeps, set_keeps, packetM_inForm, State.setGraph_inForm]

@[simp] theorem execGraphDeletePacket_inForm {fn q : Nat} {s : State} (h : s.InForm) : OutcomeInForm (execGraphDeletePacket fn q s) := by
  refine runEvent_inForm ?_ h
  grind only [M.Keeps.bind, get_bind_keeps, pure_keeps, modify_keeps, set_keeps, packetM_inForm, State.setGraph_inForm]

theorem abandonJob_inForm {s : State} {j : Nat} (h : s.InForm) : (abandonJob s j).InForm := dropTxs_inForm (State.updJob_inForm h)

theorem continueInstance_inForm {s : State} {n : Nat} (h : s.InForm) : (continueInstance s n).InForm := by
  unfold continueInstance
  grind only [foldl_inForm, abandonJob_inForm, State.setStream_inForm, patchCards_inForm, State.setGraph_inForm]

theorem streamLost_inForm {s : State} {d n : Nat} (h : s.InForm) : (streamLost s d n).InForm :=
  ite_inForm (continueInstance_inForm (State.setStream_inForm h)) (dropStream_inForm (ite_inForm (cancelInstance_inForm (State.setStream_inForm h))
    h))

theorem raiseMoved_inForm {s : State} {moved : List Nat} (h : s.InForm) : (raiseMoved s moved).InForm :=
  foldl_inForm (fun _ _ hs => setLevel_inForm hs) h

theorem clearDie_inForm {s : State} {d : Nat} (h : s.InForm) : (clearDie s d).InForm := by
  unfold clearDie
  grind only [State.InForm, foldl_inForm, leaveAll_inForm, leaveSaved_inForm]

theorem declareLost_inForm {s : State} {d : Nat} (h : s.InForm) : (declareLost s d).InForm := by
  unfold declareLost
  grind only [foldl_inForm, State.updDie_inForm, setWin_inForm, signal_inForm, streamLost_inForm, cancelJob_inForm, clearDie_inForm,
      raiseMoved_inForm, shedDie_inForm]

@[simp] theorem execHeartbeat_inForm {die : Nat} {s : State} (h : s.InForm) : OutcomeInForm (execHeartbeat die s) :=
  runEvent_inForm (modify_keeps fun _ hs => ite_inForm hs (State.updDie_inForm hs)) h

@[simp] theorem execHeartbeatTimeout_inForm {die : Nat} {s : State} (h : s.InForm) : OutcomeInForm (execHeartbeatTimeout die s) :=
  runEvent_inForm (modify_keeps fun _ hs => ite_inForm (declareLost_inForm hs) hs) h

@[simp] theorem execDiePowerOff_inForm {die : Nat} {s : State} (h : s.InForm) : OutcomeInForm (execDiePowerOff die s) :=
  runEvent_inForm (modify_keeps fun _ hs => declareLost_inForm hs) h

end Sys2Proof.Machine
end

section
/-! PROOFS. The form of memory (R61 to R64, log entry 2): fetch, control, groups, memory, synchronisation and messages. -/

namespace Sys2Proof.Machine

theorem fetchBundle_keeps {c : Nat} : M.Keeps (fetchBundle c) :=
  get_bind_keeps fun _ _ => xlateT_keeps.bind fun _ => get_bind_keeps fun _ _ => trapM_keeps.whenever fun _ => readAt_keeps.bind fun _ =>
    pure_keeps

theorem serialFault_inForm {s t u : State} {c : Nat} (h : s.InForm) (e : serialFault s t c = some u) : u.InForm := by
  unfold serialFault at e
  split at e
  · dsimp only at e
    split at e
    · split at e
      · cases e
      · obtain ⟨r, _, rfl⟩ := Option.map_eq_some_iff.mp e
        exact takeTrap_inForm (unissue_inForm h)
    · cases e
  · cases e

theorem settle_inForm {s t : State} {c : Nat} (h : s.InForm) (ht : t.InForm) : (settle s t c).InForm := by
  unfold settle
  cases e : serialFault s t c with
  | none => exact ht
  | some u => exact serialFault_inForm h e

theorem leaveM_keeps {l : Leave} : M.Keeps (leaveM l) := modIss_keeps

@[simp] theorem execBr_inForm {b : BrArgs} {s : State} (h : s.InForm) : OutcomeInForm (execBr b s) :=
  runSyl_inForm (readReg_keeps.bind fun _ => getMe_keeps.bind fun _ => ite_keeps leaveM_keeps pure_keeps) h

@[simp] theorem execJmp_inForm {disp : BitVec 30} {s : State} (h : s.InForm) : OutcomeInForm (execJmp disp s) :=
  runSyl_inForm (getMe_keeps.bind fun _ => leaveM_keeps) h

theorem jumpReg_keeps {a : Src} : M.Keeps (jumpReg a) := readSrc_keeps.bind fun _ => check_keeps.bind fun _ => leaveM_keeps

@[simp] theorem execJr_inForm {a : Src} {s : State} (h : s.InForm) : OutcomeInForm (execJr a s) := runSyl_inForm jumpReg_keeps h

@[simp] theorem execRet_inForm {a : Src} {s : State} (h : s.InForm) : OutcomeInForm (execRet a s) := runSyl_inForm jumpReg_keeps h

@[simp] theorem execCall_inForm {a : Reg} {disp : BitVec 30} {s : State} (h : s.InForm) : OutcomeInForm (execCall a disp s) :=
  runSyl_inForm (getMe_keeps.bind fun _ => writeReg_keeps.bind fun _ => leaveM_keeps) h

@[simp] theorem execLoop_inForm {lc1 : Bool} {disp : BitVec 30} {s : State} (h : s.InForm) : OutcomeInForm (execLoop lc1 disp s) :=
  runSyl_inForm (getMe_keeps.bind fun _ => ite_keeps (sysWrite_keeps.bind fun _ => leaveM_keeps) sysWrite_keeps) h

@[simp] theorem execPpt_inForm {s : State} (h : s.InForm) : OutcomeInForm (execPpt s) := runSyl_inForm leaveM_keeps h

@[simp] theorem execStep_inForm {s : State} (h : s.InForm) : OutcomeInForm (execStep s) :=
  runSyl_inForm (getMe_keeps.bind fun _ => ite_keeps (leaveM_keeps.bind fun _ => markSync_keeps) (holdWith_keeps fun _ hs => State.updCtx_inForm hs))
    h

@[simp] theorem execTend_inForm {s : State} (h : s.InForm) : OutcomeInForm (execTend s) := runSyl_inForm leaveM_keeps h

@[simp] theorem execIdle_inForm {s : State} (h : s.InForm) : OutcomeInForm (execIdle s) := runSyl_inForm leaveM_keeps h

@[simp] theorem execTrap_inForm {code : BitVec 24} {s : State} (h : s.InForm) : OutcomeInForm (execTrap code s) := runSyl_inForm leaveM_keeps h

@[simp] theorem execTret_inForm {s : State} (h : s.InForm) : OutcomeInForm (execTret s) := runSyl_inForm (getMe_keeps.bind fun _ => leaveM_keeps) h

@[simp] theorem execRep_inForm {cnt : BitVec 6} {dstep astep bstep : BitVec 2} {s : State} (h : s.InForm) : OutcomeInForm (execRep
    cnt dstep astep bstep s) := runSyl_inForm pure_keeps h

@[simp] theorem execNop_inForm {s : State} (h : s.InForm) : OutcomeInForm (execNop s) := runSyl_inForm pure_keeps h

theorem haltCtx_inForm {s : State} {c : Nat} (h : s.InForm) : (haltCtx s c).InForm := by
  unfold haltCtx
  grind only [retireCtx_inForm, applyLates_inForm, freeUnits_inForm, State.updCtx_inForm]

@[simp] theorem execHaltBundle_inForm {s : State} (h : s.InForm) : OutcomeInForm (execHaltBundle s) := by
  intro t e
  unfold execHaltBundle at e
  grind [haltCtx_inForm]

@[simp] theorem execUnassignedEncoding_inForm {w : Syl} {s : State} (h : s.InForm) : OutcomeInForm (execUnassignedEncoding w s) := by
  intro t e
  cases e
  exact faultHere_inForm h

theorem groupM_keeps {g : GArgs} {write : Bool} : M.Keeps (groupM g write) :=
  objectM_keeps.bind fun ⟨_, _⟩ => paddockM_keeps.bind fun _ => quiesceM_keeps.bind fun _ => raceM_keeps.whenever fun _ => poisonM_keeps.bind fun
      _ => pure_keeps

theorem giveM_keeps {d : Reg} {k : Nat} {v : W64} : M.Keeps (giveM d k v) := myCore_keeps.bind fun _ => ite_keeps writeReg_keeps pendReg_keeps

theorem barrierUnless_keeps {ok : Bool} {v : W64} : M.Keeps (barrierUnless ok v) := check_keeps

theorem memberM_keeps {k : Nat} : M.Keeps (memberM k) :=
  get_bind_keeps fun _ hs => by split; exacts [trapM_keeps, barrierUnless_keeps.bind fun _ => pure_keeps]

theorem regroup_inForm {s : State} {k : Nat} {gen : BitVec 32} (h : s.InForm) : (regroup s k gen).InForm := mapWaits_inForm h

@[simp] theorem execGnew_inForm {d : Reg} {g : GArgs} {b : Src} {s : State} (h : s.InForm) : OutcomeInForm (execGnew d g b s) :=
  runSyl_inForm (readSrc_keeps.bind fun _ => barrierUnless_keeps.bind fun _ => groupM_keeps.bind fun _ => get_bind_keeps fun _ _ =>
    modify_bind_keeps (fun _ hs1 => regroup_inForm (writeGroup_inForm hs1)) fun _ => markSync_keeps.bind fun _ => giveM_keeps) h

@[simp] theorem execJoin_inForm {d : Reg} {g : GArgs} {s : State} (h : s.InForm) : OutcomeInForm (execJoin d g s) :=
  runSyl_inForm (groupM_keeps.bind fun _ => get_bind_keeps fun _ _ => barrierUnless_keeps.bind fun _ => barrierUnless_keeps.bind fun _ =>
    modify_bind_keeps (fun _ hs1 => writeGroup_inForm hs1) fun _ => modMe_keeps.bind fun _ => markSync_keeps.bind fun _ => giveM_keeps) h

@[simp] theorem execLeave_inForm {g : GArgs} {s : State} (h : s.InForm) : OutcomeInForm (execLeave g s) :=
  runSyl_inForm (groupM_keeps.bind fun _ => get_bind_keeps fun _ hs => by
      split
      · exact trapM_keeps
      · exact barrierUnless_keeps.bind fun _ => modify_bind_keeps (fun _ hs1 => leaveGroup_inForm hs1) fun _ => markSync_keeps
    ) h

@[simp] theorem execArrive_inForm {d : Reg} {g : GArgs} {s : State} (h : s.InForm) : OutcomeInForm (execArrive d g s) := by
  refine runSyl_inForm ?_ h
  grind only [M.Keeps.bind, get_bind_keeps, pure_keeps, modify_keeps, set_keeps, groupM_keeps, memberM_keeps, arriveAt_inForm, trapM_keeps,
      markSync_keeps, giveM_keeps]

theorem waitingOn_keeps {w : Wait} {k : Nat} {m : M Unit} (e : waitingOn w k = some m) : m.Keeps := by
  unfold waitingOn at e
  split at e
  all_goals grind only [waitM_keeps, markSync_keeps, trapM_keeps]

@[simp] theorem execBar_inForm {g : GArgs} {s : State} (h : s.InForm) : OutcomeInForm (execBar g s) := by
  refine runSyl_inForm (getMe_keeps.bind fun c => objectM_keeps.bind fun ⟨k0, _⟩ => ?_) h
  dsimp only
  split
  · next e => exact waitingOn_keeps e
  · refine groupM_keeps.bind fun _ => memberM_keeps.bind fun _ => get_bind_keeps fun s hs => ?_
    split
    · exact trapM_keeps
    · next e =>
      refine ite_keeps ((set_keeps (arriveAt_inForm hs e)).bind fun _ => markSync_keeps) (holdWith_keeps fun u hu => ?_)
      split
      · next e =>
        have ha := arriveAt_inForm hu e
        exact bumpRegion_inForm (State.setMe_inForm ha)
      · exact hu

@[simp] theorem execBwait_inForm {g : GArgs} {b : Src} {s : State} (h : s.InForm) : OutcomeInForm (execBwait g b s) := by
  refine runSyl_inForm (getMe_keeps.bind fun c => objectM_keeps.bind fun ⟨k0, _⟩ => ?_) h
  dsimp only
  split
  · next e => exact readSrc_keeps.bind fun _ => waitingOn_keeps e
  · exact groupM_keeps.bind fun _ => readSrc_keeps.bind fun _ => memberM_keeps.bind fun _ => ite_keeps (holdWith_keeps fun _ hs => State.setMe_inForm
        hs) markSync_keeps

@[simp] theorem execBarrierPhaseReady_inForm {ctx : Nat} {s : State} (h : s.InForm) : OutcomeInForm (execBarrierPhaseReady ctx s) :=
  runEvent_inForm (modify_keeps fun _ hs => State.updCtx_inForm hs) h

@[simp] theorem execLdl_inForm {w : BitVec 2} {n : Bool} {d : Reg} {a : Src} {off : BitVec 16} {s : State} (h : s.InForm) :
    OutcomeInForm (execLdl w n d a off
    s) := runSyl_inForm (readSrc_keeps.bind fun _ => check_keeps.bind fun _ => loadLocal_keeps.bind fun _ => writeReg_keeps) h

@[simp] theorem execStl_inForm {w : BitVec 2} {d a : Src} {off : BitVec 16} {s : State} (h : s.InForm) : OutcomeInForm (execStl w d a off s) :=
  runSyl_inForm (readSrc_keeps.bind fun _ => readSrc_keeps.bind fun _ => check_keeps.bind fun _ => storeLocal_keeps) h

theorem elementM_keeps {a : Src} {l : Nat} {rd wr : Bool} : M.Keeps (elementM a l rd wr) :=
  getEntry_keeps.bind fun _ => readCoords_keeps.bind fun _ => spaceM_keeps.bind fun _ => placeM_keeps.bind fun _ => pure_keeps

@[simp] theorem execLdg_inForm {n : Bool} {d : Reg} {a : Src} {l : BitVec 6} {s : State} (h : s.InForm) : OutcomeInForm (execLdg n d a l s) :=
  runSyl_inForm (elementM_keeps.bind fun ⟨_, _⟩ => get_bind_keeps fun _ _ => loadPlace_keeps.bind fun _ => ite_keeps writeReg_keeps pendReg_keeps) h

@[simp] theorem execStg_inForm {d a : Src} {l : BitVec 6} {s : State} (h : s.InForm) : OutcomeInForm (execStg d a l s) :=
  runSyl_inForm (elementM_keeps.bind fun ⟨_, _⟩ => readSrc_keeps.bind fun _ => get_bind_keeps fun _ _ => storePlace_keeps) h

@[simp] theorem execPref_inForm {a : Src} {l : BitVec 6} {s : State} (h : s.InForm) : OutcomeInForm (execPref a l s) :=
  runSyl_inForm (getEntry_keeps.bind fun _ => readCoords_keeps.bind fun _ => pure_keeps) h

theorem taggedLoc_keeps {m : MArgs} {rd wr : Bool} : M.Keeps (taggedLoc m rd wr) :=
  myCore_keeps.bind fun _ => by
      split
      · exact readReg_keeps.bind fun _ => check_keeps.bind fun _ => pure_keeps
      · exact getEntry_keeps.bind fun _ => readCoords_keeps.bind fun _ => spaceM_keeps.bind fun _ => placeM_keeps.bind fun _ => by
              split
              · exact check_keeps.bind fun _ => pure_keeps
              · exact trapM_keeps

theorem tagHold_keeps {k : Nat} {ste : Bool} : M.Keeps (tagHold k ste) := holdWith_keeps fun _ hs => ite_inForm hs hs

theorem tagDone_keeps : M.Keeps tagDone := modify_keeps fun _ hs => hs

@[simp] theorem execLdf_inForm {m : MArgs} {s : State} (h : s.InForm) : OutcomeInForm (execLdf m s) :=
  runSyl_inForm (taggedLoc_keeps.bind fun ⟨_, _, _, _⟩ => paddockM_keeps.bind fun _ => quiesceM_keeps.bind fun _ => myCore_keeps.bind fun _ =>
    get_bind_keeps fun _ _ => ite_keeps (raceM_keeps.whenever fun _ => poisonM_keeps.bind fun _ => get_bind_keeps fun _ _ => tagDone_keeps.bind
    fun _ => modify_bind_keeps (fun _ hs2 => setEmpty_inForm hs2) fun _ => markSync_keeps.bind fun _ => ite_keeps writeReg_keeps pendReg_keeps)
    (ite_keeps tagHold_keeps (poisonM_keeps.bind fun _ => await_keeps.bind fun _ => modMe_keeps.bind fun _ => modify_bind_keeps (fun _ hs1 => hs1)
    fun _ => markSync_keeps))) h

@[simp] theorem execSte_inForm {m : MArgs} {s : State} (h : s.InForm) : OutcomeInForm (execSte m s) :=
  runSyl_inForm (taggedLoc_keeps.bind fun ⟨_, _, _, _⟩ => readReg_keeps.bind fun _ => paddockM_keeps.bind fun _ => quiesceM_keeps.bind fun _ =>
    myCore_keeps.bind fun _ => get_bind_keeps fun _ _ => ite_keeps (raceM_keeps.whenever fun _ => tagDone_keeps.bind fun _ => modify_bind_keeps (fun
    _ hs1 => setFull_inForm (writeNat_inForm hs1)) fun _ => markSync_keeps) (ite_keeps tagHold_keeps (modify_bind_keeps (fun _ hs1 => hs1) fun _ =>
    markSync_keeps))) h

@[simp] theorem execLdpk_inForm {m : MArgs} {s : State} (h : s.InForm) : OutcomeInForm (execLdpk m s) :=
  runSyl_inForm (taggedLoc_keeps.bind fun ⟨_, _, _, _⟩ => loadPlace_keeps.bind fun _ => ite_keeps writeReg_keeps pendReg_keeps) h

@[simp] theorem execStf_inForm {m : MArgs} {s : State} (h : s.InForm) : OutcomeInForm (execStf m s) :=
  runSyl_inForm (taggedLoc_keeps.bind fun ⟨_, _, _, _⟩ => readReg_keeps.bind fun _ => storePlace_keeps.bind fun _ => modify_bind_keeps (fun _ hs =>
    setFull_inForm hs) fun _ => markSync_keeps) h

@[simp] theorem execTaggedWaitServed_inForm {ctx : Nat} {s : State} (h : s.InForm) : OutcomeInForm (execTaggedWaitServed ctx s) :=
  runEvent_inForm (get_bind_keeps fun _ hs => by
      split
      · exact pure_keeps
      · exact ite_keeps pure_keeps (modify_bind_keeps (fun _ hs1 => hs1) fun _ => ite_keeps (modify_keeps fun _ hs1 => setFull_inForm
            (writeNat_inForm hs1)) (modify_keeps fun _ hs1 => setEmpty_inForm (State.updCtx_inForm hs1)))
    ) h

@[simp] theorem execRemoteValueArrival_inForm {ctx r : Nat} {s : State} (h : s.InForm) : OutcomeInForm (execRemoteValueArrival ctx r s) :=
  runEvent_inForm (modify_keeps fun _ hs => ite_inForm (State.updCtx_inForm hs) hs) h

@[simp] theorem execFence_inForm {kind : BitVec 2} {scope : BitVec 3} {s : State} (h : s.InForm) : OutcomeInForm (execFence kind scope s) :=
  runSyl_inForm markSync_keeps h

theorem tlNamed_keeps {tl : BitVec 3} {remote : Bool} {a : Src} : M.Keeps (tlNamed tl remote a) :=
  get_bind_keeps fun _ hs => ite_keeps (readSrc_keeps.bind fun _ => limit_keeps.bind fun _ => by split; exacts [trapM_keeps, pure_keeps]) pure_keeps

@[simp] theorem execTlwait_inForm {t : TlArgs} {s : State} (h : s.InForm) : OutcomeInForm (execTlwait t s) :=
  runSyl_inForm (tlNamed_keeps.bind fun ⟨_, _⟩ => readSrc_keeps.bind fun _ => await_keeps.bind fun _ => markSync_keeps) h

@[simp] theorem execTlread_inForm {tl : BitVec 3} {d : Reg} {remote : Bool} {a : Src} {s : State} (h : s.InForm) :
    OutcomeInForm (execTlread tl d remote a s) := runSyl_inForm (tlNamed_keeps.bind fun ⟨_, _⟩ => ite_keeps pendReg_keeps writeReg_keeps) h

@[simp] theorem execTlmark_inForm {tl : BitVec 3} {d : Reg} {s : State} (h : s.InForm) : OutcomeInForm (execTlmark tl d s) :=
  runSyl_inForm (get_bind_keeps fun _ _ => modMe_keeps.bind fun _ => writeReg_keeps) h

@[simp] theorem execSend_inForm {d : Reg} {a b : Src} {n : BitVec 5} {s : State} (h : s.InForm) : OutcomeInForm (execSend d a b n s) := by
  refine runSyl_inForm (readSrc_keeps.bind fun _ => readSrc_keeps.bind fun _ => readReg_keeps.bind fun _ => limit_keeps.bind fun _ =>
    check_keeps.bind fun _ => check_keeps.bind fun _ => check_keeps.bind fun _ => get_bind_keeps fun s hs => ?_) h
  dsimp only
  split
  · exact trapM_keeps
  · exact check_keeps.bind fun _ => check_keeps.bind fun _ => myCore_keeps.bind fun _ => paddockM_keeps.bind fun _ => paddockM_keeps.bind fun _ =>
      quiesceM_keeps.bind fun _ => loadLocal_keeps.bind fun _ => await_keeps.bind fun _ => (modify_keeps fun _ hs => State.updCore_inForm hs).bind
          fun _ =>
      markSync_keeps

theorem enterArrival_inForm {s : State} {core : Nat} {a : Arrival} {t : State} (h : s.InForm) (e : enterArrival s core a = some t) : t.InForm := by
  unfold enterArrival at e
  grind only [freeRing_inForm, wakeCore_inForm, State.updCore_inForm]

theorem pullFlow_inForm {s : State} {flow core : Nat} {l : List (Nat × Arrival)} (h : s.InForm) : (pullFlow s flow core l).InForm := by
  induction l generalizing s with
  | nil => exact h
  | cons p t ih =>
    unfold pullFlow
    grind [enterArrival_inForm, State.setFlow_inForm]

theorem pullWaiting_inForm {s : State} {core : Nat} (h : s.InForm) : (pullWaiting s core).InForm :=
  foldl_inForm (fun _ _ hs => by split; exact pullFlow_inForm hs) h

@[simp] theorem execSendLanding_inForm {core : Nat} {s : State} (h : s.InForm) : OutcomeInForm (execSendLanding core s) := by
  refine runEvent_inForm ?_ h
  grind only [M.Keeps.bind, get_bind_keeps, pure_keeps, modify_keeps, set_keeps, wakeCore_inForm, State.updCore_inForm, clearPoison_inForm,
      writeBytes_inForm, enterArrival_inForm]

@[simp] theorem execHandlerStart_inForm {core : Nat} {s : State} (h : s.InForm) : OutcomeInForm (execHandlerStart core s) := by
  refine runEvent_inForm ?_ h
  grind only [M.Keeps.bind, get_bind_keeps, pure_keeps, modify_keeps, set_keeps, pullWaiting_inForm, State.updCore_inForm, wakeCore_inForm,
      charge_inForm, State.setCtx_inForm]

end Sys2Proof.Machine
end

section
/-! PROOFS. The form of memory (R61 to R64, log entry 2): power, privilege, preemption and the clock. -/

namespace Sys2Proof.Machine

@[simp] theorem execPacq_inForm {n : BitVec 6} {s : State} (h : s.InForm) : OutcomeInForm (execPacq n s) :=
  runSyl_inForm (getMe_keeps.bind fun _ => ite_keeps (modMe_keeps.bind fun _ => modify_keeps fun _ hs => ite_inForm (endOverdraw_inForm hs) hs)
    (holdWith_keeps fun _ hs => State.updDie_inForm (State.setMe_inForm hs))) h

@[simp] theorem execPrel_inForm {s : State} (h : s.InForm) : OutcomeInForm (execPrel s) :=
  runSyl_inForm (modify_keeps fun _ hs => endLevel_inForm hs) h

@[simp] theorem execPvote_inForm {vp : BitVec 3} {s : State} (h : s.InForm) : OutcomeInForm (execPvote vp s) :=
  runSyl_inForm (modify_keeps fun _ hs => State.updDie_inForm hs) h

@[simp] theorem execAprof_inForm {n : BitVec 4} {s : State} (h : s.InForm) : OutcomeInForm (execAprof n s) :=
  runSyl_inForm (get_bind_keeps fun _ _ => check_keeps.bind fun _ => lateM_keeps) h

theorem tlbiM_keeps {t : TlbiArgs} {byPart : Bool} {hit : Tlb → Nat → Nat → Bool} : M.Keeps (tlbiM t byPart hit) :=
  readSrc_keeps.bind fun _ => readSrc_keeps.bind fun _ => limit_keeps.whenever fun _ => modify_keeps fun _ hs => hs

@[simp] theorem execTlbiS1pg_inForm {t : TlbiArgs} {s : State} (h : s.InForm) : OutcomeInForm (execTlbiS1pg t s) := runSyl_inForm tlbiM_keeps h

@[simp] theorem execTlbiS1all_inForm {t : TlbiArgs} {s : State} (h : s.InForm) : OutcomeInForm (execTlbiS1all t s) := runSyl_inForm tlbiM_keeps h

@[simp] theorem execTlbiS2pg_inForm {t : TlbiArgs} {s : State} (h : s.InForm) : OutcomeInForm (execTlbiS2pg t s) := runSyl_inForm tlbiM_keeps h

@[simp] theorem execTlbiPart_inForm {t : TlbiArgs} {s : State} (h : s.InForm) : OutcomeInForm (execTlbiPart t s) := runSyl_inForm tlbiM_keeps h

@[simp] theorem execTlbiAll_inForm {t : TlbiArgs} {s : State} (h : s.InForm) : OutcomeInForm (execTlbiAll t s) := runSyl_inForm tlbiM_keeps h

@[simp] theorem execQuiesceHold_inForm {a : Src} {s : State} (h : s.InForm) : OutcomeInForm (execQuiesceHold a s) :=
  runSyl_inForm (readSrc_keeps.bind fun _ => limit_keeps.bind fun _ => get_bind_keeps fun _ hs => by
      split
      · exact await_keeps
      · exact ite_keeps (modify_keeps fun _ hs1 => State.updCore_inForm hs1) (holdWith_keeps fun _ hs1 => State.updCore_inForm hs1)
    ) h

@[simp] theorem execQuiesceRel_inForm {a : Src} {s : State} (h : s.InForm) : OutcomeInForm (execQuiesceRel a s) :=
  runSyl_inForm (readSrc_keeps.bind fun _ => limit_keeps.bind fun _ => modify_keeps fun _ hs => State.updCore_inForm hs) h

@[simp] theorem execPgrel_inForm {big : Bool} {d : Reg} {a : Src} {s : State} (h : s.InForm) : OutcomeInForm (execPgrel big d a s) :=
  runSyl_inForm (readSrc_keeps.bind fun _ => check_keeps.bind fun _ => get_bind_keeps fun _ _ => await_keeps.bind fun _ => modify_bind_keeps (fun _
    hs1 => hs1) fun _ => writeReg_keeps) h

theorem readImage_keeps {off : Nat} : M.Keeps (readImage off) := loadLocal_keeps.bind fun _ => pure_keeps

@[simp] theorem execCtxsave_inForm {d : Reg} {a b : Src} {s : State} (h : s.InForm) : OutcomeInForm (execCtxsave d a b s) := by
  refine runSyl_inForm (readSrc_keeps.bind fun _ => readSrc_keeps.bind fun _ => limit_keeps.bind fun _ => check_keeps.bind fun _ => getMe_keeps.bind
      fun _ =>
    get_bind_keeps fun s hs => ?_) h
  dsimp only
  split
  · split
    · exact (set_keeps (opaqueWords_inForm hs)).bind fun _ => storeLocal_keeps.bind fun _ => modify_bind_keeps (fun _ hs => hs) fun _ =>
          writeReg_keeps
    · exact writeReg_keeps
  · refine ite_keeps writeReg_keeps (ite_keeps writeReg_keeps ?_)
    split
    · exact writeReg_keeps
    · exact ite_keeps writeReg_keeps (ite_keeps (holdWith_keeps fun _ hs => wakeUnit_inForm (setUnit_inForm (State.setMe_inForm hs))) waitM_keeps)

@[simp] theorem execCtxload_inForm {d : Reg} {a b : Src} {s : State} (h : s.InForm) : OutcomeInForm (execCtxload d a b s) :=
  runSyl_inForm (readSrc_keeps.bind fun _ => readSrc_keeps.bind fun _ => check_keeps.bind fun _ => readImage_keeps.bind fun _ => get_bind_keeps fun _
    hs => ite_keeps (by split; exacts [(set_keeps (resumeUnit_inForm hs)).bind fun _ => writeReg_keeps, writeReg_keeps]) writeReg_keeps) h

theorem killSaved_inForm {s : State} {sv : SavedUnit} {n : Nat} (h : s.InForm) : (killSaved s sv n).InForm := by
  unfold killSaved
  grind only [State.InForm, foldl_inForm, State.setCtx_inForm, killCtx_inForm, retireCtx_inForm, dropHolds_inForm]

@[simp] theorem execCtxkill_inForm {d : Reg} {a : Src} {s : State} (h : s.InForm) : OutcomeInForm (execCtxkill d a s) := by
  refine runSyl_inForm ?_ h
  grind only [M.Keeps.bind, get_bind_keeps, pure_keeps, modify_keeps, set_keeps, readSrc_keeps, limit_keeps, writeReg_keeps, killCtx_inForm,
      killSaved_inForm]

theorem saveNow_inForm {s : State} {core lane : Nat} {u : UnitSt} {forced : Bool} (h : s.InForm) : (saveNow s core lane u forced).InForm := by
  unfold saveNow
  grind only [saveUnit_inForm, State.updCtx_inForm]

theorem goOn_inForm {s : State} {core lane : Nat} {u : UnitSt} (h : s.InForm) : (goOn s core lane u).InForm :=
  ite_inForm (nextRecord_inForm h) (foldl_inForm (fun _ _ hs => ite_inForm (State.updCtx_inForm hs) hs) h)

@[simp] theorem execPreemptionSave_inForm {ctx : Nat} {s : State} (h : s.InForm) : OutcomeInForm (execPreemptionSave ctx s) :=
  runEvent_inForm (modify_keeps fun _ hs => by split; exacts [hs, ite_inForm (goOn_inForm hs) (ite_inForm (saveNow_inForm hs) hs)]) h

@[simp] theorem execPreemptionRequest_inForm {victim job : Nat} {s : State} (h : s.InForm) : OutcomeInForm (execPreemptionRequest victim job s) :=
  runEvent_inForm (modify_keeps fun _ hs => ite_inForm hs (by split; exacts [hs, wakeUnit_inForm (setUnit_inForm hs)])) h

theorem forceUnit_inForm {s : State} {core lane : Nat} {u : UnitSt} (h : s.InForm) : (forceUnit s core lane u).InForm :=
  foldl_inForm (fun _ _ hs => State.updCtx_inForm hs) (foldl_inForm (fun _ _ hs1 => by split; exact failCmd_inForm hs1) (setUnit_inForm h))

theorem faultBefore_inForm {s : State} {c : Nat} {cause : BitVec 8} {v : W64} (h : s.InForm) : (faultBefore s c cause v).InForm :=
  State.updCtx_inForm (leavePoint_inForm h)

@[simp] theorem execWatchdogExpiry_inForm {ctx : Nat} {s : State} (h : s.InForm) : OutcomeInForm (execWatchdogExpiry ctx s) :=
  runEvent_inForm (modify_keeps fun _ hs => by
      split
      · exact hs
      · exact ite_inForm hs (ite_inForm (forceUnit_inForm (State.updCtx_inForm hs)) (faultBefore_inForm (State.updCtx_inForm hs)))
    ) h

@[simp] theorem execForcedPreemptionSave_inForm {ctx : Nat} {s : State} (h : s.InForm) : OutcomeInForm (execForcedPreemptionSave ctx s) :=
  runEvent_inForm (modify_keeps fun _ hs => by split; exacts [hs, ite_inForm (saveNow_inForm hs) hs]) h

@[simp] theorem execHandlerLimitExpiry_inForm {ctx : Nat} {s : State} (h : s.InForm) : OutcomeInForm (execHandlerLimitExpiry ctx s) :=
  runEvent_inForm (modify_keeps fun _ hs => ite_inForm hs (faultBefore_inForm (State.updCtx_inForm hs))) h

@[simp] theorem execWakeTimeReached_inForm {ctx : Nat} {s : State} (h : s.InForm) : OutcomeInForm (execWakeTimeReached ctx s) :=
  runEvent_inForm (modify_keeps fun _ hs => ite_inForm (State.setCtx_inForm hs) hs) h

@[simp] theorem execAsyncFaultDelivery_inForm {ctx : Nat} {s : State} (h : s.InForm) : OutcomeInForm (execAsyncFaultDelivery ctx s) :=
  runEvent_inForm (modify_keeps fun _ hs => ite_inForm (ite_inForm (deliverAsync_inForm hs) (by split; exacts [deliverMiss_inForm hs, hs])) hs) h

@[simp] theorem execCancelWaitTimeout_inForm {ctx : Nat} {s : State} (h : s.InForm) : OutcomeInForm (execCancelWaitTimeout ctx s) :=
  runEvent_inForm (modify_keeps fun _ hs => ite_inForm hs (by
      split
      · exact stopCancelled_inForm hs
      · exact stopCancelled_inForm hs
      · exact stopCancelled_inForm hs
      · exact stopCancelled_inForm hs
      · exact ite_inForm (stopCancelled_inForm hs) hs
      · exact hs
    )) h

theorem replayPass_inForm {s : State} {core : Nat} (h : s.InForm) : (replayPass s core).1.InForm := by
  unfold replayPass
  grind only [State.InForm, State.updCluster_inForm, State.setCluster_inForm, setWin_inForm]

theorem runPasses_inForm {s : State} {core : Nat} {c : Cmd} {n : Nat} (h : s.InForm) : (runPasses s core c n).1.InForm := by
  induction n generalizing s with
  | zero => exact h
  | succ n ih =>
    have hp := replayPass_inForm (core := core) h
    unfold runPasses
    split
    · split
      · next e => rw [e] at hp; exact hp
      · next e => rw [e] at hp; exact ih hp
    · exact h

@[simp] theorem execPowerWindowEstimate_inForm {core est : Nat} {s : State} (h : s.InForm) : OutcomeInForm (execPowerWindowEstimate core est s) :=
  runEvent_inForm (modify_keeps fun _ hs => ite_inForm hs (by split; exacts [hs, ite_inForm hs (faultBefore_inForm hs)])) h

@[simp] theorem execPacqGrant_inForm {ctx : Nat} {s : State} (h : s.InForm) : OutcomeInForm (execPacqGrant ctx s) :=
  runEvent_inForm (modify_keeps fun _ hs => by split; exacts [hs, ite_inForm hs (State.updCtx_inForm (State.updDie_inForm hs))]) h

@[simp] theorem execLevelRelease_inForm {ctx : Nat} {s : State} (h : s.InForm) : OutcomeInForm (execLevelRelease ctx s) :=
  runEvent_inForm (modify_keeps fun _ hs => ite_inForm (State.updCtx_inForm hs) hs) h

theorem settleRails_inForm {s : State} (h : s.InForm) : (settleRails s).InForm :=
  foldl_inForm (fun _ _ hs => ite_inForm hs (State.setDie_inForm (State.setDie_inForm hs))) h

@[simp] theorem execDeferredRailFall_inForm {die : Nat} {low : Bool} {s : State} (h : s.InForm) : OutcomeInForm (execDeferredRailFall die low s) :=
  runEvent_inForm (modify_keeps fun _ hs => ite_inForm hs (State.setDie_inForm hs)) h

theorem askMigrate_inForm {s : State} {core : Nat} {on : Bool} (h : s.InForm) : (askMigrate s core on).InForm :=
  ite_inForm (foldl_inForm (fun _ _ hs => by split; exacts [wakeUnit_inForm hs, hs]) (State.updCore_inForm h)) (State.updCore_inForm h)

@[simp] theorem execThermalSample_inForm {core temp : Nat} {s : State} (h : s.InForm) : OutcomeInForm (execThermalSample core temp s) :=
  runEvent_inForm (modify_keeps fun _ hs => ite_inForm hs (ite_inForm (declareLost_inForm (ite_inForm (shedDie_inForm (State.setCluster_inForm
    (ite_inForm (askMigrate_inForm (State.updCore_inForm hs)) (askMigrate_inForm (State.updCore_inForm hs))))) (State.setCluster_inForm (ite_inForm
    (askMigrate_inForm (State.updCore_inForm hs)) (askMigrate_inForm (State.updCore_inForm hs)))))) (ite_inForm (shedDie_inForm
    (State.setCluster_inForm (ite_inForm (askMigrate_inForm (State.updCore_inForm hs)) (askMigrate_inForm (State.updCore_inForm hs)))))
    (State.setCluster_inForm (ite_inForm (askMigrate_inForm (State.updCore_inForm hs)) (askMigrate_inForm (State.updCore_inForm hs))))))) h

theorem chargeAll_inForm {s : State} (h : s.InForm) : (chargeAll s).InForm := by
  unfold chargeAll
  grind only [foldl_inForm, charge_inForm]

theorem pushRecord_inForm {s : State} {w : List W64} (h : s.InForm) : (pushRecord s w).InForm := by
  unfold pushRecord
  grind only [devWriteWs_inForm, signal_inForm, setWin_inForm]

theorem endInterval_inForm {s : State} {die time : Nat} (h : s.InForm) : (endInterval s die time).InForm := by
  unfold endInterval
  grind only [State.InForm, foldl_inForm, pushRecord_inForm, State.setDie_inForm]

@[simp] theorem execTelemetryRecord_inForm {die : Nat} {s : State} (h : s.InForm) : OutcomeInForm (execTelemetryRecord die s) :=
  runEvent_inForm (modify_keeps fun _ hs => ite_inForm hs (endInterval_inForm hs)) h

theorem countError_inForm {s : State} {die : Nat} {fatal : Bool} (h : s.InForm) : (countError s die fatal).InForm :=
  ite_inForm (signal_inForm (setWin_inForm h)) (setWin_inForm h)

theorem poisonGranule_inForm {s : State} {g : Nat} (h : s.InForm) : (poisonGranule s g).InForm := by
  unfold poisonGranule
  split
  · exact h
  · exact ite_inForm h (countError_inForm h)

@[simp] theorem execPatrolScrub_inForm {granule : Nat} {s : State} (h : s.InForm) : OutcomeInForm (execPatrolScrub granule s) :=
  runEvent_inForm (modify_keeps fun _ hs => by split; exacts [hs, ite_inForm (countError_inForm hs) hs]) h

@[simp] theorem execSoftErrorEvent_inForm {key : Nat} {fatal : Bool} {s : State} (h : s.InForm) : OutcomeInForm (execSoftErrorEvent key fatal s) :=
  runEvent_inForm (modify_keeps fun _ hs => ite_inForm (ite_inForm (poisonGranule_inForm hs) (ite_inForm hs hs)) (by
      split
      · exact ite_inForm hs (faultBefore_inForm hs)
      · exact ite_inForm (State.updCore_inForm hs) hs
      · exact ite_inForm hs hs
      · exact ite_inForm (poisonGranule_inForm hs) hs
      · exact hs
    )) h

theorem stepClock_inForm {s : State} {n : Nat} (h : s.InForm) : (stepClock s n).InForm :=
  ite_inForm (foldl_inForm (fun _ _ hs => ite_inForm hs (endInterval_inForm hs)) h) h

theorem correctClock_inForm {s : State} {offset : Int} (h : s.InForm) : (correctClock s offset).InForm := ite_inForm (stepClock_inForm h) h

@[simp] theorem execClockCorrection_inForm {offset : Int} {s : State} (h : s.InForm) : OutcomeInForm (execClockCorrection offset s) :=
  runEvent_inForm (modify_keeps fun _ hs => correctClock_inForm hs) h

@[simp] theorem execFirstClockStep_inForm {offset : Int} {s : State} (h : s.InForm) : OutcomeInForm (execFirstClockStep offset s) :=
  runEvent_inForm (modify_keeps fun _ hs => ite_inForm hs (correctClock_inForm hs)) h

@[simp] theorem execSyncLoss_inForm {s : State} (h : s.InForm) : OutcomeInForm (execSyncLoss s) :=
  runEvent_inForm (modify_keeps fun _ hs => ite_inForm hs hs) h

theorem tickClock_inForm {s : State} {n : Nat} (h : s.InForm) : (tickClock s n).InForm := ite_inForm h (ite_inForm h h)

end Sys2Proof.Machine
end

section
/-! PROOFS. The form of memory (R61 to R64, log entry 2): the matrix unit and the copy engine. -/

namespace Sys2Proof.Machine

theorem mxOwner_keeps : M.Keeps mxOwner := get_bind_keeps fun _ _ => engine_keeps

theorem mxEnqueue_keeps {i : Instr} {e : EArgs} {vals : List W64} {ents : optParam (List Layout) []} : M.Keeps (mxEnqueue i e vals ents) :=
  get_bind_keeps fun _ hs => enqueue_keeps.bind fun _ => (modify_keeps fun _ hs1 => State.updJob_inForm hs1).whenever fun _ => modify_keeps fun _
      hs1 => by split; exacts [setUnit_inForm hs1, hs1]

theorem descEngine_keeps {p : W64 × W64} {rowsOk : Bool} : M.Keeps (descEngine p rowsOk) := engine_keeps.bind fun _ => engine_keeps

theorem descAligned_keeps {p : W64 × W64} : M.Keeps (descAligned p) := aligned_keeps

theorem descWithin_keeps {p : W64 × W64} {n len : Nat} : M.Keeps (descWithin p n len) := within_keeps

theorem descCheck_keeps {p : W64 × W64} {rowsOk : Bool} {n len : Nat} : M.Keeps (descCheck p rowsOk n len) :=
  descEngine_keeps.bind fun _ => descAligned_keeps.bind fun _ => descWithin_keeps

theorem offCheck_keeps {v : W64} {al n : Nat} : M.Keeps (offCheck v al n) := aligned_keeps.bind fun _ => within_keeps

@[simp] theorem execMcfg_inForm {e : EArgs} {s : State} (h : s.InForm) : OutcomeInForm (execMcfg e s) :=
  runSyl_inForm (mxOwner_keeps.bind fun _ => readReg_keeps.bind fun _ => offCheck_keeps.bind fun _ => mxEnqueue_keeps) h

@[simp] theorem execMcfgr_inForm {e : EArgs} {s : State} (h : s.InForm) : OutcomeInForm (execMcfgr e s) :=
  runSyl_inForm (mxOwner_keeps.bind fun _ => readReg_keeps.bind fun _ => mxEnqueue_keeps) h

@[simp] theorem execMgo_inForm {e : EArgs} {s : State} (h : s.InForm) : OutcomeInForm (execMgo e s) :=
  runSyl_inForm (mxOwner_keeps.bind fun _ => get_bind_keeps fun _ _ => mxEnqueue_keeps) h

@[simp] theorem execMma_inForm {e : EArgs} {s : State} (h : s.InForm) : OutcomeInForm (execMma e s) :=
  runSyl_inForm (mxOwner_keeps.bind fun _ => ite_keeps (readPair_keeps.bind fun _ => ite_keeps (readPair_keeps.bind fun _ => get_bind_keeps fun _
      _ => engine_keeps.bind fun _ => descEngine_keeps.whenever fun _ => descEngine_keeps.whenever fun _ => descAligned_keeps.whenever fun _ =>
    descAligned_keeps.whenever fun _ => descWithin_keeps.whenever fun _ => descWithin_keeps.whenever fun _ => mxEnqueue_keeps) (pure_keeps.bind fun
        _ => get_bind_keeps fun _ _ => engine_keeps.bind fun _ => descEngine_keeps.whenever fun _ => descEngine_keeps.whenever fun _ =>
    descAligned_keeps.whenever fun _ => descAligned_keeps.whenever fun _ => descWithin_keeps.whenever fun _ => descWithin_keeps.whenever fun _ =>
    mxEnqueue_keeps)) (pure_keeps.bind fun _ => ite_keeps (readPair_keeps.bind fun _ => get_bind_keeps fun _ _ => engine_keeps.bind fun _ =>
    descEngine_keeps.whenever fun _ => descEngine_keeps.whenever fun _ => descAligned_keeps.whenever fun _ => descAligned_keeps.whenever fun _ =>
    descWithin_keeps.whenever fun _ => descWithin_keeps.whenever fun _ => mxEnqueue_keeps) (pure_keeps.bind fun _ => get_bind_keeps fun _ _ =>
    engine_keeps.bind fun _ => descEngine_keeps.whenever fun _ => descEngine_keeps.whenever fun _ => descAligned_keeps.whenever fun _ =>
    descAligned_keeps.whenever fun _ => descWithin_keeps.whenever fun _ => descWithin_keeps.whenever fun _ => mxEnqueue_keeps))) h

@[simp] theorem execAcz_inForm {e : EArgs} {s : State} (h : s.InForm) : OutcomeInForm (execAcz e s) :=
  runSyl_inForm (mxOwner_keeps.bind fun _ => mxEnqueue_keeps) h

theorem acmvM_keeps {i : Instr} {e : EArgs} : M.Keeps (acmvM i e) :=
  mxOwner_keeps.bind fun _ => readReg_keeps.bind fun _ => offCheck_keeps.bind fun _ => mxEnqueue_keeps

@[simp] theorem execAcmvSt_inForm {e : EArgs} {s : State} (h : s.InForm) : OutcomeInForm (execAcmvSt e s) := runSyl_inForm acmvM_keeps h

@[simp] theorem execAcmvLd_inForm {e : EArgs} {s : State} (h : s.InForm) : OutcomeInForm (execAcmvLd e s) := runSyl_inForm acmvM_keeps h

theorem zMoveM_keeps {i : Instr} {e : EArgs} : M.Keeps (zMoveM i e) :=
  mxOwner_keeps.bind fun _ => readPair_keeps.bind fun _ => descCheck_keeps.bind fun _ => mxEnqueue_keeps

@[simp] theorem execZld_inForm {e : EArgs} {s : State} (h : s.InForm) : OutcomeInForm (execZld e s) := runSyl_inForm zMoveM_keeps h

@[simp] theorem execZst_inForm {e : EArgs} {s : State} (h : s.InForm) : OutcomeInForm (execZst e s) := runSyl_inForm zMoveM_keeps h

@[simp] theorem execZclrE_inForm {e : EArgs} {s : State} (h : s.InForm) : OutcomeInForm (execZclrE e s) :=
  runSyl_inForm (mxOwner_keeps.bind fun _ => mxEnqueue_keeps) h

@[simp] theorem execZclrZ_inForm {e : EArgs} {s : State} (h : s.InForm) : OutcomeInForm (execZclrZ e s) :=
  runSyl_inForm (mxOwner_keeps.bind fun _ => mxEnqueue_keeps) h

theorem rrotM_keeps {i : Instr} {e : EArgs} : M.Keeps (rrotM i e) :=
  mxOwner_keeps.bind fun _ => readReg_keeps.bind fun _ => readReg_keeps.bind fun _ => get_bind_keeps fun _ _ => engine_keeps.bind fun _ =>
    aligned_keeps.bind fun _ => aligned_keeps.bind fun _ => within_keeps.bind fun _ => within_keeps.bind fun _ => mxEnqueue_keeps

@[simp] theorem execRrotUp_inForm {e : EArgs} {s : State} (h : s.InForm) : OutcomeInForm (execRrotUp e s) := runSyl_inForm rrotM_keeps h

@[simp] theorem execRrotDn_inForm {e : EArgs} {s : State} (h : s.InForm) : OutcomeInForm (execRrotDn e s) := runSyl_inForm rrotM_keeps h

@[simp] theorem execMtab_inForm {e : EArgs} {s : State} (h : s.InForm) : OutcomeInForm (execMtab e s) :=
  runSyl_inForm (mxOwner_keeps.bind fun _ => readPair_keeps.bind fun _ => descCheck_keeps.bind fun _ => mxEnqueue_keeps) h

theorem readBox_keeps {v : W64} : M.Keeps (readBox v) :=
  aligned_keeps.bind fun _ => loadLocal_keeps.bind fun _ => getEntry_keeps.bind fun _ => pure_keeps

theorem failWith_keeps {c : BitVec 8} {v : Option W64} : M.Keeps (failWith c v) := by
  unfold failWith
  split
  · exact trapM_keeps
  · exact pure_keeps

theorem boxRights_keeps {b : Box} {rd wr : Bool} {spaces : Nat → Bool} : M.Keeps (boxRights b rd wr spaces) := check_keeps

theorem cpEnqueue_keeps {i : Instr} {e : EArgs} {q : Nat} {bs : List Box} {vals : List W64} {total : Nat} : M.Keeps (cpEnqueue i e q bs vals total) :=
  enqueue_keeps.bind fun _ => pure_keeps

theorem cpPlain_keeps {i : Instr} {e : EArgs} {q : Nat} {rd wr : Bool} {spaces : Nat → Bool} {more : Box → M Unit} (hm : ∀ b, (more b).Keeps) :
    M.Keeps (cpPlain i e q rd wr spaces more) :=
  readReg_keeps.bind fun _ => readReg_keeps.bind fun _ => readBox_keeps.bind fun _ => failWith_keeps.bind fun _ => failWith_keeps.bind fun _ =>
    boxRights_keeps.bind fun _ => (hm _).bind fun _ => failWith_keeps.bind fun _ => cpEnqueue_keeps

@[simp] theorem execCpin_inForm {e : EArgs} {s : State} (h : s.InForm) : OutcomeInForm (execCpin e s) := by
  refine runSyl_inForm ?_ h
  grind only [M.Keeps.bind, get_bind_keeps, pure_keeps, modify_keeps, set_keeps, cpPlain_keeps]

@[simp] theorem execCpout_inForm {e : EArgs} {s : State} (h : s.InForm) : OutcomeInForm (execCpout e s) := by
  refine runSyl_inForm ?_ h
  grind only [M.Keeps.bind, get_bind_keeps, pure_keeps, modify_keeps, set_keeps, cpPlain_keeps, within_keeps]

@[simp] theorem execCred_inForm {e : EArgs} {s : State} (h : s.InForm) : OutcomeInForm (execCred e s) := by
  refine runSyl_inForm ?_ h
  grind only [M.Keeps.bind, get_bind_keeps, pure_keeps, modify_keeps, set_keeps, cpPlain_keeps, check_keeps]

@[simp] theorem execCmirror_inForm {e : EArgs} {s : State} (h : s.InForm) : OutcomeInForm (execCmirror e s) := by
  refine runSyl_inForm ?_ h
  grind only [M.Keeps.bind, get_bind_keeps, pure_keeps, modify_keeps, set_keeps, cpPlain_keeps, check_keeps]

@[simp] theorem execCpref_inForm {e : EArgs} {s : State} (h : s.InForm) : OutcomeInForm (execCpref e s) :=
  runSyl_inForm (readReg_keeps.bind fun _ => readBox_keeps.bind fun _ => failWith_keeps.bind fun _ => failWith_keeps.bind fun _ =>
    boxRights_keeps.bind fun _ => failWith_keeps.bind fun _ => cpEnqueue_keeps) h

theorem cpIndexed_keeps {i : Instr} {e : EArgs} {q : Nat} {rd : Bool} : M.Keeps (cpIndexed i e q rd) :=
  readReg_keeps.bind fun _ => readReg_keeps.bind fun _ => engine_keeps.bind fun _ => readBox_keeps.bind fun _ => failWith_keeps.bind fun _ =>
    engine_keeps.bind fun _ => engine_keeps.bind fun _ => aligned_keeps.bind fun _ => failWith_keeps.bind fun _ => boxRights_keeps.bind fun _ =>
    within_keeps.bind fun _ => failWith_keeps.bind fun _ => cpEnqueue_keeps

@[simp] theorem execCgather_inForm {e : EArgs} {s : State} (h : s.InForm) : OutcomeInForm (execCgather e s) := runSyl_inForm cpIndexed_keeps h

@[simp] theorem execCscatter_inForm {e : EArgs} {s : State} (h : s.InForm) : OutcomeInForm (execCscatter e s) := runSyl_inForm cpIndexed_keeps h

@[simp] theorem execCfill_inForm {e : EArgs} {s : State} (h : s.InForm) : OutcomeInForm (execCfill e s) :=
  runSyl_inForm (readReg_keeps.bind fun _ => readReg_keeps.bind fun _ => readBox_keeps.bind fun _ => failWith_keeps.bind fun _ => engine_keeps.bind
    fun _ => engine_keeps.bind fun _ => failWith_keeps.bind fun _ => boxRights_keeps.bind fun _ => failWith_keeps.bind fun _ => cpEnqueue_keeps) h

@[simp] theorem execCpx_inForm {e : EArgs} {s : State} (h : s.InForm) : OutcomeInForm (execCpx e s) := by
  refine runSyl_inForm (readReg_keeps.bind fun _ => readReg_keeps.bind fun _ => readBox_keeps.bind fun _ => readBox_keeps.bind fun _ =>
    M.Keeps.bind (forIn_keeps fun b _ => ?_) fun _ => engine_keeps.bind fun _ => engine_keeps.bind fun _ => aligned_keeps.bind fun _ =>
        boxRights_keeps.bind fun _ =>
    boxRights_keeps.bind fun _ => failWith_keeps.bind fun _ => failWith_keeps.bind fun _ => cpEnqueue_keeps) h
  exact failWith_keeps.bind fun _ => engine_keeps.bind fun _ => engine_keeps.bind fun _ => engine_keeps.bind fun _ => pure_keeps

@[simp] theorem execCmsg_inForm {e : EArgs} {s : State} (h : s.InForm) : OutcomeInForm (execCmsg e s) :=
  runSyl_inForm (readReg_keeps.bind fun _ => readReg_keeps.bind fun _ => readReg_keeps.bind fun _ => engine_keeps.bind fun _ => engine_keeps.bind fun
    _ => aligned_keeps.bind fun _ => aligned_keeps.bind fun _ => aligned_keeps.bind fun _ => get_bind_keeps fun _ hs => by
      split
      · exact trapM_keeps
      · exact within_keeps.bind fun _ => within_keeps.bind fun _ => cpEnqueue_keeps
    ) h

theorem stepTile_inForm {s : State} {t : AccTile} {P : List (List Int)} {ea eb : List Nat} {base haze : Nat} (h : s.InForm) :
    (stepTile s t P ea eb base haze).1.InForm := by
  unfold stepTile
  grind only [State.InForm]

theorem updMx_inForm {s : State} {core : Nat} {f : Mx → Mx} (h : s.InForm) : (updMx s core f).InForm := State.updCore_inForm h

theorem storeBytes_inForm {s : State} {k : Nat} {l : List Byte} (h : s.InForm) : (storeBytes s k l).InForm := clearPoison_inForm (writeBytes_inForm h)

theorem writeRows_inForm {s : State} {r : Operand} {o : Int} {rows : List (List Byte)} (h : s.InForm) : (writeRows s r o rows).InForm :=
  foldl_inForm (fun _ _ hs => foldl_fst_inForm (fun _ _ hp => storeBytes_inForm hp) hs) h

theorem nestStep_inForm {s : State} {core on acc : Nat} {c : Cmd} {p : Plan} {k : Nat} (h : s.InForm) : (nestStep s core on acc c p k).1.InForm := by
  unfold nestStep
  extract_lets ix first again
  split
  · exact h
  · refine ite_fst_inForm h ?_
    have hr := runPasses_inForm (core := on) (c := c) (n := planesOf p.bf - dropOf p.bf (profPdrop (s.job c.job) (effProf c))) h
    generalize runPasses s on c _ = r at hr ⊢
    obtain ⟨t, bad⟩ := r
    dsimp only at hr ⊢
    refine ite_fst_inForm hr ?_
    refine ite_fst_inForm (updMx_inForm (stepTile_inForm ?_)) (ite_fst_inForm (writeRows_inForm (stepTile_inForm ?_)) (stepTile_inForm ?_))
    all_goals exact ite_fst_inForm hr (ite_fst_inForm hr (ite_fst_inForm (updMx_inForm hr) hr))

theorem nestRun_inForm {core on acc : Nat} {p : Plan} {n : Nat} {s : State} {c : Cmd} (h : s.InForm) : (nestRun core on acc p n s c).1.InForm := by
  induction n generalizing s c with
  | zero => exact h
  | succ n ih =>
    have hp := nestStep_inForm (core := core) (on := on) (acc := acc) (c := c) (p := p) (k := c.done) h
    unfold nestRun
    split
    · next e => rw [e] at hp; exact hp
    · next e => rw [e] at hp; exact ih hp

theorem openTask_inForm {s : State} {core : Nat} {c : Cmd} (h : s.InForm) : (openTask s core c).1.InForm := by
  unfold openTask
  grind only [State.InForm, updMx_inForm]

theorem arrayToken_inForm {s : State} {core : Nat} {t : State} (h : s.InForm) (e : arrayToken s core = some t) : t.InForm := by
  unfold arrayToken at e
  grind only [State.InForm, State.updCore_inForm, State.setDie_inForm]

/-- What a matrix command that runs or fails leaves is in form. -/
def EffectInForm : Except (State × BitVec 8 × W64) (State × W64) → Prop
  | .ok p => p.1.InForm
  | .error p => p.1.InForm

theorem mxEffect_inForm {s : State} {core on : Nat} {c : Cmd} (h : s.InForm) : EffectInForm (mxEffect s core on c) := by
  unfold mxEffect
  dsimp only
  split
  · exact updMx_inForm h
  · exact updMx_inForm h
  · exact updMx_inForm (show State.InForm { s with free := s.free + 1 } from h)
  · exact storeBytes_inForm h
  · exact updMx_inForm h
  · exact updMx_inForm h
  · exact ite_inForm (updMx_inForm (writeRows_inForm h)) (writeRows_inForm h)
  · exact updMx_inForm h
  · exact updMx_inForm h
  · exact updMx_inForm h
  · next e _ =>
    split
    · exact h
    · have hr := runPasses_inForm (core := on) (c := c) (n := planesOf (mmaFmt e) - dropOf (mmaFmt e) (profPdrop (s.job c.job) (effProf c))) h
      generalize runPasses s on c _ = r at hr ⊢
      obtain ⟨t, bad⟩ := r
      cases bad with
      | true => exact hr
      | false => exact ite_inForm (updMx_inForm (ite_inForm (updMx_inForm (updMx_inForm (stepTile_inForm hr))) (updMx_inForm (stepTile_inForm hr))))
                  (ite_inForm (updMx_inForm (updMx_inForm (stepTile_inForm hr))) (updMx_inForm (stepTile_inForm hr)))
  · exact h

/-- A failed nest leaves its array idle (R213). -/
theorem updArrayIdle_inForm {s : State} {on : Nat} (h : s.InForm) : (mxNest.updArrayIdle s on).InForm := h

theorem mxNest_inForm {s : State} {core on : Nat} {c : Cmd} {p : Plan} (h : s.InForm) : (mxNest s core on c p).InForm := by
  unfold mxNest
  extract_lets acc
  have hn := nestRun_inForm (core := core) (on := on) (acc := acc) (p := p) (n := p.steps - c.done) (c := c) h
  generalize nestRun core on acc p (p.steps - c.done) s c = r at hn ⊢
  obtain ⟨t, d, e⟩ := r
  cases e with
  | done => exact putCmd_inForm hn
  | stalled => exact putCmd_inForm hn
  | failed f v ix => exact failCmd_inForm (updArrayIdle_inForm (putCmd_inForm hn))

theorem takeConfig_inForm {s : State} {core : Nat} {c : Cmd} (h : s.InForm) : (takeConfig s core c).1.InForm := by
  unfold takeConfig
  split
  exacts [h, updMx_inForm h]

theorem mendTiles_inForm {s : State} {core : Nat} {c : Cmd} {w : List Nat} (h : s.InForm) : (mendTiles s core c w).InForm := by
  unfold mendTiles
  split
  · exact State.updCore_inForm h
  · exact State.updCore_inForm h
  · exact h

theorem mxStart_inForm {s : State} {core on : Nat} {c : Cmd} (h : s.InForm) : (mxStart s core on c).InForm := by
  have ho : ∀ s : State, s.InForm → ∀ c, (openTask s core c).1.InForm := fun s hs c => openTask_inForm hs
  have hfail : ∀ (b : Bool) (s : State) (d c : Cmd) f v, s.InForm →
      (failCmd (if b = true then mxNest.updArrayIdle (putCmd s core d) on else putCmd s core d) core c f v).InForm :=
    fun b s d c f v hs => failCmd_inForm (ite_inForm (updArrayIdle_inForm (putCmd_inForm hs)) (putCmd_inForm hs))
  unfold mxStart
  extract_lets s0 c0
  have h0 := ho s0 (State.updCore_inForm h) c0
  generalize openTask s0 core c0 = r at h0 ⊢
  obtain ⟨s1, c1⟩ := r
  refine ite_inForm (putCmd_inForm h0) ?_
  generalize touches (s1.core core).mx c1 = rw
  obtain ⟨rd, wr⟩ := rw
  dsimp -zeta only
  extract_lets c2
  cases badTile (s1.core core) c2 (rd ++ wr) with
  | some t => exact hfail _ _ _ _ _ _ h0
  | none =>
    dsimp only
    split
    · have ht := takeConfig_inForm (core := core) (c := c2) h0
      generalize takeConfig s1 core c2 = r at ht ⊢
      obtain ⟨s3, c3⟩ := r
      dsimp only
      split
      · exact failCmd_inForm (updArrayIdle_inForm (putCmd_inForm ht))
      · split
        · exact failCmd_inForm (updArrayIdle_inForm (putCmd_inForm ht))
        · exact mxNest_inForm (putCmd_inForm ht)
    · split
      · exact hfail _ _ _ _ _ _ h0
      · have he := mxEffect_inForm (core := core) (on := on) (c := { c2 with foot := mxFoot core (s1.core core).mx c2 none }) h0
        split
        · next e => rw [e] at he; exact hfail _ _ _ _ _ _ he
        · next e => 
          rw [e] at he
          exact mendTiles_inForm (putCmd_inForm he)

theorem mxResume_inForm {s : State} {core : Nat} {c : Cmd} (h : s.InForm) : (mxResume s core c).InForm := by
  unfold mxResume
  split
  · exact mxNest_inForm h
  · exact h

@[simp] theorem execMxCommandStart_inForm {core : Nat} {s : State} (h : s.InForm) : OutcomeInForm (execMxCommandStart core s) := by
  refine runEvent_inForm ?_ h
  grind only [M.Keeps.bind, get_bind_keeps, pure_keeps, modify_keeps, set_keeps, mxResume_inForm, arrayToken_inForm, mxStart_inForm]

theorem mxRelease_inForm {s : State} {core : Nat} {c : Cmd} (h : s.InForm) : (mxRelease s core c).InForm := by
  unfold mxRelease
  split
  · exact ite_inForm (by split; exacts [updMx_inForm h, h]) h
  · exact h

@[simp] theorem execMxCommandComplete_inForm {core tl : Nat} {s : State} (h : s.InForm) : OutcomeInForm (execMxCommandComplete core tl s) :=
  runEvent_inForm (modify_keeps fun _ hs => by
      split
      · exact hs
      · exact ite_inForm hs (ite_inForm (State.updCore_inForm (completeCmd_inForm (mxRelease_inForm hs))) (completeCmd_inForm (mxRelease_inForm hs)))
    ) h

@[simp] theorem execStartTokenRefill_inForm {die : Nat} {s : State} (h : s.InForm) : OutcomeInForm (execStartTokenRefill die s) :=
  runEvent_inForm (modify_keeps fun _ hs => State.updDie_inForm hs) h

@[simp] theorem execMgoRelocation_inForm {owner sibling : Nat} {s : State} (h : s.InForm) : OutcomeInForm (execMgoRelocation owner sibling s) := by
  refine runEvent_inForm ?_ h
  grind only [M.Keeps.bind, get_bind_keeps, pure_keeps, modify_keeps, set_keeps, arrayToken_inForm, mxStart_inForm]

@[simp] theorem execRrotCollectiveStart_inForm {cluster : Nat} {s : State} (h : s.InForm) : OutcomeInForm (execRrotCollectiveStart cluster s) := by
  refine runEvent_inForm (modify_keeps fun s hs => ?_) h
  extract_lets hs' args src dst
  cases hs' with
  | nil => exact hs
  | cons p t =>
  obtain ⟨x, y, c0⟩ := p
  dsimp -zeta only
  cases args c0 with
  | none => exact hs
  | some a =>
  obtain ⟨up, n⟩ := a
  dsimp -zeta only
  refine ite_inForm hs (ite_inForm (foldl_inForm (fun s p hs => failCmd_inForm (openTask_inForm ?_)) hs) ?_)
  · exact State.updCore_inForm (show State.InForm { s with free := s.free + 1 } from hs)
  · extract_lets foot own rs
    refine ite_inForm hs (ite_inForm (foldl_inForm (fun s p hs => ?_) hs) ?_)
    · split
      · exact failCmd_inForm (openTask_inForm (State.updCore_inForm hs))
      · exact hs
    · exact foldl_inForm (fun s p hs => putCmd_inForm (openTask_inForm (State.updCore_inForm hs)))
        (foldl_inForm (fun s p hs => storeBytes_inForm hs) hs)

theorem cmdXlate_keeps {q : XReq} : M.Keeps (cmdXlate q) :=
  get_bind_keeps fun _ hs => ite_keeps pure_keeps (ite_keeps ((set_keeps (dropFailed_inForm hs)).bind fun _ => pure_keeps) (by
      split
      · split
        exacts [modify_bind_keeps (fun _ hs1 => hs1) fun _ => pure_keeps, pure_keeps]
      · exact pure_keeps
      · exact modify_bind_keeps (fun _ hs1 => joinReq_inForm hs1) fun _ => pure_keeps))

theorem spotKey_keeps {c : Cmd} {p : Spot} : M.Keeps (spotKey c p) := by
  unfold spotKey
  split
  · exact pure_keeps
  · exact pure_keeps
  · exact pure_keeps
  · exact cmdXlate_keeps.bind fun _ => by
        split
        · exact pure_keeps
        · exact pure_keeps
        · exact get_bind_keeps fun _ hs => ite_keeps pure_keeps (ite_keeps pure_keeps pure_keeps)

theorem spotMirror_keeps {core : Nat} {p : Spot} : M.Keeps (spotMirror core p) := by
  unfold spotMirror
  split
  · exact get_bind_keeps fun _ hs => ite_keeps pure_keeps (cmdXlate_keeps.bind fun _ => by split <;> exact pure_keeps)
  · exact pure_keeps

theorem eltCheck_keeps {core : Nat} {c : Cmd} {j waiter : Nat} : M.Keeps (eltCheck core c j waiter) := by
  refine get_bind_keeps fun s _ => ?_
  dsimp only
  generalize cpRoles c.instr = rr
  split
  · exact pure_keeps
  · exact pure_keeps
  · exact pure_keeps
  · split
    · exact pure_keeps
    · exact pure_keeps
    · refine spotKey_keeps.bind fun r => ?_
      cases r with
      | error r => exact pure_keeps
      | ok ka =>
        refine (ite_keeps pure_keeps spotKey_keeps).bind fun r => ?_
        cases r with
        | error r => exact pure_keeps
        | ok kb =>
          refine spotMirror_keeps.bind fun r => ?_
          cases r with
          | error r => exact pure_keeps
          | ok km =>
            refine get_bind_keeps fun s _ => ?_
            split
            · exact pure_keeps
            · exact pure_keeps
            · exact pure_keeps

theorem putElt_inForm {s : State} {part : Nat} {p : EltPlan} {l : List Byte} {bad : Bool} (h : s.InForm) : (putElt s part p l bad).InForm := by
  unfold putElt
  grind only [State.InForm, foldl_inForm, writeBytes_inForm, taintSeqs_inForm]

theorem moveElt_inForm {s : State} {c : Cmd} {p : EltPlan} (h : s.InForm) : (moveElt s c p).1.InForm := by
  unfold moveElt
  grind only [State.InForm, putElt_inForm]

theorem moveElts_inForm {s : State} {c : Cmd} {ps : List EltPlan} (h : s.InForm) : (moveElts s c ps).1.InForm := by
  have hf : ∀ t : State, t.InForm → (ps.foldl (fun (a : State × W64) p => ((moveElt a.1 c p).1, a.2 ||| (moveElt a.1 c p).2)) (t, 0)).1.InForm :=
    fun t ht => foldl_fst_inForm (f := fun (a : State × W64) p => ((moveElt a.1 c p).1, a.2 ||| (moveElt a.1 c p).2))
      (fun _ _ hp => moveElt_inForm hp) ht
  have hc : ∀ l : List (Nat × Nat), (l.foldl (fun s (p : Nat × Nat) => clearPoison s p.1 p.2) s).InForm :=
    fun l => foldl_inForm (fun _ _ hs => clearPoison_inForm hs) h
  unfold moveElts
  extract_lets n red keys clean bads
  have hk : clean.InForm := ite_inForm h (hc _)
  have hp := hf { clean with poison := s.poison } hk
  exact ite_fst_inForm hp hp

@[simp] theorem execCopyCommandStart_inForm {core : Nat} {co : Bool} {s : State} (h : s.InForm) : OutcomeInForm (execCopyCommandStart core co s) := by
  refine runEvent_inForm ?_ h
  grind only [M.Keeps.bind, get_bind_keeps, pure_keeps, modify_keeps, set_keeps, State.updCore_inForm, putCmd_inForm, failCmd_inForm]

theorem cpFail_keeps {core : Nat} {c : Cmd} {pend : List Nat} {f : BitVec 8} {v : W64} : M.Keeps (cpFail core c pend f v) :=
  modify_keeps fun _ hs => failCmd_inForm hs

theorem sectorCheck_keeps {core : Nat} {c : Cmd} {l : List Nat} : M.Keeps (sectorCheck core c l) := by
  induction l with
  | nil => exact pure_keeps
  | cons j t ih =>
    refine eltCheck_keeps.bind fun r => ?_
    cases r with
    | ok p =>
      refine ih.bind fun l => ?_
      cases l
      exacts [pure_keeps, pure_keeps]
    | miss => exact pure_keeps
    | bad f v => exact pure_keeps

theorem cpWhole_keeps {core : Nat} {c : Cmd} : M.Keeps (cpWhole core c) := by
  unfold cpWhole
  grind only [State.InForm, M.Keeps.bind, get_bind_keeps, pure_keeps, modify_keeps, set_keeps, sectorCheck_keeps, putCmd_inForm, cpFail_keeps,
      moveElts_inForm, netPost_inForm]

theorem gatherRun_keeps {core : Nat} {l wait : List Nat} {c : Cmd} : M.Keeps (gatherRun core l wait c) := by
  induction l generalizing wait c with
  | nil => exact pure_keeps
  | cons b t ih =>
    refine eltCheck_keeps.bind fun r => ?_
    cases r with
    | ok p =>
      refine get_bind_keeps fun s hs => ?_
      have hm := moveElts_inForm (c := c) (ps := [p]) hs
      dsimp only
      generalize moveElts s c [p] = r at hm
      exact (set_keeps hm).bind fun _ => ih
    | miss => exact ih
    | bad f v => exact ih

theorem cpScattered_keeps {core : Nat} {c : Cmd} : M.Keeps (cpScattered core c) :=
  gatherRun_keeps.bind fun ⟨_, _⟩ => ite_keeps (modify_keeps fun _ hs => putCmd_inForm hs) (ite_keeps cpFail_keeps (modify_keeps fun _ hs =>
    putCmd_inForm hs))

theorem cpMessage_keeps {core : Nat} {c : Cmd} : M.Keeps (cpMessage core c) :=
  get_bind_keeps fun _ hs => by split; exacts [by split; exacts [cpFail_keeps, set_keeps (putCmd_inForm (storeBytes_inForm hs))], pure_keeps]

@[simp] theorem execCopySectorPerform_inForm {core : Nat} {co : Bool} {tl : Nat} {s : State} (h : s.InForm) :
    OutcomeInForm (execCopySectorPerform core co tl s) :=
  runEvent_inForm (get_bind_keeps fun _ hs => by
      split
      · exact pure_keeps
      · exact ite_keeps pure_keeps (by
              split
              · exact ite_keeps pure_keeps cpMessage_keeps
              · exact cpScattered_keeps
              · exact cpScattered_keeps
              · exact ite_keeps pure_keeps cpWhole_keeps)
    ) h

theorem cpRecord_inForm {s : State} {c : Cmd} (h : s.InForm) : (cpRecord s c).InForm := by
  unfold cpRecord
  split
  · exact State.updStream_inForm h
  · exact h

@[simp] theorem execCopyCommandComplete_inForm {core : Nat} {co : Bool} {s : State} (h : s.InForm) :
    OutcomeInForm (execCopyCommandComplete core co s) := by
  refine runEvent_inForm (modify_keeps fun s hs => ?_) h
  split
  · exact hs
  · refine ite_inForm hs (ite_inForm (completeCmd_inForm hs) ?_)
    dsimp only
    split
    · exact completeCmd_inForm (cpRecord_inForm hs)
    · split
      · exact hs
      · next e => exact completeCmd_inForm (enterArrival_inForm (cpRecord_inForm hs) e)

end Sys2Proof.Machine
end

section
/-! PROOFS. The form of memory (R61 to R64, log entry 2): flows, generation, sequences, layouts and pages. -/

namespace Sys2Proof.Machine

theorem applyFlow_inForm {s : State} {fn : Nat} (h : s.InForm) : (applyFlow s fn).InForm := by
  unfold applyFlow
  grind only [State.InForm, setWin_inForm, State.setFlow_inForm]

@[simp] theorem execFlowWrite_inForm {fn : Nat} {s : State} (h : s.InForm) : OutcomeInForm (execFlowWrite fn s) :=
  runEvent_inForm (modify_keeps fun _ hs => applyFlow_inForm hs) h

theorem takeSlot_inForm {s : State} {flow slot : Nat} (h : s.InForm) : (takeSlot s flow slot).InForm := State.setFlow_inForm h

@[simp] theorem execInboundStreamMessage_inForm {flow : Nat} {payload : List Byte} {s : State} (h : s.InForm) :
    OutcomeInForm (execInboundStreamMessage flow payload s) := by
  refine runEvent_inForm (modify_keeps fun s hs => ?_) h
  grind [devWriteBytes_inForm, State.setFlow_inForm, takeSlot_inForm, State.updStream_inForm, arrivalRelease_inForm]

@[simp] theorem execInboundCoreMessage_inForm {flow : Nat} {payload : List Byte} {s : State} (h : s.InForm) :
    OutcomeInForm (execInboundCoreMessage flow payload
    s) :=
  runEvent_inForm (modify_keeps fun _ hs => by
      split
      · exact hs
      · exact ite_inForm hs (pullFlow_inForm (State.setFlow_inForm (takeSlot_inForm (clearPoison_inForm (writeBytes_inForm hs)))))
    ) h

@[simp] theorem execPortDown_inForm {port : Nat} {s : State} (h : s.InForm) : OutcomeInForm (execPortDown port s) :=
  runEvent_inForm (modify_keeps fun _ hs => hs) h

@[simp] theorem execPortUp_inForm {port : Nat} {s : State} (h : s.InForm) : OutcomeInForm (execPortUp port s) :=
  runEvent_inForm (modify_keeps fun _ hs => ite_inForm hs hs) h

@[simp] theorem execPeerAcknowledgement_inForm {flow : Nat} {s : State} (h : s.InForm) : OutcomeInForm (execPeerAcknowledgement flow s) :=
  runEvent_inForm (modify_keeps fun _ hs => hs) h

theorem gxEnqueue_keeps {i : Instr} {e : EArgs} {ents : List Layout} {vals : List W64} : M.Keeps (gxEnqueue i e ents vals) :=
  enqueue_keeps.bind fun _ => pure_keeps

theorem handleTo_keeps {top : Nat} {v : W64} : M.Keeps (handleTo top v) := engine_keeps

theorem handleArg_keeps {v : W64} : M.Keeps (handleArg v) := handleTo_keeps

theorem localAligned_keeps {v : W64} {al : Nat} : M.Keeps (localAligned v al) := aligned_keeps

theorem localWithin_keeps {v : W64} {n : Nat} : M.Keeps (localWithin v n) := within_keeps

@[simp] theorem execCtrOpen_inForm {e : EArgs} {s : State} (h : s.InForm) : OutcomeInForm (execCtrOpen e s) :=
  runSyl_inForm (readReg_keeps.bind fun _ => readReg_keeps.bind fun _ => engine_keeps.bind fun _ => localAligned_keeps.bind fun _ =>
    localWithin_keeps.bind fun _ => getEntry_keeps.bind fun _ => gxEnqueue_keeps) h

@[simp] theorem execCtrClose_inForm {e : EArgs} {s : State} (h : s.InForm) : OutcomeInForm (execCtrClose e s) :=
  runSyl_inForm (readReg_keeps.bind fun _ => handleArg_keeps.bind fun _ => gxEnqueue_keeps) h

@[simp] theorem execCtrAppend_inForm {e : EArgs} {s : State} (h : s.InForm) : OutcomeInForm (execCtrAppend e s) :=
  runSyl_inForm (readReg_keeps.bind fun _ => readReg_keeps.bind fun _ => readReg_keeps.bind fun _ => handleArg_keeps.bind fun _ => engine_keeps.bind
    fun _ => localAligned_keeps.bind fun _ => localWithin_keeps.bind fun _ => gxEnqueue_keeps) h

@[simp] theorem execCtrProp_inForm {e : EArgs} {s : State} (h : s.InForm) : OutcomeInForm (execCtrProp e s) :=
  runSyl_inForm (readReg_keeps.bind fun _ => readReg_keeps.bind fun _ => readReg_keeps.bind fun _ => handleArg_keeps.bind fun _ => engine_keeps.bind
    fun _ => localAligned_keeps.bind fun _ => localWithin_keeps.bind fun _ => gxEnqueue_keeps) h

theorem gxImage_keeps {i : Instr} {e : EArgs} : M.Keeps (gxImage i e) :=
  readReg_keeps.bind fun _ => readReg_keeps.bind fun _ => readReg_keeps.bind fun _ => handleArg_keeps.bind fun _ => engine_keeps.bind fun _ =>
    localAligned_keeps.bind fun _ => localWithin_keeps.bind fun _ => getEntry_keeps.bind fun _ => gxEnqueue_keeps

@[simp] theorem execCtrSave_inForm {e : EArgs} {s : State} (h : s.InForm) : OutcomeInForm (execCtrSave e s) := runSyl_inForm gxImage_keeps h

@[simp] theorem execCtrLoad_inForm {e : EArgs} {s : State} (h : s.InForm) : OutcomeInForm (execCtrLoad e s) := runSyl_inForm gxImage_keeps h

@[simp] theorem execCtrTrim_inForm {e : EArgs} {s : State} (h : s.InForm) : OutcomeInForm (execCtrTrim e s) :=
  runSyl_inForm (readReg_keeps.bind fun _ => readReg_keeps.bind fun _ => handleArg_keeps.bind fun _ => engine_keeps.bind fun _ => gxEnqueue_keeps) h

theorem gxSample_keeps {i : Instr} {e : EArgs} : M.Keeps (gxSample i e) :=
  readReg_keeps.bind fun _ => readReg_keeps.bind fun _ => localAligned_keeps.bind fun _ => localAligned_keeps.bind fun _ => localWithin_keeps.bind
    fun _ => localWithin_keeps.bind fun _ => gxEnqueue_keeps

@[simp] theorem execSmpRun_inForm {e : EArgs} {s : State} (h : s.InForm) : OutcomeInForm (execSmpRun e s) := runSyl_inForm gxSample_keeps h

@[simp] theorem execSmpAccept_inForm {e : EArgs} {s : State} (h : s.InForm) : OutcomeInForm (execSmpAccept e s) := runSyl_inForm gxSample_keeps h

@[simp] theorem execKvtOpen_inForm {e : EArgs} {s : State} (h : s.InForm) : OutcomeInForm (execKvtOpen e s) :=
  runSyl_inForm (readReg_keeps.bind fun _ => readReg_keeps.bind fun _ => readReg_keeps.bind fun _ => handleArg_keeps.bind fun _ => engine_keeps.bind
    fun _ => localAligned_keeps.bind fun _ => localWithin_keeps.bind fun _ => gxEnqueue_keeps) h

@[simp] theorem execKvtCommit_inForm {e : EArgs} {s : State} (h : s.InForm) : OutcomeInForm (execKvtCommit e s) :=
  runSyl_inForm (readReg_keeps.bind fun _ => readReg_keeps.bind fun _ => readReg_keeps.bind fun _ => handleTo_keeps.bind fun _ => engine_keeps.bind
    fun _ => aligned_keeps.bind fun _ => localAligned_keeps.bind fun _ => within_keeps.bind fun _ => localWithin_keeps.bind fun _ => gxEnqueue_keeps)
    h

@[simp] theorem execKvtDrop_inForm {e : EArgs} {s : State} (h : s.InForm) : OutcomeInForm (execKvtDrop e s) :=
  runSyl_inForm (readReg_keeps.bind fun _ => handleTo_keeps.bind fun _ => gxEnqueue_keeps) h

theorem regionM_keeps {part va n : Nat} {wr : Bool} : M.Keeps (regionM part va n wr) :=
  get_bind_keeps fun _ hs => by split; exacts [trapM_keeps, trapM_keeps, check_keeps.bind fun _ => check_keeps.bind fun _ => pure_keeps]

theorem tokM_keeps {part : Nat} {q : Seq} {p : Nat} : M.Keeps (tokM part q p) := regionM_keeps.bind fun _ => readAt_keeps.bind fun _ => pure_keeps

theorem setTok_keeps {part : Nat} {q : Seq} {p v : Nat} : M.Keeps (setTok part q p v) :=
  regionM_keeps.bind fun _ => modify_keeps fun _ hs => writeNat_inForm hs

theorem toksM_keeps {part : Nat} {q : Seq} {p n : Nat} : M.Keeps (toksM part q p n) := by
  induction n generalizing p with
  | zero => exact pure_keeps
  | succ n ih => exact tokM_keeps.bind fun _ => ih.bind fun _ => pure_keeps

theorem idxM_keeps {part : Nat} {q : Seq} {i : Nat} : M.Keeps (idxM part q i) := regionM_keeps.bind fun _ => readAt_keeps.bind fun _ => pure_keeps

theorem setIdx_keeps {part : Nat} {q : Seq} {i : Nat} {v : W64} : M.Keeps (setIdx part q i v) :=
  regionM_keeps.bind fun _ => modify_keeps fun _ hs => writeNat_inForm hs

theorem idxsM_keeps {part : Nat} {q : Seq} {i n : Nat} : M.Keeps (idxsM part q i n) := by
  induction n generalizing i with
  | zero => exact pure_keeps
  | succ n ih => exact idxM_keeps.bind fun _ => ih.bind fun _ => pure_keeps

theorem insertM_keeps {part : Nat} {q : Seq} {p code : Nat} : M.Keeps (insertM part q p code) := by
  unfold insertM
  grind only [foldl_inForm, M.Keeps.bind, get_bind_keeps, pure_keeps, modify_keeps, set_keeps, toksM_keeps, idxsM_keeps, setIdx_keeps]

theorem appendTok_keeps {part : Nat} {q : Seq} {v : Nat} : M.Keeps (appendTok part q v) := by
  unfold appendTok
  grind only [forIn_keeps, M.Keeps.bind, get_bind_keeps, pure_keeps, modify_keeps, set_keeps, setTok_keeps, insertM_keeps]

theorem candidatesM_keeps {part : Nat} {q : Seq} : M.Keeps (candidatesM part q) := by
  unfold candidatesM
  grind only [forIn_keeps, M.Keeps.bind, get_bind_keeps, pure_keeps, modify_keeps, set_keeps, toksM_keeps, idxsM_keeps]

theorem chooseBranches_keeps {part : Nat} {q : Seq} {nbr : Nat} {l got : List (Nat × Nat)} {firsts : List Nat} :
    M.Keeps (chooseBranches part q nbr l got firsts) := by
  induction l generalizing got firsts with
  | nil => exact pure_keeps
  | cons p t ih => exact ite_keeps pure_keeps (tokM_keeps.bind fun _ => ite_keeps ih ih)

theorem proposeM_keeps {part : Nat} {q : Seq} {kx nbr : Nat} : M.Keeps (proposeM part q kx nbr) := by
  unfold proposeM
  grind only [forIn_keeps, M.Keeps.bind, get_bind_keeps, pure_keeps, modify_keeps, set_keeps, freeBytes_keeps, candidatesM_keeps, toksM_keeps,
      chooseBranches_keeps]

theorem trimM_keeps {part : Nat} {q : Seq} {len : Nat} : M.Keeps (trimM part q len) := by
  unfold trimM
  grind only [forIn_keeps, M.Keeps.bind, get_bind_keeps, pure_keeps, modify_keeps, set_keeps, idxM_keeps, setIdx_keeps]

theorem saveImage_keeps {part : Nat} {q : Seq} : M.Keeps (saveImage part q) :=
  ite_keeps (freeBytes_keeps.bind fun _ => pure_keeps) (toksM_keeps.bind fun _ => idxsM_keeps.bind fun _ => pure_keeps)

theorem loadImage_keeps {part : Nat} {q : Seq} {b : List Byte} : M.Keeps (loadImage part q b) := by
  unfold loadImage
  grind only [forIn_keeps, M.Keeps.bind, get_bind_keeps, pure_keeps, modify_keeps, set_keeps, setTok_keeps, setIdx_keeps]

theorem resultWord_keeps {core off value status : Nat} : M.Keeps (resultWord core off value status) :=
  modify_keeps fun _ hs => writeNat_inForm hs

theorem vmRuns_keeps {core : Nat} {c : Cmd} {e : Layout} {wr mirror : Bool} {fuel va n : Nat} : M.Keeps (vmRuns core c e wr mirror fuel va n) := by
  induction fuel generalizing va n with
  | zero => exact pure_keeps
  | succ fuel ih =>
    refine ite_keeps pure_keeps (get_bind_keeps fun s _ => xlateM_keeps.bind fun r => ?_)
    cases r with
    | error f => exact trapM_keeps
    | ok k => exact get_bind_keeps fun _ _ => check_keeps.bind fun _ => ih.bind fun _ => pure_keeps

theorem vmRead_keeps {core : Nat} {c : Cmd} {e : Layout} {n : Nat} : M.Keeps (vmRead core c e n) := by
  unfold vmRead
  grind only [mapM_keeps, M.Keeps.bind, get_bind_keeps, pure_keeps, modify_keeps, set_keeps, vmRuns_keeps, check_keeps, readAt_keeps]

theorem runWrite_inForm {s : State} {rs : List (Option Nat × Nat)} {l : List Byte} (h : s.InForm) : (runWrite s rs l).InForm := by
  refine foldl_fst_inForm (fun p r hp => ?_) h
  dsimp only
  split
  exacts [storeBytes_inForm hp, hp]

theorem vmWrite_keeps {core : Nat} {c : Cmd} {e : Layout} {l : List Byte} : M.Keeps (vmWrite core c e l) :=
  vmRuns_keeps.bind fun _ => get_bind_keeps fun _ _ => ite_keeps (vmRuns_keeps.bind fun _ => modify_keeps fun _ hs1 => taintSeqs_inForm
    (runWrite_inForm (runWrite_inForm hs1))) (pure_keeps.bind fun _ => modify_keeps fun _ hs1 => taintSeqs_inForm (runWrite_inForm (runWrite_inForm
    hs1)))

theorem zeroRegion_keeps {part fuel va n : Nat} : M.Keeps (zeroRegion part fuel va n) := by
  induction fuel generalizing va n with
  | zero => exact pure_keeps
  | succ fuel ih =>
    refine ite_keeps pure_keeps (regionM_keeps.bind fun k => modify_bind_keeps (fun s hs => clearPoison_inForm ?_) fun _ => ih)
    exact mapWf_filter _ _ _ hs

theorem ctrOpenM_keeps {core : Nat} {c : Cmd} : M.Keeps (ctrOpenM core c) :=
  check_keeps.bind fun _ => vmRead_keeps.bind fun _ => get_bind_keeps fun _ hs => ite_keeps resultWord_keeps (by
      split
      · exact resultWord_keeps
      · exact zeroRegion_keeps.bind fun _ => modify_bind_keeps (fun _ hs1 => State.setSeq_inForm hs1) fun _ => resultWord_keeps)

theorem commitPages_keeps {core : Nat} {c : Cmd} {part : Nat} {q : Seq} {l : List (Nat × Nat)} : M.Keeps (commitPages core c part q l) := by
  induction l with
  | nil => exact pure_keeps
  | cons p t ih =>
    refine get_bind_keeps fun s _ => ?_
    dsimp only
    split
    · have one : ∀ q va, M.Keeps (do
          match ← xlateM q with
          | .error f => trapM f (w64 va)
          | .ok k =>
            let s ← get
            check (!lostKey s k) cPoison (w64 (va - va % 64))
            return k) := fun q va => xlateM_keeps.bind fun r => by
        cases r with
        | error f => exact trapM_keeps
        | ok k => exact get_bind_keeps fun _ _ => check_keeps.bind fun _ => pure_keeps
      exact (one _ _).bind fun _ => (one _ _).bind fun _ => ih.bind fun _ => pure_keeps
    · exact trapM_keeps

theorem commitCopy_inForm {s : State} {n : Nat} {p : Nat × Nat} (h : s.InForm) : (commitCopy s n p).InForm := storeBytes_inForm h

theorem commitM_keeps {core : Nat} {c : Cmd} {q : Seq} : M.Keeps (commitM core c q) := by
  refine get_bind_keeps fun s _ => ?_
  dsimp only
  split
  · exact resultWord_keeps
  · exact ite_keeps resultWord_keeps (check_keeps.bind fun _ => ite_keeps resultWord_keeps (commitPages_keeps.bind fun _ =>
      modify_bind_keeps (fun _ hs => foldl_inForm (fun _ _ hs => commitCopy_inForm hs) hs) fun _ =>
      modify_bind_keeps (fun _ hs => State.setSeq_inForm (devStore_inForm (looseSlots_inForm hs))) fun _ => resultWord_keeps))

theorem gxBody_keeps {core : Nat} {c : Cmd} : M.Keeps (gxBody core c) := by
  have hput : ∀ q, M.Keeps (modify (fun s => s.setSeq (handleDie (gxHandle c)) (handleSlot (gxHandle c)) q) : M PUnit) :=
    fun q => modify_keeps fun _ hs => State.setSeq_inForm hs
  have hret : ∀ {m : M PUnit}, m.Keeps → M.Keeps (do m; pure [] : M (List W64)) := fun hm => hm.bind fun _ => pure_keeps
  unfold gxBody
  split
  · exact hret ctrOpenM_keeps
  · refine get_bind_keeps fun s _ => check_keeps.bind fun _ => ?_
    dsimp only
    split
    · exact hret (modify_keeps fun _ hs => closeSeq_inForm hs)
    · exact check_keeps.bind fun _ => check_keeps.bind fun _ => (foldlM_keeps fun _ _ => appendTok_keeps).bind fun _ => hret (hput _)
    · exact proposeM_keeps.bind fun _ => modify_bind_keeps (fun _ hs => foldl_inForm (fun _ _ hs => storeBytes_inForm hs) hs) fun _ => pure_keeps
    · exact trimM_keeps.bind fun _ => hret (hput _)
    · exact check_keeps.bind fun _ => saveImage_keeps.bind fun _ => vmWrite_keeps.bind fun _ => hret resultWord_keeps
    · refine check_keeps.bind fun _ => check_keeps.bind fun _ => vmRead_keeps.bind fun _ => ?_
      split
      · exact hret resultWord_keeps
      · refine check_keeps.bind fun _ => vmRead_keeps.bind fun _ => loadImage_keeps.bind fun r => ?_
        cases r with
        | none => exact hret resultWord_keeps
        | some q => exact (hput _).bind fun _ => hret resultWord_keeps
    · exact ite_keeps (hret resultWord_keeps) (ite_keeps (hret resultWord_keeps) (modify_bind_keeps (fun _ hs => looseSlots_inForm hs) fun _ =>
        (hput _).bind fun _ => hret resultWord_keeps))
    · exact hret commitM_keeps
    · split
      · exact M.Keeps.whenever (modify_bind_keeps (fun _ hs => looseSlots_inForm hs) fun _ => hput _) fun _ => pure_keeps
      · exact pure_keeps
    · exact pure_keeps

theorem gxStart_keeps {core : Nat} {c : Cmd} {poison : Bool} {foot : List Foot} {body : M (List W64 × List Foot)} (hb : body.Keeps) :
    M.Keeps (gxStart core c poison foot body) := by
  intro s hs
  have hk := hb s hs
  have hf : ∀ c f v, (failCmd (dropFailed s (gxWaiter core c)) core c f v).InForm := fun _ _ _ => failCmd_inForm (dropFailed_inForm hs)
  unfold gxStart
  dsimp only
  repeat' split
  case _ => exact hf ..
  case _ => exact hf ..
  case _ => exact hf ..
  case _ e => rw [e] at hk; exact putCmd_inForm (hk s hs)
  case _ => trivial
  case _ => exact hf ..
  case _ => exact hf ..
  case _ e => rw [e] at hk; exact putCmd_inForm hk
  case _ => exact hf ..
  case _ => exact hs

@[simp] theorem execGxCommandStart_inForm {core : Nat} {s : State} (h : s.InForm) : OutcomeInForm (execGxCommandStart core s) := by
  refine runEvent_inForm (fun s hs => ?_) h
  dsimp only
  split
  · split
    · exact putCmd_inForm hs
    · split
      · exact hs
      · split
        · exact hs
        · exact gxStart_keeps (gxBody_keeps.bind fun _ => pure_keeps) _ hs
  · exact hs

@[simp] theorem execGxCommandComplete_inForm {core : Nat} {s : State} (h : s.InForm) : OutcomeInForm (execGxCommandComplete core s) :=
  runEvent_inForm (modify_keeps fun _ hs => by
      split
      · exact hs
      · exact ite_inForm (completeCmd_inForm hs) (ite_inForm hs (completeCmd_inForm (ite_inForm hs (State.updCtx_inForm hs))))
    ) h

@[simp] theorem execLview_inForm {d a : BitVec 6} {b : Src} {s : State} (h : s.InForm) : OutcomeInForm (execLview d a b s) := by
  refine runSyl_inForm ?_ h
  grind only [M.Keeps.bind, get_bind_keeps, pure_keeps, modify_keeps, set_keeps, readSrc_keeps, check_keeps, loadLocal_keeps, trapM_keeps,
      lateM_keeps]

@[simp] theorem execLget_inForm {d : Reg} {a : BitVec 6} {w : BitVec 3} {s : State} (h : s.InForm) : OutcomeInForm (execLget d a w s) :=
  runSyl_inForm (getEntry_keeps.bind fun _ => writeReg_keeps) h

theorem failReqs_inForm {s : State} {p : PageReq → Bool} (h : s.InForm) : (failReqs s p).InForm := h

@[simp] theorem execPageRequestWrite_inForm {part : Nat} {s : State} (h : s.InForm) : OutcomeInForm (execPageRequestWrite part s) := by
  refine runEvent_inForm ?_ h
  grind only [State.InForm, M.Keeps.bind, get_bind_keeps, pure_keeps, modify_keeps, set_keeps, devWriteWs_inForm, failReqs_inForm, writeNat_inForm,
      signal_inForm]

@[simp] theorem execPageReplyRead_inForm {part : Nat} {s : State} (h : s.InForm) : OutcomeInForm (execPageReplyRead part s) := by
  refine runEvent_inForm ?_ h
  grind only [State.InForm, M.Keeps.bind, get_bind_keeps, pure_keeps, modify_keeps, set_keeps, writeNat_inForm, failReqs_inForm]

@[simp] theorem execPageRequestTimeout_inForm {part rid : Nat} {s : State} (h : s.InForm) : OutcomeInForm (execPageRequestTimeout part rid s) :=
  runEvent_inForm (modify_keeps fun _ hs => failReqs_inForm hs) h

@[simp] theorem execQuiescenceAdvance_inForm {s : State} (h : s.InForm) : OutcomeInForm (execQuiescenceAdvance s) :=
  runEvent_inForm (modify_keeps fun _ hs => ite_inForm hs hs) h

@[simp] theorem execQuiescenceWordWrite_inForm {s : State} (h : s.InForm) : OutcomeInForm (execQuiescenceWordWrite s) :=
  runEvent_inForm (modify_keeps fun _ hs => ite_inForm (devStore_inForm hs) hs) h

@[simp] theorem execQuarantineLeave_inForm {s : State} (h : s.InForm) : OutcomeInForm (execQuarantineLeave s) := by
  refine runEvent_inForm (modify_keeps fun s hs => ?_) h
  split
  · exact hs
  · refine ite_inForm hs ?_
    dsimp only
    split
    · exact hs
    · next e =>
      have hw := devWriteWs_inForm hs e
      exact signal_inForm (setWin_inForm hw)

end Sys2Proof.Machine
end

section
/-! PROOFS. The form of memory (R61 to R64, log entry 2): the vector unit, the sampler and the scalar instructions. -/

namespace Sys2Proof.Machine

theorem limsM_keeps {l : Lims} : M.Keeps (limsM l) := by
  unfold limsM
  grind only [forIn_keeps, M.Keeps.bind, get_bind_keeps, pure_keeps, modify_keeps, set_keeps, engine_keeps, aligned_keeps, within_keeps]

theorem vRead_keeps {u : VUse} {r : Reg} : M.Keeps (vRead u r) := ite_keeps pure_keeps readReg_keeps

theorem vEnqueue_keeps {i : Instr} {v : VArgs} {f : VForm} : M.Keeps (vEnqueue i v f) :=
  vRead_keeps.bind fun _ => vRead_keeps.bind fun _ => vRead_keeps.bind fun _ => ite_keeps (readReg_keeps.bind fun _ => ite_keeps (pure_keeps.bind fun
    _ => limsM_keeps.bind fun _ => enqueue_keeps) (readReg_keeps.bind fun _ => limsM_keeps.bind fun _ => enqueue_keeps)) (pure_keeps.bind fun _ =>
    ite_keeps (pure_keeps.bind fun _ => limsM_keeps.bind fun _ => enqueue_keeps) (readReg_keeps.bind fun _ => limsM_keeps.bind fun _ =>
    enqueue_keeps))

theorem vM_keeps {i : Instr} {v : VArgs} {f : VForm} : M.Keeps (vM i v f) := vEnqueue_keeps.bind fun _ => pure_keeps

@[simp] theorem execVadd_inForm {v : VArgs} {s : State} (h : s.InForm) : OutcomeInForm (execVadd v s) := runSyl_inForm vM_keeps h

@[simp] theorem execVsub_inForm {v : VArgs} {s : State} (h : s.InForm) : OutcomeInForm (execVsub v s) := runSyl_inForm vM_keeps h

@[simp] theorem execVmul_inForm {v : VArgs} {s : State} (h : s.InForm) : OutcomeInForm (execVmul v s) := runSyl_inForm vM_keeps h

@[simp] theorem execVfma_inForm {v : VArgs} {s : State} (h : s.InForm) : OutcomeInForm (execVfma v s) := runSyl_inForm vM_keeps h

@[simp] theorem execVdiv_inForm {v : VArgs} {s : State} (h : s.InForm) : OutcomeInForm (execVdiv v s) := runSyl_inForm vM_keeps h

@[simp] theorem execVsqrt_inForm {v : VArgs} {s : State} (h : s.InForm) : OutcomeInForm (execVsqrt v s) := runSyl_inForm vM_keeps h

@[simp] theorem execVrsqrt_inForm {v : VArgs} {s : State} (h : s.InForm) : OutcomeInForm (execVrsqrt v s) := runSyl_inForm vM_keeps h

@[simp] theorem execVmin_inForm {v : VArgs} {s : State} (h : s.InForm) : OutcomeInForm (execVmin v s) := runSyl_inForm vM_keeps h

@[simp] theorem execVmax_inForm {v : VArgs} {s : State} (h : s.InForm) : OutcomeInForm (execVmax v s) := runSyl_inForm vM_keeps h

@[simp] theorem execVabs_inForm {v : VArgs} {s : State} (h : s.InForm) : OutcomeInForm (execVabs v s) := runSyl_inForm vM_keeps h

@[simp] theorem execVneg_inForm {v : VArgs} {s : State} (h : s.InForm) : OutcomeInForm (execVneg v s) := runSyl_inForm vM_keeps h

@[simp] theorem execVand_inForm {v : VArgs} {s : State} (h : s.InForm) : OutcomeInForm (execVand v s) := runSyl_inForm vM_keeps h

@[simp] theorem execVor_inForm {v : VArgs} {s : State} (h : s.InForm) : OutcomeInForm (execVor v s) := runSyl_inForm vM_keeps h

@[simp] theorem execVxor_inForm {v : VArgs} {s : State} (h : s.InForm) : OutcomeInForm (execVxor v s) := runSyl_inForm vM_keeps h

@[simp] theorem execVshl_inForm {v : VArgs} {s : State} (h : s.InForm) : OutcomeInForm (execVshl v s) := runSyl_inForm vM_keeps h

@[simp] theorem execVshr_inForm {v : VArgs} {s : State} (h : s.InForm) : OutcomeInForm (execVshr v s) := runSyl_inForm vM_keeps h

@[simp] theorem execVsra_inForm {v : VArgs} {s : State} (h : s.InForm) : OutcomeInForm (execVsra v s) := runSyl_inForm vM_keeps h

@[simp] theorem execVcmp_inForm {v : VArgs} {s : State} (h : s.InForm) : OutcomeInForm (execVcmp v s) := runSyl_inForm vM_keeps h

@[simp] theorem execVsel_inForm {v : VArgs} {s : State} (h : s.InForm) : OutcomeInForm (execVsel v s) := runSyl_inForm vM_keeps h

@[simp] theorem execVcvt_inForm {v : VArgs} {s : State} (h : s.InForm) : OutcomeInForm (execVcvt v s) := runSyl_inForm vM_keeps h

@[simp] theorem execVsadd_inForm {v : VArgs} {s : State} (h : s.InForm) : OutcomeInForm (execVsadd v s) := runSyl_inForm vM_keeps h

@[simp] theorem execVssub_inForm {v : VArgs} {s : State} (h : s.InForm) : OutcomeInForm (execVssub v s) := runSyl_inForm vM_keeps h

@[simp] theorem execVsmul_inForm {v : VArgs} {s : State} (h : s.InForm) : OutcomeInForm (execVsmul v s) := runSyl_inForm vM_keeps h

@[simp] theorem execVsdiv_inForm {v : VArgs} {s : State} (h : s.InForm) : OutcomeInForm (execVsdiv v s) := runSyl_inForm vM_keeps h

@[simp] theorem execVsexp_inForm {v : VArgs} {s : State} (h : s.InForm) : OutcomeInForm (execVsexp v s) := runSyl_inForm vM_keeps h

@[simp] theorem execVslog_inForm {v : VArgs} {s : State} (h : s.InForm) : OutcomeInForm (execVslog v s) := runSyl_inForm vM_keeps h

@[simp] theorem execVred_inForm {v : VArgs} {s : State} (h : s.InForm) : OutcomeInForm (execVred v s) := runSyl_inForm vM_keeps h

@[simp] theorem execVscan_inForm {v : VArgs} {s : State} (h : s.InForm) : OutcomeInForm (execVscan v s) := runSyl_inForm vM_keeps h

@[simp] theorem execVperm_inForm {v : VArgs} {s : State} (h : s.InForm) : OutcomeInForm (execVperm v s) := runSyl_inForm vM_keeps h

@[simp] theorem execVshuf_inForm {v : VArgs} {s : State} (h : s.InForm) : OutcomeInForm (execVshuf v s) := runSyl_inForm vM_keeps h

@[simp] theorem execVbcast_inForm {v : VArgs} {s : State} (h : s.InForm) : OutcomeInForm (execVbcast v s) := runSyl_inForm vM_keeps h

@[simp] theorem execVepi_inForm {v : VArgs} {s : State} (h : s.InForm) : OutcomeInForm (execVepi v s) :=
  runSyl_inForm (mxOwner_keeps.bind fun _ => vM_keeps) h

@[simp] theorem execVfn_inForm {v : VArgs} {s : State} (h : s.InForm) : OutcomeInForm (execVfn v s) := runSyl_inForm vM_keeps h

@[simp] theorem execVtab_inForm {v : VArgs} {s : State} (h : s.InForm) : OutcomeInForm (execVtab v s) := runSyl_inForm vM_keeps h

@[simp] theorem execVfill_inForm {v : VArgs} {s : State} (h : s.InForm) : OutcomeInForm (execVfill v s) := runSyl_inForm vM_keeps h

@[simp] theorem execVmov_inForm {v : VArgs} {s : State} (h : s.InForm) : OutcomeInForm (execVmov v s) := runSyl_inForm vM_keeps h

@[simp] theorem execVsts_inForm {v : VArgs} {s : State} (h : s.InForm) : OutcomeInForm (execVsts v s) := runSyl_inForm vM_keeps h

@[simp] theorem execVlds_inForm {v : VArgs} {s : State} (h : s.InForm) : OutcomeInForm (execVlds v s) :=
  runSyl_inForm (getMe_keeps.bind fun _ => by
      split
      · exact (get_bind_keeps fun _ hs => pure_keeps).bind fun _ => await_keeps
      · exact (get_bind_keeps fun _ hs => pure_keeps).bind fun _ => await_keeps.bind fun _ => writeReg_keeps
      · exact vEnqueue_keeps.bind fun _ => modMe_keeps.bind fun _ => modIss_keeps.bind fun _ => holdM_keeps
    ) h

theorem vWrite_inForm {s : State} {core : Nat} {d : VDo} (h : s.InForm) : (vWrite s core d).InForm := by
  unfold vWrite
  split
  · exact State.updCore_inForm (foldl_inForm (fun _ _ hs => by split; exact writeNat_inForm hs) h)
  · exact foldl_inForm (fun _ _ hs => by split; exact writeNat_inForm hs) h

theorem vStart_inForm {s : State} {core : Nat} {c : Cmd} (h : s.InForm) : (vStart s core c).InForm := by
  unfold vStart
  grind only [State.InForm, State.updCore_inForm, putCmd_inForm, failCmd_inForm, vWrite_inForm]

@[simp] theorem execVxCommandStart_inForm {core : Nat} {s : State} (h : s.InForm) : OutcomeInForm (execVxCommandStart core s) :=
  runEvent_inForm (modify_keeps fun _ hs => by split; exacts [hs, ite_inForm (vStart_inForm hs) hs]) h

theorem vldsDeliver_inForm {s : State} {c : Cmd} (h : s.InForm) : (vldsDeliver s c).InForm := by
  unfold vldsDeliver
  split
  · exact State.updCtx_inForm h
  · exact h

@[simp] theorem execVxCommandComplete_inForm {core : Nat} {s : State} (h : s.InForm) : OutcomeInForm (execVxCommandComplete core s) :=
  runEvent_inForm (modify_keeps fun _ hs => by
      split
      · exact hs
      · exact ite_inForm hs (completeCmd_inForm (vldsDeliver_inForm (by split; exacts [ite_inForm (updMx_inForm hs) hs, hs])))
    ) h

theorem spanM_keeps {off n : Nat} : M.Keeps (spanM off n) := check_keeps

theorem joinM_keeps {r : SmpReq} {o n : Nat} : M.Keeps (joinM r o n) :=
  get_bind_keeps fun _ hs => by split; exacts [trapM_keeps, trapM_keeps, trapM_keeps, pure_keeps]

theorem stageM_keeps {r : SmpReq} {j prev : Nat} : M.Keeps (stageM r j prev) :=
  spanM_keeps.bind fun _ => joinM_keeps.bind fun _ => get_bind_keeps fun _ _ => check_keeps.bind fun _ => spanM_keeps.bind fun _ => ite_keeps
    (pure_keeps.bind fun _ => pure_keeps) (joinM_keeps.bind fun _ => pure_keeps)

theorem biasM_keeps {r : SmpReq} {b : Stage} {ls : List Nat} {k : Nat} : M.Keeps (biasM r b ls k) :=
  get_bind_keeps fun _ _ => check_keeps.bind fun _ => pure_keeps

theorem penaltyM_keeps {r : SmpReq} {b : Stage} {extra ls : List Nat} : M.Keeps (penaltyM r b extra ls) :=
  get_bind_keeps fun _ _ => pure_keeps

theorem stagesM_keeps {r : SmpReq} {extra : List Nat} {fuel j prev : Nat} {ls : List Nat} {alive : List Bool} {k : Option Kept} {fs : List Foot} :
    M.Keeps (stagesM r extra fuel j prev ls alive k fs) := by
  induction fuel generalizing j prev ls alive k fs with
  | zero => exact pure_keeps
  | succ fuel ih =>
    refine stageM_keeps.bind fun ⟨b, f⟩ => ?_
    dsimp only
    split
    · exact ih
    · exact (foldlM_keeps fun _ _ => biasM_keeps).bind fun _ => ih
    · exact get_bind_keeps fun _ _ => ih
    · exact penaltyM_keeps.bind fun _ => ih
    · exact ite_keeps pure_keeps ih
    · exact ite_keeps pure_keeps pure_keeps

theorem rowM_keeps {r : SmpReq} {row : Nat} {extra : List Nat} : M.Keeps (rowM r row extra) :=
  spanM_keeps.bind fun _ => get_bind_keeps fun _ _ => stagesM_keeps

theorem smpRunM_keeps {r : SmpReq} : M.Keeps (smpRunM r) := rowM_keeps.bind fun _ => by split; exacts [pure_keeps, by split; exact pure_keeps]

theorem acceptM_keeps {r : SmpReq} {fuel : Nat} {a : Accept} : M.Keeps (acceptM r fuel a) := by
  induction fuel generalizing a with
  | zero => exact pure_keeps
  | succ fuel ih =>
    refine rowM_keeps.bind fun ⟨k, fs⟩ => ?_
    dsimp only
    split
    · exact pure_keeps
    · refine get_bind_keeps fun s _ => ?_
      split
      · exact ih
      · exact ite_keeps pure_keeps pure_keeps

theorem smpAcceptM_keeps {r : SmpReq} : M.Keeps (smpAcceptM r) := by
  unfold smpAcceptM
  grind only [forIn_keeps, M.Keeps.bind, get_bind_keeps, pure_keeps, modify_keeps, set_keeps, spanM_keeps, check_keeps, acceptM_keeps]

theorem smpBody_keeps {core : Nat} {c : Cmd} : M.Keeps (smpBody core c) := by
  unfold smpBody
  grind only [forIn_keeps, foldl_inForm, M.Keeps.bind, get_bind_keeps, pure_keeps, modify_keeps, set_keeps, check_keeps, spanM_keeps,
      storeBytes_inForm, smpAcceptM_keeps, smpRunM_keeps]

@[simp] theorem execSamplerTake_inForm {cluster : Nat} {s : State} (h : s.InForm) : OutcomeInForm (execSamplerTake cluster s) := by
  refine runEvent_inForm (fun s hs => ?_) h
  dsimp only
  split
  · exact hs
  · exact gxStart_keeps smpBody_keeps _ (State.updCluster_inForm hs)

theorem scalar2_keeps {r : RArgs} {f : W64 → W64 → W64} : M.Keeps (scalar2 r f) := readOps_keeps.bind fun ⟨_, _⟩ => writeReg_keeps

theorem scalar3_keeps {r : RArgs} {f : W64 → W64 → W64 → W64} : M.Keeps (scalar3 r f) :=
  readOps_keeps.bind fun ⟨_, _⟩ => readReg_keeps.bind fun _ => writeReg_keeps

theorem scalar1_keeps {u : UArgs} {f : W64 → W64} : M.Keeps (scalar1 u f) := readReg_keeps.bind fun _ => writeReg_keeps

@[simp] theorem execAdd_inForm {r : RArgs} {s : State} (h : s.InForm) : OutcomeInForm (execAdd r s) := runSyl_inForm scalar2_keeps h

@[simp] theorem execSub_inForm {r : RArgs} {s : State} (h : s.InForm) : OutcomeInForm (execSub r s) := runSyl_inForm scalar2_keeps h

@[simp] theorem execMul_inForm {r : RArgs} {s : State} (h : s.InForm) : OutcomeInForm (execMul r s) := runSyl_inForm scalar2_keeps h

@[simp] theorem execMulh_inForm {n : Bool} {r : RArgs} {s : State} (h : s.InForm) : OutcomeInForm (execMulh n r s) := runSyl_inForm scalar2_keeps h

@[simp] theorem execDiv_inForm {n : Bool} {r : RArgs} {s : State} (h : s.InForm) : OutcomeInForm (execDiv n r s) :=
  runSyl_inForm (readOps_keeps.bind fun ⟨_, _⟩ => trapM_keeps.whenever fun _ => trapM_keeps.whenever fun _ => pendReg_keeps) h

@[simp] theorem execRem_inForm {n : Bool} {r : RArgs} {s : State} (h : s.InForm) : OutcomeInForm (execRem n r s) :=
  runSyl_inForm (readOps_keeps.bind fun ⟨_, _⟩ => trapM_keeps.whenever fun _ => pendReg_keeps) h

@[simp] theorem execMadd_inForm {r : RArgs} {s : State} (h : s.InForm) : OutcomeInForm (execMadd r s) := runSyl_inForm scalar3_keeps h

@[simp] theorem execAnd_inForm {r : RArgs} {s : State} (h : s.InForm) : OutcomeInForm (execAnd r s) := runSyl_inForm scalar2_keeps h

@[simp] theorem execOr_inForm {r : RArgs} {s : State} (h : s.InForm) : OutcomeInForm (execOr r s) := runSyl_inForm scalar2_keeps h

@[simp] theorem execXor_inForm {r : RArgs} {s : State} (h : s.InForm) : OutcomeInForm (execXor r s) := runSyl_inForm scalar2_keeps h

@[simp] theorem execAndn_inForm {r : RArgs} {s : State} (h : s.InForm) : OutcomeInForm (execAndn r s) := runSyl_inForm scalar2_keeps h

@[simp] theorem execOrn_inForm {r : RArgs} {s : State} (h : s.InForm) : OutcomeInForm (execOrn r s) := runSyl_inForm scalar2_keeps h

@[simp] theorem execShl_inForm {r : RArgs} {s : State} (h : s.InForm) : OutcomeInForm (execShl r s) := runSyl_inForm scalar2_keeps h

@[simp] theorem execShr_inForm {r : RArgs} {s : State} (h : s.InForm) : OutcomeInForm (execShr r s) := runSyl_inForm scalar2_keeps h

@[simp] theorem execSra_inForm {r : RArgs} {s : State} (h : s.InForm) : OutcomeInForm (execSra r s) := runSyl_inForm scalar2_keeps h

@[simp] theorem execRot_inForm {r : RArgs} {s : State} (h : s.InForm) : OutcomeInForm (execRot r s) := runSyl_inForm scalar2_keeps h

@[simp] theorem execMin_inForm {n : Bool} {r : RArgs} {s : State} (h : s.InForm) : OutcomeInForm (execMin n r s) := runSyl_inForm scalar2_keeps h

@[simp] theorem execMax_inForm {n : Bool} {r : RArgs} {s : State} (h : s.InForm) : OutcomeInForm (execMax n r s) := runSyl_inForm scalar2_keeps h

@[simp] theorem execAbs_inForm {u : UArgs} {s : State} (h : s.InForm) : OutcomeInForm (execAbs u s) := runSyl_inForm scalar1_keeps h

@[simp] theorem execClz_inForm {u : UArgs} {s : State} (h : s.InForm) : OutcomeInForm (execClz u s) := runSyl_inForm scalar1_keeps h

@[simp] theorem execCtz_inForm {u : UArgs} {s : State} (h : s.InForm) : OutcomeInForm (execCtz u s) := runSyl_inForm scalar1_keeps h

@[simp] theorem execPopc_inForm {u : UArgs} {s : State} (h : s.InForm) : OutcomeInForm (execPopc u s) := runSyl_inForm scalar1_keeps h

@[simp] theorem execBfx_inForm {n : Bool} {f : FArgs} {s : State} (h : s.InForm) : OutcomeInForm (execBfx n f s) := runSyl_inForm scalar1_keeps h

@[simp] theorem execBfi_inForm {f : FArgs} {s : State} (h : s.InForm) : OutcomeInForm (execBfi f s) :=
  runSyl_inForm (readReg_keeps.bind fun _ => readReg_keeps.bind fun _ => writeReg_keeps) h

@[simp] theorem execSel_inForm {r : RArgs} {s : State} (h : s.InForm) : OutcomeInForm (execSel r s) := runSyl_inForm scalar3_keeps h

@[simp] theorem execCmp_inForm {c : BitVec 3} {r : RArgs} {s : State} (h : s.InForm) : OutcomeInForm (execCmp c r s) := runSyl_inForm scalar2_keeps h

@[simp] theorem execMovi_inForm {d : Reg} {i : MovImm} {s : State} (h : s.InForm) : OutcomeInForm (execMovi d i s) := runSyl_inForm writeReg_keeps h

@[simp] theorem execMovh_inForm {d : Reg} {i : BitVec 24} {s : State} (h : s.InForm) : OutcomeInForm (execMovh d i s) :=
  runSyl_inForm (readReg_keeps.bind fun _ => writeReg_keeps) h

@[simp] theorem execLea_inForm {sh : BitVec 2} {r : RArgs} {s : State} (h : s.InForm) : OutcomeInForm (execLea sh r s) :=
  runSyl_inForm scalar2_keeps h

end Sys2Proof.Machine
end

section
/-! PROOFS. The form of memory (R61 to R64, log entry 2): security, the system registers and the passing of time. -/

namespace Sys2Proof.Machine

theorem askReport_inForm {s : State} {fn abuf : Nat} (h : s.InForm) : (askReport s fn abuf).InForm := by
  have hw : (setWin s fn 0x300 (w64 abuf)).InForm := setWin_inForm h
  unfold askReport
  split
  · exact h
  · exact ite_inForm (setWin_inForm hw) (show (setWin _ fn 0x308 1).InForm from setWin_inForm hw)

@[simp] theorem execAttestationRequest_inForm {fn : Nat} {abuf : W64} {s : State} (h : s.InForm) : OutcomeInForm (execAttestationRequest fn abuf s) :=
  runEvent_inForm (modify_keeps fun _ hs => askReport_inForm hs) h

@[simp] theorem execAttestationDone_inForm {fn : Nat} {s : State} (h : s.InForm) : OutcomeInForm (execAttestationDone fn s) := by
  refine runEvent_inForm (modify_keeps fun s hs => ?_) h
  split
  · exact hs
  · next a _ =>
    have hf : ({ s with attn := s.attn.filter fun p => p.1 != fn } : State).InForm := hs
    dsimp only
    repeat' split
    · exact setWin_inForm hf
    · exact setWin_inForm hf
    · next e => exact signal_inForm (setWin_inForm (devWriteBytes_inForm hf e))

theorem writePf_inForm {s : State} {off : Nat} {v : W64} (h : s.InForm) : (writePf s off v).InForm :=
  ite_inForm (setWin_inForm h) (ite_inForm (setWin_inForm h) (ite_inForm (setWin_inForm h) (ite_inForm (setWin_inForm h) (ite_inForm (ite_inForm h
    (setWin_inForm h)) (ite_inForm (setWin_inForm h) (ite_inForm (setWin_inForm h) (ite_inForm (setWin_inForm h) h)))))))

theorem writeWindow_inForm {s : State} {fn off : Nat} {v : W64} (h : s.InForm) : (writeWindow s fn off v).InForm :=
  ite_inForm h (ite_inForm (ite_inForm (ringBell_inForm h) (ite_inForm h (ite_inForm (createQueue_inForm h) (destroyQueue_inForm (setWin_inForm
    h))))) (ite_inForm (ite_inForm (applyFlow_inForm (setWin_inForm h)) (setWin_inForm h)) (ite_inForm (setWin_inForm h) (ite_inForm (ite_inForm
    (askReport_inForm h) (setWin_inForm h)) (ite_inForm (writePf_inForm h) h)))))

@[simp] theorem execRegisterWrite_inForm {fn off : Nat} {v : W64} {s : State} (h : s.InForm) : OutcomeInForm (execRegisterWrite fn off v s) :=
  runEvent_inForm (modify_keeps fun _ hs => writeWindow_inForm hs) h

@[simp] theorem execBar2Access_inForm {fn addr : Nat} {write : Bool} {data : List Byte} {s : State} (h : s.InForm) :
    OutcomeInForm (execBar2Access fn addr write data s) := by
  refine runEvent_inForm (modify_keeps fun s hs => ?_) h
  split
  · exact getD_inForm hs fun t e => devWriteBytes_inForm hs e
  · exact hs

@[simp] theorem execFirmwareStage_inForm {kind : BitVec 2} {image : List Byte} {s : State} (h : s.InForm) :
    OutcomeInForm (execFirmwareStage kind image s) :=
  runEvent_inForm (modify_keeps fun _ hs => ite_inForm hs hs) h

theorem bootMap_inForm {s : State} (h : s.InForm) : (bootMap s).InForm :=
  writeBytes_inForm (writeBytes_inForm (writeBytes_inForm (writeBytes_inForm h)))

@[simp] theorem execDeviceReset_inForm {s : State} (h : s.InForm) : OutcomeInForm (execDeviceReset s) := by
  refine runEvent_inForm (modify_keeps fun s hs => ?_) h
  dsimp only
  generalize boot s.fw = o
  cases o with
  | none =>
    show Memory.wf _ = true
    exact hs
  | some fw =>
    refine bootMap_inForm ?_
    show Memory.wf _ = true
    exact hs

theorem resetFn_inForm {s : State} {fn : Nat} (h : s.InForm) : (resetFn s fn).InForm := by
  unfold resetFn
  grind only [State.InForm, foldl_inForm, cancelJob_inForm, cancelInstance_inForm, dropStream_inForm, destroyQueue_inForm, closeSeq_inForm]

@[simp] theorem execFunctionLevelReset_inForm {fn : Nat} {s : State} (h : s.InForm) : OutcomeInForm (execFunctionLevelReset fn s) := by
  refine runEvent_inForm ?_ h
  grind only [foldl_inForm, M.Keeps.bind, get_bind_keeps, pure_keeps, modify_keeps, set_keeps, resetFn_inForm]

@[simp] theorem execSrr_inForm {d : Reg} {num : BitVec 12} {s : State} (h : s.InForm) : OutcomeInForm (execSrr d num s) :=
  runSyl_inForm (get_bind_keeps fun _ _ => writeReg_keeps) h

@[simp] theorem execSrw_inForm {a : Src} {num : BitVec 12} {s : State} (h : s.InForm) : OutcomeInForm (execSrw a num s) :=
  runSyl_inForm (readSrc_keeps.bind fun _ => sysWrite_keeps) h

@[simp] theorem execPaddockRegisterWrite_inForm {a : Src} {k : BitVec 2} {s : State} (h : s.InForm) :
    OutcomeInForm (execPaddockRegisterWrite a k s) :=
  runSyl_inForm (readSrc_keeps.bind fun _ => myCore_keeps.bind fun _ => get_bind_keeps fun _ _ => sysWrite_keeps) h

@[simp] theorem execHandlerLimitWrite_inForm {a : Src} {s : State} (h : s.InForm) : OutcomeInForm (execHandlerLimitWrite a s) :=
  runSyl_inForm (readSrc_keeps.bind fun _ => sysWrite_keeps) h

@[simp] theorem execFlagsW1cWrite_inForm {a : Src} {mx : Bool} {s : State} (h : s.InForm) : OutcomeInForm (execFlagsW1cWrite a mx s) :=
  runSyl_inForm (readSrc_keeps.bind fun _ => getMe_keeps.bind fun _ => ite_keeps sysWrite_keeps sysWrite_keeps) h

@[simp] theorem execArrivalRegisterWrite_inForm {a : Src} {q : BitVec 3} {s : State} (h : s.InForm) :
    OutcomeInForm (execArrivalRegisterWrite a q s) :=
  runSyl_inForm (readSrc_keeps.bind fun _ => get_bind_keeps fun _ hs => ite_keeps (pure_keeps.bind fun _ => sysWrite_keeps) (by
      split
      · exact pure_keeps.bind fun _ => sysWrite_keeps
      · exact drawWord_keeps.bind fun _ => pure_keeps.bind fun _ => sysWrite_keeps
    )) h

theorem countCycles_inForm {s : State} {n : Nat} (h : s.InForm) : (countCycles s n).InForm := h

theorem elapse_inForm {s : State} {n : Nat} (h : s.InForm) : (elapse s n).InForm :=
  chargeAll_inForm (settleRails_inForm (countCycles_inForm (tickClock_inForm h)))

end Sys2Proof.Machine
end

section
/-! PROOFS. The form of memory (R61 to R64, log entry 2): every instruction, a context's turn and a step of the part. -/

namespace Sys2Proof.Machine

/-- What a context's turn at issue leads to is in form. -/
def TurnInForm : Turn → Prop
  | .done s => s.InForm
  | .run _ s => s.InForm
  | .stuck _ => True

theorem issueFaultAt_inForm {s : State} {c : Nat} {cause : BitVec 8} {islot : Bool} {eval : W64} (h : s.InForm) :
    TurnInForm (issueFaultAt s c cause islot eval) := takeTrap_inForm h

theorem ite_turnInForm {c : Prop} [Decidable c] {t u : Turn} (ht : TurnInForm t) (hu : TurnInForm u) : TurnInForm (if c then t else u) := by
  split
  exacts [ht, hu]

theorem runSlot1_inForm {s : State} {c : Nat} {i : Issue} (h : s.InForm) : TurnInForm (runSlot1 s c i) := by
  unfold runSlot1
  dsimp only
  split
  · exact issueFaultAt_inForm h
  · next w _ =>
    have hu : (s.updCtx c fun x => { x with iss := some { i with syl := w } }).InForm := State.updCtx_inForm h
    split
    · exact issueFaultAt_inForm hu
    · exact ite_turnInForm (unissue_inForm hu) hu

theorem issueSlot1_inForm {s : State} {c : Nat} {b : Bundle} (h : s.InForm) : TurnInForm (issueSlot1 s c b) := by
  unfold issueSlot1
  dsimp only
  split
  · exact issueFaultAt_inForm h
  · refine ite_turnInForm (issueFaultAt_inForm h) ?_
    split
    · exact issueFaultAt_inForm h
    · exact runSlot1_inForm (State.updCtx_inForm h)

theorem issueWhole_inForm {s : State} {c : Nat} {b : Bundle} (h : s.InForm) : TurnInForm (issueWhole s c b) := by
  have hf : ∀ cause sl v, TurnInForm (issueFaultAt s c cause sl v) := fun _ _ _ => issueFaultAt_inForm h
  unfold issueWhole
  dsimp only
  generalize decodeSyllable false _ b.s0 = d0
  generalize decodeSyllable true _ b.s1 = d1
  split
  · exact hf ..
  · refine ite_turnInForm h ?_
    split
    · exact hf ..
    · split
      · refine ite_turnInForm (hf ..) ?_
        split
        · exact hf ..
        · split
          · exact hf ..
          · exact ite_turnInForm (hf ..) (ite_turnInForm h (State.setCtx_inForm h))
      · exact hf ..
      · exact hf ..

theorem turn_inForm {s : State} {c : Nat} (h : s.InForm) : TurnInForm (turn s c) := by
  have hc : ({ s with cur := c } : State).InForm := h
  unfold turn
  extract_lets s x between
  refine ite_turnInForm (deliverAsync_inForm hc) ?_
  split
  · exact ite_turnInForm hc (takeTrap_inForm (State.setCtx_inForm hc))
  · refine ite_turnInForm (deliverMiss_inForm hc) (ite_turnInForm hc ?_)
    split
    · exact ite_turnInForm (leaveBundle_inForm hc) (ite_turnInForm hc (runSlot1_inForm hc))
    · have hb := fetchBundle_keeps (c := c) s hc
      split
      · exact issueFaultAt_inForm hc
      · next e => rw [e] at hb; exact hb _ hc
      · trivial
      · exact hc
      · next e =>
        rw [e] at hb
        exact ite_turnInForm (issueSlot1_inForm hb) (ite_turnInForm (issueWhole_inForm hb) (issueSlot1_inForm hb))

theorem issueWaiter_inForm {i : Instr} {f : State → Host.Outcome State Fault Refusal} (e : issueWaiter i = some f) {s : State} (h : s.InForm) :
    OutcomeInForm (f s) := by
  unfold issueWaiter at e
  split at e
  case _ => cases e; exact execLdf_inForm h
  case _ => cases e; exact execSte_inForm h
  case _ => cases e; exact execTlwait_inForm h
  case _ => cases e; exact execBwait_inForm h
  case _ => cases e; exact execCunbind_inForm h
  case _ => cases e; exact execSend_inForm h
  case _ => cases e; exact execPacq_inForm h
  case _ => cases e; exact execStep_inForm h
  case _ => cases e

theorem heldBySlot1_inForm {s t : State} {c : Nat} (h : s.InForm) (e : heldBySlot1 s c = some t) : t.InForm := by
  unfold heldBySlot1 at e
  split at e
  · cases e
  · dsimp only at e
    split at e
    · cases e
    · split at e
      · cases e
      · split at e
        · cases e
        · next hw =>
          split at e
          · next hf =>
            have ht := issueWaiter_inForm hw (State.updCtx_inForm h) _ hf
            split at e
            · split at e
              · cases e
                exact unissue_inForm (State.updCtx_inForm ht)
              · cases e
            · cases e
          · cases e

theorem next_inForm {s : State} (h : s.InForm) : OutcomeInForm (.next s) := by
  intro t e
  cases e
  exact h

theorem settleOutcome_inForm {s : State} {c : Nat} {o : Host.Outcome State Fault Refusal} (h : s.InForm) (ho : OutcomeInForm o) :
    OutcomeInForm (settleOutcome s c o) := by
  cases o with
  | next t => exact next_inForm (settle_inForm h (ho t rfl))
  | fault f => exact ho
  | refused r => exact ho

/-- Every instruction keeps the form: each by its own lemma, which `simp` knows. -/
theorem exec_inForm {i : Instr} {s : State} (h : s.InForm) : OutcomeInForm (exec i s) := by
  cases i <;> simp [exec, h]

theorem stepCtx_inForm {c : Nat} {s : State} (h : s.InForm) : OutcomeInForm (stepCtx c s) := by
  have ht := turn_inForm (c := c) h
  unfold stepCtx
  split
  · split
    · next e => rw [e] at ht; exact next_inForm ht
    · intro t e; cases e
    · next e =>
      rw [e] at ht
      split
      · next e => exact next_inForm (heldBySlot1_inForm ht e)
      · exact settleOutcome_inForm ht (exec_inForm ht)
  · exact next_inForm h

theorem stepSched_inForm {a : Sched} {s : State} (h : s.InForm) : OutcomeInForm (stepSched a s) := by
  cases a with
  | event i => exact exec_inForm h
  | issue c => exact stepCtx_inForm h
  | elapse n => exact next_inForm (elapse_inForm h)

theorem step_inForm {s : State} (h : s.InForm) : OutcomeInForm (step s) := by
  unfold step
  split
  · exact stepCtx_inForm h
  · split
    · exact stepSched_inForm h
    · exact stepSched_inForm h

/-- Settles O50, by the lemma of each instruction and of each part of a turn: a state in form steps to one in form. -/
theorem memoryKeepsForm : Obligations.MemoryKeepsForm := fun _ _ h e => step_inForm h _ e

end Sys2Proof.Machine
end

section
/-! PROOFS. Memory as a map of bytes (R61, R62, R64): its form at reset, and two lists in form that read the same. -/

namespace Sys2Proof.Machine

/-- Settles O51: at reset no byte is listed. -/
theorem resetMemoryForm : Obligations.ResetMemoryForm := rfl

theorem mapWf_cons_iff {α : Type} [DecidableEq α] {d : α} {k : Nat} {v : α} {t : List (Nat × α)} :
    mapWf d ((k, v) :: t) = true ↔ v ≠ d ∧ (∀ p ∈ t.head?, k < p.1) ∧ mapWf d t = true := by
  rw [mapWf, Bool.and_eq_true, keysRise_cons, List.all_cons, Bool.and_eq_true, decide_eq_true_eq, mapWf, Bool.and_eq_true]
  tauto

/-- A key before the first listed one is not listed. -/
theorem mapGet_below {α : Type} [DecidableEq α] {d : α} {m : List (Nat × α)} {i : Nat} (h : mapWf d m = true) (hi : ∀ p ∈ m.head?, i < p.1) :
    mapGet d m i = d :=
  mapGet_unlisted d m i fun p hp => (keysRise_above i m (Bool.and_eq_true_iff.mp h).1 hi p hp).ne'

/-- Lists in form that read the same are the same: the first keys agree, since the smaller would read as unlisted in the other list. -/
theorem mapWf_ext {α : Type} [DecidableEq α] {d : α} {m n : List (Nat × α)} (hm : mapWf d m = true) (hn : mapWf d n = true)
    (h : ∀ i, mapGet d m i = mapGet d n i) : m = n := by
  induction m generalizing n with
  | nil =>
    cases n with
    | nil => rfl
    | cons q u => exact absurd (by simpa [mapGet] using (h q.1).symm) (mapWf_cons_iff.mp hn).1
  | cons p t ih =>
    obtain ⟨k, v⟩ := p
    obtain ⟨hv, hk, ht⟩ := mapWf_cons_iff.mp hm
    cases n with
    | nil => exact absurd (by simpa [mapGet] using h k) hv
    | cons q u =>
      obtain ⟨l, w⟩ := q
      obtain ⟨hw, hl, hu⟩ := mapWf_cons_iff.mp hn
      obtain hlt | rfl | hgt := Nat.lt_trichotomy k l
      · have e := mapGet_below hn (i := k) (by simpa using hlt)
        exact absurd (by simpa [mapGet] using (h k).trans e) hv
      · have e : v = w := by simpa [mapGet] using h k
        have htu : t = u := ih ht hu fun i => by
          by_cases hi : i = k
          · rw [hi, mapGet_below ht hk, mapGet_below hu hl]
          · simpa [mapGet, hi] using h i
        rw [e, htu]
      · have e := mapGet_below hm (i := l) (by simpa using hgt)
        exact absurd (by simpa [mapGet] using (h l).symm.trans e) hw

/-- Settles O52: reads after writes by the map's own rule, and memories in form by the induction on their lists. -/
theorem memoryBytes : Obligations.MemoryBytes :=
  ⟨fun s k b => ⟨by simp [readByte_writeByte], fun a ha => by simp [readByte_writeByte, ha]⟩, fun _ _ hs ht h => mapWf_ext hs ht h⟩

end Sys2Proof.Machine
end

section
/-! PROOFS. Where an element of a layout entry lies (R66, R71, R74, R75): the offset of an element, the bank permutation, and the faults. -/

namespace Sys2Proof.Machine

/-- What the coordinate of dimension i does to the offset so far: none once it is not below its extent. -/
def offStep (e : Layout) (cs : List Nat) (a : Option Int) (i : Nat) : Option Int :=
  a.bind fun v => if cs.getD i 0 < e.ext i then some (v + (cs.getD i 0 : Int) * e.str i * e.es) else none

theorem elemOff_eq_foldl (e : Layout) (cs : List Nat) : elemOff e cs = (List.range e.rank).foldl (offStep e cs) (some 0) := by
  unfold elemOff
  congr
  funext a i
  cases a <;> rfl

theorem foldl_offStep_none (e : Layout) (cs l : List Nat) : l.foldl (offStep e cs) none = none := by
  induction l with
  | nil => rfl
  | cons _ _ ih => exact ih

theorem foldl_offStep_some {e : Layout} {cs l : List Nat} (h : ∀ i ∈ l, cs.getD i 0 < e.ext i) (v : Int) :
    l.foldl (offStep e cs) (some v) = some (v + (l.map fun i => (cs.getD i 0 : Int) * e.str i * e.es).sum) := by
  induction l generalizing v with
  | nil => simp
  | cons i l ih =>
    have step : offStep e cs (some v) i = some (v + (cs.getD i 0 : Int) * e.str i * e.es) := if_pos (h i (by simp))
    rw [List.foldl_cons, step, ih fun j hj => h j (by simp [hj]), List.map_cons, List.sum_cons, Int.add_assoc]

theorem elemOff_eq_some {e : Layout} {cs : List Nat} (h : ∀ i, i < e.rank → cs.getD i 0 < e.ext i) :
    elemOff e cs = some ((List.range e.rank).map fun i => (cs.getD i 0 : Int) * e.str i * e.es).sum := by
  rw [elemOff_eq_foldl, foldl_offStep_some fun i hi => h i (List.mem_range.mp hi), Int.zero_add]

theorem elemOff_eq_none {e : Layout} {cs : List Nat} (h : ∃ i, i < e.rank ∧ e.ext i ≤ cs.getD i 0) : elemOff e cs = none := by
  obtain ⟨i, hi, hle⟩ := h
  obtain ⟨l, m, hr⟩ := List.append_of_mem (List.mem_range.mpr hi)
  have stop : ∀ a, offStep e cs a i = none := fun a => by
    cases a with
    | none => rfl
    | some v => exact if_neg (by omega)
  rw [elemOff_eq_foldl, hr, List.foldl_append, List.foldl_cons, stop, foldl_offStep_none]

theorem placeOf_rights {s : State} {core part n : Nat} {e : Layout} {cs : List Nat} {rd wr : Bool}
    (h : e.valid = false ∨ rd = true ∧ e.rd = false ∨ wr = true ∧ e.wr = false) : placeOf s core part e cs n rd wr = .error cRights := by
  refine if_pos ?_
  obtain h | ⟨h, h'⟩ | ⟨h, h'⟩ := h <;> simp [*]

section
variable {s : State} {core part n : Nat} {e : Layout} {cs : List Nat} {rd wr : Bool} {off : Int}
variable (hv : e.valid = true) (hr : rd = true → e.rd = true) (hw : wr = true → e.wr = true)
include hv hr hw

theorem placeOf_bounds (hs : e.space < 5) (ho : elemOff e cs = none) : placeOf s core part e cs n rd wr = .error cBounds := by
  have hn : ¬ (!e.valid || (rd && !e.rd) || (wr && !e.wr)) = true := by cases rd <;> cases wr <;> simp_all
  rw [placeOf, if_neg hn, if_neg (by unfold spKv; omega), if_neg (by unfold spNet; omega), ho]

theorem placeOf_slice (hs : e.space ≤ 2) (ho : elemOff e cs = some off) : placeOf s core part e cs n rd wr =
    if (e.base % 2 ^ 23 : Nat) + off < 0 ∨ (2 ^ 23 : Int) < (e.base % 2 ^ 23 : Nat) + off + n then .error cBounds
    else .ok (.slice (sliceKey (e.core core) (swz ((e.base % 2 ^ 23 : Nat) + off).toNat e.perm))) := by
  have hn : ¬ (!e.valid || (rd && !e.rd) || (wr && !e.wr)) = true := by cases rd <;> cases wr <;> simp_all
  rw [placeOf, if_neg hn, if_neg (by unfold spKv; omega), if_neg (by unfold spNet; omega), ho]
  exact if_pos (by simpa [Layout.inSram] using hs)

theorem placeOf_virtual (hl : 3 ≤ e.space) (hs : e.space < 5) (ho : elemOff e cs = some off) : placeOf s core part e cs n rd wr =
    if (e.base : Int) + off < 0 ∨ (2 ^ 57 : Int) < e.base + off + n then .error cBounds
    else .ok (.virt (e.base + off).toNat (e.space == spHost) (e.dis && !e.mir)) := by
  have hn : ¬ (!e.valid || (rd && !e.rd) || (wr && !e.wr)) = true := by cases rd <;> cases wr <;> simp_all
  rw [placeOf, if_neg hn, if_neg (by unfold spKv; omega), if_neg (by unfold spNet; omega), ho]
  exact if_neg (by simpa [Layout.inSram] using Nat.lt_of_succ_le hl)

end

/-- The bank permutation is the exclusive or of an offset's bits from 6 up with the five from 11 up, as far as the code selects them. -/
theorem swz_eq_xor (o c : Nat) : swz o c = o ^^^ (o / 2048 % 32 &&& (2 ^ c - 1)) * 2 ^ 6 := by
  unfold swz
  split
  · next h => subst h; simp
  · dsimp only
    generalize hy : o / 2048 % 32 &&& (2 ^ c - 1) = y
    have hy5 : y < 2 ^ 5 := by
      rw [← hy]
      exact Nat.lt_of_le_of_lt Nat.and_le_left (Nat.mod_lt _ (by decide))
    have hlow : (o ^^^ y * 2 ^ 6) % 64 = o % 64 := by rw [show 64 = 2 ^ 6 from rfl, Nat.xor_mod_two_pow]; simp
    have hhigh : (o ^^^ y * 2 ^ 6) / 64 = o / 64 ^^^ y := by rw [show 64 = 2 ^ 6 from rfl, Nat.xor_div_two_pow]; simp
    have hmid : (o / 64 ^^^ y) % 32 = o / 64 % 32 ^^^ y := by rw [show 32 = 2 ^ 5 from rfl, Nat.xor_mod_two_pow, Nat.mod_eq_of_lt hy5]
    have htop : (o / 64 ^^^ y) / 32 = o / 64 / 32 := by rw [show 32 = 2 ^ 5 from rfl, Nat.xor_div_two_pow, Nat.div_eq_of_lt hy5, Nat.xor_zero]
    omega

theorem testBit_swz {o c : Nat} (hc : c ≤ 5) (i : Nat) :
    (swz o c).testBit i = if 6 ≤ i ∧ i < 6 + c then (o.testBit i != o.testBit (i + 5)) else o.testBit i := by
  have hm : (o / 2048 % 32).testBit (i - 6) = (decide (i - 6 < 5) && o.testBit (i - 6 + 11)) := by
    rw [show 32 = 2 ^ 5 from rfl, show 2048 = 2 ^ 11 from rfl, Nat.testBit_mod_two_pow, Nat.testBit_div_two_pow]
  rw [swz_eq_xor, Nat.testBit_xor, Nat.testBit_mul_two_pow, Nat.testBit_and, Nat.testBit_two_pow_sub_one, hm]
  by_cases h : 6 ≤ i ∧ i < 6 + c
  · rw [if_pos h, show i - 6 + 11 = i + 5 by omega]
    have h1 : i - 6 < 5 := by omega
    have h2 : i - 6 < c := by omega
    simp [h.1, h1, h2]
  · have : 6 ≤ i → ¬ i - 6 < c := by omega
    rw [if_neg h]
    by_cases h6 : 6 ≤ i <;> simp [h6, this]

/-- The core that a slice entry names (R71). -/
theorem Layout.core_of_space (e : Layout) (core : Nat) : (e.space = 0 → e.core core = core) ∧
    (e.space = 1 → e.core core = core / 8 * 8 + e.base / 2 ^ 23 % 8) ∧ (e.space = 2 → e.core core = e.base / 2 ^ 23) := by
  unfold Layout.core
  refine ⟨fun h => ?_, fun h => ?_, fun h => ?_⟩ <;> rw [h] <;> rfl

/-- Settles O20: from the offset of the element, the bounds of its space, and the permutation bit by bit. -/
theorem elementPlaces : Obligations.ElementPlaces := by
  refine ⟨fun s core part e cs n rd wr off hs hoff => ⟨placeOf_rights, fun hv hr hw => ⟨fun h => ?_, fun h => ?_⟩⟩, Layout.core_of_space,
    fun o c i hc => testBit_swz hc i⟩
  · exact placeOf_bounds hv hr hw hs (elemOff_eq_none h)
  · have ho : elemOff e cs = some off := by rw [hoff]; exact elemOff_eq_some h
    refine ⟨fun o h2 he hb => ?_, fun h2 hb => ?_, fun a h3 ha hb => ?_, fun h3 hb => ?_⟩
    · rw [placeOf_slice hv hr hw h2 ho, if_neg (by omega), ← he]
      rfl
    · rw [placeOf_slice hv hr hw h2 ho, if_pos (by omega)]
      rfl
    · rw [placeOf_virtual hv hr hw h3 hs ho, if_neg (by omega), ← ha]
      rfl
    · rw [placeOf_virtual hv hr hw h3 hs ho, if_pos (by omega)]
      rfl

end Sys2Proof.Machine
end

section
/-! PROOFS. The accesses of a thread (R75, R84, R172, R304, R441, R444, R446, R477, R498): to slice bytes, and through a translation. -/

namespace Sys2Proof.Machine

/-! ### Slice bytes -/

section
variable {s : State} {k n : Nat} {chk atomic : Bool}

theorem M.bind_paddockM_hit {β : Type} (v : W64) (h : ¬ Unfenced s k n) (f : Unit → M β) :
    (paddockM k n v >>= f) s = .error (.trap cRights v) :=
  M.bind_error (paddockM_hit v (by simpa [Unfenced] using h))

theorem M.bind_raceM_found {β : Type} {w : Bool} {cause : BitVec 8} {val : W64} (h : raceTest s s.cur k n w atomic = some (cause, val)) (f : Unit → M β) :
    (raceM k n w atomic >>= f) s = .error (.trap cause val) := by
  refine M.bind_error ?_
  unfold raceM
  rw [M.bind_get_apply, h]
  rfl

theorem M.bind_poisonM_hit {β : Type} {g va : Nat} (h : (granules k n).find? (fun g => s.poison.contains g) = some g) (hk : isSlice k = true)
    (f : Unit → M β) : (poisonM k n va >>= f) s = .error (.trap cPoison (w64 (keyOff (g * 64)))) := by
  refine M.bind_error ?_
  unfold poisonM
  rw [M.bind_get_apply, h, hk]
  rfl

theorem loadPlace_fenced (ev : W64) (mir : Bool) (h : ¬ Unfenced s k n) : loadPlace (.slice k) n chk atomic ev mir s = .error (.trap cRights ev) :=
  M.bind_paddockM_hit ev h _

theorem storePlace_fenced {v : Nat} (ev : W64) (mir moved : Bool) (h : ¬ Unfenced s k n) :
    storePlace (.slice k) n v chk atomic ev mir moved s = .error (.trap cRights ev) := M.bind_paddockM_hit ev h _

theorem loadPlace_races {cause : BitVec 8} {val : W64} (ev : W64) (mir : Bool) (hf : Unfenced s k n) (hh : Unheld s k)
    (hr : raceTest s s.cur k n false atomic = some (cause, val)) : loadPlace (.slice k) n true atomic ev mir s = .error (.trap cause val) := by
  simp only [loadPlace]
  rw [M.bind_paddockM _ hf, M.bind_quiesceM hh, if_pos trivial, M.bind_raceM_found hr]

theorem storePlace_races {v : Nat} {cause : BitVec 8} {val : W64} (ev : W64) (mir moved : Bool) (hf : Unfenced s k n) (hh : Unheld s k)
    (hr : raceTest s s.cur k n true atomic = some (cause, val)) : storePlace (.slice k) n v true atomic ev mir moved s = .error (.trap cause val) := by
  simp only [storePlace]
  rw [M.bind_paddockM _ hf, M.bind_quiesceM hh, if_pos trivial, M.bind_raceM_found hr]

theorem loadPlace_poisoned {g : Nat} (ev : W64) (mir : Bool) (hf : Unfenced s k n) (hh : Unheld s k) (hr : chk = true → Unraced s k n false atomic)
    (hg : (granules k n).find? (fun g => s.poison.contains g) = some g) (hk : isSlice k = true) :
    loadPlace (.slice k) n chk atomic ev mir s = .error (.trap cPoison (w64 (keyOff (g * 64)))) := by
  simp only [loadPlace]
  rw [M.bind_paddockM _ hf, M.bind_quiesceM hh]
  cases chk with
  | false => exact M.bind_poisonM_hit hg hk _
  | true =>
    rw [if_pos rfl, M.bind_raceM (hr rfl)]
    exact M.bind_poisonM_hit (by simpa using hg) hk _

end

theorem sliceAccesses : Claims.SliceAccesses := fun s k n v chk atomic mir moved ev =>
  ⟨fun h ev => loadPlace_loads ev mir h, fun h ev => storePlace_stores v ev mir moved h, State.loaded_mem .., State.readNat_stored ..,
    fun a ha => State.readByte_stored s k n v chk atomic a ha, fun j => ⟨State.loaded_ctx .., State.stored_ctx ..⟩,
    fun h => ⟨loadPlace_fenced ev mir h, storePlace_fenced ev mir moved h⟩,
    fun hf hh hc cause val => by
      subst hc
      exact ⟨loadPlace_races ev mir hf hh, storePlace_races ev mir moved hf hh⟩,
    fun hf hh hr g hg hk => loadPlace_poisoned ev mir hf hh hr hg hk⟩

/-! ### Virtual addresses -/

theorem State.filled_eq (s : State) (t : Option Tlb) : s.filled t = { s with tlb := t.toList ++ s.tlb } := by cases t <;> rfl

section
variable {s : State} {q : XReq} (ho : openWait s q = false) (hf : failedWait s q = false)
include ho hf

theorem xlateM_walks : xlateM q s =
    match translate s q with
    | .ok k fill => .ok (.ok k, s.filled fill)
    | .fail c => .ok (.error c, s)
    | .miss i => .error (.hold fun s => joinReq s q i) := by
  rw [xlateM_eq, ho, hf]
  rfl

theorem xlateT_answers {k : Nat} {fill : Option Tlb} (h : translate s q = .ok k fill) : xlateT q s = .ok (k, s.filled fill) := by
  have hx : xlateM q s = .ok (.ok k, s.filled fill) := by rw [xlateM_walks ho hf, h]
  unfold xlateT
  rw [M.bind_ok hx]
  rfl

theorem xlateT_fails {c : BitVec 8} (h : translate s q = .fail c) : xlateT q s = .error (.trap c (w64 q.va)) := by
  have hx : xlateM q s = .ok (.error c, s) := by rw [xlateM_walks ho hf, h]
  unfold xlateT
  rw [M.bind_ok hx]
  rfl

theorem xlateT_misses {i : Nat} (h : translate s q = .miss i) : xlateT q s = .error (.hold fun s => joinReq s q i) := by
  have hx : xlateM q s = .error (.hold fun s => joinReq s q i) := by rw [xlateM_walks ho hf, h]
  exact M.bind_error hx

end

theorem lostM_stands {s : State} {k va : Nat} (h : lostKey s k = false) : lostM k va s = .ok ((), s) := by
  unfold lostM
  rw [M.bind_get_apply, h]
  rfl

theorem lostM_lost {s : State} {k va : Nat} (h : lostKey s k = true) : lostM k va s = .error (.trap cPoison (w64 (va - va % 64))) := by
  unfold lostM
  rw [M.bind_get_apply, h]
  rfl

theorem goneHit_stands {s : State} {k : Nat} {gone : Bool} (h : lostKey s k = false) : ¬ goneHit s k gone = true := by simp [goneHit, h]

theorem lostKey_filled (s : State) (t : Option Tlb) (k : Nat) : lostKey (s.filled t) k = lostKey s k := by cases t <;> rfl

theorem Unpoisoned.filled {s : State} {k n : Nat} (h : Unpoisoned s k n) (t : Option Tlb) : Unpoisoned (s.filled t) k n := by
  rw [State.filled_eq]
  exact h

theorem seqRegions_filled (s : State) (t : Option Tlb) (part va n : Nat) : seqRegions (s.filled t) part va n = seqRegions s part va n := by
  rw [State.filled_eq]
  rfl

theorem partOf_filled (s : State) (t : Option Tlb) : partOf (s.filled t) (s.filled t).cur = partOf s s.cur := by
  rw [State.filled_eq]
  rfl

theorem readNat_filled (s : State) (t : Option Tlb) (k n : Nat) : readNat (s.filled t) k n = readNat s k n :=
  readNat_of_mem (by rw [State.filled_eq]) k n

section
variable {s : State} {va k n : Nat} {host gone chk atomic mir : Bool} {ev : W64} {fill : Option Tlb}

/-- A load through a translation that stands: its bytes, or a free value past the memory and in a region of a sequence. -/
theorem loadPlace_virt (hx : xlateT (threadReq s va true atomic host mir) s = .ok (k, s.filled fill)) (hl : lostKey s k = false)
    (hp : Unpoisoned s k n) : loadPlace (.virt va host gone) n chk atomic ev mir s =
      if (decide (seqRegions s (partOf s s.cur) va n = []) && !noMemory k) = true then .ok (readNat s k n, s.filled fill)
      else .ok ((Config.freeWord (s.filled fill).free).toNat % 256 ^ n, { s.filled fill with free := (s.filled fill).free + 1 }) := by
  simp only [loadPlace]
  rw [M.bind_get_apply, M.bind_ok hx, if_neg (goneHit_stands hl), M.bind_ok (lostM_stands ((lostKey_filled ..).trans hl)),
    M.bind_poisonM _ (hp.filled fill), M.bind_get_apply, M.ite_apply, seqRegions_filled, partOf_filled, readNat_filled]
  rfl

theorem loadPlace_lost (hx : xlateT (threadReq s va true atomic host mir) s = .ok (k, s.filled fill)) (hl : lostKey s k = true)
    (hg : goneHit s k gone = false) : loadPlace (.virt va host gone) n chk atomic ev mir s = .error (.trap cPoison (w64 (va - va % 64))) := by
  simp only [loadPlace]
  rw [M.bind_get_apply, M.bind_ok hx, hg, if_neg (by decide), M.bind_error (lostM_lost ((lostKey_filled ..).trans hl))]

theorem loadPlace_virt_stops {e : Stop} (hx : xlateT (threadReq s va true atomic host mir) s = .error e) :
    loadPlace (.virt va host gone) n chk atomic ev mir s = .error e := by
  simp only [loadPlace]
  rw [M.bind_get_apply, M.bind_error hx]

theorem storePlace_virt {v : Nat} {moved : Bool} (hx : xlateT (threadReq s va false true host false) s = .ok (k, s.filled fill))
    (hl : lostKey s k = false) : storePlace (.virt va host gone) n v chk atomic ev false moved s =
      .ok ((), taintSeqs (clearPoison (writeNat (s.filled fill) k n v) k n) (partOf s s.cur) va n) := by
  rw [← partOf_filled s fill]
  simp only [storePlace]
  rw [M.bind_get_apply, Bool.false_and, M.bind_ok hx, if_neg (goneHit_stands hl), M.bind_ok (lostM_stands ((lostKey_filled ..).trans hl))]
  rfl

theorem storePlace_virt_stops {v : Nat} {moved : Bool} {e : Stop} (hx : xlateT (threadReq s va false true host false) s = .error e) :
    storePlace (.virt va host gone) n v chk atomic ev false moved s = .error e := by
  simp only [storePlace]
  rw [M.bind_get_apply, Bool.false_and, M.bind_error hx]

end

@[simp] theorem taintSeqs_mem (s : State) (part va n : Nat) : (taintSeqs s part va n).mem = s.mem := by rw [taintSeqs_eq]
@[simp] theorem taintSeqs_ctxs (s : State) (part va n : Nat) : (taintSeqs s part va n).ctxs = s.ctxs := by rw [taintSeqs_eq]

theorem translatedAccesses : Claims.TranslatedAccesses := by
  intro s va k n v host gone chk atomic moved fill ev
  refine ⟨fun q hq ho hf => ?_, fun q hq ho hf => ?_⟩
  all_goals subst hq
  · refine ⟨fun ht hm hl hp hr ev => ?_, fun ht hl hp => ?_, fun ht hl hg => loadPlace_lost (xlateT_answers ho hf ht) hl hg,
      fun c ht => loadPlace_virt_stops (xlateT_fails ho hf ht), fun i ht => loadPlace_virt_stops (xlateT_misses ho hf ht)⟩
    · rw [loadPlace_virt (xlateT_answers ho hf ht) hl hp, hr, State.filled_eq, if_pos (by simp [noMemory]; omega)]
    · have hx := fun ev => loadPlace_virt (gone := gone) (chk := chk) (ev := ev) (xlateT_answers ho hf ht) hl hp
      by_cases h : (decide (seqRegions s (partOf s s.cur) va n = []) && !noMemory k) = true
      · exact ⟨_, _, fun ev => (hx ev).trans (if_pos h), readByte_of_mem (by rw [State.filled_eq]), fun j => by rw [State.filled_eq]; rfl⟩
      · exact ⟨_, _, fun ev => (hx ev).trans (if_neg h), readByte_of_mem (by rw [State.filled_eq]), fun j => by rw [State.filled_eq]; rfl⟩
  · refine ⟨fun ht hl => ⟨_, fun ev => storePlace_virt (xlateT_answers ho hf ht) hl, ?_, fun a ha => ?_, fun j => ?_⟩,
      fun c ht => storePlace_virt_stops (xlateT_fails ho hf ht)⟩
    · rw [readNat_of_mem (taintSeqs_mem ..), readNat_of_mem (clearPoison_mem ..), readNat_writeNat]
    · rw [readByte_of_mem (taintSeqs_mem ..), clearPoison_readByte, readByte_writeNat_outside _ _ _ _ _ ha]
      exact readByte_of_mem (by rw [State.filled_eq]) a
    · rw [State.ctx, taintSeqs_ctxs, clearPoison_ctxs, writeNat, writeBytes_eq, State.filled_eq]
      rfl

/-- Settles O21: the checks in their order, and the translation in each of its answers. -/
theorem threadAccesses : Obligations.ThreadAccesses := ⟨sliceAccesses, translatedAccesses⟩

end Sys2Proof.Machine
end

section
/-! PROOFS. `ldl`, `stl`, `ldg`, `stg` and `pref` (R63, R178 to R182): each from what a load or a store of its place answers. -/

namespace Sys2Proof.Machine

/-- The model's extension of a loaded value is that of the statement. -/
theorem extend_eq_widened (zero : Bool) (n v : Nat) : extend zero n v = Claims.widened zero n v := by
  unfold extend Claims.widened
  cases zero with
  | true => rfl
  | false =>
    have hs : sx (8 * n) v = (BitVec.ofNat (8 * n) v).toInt := by
      rw [← sx_eq_toInt, BitVec.toNat_ofNat]
      unfold sx
      push_cast
      rw [Nat.mod_mod, Int.emod_emod]
    simp only [Bool.false_eq_true, if_false, hs]
    rfl

/-! ### The local forms -/

section
variable {w : BitVec 2} {a x : Src} {off : BitVec 16} {s u : State} {n : Bool} {d : Reg}

theorem ldl_misaligned (ha : Reads s a.r) (h : localOff (s.val a.r) off % 2 ^ w.toNat ≠ 0) :
    Traps (.ldl w n d a off) s cMisaligned (w64 (localOff (s.val a.r) off)) := by
  refine traps_free rfl rfl ?_
  rw [M.bind_readSrc ha, M.bind_check_fails (by simpa using h)]

theorem stl_misaligned (ha : Reads s a.r) (hx : Reads s x.r) (h : localOff (s.val a.r) off % 2 ^ w.toNat ≠ 0) :
    Traps (.stl w x a off) s cMisaligned (w64 (localOff (s.val a.r) off)) := by
  refine traps_free rfl rfl ?_
  rw [M.bind_readSrc ha, M.bind_readSrc hx, M.bind_check_fails (by simpa using h)]

theorem ldl_ends {v : Nat} (ha : Reads s a.r) (h : localOff (s.val a.r) off % 2 ^ w.toNat = 0) (hd : Writes s d)
    (hl : LoadsFrom s (.slice (sliceKey (coreOf s.cur) (localOff (s.val a.r) off))) (2 ^ w.toNat) true false false v u) :
    Ends (.ldl w n d a off) s (u.put d (Claims.widened n (2 ^ w.toNat) v)) := by
  have hx : loadLocal (localOff (s.val a.r) off) (2 ^ w.toNat) false s = .ok (v, u) := hl _
  refine ends_free rfl rfl ?_
  rw [M.bind_readSrc ha, M.bind_check (by simpa using h), M.bind_ok hx, writeReg_ready _ (hd.of_me (loadPlace_me (hl 0))), extend_eq_widened]

theorem stl_ends (ha : Reads s a.r) (hx : Reads s x.r) (h : localOff (s.val a.r) off % 2 ^ w.toNat = 0)
    (hs : StoresTo s (.slice (sliceKey (coreOf s.cur) (localOff (s.val a.r) off))) (2 ^ w.toNat) (s.val x.r).toNat true false false false u) :
    Ends (.stl w x a off) s u := by
  refine ends_free rfl rfl ?_
  rw [M.bind_readSrc ha, M.bind_readSrc hx, M.bind_check (by simpa using h)]
  exact hs _

end

theorem localLoadsStores : Claims.LocalLoadsStores := by
  intro w a off s o ha ho
  subst ho
  refine ⟨fun h n d => ⟨ldl_misaligned ha h, fun x hx => stl_misaligned ha hx h⟩, fun h =>
    ⟨fun n d v u hd hl => ldl_ends ha h hd hl, fun n d k hd hk hl => ?_, fun x k hx hk hs => ?_, fun x u hx hs => stl_ends ha hx h hs⟩⟩
  · subst hk
    exact ldl_ends ha h hd fun ev => loadPlace_loads ev false hl
  · subst hk
    exact stl_ends ha hx h fun ev => storePlace_stores _ ev false false hs

/-! ### The layout forms -/

section
variable {a x : Src} {l : BitVec 6} {s u : State} {e : Layout} {p : Place}

theorem ldg_ends {n : Bool} {d : Reg} {v : Nat} (h : LayoutAt s a.r l e.es true false e p)
    (hl : LoadsFrom s p e.es e.chk false (e.mir && movedJob s s.me.job) v u) :
    (e.space = 0 → Writes s d → Ends (.ldg n d a l) s (u.put d (Claims.widened n e.es v))) ∧
      (e.space ≠ 0 → Pends s d → Ends (.ldg n d a l) s (u.later d (Claims.widened n e.es v) 0)) := by
  have hm : u.me = s.me := loadPlace_me (hl 0)
  refine ⟨fun h0 hd => ends_of rfl (h.issues rfl rfl rfl) ?_, fun h0 hd => ends_of rfl (h.issues rfl rfl rfl) ?_⟩
  · rw [M.bind_ok (elementM_ready h)]
    dsimp only
    rw [M.bind_get_apply, M.bind_ok (hl _), if_pos (show e.space = spLocal from h0), writeReg_ready _ (hd.of_me hm), extend_eq_widened]
  · rw [M.bind_ok (elementM_ready h)]
    dsimp only
    rw [M.bind_get_apply, M.bind_ok (hl _), if_neg (show ¬ e.space = spLocal from h0), pendReg_ready _ (hd.of_me hm), extend_eq_widened]

theorem stg_ends (h : LayoutAt s a.r l e.es false true e p) (hx : Reads s x.r)
    (hs : StoresTo s p e.es (s.val x.r).toNat e.chk false e.mir (movedJob s s.me.job) u) : Ends (.stg x a l) s u := by
  refine ends_of rfl (h.issues rfl rfl rfl) ?_
  rw [M.bind_ok (elementM_ready h)]
  dsimp only
  rw [M.bind_readSrc hx, M.bind_get_apply]
  exact hs _

theorem pref_ends (hr : (entryOf s s.cur l.toNat).rank ≠ 0) (h : ReadsRun s a.r (entryOf s s.cur l.toNat).rank) : Ends (.pref a l) s s := by
  have hc : coordsPast s s.cur (.pref a l) = false := by simpa [coordsPast, layoutUse] using h.1
  have hi : issueFault s s.cur (.pref a l) = none := by
    unfold issueFault
    rw [hc]
    rfl
  have he : getEntry l.toNat s = .ok (entryOf s s.cur l.toNat, s) := rfl
  refine ends_of rfl hi ?_
  rw [M.bind_ok he, M.bind_ok (readCoords_ready hr h)]
  rfl

end

theorem layoutLoadsStores : Claims.LayoutLoadsStores :=
  ⟨fun _ _ _ _ _ _ _ _ _ h hl => ldg_ends h hl, fun _ _ _ _ _ _ _ h hl => ldg_ends h fun ev => loadPlace_loads ev _ hl,
    fun _ _ _ _ _ _ h hx hs => stg_ends h hx fun ev => storePlace_stores _ ev _ _ hs, fun _ _ _ _ _ _ _ h hx hs => stg_ends h hx hs,
    fun _ _ _ hr h => pref_ends hr h⟩

/-- Settles O22: the local forms and the layout forms, each from what the access of its place answers. -/
theorem loadsAndStores : Obligations.LoadsAndStores := ⟨localLoadsStores, layoutLoadsStores⟩

end Sys2Proof.Machine
end

section
/-! PROOFS. The tagged operations (R78, R79, R121, R183): where the tag allows, where they wait, and the steps that serve the waits. -/

namespace Sys2Proof.Machine

/-! ### The tag of a word -/

theorem tagFull_iff (s : State) (k : Nat) : tagFull s k = true ↔ k / 8 ∈ s.tags := by simp [tagFull]

/-- A tag that allows an operation, with nothing of its kind before it at the word. -/
theorem tagReady_of_first {s : State} {k : Nat} {ste : Bool} {mine : BankWait → Bool} (ht : tagFull s k = !ste)
    (hb : ∀ b ∈ s.bank, ¬ (b.key = k ∧ b.ste = ste)) : tagReady s k ste mine = true := by
  have hn : (s.bank.find? fun b => b.key == k && b.ste == ste) = none := by
    rw [List.find?_eq_none]
    simpa using hb
  unfold tagReady
  rw [hn, ht]
  cases ste <;> rfl

theorem tagReady_of_tag {s : State} {k : Nat} {ste : Bool} {mine : BankWait → Bool} (ht : tagFull s k = ste) : tagReady s k ste mine = false := by
  unfold tagReady
  rw [ht, bne_self_eq_false, Bool.false_and]

/-- A context that waits at no tag has nothing to take off the bank. -/
theorem tagDone_idle {s : State} (h : ∀ b ∈ s.bank, ¬ (b.ctx = s.cur ∧ b.here = true)) : tagDone s = .ok ((), s) := by
  have hb : (s.bank.filter fun b => !(b.ctx == s.cur && b.here)) = s.bank := by
    rw [List.filter_eq_self]
    intro b hb
    by_contra hn
    exact h b hb (by simpa using hn)
  unfold tagDone
  rw [M.modify_apply, hb]

/-- What a local wait queues at the word. -/
def localWait (s : State) (k : Nat) (ste : Bool) : BankWait := ⟨s.cur, k, ste, true, 0, 0, s.qcount, s.me.job⟩

theorem tagHold_queues {s : State} {k : Nat} {ste : Bool} (h : ∀ b ∈ s.bank, b.ctx ≠ s.cur) :
    ∃ f, tagHold k ste s = .error (.hold f) ∧ f s = { s with bank := s.bank ++ [localWait s k ste] } := by
  refine ⟨_, rfl, if_neg ?_⟩
  rw [Bool.not_eq_true, List.any_eq_false]
  intro b hb
  simp [h b hb]

/-- A checked access is tested and recorded, and what follows runs either way. -/
theorem bind_checked_race {β : Type} {s : State} {k : Nat} {chk w : Bool} (h : chk = true → Unraced s k 8 w true) (rest : M β) :
    (if chk = true then raceM k 8 w true >>= fun _ => rest else rest) s = rest (s.racedIf chk k 8 w true) := by
  cases chk with
  | false => rfl
  | true => exact M.bind_raceM (h rfl) _

@[simp] theorem State.loaded_poison (s : State) (k n : Nat) (c a : Bool) : (s.loaded k n c a).poison = s.poison := by rw [State.loaded_eq]

theorem State.racedIf_eq (s : State) (c : Bool) (k n : Nat) (w a : Bool) : s.racedIf c k n w a = { s with det := (s.racedIf c k n w a).det } := by
  cases c with
  | false => rfl
  | true => exact State.raced_eq ..

@[simp] theorem State.racedIf_bank (s : State) (c : Bool) (k n : Nat) (w a : Bool) : (s.racedIf c k n w a).bank = s.bank := by rw [State.racedIf_eq]

theorem readW_stored (s : State) (k : Nat) (v : W64) (c a : Bool) : readW (s.stored k 8 v.toNat c a) k = v := by
  unfold State.stored
  rw [readW_of_mem (clearPoison_mem ..), readW_writeNat]

theorem Unpoisoned.of_poison {s t : State} {k n : Nat} (h : Unpoisoned s k n) (e : t.poison = s.poison) : Unpoisoned t k n := by
  unfold Unpoisoned poisoned at *
  rw [e]
  exact h

/-! ### Where the tag allows -/

section
variable {m : MArgs} {s : State} {k : Nat} {chk own : Bool}

theorem ldf_takes (hidle : ∀ b ∈ s.bank, ¬ (b.ctx = s.cur ∧ b.here = true)) (hw : WordAt s m true false k chk own) (hown : own = true → Writes s m.d)
    (hrem : own = false → Pends s m.d) (hl : Loads s k 8 chk true) (hfull : k / 8 ∈ s.tags)
    (hfirst : ∀ b ∈ s.bank, ¬ (b.key = k ∧ b.ste = false)) :
    Ends (.ldf m) s (if own = true then (setEmpty (s.loaded k 8 chk true) k).synced.put m.d (readW s k)
      else (setEmpty (s.loaded k 8 chk true) k).synced.later m.d (readW s k) 0) := by
  obtain ⟨hheld, hfence, hrace, hpoison⟩ := hl
  obtain ⟨ev, hloc⟩ := hw.run
  have hr := tagReady_of_first (mine := fun b => b.ctx == s.cur && b.here) ((tagFull_iff s k).mpr hfull) hfirst
  have hme : (setEmpty (s.loaded k 8 chk true) k).me = s.me := State.loaded_me ..
  refine ends_of rfl (hw.issues rfl rfl rfl) ?_
  rw [M.bind_ok hloc]
  dsimp only
  rw [M.bind_paddockM _ hfence, M.bind_quiesceM hheld, M.bind_myCore, M.bind_get_apply, if_pos hr, bind_checked_race hrace, show s.racedIf chk k 8 false true = s.loaded k 8 chk true from rfl,
    M.bind_poisonM _ (hpoison.of_poison (State.loaded_poison ..)), M.bind_get_apply, M.bind_ok (tagDone_idle (by simpa using hidle)),
    M.bind_modify_apply, M.bind_ok (markSync_apply _), State.loaded_readW]
  cases own with
  | true => exact writeReg_ready _ ((hown rfl).of_me hme).synced
  | false => exact pendReg_ready _ ((hrem rfl).of_me hme).synced

theorem ldpk_reads (hw : WordAt s m true false k chk own) (hown : own = true → Writes s m.d) (hrem : own = false → Pends s m.d)
    (hl : Loads s k 8 chk true) :
    Ends (.ldpk m) s (if own = true then (s.loaded k 8 chk true).put m.d (readW s k) else (s.loaded k 8 chk true).later m.d (readW s k) 0) := by
  obtain ⟨ev, hloc⟩ := hw.run
  refine ends_of rfl (hw.issues rfl rfl rfl) ?_
  rw [M.bind_ok hloc]
  dsimp only
  rw [M.bind_ok (loadPlace_loads ev false hl)]
  cases own with
  | true => exact writeReg_ready _ ((hown rfl).of_me (State.loaded_me ..))
  | false => exact pendReg_ready _ ((hrem rfl).of_me (State.loaded_me ..))

theorem ste_fills (hidle : ∀ b ∈ s.bank, ¬ (b.ctx = s.cur ∧ b.here = true)) (hw : WordAt s m false true k chk own) (hd : Reads s m.d)
    (hs : Stores s k 8 chk true) (hempty : k / 8 ∉ s.tags) (hfirst : ∀ b ∈ s.bank, ¬ (b.key = k ∧ b.ste = true)) :
    Ends (.ste m) s (setFull (writeNat (s.racedIf chk k 8 true true) k 8 (s.val m.d).toNat) k).synced := by
  obtain ⟨hheld, hfence, hrace⟩ := hs
  obtain ⟨ev, hloc⟩ := hw.run
  have hr := tagReady_of_first (mine := fun b => b.ctx == s.cur && b.here) (by simpa [tagFull] using hempty) hfirst
  refine ends_of rfl (hw.issues rfl rfl rfl) ?_
  rw [M.bind_ok hloc]
  dsimp only
  rw [M.bind_readReg _ hd, M.bind_paddockM _ hfence, M.bind_quiesceM hheld, M.bind_myCore, M.bind_get_apply, if_pos hr, bind_checked_race hrace,
    M.bind_ok (tagDone_idle (by simpa using hidle))]
  rfl

theorem stf_fills (hw : WordAt s m false true k chk own) (hd : Reads s m.d) (hs : Stores s k 8 chk true) :
    Ends (.stf m) s (setFull (s.stored k 8 (s.val m.d).toNat chk true) k).synced := by
  obtain ⟨ev, hloc⟩ := hw.run
  refine ends_of rfl (hw.issues rfl rfl rfl) ?_
  rw [M.bind_ok hloc]
  dsimp only
  rw [M.bind_readReg _ hd, M.bind_ok (storePlace_stores _ ev false false hs)]
  rfl

/-! ### Where it does not -/

theorem ldf_waits (hidle : ∀ b ∈ s.bank, b.ctx ≠ s.cur) (hw : WordAt s m true false k chk own) (hfence : Unfenced s k 8) (hheld : Unheld s k)
    (hempty : k / 8 ∉ s.tags) (h : keyCore k = coreOf s.cur ∨ chk = true ∨ canPend s.me m.d = false) :
    exec (.ldf m) s = .next (unissue { s with bank := s.bank ++ [localWait s k false] } s.cur) := by
  obtain ⟨ev, hloc⟩ := hw.run
  obtain ⟨f, hf, hs⟩ := tagHold_queues (k := k) (ste := false) hidle
  have hr := tagReady_of_tag (mine := fun b => b.ctx == s.cur && b.here) (by simpa [tagFull] using hempty : tagFull s k = false)
  rw [← hs]
  refine runSyl_hold (hw.issues rfl rfl rfl) ?_
  rw [M.bind_ok hloc]
  dsimp only
  rw [M.bind_paddockM _ hfence, M.bind_quiesceM hheld, M.bind_myCore, M.bind_get_apply, hr, if_neg (by decide), if_pos (by simpa using h)]
  exact hf

theorem ste_waits (hidle : ∀ b ∈ s.bank, b.ctx ≠ s.cur) (hw : WordAt s m false true k chk own) (hfence : Unfenced s k 8) (hheld : Unheld s k)
    (hd : Reads s m.d) (hfull : k / 8 ∈ s.tags) (h : keyCore k = coreOf s.cur ∨ chk = true) :
    exec (.ste m) s = .next (unissue { s with bank := s.bank ++ [localWait s k true] } s.cur) := by
  obtain ⟨ev, hloc⟩ := hw.run
  obtain ⟨f, hf, hs⟩ := tagHold_queues (k := k) (ste := true) hidle
  have hr := tagReady_of_tag (mine := fun b => b.ctx == s.cur && b.here) ((tagFull_iff s k).mpr hfull)
  rw [← hs]
  refine runSyl_hold (hw.issues rfl rfl rfl) ?_
  rw [M.bind_ok hloc]
  dsimp only
  rw [M.bind_readReg _ hd, M.bind_paddockM _ hfence, M.bind_quiesceM hheld, M.bind_myCore, M.bind_get_apply, hr, if_neg (by decide), if_pos h]
  exact hf

/-- What an unchecked `ldf` leaves at the bank of another core. -/
def remoteTake (s : State) (k : Nat) (d : Reg) : BankWait := ⟨s.cur, k, false, false, d.toNat, 0, s.qcount, s.me.job⟩

/-- What an unchecked `ste` leaves at the bank of another core. -/
def remoteFill (s : State) (k : Nat) (v : W64) : BankWait := ⟨s.cur, k, true, false, 0, v, s.qcount, s.me.job⟩

theorem ldf_leaves (hw : WordAt s m true false k chk own) (hfence : Unfenced s k 8) (hheld : Unheld s k) (hempty : k / 8 ∉ s.tags)
    (hcore : keyCore k ≠ coreOf s.cur) (hchk : chk = false) (hd0 : m.d ≠ 0) (hd : Pends s m.d) (hp : Unpoisoned s k 8) :
    Ends (.ldf m) s ({ s.setMe { s.me with empty := s.me.empty ||| BitVec.twoPow 64 m.d.toNat } with
      bank := s.bank ++ [remoteTake s k m.d] } : State).synced := by
  obtain ⟨ev, hloc⟩ := hw.run
  obtain ⟨hport, hreg⟩ := hd.resolve_left hd0
  have hr := tagReady_of_tag (mine := fun b => b.ctx == s.cur && b.here) (by simpa [tagFull] using hempty : tagFull s k = false)
  have hn : ¬ (keyCore k = coreOf s.cur ∨ chk = true ∨ ¬ canPend s.me m.d = true) := by
    have hd1 : m.d ≠ 0#6 := hd0
    simp [hcore, hchk, canPend, hd1, hport]
  refine ends_of rfl (hw.issues rfl rfl rfl) ?_
  rw [M.bind_ok hloc]
  dsimp only
  rw [M.bind_paddockM _ hfence, M.bind_quiesceM hheld, M.bind_myCore, M.bind_get_apply, hr, if_neg (by decide), if_neg hn, M.bind_poisonM _ hp,
    M.bind_await (by simpa using hreg), M.bind_modMe, M.bind_modify_apply, markSync_apply,
    State.setMe_me]
  rfl

theorem ste_leaves (hw : WordAt s m false true k chk own) (hfence : Unfenced s k 8) (hheld : Unheld s k) (hd : Reads s m.d) (hfull : k / 8 ∈ s.tags)
    (hcore : keyCore k ≠ coreOf s.cur) (hchk : chk = false) :
    Ends (.ste m) s ({ s with bank := s.bank ++ [remoteFill s k (s.val m.d)] } : State).synced := by
  obtain ⟨ev, hloc⟩ := hw.run
  have hr := tagReady_of_tag (mine := fun b => b.ctx == s.cur && b.here) ((tagFull_iff s k).mpr hfull)
  refine ends_of rfl (hw.issues rfl rfl rfl) ?_
  rw [M.bind_ok hloc]
  dsimp only
  rw [M.bind_readReg _ hd, M.bind_paddockM _ hfence, M.bind_quiesceM hheld, M.bind_myCore, M.bind_get_apply, hr, if_neg (by decide),
    if_neg (by simp [hcore, hchk])]
  rfl

end

theorem taggedOperations : Claims.TaggedOperations := by
  intro m s k chk own hidle
  refine ⟨fun hw hown hrem hl => ⟨fun hfull hfirst => ?_, ldpk_reads hw hown hrem hl⟩, fun hw hd hs => ⟨fun hempty hfirst => ?_, ?_⟩⟩
  · exact ⟨setEmpty (s.loaded k 8 chk true) k, by rw [State.loaded_eq]; rfl, fun i => by rw [setEmpty_tags, mem_setDel, State.loaded_tags],
      ldf_takes hidle hw hown hrem hl hfull hfirst⟩
  · refine ⟨_, ste_fills hidle hw hd hs hempty hfirst, readW_writeNat .., fun i => ?_, fun a ha => ?_, fun j => ?_⟩
    · rw [setFull_tags, mem_setIns, writeNat, writeBytes_eq, State.racedIf_eq]
    · exact (readByte_writeNat_outside _ _ _ _ _ ha).trans (readByte_of_mem (State.racedIf_mem ..) a)
    · rw [setFull_ctx, writeNat, writeBytes_eq, State.racedIf_eq]
      rfl
  · refine ⟨_, stf_fills hw hd hs, readW_stored .., fun i => ?_, fun a ha => ?_, fun j => ?_⟩
    · rw [setFull_tags, mem_setIns, State.stored_tags]
    · exact State.readByte_stored _ _ _ _ _ _ _ ha
    · exact State.stored_ctx ..

/-! ### The steps that serve a wait -/

/-- The one operation that waits, at a bank that no other context holds, is served once its tag allows. -/
theorem taggedWaitServed_runs {s : State} {b : BankWait} (hb : s.bank = [b]) (hhere : b.here = false)
    (hheld : (s.core (keyCore b.key)).holder = none ∨ (s.core (keyCore b.key)).holder = some b.ctx) (ht : tagFull s b.key = !b.ste) :
    exec (.taggedWaitServed b.ctx) s = .next (if b.ste = true then setFull (writeNat { s with bank := [] } b.key 8 b.v.toNat) b.key
      else setEmpty (({ s with bank := [] } : State).updCtx b.ctx fun c =>
        { c with pend := c.pend ++ [⟨b.d, readW { s with bank := [] } b.key, 0, 0⟩] }) b.key) := by
  have hready : tagReady s b.key b.ste (fun x => x == b) = true := by simp [tagReady, hb, ht]
  have hfind : (s.bank.find? fun x => x.ctx == b.ctx && !x.here && tagReady s x.key x.ste fun y => y == x) = some b := by
    rw [hb]
    simp [hhere, hready]
  have herase : s.bank.erase b = [] := by rw [hb]; simp
  refine runEvent_ok ?_
  rw [M.bind_get_apply, hfind]
  dsimp only
  obtain h | h := hheld
  all_goals
    rw [h, if_neg (by simp), M.bind_modify_apply, herase, M.ite_apply, M.modify_apply, M.modify_apply, ← apply_ite, ← apply_ite]

/-- The only value on its way to a register arrives in it. -/
theorem arrive1_only {x : Ctx} {r : Reg} {v fl : W64} {ps : BitVec 4} (hp : x.pend = [⟨r.toNat, v, fl, ps⟩]) :
    arrive1 x r.toNat = { x with
      x := x.x.set! r.toNat v, pend := [], vflags := x.vflags ||| fl, empty := x.empty &&& ~~~ BitVec.twoPow 64 r.toNat } := by
  have hr : r.toNat % 64 = r.toNat := Nat.mod_eq_of_lt r.isLt
  simp [arrive1, hp, hr]

theorem remoteValueArrival_runs {s : State} {c r : Nat} (h : ∃ p ∈ (s.ctx c).pend, p.r = r) :
    exec (.remoteValueArrival c r) s = .next (s.updCtx c fun x => arrive1 x r) := by
  have ha : (s.ctx c).pend.any (fun p => p.r == r) = true := by simpa using h
  show runEvent (modify _) s = _
  rw [runEvent_modify, if_pos ha]

theorem taggedWaits : Claims.TaggedWaits := by
  refine ⟨fun m s k chk own hidle => ⟨fun hw hfence hheld hempty => ⟨fun h => ?_, fun hcore hchk hd0 hd hp => ?_⟩,
    fun hw hfence hheld hd hfull => ⟨fun h => ?_, fun hcore hchk => ?_⟩⟩, fun s b hb hhere hheld => ?_, fun s c r v fl ps hp => ?_⟩
  · exact ⟨_, rfl, rfl, rfl, rfl, ldf_waits hidle hw hfence hheld hempty h⟩
  · exact ⟨_, rfl, rfl, rfl, rfl, rfl, ldf_leaves hw hfence hheld hempty hcore hchk hd0 hd hp⟩
  · exact ⟨_, rfl, rfl, rfl, rfl, ste_waits hidle hw hfence hheld hd hfull h⟩
  · exact ⟨_, rfl, rfl, rfl, rfl, rfl, ste_leaves hw hfence hheld hd hfull hcore hchk⟩
  · refine ⟨fun hste hfull => ⟨_, taggedWaitServed_runs hb hhere hheld (by rw [hste]; exact (tagFull_iff ..).mpr hfull), ?_⟩,
      fun hste hempty => ⟨_, taggedWaitServed_runs hb hhere hheld (by rw [hste]; simpa [tagFull] using hempty), ?_⟩⟩
    · rw [if_neg (by rw [hste]; decide)]
      refine ⟨rfl, fun i => mem_setDel .., ?_, rfl⟩
      rw [setEmpty_ctx, updCtx_ctx_same]
      rfl
    · rw [if_pos hste]
      exact ⟨by rw [setFull, writeNat, writeBytes_eq], fun i => by rw [setFull_tags, mem_setIns, writeNat, writeBytes_eq],
        readW_writeNat .., fun a ha => readByte_writeNat_outside _ _ _ _ _ ha⟩
  · refine ⟨_, remoteValueArrival_runs ⟨_, by rw [hp]; exact List.mem_singleton_self _, rfl⟩, ?_⟩
    rw [updCtx_ctx_same, arrive1_only hp]
    refine ⟨?_, ?_, rfl, rfl, rfl, fun q hq => ?_⟩
    · exact Vector.getElem_set!_self r.isLt
    · simp
    · have hne : q.toNat ≠ r.toNat := fun e => hq (BitVec.eq_of_toNat_eq e)
      have hlt : q.toNat < 64 := q.isLt
      exact ⟨Vector.getElem_set!_ne hlt hne.symm, by simp [hlt, hne]⟩

/-- Settles O23: where the tag allows and where it does not, and the steps that serve a wait and let a value arrive. -/
theorem taggedMemory : Obligations.TaggedMemory := ⟨taggedOperations, taggedWaits⟩

end Sys2Proof.Machine
end

section
/-! PROOFS. A register name bound to a chute (R81, R457): the pop of a source, the push of a destination, and the faults and waits of both. -/

namespace Sys2Proof.Machine

theorem chutePopsSource : Claims.ChutePopsSource := by
  intro r e p k s h0 hb hp hl hok hbound hc hh hf hf2 hr hr2 hp1 hp2
  obtain ⟨t, hpop, hcur, hmem⟩ := popChute_mem hok hbound hc hh hf hf2 hr hr2 hp1 hp2
  have hm : (popLeaves s t p k).mem = (writeNat s k 8 (popWord (readW s k)).toNat).mem := (popLeaves_mem ..).trans hmem
  have hw : readW (popLeaves s t p k) k = popWord (readW s k) := (readW_of_mem hm k).trans (readW_writeNat ..)
  obtain ⟨hcount, hhead, htail, hsize⟩ := popWord_fields (readW s k)
  refine ⟨_, readReg_pop e h0 hb hp hl hpop hcur, ?_⟩
  rw [hw]
  exact ⟨hcount, hhead, htail, hsize, fun a ha => (readByte_of_mem hm a).trans (readByte_writeNat_outside _ _ _ _ _ ha)⟩

theorem chutePushesDestination : Claims.ChutePushesDestination := by
  intro r v p k s h0 hb hp hok hbound hc hh hf hf2 hr hr2 hp1
  obtain ⟨t, hpush, hm⟩ := pushChute_mem v hok hbound hc hh hf hf2 hr hr2 hp1
  have hw : readW t k = pushWord (readW s k) := (readW_of_mem hm k).trans (readW_writeNat ..)
  have hslot : readW t (tailKey s k) = v := by
    rw [readW_of_mem hm, readW_writeNat_apart _ _ _ _ _ (by unfold tailKey; omega), readW_writeNat]
  obtain ⟨hcount, htail, hhead, hsize⟩ := pushWord_fields (readW s k) hc
  refine ⟨t, (writeReg_push v h0 hb hp).trans hpush, hslot, ?_⟩
  rw [hw]
  refine ⟨hcount, htail, hhead, hsize, fun a ha hs => ?_⟩
  rw [readByte_of_mem hm, readByte_writeNat_outside _ _ _ _ _ ha]
  exact readByte_writeNat_outside _ _ _ _ _ hs

theorem readReg_wrongPort {s : State} {r : Reg} {p : Fin 8} {k : Nat} (e : Bool) (h0 : r ≠ 0) (hb : boundPort s.me r = some (p, k))
    (hp : 4 ≤ p.val) : readReg r e s = .error (.trap cChute (readW s k)) := by
  simp only [readReg, M.bind_getMe, h0, if_false, hb, Nat.not_lt.mpr hp, M.bind_get_apply]
  rfl

theorem writeReg_wrongPort {s : State} {r : Reg} {p : Fin 8} {k : Nat} (v : W64) (h0 : r ≠ 0) (hb : boundPort s.me r = some (p, k))
    (hp : p.val < 4) : writeReg r v s = .error (.trap cChute (readW s k)) := by
  simp only [writeReg, M.bind_getMe, h0, if_false, hb, Nat.not_le.mpr hp, M.bind_get_apply]
  rfl

theorem popPort_stops {s : State} {p : Fin 8} {k : Nat} {x : Stop} (hl : s.me.latch.toList.getD p.val none = none)
    (h : popChute k (s.me.portChk p) s = .error x) : popPort p k s = .error x := by
  simp only [popPort, M.bind_getMe, hl]
  exact M.bind_error h

section
variable {s : State} {k : Nat} {chk : Bool} (hh : Unheld s k) (hf : Unfenced s k 8)
include hh hf

theorem popChute_bad (h : (chuteOk k (readW s k) && bit (readW s k) 60) = false) : popChute k chk s = .error (.trap cChute (readW s k)) := by
  simp only [popChute]
  rw [M.bind_quiesceM hh, M.bind_paddockM _ hf, M.bind_get_apply, M.bind_check_fails h]

theorem popChute_empty (h : (chuteOk k (readW s k) && bit (readW s k) 60) = true) (hc : chuteCount (readW s k) = 0) :
    popChute k chk s = .error .wait := by
  simp only [popChute]
  rw [M.bind_quiesceM hh, M.bind_paddockM _ hf, M.bind_get_apply, M.bind_check h, M.bind_await_fails (by rw [hc]; rfl)]

theorem pushChute_bad {v : W64} (h : (chuteOk k (readW s k) && bit (readW s k) 61) = false) :
    pushChute k chk v s = .error (.trap cChute (readW s k)) := by
  simp only [pushChute]
  rw [M.bind_quiesceM hh, M.bind_paddockM _ hf, M.bind_get_apply, M.bind_check_fails h]

theorem pushChute_full {v : W64} (h : (chuteOk k (readW s k) && bit (readW s k) 61) = true)
    (hc : chuteSize (readW s k) + 1 ≤ chuteCount (readW s k)) : pushChute k chk v s = .error .wait := by
  simp only [pushChute]
  rw [M.bind_quiesceM hh, M.bind_paddockM _ hf, M.bind_get_apply, M.bind_check h, M.bind_await_fails (by simpa using hc)]

end

theorem chutePortsFaultOrWait : Claims.ChutePortsFaultOrWait := by
  intro r e v p k s h0 hb
  refine ⟨readReg_wrongPort e h0 hb, writeReg_wrongPort v h0 hb, fun hh hf hl => ⟨fun hp h => ?_, fun hp h => ?_, fun hp h hc => ?_, fun hp h hc => ?_⟩⟩
  · exact (readReg_port e h0 hb hp).trans (popPort_stops hl (popChute_bad hh hf h))
  · exact (writeReg_push v h0 hb hp).trans (pushChute_bad hh hf h)
  · exact (readReg_port e h0 hb hp).trans (popPort_stops hl (popChute_empty hh hf h hc))
  · exact (writeReg_push v h0 hb hp).trans (pushChute_full hh hf h hc)

/-- Settles O5: the pop, the push, and what stops either. -/
theorem chuteOperands : Obligations.ChuteOperands := ⟨chutePopsSource, chutePushesDestination, chutePortsFaultOrWait⟩

end Sys2Proof.Machine
end

section
/-! PROOFS. The operands of a syllable (R117, R121, R122, R142), and what follows it (R116, R118, R125). -/

namespace Sys2Proof.Machine

/-! ### Sources and destinations (R117, R121, R122, R142) -/

/-- A register other than x0 that is no chute port, in slot 0 or with S = 1, reads as the context has it. -/
theorem State.val_of_noSnap {s : State} {r : Reg} (h0 : r ≠ 0) (hs : (s.me.iss.getD {}).snap = none) : s.val r = s.me.x[r.toNat] := by
  simp only [State.val, h0, if_false, hs]
  rfl

/-- R117: with the registers kept from before the bundle, a register reads as it stood there. -/
theorem State.val_of_snap {s : State} {r : Reg} {v : Vector W64 64} (h0 : r ≠ 0) (hs : (s.me.iss.getD {}).snap = some v) : s.val r = v[r.toNat] := by
  simp only [State.val, h0, if_false, hs]
  rfl

theorem sourceRegisters : Claims.SourceRegisters := by
  refine fun r e s => ⟨?_, fun h0 hb hs => ⟨fun he => ?_, fun he => ?_⟩⟩
  · rw [readReg_ready e (Or.inl rfl), State.val_zero]
  · rw [readReg_ready e (.inr ⟨hb, .inr he⟩), State.val_of_noSnap h0 hs]
  · rw [readReg_empty e h0 hb hs he, BitVec.ofNat_toNat]
    rfl

theorem slotOneReadsOldValues : Claims.SlotOneReadsOldValues := by
  intro r e v s h0 hb hs
  rw [readReg_ready e (.inr ⟨hb, .inl (by rw [hs]; rfl)⟩), State.val_of_snap h0 hs]

/-- A destination of a bundle that has popped a chute of another slice is marked empty, its value on the way. -/
theorem writeReg_remote {s : State} {r : Reg} (v : W64) (h0 : r ≠ 0) (hb : boundPort s.me r = none)
    (he : s.me.empty.getLsbD r.toNat = false) (hr : (s.me.iss.getD {}).remote = true) : writeReg r v s = .ok ((), s.later r v 0) := by
  rw [← pendReg_ready v (.inr ⟨hb, he⟩)]
  simp only [writeReg, M.bind_getMe, h0, if_false, hb, he, hr, if_true]
  rfl

/-- A register reads after a write of a register as `get_put` says, by number. -/
theorem State.x_put (s : State) (r q : Reg) (v : W64) : (s.put r v).me.x[q.toNat] = if q = r ∧ r ≠ 0 then v else s.me.x[q.toNat] :=
  get_put s r q v

theorem destinationRegisters : Claims.DestinationRegisters := by
  refine fun r v s => ⟨writeReg_ready v (.inl rfl), fun h0 hb => ⟨writeReg_empty v h0 hb, writeReg_remote v h0 hb, fun he hr => ?_⟩⟩
  refine ⟨s.put r v, writeReg_ready v (.inr ⟨hb, he, hr⟩), State.put_set s r v, ?_, fun q hq => ?_⟩
  · rw [State.x_put, if_pos ⟨rfl, h0⟩]
  · rw [State.x_put, if_neg fun h => hq h.1]

/-- R142: a two-source instruction reads a, then its second source, and then writes d. -/
theorem scalar2_eq (r : RArgs) (f : W64 → W64 → W64) :
    scalar2 r f = readReg r.a r.ea >>= fun a => readOp2 r.op2 >>= fun b => writeReg r.d (f a b) := by
  simp only [scalar2, readOps, bind_assoc, pure_bind]

/-- A two-source instruction without a fault of its own at issue has the outcome of those accesses. -/
theorem exec_scalar2 {i : Instr} {r : RArgs} {f : W64 → W64 → W64} {s : State} (hx : exec i s = runSyl i (scalar2 r f) s)
    (hi : issuesFreely i = true) :
    exec i s = outcome s ((readReg r.a r.ea >>= fun a => readOp2 r.op2 >>= fun b => writeReg r.d (f a b)) s) := by
  rw [hx, runSyl, issueFault_free hi, scalar2_eq]

theorem twoSourceForms : Claims.TwoSourceForms := fun _ _ => ⟨exec_scalar2 rfl rfl, exec_scalar2 rfl rfl, exec_scalar2 rfl rfl⟩

/-- Settles O4: sources, slot 1's view of them, destinations, and the order of a two-source instruction's accesses. -/
theorem registerOperands : Obligations.RegisterOperands := ⟨sourceRegisters, slotOneReadsOldValues, destinationRegisters, twoSourceForms⟩

/-! ### What follows a syllable (R116, R118, R125) -/

/-- R125: a repetition that is not the last has executed: the next one comes next. -/
theorem advance_repeats {s : State} {c : Nat} {i : Issue} {cnt : BitVec 6} {ds as bs : BitVec 2} (hi : (s.ctx c).iss = some i) (h1 : i.slot1 = true)
    (hr : i.rep = some (cnt, ds, as, bs)) (hj : i.j < cnt) :
    advance s c = s.setCtx c { (s.ctx c).setWait .none with
      region := if i.sync then (s.ctx c).region + 1 else (s.ctx c).region
      acq := false
      iss := some { i with sync := false, remote := false, pops := 0, waited := false, j := i.j + 1 } } := by
  have hx : ((s.ctx c).setWait .none).iss = some i := hi
  simp only [advance, hx, Option.getD_some, h1, Bool.not_true, Bool.false_eq_true, if_false, hr, hj, if_true]
  rfl

/-- Settles O6: slot 1 after slot 0, the next bundle after slot 1, and the next repetition of REP. -/
theorem bundleAdvances : Obligations.BundleAdvances := by
  refine fun s c i hi hsync => ⟨fun h0 => ?_, fun h1 hr hh hl hg => ?_, fun cnt ds as bs h1 hr hj => ?_⟩
  · rw [advance_slot0 hi h0]
    exact ⟨_, SetsCtx.setCtx .., rfl, rfl, by rw [hsync]⟩
  · exact ⟨_, advance_slot1 hi h1 hr hh hl hg, rfl, rfl, rfl, rfl, rfl⟩
  · rw [advance_repeats hi h1 hr hj]
    exact ⟨_, SetsCtx.setCtx .., rfl, rfl, by rw [hsync]⟩

end Sys2Proof.Machine
end

section
/-! PROOFS. The words of syllables (R119, R120, R124, R133): those that are not instructions, and what the decoder and the encoder disagree on. -/

namespace Sys2Proof.Machine

theorem decodeSyllable_unassigned {slot1 : Bool} {bimm : BitVec 16} {w : Syl} (h : formatOf (w.extractLsb' 40 8).toNat = none) :
    decodeSyllable slot1 bimm w = .error .illegal := by
  simp only [decodeSyllable, h]

/-- R124: REP stands in slot 0 alone. -/
theorem decodeSyllable_rep_slot1 {bimm : BitVec 16} {w : Syl} (h : (w.extractLsb' 40 8).toNat = 0xFE) : decodeSyllable true bimm w = .error .illegal := by
  simp only [decodeSyllable, h]
  rfl

theorem formatOf_unassigned {m : Nat} (h : 256 ≤ m ∨ m = 0 ∨ 0xF0 ≤ m ∧ m ≤ 0xFD) : formatOf m = none := by
  obtain h | rfl | h := h
  · simp +arith [formatOf, show ∀ k < 256, ¬ m ≤ k by omega, show ∀ k < 256, m ≠ k by omega]
  · rfl
  · simp +arith [formatOf, show ∀ k < 0xF0, ¬ m ≤ k by omega, show ∀ k < 0xF0, m ≠ k by omega, show m ≠ 0xFE by omega, show m ≠ 0xFF by omega]

/-- The majors that the state makes illegal are those of `illegalMajor`. -/
theorem illegalHere_iff {s : State} {w : Syl} : Claims.IllegalHere s w ↔ illegalMajor s s.cur w = true := by
  unfold Claims.IllegalHere illegalMajor
  rw [← State.me_eq]
  split <;> simp_all

/-- A word that does not decode faults at issue with the cause of that. -/
theorem unassignedEncoding_error {w : Syl} {s : State} {e : DecodeError}
    (h : decodeSyllable (s.me.iss.getD {}).slot1 (unpackHeader (s.me.iss.getD {}).hdr).bimm w = .error e) :
    IssueTraps (.unassignedEncoding w) s (badCause s s.cur w e) (w.setWidth 64) := by
  show execUnassignedEncoding w s = _
  simp only [execUnassignedEncoding, h]

/-- A word that decodes, taken for one that does not, faults with ILLEGAL_INSTR. -/
theorem unassignedEncoding_ok {w : Syl} {s : State} {i : Instr}
    (h : decodeSyllable (s.me.iss.getD {}).slot1 (unpackHeader (s.me.iss.getD {}).hdr).bimm w = .ok i) :
    IssueTraps (.unassignedEncoding w) s cIllegal (w.setWidth 64) := by
  show execUnassignedEncoding w s = _
  simp only [execUnassignedEncoding, h]

/-- The cause of a word that does not decode is ILLEGAL_INSTR, but where only a reserved field is wrong and the state allows its major. -/
theorem badCause_eq_illegal {s : State} {w : Syl} {e : DecodeError} (h : e ≠ .reserved ∨ Claims.IllegalHere s w) :
    badCause s s.cur w e = cIllegal := by
  by_cases hh : Claims.IllegalHere s w
  · rw [badCause, if_pos (illegalHere_iff.mp hh)]
  · rw [badCause, if_neg (mt illegalHere_iff.mpr hh)]
    cases e with
    | illegal => rfl
    | reserved => exact absurd rfl (h.resolve_right hh)

theorem badCause_eq_reserved {s : State} {w : Syl} (h : ¬ Claims.IllegalHere s w) : badCause s s.cur w .reserved = cReserved := by
  rw [badCause, if_neg (mt illegalHere_iff.mpr h)]
  rfl

/-- Settles O46: the majors that no format has, REP in slot 1, and the cause with which such a word faults. -/
theorem unassignedEncodings : Obligations.UnassignedEncodings := by
  refine ⟨fun _ _ _ => decodeSyllable_unassigned, fun _ _ => decodeSyllable_rep_slot1, fun _ => formatOf_unassigned, fun w s => ⟨fun hd hn => ?_, fun hd => ?_⟩⟩
  · have h := unassignedEncoding_error hd
    rwa [badCause_eq_reserved hn] at h
  · cases hw : decodeSyllable (s.me.iss.getD {}).slot1 (unpackHeader (s.me.iss.getD {}).hdr).bimm w with
    | ok i => exact unassignedEncoding_ok hw
    | error e =>
      have h := unassignedEncoding_error hw
      rwa [badCause_eq_illegal (hd.imp_left fun hne he => hne (by rw [hw, he]))] at h

/-- Settles O47: each word is decoded. -/
theorem decodeWords : Obligations.DecodeWords := by
  unfold Obligations.DecodeWords
  decide

/-- Refutes O44: `vcvt` from bf16 to fp32 with a rounding mode. Well-formedness lets every conversion to a floating-point type round; the decoder
follows R105 and R248, by which this one is exact and rnd must be 0. -/
theorem not_decodeEncode : ¬ Obligations.DecodeEncode := by
  intro h
  exact absurd (h false (.vcvt ⟨0, 0, 0, 0, 7, 6, 1, 0, 0⟩) ⟨0xB3, .v ⟨0, 0, 0, 0, 0x76, 1, 0⟩, 0⟩ rfl rfl nofun) (by decide)

/-- Refutes O45: the word of `vred.max` on bf16 with a rounding mode. The decoder lets every floating-point reduction round; by R248 and R260 only
a sum rounds, so that rnd must be 0 in this one, and well-formedness asks for that. -/
theorem not_decodeIsEncoded : ¬ Obligations.DecodeIsEncoded := by
  intro h
  exact absurd (h false 0 0xBA0000006140 (.vred ⟨0, 0, 0, 0, 6, 1, 1, 0, 0⟩) (by decide)).1 (by decide)

end Sys2Proof.Machine
end

section
/-! PROOFS. The scalar integer instructions (R142 to R148): what each leaves in its destination, the faults of division, and their frame. -/

namespace Sys2Proof.Machine

/-! ### Results as numbers (R144) -/

theorem sub_eq_ofInt (a b : W64) : a - b = BitVec.ofInt 64 (a.toInt - b.toInt) := by
  rw [Int.sub_eq_add_neg, BitVec.ofInt_add, BitVec.ofInt_neg, BitVec.ofInt_toInt, BitVec.ofInt_toInt, BitVec.sub_eq_add_neg]

theorem add_eq_ofNat (a b : W64) : a + b = BitVec.ofNat 64 (a.toNat + b.toNat) := by
  rw [BitVec.ofNat_add, BitVec.ofNat_toNat, BitVec.ofNat_toNat, BitVec.setWidth_eq, BitVec.setWidth_eq]

theorem mul_eq_ofInt (a b : W64) : a * b = BitVec.ofInt 64 (a.toInt * b.toInt) := by
  rw [BitVec.ofInt_mul, BitVec.ofInt_toInt, BitVec.ofInt_toInt]

theorem mul_eq_ofNat (a b : W64) : a * b = BitVec.ofNat 64 (a.toNat * b.toNat) := by
  rw [BitVec.ofNat_mul, BitVec.ofNat_toNat, BitVec.ofNat_toNat, BitVec.setWidth_eq, BitVec.setWidth_eq]

theorem shl_eq_ofNat (a : W64) (n : Nat) : a <<< n = BitVec.ofNat 64 (a.toNat * 2 ^ n) := by
  apply BitVec.eq_of_toNat_eq
  rw [BitVec.toNat_shiftLeft, BitVec.toNat_ofNat, Nat.shiftLeft_eq]

theorem madd_eq_ofNat (a b d : W64) : d + a * b = BitVec.ofNat 64 (d.toNat + a.toNat * b.toNat) := by
  rw [mul_eq_ofNat, add_eq_ofNat, BitVec.toNat_ofNat]
  apply BitVec.eq_of_toNat_eq
  simp only [BitVec.toNat_ofNat, Nat.add_mod_mod]

theorem shr_eq_ofNat (a : W64) (n : Nat) : a >>> n = BitVec.ofNat 64 (a.toNat / 2 ^ n) := by
  apply BitVec.eq_of_toNat_eq
  rw [BitVec.toNat_ushiftRight, BitVec.toNat_ofNat, Nat.shiftRight_eq_div_pow,
    Nat.mod_eq_of_lt (lt_of_le_of_lt (Nat.div_le_self ..) a.isLt)]

theorem sra_eq_ofInt (a : W64) (n : Nat) : a.sshiftRight n = BitVec.ofInt 64 (a.toInt / 2 ^ n) := by
  rw [BitVec.sshiftRight, Int.shiftRight_eq_div_pow]
  push_cast
  rfl

/-- A rotation puts the bits that leave at the top below the others, so that the two parts add. -/
theorem rot_eq_ofNat (a : W64) {n : Nat} (h : n < 64) :
    a.rotateLeft n = BitVec.ofNat 64 (a.toNat * 2 ^ n % 2 ^ 64 + a.toNat / 2 ^ (64 - n)) := by
  have hlow : a.toNat / 2 ^ (64 - n) < 2 ^ n := by
    rw [Nat.div_lt_iff_lt_mul (by positivity), ← pow_add, Nat.add_sub_cancel' h.le]
    exact a.isLt
  have hw : 2 ^ n * 2 ^ (64 - n) = 2 ^ 64 := by rw [← pow_add, Nat.add_sub_cancel' h.le]
  have hhigh : a.toNat * 2 ^ n % 2 ^ 64 = 2 ^ n * (a.toNat % 2 ^ (64 - n)) := by rw [← Nat.mul_mod_mul_left, hw, Nat.mul_comm]
  have hm : a.toNat % 2 ^ (64 - n) + 1 ≤ 2 ^ (64 - n) := Nat.mod_lt _ (by positivity)
  have hlt : 2 ^ n * (a.toNat % 2 ^ (64 - n)) + a.toNat / 2 ^ (64 - n) < 2 ^ 64 := calc
    _ < 2 ^ n * (a.toNat % 2 ^ (64 - n)) + 2 ^ n := by omega
    _ = 2 ^ n * (a.toNat % 2 ^ (64 - n) + 1) := by ring
    _ ≤ 2 ^ n * 2 ^ (64 - n) := Nat.mul_le_mul_left _ hm
    _ = 2 ^ 64 := hw
  apply BitVec.eq_of_toNat_eq
  rw [BitVec.toNat_rotateLeft, Nat.mod_eq_of_lt h, Nat.shiftLeft_eq, Nat.shiftRight_eq_div_pow, BitVec.toNat_ofNat, hhigh,
    ← Nat.two_pow_add_eq_or_of_lt hlow, Nat.mod_eq_of_lt hlt]

theorem minW_signed (a b : W64) : minW false a b = BitVec.ofInt 64 (min a.toInt b.toInt) := by
  rw [min_def, apply_ite (BitVec.ofInt 64), BitVec.ofInt_toInt, BitVec.ofInt_toInt]
  rfl

theorem maxW_signed (a b : W64) : maxW false a b = BitVec.ofInt 64 (max a.toInt b.toInt) := by
  rw [max_def, apply_ite (BitVec.ofInt 64), BitVec.ofInt_toInt, BitVec.ofInt_toInt]
  rfl

theorem minW_unsigned (a b : W64) : minW true a b = BitVec.ofNat 64 (min a.toNat b.toNat) := by
  rw [min_def, apply_ite (BitVec.ofNat 64), BitVec.ofNat_toNat, BitVec.ofNat_toNat, BitVec.setWidth_eq, BitVec.setWidth_eq]
  rfl

theorem maxW_unsigned (a b : W64) : maxW true a b = BitVec.ofNat 64 (max a.toNat b.toNat) := by
  rw [max_def, apply_ite (BitVec.ofNat 64), BitVec.ofNat_toNat, BitVec.ofNat_toNat, BitVec.setWidth_eq, BitVec.setWidth_eq]
  rfl

/-! ### Bits and fields (R146 to R148) -/

theorem absW_eq_ofInt (a : W64) : absW a = BitVec.ofInt 64 |a.toInt| := by
  unfold absW
  split
  · next h => rw [abs_of_neg h]
  · next h => rw [abs_of_nonneg (not_lt.mp h)]

/-- Above the leading zero bits of the low n bits stands a one, unless all n are zero. -/
theorem leadZeros_spec (a : W64) (n : Nat) :
    leadZeros a n ≤ n ∧ (∀ i, n - leadZeros a n ≤ i → i < n → a.getLsbD i = false) ∧
      (leadZeros a n < n → a.getLsbD (n - 1 - leadZeros a n) = true) := by
  induction n with
  | zero => exact ⟨le_rfl, fun i _ h => absurd h (Nat.not_lt_zero i), fun h => absurd h (Nat.not_lt_zero _)⟩
  | succ n ih =>
    obtain ⟨hle, hzero, hone⟩ := ih
    cases h : a.getLsbD n with
    | true =>
      simp only [leadZeros, h, if_true]
      exact ⟨Nat.zero_le _, fun i h1 h2 => by omega, fun _ => h⟩
    | false =>
      simp only [leadZeros, h, Bool.false_eq_true, if_false]
      refine ⟨by omega, fun i h1 h2 => ?_, fun h1 => ?_⟩
      · rcases Nat.lt_succ_iff_lt_or_eq.mp h2 with hi | rfl
        · exact hzero i (by omega) hi
        · exact h
      · rw [show n + 1 - 1 - (leadZeros a n + 1) = n - 1 - leadZeros a n by omega]
        exact hone (by omega)

/-- After the trailing zero bits from bit i stands a one, unless all n are zero. -/
theorem trailZeros_spec (a : W64) (n i : Nat) :
    trailZeros a i n ≤ n ∧ (∀ j, i ≤ j → j < i + trailZeros a i n → a.getLsbD j = false) ∧
      (trailZeros a i n < n → a.getLsbD (i + trailZeros a i n) = true) := by
  induction n generalizing i with
  | zero => exact ⟨le_rfl, fun j h1 h2 => absurd h2 (Nat.not_lt.mpr h1), fun h => absurd h (Nat.not_lt_zero _)⟩
  | succ n ih =>
    obtain ⟨hle, hzero, hone⟩ := ih (i + 1)
    cases h : a.getLsbD i with
    | true =>
      simp only [trailZeros, h, if_true]
      exact ⟨Nat.zero_le _, fun j h1 h2 => absurd h2 (Nat.not_lt.mpr h1), fun _ => h⟩
    | false =>
      simp only [trailZeros, h, Bool.false_eq_true, if_false]
      refine ⟨by omega, fun j h1 h2 => ?_, fun h1 => ?_⟩
      · rcases Nat.eq_or_lt_of_le h1 with rfl | hi
        · exact h
        · exact hzero j hi (by omega)
      · rw [show i + (trailZeros a (i + 1) n + 1) = i + 1 + trailZeros a (i + 1) n by omega]
        exact hone (by omega)

theorem ones_eq_length (a : W64) (n : Nat) : ones a n = ((List.range n).filter fun i => a.getLsbD i).length := by
  induction n with
  | zero => rfl
  | succ n ih =>
    rw [List.range_succ, List.filter_append, List.length_append, ones, ih, Nat.add_comm]
    cases h : a.getLsbD n <;> simp [h]

theorem field_eq_extract (a : W64) (p w : Nat) : field a p w = (a.extractLsb' p w).toNat := by
  rw [BitVec.extractLsb'_toNat, Nat.shiftRight_eq_div_pow]
  rfl

theorem extractW_unsigned (a : W64) (p w : Nat) : extractW true p w a = (a.extractLsb' p w).setWidth 64 := by
  rw [← BitVec.ofNat_toNat, ← field_eq_extract]
  rfl

theorem extractW_signed (a : W64) (p w : Nat) : extractW false p w a = (a.extractLsb' p w).signExtend 64 := by
  rw [BitVec.signExtend, ← sx_eq_toInt, ← field_eq_extract]
  rfl

/-- Bit by bit, an insertion takes the field from the low bits of a and the rest from d. -/
theorem getLsbD_insertW (p w : Nat) (a d : W64) (i : Nat) (h : i < 64) :
    (insertW p w a d).getLsbD i = if p ≤ i ∧ i < p + w then a.getLsbD (i - p) else d.getLsbD i := by
  have hmask : (w64 (2 ^ w - 1) <<< p).getLsbD i = decide (p ≤ i ∧ i < p + w) := by
    have : decide (i - p < 64) = true := by simp; omega
    rw [BitVec.getLsbD_shiftLeft, w64, BitVec.getLsbD_ofNat, Nat.testBit_two_pow_sub_one, this, Bool.true_and]
    by_cases h1 : p ≤ i
    · simp [h, h1, Nat.not_lt.mpr h1, Nat.sub_lt_iff_lt_add h1, Nat.add_comm w]
    · simp [h1, Nat.not_le.mp h1]
  simp only [insertW, BitVec.getLsbD_or, BitVec.getLsbD_and, BitVec.getLsbD_not, hmask, BitVec.getLsbD_shiftLeft, h]
  by_cases hin : p ≤ i ∧ i < p + w
  · simp [hin, Nat.not_lt.mpr hin.1]
  · simp [hin]

theorem movh_eq_ofNat (v : BitVec 24) (d : W64) : v ++ d.extractLsb' 0 40 = BitVec.ofNat 64 (v.toNat * 2 ^ 40 + d.toNat % 2 ^ 40) := by
  apply BitVec.eq_of_toNat_eq
  have h1 := v.isLt
  rw [BitVec.toNat_append, BitVec.extractLsb'_toNat, Nat.shiftRight_zero, Nat.shiftLeft_eq, Nat.mul_comm, BitVec.toNat_ofNat,
    ← Nat.two_pow_add_eq_or_of_lt (Nat.mod_lt _ (by positivity))]
  omega

theorem lea_eq_ofNat (a b : W64) (n : Nat) : a + b <<< n = BitVec.ofNat 64 (a.toNat + b.toNat * 2 ^ n) := by
  rw [shl_eq_ofNat, add_eq_ofNat, BitVec.toNat_ofNat]
  apply BitVec.eq_of_toNat_eq
  simp only [BitVec.toNat_ofNat, Nat.add_mod_mod]

/-! ### Quotients and remainders (R145) -/

/-- The one signed quotient that does not fit: -2^63 by -1. -/
theorem overflows_iff (a b : W64) : a = BitVec.intMin 64 ∧ b = BitVec.allOnes 64 ↔ a.toInt = -2 ^ 63 ∧ b.toInt = -1 := by
  rw [← BitVec.toInt_inj (y := BitVec.intMin 64), ← BitVec.toInt_inj (y := BitVec.allOnes 64)]
  rfl

theorem remW_signed (a b : W64) : remW false a b = BitVec.ofInt 64 (a.toInt - a.toInt.tdiv b.toInt * b.toInt) := by
  rw [Int.mul_comm, ← Int.tmod_def]
  rfl

theorem remW_unsigned (a b : W64) : remW true a b = BitVec.ofNat 64 (a.toNat - a.toNat / b.toNat * b.toNat) := by
  rw [Nat.mul_comm, ← Nat.mod_eq_sub]
  rfl

theorem remW_overflow {a b : W64} (h : a.toInt = -2 ^ 63 ∧ b.toInt = -1) : remW false a b = 0 := by
  obtain ⟨ha, hb⟩ := (overflows_iff a b).mpr h
  subst ha hb
  decide

/-! ### The shapes of the instructions -/

theorem twoSource_of {i : RArgs → Instr} {f g : W64 → W64 → W64} (hf : ∀ a b, f a b = g a b)
    (hx : ∀ r s, exec (i r) s = runSyl (i r) (scalar2 r f) s := by intros; rfl)
    (hi : ∀ r, issuesFreely (i r) = true := by intro; rfl) : Claims.TwoSource i g := by
  intro r s ha hb hd
  rw [← hf]
  exact ends_free (hx r s) (hi r) (scalar2_ready f ha hb hd)

theorem threeSource_of {i : RArgs → Instr} {f g : W64 → W64 → W64 → W64} (hf : ∀ a b d, f a b d = g a b d)
    (hx : ∀ r s, exec (i r) s = runSyl (i r) (scalar3 r f) s := by intros; rfl)
    (hi : ∀ r, issuesFreely (i r) = true := by intro; rfl) : Claims.ThreeSource i g := by
  intro r s ha hb hr hd
  rw [← hf]
  exact ends_free (hx r s) (hi r) (scalar3_ready f ha hb hr hd)

theorem amount_lt (b : W64) : amount b < 64 := Nat.mod_lt _ (by decide)

/-- Settles O1: each result of the model, as the number that R144 gives. -/
theorem twoSourceResults : Obligations.TwoSourceResults :=
  ⟨twoSource_of add_eq_ofNat, twoSource_of sub_eq_ofInt, twoSource_of mul_eq_ofInt, twoSource_of mul_eq_ofNat,
   twoSource_of fun _ _ => rfl, twoSource_of fun _ _ => rfl, threeSource_of madd_eq_ofNat,
   twoSource_of fun _ _ => rfl, twoSource_of fun _ _ => rfl, twoSource_of fun _ _ => rfl, twoSource_of fun _ _ => rfl,
   twoSource_of fun _ _ => rfl, twoSource_of fun a b => shl_eq_ofNat a (amount b), twoSource_of fun a b => shr_eq_ofNat a (amount b),
   twoSource_of fun a b => sra_eq_ofInt a (amount b), twoSource_of fun a b => rot_eq_ofNat a (amount_lt b),
   twoSource_of minW_signed, twoSource_of maxW_signed, twoSource_of minW_unsigned, twoSource_of maxW_unsigned⟩

theorem execBfi_ready {f : FArgs} {s : State} (ha : Reads s f.a) (hd : Writes s f.d) (hr : Reads s f.d) :
    Ends (.bfi f) s (s.put f.d (insertW f.p.toNat (f.wm1.toNat + 1) (s.val f.a) (s.val f.d))) :=
  ends_free rfl rfl (by rw [M.bind_readReg _ ha, M.bind_readReg _ hr]; exact writeReg_ready _ hd)

theorem execMovh_ready {d : Reg} {v : BitVec 24} {s : State} (hr : Reads s d) (hd : Writes s d) :
    Ends (.movh d v) s (s.put d (v ++ (s.val d).extractLsb' 0 40)) :=
  ends_free rfl rfl (by rw [M.bind_readReg _ hr]; exact writeReg_ready _ hd)

theorem oneSourceResults : Claims.OneSourceResults := by
  refine ⟨fun u s ha hd => ⟨?_, ⟨leadZeros (s.val u.a) 64, ?_, ?_⟩, ⟨trailZeros (s.val u.a) 0 64, ?_, ?_⟩, ?_⟩,
    fun f s _ ha hd => ⟨?_, ?_, fun hr => ⟨_, execBfi_ready ha hd hr, fun i hi => getLsbD_insertW _ _ _ _ i hi⟩⟩⟩
  · rw [← absW_eq_ofInt]
    exact ends_free rfl rfl (scalar1_ready absW ha hd)
  · exact leadZeros_spec (s.val u.a) 64
  · exact ends_free rfl rfl (scalar1_ready _ ha hd)
  · obtain ⟨hle, hzero, hone⟩ := trailZeros_spec (s.val u.a) 64 0
    rw [Nat.zero_add] at hzero hone
    exact ⟨hle, fun i => hzero i (Nat.zero_le i), hone⟩
  · exact ends_free rfl rfl (scalar1_ready _ ha hd)
  · rw [← ones_eq_length]
    exact ends_free rfl rfl (scalar1_ready _ ha hd)
  · rw [← extractW_unsigned]
    exact ends_free rfl rfl (scalar1_ready (u := ⟨f.d, f.a, f.ea⟩) _ ha hd)
  · rw [← extractW_signed]
    exact ends_free rfl rfl (scalar1_ready (u := ⟨f.d, f.a, f.ea⟩) _ ha hd)

/-- A comparison leaves one of two values, by what the condition decides. -/
theorem compare_of {c : BitVec 3} {p : W64 → W64 → Prop} [∀ a b, Decidable (p a b)] (h : ∀ a b, compareW c a b = true ↔ p a b) :
    Claims.TwoSource (.cmp c) fun a b => if p a b then 1 else 0 :=
  twoSource_of fun a b => if_congr (h a b) rfl rfl

theorem selectCompareMoveResults : Claims.SelectCompareMoveResults := by
  refine ⟨threeSource_of (f := fun a b d => if d != 0 then a else b) fun a b d => ?_, compare_of fun a b => beq_iff_eq,
    twoSource_of (f := fun a b => if compareW 1 a b then 1 else 0) fun a b => ?_, compare_of fun a b => decide_eq_true_iff,
    compare_of fun a b => decide_eq_true_iff, compare_of fun a b => decide_eq_true_iff, compare_of fun a b => decide_eq_true_iff,
    fun sh => twoSource_of fun a b => lea_eq_ofNat a b sh.toNat, fun d v s hd => ends_free rfl rfl (writeReg_ready _ hd),
    fun d v s hd => ends_free rfl rfl (writeReg_ready _ hd), fun d v s hr hd => ?_⟩
  · by_cases h : d = 0 <;> simp [h]
  · by_cases h : a = b <;> simp [compareW, h]
  · rw [← movh_eq_ofNat]
    exact execMovh_ready hr hd

/-- Settles O2: results bit by bit for counts and fields, and as numbers for the rest. -/
theorem bitFieldAndMoveResults : Obligations.BitFieldAndMoveResults := ⟨oneSourceResults, selectCompareMoveResults⟩

/-! ### div and rem (R145) -/

section
variable {r : RArgs} {s : State} (ha : Reads s r.a) (hb : Reads2 s r.op2)
include ha hb

theorem div_ends {n : Bool} (hd : Pends s r.d) (h0 : s.val2 r.op2 ≠ 0)
    (ho : ¬ (n = false ∧ s.val r.a = BitVec.intMin 64 ∧ s.val2 r.op2 = BitVec.allOnes 64)) :
    Ends (.div n r) s (s.later r.d (quotW n (s.val r.a) (s.val2 r.op2)) 0) :=
  ends_free rfl rfl (by
    rw [M.bind_readOps ha hb]
    simp only [if_neg h0, if_neg ho]
    exact pendReg_ready _ hd)

theorem rem_ends {n : Bool} (hd : Pends s r.d) (h0 : s.val2 r.op2 ≠ 0) :
    Ends (.rem n r) s (s.later r.d (remW n (s.val r.a) (s.val2 r.op2)) 0) :=
  ends_free rfl rfl (by
    rw [M.bind_readOps ha hb]
    simp only [if_neg h0]
    exact pendReg_ready _ hd)

theorem traps_by_zero {n : Bool} (h0 : s.val2 r.op2 = 0) :
    Traps (.div n r) s cDivZero (s.val r.a) ∧ Traps (.rem n r) s cDivZero (s.val r.a) := by
  refine ⟨traps_free rfl rfl ?_, traps_free rfl rfl ?_⟩
  all_goals
    rw [M.bind_readOps ha hb]
    simp only [if_pos h0]
    rfl

theorem div_overflows (h : s.val r.a = BitVec.intMin 64 ∧ s.val2 r.op2 = BitVec.allOnes 64) :
    Traps (.div false r) s cDivOverflow (s.val r.a) :=
  traps_free rfl rfl (by
    rw [M.bind_readOps ha hb]
    simp only [h]
    rfl)

end

theorem divisionResults : Claims.DivisionResults := by
  refine fun r s ha hb hd h0 => ⟨fun ho => ?_, ?_, ?_, ?_⟩
  · exact div_ends ha hb hd h0 fun h => ho ((overflows_iff ..).mp h.2)
  · exact div_ends ha hb hd h0 fun h => Bool.noConfusion h.1
  · rw [← remW_signed]
    exact rem_ends ha hb hd h0
  · rw [← remW_unsigned]
    exact rem_ends ha hb hd h0

theorem divisionFaults : Claims.DivisionFaults := by
  refine fun n r s ha hb => ⟨traps_by_zero ha hb, fun ho => ?_⟩
  have h := (overflows_iff ..).mpr ho
  refine ⟨div_overflows ha hb h, fun hd => ?_⟩
  have hrem := rem_ends (n := false) ha hb hd (by rw [h.2]; decide)
  rwa [remW_overflow ho] at hrem

/-- Settles O3: the results on their way, then the two faults and the remainder that is none. -/
theorem divisionResultsAndFaults : Obligations.DivisionResultsAndFaults := ⟨divisionResults, divisionFaults⟩

/-! ### The frame of the scalar instructions (R142) -/

/-- The second source stands ready where every source of the instruction does. -/
theorem reads2_of_srcs {s : State} {o : Op2} (h : ∀ p ∈ op2Srcs o, Reads s p.1) : Reads2 s o := by
  cases o with
  | reg b eb => exact h (b, eb) (by simp [op2Srcs])
  | imm v => trivial
  | wide v => trivial

theorem reads_of_rSrcs {s : State} {r : RArgs} (h : ∀ p ∈ rSrcs r, Reads s p.1) : Reads s r.a ∧ Reads2 s r.op2 :=
  ⟨h (r.a, r.ea) (by simp [rSrcs]), reads2_of_srcs fun p hp => h p (by simp [rSrcs, hp])⟩

/-- The instruction ends with a write of its destination alone. -/
def EndsWithWrite (i : Instr) (s : State) (d : Reg) : Prop := ∃ v, Ends i s (s.put d v)

theorem scalar2_writes {i : Instr} {r : RArgs} {f : W64 → W64 → W64} {s : State} (hx : exec i s = runSyl i (scalar2 r f) s)
    (hi : issuesFreely i = true) (hs : ∀ p ∈ rSrcs r, Reads s p.1) (hd : Writes s r.d) : EndsWithWrite i s r.d :=
  ⟨_, ends_free hx hi (scalar2_ready f (reads_of_rSrcs hs).1 (reads_of_rSrcs hs).2 hd)⟩

theorem scalar3_writes {i : Instr} {r : RArgs} {f : W64 → W64 → W64 → W64} {s : State} (hx : exec i s = runSyl i (scalar3 r f) s)
    (hi : issuesFreely i = true) (hs : ∀ p ∈ rSrcs r ++ [plain r.d], Reads s p.1) (hd : Writes s r.d) : EndsWithWrite i s r.d := by
  obtain ⟨ha, hb⟩ := reads_of_rSrcs fun p hp => hs p (List.mem_append_left _ hp)
  exact ⟨_, ends_free hx hi (scalar3_ready f ha hb (hs (plain r.d) (by simp)) hd)⟩

theorem scalar1_writes {i : Instr} {u : UArgs} {f : W64 → W64} {s : State} (hx : exec i s = runSyl i (scalar1 u f) s)
    (hi : issuesFreely i = true) (hs : ∀ p ∈ [(u.a, u.ea)], Reads s p.1) (hd : Writes s u.d) : EndsWithWrite i s u.d :=
  ⟨_, ends_free hx hi (scalar1_ready f (hs _ (List.mem_singleton_self _)) hd)⟩

/-- Each scalar instruction, by its shape. -/
theorem scalar_writes {i : Instr} {d : Reg} {s : State} (h : Claims.scalarDst i = some d)
    (hs : ∀ p ∈ srcsOf (rankOf s s.cur) i, Reads s p.1) (hd : Writes s d) : EndsWithWrite i s d := by
  cases i with
  | add r | sub r | mul r | mulh _ r | and r | or r | xor r | andn r | orn r | shl r | shr r | sra r | rot r | min _ r | max _ r | cmp _ r
  | lea _ r =>
    obtain rfl := Option.some.inj h
    exact scalar2_writes rfl rfl hs hd
  | madd r | sel r =>
    obtain rfl := Option.some.inj h
    exact scalar3_writes rfl rfl hs hd
  | abs u | clz u | ctz u | popc u =>
    obtain rfl := Option.some.inj h
    exact scalar1_writes rfl rfl hs hd
  | bfx n f =>
    obtain rfl := Option.some.inj h
    exact scalar1_writes (u := ⟨f.d, f.a, f.ea⟩) rfl rfl hs hd
  | bfi f =>
    obtain rfl := Option.some.inj h
    exact ⟨_, execBfi_ready (hs (f.a, f.ea) (by simp [srcsOf])) hd (hs (plain f.d) (by simp [srcsOf]))⟩
  | movi e v =>
    obtain rfl := Option.some.inj h
    exact ⟨_, ends_free rfl rfl (writeReg_ready _ hd)⟩
  | movh e v =>
    obtain rfl := Option.some.inj h
    exact ⟨_, execMovh_ready (hs (plain e) (by simp [srcsOf])) hd⟩
  | _ => cases h

/-- The move from slot 0 to slot 1 changes the context alone. -/
theorem advance_slot0_sets {s : State} {c : Nat} {i : Issue} (hi : (s.ctx c).iss = some i) (h0 : i.slot1 = false) :
    SetsCtx s (advance s c) c { (s.ctx c).setWait .none with
      region := if i.sync then (s.ctx c).region + 1 else (s.ctx c).region
      acq := false
      iss := some { i with sync := false, remote := false, pops := 0, waited := false, slot1 := true } } := by
  rw [advance_slot0 hi h0]
  exact SetsCtx.setCtx ..

/-- A write of a register in slot 0, and the move to slot 1, change nothing else. -/
theorem frame_of_write {i : Instr} {d : Reg} {s : State} {k : Issue} (hw : EndsWithWrite i s d) (hk : s.me.iss = some k)
    (h0 : k.slot1 = false) (hy : k.sync = false) :
    ∃ t, exec i s = .next t ∧ (∀ a, readByte t a = readByte s a) ∧
      SetsCtx s t s.cur { s.me with
        x := t.me.x, waits := t.me.waits, acq := false
        iss := some { k with remote := false, pops := 0, waited := false, slot1 := true } } ∧
      ∀ q : Reg, q ≠ d → t.me.x[q.toNat] = s.me.x[q.toNat] := by
  obtain ⟨v, hv⟩ := hw
  have hput := State.put_set s d v
  have hki : ((s.put d v).ctx s.cur).iss = some k := by rw [hput.ctx]; exact hk
  have hset := hput.trans (advance_slot0_sets hki h0)
  rw [hput.ctx, hy] at hset
  obtain ⟨t, ht⟩ : ∃ t, t = advance (s.put d v) s.cur := ⟨_, rfl⟩
  rw [← ht] at hset
  refine ⟨t, by rw [hv, ht], fun a => readByte_of_mem hset.mem a, ?_, fun q hq => ?_⟩
  · rw [hset.me, hy]
    exact hset
  · rw [hset.me]
    show (s.put d v).me.x[q.toNat] = _
    rw [State.x_put, if_neg fun h => hq h.1]

/-- Settles O7: each scalar instruction ends with one write of a register, whose frame is the claim's. -/
theorem scalarFrame : Obligations.ScalarFrame := fun _ _ _ _ h hk h0 hy hs hd => frame_of_write (scalar_writes h hs hd) hk h0 hy

end Sys2Proof.Machine
end

section
/-! PROOFS. Control transfer, task and scheduling points (R118, R149 to R158, R408): what each leaves for the end of its bundle, where it is
ILLEGAL_INSTR, and what the end of the bundle then does. -/

namespace Sys2Proof.Machine

/-! ### Transfers (R149 to R152) -/

@[simp] theorem leaveM_apply (l : Leave) (s : State) : leaveM l s = .ok ((), s.iss fun i => { i with leave := l }) := rfl

theorem target_eq (pc : BitVec 57) (disp : BitVec 30) : target pc disp = Claims.targetOf pc disp := by
  rw [Claims.targetOf, BitVec.ofInt_add, BitVec.ofInt_mul, BitVec.ofInt_natCast, BitVec.ofNat_toNat, BitVec.setWidth_eq, BitVec.mul_comm]
  rfl

/-- R150: `br` transfers where the condition that it names holds of the value. -/
theorem brTaken_iff (cond : BitVec 3) (v : W64) (n : BitVec 6) : brTaken cond v n = true ↔ Claims.taken cond v n := by
  have hc : cond = 0 ∨ cond = 1 ∨ cond = 2 ∨ cond = 3 ∨ cond = 4 ∨ cond = 5 ∨ cond = 6 ∨ cond = 7 := by
    revert cond
    decide
  rcases hc with rfl | rfl | rfl | rfl | rfl | rfl | rfl | rfl <;> simp [brTaken, Claims.taken]

theorem br_taken {b : BrArgs} {s : State} (ha : Reads s b.a) (h : Claims.taken b.cond (s.val b.a) b.bit) :
    Ends (.br b) s (Claims.going s (Claims.targetOf s.me.pc b.disp)) :=
  ends_free rfl rfl (by
    rw [M.bind_readReg _ ha, M.bind_getMe, if_pos ((brTaken_iff ..).mpr h), target_eq]
    rfl)

theorem br_not_taken {b : BrArgs} {s : State} (ha : Reads s b.a) (h : ¬ Claims.taken b.cond (s.val b.a) b.bit) : Ends (.br b) s s :=
  ends_free rfl rfl (by
    rw [M.bind_readReg _ ha, M.bind_getMe, if_neg fun ht => h ((brTaken_iff ..).mp ht)]
    rfl)

theorem jmp_ends (disp : BitVec 30) (s : State) : Ends (.jmp disp) s (Claims.going s (Claims.targetOf s.me.pc disp)) :=
  ends_free (show execJmp disp s = _ from rfl) rfl (by rw [M.bind_getMe, target_eq]; rfl)

theorem call_ends {a : Reg} {disp : BitVec 30} {s : State} (ha : Writes s a) :
    Ends (.call a disp) s (Claims.going (s.put a (BitVec.ofNat 64 (s.me.pc + 16).toNat)) (Claims.targetOf s.me.pc disp)) :=
  ends_free rfl rfl (by rw [M.bind_getMe, M.bind_writeReg _ ha, target_eq, BitVec.ofNat_toNat]; rfl)

theorem jumpReg_aligned {a : Src} {s : State} (ha : Reads s a.r) (h : (s.val a.r).toNat % 16 = 0) :
    jumpReg a s = .ok ((), Claims.going s (BitVec.ofNat 57 (s.val a.r).toNat)) := by
  unfold jumpReg
  rw [M.bind_readSrc ha, M.bind_check (by rw [h]; rfl), BitVec.ofNat_toNat]
  rfl

theorem jumpReg_misaligned {a : Src} {s : State} (ha : Reads s a.r) (h : (s.val a.r).toNat % 16 ≠ 0) :
    jumpReg a s = .error (.trap cMisaligned (s.val a.r)) := by
  unfold jumpReg
  rw [M.bind_readSrc ha, M.bind_check_fails (beq_eq_false_iff_ne.mpr h)]

/-- R117: in a bundle with S = 1 a system register is written at once. -/
theorem sysWrite_serial {s : State} (n : Nat) (v : W64) (h : (unpackHeader (s.me.iss.getD {}).hdr).s = true) :
    sysWrite n v s = .ok ((), applyLate s s.cur (.sys n v)) := by
  have hs : serialM s = .ok (true, s) := by rw [← h]; rfl
  unfold sysWrite
  rw [M.bind_ok hs]
  rfl

/-- R159: in any other bundle the write is left for the bundle's end. -/
theorem sysWrite_deferred {s : State} (n : Nat) (v : W64) (h : (unpackHeader (s.me.iss.getD {}).hdr).s = false) :
    sysWrite n v s = .ok ((), s.iss fun i => { i with late := i.late ++ [.sys n v] }) := by
  have hs : serialM s = .ok (false, s) := by rw [← h]; rfl
  unfold sysWrite
  rw [M.bind_ok hs]
  rfl

/-- The value of the loop counter that `loop` names. -/
def Ctx.loopCount (x : Ctx) (lc1 : Bool) : W64 := if lc1 then x.lc1 else x.lc0

/-- The number of that counter as a system register. -/
def loopReg (lc1 : Bool) : Nat := if lc1 then 0x011 else 0x010

/-- The context with another value in that counter. -/
def Ctx.setLoop (x : Ctx) (lc1 : Bool) (v : W64) : Ctx := { x with lc0 := if lc1 then x.lc0 else v, lc1 := if lc1 then v else x.lc1 }

theorem applyLate_loop (s : State) (c : Nat) (lc1 : Bool) (v : W64) :
    applyLate s c (.sys (loopReg lc1) v) = s.setCtx c ((s.ctx c).setLoop lc1 v) := by
  cases lc1 <;> rfl

section
variable {lc1 : Bool} {disp : BitVec 30} {s t : State}

theorem loop_continues (h : 1 < (s.me.loopCount lc1).toNat) (hw : sysWrite (loopReg lc1) (s.me.loopCount lc1 - 1) s = .ok ((), t)) :
    Ends (.loop lc1 disp) s (Claims.going t (Claims.targetOf s.me.pc disp)) :=
  ends_free rfl rfl (by
    rw [M.bind_getMe]
    show (if 1 < (s.me.loopCount lc1).toNat then _ else _ : M Unit) s = _
    rw [if_pos h, target_eq]
    exact M.bind_ok hw)

theorem loop_ends (h : (s.me.loopCount lc1).toNat ≤ 1) (hw : sysWrite (loopReg lc1) 0 s = .ok ((), t)) : Ends (.loop lc1 disp) s t :=
  ends_free rfl rfl (by
    rw [M.bind_getMe]
    show (if 1 < (s.me.loopCount lc1).toNat then _ else _ : M Unit) s = _
    rw [if_neg (Nat.not_lt.mpr h)]
    exact hw)

end

theorem OnlyCtx.of_sets {s t : State} {c : Nat} {x : Ctx} (h : SetsCtx s t c x) : OnlyCtx s t c := by
  unfold OnlyCtx
  rw [h.ctx]
  exact h

/-- The transfer of the bundle changes the running context alone. -/
theorem going_sets {s : State} {x : Ctx} {t : State} (h : SetsCtx s t s.cur x) (pc : BitVec 57) :
    SetsCtx s (Claims.going t pc) s.cur { x with iss := some { x.iss.getD {} with leave := .jump pc } } := by
  have hc : t.cur = s.cur := by rw [h.1]
  have := h.trans (SetsCtx.setCtx t s.cur { t.me with iss := some { t.me.iss.getD {} with leave := .jump pc } })
  rw [h.me] at this
  rwa [Claims.going, State.iss, State.setMe, hc, h.me]

/-- Settles O8: each form by its own lemma; `loop` by whether it goes on, and by when its counter is written. -/
theorem controlTransfers : Obligations.ControlTransfers := by
  refine ⟨fun b s ha => ⟨br_taken ha, br_not_taken ha⟩, jmp_ends, fun a disp s ha => call_ends ha,
    fun a s ha h => ⟨ends_free rfl rfl (jumpReg_aligned ha h), ends_free rfl rfl (jumpReg_aligned ha h)⟩,
    fun a s ha h => ⟨traps_free rfl rfl (jumpReg_misaligned ha h), traps_free rfl rfl (jumpReg_misaligned ha h)⟩,
    fun lc1 disp s v hv hs => ?_, fun lc1 disp s v hv hs => ?_⟩
  · have hw : ∀ w, SetsCtx s (applyLate s s.cur (.sys (loopReg lc1) w)) s.cur (s.me.setLoop lc1 w) := fun w => by
      rw [applyLate_loop]
      exact SetsCtx.setCtx ..
    obtain rfl : v = s.me.loopCount lc1 := hv
    refine ⟨fun h => ?_, fun h => ?_⟩
    · have hset := hw (s.me.loopCount lc1 - 1)
      have hgo := going_sets hset (Claims.targetOf s.me.pc disp)
      exact ⟨_, .of_sets hgo, hgo.me, loop_continues h (sysWrite_serial _ _ hs)⟩
    · exact ⟨_, .of_sets (hw 0), (hw 0).me, loop_ends h (sysWrite_serial _ _ hs)⟩
  · obtain rfl : v = s.me.loopCount lc1 := hv
    exact ⟨fun h => loop_continues h (sysWrite_deferred _ _ hs), fun h => loop_ends h (sysWrite_deferred _ _ hs)⟩

/-! ### Scheduling points and levels (R153 to R158, R374, R408) -/

theorem issueFault_tend {s : State} (h : s.me.tlevel = 0) : issueFault s s.cur .tend = none := by
  simp [issueFault, coordsPast, layoutUse, needsPriv, ← State.me_eq, h]

theorem issueFault_tret {s : State} (h : s.me.tlevel ≠ 0) : issueFault s s.cur .tret = none := by
  simp only [issueFault, ← State.me_eq, bne_iff_ne.mpr h]
  rfl

theorem issueFault_step {s : State} (h : s.me.tlevel = 0) (hc : isHandler s.cur = false) : issueFault s s.cur .step = none := by
  simp [issueFault, coordsPast, layoutUse, needsPriv, ← State.me_eq, h, hc]

theorem step_released {s : State} (h : s.me.tlevel = 0) (hc : isHandler s.cur = false) (hg : s.me.stepGo = true) :
    Ends .step s (s.iss fun i => { i with leave := .step }).synced :=
  ends_of rfl (issueFault_step h hc) (by
    rw [M.bind_getMe, if_pos hg]
    rfl)

/-- R154: the running context arrives at the rendezvous, which closes its region. -/
def reachStep (s : State) : State := s.updCtx s.cur fun x => { x with run := .atStep, region := x.region + 1 }

theorem step_waits {s : State} (h : s.me.tlevel = 0) (hc : isHandler s.cur = false) (hg : s.me.stepGo = false) :
    exec .step s = .next (unissue (reachStep s) s.cur) := by
  refine (show execStep s = _ from runSyl_hold (f := reachStep) (issueFault_step h hc) ?_)
  rw [M.bind_getMe, if_neg (by rw [hg]; decide)]
  rfl

/-- Settles O9: each leaves its transfer, and `step` asks whether it has been released. -/
theorem schedulingPoints : Obligations.SchedulingPoints := fun s =>
  ⟨ends_free (show execPpt s = _ from rfl) rfl rfl, fun h => ends_of (show execTend s = _ from rfl) (issueFault_tend h) rfl,
   ends_free (show execIdle s = _ from rfl) rfl rfl, fun code => ends_free (show execTrap code s = _ from rfl) rfl rfl,
   fun h => ends_of (show execTret s = _ from rfl) (issueFault_tret h) rfl, step_released, step_waits,
   ends_free (show execNop s = _ from rfl) rfl rfl, fun cnt ds as bs => ends_free (show execRep cnt ds as bs s = _ from rfl) rfl rfl⟩

/-- A fault that the state gives a syllable at issue reports the syllable (R119). -/
theorem issueTraps_of {i : Instr} {s : State} {c : BitVec 8} {m : M Unit} (hx : exec i s = runSyl i m s)
    (h : issueFault s s.cur i = some c) : IssueTraps i s c (BitVec.ofNat 64 (s.me.iss.getD {}).syl.toNat) := by
  unfold IssueTraps
  rw [hx, runSyl_issueFault h, BitVec.ofNat_toNat]

theorem levelRules : Claims.LevelRules := by
  refine fun s => ⟨fun h => issueTraps_of rfl ?_, fun h => ⟨issueTraps_of rfl ?_, issueTraps_of rfl ?_⟩,
    fun h => ⟨issueTraps_of rfl ?_, fun n => issueTraps_of rfl ?_⟩⟩
  · simp only [issueFault, ← State.me_eq, h]
    rfl
  · simp only [issueFault, ← State.me_eq, bne_iff_ne.mpr h, if_true]
    rfl
  · simp only [issueFault, ← State.me_eq, bne_iff_ne.mpr h, Bool.true_or, if_true]
    rfl
  · simp only [issueFault, h, Bool.or_true, if_true]
    rfl
  · simp only [issueFault, h, if_true]
    rfl

/-! ### The end of a bundle (R118, R153, R156, R157) -/

/-- Where a transfer leads. -/
def Leave.dest (x : Ctx) (l : Leave) : BitVec 57 :=
  match l with
  | .jump t => t
  | _ => nextPc x

/-- The context between bundles, at a pc. -/
def Ctx.landed (x : Ctx) (pc : BitVec 57) : Ctx := { x with iss := none, slot := false, rep := 0, pc := pc }

/-- What a transfer does once its context is between bundles. -/
def Leave.retire (s : State) (c : Nat) (pc : BitVec 57) (l : Leave) : State :=
  match l with
  | .next | .jump _ => s
  | .trap code => takeTrap s c cSoftware false false (epcWord pc false 0) (code.setWidth 64)
  | .tret b => trapReturn s c b
  | .ppt => retirePpt s c
  | .step => retireStep s c
  | .tend => retireTend s c
  | .idle => retireIdle s c

section
variable {s : State} {c : Nat} {i : Issue} (hi : (s.ctx c).iss = some i) (hl : i.late = [])
include hi hl

/-- The end of a bundle that leaves no effects for it: its context lands, and the transfer is made. -/
theorem leaveBundle_lands {l : Leave} (h : i.leave = l) (hh : trapHeld s c l = false) :
    leaveBundle s c = l.retire (s.setCtx c ((s.ctx c).landed (l.dest (s.ctx c)))) c (l.dest (s.ctx c)) := by
  subst h
  have hs : applyLates s c = s := applyLates_nil (by rw [hi]; exact hl)
  simp only [leaveBundle, hs]
  rw [hi, Option.getD_some, hh, if_neg Bool.false_ne_true]
  rfl

omit hl in
/-- A SOFTWARE_TRAP waits for the register writes on their way. -/
theorem leaveBundle_held (hh : trapHeld s c i.leave = true) :
    leaveBundle s c = s.updCtx c fun x => { x with iss := some { i with leaving := true } } := by
  simp only [leaveBundle]
  rw [hi, Option.getD_some, if_pos hh]

theorem leaveBundle_jump {t : BitVec 57} (h : i.leave = .jump t) : leaveBundle s c = s.setCtx c ((s.ctx c).landed t) :=
  leaveBundle_lands hi hl h rfl

theorem leaveBundle_idle (h : i.leave = .idle) : leaveBundle s c = retireIdle (s.setCtx c ((s.ctx c).landed (nextPc (s.ctx c)))) c :=
  leaveBundle_lands hi hl h rfl

theorem leaveBundle_ppt (h : i.leave = .ppt) : leaveBundle s c = retirePpt (s.setCtx c ((s.ctx c).landed (nextPc (s.ctx c)))) c :=
  leaveBundle_lands hi hl h rfl

theorem leaveBundle_tend (h : i.leave = .tend) : leaveBundle s c = retireTend (s.setCtx c ((s.ctx c).landed (nextPc (s.ctx c)))) c :=
  leaveBundle_lands hi hl h rfl

theorem leaveBundle_trap {code : BitVec 24} (h : i.leave = .trap code) (hb : banked s c = false) :
    leaveBundle s c = takeTrap (s.setCtx c ((s.ctx c).landed (nextPc (s.ctx c)))) c cSoftware false false
      (epcWord (nextPc (s.ctx c)) false 0) (code.setWidth 64) :=
  leaveBundle_lands hi hl h hb

end

theorem retirePpt_handler {s : State} {c : Nat} (h : isHandler c = true) : retirePpt s c = s := by
  simp only [retirePpt, h, if_true]

/-- R153: `ppt` in a role context that nothing stops clears its watchdog. -/
theorem retirePpt_clears {s : State} {c : Nat} (h : isHandler c = false) (hj : (s.job (s.ctx c).job).cancelled = false)
    (hu : ∀ lane u, unitOf s c = some (lane, u) → stopsFor s (coreOf c) lane u = false) :
    retirePpt s c = s.updCtx c fun x => { x with wdog := 0, expired := 0 } := by
  obtain ⟨t, ht⟩ : ∃ t : State, t = s.updCtx c fun x => { x with wdog := 0, expired := 0 } := ⟨_, rfl⟩
  have hjob : (t.job (t.ctx c).job).cancelled = false := by
    rw [ht, State.updCtx, State.ctx_setCtx_same]
    exact hj
  have hunit : unitOf t c = unitOf s c := by rw [ht]; rfl
  simp only [retirePpt, h, Bool.false_eq_true, if_false, ← ht, hjob, hunit]
  split
  · next lane u he =>
    have hst : stopsFor t (coreOf c) lane u = stopsFor s (coreOf c) lane u := by rw [ht]; rfl
    rw [if_neg (by rw [hst, hu lane u he]; decide)]
  · rfl

/-- R32: `tend` ends the run of a handler that serves no message of the network. -/
theorem retireTend_handler {s : State} {c : Nat} (h : isHandler c = true) (hr : (s.ctx c).ring = none) :
    retireTend s c = s.updCtx c fun x => { x with run := .off, iss := none, region := x.region + 1, ring := none } := by
  simp only [retireTend, h, if_true, hr]

/-- R157: SOFTWARE_TRAP enters level 1 at the vector, with the bundle after and the code. -/
theorem software_trap_enters {s : State} {c : Nat} {x : Ctx} {pc : BitVec 57} {code : BitVec 24} (hx : s.ctx c = x.landed pc)
    (hb : banked s c = false) (ht : x.tlevel = 0) (hp : x.pend = []) (hv : bits x.tvec 56 4 ≠ 0) :
    ∃ y, (takeTrap s c cSoftware false false (epcWord pc false 0) (code.setWidth 64)).ctx c = y ∧
      y.bank1 = ⟨0x3F, BitVec.ofNat 64 (pc.toNat / 16 * 16), BitVec.ofNat 64 code.toNat⟩ ∧ y.tlevel = 1 ∧
      y.pc.toNat = bits x.tvec 56 4 * 16 := by
  have hl : ((s.ctx c).iss.getD {}).late = [] := by rw [hx]; rfl
  have ht' : (s.ctx c).tlevel = 0 := by rw [hx]; exact ht
  have hv' : (s.ctx c).tvec.toNat / 16 % 2 ^ 53 ≠ 0 := by rw [hx]; exact hv
  have henter := enterTrap_plain (x := x.landed pc) cSoftware false false (epcWord pc false 0) (code.setWidth 64) hp nofun
  rw [takeTrap_enters _ _ _ _ hb hl (by rw [ht']; decide) hv' (by decide), State.ctx_setCtx_same, hx, henter]
  simp only [show (x.landed pc).tlevel = 0 from ht, if_true]
  refine ⟨_, rfl, ?_, rfl, vector_toNat _⟩
  rw [BitVec.ofNat_toNat]
  simp [epcWord, w64, cSoftware]

theorem transfersAtBundleEnd : Claims.TransfersAtBundleEnd := by
  intro s c i hi hl
  have hland : ∀ pc, SetsCtx s (s.setCtx c ((s.ctx c).landed pc)) c ((s.ctx c).landed pc) := fun pc => SetsCtx.setCtx ..
  refine ⟨fun t h => ?_, fun h => ?_, fun h hc => ?_, fun h hc hj hu => ?_, fun h hc hr => ?_, fun code h hb => ?_,
    fun code h hb ht hp hv => ?_⟩
  · rw [leaveBundle_jump hi hl h]
    exact ⟨_, hland t, rfl, rfl, rfl, rfl⟩
  · rw [leaveBundle_idle hi hl h]
    exact ⟨_, (hland _).upd _, rfl, rfl, rfl⟩
  · rw [leaveBundle_ppt hi hl h, retirePpt_handler hc]
    exact ⟨_, hland _, rfl, rfl, rfl⟩
  · rw [leaveBundle_ppt hi hl h, retirePpt_clears (s := s.setCtx c _) hc (by rw [State.ctx_setCtx_same]; exact hj) hu]
    exact ⟨_, (hland _).upd _, rfl, rfl, rfl, rfl⟩
  · rw [leaveBundle_tend hi hl h, retireTend_handler hc (by rw [State.ctx_setCtx_same]; exact hr)]
    exact ⟨_, (hland _).upd _, rfl, rfl⟩
  · exact leaveBundle_held hi (by rw [h]; exact hb)
  · rw [leaveBundle_trap hi hl h hb]
    obtain ⟨y, hy, hbank, hlevel, hpc⟩ := software_trap_enters (code := code) (State.ctx_setCtx_same ..) hb ht hp hv
    rw [hy]
    exact ⟨hbank, hlevel, hpc⟩

/-- Settles O10: the level rules at issue, and each transfer at the end of its bundle. -/
theorem levelsAndTransfers : Obligations.LevelsAndTransfers := ⟨levelRules, transfersAtBundleEnd⟩

end Sys2Proof.Machine
end

section
/-! PROOFS. The system registers (R8, R83, R159 to R166, R202): what `srr` reads, what each form of `srw` writes and when, and the fields that
each register keeps. -/

namespace Sys2Proof.Machine

/-! ### Reads (R160, R161) -/

theorem srr_ends {d : Reg} {n : BitVec 12} {s : State} (hd : Writes s d) (h : n.toNat < 0x080 ∨ isPriv s s.cur = true) :
    Ends (.srr d n) s (s.put d (sysValue s s.cur n.toNat)) := by
  have hi : issueFault s s.cur (.srr d n) = none := by
    rcases h with h | h
    · exact issueFault_free (by simp [issuesFreely, layoutUse, needsPriv, levelFree, h])
    · exact issueFault_priv rfl h
  exact ends_of rfl hi (writeReg_ready _ hd)

/-- The fields of a word packed as `sr.status` is (R161). -/
theorem bits_status {k t h p : Nat} (hk : k < 4) (ht : t < 2) (hh : h < 2) (hp : p < 2) :
    bits (w64 (8 * k + 4 * t + 2 * h + p)) 0 0 = p ∧ bits (w64 (8 * k + 4 * t + 2 * h + p)) 1 1 = h ∧
      bits (w64 (8 * k + 4 * t + 2 * h + p)) 4 3 = k ∧ bits (w64 (8 * k + 4 * t + 2 * h + p)) 63 5 = 0 := by
  simp only [bits, w64, BitVec.toNat_ofNat]
  omega

theorem statusOf_fields (s : State) (c : Nat) :
    bits (statusOf s c) 0 0 = (if isPriv s c = true then 1 else 0) ∧ bits (statusOf s c) 1 1 = (if isHandler c = true then 1 else 0) ∧
      bits (statusOf s c) 4 3 = (s.job (s.ctx c).job).cls % 4 ∧ bits (statusOf s c) 63 5 = 0 := by
  obtain ⟨t, ht⟩ : ∃ t : Bool, statusOf s c = w64 (8 * ((s.job (s.ctx c).job).cls % 4) + 4 * (if t = true then 1 else 0) +
      2 * (if isHandler c = true then 1 else 0) + (if isPriv s c = true then 1 else 0)) := by
    simp only [mul_ite, mul_one, mul_zero]
    exact ⟨_, rfl⟩
  have hb : ∀ b : Bool, (if b = true then 1 else 0) < 2 := by decide
  rw [ht]
  exact bits_status (Nat.mod_lt _ (by decide)) (hb t) (hb _) (hb _)

/-- `sr.wdog` counts in its low 48 bits (R49). -/
theorem bits_wdog (s : State) : bits (sysValue s s.cur 0x018) 47 0 = s.me.wdog.toNat := by
  have h1 := s.me.wdog.isLt
  have h2 := s.me.disc.isLt
  show (BitVec.ofNat 64 (s.me.disc.toNat * 2 ^ 48 + s.me.wdog.toNat)).toNat / 2 ^ 0 % 2 ^ 48 = _
  rw [BitVec.toNat_ofNat]
  omega

theorem sysValue_arv (s : State) (q : Fin 5) : sysValue s s.cur (0x038 + q.val) = s.me.arv[q] := by
  fin_cases q <;> rfl

theorem sysValue_paddock (s : State) (k : Fin 4) : sysValue s s.cur (0x088 + k.val) = (s.core (coreOf s.cur)).paddock[k] := by
  fin_cases k <;> rfl

/-- Settles O12: the read, then the registers that have fields or come in numbers; the others read as the part that holds them. -/
theorem systemRegisterReads : Obligations.SystemRegisterReads := by
  intro d s hd
  obtain ⟨hpriv, hhandler, hclass, hhigh⟩ := statusOf_fields s s.cur
  exact ⟨fun n => srr_ends hd, rfl, rfl, rfl, hpriv, hhandler, hclass, hhigh, rfl, rfl, rfl, rfl, rfl, bits_wdog s, rfl, rfl, rfl,
    (BitVec.ofNat_toNat 64 s.me.tlevel).symm, rfl, rfl, rfl, rfl, rfl, rfl, rfl, sysValue_arv s, rfl, sysValue_paddock s⟩

/-! ### Writes (R117, R159, R202, R422) -/

/-- An instruction whose effect is the write of a system register ends with it, at its bundle's end or at once. -/
theorem sysWrites_of {i : Instr} {s : State} {n : Nat} {v : W64} {m : M Unit} (hx : exec i s = runSyl i m s)
    (hi : issueFault s s.cur i = none) (hm : m s = sysWrite n v s) : Claims.SysWrites i s n v :=
  ⟨fun h => ends_of hx hi (hm.trans (sysWrite_deferred n v h)), fun h => ends_of hx hi (hm.trans (sysWrite_serial n v h))⟩

section
variable {a : Src} {s : State} (ha : Reads s a.r)
include ha

theorem srw_writes (n : BitVec 12) : Claims.SysWrites (.srw a n) s n.toNat (s.val a.r) :=
  sysWrites_of rfl (issueFault_free rfl) (M.bind_readSrc ha _)

theorem paddock_writes (hp : isPriv s s.cur = true) (k : BitVec 2) :
    Claims.SysWrites (.paddockRegisterWrite a k) s (0x088 + k.toNat) (paddockValue (s.core (coreOf s.cur)) k.toNat (s.val a.r)) :=
  sysWrites_of rfl (issueFault_priv rfl hp) (M.bind_readSrc ha _)

theorem handlerLimit_writes (hp : isPriv s s.cur = true) : Claims.SysWrites (.handlerLimitWrite a) s 0x080 (s.val a.r) :=
  sysWrites_of rfl (issueFault_priv rfl hp) (M.bind_readSrc ha _)

theorem vflags_writes : Claims.SysWrites (.flagsW1cWrite a false) s 0x020 (s.val a.r &&& s.me.vflags) :=
  sysWrites_of rfl (issueFault_free rfl) (M.bind_readSrc ha _)

theorem mflags_writes : Claims.SysWrites (.flagsW1cWrite a true) s 0x021 (s.val a.r &&& s.me.mflags) :=
  sysWrites_of rfl (issueFault_free rfl) (M.bind_readSrc ha _)

end

/-- The fields that software gives an arrival register (R202): enable, index and location. -/
def arvLow (v : W64) : Nat := bits v 31 24 * 2 ^ 24 + bits v 22 0

theorem arvLow_lt (v : W64) : arvLow v < 2 ^ 32 := by
  have h1 := bits_lt v 31 24
  have h2 := bits_lt v 22 0
  unfold arvLow
  omega

/-- The low half of an arrival register is what software gave it, whatever the generation above. -/
theorem bits_arrival (g : Nat) (v : W64) : bits (w64 (g * 2 ^ 32 + arvLow v)) 31 0 = arvLow v := by
  have h := arvLow_lt v
  simp only [bits, w64, BitVec.toNat_ofNat]
  omega

section
variable {a : Src} {s : State} (q : BitVec 3) (ha : Reads s a.r)
include ha

/-- R202: with en = 0 the generation stays. -/
theorem arrival_keeps (he : bit (s.val a.r) 31 = false) : Claims.SysWrites (.arrivalRegisterWrite a q) s (0x038 + q.toNat)
    (w64 (bits (s.me.arv.toList.getD q.toNat 0) 63 32 * 2 ^ 32 + arvLow (s.val a.r))) :=
  sysWrites_of rfl (issueFault_free rfl) (by
    rw [M.bind_readSrc ha, M.bind_get_apply]
    simp only [he]
    rfl)

/-- R202: with en = 1 the generation is that of the object. -/
theorem arrival_reads {k : Nat} (he : bit (s.val a.r) 31 = true) (hk : arvKey s s.cur (s.val a.r) = some k) :
    Claims.SysWrites (.arrivalRegisterWrite a q) s (0x038 + q.toNat) (w64 (bits (readW s k) 31 0 * 2 ^ 32 + arvLow (s.val a.r))) :=
  sysWrites_of rfl (issueFault_free rfl) (by
    rw [M.bind_readSrc ha, M.bind_get_apply]
    simp only [he, hk]
    rfl)

/-- R422: a location that names no object leaves a free value above. -/
theorem arrival_free {t : State} (he : bit (s.val a.r) 31 = true) (hk : arvKey s s.cur (s.val a.r) = none)
    (hm : sysWrite (0x038 + q.toNat) (w64 (bits (Config.freeWord s.free) 31 0 * 2 ^ 32 + arvLow (s.val a.r)))
      { s with free := s.free + 1 } = .ok ((), t)) : Ends (.arrivalRegisterWrite a q) s t :=
  ends_free rfl rfl (by
    rw [M.bind_readSrc ha, M.bind_get_apply]
    simp only [he, hk]
    exact hm)

end

theorem systemRegisterWrites : Claims.SystemRegisterWrites := by
  refine fun a s ha => ⟨srw_writes ha, fun hp => ⟨paddock_writes ha hp, handlerLimit_writes ha hp⟩, vflags_writes ha, mflags_writes ha,
    fun q he => arrival_keeps q ha he, fun q k he hk => arrival_reads q ha he hk, fun q he hk =>
    ⟨_, w64 (bits (Config.freeWord s.free) 31 0 * 2 ^ 32 + arvLow (s.val a.r)), rfl, bits_arrival _ _, fun h => ?_, fun h => ?_⟩⟩
  · exact arrival_free q ha he hk (sysWrite_deferred _ _ h)
  · exact arrival_free q ha he hk (sysWrite_serial _ _ h)

/-! ### What a write leaves (R8, R160 to R164, R166) -/

theorem applyLate_ctxReg {s : State} {c n : Nat} {v : W64} (h : n < 0x080) :
    applyLate s c (.sys n v) = s.setCtx c (writeSysReg (s.ctx c) n v) := by
  rw [applyLate_sys, if_neg (by omega)]
  rfl

theorem applyLate_coreReg {s : State} {c n : Nat} {v : W64} (h : 0x080 ≤ n) :
    applyLate s c (.sys n v) = s.setCore (coreOf c) (writeCoreReg (s.core (coreOf c)) n v) := by
  rw [applyLate_sys, if_pos h]
  rfl

/-- No system register is one of the scalar registers. -/
theorem writeSysReg_x (x : Ctx) (n : Nat) (v : W64) : (writeSysReg x n v).x = x.x := by
  unfold writeSysReg
  split <;> rfl

/-- What a mask keeps: the bits at which it is one. -/
theorem getLsbD_mask (m : W64) (p : Nat → Prop) [DecidablePred p] (hm : ∀ i : Fin 64, m.getLsbD i = decide (p i)) (v : W64) (i : Nat) :
    (v &&& m).getLsbD i = (decide (p i) && v.getLsbD i) := by
  rw [BitVec.getLsbD_and, Bool.and_comm]
  by_cases h : i < 64
  · rw [hm ⟨i, h⟩]
  · rw [BitVec.getLsbD_of_ge v i (by omega), Bool.and_false, Bool.and_false]

theorem getLsbD_tvecMask (v : W64) (i : Nat) :
    (v &&& 0x01FFFFFFFFFFFFF0).getLsbD i = (decide (4 ≤ i ∧ i ≤ 56) && v.getLsbD i) :=
  getLsbD_mask 0x01FFFFFFFFFFFFF0 (fun i => 4 ≤ i ∧ i ≤ 56) (by decide) v i

theorem getLsbD_causeMask (v : W64) (i : Nat) : (v &&& 0x3FF).getLsbD i = (decide (i ≤ 9) && v.getLsbD i) :=
  getLsbD_mask 0x3FF (· ≤ 9) (by decide) v i

theorem getLsbD_epcMask (v : W64) (i : Nat) :
    (v &&& 0xFDFFFFFFFFFFFFF1).getLsbD i = (decide (i = 0 ∨ 4 ≤ i ∧ i ≤ 56 ∨ 58 ≤ i ∧ i ≤ 63) && v.getLsbD i) :=
  getLsbD_mask 0xFDFFFFFFFFFFFFF1 (fun i => i = 0 ∨ 4 ≤ i ∧ i ≤ 56 ∨ 58 ≤ i ∧ i ≤ 63) (by decide) v i

theorem writeSysReg_arv (x : Ctx) (q : Fin 5) (v : W64) : (writeSysReg x (0x038 + q.val) v).arv[q] = v := by
  fin_cases q <;> simp [writeSysReg]

theorem writeCoreReg_paddock (k : Core) (n : Fin 4) (v : W64) : (writeCoreReg k (0x088 + n.val) v).paddock[n] = v := by
  fin_cases n <;> simp [writeCoreReg]

/-- R166: the handler limit is the low 32 bits, or 1 where they are zero. -/
theorem writeCoreReg_hlimit (k : Core) (v : W64) : (writeCoreReg k 0x080 v).hlimit.toNat = if bits v 31 0 = 0 then 1 else bits v 31 0 := by
  have h := bits_lt v 31 0
  simp only [writeCoreReg, if_true]
  split
  · rfl
  · rw [w64, BitVec.toNat_ofNat, Nat.mod_eq_of_lt (by omega)]

theorem systemRegisterStores : Claims.SystemRegisterStores := by
  intro s c v
  have hr : ∀ n, n < 0x080 → (applyLate s c (.sys n v)).ctx c = writeSysReg (s.ctx c) n v := fun n h => by
    rw [applyLate_ctxReg h, State.ctx_setCtx_same]
  have hk : ∀ n, 0x080 ≤ n → (applyLate s c (.sys n v)).core (coreOf c) = writeCoreReg (s.core (coreOf c)) n v := fun n h => by
    rw [applyLate_coreReg h, State.core_setCore_same]
  refine ⟨fun n h => ⟨?_, by rw [hr n h, writeSysReg_x]⟩, congrArg Ctx.wake (hr 0x009 (by decide)), congrArg Ctx.lc0 (hr 0x010 (by decide)),
    congrArg Ctx.lc1 (hr 0x011 (by decide)), congrArg Ctx.vflags (hr 0x020 (by decide)), congrArg Ctx.mflags (hr 0x021 (by decide)),
    fun i => ?_, fun i => ?_, fun i => ?_, fun i => ?_, fun i => ?_, congrArg (·.bank1.eval) (hr 0x034 (by decide)),
    congrArg (·.bank2.eval) (hr 0x037 (by decide)), fun q => ?_, fun n h => ⟨fun j => ?_, fun j hj => ?_⟩, ?_, fun k => ?_⟩
  · rw [applyLate_ctxReg h]
    exact .of_sets (SetsCtx.setCtx ..)
  · rw [hr _ (by decide)]; exact getLsbD_tvecMask v i
  · rw [hr _ (by decide)]; exact getLsbD_causeMask v i
  · rw [hr _ (by decide)]; exact getLsbD_causeMask v i
  · rw [hr _ (by decide)]; exact getLsbD_epcMask v i
  · rw [hr _ (by decide)]; exact getLsbD_epcMask v i
  · rw [hr _ (by omega), writeSysReg_arv]
  · rw [applyLate_coreReg h, State.ctx_setCore]
  · rw [applyLate_coreReg h, State.core_setCore_ne _ _ _ _ hj]
  · rw [hk _ le_rfl, writeCoreReg_hlimit]
  · rw [hk _ (by omega), writeCoreReg_paddock]

/-! ### Paddocks (R83) -/

theorem getLsbD_paddockFields (v : W64) (i : Nat) : (v &&& paddockFields).getLsbD i =
    (decide (i = 63 ∨ 58 ≤ i ∧ i ≤ 59 ∨ 48 ≤ i ∧ i ≤ 53 ∨ 24 ≤ i ∧ i ≤ 47 ∨ i ≤ 22) && v.getLsbD i) :=
  getLsbD_mask paddockFields (fun i => i = 63 ∨ 58 ≤ i ∧ i ≤ 59 ∨ 48 ≤ i ∧ i ≤ 53 ∨ 24 ≤ i ∧ i ≤ 47 ∨ i ≤ 22) (by decide) v i

/-- Base and limit stand in fields that a paddock stores. -/
theorem bits_paddockFields (v : W64) : bits (v &&& paddockFields) 22 0 = bits v 22 0 ∧ bits (v &&& paddockFields) 47 24 = bits v 47 24 := by
  refine ⟨bits_congr fun i _ h => ?_, bits_congr fun i h1 h2 => ?_⟩
  · rw [getLsbD_paddockFields, decide_eq_true (by omega), Bool.true_and]
  · rw [getLsbD_paddockFields, decide_eq_true (by omega), Bool.true_and]

/-- The tests of a value against one other paddock of the core. -/
def PaddockClear (p v : W64) : Prop := bit p 63 = true → ¬ (bits p 22 0 < bits v 47 24 ∧ bits v 22 0 < bits p 47 24)

/-- The tests of a value against the other paddocks, paddock by paddock. -/
theorem paddocks_clear_iff (k : Core) (n : Nat) (v : W64) :
    (k.paddock.toList.zipIdx.all fun (p, i) => i == n || !bit p 63 || !decide (bits p 22 0 < bits v 47 24 ∧ bits v 22 0 < bits p 47 24)) = true ↔
      ∀ m : Fin 4, m.val ≠ n → PaddockClear k.paddock[m] v := by
  rw [List.all_eq_true, List.forall_mem_zipIdx']
  have hlen : k.paddock.toList.length = 4 := Vector.length_toList
  constructor
  · rintro h m hm hv ⟨hlow, hhigh⟩
    have := h m.val (by omega)
    rw [Fin.getElem_fin] at hv hlow hhigh
    simp [hm, hv, hlow, hhigh] at this
  · intro h m hm
    by_cases hn : m = n
    · simp [hn]
    · cases hv : bit k.paddock[m] 63 with
      | false => simp [hv]
      | true =>
        have hclear : ¬ (bits k.paddock[m] 22 0 < bits v 47 24 ∧ bits v 22 0 < bits k.paddock[m] 47 24) := h ⟨m, by omega⟩ hn hv
        simp only [Vector.getElem_toList, hv, Bool.not_true, Bool.or_false]
        rw [decide_eq_false hclear, Bool.not_false, Bool.or_true]

theorem paddockOk_iff (k : Core) (n : Fin 4) (v : W64) : paddockOk k n.val v = true ↔
    bits v 22 0 % 2 ^ 16 = 0 ∧ bits v 47 24 % 2 ^ 16 = 0 ∧ bits v 47 24 ≤ 0x7F0000 ∧ bits v 22 0 < bits v 47 24 ∧
      ∀ m : Fin 4, m ≠ n → PaddockClear k.paddock[m] v := by
  simp only [paddockOk, Bool.and_eq_true, beq_iff_eq, decide_eq_true_eq, paddocks_clear_iff, and_assoc, ne_eq, Fin.val_inj]

/-- The tests see only base and limit, which are stored fields. -/
theorem paddockOk_fields (k : Core) (n : Nat) (v : W64) : paddockOk k n (v &&& paddockFields) = paddockOk k n v := by
  obtain ⟨hb, hl⟩ := bits_paddockFields v
  simp only [paddockOk, hb, hl]

theorem getLsbD_paddockValue (k : Core) (n : Nat) (v : W64) (i : Nat) : (paddockValue k n v).getLsbD i =
    (decide (i = 63 → paddockOk k n v = true) && (v &&& paddockFields).getLsbD i) := by
  simp only [paddockValue, paddockOk_fields]
  split
  · next h => simp [h]
  · next h =>
    rw [getLsbD_mask 0x7FFFFFFFFFFFFFFF (· ≠ 63) (by decide)]
    simp [h]

theorem paddockTests : Claims.PaddockTests := by
  refine fun k n v => ⟨?_, fun i h => ?_⟩
  · rw [bit, getLsbD_paddockValue, getLsbD_paddockFields, bit]
    simp only [Bool.and_eq_true, decide_eq_true_eq, true_imp_iff, true_or, true_and, paddockOk_iff]
    exact and_comm
  · rw [getLsbD_paddockValue, getLsbD_paddockFields, decide_eq_true (fun e => by omega), Bool.true_and]
    have : ¬ i = 63 := by omega
    simp only [this, false_or]

/-- Settles O13: when and what each form writes, what a write leaves, and the tests of a paddock. -/
theorem systemRegisterWriting : Obligations.SystemRegisterWriting := ⟨systemRegisterWrites, systemRegisterStores, paddockTests⟩

end Sys2Proof.Machine
end

section
/-! PROOFS. `lget` and `lview` (R63, R167 to R169), and the privileged instructions on translations and contexts (R170, R171, R173 to R177). -/

namespace Sys2Proof.Machine

/-! ### Layout entries (R63, R167 to R169) -/

/-- R169, R63: the word of an entry that `lget` reads, and the base that it does not show. -/
theorem lgetWord_shown {e : Layout} {w : Nat} (h : w ≠ 0 ∨ e.space ∉ [2, 3, 4, 6]) : lgetWord e w = e.words.getD w 0 := by
  refine if_neg fun hh => ?_
  obtain ⟨hw, hs⟩ := hh
  exact h.elim (fun h => h hw) fun h => h (by simpa [spSram, spVm, spHost, spKv] using hs)

theorem lgetWord_hidden {e : Layout} {w : Nat} (h : w = 0 ∧ e.space ∈ [2, 3, 4, 6]) : lgetWord e w = 0 :=
  if_pos ⟨h.1, by simpa [spSram, spVm, spHost, spKv] using h.2⟩

theorem lget_ends {d : Reg} {l : BitVec 6} {w : BitVec 3} {s : State} (hd : Writes s d) :
    Ends (.lget d l w) s (s.put d (lgetWord (entryOf s s.cur l.toNat) w.toNat)) :=
  ends_free rfl rfl (writeReg_ready _ hd)

section
variable {d l : BitVec 6} {b : Src} {s : State} (hb : Reads s b.r)
include hb

theorem lview_misaligned (h : (s.val b.r).toNat % 64 ≠ 0) : Traps (.lview d l b) s cMisaligned (s.val b.r) :=
  traps_free rfl rfl (by rw [M.bind_readSrc hb, M.bind_check_fails (beq_eq_false_iff_ne.mpr h)])

variable (h : (s.val b.r).toNat % 64 = 0)
include h

/-- R167: a handler has no views, and an invalid entry has none. -/
theorem lview_noParent (hp : isHandler s.cur = true ∨ (entryOf s s.cur l.toNat).valid = false) :
    Traps (.lview d l b) s cRights (w64 d.toNat) :=
  traps_free rfl rfl (by
    rw [M.bind_readSrc hb, M.bind_check (by rw [h]; rfl), M.bind_get_apply, M.bind_check_fails]
    rcases hp with hp | hp <;> simp [hp])

variable {k : Nat} (hk : k = sliceKey (coreOf s.cur) ((s.val b.r).toNat % 2 ^ 23)) (hc : isHandler s.cur = false)
  (hv : (entryOf s s.cur l.toNat).valid = true) (hh : Unheld s k) (hf : Unfenced s k 64) (hr : Unraced s k 64 false false)
  (hp : Unpoisoned s k 64)
include hk hc hv hh hf hr hp

/-- R167: a descriptor that breaks a rule is a fault. -/
theorem lview_refused (ho : viewOf (entryOf s s.cur l.toNat) (readWs s k 8) = none) : Traps (.lview d l b) s cRights (w64 d.toNat) :=
  traps_free rfl rfl (by
    rw [M.bind_readSrc hb, M.bind_check (by rw [h]; rfl), M.bind_get_apply, M.bind_check (by rw [hc, hv]; rfl),
      M.bind_ok (loadLocal_ready hk hh hf hr hp), show 64 = 8 * 8 from rfl, words_readNat, ho]
    rfl)

theorem lview_derives {e : Layout} (ho : viewOf (entryOf s s.cur l.toNat) (readWs s k 8) = some e) :
    Ends (.lview d l b) s ((s.raced k 64 false false).iss fun i =>
      { i with late := i.late ++ [.view d.toNat (install (coreOf s.cur) e)] }) :=
  ends_free rfl rfl (by
    rw [M.bind_readSrc hb, M.bind_check (by rw [h]; rfl), M.bind_get_apply, M.bind_check (by rw [hc, hv]; rfl),
      M.bind_ok (loadLocal_ready hk hh hf hr hp), show 64 = 8 * 8 from rfl, words_readNat, ho]
    rfl)

end

/-- Settles O14: `lget` by what the base shows; `lview` by its alignment, its parent and its descriptor. -/
theorem layoutInstructions : Obligations.LayoutInstructions := by
  refine ⟨fun d l w s e hd he => ⟨fun h => ?_, fun h => ?_⟩, fun d l b s k ws hb hk hw =>
    ⟨lview_misaligned hb, fun h => ⟨lview_noParent hb h, fun hc hv hh hf hr hp => ⟨fun ho => ?_, fun e ho => ?_⟩⟩⟩⟩
  · subst he
    rw [← lgetWord_shown (h.imp_left fun hn h0 => hn (BitVec.eq_of_toNat_eq h0))]
    exact lget_ends hd
  · subst he
    rw [← lgetWord_hidden (w := w.toNat) (h.imp_left fun h0 => by rw [h0]; rfl)]
    exact lget_ends hd
  · exact lview_refused hb h hk hc hv hh hf hr hp (hw ▸ ho)
  · exact lview_derives hb h hk hc hv hh hf hr hp (hw ▸ ho)

/-! ### Privilege (R159, R170) -/

/-- A privileged instruction at user privilege has PRIVILEGE for its fault at issue. -/
theorem privilege_traps {i : Instr} {s : State} {m : M Unit} (hx : exec i s = runSyl i m s) (hp : isPriv s s.cur = false)
    (hi : issuesPriv i = true) (hn : needsPriv i = true) : IssueTraps i s 0x04 (BitVec.ofNat 64 (s.me.iss.getD {}).syl.toNat) :=
  issueTraps_of hx (issueFault_user hi hn hp)

/-- Settles O15: each privileged instruction has that one fault. -/
theorem privilegeRule : Obligations.PrivilegeRule := by
  rintro i s hp (⟨t, rfl | rfl | rfl | rfl | rfl⟩ | ⟨a, rfl | rfl | rfl⟩ | ⟨b, d, a, rfl⟩ | ⟨d, a, b, rfl | rfl⟩ | ⟨d, a, rfl⟩ |
    ⟨a, k, rfl⟩ | ⟨d, n, hn, rfl⟩)
  case inr.inr.inr.inr.inr.inr => exact privilege_traps rfl hp rfl (decide_eq_true hn)
  all_goals exact privilege_traps rfl hp rfl rfl

/-! ### Translations (R171, R173) -/

theorem inScope_iff (scope : BitVec 3) (c cluster : Nat) : inScope scope c cluster = true ↔
    scope = 2 ∧ cluster = c / 64 ∨ scope = 3 ∧ cluster / 16 = c / 1024 ∨ scope ≠ 2 ∧ scope ≠ 3 := by
  have h2 : scope = 2 ↔ scope.toNat = 2 := ⟨fun h => by rw [h]; rfl, fun h => BitVec.eq_of_toNat_eq h⟩
  have h3 : scope = 3 ↔ scope.toNat = 3 := ⟨fun h => by rw [h]; rfl, fun h => BitVec.eq_of_toNat_eq h⟩
  simp only [inScope, ne_eq, h2, h3]
  split
  · next h => simp [h, clusterOf]
  · next h => simp [h, dieOf]
  · next h2 h3 => exact iff_of_true rfl (.inr (.inr ⟨h2, h3⟩))

/-- R171: a `tlbi` whose partition is in range removes what it names in the caches of its scope. -/
theorem tlbi_invalidates {i : Instr} {t : TlbiArgs} {s : State} {byPart : Bool} {hit : Tlb → Nat → Nat → Bool} {p : Tlb → Prop}
    (hx : exec i s = runSyl i (tlbiM t byPart hit) s) (hi : issuesPriv i = true) (hs : isPriv s s.cur = true) (ha : Reads s t.a.r)
    (hb : Reads s t.b.r) (hl : byPart = true → (s.val t.b.r).toNat ≤ 32)
    (hp : ∀ e, hit e ((s.val t.a.r).toNat % 2 ^ 57) (s.val t.b.r).toNat = true ↔ p e) : Claims.Invalidates i t s p := by
  obtain ⟨l, hlist⟩ : ∃ l, l = s.tlb.filter fun e => !(inScope t.scope s.cur e.cluster &&
      hit e ((s.val t.a.r).toNat % 2 ^ 57) (s.val t.b.r).toNat) := ⟨_, rfl⟩
  have hm : tlbiM t byPart hit s = .ok ((), { s with tlb := l }) := by
    unfold tlbiM
    rw [M.bind_readSrc ha, M.bind_readSrc hb, hlist]
    cases byPart with
    | false => rfl
    | true =>
      rw [if_pos rfl, M.bind_limit (decide_eq_true (hl rfl))]
      rfl
  refine ⟨_, ends_of hx (issueFault_priv hi hs) hm, rfl, fun e => ?_⟩
  show e ∈ l ↔ _
  rw [hlist, List.mem_filter, Bool.not_eq_true', Bool.and_eq_false_iff, ← hp, ← inScope_iff]
  simp only [not_and_or, Bool.not_eq_true, or_comm]

section
variable {big : Bool} {d : Reg} {a : Src} {s : State} (hp : isPriv s s.cur = true) (ha : Reads s a.r)
include hp ha

theorem pgrel_misaligned (h : (s.val a.r).toNat % (if big then 2 ^ 29 else 2 ^ 16) ≠ 0) :
    Traps (.pgrel big d a) s cMisaligned (s.val a.r) :=
  traps_of rfl (issueFault_priv rfl hp) (by rw [M.bind_readSrc ha, M.bind_check_fails (beq_eq_false_iff_ne.mpr h)])

/-- R312: a full quarantine queue holds the instruction at issue. -/
theorem pgrel_waits (h : (s.val a.r).toNat % (if big then 2 ^ 29 else 2 ^ 16) = 0) (hq : 1024 ≤ s.quarantine.length) :
    Waits (.pgrel big d a) s :=
  runSyl_wait (issueFault_priv rfl hp) (by
    rw [M.bind_readSrc ha, M.bind_check (beq_iff_eq.mpr h), M.bind_get_apply, M.bind_await_fails (decide_eq_false (Nat.not_lt.mpr hq))])

theorem pgrel_ends (h : (s.val a.r).toNat % (if big then 2 ^ 29 else 2 ^ 16) = 0) (hq : s.quarantine.length < 1024) (hd : Writes s d) :
    Ends (.pgrel big d a) s (({ s with quarantine := s.quarantine ++ [⟨(s.val a.r).toNat, big, s.qcount + 2⟩] } : State).put d
      (w64 (s.qcount + 2))) :=
  ends_of rfl (issueFault_priv rfl hp) (by
    rw [M.bind_readSrc ha, M.bind_check (beq_iff_eq.mpr h), M.bind_get_apply, M.bind_await (decide_eq_true hq), M.bind_modify_apply]
    exact writeReg_ready _ hd)

end

/-- Settles O16: each form of `tlbi` by what it names, and `pgrel` by its alignment and the room in the queue. -/
theorem translationInstructions : Obligations.TranslationInstructions := by
  refine ⟨fun t s hs ha hb => ⟨fun hl => ⟨?_, ?_, ?_, ?_⟩, ?_⟩, fun big d a s hp ha hd =>
    ⟨pgrel_misaligned hp ha, fun h => ⟨pgrel_waits hp ha h, fun hq => pgrel_ends hp ha h hq hd⟩⟩⟩
  · exact tlbi_invalidates rfl rfl hs ha hb (fun _ => hl) fun e => by simp
  · exact tlbi_invalidates rfl rfl hs ha hb (fun _ => hl) fun e => by simp
  · exact tlbi_invalidates rfl rfl hs ha hb (fun _ => hl) fun e => by simp
  · exact tlbi_invalidates rfl rfl hs ha hb (fun _ => hl) fun e => by simp
  · exact tlbi_invalidates rfl rfl hs ha hb nofun fun e => by simp

end Sys2Proof.Machine
end

section
/-! PROOFS. `ctxsave`, `ctxload` and `ctxkill` (R174 to R177): their statuses, the request for a unit and its image, the resumption and the kill. -/

namespace Sys2Proof.Machine

/-! ### From what a computation answers to what its instruction does -/

section
variable {i : Instr} {s : State} {r : Except Stop (Unit × State)} (hx : exec i s = outcome s r)
include hx

theorem Ends.of_outcome {t : State} (h : r = .ok ((), t)) : Ends i s t := by
  rw [Ends, hx, h]
  rfl

theorem Traps.of_outcome {c : BitVec 8} {v : W64} (h : r = .error (.trap c v)) : Traps i s c v := by
  rw [Traps, hx, h]
  rfl

theorem Waits.of_outcome (h : r = .error .wait) : Waits i s := by
  rw [Waits, hx, h]
  rfl

end

/-- A privileged instruction in a supervisor's context has the outcome of its effect. -/
theorem exec_priv {i : Instr} {s : State} {m : M Unit} (hx : exec i s = runSyl i m s) (hi : issuesPriv i = true)
    (hp : isPriv s s.cur = true) : exec i s = outcome s (m s) := by
  rw [hx, runSyl, issueFault_priv hi hp]

/-! ### ctxsave (R174, R176) -/

/-- What `ctxsave` of context t does before the unit is saved: a status, or the request for the unit. -/
def askSave (d : Reg) (t : Nat) : M Unit := do
  let s ← get
  if 6 ≤ t % 8 then writeReg d 1
  else if 3 ≤ t % 8 then writeReg d 2
  else
    match unitOf s t with
    | none => writeReg d 1
    | some (lane, u) =>
      if coreOf t = coreOf s.cur ∧ (unitCtxs (coreOf t) lane u).contains s.cur then writeReg d 3
      else if (u.saver.getD s.cur) = s.cur then
        holdWith fun s =>
          let s := s.setMe (s.me.setWait (.ctxsave t))
          wakeUnit (setUnit s (coreOf t) lane (some { u with saver := some s.cur })) (coreOf t) lane u
      else waitM

section
variable {d : Reg} {s : State} {t : Nat}

theorem askSave_noContext (hd : Writes s d) (h : 6 ≤ t % 8) : askSave d t s = .ok ((), s.put d 1) := by
  rw [askSave, M.bind_get_apply, if_pos h, writeReg_ready _ hd]

theorem askSave_handler (hd : Writes s d) (h3 : 3 ≤ t % 8) (h6 : t % 8 < 6) : askSave d t s = .ok ((), s.put d 2) := by
  rw [askSave, M.bind_get_apply, if_neg (Nat.not_le.mpr h6), if_pos h3, writeReg_ready _ hd]

variable (h3 : t % 8 < 3)
include h3

theorem askSave_noUnit (hd : Writes s d) (hu : unitOf s t = none) : askSave d t s = .ok ((), s.put d 1) := by
  rw [askSave, M.bind_get_apply, if_neg (by omega), if_neg (by omega), hu]
  exact writeReg_ready _ hd

variable {lane : Nat} {u : UnitSt} (hu : unitOf s t = some (lane, u))
include hu

theorem askSave_own (hd : Writes s d) (ho : coreOf t = coreOf s.cur ∧ s.cur ∈ unitCtxs (coreOf t) lane u) :
    askSave d t s = .ok ((), s.put d 3) := by
  rw [askSave, M.bind_get_apply, if_neg (by omega), if_neg (by omega), hu]
  show (if _ then _ else _ : M Unit) s = _
  rw [if_pos (ho.imp_right List.contains_iff_mem.mpr), writeReg_ready _ hd]

variable (ho : ¬ (coreOf t = coreOf s.cur ∧ s.cur ∈ unitCtxs (coreOf t) lane u))
include ho

/-- The request of a unit by `ctxsave` of context t (R174): the running context waits for it, and the unit's `idle` ends. -/
def requestUnit (t lane : Nat) (u : UnitSt) (s : State) : State :=
  wakeUnit (setUnit (s.setMe (s.me.setWait (.ctxsave t))) (coreOf t) lane (some { u with saver := some s.cur })) (coreOf t) lane u

theorem askSave_requests (hs : u.saver = none ∨ u.saver = some s.cur) : askSave d t s = .error (.hold (requestUnit t lane u)) := by
  have hg : u.saver.getD s.cur = s.cur := by rcases hs with hs | hs <;> rw [hs] <;> rfl
  rw [askSave, M.bind_get_apply, if_neg (by omega), if_neg (by omega), hu]
  show (if _ then _ else _ : M Unit) s = _
  rw [if_neg (mt (And.imp_right List.contains_iff_mem.mp) ho), if_pos hg]
  rfl

theorem askSave_waits {c : Nat} (hs : u.saver = some c) (hc : c ≠ s.cur) : askSave d t s = .error .wait := by
  have hg : u.saver.getD s.cur ≠ s.cur := by rw [hs]; exact hc
  rw [askSave, M.bind_get_apply, if_neg (by omega), if_neg (by omega), hu]
  show (if _ then _ else _ : M Unit) s = _
  rw [if_neg (mt (And.imp_right List.contains_iff_mem.mp) ho), if_neg hg]
  rfl

end

/-- What `ctxsave` does once the unit is saved under handle h (R176): the image, with the words in device format drawn. -/
def takeImage (d : Reg) (h t' off : Nat) (sv : SavedUnit) : M Unit := do
  let (s1, op) := opaqueWords (← get) 35
  set s1
  let img := imageOf sv (((sv.ctxs.find? fun p => p.1 == t' % 8).map (·.2)).getD {}) op
  storeLocal off 1024 (wordsNat img) false
  modify fun s => { s with saved := s.saved.map fun y => if y.handle = h then { y with image := img, named := t' % 8 } else y }
  writeReg d 0

/-- Words in device format are free values (R176): they change the draw alone. -/
theorem opaqueWords_spec (n : Nat) (s : State) : ∃ l, opaqueWords s n = ({ s with free := s.free + n }, l) ∧ l.length = n := by
  induction n generalizing s with
  | zero => exact ⟨[], rfl, rfl⟩
  | succ n ih =>
    obtain ⟨l, hl, hn⟩ := ih { s with free := s.free + 1 }
    refine ⟨Config.freeWord s.free :: l, ?_, by rw [List.length_cons, hn]⟩
    simp only [opaqueWords, hl, Nat.add_assoc, Nat.add_comm 1 n]

theorem imageOf_length (sv : SavedUnit) (x : Ctx) {op : List W64} (h : op.length = 35) : (imageOf sv x op).length = 128 := by
  simp [imageOf, h]

/-- The detector does not ask for the free values drawn. -/
theorem Unraced.free {s : State} {k n : Nat} {w a : Bool} (h : Unraced s k n w a) (m : Nat) : Unraced { s with free := m } k n w a := h

/-- Words stored as one value read back as the words. -/
theorem readWs_stored (s : State) (k : Nat) (l : List W64) (c a : Bool) :
    readWs (s.stored k (8 * l.length) (wordsNat l) c a) k l.length = l := by
  rw [State.stored, readWs_of_mem (clearPoison_mem ..), readWs_writeNat]

/-- The state after `ctxsave` has stored the image of a unit saved under handle h. -/
def imageStored (s : State) (k h t' : Nat) (img : List W64) : State :=
  let v := ({ s with free := s.free + 35 } : State).stored k (8 * img.length) (wordsNat img) true false
  { v with saved := v.saved.map fun y => if y.handle = h then { y with image := img, named := t' % 8 } else y }

theorem imageStored_ctx (s : State) (k h t' : Nat) (img : List W64) (j : Nat) : (imageStored s k h t' img).ctx j = s.ctx j :=
  State.stored_ctx ..

theorem imageStored_cur (s : State) (k h t' : Nat) (img : List W64) : (imageStored s k h t' img).cur = s.cur := State.stored_cur ..

theorem readWs_imageStored (s : State) (k h t' : Nat) (img : List W64) : readWs (imageStored s k h t' img) k img.length = img :=
  (readWs_of_mem (t := imageStored s k h t' img)
    (show _ = (({ s with free := s.free + 35 } : State).stored k (8 * img.length) (wordsNat img) true false).mem from rfl) ..).trans (readWs_stored ..)

theorem readByte_imageStored {s : State} {k h t' : Nat} {img : List W64} {i : Nat} (hi : i < k ∨ k + 8 * img.length ≤ i) :
    readByte (imageStored s k h t' img) i = readByte s i :=
  State.readByte_stored _ _ _ _ _ _ i hi

/-- The image stands at its place, nothing else of memory changes, and no context does. -/
theorem takeImage_stores {d : Reg} {h t' off k : Nat} {sv : SavedUnit} {s : State} (hd : Writes s d) (hk : k = sliceKey (coreOf s.cur) off)
    (hh : Unheld s k) (hf : Unfenced s k 1024) (hr : Unraced s k 1024 true false) :
    ∃ (u : State) (op : List W64), takeImage d h t' off sv s = .ok ((), u.put d 0) ∧ op.length = 35 ∧
      readWs u k 128 = imageOf sv (((sv.ctxs.find? fun p => p.1 == t' % 8).map (·.2)).getD {}) op ∧
      (∀ i, i < k ∨ k + 1024 ≤ i → readByte u i = readByte s i) ∧ ∀ j, u.ctx j = s.ctx j := by
  obtain ⟨op, hop, hlen⟩ := opaqueWords_spec 35 s
  obtain ⟨img, himg⟩ : ∃ img, img = imageOf sv (((sv.ctxs.find? fun p => p.1 == t' % 8).map (·.2)).getD {}) op := ⟨_, rfl⟩
  have h128 : img.length = 128 := by rw [himg]; exact imageOf_length _ _ hlen
  have h1024 : 1024 = 8 * img.length := by rw [h128]
  have hwr : Writes (imageStored s k h t' img) d :=
    hd.of_me (by rw [State.me_eq, imageStored_cur, imageStored_ctx, State.me_eq])
  have hread := readWs_imageStored s k h t' img
  rw [h128, himg] at hread
  rw [h1024] at hf hr ⊢
  refine ⟨imageStored s k h t' img, op, ?_, hlen, by rw [himg]; exact hread, fun i hi => readByte_imageStored hi, imageStored_ctx s k h t' img⟩
  have hstore := storeLocal_ready (wordsNat img) (s := { s with free := s.free + 35 }) hk hh hf (hr.free _)
  rw [takeImage, M.bind_get_apply, hop]
  show (set _ >>= fun _ => _ : M Unit) s = _
  rw [M.bind_set_apply, ← himg, h1024]
  show (storeLocal off (8 * img.length) (wordsNat img) false >>= fun _ => _ : M Unit) _ = _
  rw [M.bind_ok hstore, M.bind_modify_apply]
  exact writeReg_ready _ hwr

section
variable {d : Reg} {a b : Src} {s : State} (hp : isPriv s s.cur = true) (ha : Reads s a.r) (hb : Reads s b.r)
  (ht : (s.val a.r).toNat < 4096)
include hp ha hb ht

theorem ctxsave_misaligned (ho : (s.val b.r).toNat % 1024 ≠ 0) : Traps (.ctxsave d a b) s cMisaligned (s.val b.r) :=
  .of_outcome (exec_priv rfl rfl hp) (by
    rw [M.bind_readSrc ha, M.bind_readSrc hb, M.bind_limit (decide_eq_true ht), M.bind_check_fails (beq_eq_false_iff_ne.mpr ho)])

theorem ctxsave_asks (ho : (s.val b.r).toNat % 1024 = 0) (hw : ∀ h t', s.me.wait ≠ .saved h t') :
    exec (.ctxsave d a b) s = outcome s (askSave d (s.val a.r).toNat s) := by
  rw [exec_priv (i := .ctxsave d a b) rfl rfl hp]
  congr 1
  rw [M.bind_readSrc ha, M.bind_readSrc hb, M.bind_limit (decide_eq_true ht), M.bind_check (beq_iff_eq.mpr ho), M.bind_getMe]
  generalize s.me.wait = w at hw ⊢
  cases w with
  | saved h t' => exact absurd rfl (hw h t')
  | _ => rfl

theorem ctxsave_takes {h t' : Nat} {sv : SavedUnit} (ho : (s.val b.r).toNat % 1024 = 0) (hw : s.me.wait = .saved h t')
    (hs : s.saved.find? (fun x => x.handle == h) = some sv) :
    exec (.ctxsave d a b) s = outcome s (takeImage d h t' ((s.val b.r).toNat % 2 ^ 23) sv s) := by
  rw [exec_priv (i := .ctxsave d a b) rfl rfl hp]
  congr 1
  rw [M.bind_readSrc ha, M.bind_readSrc hb, M.bind_limit (decide_eq_true ht), M.bind_check (beq_iff_eq.mpr ho), M.bind_getMe,
    M.bind_get_apply, hw]
  simp only [hs]
  rfl

end

/-! ### ctxload (R175) -/

/-- What `ctxload` does with the image that it has read: the resumption where nothing refuses it, and the status. -/
def loadUnit (d : Reg) (t : Nat) (img : List W64) : M Unit := do
  let s ← get
  let st := loadStatus s t img
  if st = 0 then
    match s.saved.find? fun x => w64 x.handle == img.getD 120 0 with
    | some sv =>
      set (resumeUnit s { sv with ctxs := sv.ctxs.map fun (i, x) => if i = sv.named then (i, editCtx x img) else (i, x) } (coreOf t))
    | none => pure ()
  writeReg d (w64 st)

theorem loadUnit_refused {d : Reg} {t : Nat} {img : List W64} {s : State} (hd : Writes s d) (hs : loadStatus s t img ≠ 0) :
    loadUnit d t img s = .ok ((), s.put d (w64 (loadStatus s t img))) := by
  rw [loadUnit, M.bind_get_apply]
  simp only [if_neg hs]
  exact writeReg_ready _ hd

/-- The edits of an image name the contexts of the unit as they stand. -/
theorem edited_names {l : List (Nat × Ctx)} {n : Nat} {img : List W64} {p : Nat × Ctx}
    (h : p ∈ l.map fun (i, x) => if i = n then (i, editCtx x img) else (i, x)) : ∃ q ∈ l, q.1 = p.1 := by
  obtain ⟨q, hq, rfl⟩ := List.mem_map.mp h
  refine ⟨q, hq, ?_⟩
  simp only
  split <;> rfl

theorem loadUnit_resumes {d : Reg} {t : Nat} {img : List W64} {s : State} {sv : SavedUnit} (hd : Writes s d) (hs : loadStatus s t img = 0)
    (hf : s.saved.find? (fun x => w64 x.handle == img.getD 120 0) = some sv) (hc : ∀ p ∈ sv.ctxs, s.cur ≠ 8 * coreOf t + p.1)
    (hu : s.cur ∉ unitCtxs (coreOf t) sv.lane sv.unit) :
    loadUnit d t img s = .ok ((), (resumeUnit s
      { sv with ctxs := sv.ctxs.map fun (i, x) => if i = sv.named then (i, editCtx x img) else (i, x) } (coreOf t)).put d 0) := by
  have hspares := resumeUnit_spares (Spares.refl s.cur s)
    { sv with ctxs := sv.ctxs.map fun (i, x) => if i = sv.named then (i, editCtx x img) else (i, x) } (coreOf t)
    (fun p hp => by obtain ⟨q, hq, e⟩ := edited_names hp; rw [← e]; exact hc q hq) hu
  rw [loadUnit, M.bind_get_apply]
  simp only [hs, if_true, hf]
  exact writeReg_ready _ (hd.spared hspares)

section
variable {d : Reg} {a b : Src} {s : State} (hp : isPriv s s.cur = true) (ha : Reads s a.r) (hb : Reads s b.r)
include hp ha hb

theorem ctxload_misaligned (ho : (s.val b.r).toNat % 1024 ≠ 0) : Traps (.ctxload d a b) s cMisaligned (s.val b.r) :=
  .of_outcome (exec_priv rfl rfl hp) (by
    rw [M.bind_readSrc ha, M.bind_readSrc hb, M.bind_check_fails (beq_eq_false_iff_ne.mpr ho)])

theorem ctxload_reads {k : Nat} (ho : (s.val b.r).toNat % 1024 = 0) (hk : k = sliceKey (coreOf s.cur) ((s.val b.r).toNat % 2 ^ 23))
    (hh : Unheld s k) (hf : Unfenced s k 1024) (hr : Unraced s k 1024 false false) (hq : Unpoisoned s k 1024) :
    exec (.ctxload d a b) s =
      outcome s (loadUnit d ((s.val a.r).toNat % 4096) (readWs s k 128) (s.raced k 1024 false false)) := by
  have himg : readImage ((s.val b.r).toNat % 2 ^ 23) s = .ok (readWs s k 128, s.raced k 1024 false false) := by
    rw [readImage, M.bind_ok (loadLocal_ready hk hh hf hr hq), show 1024 = 8 * 128 from rfl, words_readNat]
    rfl
  rw [exec_priv (i := .ctxload d a b) rfl rfl hp]
  congr 1
  rw [M.bind_readSrc ha, M.bind_readSrc hb, M.bind_check (beq_iff_eq.mpr ho), M.bind_ok himg]
  rfl

end

/-! ### ctxkill (R177) -/

/-- What `ctxkill` of context t does. -/
def killNamed (d : Reg) (t : Nat) : M Unit := do
  let s ← get
  if t = s.cur then writeReg d 1
  else if t % 8 < 6 ∧ ctxLive (s.ctx t) then
    modify fun s' => killCtx s' t 2 0 (epcWord (s.ctx t).pc (resumePoint (s.ctx t)).1 (resumePoint (s.ctx t)).2) 0
    writeReg d 0
  else
    match s.saved.find? fun y => y.suspended && y.core == coreOf t && (y.ctxs.any fun p => p.1 == t % 8) with
    | some sv =>
      modify fun s => killSaved s sv (t % 8)
      writeReg d 0
    | none => writeReg d 1

/-- A context number that names no live context. -/
theorem not_live {s : State} {t : Nat} (h : 6 ≤ t % 8 ∨ ctxLive (s.ctx t) = false) : ¬ (t % 8 < 6 ∧ ctxLive (s.ctx t) = true) := by
  rintro ⟨h6, hl⟩
  rcases h with h | h
  · omega
  · rw [h] at hl
    exact absurd hl (by decide)

section
variable {d : Reg} {s : State} {t : Nat} (hd : Writes s d)
include hd

theorem killNamed_self (h : t = s.cur) : killNamed d t s = .ok ((), s.put d 1) := by
  rw [killNamed, M.bind_get_apply, if_pos h, writeReg_ready _ hd]

theorem killNamed_live (h : t ≠ s.cur) (h6 : t % 8 < 6) (hl : ctxLive (s.ctx t) = true) : killNamed d t s =
    .ok ((), (killCtx s t 2 0 (epcWord (s.ctx t).pc (resumePoint (s.ctx t)).1 (resumePoint (s.ctx t)).2) 0).put d 0) := by
  rw [killNamed, M.bind_get_apply, if_neg h, if_pos ⟨h6, hl⟩, M.bind_modify_apply]
  exact writeReg_ready _ (hd.spared (killCtx_spares (.refl ..) _ _ _ _ (Ne.symm h)))

variable (hn : ¬ (t % 8 < 6 ∧ ctxLive (s.ctx t) = true))
include hn

theorem killNamed_saved {sv : SavedUnit} (h : t ≠ s.cur) (hc : s.cur < 4096)
    (hf : s.saved.find? (fun y => y.suspended && y.core == coreOf t && (y.ctxs.any fun p => p.1 == t % 8)) = some sv) :
    killNamed d t s = .ok ((), (killSaved s sv (t % 8)).put d 0) := by
  rw [killNamed, M.bind_get_apply, if_neg h, if_neg hn, hf]
  exact writeReg_ready _ (hd.spared (killSaved_spares (.refl ..) _ _ hc))

theorem killNamed_none
    (hf : s.saved.find? (fun y => y.suspended && y.core == coreOf t && (y.ctxs.any fun p => p.1 == t % 8)) = none) :
    killNamed d t s = .ok ((), s.put d 1) := by
  by_cases h : t = s.cur
  · exact killNamed_self hd h
  · rw [killNamed, M.bind_get_apply, if_neg h, if_neg hn, hf]
    exact writeReg_ready _ hd

end

theorem ctxkill_eq {d : Reg} {a : Src} {s : State} (hp : isPriv s s.cur = true) (ha : Reads s a.r) (ht : (s.val a.r).toNat < 4096) :
    exec (.ctxkill d a) s = outcome s (killNamed d (s.val a.r).toNat s) := by
  rw [exec_priv (i := .ctxkill d a) rfl rfl hp]
  congr 1
  rw [M.bind_readSrc ha, M.bind_limit (decide_eq_true ht)]
  rfl

/-- Settles O18: each instruction by its outcome, in the cases of its status. -/
theorem contextInstructions : Obligations.ContextInstructions := by
  refine ⟨?_, ?_, ?_, ?_, ?_, ?_⟩
  · rintro d a b s t hp ha hb hd rfl ht ho hw
    have hx := ctxsave_asks (d := d) hp ha hb ht ho hw
    refine ⟨fun h => .of_outcome hx (askSave_noContext hd h), fun h3 h6 => .of_outcome hx (askSave_handler hd h3 h6),
      fun h3 hu => .of_outcome hx (askSave_noUnit h3 hd hu), fun lane u h3 hu => ⟨fun h => .of_outcome hx (askSave_own h3 hu hd h),
      fun h => ⟨fun hs => ?_, fun c hs hc => .of_outcome hx (askSave_waits h3 hu h hs hc)⟩⟩⟩
    rw [hx, askSave_requests h3 hu h hs]
    rfl
  · exact fun d a b s hp ha hb ho => ⟨fun ht => ctxsave_misaligned hp ha hb ht ho, ctxload_misaligned hp ha hb ho⟩
  · rintro d a b s k st hp ha hb hd ho hk hh hf hr hq rfl hs
    exact .of_outcome (ctxload_reads hp ha hb ho hk hh hf hr hq) (loadUnit_refused (hd.of_me (State.raced_me ..)) hs)
  · rintro d a b s k core sv hp ha hb hd ho hk hh hf hr hq rfl hs hsv hc hu
    exact .of_outcome (ctxload_reads hp ha hb ho hk hh hf hr hq) (loadUnit_resumes (hd.of_me (State.raced_me ..)) hs
      (by rw [State.raced_eq]; exact hsv) (by rw [State.raced_cur]; exact hc) (by rw [State.raced_cur]; exact hu))
  · intro d a b s k h t' sv hp ha hb hd ht ho hk hw hsv hh hf hr
    obtain ⟨u, op, hm, himage⟩ := takeImage_stores (h := h) (t' := t') (sv := sv) hd hk hh hf hr
    exact ⟨u, op, .of_outcome (ctxsave_takes hp ha hb ht ho hw hsv) hm, himage⟩
  · rintro d a s t hp ha hd rfl ht
    have hx := ctxkill_eq (d := d) hp ha ht
    exact ⟨fun h h6 hl => .of_outcome hx (killNamed_live hd h h6 hl),
      fun h hc hn sv hf => .of_outcome hx (killNamed_saved hd (not_live hn) h hc hf),
      fun h => .of_outcome hx (killNamed_self hd h), fun hn hf => .of_outcome hx (killNamed_none hd (not_live hn) hf)⟩

end Sys2Proof.Machine
end

section
/-! PROOFS. `jcancel` and `jpoll` (R207, R208): the job that they name, and what each status says of it. -/

namespace Sys2Proof.Machine

theorem jobArg_names {s : State} {a : Src} (ha : Reads s a.r) (h : (s.val a.r).toNat < 2 ^ 32) :
    jobArg a s = .ok ((s.val a.r).toNat, s) := by
  rw [jobArg, M.bind_readSrc ha, M.bind_limit (decide_eq_true h), M.pure_apply]

theorem jobArg_past {s : State} {a : Src} (ha : Reads s a.r) (h : 2 ^ 32 ≤ (s.val a.r).toNat) :
    jobArg a s = .error (.trap cReserved ((s.me.iss.getD {}).syl.setWidth 64)) := by
  rw [jobArg, M.bind_readSrc ha, M.bind_limit_fails (decide_eq_false (Nat.not_lt.mpr h))]

/-- A descendant stands in the table of jobs, and is not job 0. -/
theorem isChild_job {s : State} {me j : Nat} (h : isChild s me j = true) : j ≠ 0 ∧ ∃ p ∈ s.jobs, p.1 = j := by
  simp only [isChild, Bool.and_eq_true, bne_iff_ne, ne_eq, List.any_eq_true, beq_iff_eq] at h
  obtain ⟨⟨⟨h0, -⟩, hj⟩, -⟩ := h
  exact ⟨h0, hj⟩

section
variable {d : Reg} {a : Src} {s : State} (ha : Reads s a.r)
include ha

theorem jobInstructions_past (h : 2 ^ 32 ≤ (s.val a.r).toNat) :
    Traps (.jcancel d a) s cReserved ((s.me.iss.getD {}).syl.setWidth 64) ∧
      Traps (.jpoll d a) s cReserved ((s.me.iss.getD {}).syl.setWidth 64) :=
  ⟨traps_free rfl rfl (M.bind_error (jobArg_past ha h)), traps_free rfl rfl (M.bind_error (jobArg_past ha h))⟩

variable {j : Nat} (hj : j = (s.val a.r).toNat) (hlt : j < 2 ^ 32) (hd : Writes s d)
include hj hlt hd

theorem jcancel_stranger (h : isChild s s.me.job j = false) : Ends (.jcancel d a) s (s.put d 1) := by
  subst hj
  refine ends_free rfl rfl ?_
  rw [M.bind_ok (jobArg_names ha hlt), M.bind_get_apply, h]
  exact writeReg_ready _ hd

theorem jcancel_over (h : isChild s s.me.job j = true) (ho : (s.job j).cancelled = true ∨ (s.job j).fin ≠ 0) :
    Ends (.jcancel d a) s (s.put d 2) := by
  subst hj
  refine ends_free rfl rfl ?_
  rw [M.bind_ok (jobArg_names ha hlt), M.bind_get_apply, h, if_neg (by decide), if_pos (by simpa using ho)]
  exact writeReg_ready _ hd

theorem jcancel_cancels (h : isChild s s.me.job j = true) (hc : (s.job j).cancelled = false) (hf : (s.job j).fin = 0) :
    Ends (.jcancel d a) s ((cancelJob s j).put d 0) := by
  subst hj
  refine ends_free rfl rfl ?_
  rw [M.bind_ok (jobArg_names ha hlt), M.bind_get_apply, h, if_neg (by decide), if_neg (by simp [hc, hf]), M.bind_modify_apply]
  exact writeReg_ready _ (hd.spared (cancelJob_spares (.refl ..) _))

theorem jpoll_own (h : j = 0) : Ends (.jpoll d a) s (s.put d (if (s.job s.me.job).cancelled then 2 else 0)) := by
  subst hj
  refine ends_free rfl rfl ?_
  rw [M.bind_ok (jobArg_names ha hlt), M.bind_get_apply, if_pos h]
  exact writeReg_ready _ hd

theorem jpoll_stranger (h0 : j ≠ 0) (h : isChild s s.me.job j = false) : Ends (.jpoll d a) s (s.put d 3) := by
  subst hj
  refine ends_free rfl rfl ?_
  rw [M.bind_ok (jobArg_names ha hlt), M.bind_get_apply, if_neg h0, h]
  exact writeReg_ready _ hd

variable (h : isChild s s.me.job j = true)
include h

theorem jpoll_complete (hf : (s.job j).fin = 1) : Ends (.jpoll d a) s (s.synced.put d 1) := by
  have h0 := (isChild_job h).1
  subst hj
  refine ends_free rfl rfl ?_
  rw [M.bind_ok (jobArg_names ha hlt), M.bind_get_apply, if_neg h0, h, if_neg (by decide), if_pos hf, M.bind_ok (markSync_apply _)]
  exact writeReg_ready _ hd.synced

theorem jpoll_runs (hf : (s.job j).fin ≠ 1) : Ends (.jpoll d a) s (s.put d (if (s.job j).cancelled then 2 else 0)) := by
  have h0 := (isChild_job h).1
  subst hj
  refine ends_free rfl rfl ?_
  rw [M.bind_ok (jobArg_names ha hlt), M.bind_get_apply, if_neg h0, h, if_neg (by decide), if_neg hf]
  exact writeReg_ready _ hd

end

/-- Settles O31: each instruction in the cases of the job that it names. -/
theorem jobInstructions : Obligations.JobInstructions := by
  refine fun d a s j ha hj => ⟨fun h => ?_, fun hlt => ⟨fun h hd => ?_, fun h ho hd => ?_, fun h hc hf hd => ?_, fun h0 hd => ?_, fun h hd => ?_⟩⟩
  · rw [BitVec.ofNat_toNat]
    exact jobInstructions_past ha (hj ▸ h)
  · exact ⟨jcancel_stranger ha hj hlt hd h, fun h0 => jpoll_stranger ha hj hlt hd h0 h⟩
  · exact jcancel_over ha hj hlt hd h ho
  · exact ⟨jcancel_cancels ha hj hlt hd h hc hf, (cancelJob_spec s j).2 (isChild_job h).1 (isChild_job h).2 hf⟩
  · exact jpoll_own ha hj hlt hd h0
  · exact ⟨jpoll_complete ha hj hlt hd h, jpoll_runs ha hj hlt hd h⟩

end Sys2Proof.Machine
end

section
/-! PROOFS. `fence`, `tlwait`, `tlread` and `tlmark` (R190 to R193): the timeline that each names, and what it does with its number. -/

namespace Sys2Proof.Machine

/-! ### The timeline that is named (R191, R192) -/

theorem tlNamed_mine (tl : BitVec 3) (a : Src) (s : State) : tlNamed tl false a s = .ok ((myTl s s.cur tl.toNat, false), s) := rfl

section
variable {tl : BitVec 3} {a : Src} {s : State} (ha : Reads s a.r)
include ha

theorem tlNamed_past (h : 2 ^ 16 ≤ (s.val a.r).toNat) :
    tlNamed tl true a s = .error (.trap cReserved ((s.me.iss.getD {}).syl.setWidth 64)) := by
  rw [tlNamed, M.bind_get_apply, if_pos rfl, M.bind_readSrc ha, M.bind_limit_fails (decide_eq_false (Nat.not_lt.mpr h))]

variable (hlt : (s.val a.r).toNat < 2 ^ 16)
include hlt

theorem tlNamed_none (h : tlOf s s.me.job (s.val a.r).toNat tl.toNat = none) : tlNamed tl true a s = .error (.trap cRights (s.val a.r)) := by
  rw [tlNamed, M.bind_get_apply, if_pos rfl, M.bind_readSrc ha, M.bind_limit (decide_eq_true hlt), h]
  rfl

theorem tlNamed_other {n : Nat} (h : tlOf s s.me.job (s.val a.r).toNat tl.toNat = some n) :
    tlNamed tl true a s = .ok ((n, (s.val a.r).toNat != s.me.lcore), s) := by
  rw [tlNamed, M.bind_get_apply, if_pos rfl, M.bind_readSrc ha, M.bind_limit (decide_eq_true hlt), h]
  rfl

end

/-! ### Waits, reads and marks (R190, R192, R193) -/

theorem fence_ends (kind : BitVec 2) (scope : BitVec 3) (s : State) : Ends (.fence kind scope) s s.synced :=
  ends_free rfl rfl (markSync_apply s)

section
variable {t : TlArgs} {s : State} {n : Nat} {far : Bool} (hn : tlNamed t.tl t.remote t.a s = .ok ((n, far), s)) (hb : Reads s t.b.r)
include hn hb

theorem tlwait_reached (h : (s.val t.b.r).toNat ≤ n) : Ends (.tlwait t) s s.synced := by
  refine ends_free rfl rfl ?_
  rw [M.bind_ok hn]
  dsimp only
  rw [M.bind_readSrc hb, M.bind_await (decide_eq_true h), markSync_apply]

theorem tlwait_below (h : n < (s.val t.b.r).toNat) : Waits (.tlwait t) s := by
  refine waits_free rfl rfl ?_
  rw [M.bind_ok hn]
  dsimp only
  rw [M.bind_readSrc hb, M.bind_await_fails (decide_eq_false (Nat.not_le.mpr h))]

end

theorem tlwait_faults {t : TlArgs} {s : State} {c : BitVec 8} {v : W64} (h : tlNamed t.tl t.remote t.a s = .error (.trap c v)) :
    Traps (.tlwait t) s c v := traps_free rfl rfl (M.bind_error h)

section
variable {tl : BitVec 3} {d : Reg} {a : Src} {remote : Bool} {s : State} {n : Nat}

theorem tlread_near (hn : tlNamed tl remote a s = .ok ((n, false), s)) (hd : Writes s d) : Ends (.tlread tl d remote a) s (s.put d (w64 n)) := by
  refine ends_free rfl rfl ?_
  rw [M.bind_ok hn]
  exact writeReg_ready _ hd

theorem tlread_far (hn : tlNamed tl remote a s = .ok ((n, true), s)) (hd : Pends s d) : Ends (.tlread tl d remote a) s (s.later d (w64 n) 0) := by
  refine ends_free rfl rfl ?_
  rw [M.bind_ok hn]
  exact pendReg_ready _ hd

theorem tlmark_ends (hd : Writes s d) : Ends (.tlmark tl d) s
    ((s.setMe { s.me with tlbase := s.me.tlbase.set! tl.toNat (w64 (myTl s s.cur tl.toNat)) }).put d (w64 (myTl s s.cur tl.toNat))) := by
  refine ends_free rfl rfl ?_
  rw [M.bind_get_apply, M.bind_modMe]
  exact writeReg_ready _ (by unfold Writes at *; rw [State.setMe_me]; exact hd)

end

/-- Settles O25: each instruction by the number of the timeline that it names. -/
theorem fencesAndTimelines : Obligations.FencesAndTimelines := by
  refine ⟨fence_ends, fun t s hr hb => ?_, fun t s hr ha hb => ⟨fun h => ?_, fun hlt h => ?_, fun n hlt h => ?_⟩,
    fun tl d a s => ⟨tlread_near (tlNamed_mine ..), tlmark_ends, fun ha hlt n h => ?_⟩, fun s job lcore core tl o f h => ?_⟩
  · have hn : tlNamed t.tl t.remote t.a s = .ok ((myTl s s.cur t.tl.toNat, false), s) := by rw [hr, tlNamed_mine]
    exact ⟨tlwait_reached hn hb, tlwait_below hn hb⟩
  · rw [BitVec.ofNat_toNat]
    exact tlwait_faults (hr ▸ tlNamed_past ha h)
  · exact tlwait_faults (hr ▸ tlNamed_none ha hlt h)
  · have hn : tlNamed t.tl t.remote t.a s = .ok ((n, (s.val t.a.r).toNat != s.me.lcore), s) := by rw [hr, tlNamed_other ha hlt h]
    exact ⟨tlwait_reached hn hb, tlwait_below hn hb⟩
  · have hn := tlNamed_other (tl := tl) ha hlt h
    refine ⟨fun he hd => tlread_near ?_ hd, fun he hd => tlread_far ?_ hd⟩
    · rw [hn, bne_eq_false_iff_eq.mpr he]
    · rw [hn, bne_iff_ne.mpr he]
  · rw [presented, h]

end Sys2Proof.Machine
end

section
/-! PROOFS. The atomics (R184 to R189, R304): where each acts, its step there, and the old value on its way to the destination. -/

namespace Sys2Proof.Machine

/-! ### The location and the step (R184, R186, R304) -/

/-- The location of an atomic that stands ready. -/
theorem AtomicAt.run {s : State} {m : AArgs} {n : Nat} {p : Place} {chk mir : Bool} (h : AtomicAt s m n p chk mir) :
    ∃ ev, amoLoc m n s = .ok ((p, chk, mir, ev), s) := by
  unfold AtomicAt at h
  unfold amoLoc
  split at h
  · next hl =>
    obtain ⟨ha, hm, rfl, rfl, rfl⟩ := h
    rw [hl]
    dsimp only
    rw [M.bind_readReg _ ha, M.bind_check (by simpa using hm), M.bind_myCore]
    exact ⟨_, rfl⟩
  · next l hl =>
    obtain ⟨e, he, hs, hes, rfl, rfl, hm⟩ := h
    have hok : (decide (e.space ≤ spVm) && e.es == n) = true := by
      rw [hes, beq_self_eq_true, Bool.and_true]
      exact decide_eq_true hs
    rw [hl]
    dsimp only
    rw [M.bind_ok he.entry, M.bind_ok he.coordsOk, M.bind_ok (he.spaceOk hok), M.bind_ok he.placeOk]
    cases p with
    | slice k => exact ⟨_, M.bind_check (beq_iff_eq.mpr hm) ..⟩
    | virt va host gone => exact ⟨_, M.bind_check (beq_iff_eq.mpr hm) ..⟩

theorem atomicRun_me {s t : State} {p : Place} {n : Nat} {chk mir : Bool} {old : Nat} {new : Option Nat}
    (h : Claims.AtomicRun s p n chk mir old new t) : t.me = s.me := by
  cases p with
  | slice k =>
    obtain ⟨-, -, -, -, -, rfl⟩ := h
    cases new with
    | none => rw [State.racedIf_eq]; rfl
    | some v => exact State.stored_me ..
  | virt va host gone =>
    obtain ⟨u, hl, ht⟩ := h
    cases new with
    | none => rw [show t = u from ht, loadPlace_me (hl 0)]
    | some v => rw [storePlace_me (ht 0), loadPlace_me (hl 0)]

/-- The step of an atomic that no check stops. -/
theorem atomicRun_step {s t : State} {p : Place} {n : Nat} {chk mir : Bool} {old : Nat} {new : Option Nat}
    (h : Claims.AtomicRun s p n chk mir old new t) (ev : W64) {g : Nat → AStep} (hg : (g old).new = new) :
    amoStep p n chk mir ev g s = .ok ((old, g old), t) := by
  subst hg
  cases p with
  | slice k =>
    obtain ⟨rfl, hheld, hfence, hrace, hclean, rfl⟩ := h
    have hrun : ∀ rest : M (Nat × AStep), (if chk = true then raceM k n (g (readNat s k n)).new.isSome true >>= fun _ => rest else rest) s =
        rest (s.racedIf chk k n (g (readNat s k n)).new.isSome true) := fun rest => by
      cases chk with
      | false => rfl
      | true => exact M.bind_raceM (hrace rfl) _
    have hpoison : Unpoisoned (s.racedIf chk k n (g (readNat s k n)).new.isSome true) k n := hclean.of_poison (by rw [State.racedIf_eq])
    simp only [amoStep]
    rw [M.bind_paddockM _ hfence, M.bind_quiesceM hheld, M.bind_get_apply, hrun, M.bind_poisonM _ hpoison]
    cases (g (readNat s k n)).new with
    | none => rfl
    | some v => rfl
  | virt va host gone =>
    obtain ⟨u, hl, ht⟩ := h
    simp only [amoStep]
    rw [M.bind_get_apply, M.bind_ok (hl _)]
    cases hnew : (g old).new with
    | none =>
      rw [hnew] at ht
      rw [show t = u from ht]
      rfl
    | some v =>
      rw [hnew] at ht
      exact M.bind_ok (ht _)

/-- What an atomic writes is cut to its width. -/
def cutStep (w : Nat) (r : AStep) : AStep := { r with new := r.new.map (· % 2 ^ w) }

theorem cutStep_new (w : Nat) (r : AStep) : (cutStep w r).new = r.new.map (· % 2 ^ w) := rfl

/-! ### An atomic with and without a second operand (R184, R185) -/

theorem amoWidth_eq (m : AArgs) : (if m.w64 = true then 64 else 32) = 8 * Claims.amoBytes m := by
  unfold Claims.amoBytes
  split <;> rfl

/-- An ordered atomic closes the region (R303); the registers stand as they did. -/
theorem bind_ordered (m : AArgs) (t : State) (rest : M Unit) :
    (if (m.ord != 0) = true then markSync >>= fun _ => rest else rest) t = rest (if m.ord = 0 then t else t.synced) := by
  by_cases h : m.ord = 0
  · rw [if_pos h, if_neg (by simp [h])]
  · rw [if_neg h, if_pos (by simpa using h)]
    rfl

theorem Pends.ordered {t : State} {d : Reg} (h : Pends t d) (m : AArgs) : Pends (if m.ord = 0 then t else t.synced) d := by
  split
  · exact h
  · exact h.synced

/-- A register still stands ready when another has been marked empty. -/
theorem Pends.later {t : State} {d r : Reg} (h : Pends t r) (v fl : W64) (hne : r ≠ d) : Pends (t.later d v fl) r := by
  obtain rfl | ⟨hport, hreg⟩ := h
  · exact .inl rfl
  · refine .inr ?_
    have hn : r.toNat ≠ d.toNat := fun e => hne (BitVec.eq_of_toNat_eq e)
    unfold State.later
    split
    · rw [State.setMe_me]
      exact ⟨hport, hreg⟩
    · rw [State.setMe_me]
      exact ⟨hport, by simp [hreg, hn.symm]⟩

section
variable {i : AArgs → Instr} {m : AArgs} {s t : State} {p : Place} {chk mir : Bool} {old : Nat} {new : Option Nat}
  (hat : AtomicAt s m (Claims.amoBytes m) p chk mir) (hd : Reads s m.d) (hpend : Pends s m.d)
  (hrun : Claims.AtomicRun s p (Claims.amoBytes m) chk mir old new t)
include hat hd hpend hrun

/-- What an atomic with one operand does. -/
theorem amoM_one {f : Nat → Nat → Nat → Nat → AStep}
    (hnew : (cutStep (8 * Claims.amoBytes m) (f (8 * Claims.amoBytes m) old (Claims.amoOp s m) 0)).new = new) :
    amoM m false f s = .ok ((), Claims.amoEnd m t old (f (8 * Claims.amoBytes m) old (Claims.amoOp s m) 0).fl) := by
  obtain ⟨ev, hloc⟩ := hat.run
  have hstep := atomicRun_step hrun ev (g := fun old => cutStep (8 * Claims.amoBytes m) (f (8 * Claims.amoBytes m) old (Claims.amoOp s m) 0)) hnew
  have h0 : (0 : W64).toNat % 2 ^ (8 * Claims.amoBytes m) = 0 := Nat.zero_mod _
  simp only [amoM, amoWidth_eq, Nat.mul_div_cancel_left _ (show 0 < 8 by decide)]
  rw [M.bind_ok hloc]
  dsimp only
  rw [M.bind_readReg _ hd, if_neg (by decide), M.bind_pure_apply, h0]
  refine (M.bind_ok hstep).trans ?_
  dsimp only
  rw [bind_ordered, M.bind_ok (pendRegF_ready _ _ ((hpend.of_me (atomicRun_me hrun)).ordered m))]
  rfl

variable (hd2 : Reads s (m.d + 1))
include hd2

/-- What an atomic with two operands does; a second result below 2 is on its way to x(d+1). -/
theorem amoM_two {f : Nat → Nat → Nat → Nat → AStep} {r : AStep}
    (hr : f (8 * Claims.amoBytes m) old (Claims.amoOp s m) (Claims.amoOp2 s m) = r) (hnew : (cutStep (8 * Claims.amoBytes m) r).new = new) :
    amoM m true f s = (if r.second < 2 then pendReg (m.d + 1) (w64 r.second) else pure ()) (Claims.amoEnd m t old r.fl) := by
  obtain ⟨ev, hloc⟩ := hat.run
  subst hr
  have hstep := atomicRun_step hrun ev
    (g := fun old => cutStep (8 * Claims.amoBytes m) (f (8 * Claims.amoBytes m) old (Claims.amoOp s m) (Claims.amoOp2 s m))) hnew
  simp only [amoM, amoWidth_eq, Nat.mul_div_cancel_left _ (show 0 < 8 by decide), Bool.true_and, decide_eq_true_eq]
  rw [M.bind_ok hloc]
  dsimp only
  rw [M.bind_readReg _ hd, if_pos trivial, M.bind_readReg _ hd2]
  refine (M.bind_ok hstep).trans ?_
  dsimp only
  rw [bind_ordered, M.bind_ok (pendRegF_ready _ _ ((hpend.of_me (atomicRun_me hrun)).ordered m))]
  rfl

end

/-! ### Each atomic (R186 to R189) -/

/-- An atomic whose step writes in every case. -/
theorem atomic_of_step {i : AArgs → Instr} {f : Nat → Nat → Nat → Nat → AStep} {new : Nat → Nat → Nat → Nat} {fl : Nat → Nat → W64}
    (hx : ∀ m s, exec (i m) s = runSyl (i m) (amoM m false f) s) (hl : ∀ m, layoutUse (i m) = m.lay.map fun l => (m.a, l.toNat))
    (hp : ∀ m, needsPriv (i m) = false) (hi : ∀ m, levelFree (i m) = true)
    (hf : ∀ w v op, (f w v op 0).new = some (new w v op) ∧ (f w v op 0).fl = fl v op) : Claims.Atomic i new fl := by
  intro m s t p chk mir old hat hd hpend hrun
  obtain ⟨hnew, hfl⟩ := hf (8 * Claims.amoBytes m) old (Claims.amoOp s m)
  refine ends_of (hx m s) (hat.issues (hl m) (hp m) (hi m)) ?_
  rw [amoM_one hat hd hpend hrun (by rw [cutStep_new, hnew, Option.map_some]), hfl]

/-- The model's signed reading of a number is that of the statement. -/
theorem sx_eq_signed (w n : Nat) : sx w n = Claims.signed w n := by
  unfold Claims.signed
  rw [← sx_eq_toInt, BitVec.toNat_ofNat]
  unfold sx
  push_cast
  rw [Nat.mod_mod, Int.emod_emod]

section
variable {m : AArgs} {s t : State} {p : Place} {chk mir : Bool} {old : Nat} (hat : AtomicAt s m (Claims.amoBytes m) p chk mir)
  (hd : Reads s m.d) (hd2 : Reads s (m.d + 1)) (hpend : Pends s m.d)
include hat hd hd2 hpend

theorem amoCas_ends (hrun : Claims.AtomicRun s p (Claims.amoBytes m) chk mir old (if old = Claims.amoOp s m then some (Claims.amoOp2 s m) else none) t) :
    Ends (.amoCas m) s (Claims.amoEnd m t old 0) := by
  refine ends_of rfl (hat.issues rfl rfl rfl) (amoM_two hat hd hpend hrun hd2 rfl ?_)
  rw [cutStep_new]
  split
  · rw [Option.map_some, Claims.amoOp2, Nat.mod_mod]
  · rfl

theorem amoAddb_ends (hpend2 : Pends s (m.d + 1)) (hrun : Claims.AtomicRun s p (Claims.amoBytes m) chk mir old
      (if old + Claims.amoOp s m ≤ Claims.amoOp2 s m then some (old + Claims.amoOp s m) else none) t) :
    Ends (.amoAddb m) s ((Claims.amoEnd m t old 0).later (m.d + 1) (if old + Claims.amoOp s m ≤ Claims.amoOp2 s m then 1 else 0) 0) := by
  have hlt : Claims.amoOp2 s m < 2 ^ (8 * Claims.amoBytes m) := Nat.mod_lt _ (Nat.two_pow_pos _)
  have hp : Pends (Claims.amoEnd m t old 0) (m.d + 1) :=
    ((hpend2.of_me (atomicRun_me hrun)).ordered m).later _ _ (show m.d + 1 ≠ m.d by bv_omega)
  refine ends_of rfl (hat.issues rfl rfl rfl) ((amoM_two hat hd hpend hrun hd2 rfl ?_).trans ?_)
  · rw [cutStep_new]
    split
    · next h => rw [Option.map_some, Nat.mod_eq_of_lt (Nat.lt_of_le_of_lt h hlt)]
    · rfl
  · dsimp only
    split
    · exact pendReg_ready _ hp
    · exact pendReg_ready _ hp

end

/-- Settles O24: each atomic by its step. -/
theorem atomicResults : Obligations.AtomicResults := by
  refine ⟨?_, ?_, ?_, ?_, ?_, ?_, ?_, ?_, ?_, ?_, ?_, ?_, fun m s t p chk mir old hat hd hd2 hpend =>
    ⟨amoCas_ends hat hd hd2 hpend, amoAddb_ends hat hd hd2 hpend⟩⟩
  case refine_7 | refine_8 =>
    refine atomic_of_step (fun _ _ => rfl) (fun _ => rfl) (fun _ => rfl) (fun _ => rfl) fun w v op => ?_
    rw [← sx_eq_signed, ← sx_eq_signed]
    exact ⟨rfl, rfl⟩
  all_goals exact atomic_of_step (fun _ _ => rfl) (fun _ => rfl) (fun _ => rfl) (fun _ => rfl) fun _ _ _ => ⟨rfl, rfl⟩

end Sys2Proof.Machine
end

section
/-! PROOFS. Group objects (R35 to R38, R194 to R200): what a change of one leaves alone, and what an arrival and a departure do to it. -/

namespace Sys2Proof.Machine

/-! ### What a change of an object leaves alone -/

/-- From s to u, of memory only the object at k may change, and of the rest only what `Claims.GroupFrame` names. -/
def ChangesObject (s u : State) (k : Nat) : Prop := Claims.OnlyObject s u k ∧ Claims.GroupFrame s u

theorem ChangesObject.trans {s t u : State} {k : Nat} (h : ChangesObject s t k) (g : ChangesObject t u k) : ChangesObject s u k := by
  obtain ⟨hb, hs, hc⟩ := h
  obtain ⟨gb, gs, gc⟩ := g
  refine ⟨fun a ha => (gb a ha).trans (hb a ha), ?_, fun j => ?_⟩
  · rw [gs, hs]
  · rw [gc j, hc j]

/-- A change of the detector, of contexts and of saved units, each context keeping all but its groups, waits and region. -/
theorem ChangesObject.of_ctxs {s u : State} (k : Nat) (h : u = { s with det := u.det, ctxs := u.ctxs, saved := u.saved })
    (hc : ∀ j, ∃ g w r, u.ctx j = { s.ctx j with groups := g, waits := w, region := r }) : ChangesObject s u k := by
  have hm : u.mem = s.mem := by rw [h]
  refine ⟨fun a _ => readByte_of_mem hm a, ?_, fun j => ?_⟩
  · rw [h]
  · obtain ⟨g, w, r, e⟩ := hc j
    rw [e]

theorem changesObject_updCtx {f : Ctx → Ctx} (hf : ∀ x, ∃ g w r, f x = { x with groups := g, waits := w, region := r }) (s : State) (c k : Nat) :
    ChangesObject s (s.updCtx c f) k := by
  refine .of_ctxs k rfl fun j => ?_
  by_cases h : j = c
  · subst h
    rw [updCtx_ctx_same]
    exact hf _
  · exact ⟨_, _, _, State.ctx_setCtx_ne _ _ _ _ h⟩

theorem writeNat_within {s t : State} (h : ∃ x, t = { s with mem := x }) (k n v : Nat) : ∃ x, writeNat t k n v = { s with mem := x } := by
  obtain ⟨x, rfl⟩ := h
  exact ⟨_, writeNat_only ..⟩

theorem writeGroup_within (s : State) (k : Nat) (g : Group) : ∃ x, writeGroup s k g = { s with mem := x } :=
  writeNat_within (writeNat_within (writeNat_within (writeNat_within ⟨s.mem, rfl⟩ ..) ..) ..) ..

theorem changesObject_writeGroup (s : State) (k : Nat) (g : Group) : ChangesObject s (writeGroup s k g) k := by
  obtain ⟨x, hx⟩ := writeGroup_within s k g
  exact ⟨readByte_writeGroup s k g, by rw [hx], fun j => by rw [writeGroup_ctx]⟩

theorem changesObject_regroup (s : State) (k : Nat) (gen : BitVec 32) : ChangesObject s (regroup s k gen) k :=
  .of_ctxs k rfl fun j => ⟨_, _, _, regroup_ctx s k gen j⟩

theorem changesObject_releaseEpisode (s : State) (k : Nat) : ChangesObject s (releaseEpisode s k) k := by
  refine ⟨fun a ha => ?_, ?_, fun j => ?_⟩
  · rw [readByte_of_mem (releaseEpisode_mem s k)]
    exact readByte_writeGroup _ _ _ _ ha
  · obtain ⟨x, hx⟩ := writeGroup_within s k (((readGroup s k).setArrived 0).setEpoch ((readGroup s k).epoch + 1).toNat)
    rw [releaseEpisode_eq, hx]
  · rw [releaseEpisode_ctx]
    rfl

section
variable {s u : State} {k : Nat} (h : ChangesObject s u k)
include h

theorem ChangesObject.cur : u.cur = s.cur := by
  obtain ⟨-, hs, -⟩ := h
  rw [hs]

theorem ChangesObject.me : u.me = { s.me with groups := u.me.groups, waits := u.me.waits, region := u.me.region } := by
  have hc := h.2.2 s.cur
  rw [← h.cur] at hc
  rw [State.me_eq, hc, h.cur]
  rfl

theorem Writes.changed {d : Reg} (hd : Writes s d) : Writes u d := by
  unfold Writes boundPort at *
  rw [h.me]
  exact hd

theorem Pends.changed {d : Reg} (hd : Pends s d) : Pends u d := by
  unfold Pends boundPort at *
  rw [h.me]
  exact hd

end

/-! ### Arrivals and departures (R197, R198, R200) -/

/-- What an arrival makes of an object's words (R198, R200): the last of an episode begins the next. -/
def arrivedGroup (g : Group) : Group :=
  if g.arrived + 1 = g.members then ((g.setArrived (g.arrived + 1)).setArrived 0).setEpoch (g.epoch + 1).toNat else g.setArrived (g.arrived + 1)

theorem arrivedGroup_keeps (g : Group) : (arrivedGroup g).gen = g.gen ∧ (arrivedGroup g).members = g.members := by
  unfold arrivedGroup
  split
  · exact ⟨by rw [Group.setEpoch_gen, Group.setArrived_gen, Group.setArrived_gen],
      by rw [Group.setEpoch_members, Group.setArrived_members, Group.setArrived_members]⟩
  · exact ⟨Group.setArrived_gen .., Group.setArrived_members ..⟩

theorem arrivedGroup_next {g : Group} (h : g.arrived + 1 < g.members) :
    (arrivedGroup g).arrived = g.arrived + 1 ∧ (arrivedGroup g).epoch = g.epoch := by
  have hlt : g.arrived + 1 < 2 ^ 16 := Nat.lt_trans h g.members_lt
  rw [arrivedGroup, if_neg (Nat.ne_of_lt h)]
  exact ⟨Group.setArrived_arrived _ _ hlt, Group.setArrived_epoch ..⟩

theorem arrivedGroup_last {g : Group} (h : g.arrived + 1 = g.members) :
    (arrivedGroup g).arrived = 0 ∧ (arrivedGroup g).epoch = g.epoch + 1 := by
  rw [arrivedGroup, if_pos h]
  exact ⟨by rw [Group.setEpoch_arrived, Group.setArrived_arrived _ _ (by decide)], Group.setEpoch_epoch ..⟩

/-- A context's entry for a group notes its arrival in an episode. -/
def noteArrival (s : State) (c : Nat) (m : Member) (e : BitVec 32) : State :=
  s.updCtx c fun x => { x with groups := x.groups.map fun y => if y = m then { y with arrived := some e } else y }

/-- The object at k has these words, and its episode is released where every member has arrived. -/
def settleGroup (s : State) (k : Nat) (g : Group) (last : Prop) [Decidable last] : State :=
  if last then releaseEpisode (writeGroup s k g) k else writeGroup s k g

theorem settleGroup_changes (s : State) (k : Nat) (g : Group) (last : Prop) [Decidable last] : ChangesObject s (settleGroup s k g last) k := by
  unfold settleGroup
  split
  · exact (changesObject_writeGroup ..).trans (changesObject_releaseEpisode ..)
  · exact changesObject_writeGroup ..

theorem readGroup_settleGroup (s : State) (k : Nat) (g : Group) (last : Prop) [Decidable last] :
    readGroup (settleGroup s k g last) k = if last then (g.setArrived 0).setEpoch (g.epoch + 1).toNat else g := by
  unfold settleGroup
  split
  · rw [readGroup_releaseEpisode, readGroup_writeGroup]
  · rw [readGroup_writeGroup]

theorem settleGroup_groups (s : State) (k : Nat) (g : Group) (last : Prop) [Decidable last] (c : Nat) :
    ((settleGroup s k g last).ctx c).groups = (s.ctx c).groups := by
  unfold settleGroup
  split
  · rw [releaseEpisode_ctx, writeGroup_ctx]
    rfl
  · rw [writeGroup_ctx]

/-- The state that a member's arrival leaves (R198, R200). -/
def arrivalAt (s : State) (c k : Nat) (m : Member) : State :=
  settleGroup (noteArrival s c m (readGroup s k).epoch) k ((readGroup s k).setArrived ((readGroup s k).arrived + 1))
    ((readGroup s k).arrived + 1 = (readGroup s k).members)

section
variable {s : State} {c k : Nat} {m : Member} (hm : memberOf (s.ctx c) k = some m) (hg : m.gen = (readGroup s k).gen)
  (hv : (readGroup s k).valid = true) (hs : (readGroup s k).sound = true)
include hm hg hv hs

theorem arriveAt_twice (ha : m.arrived = some (readGroup s k).epoch) : arriveAt s c k m.gen = .error ((readGroup s k).epoch.setWidth 64) := by
  unfold arriveAt
  rw [hm]
  dsimp only
  rw [if_neg (by simp [hv, hs, hg]), if_pos ha]

theorem arriveAt_counts (ha : m.arrived ≠ some (readGroup s k).epoch) (hlt : (readGroup s k).arrived < (readGroup s k).members) :
    arriveAt s c k m.gen = .ok (arrivalAt s c k m) := by
  have hw : (readGroup s k).arrived + 1 < 2 ^ 16 := Nat.lt_of_le_of_lt hlt (readGroup s k).members_lt
  unfold arriveAt
  rw [hm]
  dsimp only
  rw [if_neg (by simp [hv, hs, hg]), if_neg ha, Group.setArrived_arrived _ _ hw, Group.setArrived_members]
  rfl

end

theorem arrivalAt_changes (s : State) (c k : Nat) (m : Member) : ChangesObject s (arrivalAt s c k m) k :=
  (changesObject_updCtx (fun _ => ⟨_, _, _, rfl⟩) s c k).trans (settleGroup_changes ..)

theorem readGroup_arrivalAt (s : State) (c k : Nat) (m : Member) : readGroup (arrivalAt s c k m) k = arrivedGroup (readGroup s k) := by
  unfold arrivalAt
  rw [readGroup_settleGroup, arrivedGroup, Group.setArrived_epoch]

/-- A context's entry for a group goes. -/
def unlisted (s : State) (c : Nat) (m : Member) : State := s.updCtx c fun x => { x with groups := x.groups.filter (· != m) }

/-- What a member's departure makes of an object's words (R197): its arrival in the episode goes with it. -/
def leftGroup (g : Group) (m : Member) : Group :=
  let g1 := if m.arrived = some g.epoch ∧ g.arrived ≠ 0 then g.setArrived (g.arrived - 1) else g
  g1.setMembers (g1.members - 1)

theorem leaveGroup_eq (s : State) (c : Nat) (m : Member) : leaveGroup s c m =
    if (readGroup s m.obj).gen ≠ m.gen ∨ ¬ (readGroup s m.obj).sound = true then unlisted s c m
    else settleGroup (unlisted s c m) m.obj (leftGroup (readGroup s m.obj) m)
      ((leftGroup (readGroup s m.obj) m).members ≠ 0 ∧ (leftGroup (readGroup s m.obj) m).arrived = (leftGroup (readGroup s m.obj) m).members) := by
  have hr : readGroup (unlisted s c m) m.obj = readGroup s m.obj := readGroup_of_mem rfl _
  unfold leaveGroup
  rw [show (s.updCtx c fun x => { x with groups := x.groups.filter (· != m) }) = unlisted s c m from rfl]
  dsimp only
  rw [hr]
  rfl

/-- A member of another generation leaves the object alone (R197). -/
theorem leaveGroup_stale {s : State} {m : Member} (c : Nat) (h : m.gen ≠ (readGroup s m.obj).gen) : (leaveGroup s c m).mem = s.mem := by
  rw [leaveGroup_eq, if_pos (.inl (Ne.symm h))]
  rfl

theorem leaveGroup_changes (s : State) (c : Nat) (m : Member) :
    ChangesObject s (leaveGroup s c m) m.obj ∧ ((leaveGroup s c m).ctx c).groups = (s.ctx c).groups.filter (· != m) := by
  have hu : ChangesObject s (unlisted s c m) m.obj := changesObject_updCtx (fun _ => ⟨_, _, _, rfl⟩) s c m.obj
  have hl : ((unlisted s c m).ctx c).groups = (s.ctx c).groups.filter (· != m) := by rw [unlisted, updCtx_ctx_same]
  rw [leaveGroup_eq]
  split
  · exact ⟨hu, hl⟩
  · rw [settleGroup_groups]
    exact ⟨hu.trans (settleGroup_changes ..), hl⟩

/-- A member that has not arrived takes one member away (R197). -/
theorem leaveGroup_members {s : State} {m : Member} (c : Nat) (hg : m.gen = (readGroup s m.obj).gen) (hs : (readGroup s m.obj).sound = true)
    (ha : m.arrived ≠ some (readGroup s m.obj).epoch) :
    (readGroup (leaveGroup s c m) m.obj).members = (readGroup s m.obj).members - 1 := by
  have hleft : (leftGroup (readGroup s m.obj) m).members = (readGroup s m.obj).members - 1 := by
    unfold leftGroup
    rw [if_neg fun h => ha h.1]
    exact Group.setMembers_members _ _ (Nat.lt_of_le_of_lt (Nat.sub_le ..) (readGroup s m.obj).members_lt)
  rw [leaveGroup_eq, if_neg (by simp [hg, hs]), readGroup_settleGroup]
  split
  · rw [Group.setEpoch_members, Group.setArrived_members, hleft]
  · exact hleft

end Sys2Proof.Machine
end

section
/-! PROOFS. `gnew`, `join`, `leave` and `arrive` (R195 to R198, R458): what each writes in its object and gives back, and its faults. -/

namespace Sys2Proof.Machine

/-! ### The access to the object and what it gives (R179, R194) -/

theorem objects_issues {s : State} {g : GArgs} {k : Nat} {w : Bool} {i : Instr} (h : Claims.Objects s g k w)
    (hl : layoutUse i = g.lay.map fun l => (g.a, l.toNat)) (hp : needsPriv i = false) (hi : levelFree i = true) : issueFault s s.cur i = none := by
  obtain ⟨chk, hat, -⟩ := h
  exact hat.issues hl hp hi

/-- t is s but for what the race detector has recorded. -/
def DetOnly (s t : State) : Prop := t = { s with det := t.det }

section
variable {s t : State} (h : DetOnly s t)
include h

theorem DetOnly.cur : t.cur = s.cur := by rw [h]
theorem DetOnly.mem : t.mem = s.mem := by rw [h]
theorem DetOnly.ctx (j : Nat) : t.ctx j = s.ctx j := by rw [h]; rfl
theorem DetOnly.me : t.me = s.me := by rw [State.me_eq, h.cur, h.ctx]; rfl
theorem DetOnly.readGroup (k : Nat) : Machine.readGroup t k = Machine.readGroup s k := readGroup_of_mem h.mem k
theorem DetOnly.changes (k : Nat) : ChangesObject s t k := .of_ctxs k (by rw [h]) fun j => ⟨_, _, _, h.ctx j⟩

end

/-- The access records itself with the detector, and changes nothing else. -/
theorem objects_run {s : State} {g : GArgs} {k : Nat} {w : Bool} (h : Claims.Objects s g k w) : ∃ t, groupM g w s = .ok (k, t) ∧ DetOnly s t := by
  obtain ⟨chk, hat, hheld, hfence, hrace, hclean⟩ := h
  exact ⟨s.racedIf chk k 32 w true, groupM_ready hat hheld hfence hrace hclean, State.racedIf_eq ..⟩

/-- What an object returns reaches its destination, at once or later. -/
theorem giveM_given {s u : State} {d : Reg} {k : Nat} (v : W64) (hd : Claims.Gives s d k) (h : ChangesObject s u k) :
    giveM d k v u.synced = .ok ((), Claims.given s u.synced d k v) := by
  obtain ⟨hown, hother⟩ := hd
  rw [giveM, M.bind_myCore, State.cur_synced, h.cur, Claims.given]
  split
  · next hk => exact writeReg_ready _ ((hown hk).changed h).synced
  · next hk => exact pendReg_ready _ ((hother hk).changed h).synced

/-! ### gnew (R195) -/

/-- A fresh object (R195): its generation, the count for its placement, its phases, its scope, and the job that made it. -/
def freshGroup (gen : BitVec 32) (v : W64) (job : Nat) : Group :=
  ⟨gen.setWidth 64, w64 (bits v 15 0 * 2 ^ 16 + bits v 19 16 * 2 ^ 4 + 8 + bits v 22 20), w64 (job % 2 ^ 32), 0⟩

/-- An object that `gnew` invalidates: the next generation, and no longer valid. -/
def voidGroup (o : Group) (gen : BitVec 32) : Group := { o with w0 := setBits o.w0 31 0 gen.toNat, w1 := setBits o.w1 3 3 0 }

theorem bits_w64 (n hi lo : Nat) : bits (w64 n) hi lo = n % 2 ^ 64 / 2 ^ lo % 2 ^ (hi + 1 - lo) := by
  rw [bits, w64, BitVec.toNat_ofNat]

theorem freshGroup_gen (gen : BitVec 32) (v : W64) (job : Nat) : (freshGroup gen v job).gen = gen := by
  apply BitVec.eq_of_toNat_eq
  have hlt := gen.isLt
  unfold freshGroup Group.gen
  simp only [BitVec.extractLsb'_toNat, BitVec.toNat_setWidth]
  omega

theorem freshGroup_counts (gen : BitVec 32) (v : W64) (job : Nat) :
    (freshGroup gen v job).members = 0 ∧ (freshGroup gen v job).arrived = 0 := by
  have hlt := gen.isLt
  unfold freshGroup Group.members Group.arrived bits
  simp only [BitVec.toNat_setWidth]
  omega

theorem freshGroup_fields (gen : BitVec 32) (v : W64) (job : Nat) :
    (freshGroup gen v job).scope = bits v 22 20 ∧ (freshGroup gen v job).phases = bits v 19 16 + 1 ∧
      bits (freshGroup gen v job).w1 31 16 = bits v 15 0 ∧ bits (freshGroup gen v job).w2 31 0 = job % 2 ^ 32 := by
  have h1 : bits v 15 0 < 2 ^ 16 := bits_lt ..
  have h2 : bits v 19 16 < 2 ^ 4 := bits_lt ..
  have h3 : bits v 22 20 < 2 ^ 3 := bits_lt ..
  unfold freshGroup Group.scope Group.phases
  simp only [bits_w64]
  omega

theorem freshGroup_state (gen : BitVec 32) (v : W64) (job : Nat) : (freshGroup gen v job).valid = true ∧ (freshGroup gen v job).epoch = 0 := by
  have h1 : bits v 15 0 < 2 ^ 16 := bits_lt ..
  have h2 : bits v 19 16 < 2 ^ 4 := bits_lt ..
  have h3 : bits v 22 20 < 2 ^ 3 := bits_lt ..
  constructor
  · unfold freshGroup Group.valid bit w64
    rw [BitVec.getLsbD_ofNat, Nat.testBit_eq_decide_div_mod_eq]
    simp only [Bool.and_eq_true, decide_eq_true_eq]
    omega
  · have h0 : bits (freshGroup gen v job).w1 63 32 = 0 := by
      unfold freshGroup
      rw [bits_w64]
      omega
    unfold Group.epoch
    rw [extract_bits _ _ _ (by decide), h0]
    rfl

theorem voidGroup_keeps (o : Group) (gen : BitVec 32) : (voidGroup o gen).gen = gen ∧ (voidGroup o gen).valid = false ∧
    (voidGroup o gen).members = o.members ∧ (voidGroup o gen).arrived = o.arrived ∧ (voidGroup o gen).epoch = o.epoch := by
  refine ⟨?_, ?_, ?_, ?_, ?_⟩
  · unfold Group.gen voidGroup
    rw [extract_bits _ _ _ (by decide), bits_setBits_same _ _ _ _ (by decide) (by decide) gen.isLt, BitVec.ofNat_toNat, BitVec.setWidth_eq]
  · unfold Group.valid voidGroup bit
    exact (testBit_setBits _ _ _ _ _ (by decide) (by decide)).trans (by simp)
  · exact bits_setBits_apart _ _ _ _ _ _ (by decide) (by decide) (by decide)
  · exact bits_setBits_apart _ _ _ _ _ _ (by decide) (by decide) (by decide)
  · unfold Group.epoch voidGroup
    rw [extract_bits _ _ _ (by decide), extract_bits _ _ _ (by decide)]
    exact congrArg _ (bits_setBits_apart _ _ _ _ _ _ (by decide) (by decide) (by decide))

/-- What `gnew` writes in the object. -/
def newGroup (o : Group) (v : W64) (job : Nat) : Group :=
  if bit v 63 then voidGroup o (o.gen + 1) else freshGroup (o.gen + 1) v job

theorem newGroup_gen (o : Group) (v : W64) (job : Nat) : (newGroup o v job).gen = o.gen + 1 := by
  unfold newGroup
  split
  · exact (voidGroup_keeps ..).1
  · exact freshGroup_gen ..

/-- The state that `gnew` leaves before it gives the generation. -/
def madeGroup (s : State) (k : Nat) (v : W64) : State :=
  regroup (writeGroup s k (newGroup (readGroup s k) v s.me.job)) k ((readGroup s k).gen + 1)

theorem madeGroup_changes (s : State) (k : Nat) (v : W64) : ChangesObject s (madeGroup s k v) k :=
  (changesObject_writeGroup ..).trans (changesObject_regroup ..)

theorem readGroup_madeGroup (s : State) (k : Nat) (v : W64) : readGroup (madeGroup s k v) k = newGroup (readGroup s k) v s.me.job := by
  rw [madeGroup, readGroup_of_mem (regroup_mem ..), readGroup_writeGroup]

theorem gnew_ends {d : Reg} {g : GArgs} {b : Src} {s : State} {k : Nat} (hb : Reads s b.r) (hat : Claims.Objects s g k true) (hd : Claims.Gives s d k)
    (hz : s.val b.r &&& 0x7FFFFFFFFF800000 = 0) (hsc : bits (s.val b.r) 22 20 < 6) :
    ∃ t, DetOnly s t ∧ Ends (.gnew d g b) s (Claims.given s (madeGroup t k (s.val b.r)).synced d k (((readGroup s k).gen + 1).setWidth 64)) := by
  obtain ⟨t, hrun, ht⟩ := objects_run hat
  refine ⟨t, ht, ends_of rfl (objects_issues hat rfl rfl rfl) ?_⟩
  rw [M.bind_readSrc hb, barrierUnless, M.bind_check (by simpa using ⟨hz, hsc⟩), M.bind_ok hrun, M.bind_get_apply, M.bind_modify_apply,
    M.bind_ok (markSync_apply _), ← ht.readGroup]
  exact giveM_given _ hd ((ht.changes k).trans (madeGroup_changes t k (s.val b.r)))

/-! ### join and leave (R196, R197) -/

/-- A context lists its membership in the object at k, and the object counts it. -/
def joinedGroup (s : State) (k : Nat) : State :=
  (writeGroup s k ((readGroup s k).setMembers ((readGroup s k).members + 1))).updCtx s.cur fun x =>
    { x with groups := x.groups ++ [⟨k, (readGroup s k).gen, none⟩] }

theorem joinedGroup_changes (s : State) (k : Nat) : ChangesObject s (joinedGroup s k) k :=
  (changesObject_writeGroup ..).trans (changesObject_updCtx (fun _ => ⟨_, _, _, rfl⟩) ..)

theorem readGroup_joinedGroup (s : State) (k : Nat) :
    readGroup (joinedGroup s k) k = (readGroup s k).setMembers ((readGroup s k).members + 1) := by
  have hm : (joinedGroup s k).mem = (writeGroup s k ((readGroup s k).setMembers ((readGroup s k).members + 1))).mem := State.setCtx_mem ..
  rw [readGroup_of_mem hm, readGroup_writeGroup]

theorem joinedGroup_groups (s : State) (k : Nat) : (joinedGroup s k).me.groups = s.me.groups ++ [⟨k, (readGroup s k).gen, none⟩] := by
  rw [State.me_eq, (joinedGroup_changes s k).cur, joinedGroup, updCtx_ctx_same, writeGroup_ctx]
  rfl

section
variable {d : Reg} {g : GArgs} {s : State} {k : Nat} (hat : Claims.Objects s g k true)
include hat

theorem join_ends (hd : Claims.Gives s d k) (hv : (readGroup s k).valid = true) (hs : (readGroup s k).sound = true)
    (hl : ∀ m ∈ s.me.groups, ¬ (m.obj = k ∧ m.gen = (readGroup s k).gen)) (h8 : s.me.groups.length < 8) :
    ∃ t, DetOnly s t ∧ Ends (.join d g) s (Claims.given s (joinedGroup t k).synced d k ((readGroup s k).epoch.setWidth 64)) := by
  obtain ⟨t, hrun, ht⟩ := objects_run hat
  have hlisted : (s.me.groups.any fun m => m.obj == k && m.gen == (readGroup s k).gen) = false := by
    rw [List.any_eq_false]
    simpa using hl
  refine ⟨t, ht, ends_of rfl (objects_issues hat rfl rfl rfl) ?_⟩
  rw [M.bind_ok hrun, M.bind_get_apply, ht.me, ht.readGroup, barrierUnless, barrierUnless, M.bind_check (by rw [hv, hs, hlisted]; rfl),
    M.bind_check (decide_eq_true h8), M.bind_modify_apply, M.bind_modMe, M.bind_ok (markSync_apply _),
    ← giveM_given _ hd ((ht.changes k).trans (joinedGroup_changes t k)), joinedGroup, ht.readGroup, State.updCtx, State.setMe, State.me_eq, writeGroup_cur]

theorem join_faults (h : (readGroup s k).valid = false ∨ (readGroup s k).sound = false ∨ ∃ m ∈ s.me.groups, m.obj = k ∧ m.gen = (readGroup s k).gen) :
    Traps (.join d g) s cBarrier ((readGroup s k).gen.setWidth 64) := by
  obtain ⟨t, hrun, ht⟩ := objects_run hat
  have hbad : ((readGroup s k).valid && (readGroup s k).sound && !(s.me.groups.any fun m => m.obj == k && m.gen == (readGroup s k).gen)) = false := by
    obtain h | h | ⟨m, hm, hk⟩ := h
    · rw [h]
      rfl
    · rw [h, Bool.and_false, Bool.false_and]
    · rw [List.any_eq_true.mpr ⟨m, hm, by simpa using hk⟩, Bool.not_true, Bool.and_false]
  refine traps_of rfl (objects_issues hat rfl rfl rfl) ?_
  rw [M.bind_ok hrun, M.bind_get_apply, ht.me, ht.readGroup, barrierUnless, M.bind_check_fails hbad]

section
variable {m : Member} (hm : memberOf s.me k = some m)
include hm

theorem leave_ends (h : m.gen ≠ (readGroup s k).gen ∨ (readGroup s k).sound = true) :
    ∃ t, DetOnly s t ∧ Ends (.leave g) s (leaveGroup t s.cur m).synced := by
  obtain ⟨t, hrun, ht⟩ := objects_run hat
  refine ⟨t, ht, ends_of rfl (objects_issues hat rfl rfl rfl) ?_⟩
  rw [M.bind_ok hrun, M.bind_get_apply, ht.me, ht.readGroup, hm]
  dsimp only
  rw [barrierUnless, M.bind_check (by simpa using h), M.bind_modify_apply, markSync_apply, ht.cur]

end

theorem leave_faults (hm : memberOf s.me k = none) : Traps (.leave g) s cBarrier ((readGroup s k).gen.setWidth 64) := by
  obtain ⟨t, hrun, ht⟩ := objects_run hat
  refine traps_of rfl (objects_issues hat rfl rfl rfl) ?_
  rw [M.bind_ok hrun, M.bind_get_apply, ht.me, ht.readGroup, hm]
  rfl

end

/-! ### arrive (R198) -/

theorem memberOf_obj {x : Ctx} {k : Nat} {m : Member} (h : memberOf x k = some m) : m.obj = k := by
  simpa using List.find?_some h

theorem memberM_none {s : State} {k : Nat} (hm : memberOf s.me k = none) : memberM k s = .error (.trap cBarrier ((readGroup s k).gen.setWidth 64)) := by
  rw [memberM, M.bind_get_apply, hm]
  rfl

section
variable {s : State} {k : Nat} {m : Member} (hm : memberOf s.me k = some m)
include hm

theorem memberM_member (hg : m.gen = (readGroup s k).gen) (hv : (readGroup s k).valid = true) (hs : (readGroup s k).sound = true) :
    memberM k s = .ok ((readGroup s k, m), s) := by
  rw [memberM, M.bind_get_apply, hm]
  dsimp only
  rw [barrierUnless, M.bind_check (by simp [hg, hv, hs]), M.pure_apply]

theorem memberM_faults (h : m.gen ≠ (readGroup s k).gen ∨ (readGroup s k).valid = false ∨ (readGroup s k).sound = false) :
    memberM k s = .error (.trap cBarrier ((readGroup s k).gen.setWidth 64)) := by
  have hbad : (m.gen == (readGroup s k).gen && (readGroup s k).valid && (readGroup s k).sound) = false := by
    obtain h | h | h := h
    · rw [beq_eq_false_iff_ne.mpr h, Bool.false_and, Bool.false_and]
    · rw [h, Bool.and_false, Bool.false_and]
    · rw [h, Bool.and_false]
  rw [memberM, M.bind_get_apply, hm]
  dsimp only
  rw [barrierUnless, M.bind_check_fails hbad]

end

section
variable {d : Reg} {g : GArgs} {s : State} {k : Nat} (hat : Claims.Objects s g k true)
include hat

theorem arrive_faults (h : ∀ t, DetOnly s t → memberM k t = .error (.trap cBarrier ((readGroup s k).gen.setWidth 64))) :
    Traps (.arrive d g) s cBarrier ((readGroup s k).gen.setWidth 64) := by
  obtain ⟨t, hrun, ht⟩ := objects_run hat
  refine traps_of rfl (objects_issues hat rfl rfl rfl) ?_
  rw [M.bind_ok hrun, M.bind_error (h t ht)]

variable {m : Member} (hm : memberOf s.me k = some m) (hg : m.gen = (readGroup s k).gen)
  (hv : (readGroup s k).valid = true) (hs : (readGroup s k).sound = true)
include hm hg hv hs

theorem arrive_ends (hd : Claims.Gives s d k) (ha : m.arrived ≠ some (readGroup s k).epoch) (hlt : (readGroup s k).arrived < (readGroup s k).members) :
    ∃ t, DetOnly s t ∧ Ends (.arrive d g) s (Claims.given s (arrivalAt t s.cur k m).synced d k ((readGroup s k).epoch.setWidth 64)) := by
  obtain ⟨t, hrun, ht⟩ := objects_run hat
  refine ⟨t, ht, ends_of rfl (objects_issues hat rfl rfl rfl) ?_⟩
  rw [← ht.readGroup] at hg hv hs ha hlt ⊢
  rw [← ht.me] at hm
  rw [M.bind_ok hrun, M.bind_ok (memberM_member hm hg hv hs)]
  dsimp only
  rw [M.bind_get_apply, arriveAt_counts hm hg hv hs ha hlt]
  dsimp only
  rw [M.bind_set_apply, M.bind_ok (markSync_apply _), ht.cur]
  exact giveM_given _ hd ((ht.changes k).trans (arrivalAt_changes t s.cur k m))

theorem arrive_twice (ha : m.arrived = some (readGroup s k).epoch) : Traps (.arrive d g) s cBarrier ((readGroup s k).epoch.setWidth 64) := by
  obtain ⟨t, hrun, ht⟩ := objects_run hat
  refine traps_of rfl (objects_issues hat rfl rfl rfl) ?_
  rw [← ht.readGroup] at hg hv hs ha ⊢
  rw [← ht.me] at hm
  rw [M.bind_ok hrun, M.bind_ok (memberM_member hm hg hv hs)]
  dsimp only
  rw [M.bind_get_apply, arriveAt_twice hm hg hv hs ha]
  rfl

end

/-! ### The statements (R195 to R198, R458) -/

theorem groupInstructions : Claims.GroupInstructions := by
  refine ⟨fun d g b s k hb hat hd hz hsc => ?_, fun d g s k hat hd hv hs hl h8 hlt => ?_, fun g s k m hat hm h => ?_,
    fun d g s k m hat hd hm hg hv hs ha hlt => ?_⟩
  · obtain ⟨t, ht, hend⟩ := gnew_ends hb hat hd hz hsc
    obtain ⟨hobj, hframe⟩ := (ht.changes k).trans (madeGroup_changes t k (s.val b.r))
    have hread : readGroup (madeGroup t k (s.val b.r)) k = newGroup (readGroup s k) (s.val b.r) s.me.job := by
      rw [readGroup_madeGroup, ht.readGroup, ht.me]
    refine ⟨_, by rw [BitVec.ofNat_toNat]; exact hend, hobj, hframe, ?_⟩
    rw [hread]
    refine ⟨newGroup_gen .., fun h63 => ?_, fun h63 => ?_⟩
    · rw [newGroup, h63, if_neg (by decide)]
      obtain ⟨hvalid, hepoch⟩ := freshGroup_state ((readGroup s k).gen + 1) (s.val b.r) s.me.job
      obtain ⟨hmembers, harrived⟩ := freshGroup_counts ((readGroup s k).gen + 1) (s.val b.r) s.me.job
      exact ⟨hvalid, hepoch, harrived, hmembers, freshGroup_fields ..⟩
    · rw [newGroup, h63, if_pos rfl]
      exact (voidGroup_keeps ..).2
  · obtain ⟨t, ht, hend⟩ := join_ends hat hd hv hs hl h8
    obtain ⟨hobj, hframe⟩ := (ht.changes k).trans (joinedGroup_changes t k)
    have hw : (readGroup s k).members + 1 < 2 ^ 16 := Nat.lt_of_lt_of_le (Nat.succ_lt_succ hlt) (by decide)
    refine ⟨_, by rw [BitVec.ofNat_toNat]; exact hend, hobj, hframe, ?_⟩
    rw [readGroup_joinedGroup, joinedGroup_groups, ht.readGroup, ht.me]
    exact ⟨Group.setMembers_members _ _ hw, Group.setMembers_arrived .., Group.setMembers_gen .., Group.setMembers_epoch .., rfl⟩
  · obtain ⟨t, ht, hend⟩ := leave_ends hat hm h
    obtain rfl := memberOf_obj hm
    obtain ⟨hchange, hgroups⟩ := leaveGroup_changes t s.cur m
    have hall := (ht.changes m.obj).trans hchange
    refine ⟨_, hend, hall.1, hall.2, ?_, fun hstale => ?_, fun hg ha _ => ?_⟩
    · rw [State.me_eq, hall.cur, hgroups, ht.ctx]
      rfl
    · rw [leaveGroup_stale _ (by rw [ht.readGroup]; exact hstale), ht.mem]
    · have hs : (readGroup s m.obj).sound = true := h.resolve_left fun hn => hn hg
      rw [← ht.readGroup] at hg hs ha ⊢
      exact leaveGroup_members _ hg hs ha
  · obtain ⟨t, ht, hend⟩ := arrive_ends hat hm hg hv hs hd ha hlt
    obtain ⟨hobj, hframe⟩ := (ht.changes k).trans (arrivalAt_changes t s.cur k m)
    refine ⟨_, by rw [BitVec.ofNat_toNat]; exact hend, hobj, hframe, ?_⟩
    rw [readGroup_arrivalAt, ht.readGroup]
    obtain ⟨hgen, hmembers⟩ := arrivedGroup_keeps (readGroup s k)
    exact ⟨hmembers, hgen, arrivedGroup_next, arrivedGroup_last⟩

theorem groupFaults : Claims.GroupFaults := by
  intro d g s k hat
  simp only [BitVec.ofNat_toNat]
  refine ⟨fun hm => ⟨arrive_faults hat fun t ht => ?_, leave_faults hat hm⟩, fun m hm => ⟨fun h => arrive_faults hat fun t ht => ?_,
    fun hg hv hs ha => arrive_twice hat hm hg hv hs ha⟩, join_faults hat⟩
  · rw [← ht.readGroup]
    exact memberM_none (ht.me ▸ hm)
  · rw [← ht.readGroup] at h ⊢
    exact memberM_faults (ht.me ▸ hm) h

/-- Settles O26: what each instruction writes and gives, and its faults. -/
theorem groupObjects : Obligations.GroupObjects := ⟨groupInstructions, groupFaults⟩

end Sys2Proof.Machine
end

section
/-! PROOFS. `bar`, `bwait` and the step that lets a waiter go on (R199, R200). -/

namespace Sys2Proof.Machine

/-! ### What a context waits in at its trap level -/

theorem Ctx.wait_eq {x : Ctx} (h : x.tlevel.toNat < 3) : x.wait = x.waits[x.tlevel.toNat] := by
  rw [Ctx.wait, List.getD_eq_getElem _ _ (by simpa using h), Vector.getElem_toList]

theorem Ctx.wait_setWait {x : Ctx} (w : Wait) (h : x.tlevel.toNat < 3) : (x.setWait w).wait = w := by
  rw [Ctx.wait_eq (show (x.setWait w).tlevel.toNat < 3 from h)]
  exact Vector.getElem_set!_self h

theorem Ctx.wait_map {x : Ctx} (f : Wait → Wait) (h : x.tlevel.toNat < 3) : ({ x with waits := x.waits.map f } : Ctx).wait = f x.wait := by
  rw [Ctx.wait_eq h, Ctx.wait_eq (show ({ x with waits := x.waits.map f } : Ctx).tlevel.toNat < 3 from h)]
  exact Vector.getElem_map ..

/-! ### bar (R199, R200) -/

/-- The running context has arrived at the object at k and begun a wait; its region closes, and the detector is that of d. -/
def barWaits (s : State) (k : Nat) (m : Member) (d : List (Nat × Det)) (w : Wait) : State :=
  bumpRegion (({ arrivalAt s s.cur k m with det := d } : State).updCtx s.cur fun x => x.setWait w) s.cur

theorem barWaits_changes (s : State) (k : Nat) (m : Member) (d : List (Nat × Det)) (w : Wait) : ChangesObject s (barWaits s k m d w) k :=
  (((arrivalAt_changes s s.cur k m).trans (.of_ctxs k rfl fun _ => ⟨_, _, _, rfl⟩)).trans (changesObject_updCtx (fun _ => ⟨_, _, _, rfl⟩) ..)).trans
    (changesObject_updCtx (fun _ => ⟨_, _, _, rfl⟩) ..)

theorem readGroup_barWaits (s : State) (k : Nat) (m : Member) (d : List (Nat × Det)) (w : Wait) :
    readGroup (barWaits s k m d w) k = arrivedGroup (readGroup s k) := by
  have hm : (barWaits s k m d w).mem = (arrivalAt s s.cur k m).mem := by
    rw [barWaits, bumpRegion, State.updCtx, State.setCtx_mem, State.updCtx, State.setCtx_mem]
  rw [readGroup_of_mem hm, readGroup_arrivalAt]

theorem barWaits_wait (s : State) (k : Nat) (m : Member) (d : List (Nat × Det)) (w : Wait) (h : s.me.tlevel.toNat < 3) :
    (barWaits s k m d w).me.wait = w := by
  have ht : ((arrivalAt s s.cur k m).ctx s.cur).tlevel = s.me.tlevel := by
    rw [(arrivalAt_changes s s.cur k m).2.2 s.cur]
    rfl
  have hc : ({ arrivalAt s s.cur k m with det := d } : State).ctx s.cur = (arrivalAt s s.cur k m).ctx s.cur := rfl
  rw [State.me_eq, (barWaits_changes s k m d w).cur, barWaits, bumpRegion, updCtx_ctx_same, updCtx_ctx_same, hc]
  exact Ctx.wait_setWait w (by rw [ht]; exact h)

/-- What `bar` does as it begins to wait. -/
def beginBar (k : Nat) (gen : BitVec 32) (d : List (Nat × Det)) (w : Wait) (s : State) : State :=
  match arriveAt s s.cur k gen with
  | .ok s => bumpRegion ({ s with det := d }.setMe (({ s with det := d } : State).me.setWait w)) s.cur
  | .error _ => s

theorem beginBar_arrives {s : State} {k : Nat} {m : Member} (d : List (Nat × Det)) (w : Wait) (h : arriveAt s s.cur k m.gen = .ok (arrivalAt s s.cur k m)) :
    beginBar k m.gen d w s = barWaits s k m d w := by
  have hc := (arrivalAt_changes s s.cur k m).cur
  rw [beginBar, h]
  dsimp only
  rw [barWaits, State.updCtx, State.setMe, State.me_eq]
  dsimp only
  rw [hc]

section
variable {g : GArgs} {s : State} {k : Nat} {m : Member} (hat : Claims.Objects s g k true) (hw : s.me.wait = .none)
  (hm : memberOf s.me k = some m) (hg : m.gen = (readGroup s k).gen) (hv : (readGroup s k).valid = true) (hs : (readGroup s k).sound = true)
  (ha : m.arrived ≠ some (readGroup s k).epoch)
include hat hw hm hg hv hs ha

theorem bar_waits (hlt : (readGroup s k).arrived + 1 < (readGroup s k).members) :
    ∃ d, exec (.bar g) s = .next (unissue (barWaits s k m d (.bar k m.gen (readGroup s k).epoch)) s.cur) := by
  obtain ⟨t, hrun, ht⟩ := objects_run hat
  have hcount := arriveAt_counts (s := s) (c := s.cur) hm hg hv hs ha (Nat.lt_of_succ_lt hlt)
  refine ⟨(arrivalAt t t.cur k m).det, ?_⟩
  rw [← beginBar_arrives _ _ hcount]
  refine runSyl_hold (objects_issues hat rfl rfl rfl) ?_
  obtain ⟨chk, hobj, -⟩ := hat
  rw [← ht.readGroup] at hg hv hs ha hlt ⊢
  rw [← ht.me] at hm
  have hsame : ((arrivedGroup (readGroup t k)).epoch != (readGroup t k).epoch) = false := by
    rw [(arrivedGroup_next hlt).2, bne_self_eq_false]
  rw [M.bind_getMe, M.bind_ok (hobj.run (by decide)), hw]
  dsimp only [waitingOn]
  rw [M.bind_ok hrun, M.bind_ok (memberM_member hm hg hv hs)]
  dsimp only
  rw [M.bind_get_apply, arriveAt_counts hm hg hv hs ha (Nat.lt_of_succ_lt hlt)]
  dsimp only
  rw [readGroup_arrivalAt, hsame]
  rfl

theorem bar_last (hlast : (readGroup s k).arrived + 1 = (readGroup s k).members) (hphase : coreOf s.cur % (readGroup s k).phases = 0) :
    ∃ t, DetOnly s t ∧ Ends (.bar g) s (arrivalAt t s.cur k m).synced := by
  obtain ⟨t, hrun, ht⟩ := objects_run hat
  refine ⟨t, ht, ends_of rfl (objects_issues hat rfl rfl rfl) ?_⟩
  obtain ⟨chk, hobj, -⟩ := hat
  rw [← ht.readGroup] at hg hv hs ha hlast hphase
  rw [← ht.me] at hm
  have hnext : ((arrivedGroup (readGroup t k)).epoch != (readGroup t k).epoch) = true := by
    rw [(arrivedGroup_last hlast).2]
    exact bne_iff_ne.mpr (by bv_omega)
  have hturn : (phaseOf (readGroup t k) t.cur == 0) = true := by
    rw [ht.cur]
    exact beq_iff_eq.mpr hphase
  rw [M.bind_getMe, M.bind_ok (hobj.run (by decide)), hw]
  dsimp only [waitingOn]
  rw [M.bind_ok hrun, M.bind_ok (memberM_member hm hg hv hs)]
  dsimp only
  rw [M.bind_get_apply, arriveAt_counts hm hg hv hs ha (by omega)]
  dsimp only
  rw [readGroup_arrivalAt, hnext, hturn, Bool.and_self, if_pos rfl, M.bind_set_apply, markSync_apply, ht.cur]

end

/-! ### bwait (R199) -/

theorem beq_low_eq_decide (v : W64) (e : BitVec 32) : (e == v.extractLsb' 0 32) = decide (bits v 31 0 = e.toNat) := by
  rw [extract_bits _ _ _ (by decide), show 0 + 32 - 1 = 31 from rfl]
  have hlt : bits v 31 0 < 2 ^ 32 := bits_lt ..
  rw [Bool.eq_iff_iff, beq_iff_eq, decide_eq_true_eq]
  bv_omega

section
variable {g : GArgs} {b : Src} {s : State} {k : Nat} {m : Member} (hat : Claims.Objects s g k false) (hw : s.me.wait = .none) (hb : Reads s b.r)
  (hm : memberOf s.me k = some m) (hg : m.gen = (readGroup s k).gen) (hv : (readGroup s k).valid = true) (hs : (readGroup s k).sound = true)
include hat hw hb hm hg hv hs

theorem bwait_tests : ∃ t, DetOnly s t ∧
    (bits (s.val b.r) 31 0 ≠ (readGroup s k).epoch.toNat → Ends (.bwait g b) s t.synced) ∧
    (bits (s.val b.r) 31 0 = (readGroup s k).epoch.toNat →
      exec (.bwait g b) s = .next (unissue (s.setMe (s.me.setWait (.bwait k m.gen (readGroup s k).epoch))) s.cur)) := by
  obtain ⟨t, hrun, ht⟩ := objects_run hat
  have hi : issueFault s s.cur (.bwait g b) = none := objects_issues hat rfl rfl rfl
  obtain ⟨chk, hobj, -⟩ := hat
  rw [← ht.readGroup] at hg hv hs ⊢
  rw [← ht.me] at hm
  have hval := State.val_of_me ht.me b.r
  refine ⟨t, ht, fun h => ends_of rfl hi ?_, fun h => runSyl_hold (f := fun s => s.setMe (s.me.setWait (.bwait k m.gen (readGroup t k).epoch))) hi ?_⟩
  all_goals
    rw [M.bind_getMe, M.bind_ok (hobj.run (by decide)), hw]
    dsimp only [waitingOn]
    rw [M.bind_ok hrun, M.bind_readSrc (hb.of_me ht.me), M.bind_ok (memberM_member hm hg hv hs)]
    dsimp only
    rw [hval, beq_low_eq_decide]
  · rw [if_neg (by simpa using h), markSync_apply]
  · rw [if_pos (decide_eq_true h), holdWith_apply]

end

/-! ### The end of a wait (R200) -/

section
variable {g : GArgs} {b : Src} {s : State} {k : Nat} {ticket : BitVec 32} {chk : Bool} (hobj : ObjectAt s g 32 32 k chk) (hw : s.me.wait = .ready k ticket)
include hobj hw

theorem bar_ready : Ends (.bar g) s s.synced := by
  refine ends_of rfl (hobj.issues rfl rfl rfl) ?_
  rw [M.bind_getMe, M.bind_ok (hobj.run (by decide)), hw]
  dsimp only [waitingOn]
  rw [if_pos rfl]
  rfl

theorem bwait_ready (hb : Reads s b.r) : Ends (.bwait g b) s s.synced := by
  refine ends_of rfl (hobj.issues rfl rfl rfl) ?_
  rw [M.bind_getMe, M.bind_ok (hobj.run (by decide)), hw]
  dsimp only [waitingOn]
  rw [if_pos rfl]
  dsimp only
  rw [M.bind_readSrc hb, markSync_apply]

end

/-- What the arrival of a phase makes of a wait. -/
def phaseCame (w : Wait) : Wait :=
  match w with
  | .phase o _ t => .ready o t
  | w => w

theorem barrierPhaseReady_runs (s : State) (c : Nat) :
    exec (.barrierPhaseReady c) s = .next (s.updCtx c fun x => { x with waits := x.waits.map phaseCame }) := rfl

/-- Settles O27: `bar` and `bwait` as they begin, as they go on, and the step between. -/
theorem barrierInstructions : Obligations.BarrierInstructions := by
  refine ⟨fun g s k m hat hl hw hm hg hv hs ha => ⟨fun hlt => ?_, fun hlast hphase => ?_⟩, fun g b s k m hat hw hb hm hg hv hs => ?_,
    fun g b s k ticket ⟨chk, hobj⟩ hw => ⟨bar_ready hobj hw, bwait_ready hobj hw⟩, fun s c k gen ticket hl hw => ?_⟩
  · obtain ⟨d, hx⟩ := bar_waits hat hw hm hg hv hs ha hlt
    obtain ⟨hobj, hframe⟩ := barWaits_changes s k m d (.bar k m.gen (readGroup s k).epoch)
    refine ⟨_, hx, hobj, hframe, ?_, barWaits_wait _ _ _ _ _ hl⟩
    rw [readGroup_barWaits]
    exact (arrivedGroup_next hlt).1
  · obtain ⟨t, ht, hend⟩ := bar_last hat hw hm hg hv hs ha hlast hphase
    obtain ⟨hobj, hframe⟩ := (ht.changes k).trans (arrivalAt_changes t s.cur k m)
    refine ⟨_, hend, hobj, hframe, ?_⟩
    rw [readGroup_arrivalAt, ht.readGroup]
    exact arrivedGroup_last hlast
  · exact bwait_tests hat hw hb hm hg hv hs
  · refine ⟨_, barrierPhaseReady_runs s c, ?_, OnlyCtx.of_sets (SetsCtx.setCtx ..), ?_⟩
    · rw [updCtx_ctx_same, Ctx.wait_map _ hl, hw, phaseCame]
    · rw [updCtx_ctx_same]

end Sys2Proof.Machine
end

section
/-! PROOFS. `cbind`, `cunbind`, and the pops and pushes of a port outside a syllable (R81, R203, R204, R457). -/

namespace Sys2Proof.Machine

/-! ### The bound bits of a control word (R80, R203) -/

theorem bit_setBits (v : W64) (b n i : Nat) (h : b < 64) : bit (setBits v b b n) i = if i = b then n.testBit 0 else bit v i := by
  by_cases hi : i < 64
  · refine (testBit_setBits v b b n i hi (Nat.le_succ b)).trans ?_
    by_cases he : i = b
    · rw [if_pos he, if_pos (by omega), he, Nat.sub_self]
    · rw [if_neg he, if_neg (by omega)]
      rfl
  · rw [if_neg (by omega), bit, bit, BitVec.getLsbD_of_ge _ _ (by omega), BitVec.getLsbD_of_ge _ _ (by omega)]

/-- A control word written with a bound bit replaced reads with that bit, and otherwise as it did. -/
theorem writeBit_reads {s : State} {k b : Nat} (w : W64) (n : Nat) (h : b < 64) :
    bit (readW (writeNat s k 8 (setBits w b b n).toNat) k) b = n.testBit 0 ∧
      ∀ i, i ≠ b → bit (readW (writeNat s k 8 (setBits w b b n).toNat) k) i = bit w i := by
  rw [readW_writeNat]
  exact ⟨by rw [bit_setBits _ _ _ _ h, if_pos rfl], fun i hi => by rw [bit_setBits _ _ _ _ h, if_neg hi]⟩

theorem endBit_lt (p : Nat) : (if p < 4 then 60 else 61) < 64 := by split <;> decide

/-! ### cbind (R203) -/

section
variable {port : BitVec 3} {g : GArgs} {s : State} {k : Nat} {chk : Bool} (hat : ObjectAt s g 8 8 k chk) (hh : Unheld s k) (hf : Unfenced s k 8)
  (hr : chk = true → Unraced s k 8 true true) (hp : Unpoisoned s k 8) (hl : (s.me.iss.getD {}).late = [])
include hat hh hf hr hp hl

theorem cbind_binds (hok : chuteOk k (readW s k) = true) (hport : s.me.ports.toList.getD port.toNat none = none)
    (hb : bit (readW s k) (if port.toNat < 4 then 60 else 61) = false) :
    Ends (.cbind port g) s ((writeNat (s.racedIf chk k 8 true true) k 8
      (setBits (readW s k) (if port.toNat < 4 then 60 else 61) (if port.toNat < 4 then 60 else 61) 1).toNat).synced.iss
        fun i => { i with late := i.late ++ [.bind port.toNat k chk] }) := by
  have hme : (s.racedIf chk k 8 true true).me = s.me := by rw [State.racedIf_eq]; rfl
  have hword : readW (s.racedIf chk k 8 true true) k = readW s k := readW_of_mem (State.racedIf_mem ..) k
  refine ends_of rfl (hat.issues rfl rfl rfl) ?_
  rw [M.bind_ok (hat.run (by decide))]
  dsimp only
  rw [M.bind_paddockM _ hf, M.bind_quiesceM hh, bind_checked_race hr, M.bind_poisonM _ (hp.of_poison (by rw [State.racedIf_eq])), M.bind_get_apply,
    M.bind_getMe, hme, hword, hport, hl, M.bind_check (by rw [hok, hb]; rfl), M.bind_modify_apply, M.bind_ok (markSync_apply _), lateM_apply]

theorem cbind_faults (h : chuteOk k (readW s k) = false ∨ s.me.ports.toList.getD port.toNat none ≠ none ∨
      bit (readW s k) (if port.toNat < 4 then 60 else 61) = true) :
    Traps (.cbind port g) s cChute (readW s k) := by
  have hme : (s.racedIf chk k 8 true true).me = s.me := by rw [State.racedIf_eq]; rfl
  have hword : readW (s.racedIf chk k 8 true true) k = readW s k := readW_of_mem (State.racedIf_mem ..) k
  have hbad : (chuteOk k (readW s k) && !((s.me.ports.toList.getD port.toNat none).isSome || false) &&
      !bit (readW s k) (if port.toNat < 4 then 60 else 61)) = false := by
    obtain h | h | h := h
    · rw [h]
      rfl
    · rw [Option.isSome_iff_ne_none.mpr h, Bool.true_or, Bool.not_true, Bool.and_false, Bool.false_and]
    · rw [h, Bool.not_true, Bool.and_false]
  refine traps_of rfl (hat.issues rfl rfl rfl) ?_
  rw [M.bind_ok (hat.run (by decide))]
  dsimp only
  rw [M.bind_paddockM _ hf, M.bind_quiesceM hh, bind_checked_race hr, M.bind_poisonM _ (hp.of_poison (by rw [State.racedIf_eq])), M.bind_get_apply,
    M.bind_getMe, hme, hword, hl]
  exact M.bind_check_fails hbad ..

end

/-! ### cunbind (R204, R457) -/

/-- What the unbinding of a port leaves of its context: the register holds 0 and is full. -/
def portFreed (x : Ctx) (p : Fin 8) : Ctx :=
  { x with
    ports := x.ports.set p.val none
    x := x.x.set! (56 + p.val) 0
    empty := x.empty &&& ~~~ BitVec.twoPow 64 (56 + p.val)
    latch := if p.val < 4 then x.latch.set! p.val none else x.latch }

theorem unbindPort_bound {s : State} {c k : Nat} {p : Fin 8} (h : (s.ctx c).ports.get p = some k) : unbindPort s c p =
    (writeNat s k 8 (setBits (readW s k) (if p.val < 4 then 60 else 61) (if p.val < 4 then 60 else 61) 0).toNat).updCtx c fun x => portFreed x p := by
  simp only [unbindPort, h]
  rfl

section
variable {port : BitVec 3} {s : State} {k : Nat} (hk : s.me.ports[port.toNat] = some k)
include hk

theorem cunbind_waits (h4 : port.toNat < 4) (h : ∃ q ∈ s.me.pend, q.pops.getLsbD port.toNat = true) : Waits (.cunbind port) s := by
  have hget : s.me.ports.get port.toFin = some k := hk
  have hall : (s.me.pend.all fun p => !p.pops.getLsbD port.toNat || decide (4 ≤ port.toNat)) = false := by
    obtain ⟨q, hq, hpop⟩ := h
    rw [List.all_eq_false]
    exact ⟨q, hq, by simp [hpop, h4]⟩
  refine waits_free rfl rfl ?_
  rw [M.bind_getMe, hget]
  dsimp only
  rw [M.bind_await_fails hall]

theorem cunbind_frees (hh : Unheld s k) (h : port.toNat < 4 → ∀ q ∈ s.me.pend, q.pops.getLsbD port.toNat = false) :
    Ends (.cunbind port) s (unbindPort s s.cur port.toFin).synced := by
  have hget : s.me.ports.get port.toFin = some k := hk
  have hall : (s.me.pend.all fun p => !p.pops.getLsbD port.toNat || decide (4 ≤ port.toNat)) = true := by
    rw [List.all_eq_true]
    intro q hq
    by_cases h4 : port.toNat < 4
    · rw [h h4 q hq]
      rfl
    · rw [decide_eq_true (Nat.not_lt.mp h4), Bool.or_true]
  refine ends_free rfl rfl ?_
  rw [M.bind_getMe, hget]
  dsimp only
  rw [M.bind_await hall, M.bind_quiesceM hh, M.bind_modify_apply, markSync_apply]

end

theorem cunbind_unbound {port : BitVec 3} {s : State} (h : s.me.ports[port.toNat] = none) : ∃ v, Traps (.cunbind port) s cChute v := by
  have hget : s.me.ports.get port.toFin = none := h
  refine ⟨Config.freeWord s.free, traps_free rfl rfl ?_⟩
  rw [M.bind_getMe, hget]
  rfl

/-! ### Pops and pushes outside a syllable (R81) -/

/-- A port operation that answers leaves memory and the registers as it does, and the bundle in issue as it stood. -/
theorem runPort_ok {m : M Unit} {s t : State} (h : m s = .ok ((), t)) :
    ∃ u, runPort m s = .next u ∧ u.mem = t.mem ∧ u.me.latch = t.me.latch ∧ u.me.x = t.me.x := by
  have hbump : ∀ (p : Prop) [Decidable p], (if p then bumpRegion t t.cur else t).mem = t.mem ∧
      (if p then bumpRegion t t.cur else t).me.latch = t.me.latch ∧ (if p then bumpRegion t t.cur else t).me.x = t.me.x := fun p _ => by
    have hb : (bumpRegion t t.cur).me = { t.me with region := t.me.region + 1 } := updCtx_ctx_same t t.cur _
    split
    · rw [hb]
      exact ⟨rfl, rfl, rfl⟩
    · exact ⟨rfl, rfl, rfl⟩
  refine ⟨_, by rw [runPort, h], ?_⟩
  rw [State.setMe_mem, State.setMe_me]
  exact hbump _

/-- A wake of the contexts bound to a chute lets them run (R156). -/
def wakeCtx (k : Nat) (x : Ctx) : Ctx := if x.run == .idle && x.ports.toList.contains (some k) then { x with run := .live } else x

theorem wakePorts_ctx (s : State) (k j : Nat) : (wakePorts s k).ctx j = wakeCtx k (s.ctx j) :=
  (mapGet_mapVals (d := ({} : Ctx)) (wakeCtx k) rfl j s.ctxs :)

theorem wakePorts_me (s : State) (k : Nat) : ∃ r, (wakePorts s k).me = { s.me with run := r } := by
  rw [State.me_eq, wakePorts_cur, wakePorts_ctx, wakeCtx]
  split
  · exact ⟨_, rfl⟩
  · exact ⟨_, rfl⟩

theorem chutePop_runs {port : BitVec 2} {q : Fin 8} {s : State} {k : Nat} (hq : q = ⟨port.toNat, by omega⟩)
    (hport : s.me.ports.toList.getD port.toNat none = some k) (hlatch : s.me.latch.toList.getD port.toNat none = none)
    (hok : chuteOk k (readW s k) = true) (hb : bit (readW s k) 60 = true) (hc : chuteCount (readW s k) ≠ 0) (hh : Unheld s k) (hf : Unfenced s k 8)
    (hf2 : Unfenced s (headKey s k) 8) (hr : s.me.portChk q = true → Unraced s k 8 true true)
    (hr2 : s.me.portChk q = true → Unraced (s.raced k 8 true true) (headKey s k) 8 false true) (hp : Unpoisoned s k 8)
    (hp2 : Unpoisoned s (headKey s k) 8) :
    ∃ t, exec (.chutePop port) s = .next t ∧ t.mem = (writeNat s k 8 (popWord (readW s k)).toNat).mem ∧
      t.me.latch = s.me.latch.set! port.toNat (some (readW s (headKey s k))) ∧ t.me.x = s.me.x := by
  subst hq
  have hpop := popChute_ready hok hb hc hh hf hf2 hr hr2 hp hp2
  obtain ⟨u, hu⟩ : ∃ u, u = writeNat ((s.racedIf (s.me.portChk ⟨port.toNat, by omega⟩) k 8 true true).racedIf (s.me.portChk ⟨port.toNat, by omega⟩)
    (headKey s k) 8 false true) k 8 (popWord (readW s k)).toNat := ⟨_, rfl⟩
  have hmem : u.mem = (writeNat s k 8 (popWord (readW s k)).toNat).mem := by
    rw [hu]
    exact writeNat_mem_congr (by rw [State.racedIf_mem, State.racedIf_mem]) ..
  have hme : u.me = s.me := by rw [hu, writeNat_me, State.racedIf_eq, State.racedIf_eq]; rfl
  obtain ⟨r, hw⟩ := wakePorts_me u k
  rw [← hu] at hpop
  obtain ⟨t, hrun, htm, htl, htx⟩ := runPort_ok (m := do
    let v ← popChute k (s.me.portChk ⟨port.toNat, by omega⟩)
    modMe fun c => { c with latch := c.latch.set! port.toNat (some v) }) (M.bind_ok hpop)
  rw [State.setMe_mem, State.mem_iss, wakePorts_mem, hmem] at htm
  rw [State.setMe_me, State.me_iss, hw, hme] at htl htx
  refine ⟨t, ?_, htm, htl, htx⟩
  rw [← hrun]
  show runPort _ s = _
  rw [runPort, runPort, M.bind_getMe, hport, hlatch]

theorem chutePush_runs {port : BitVec 2} {q : Fin 8} {v : W64} {s : State} {k : Nat} (hq : q = ⟨4 + port.toNat, by omega⟩)
    (hport : s.me.ports.toList.getD (4 + port.toNat) none = some k)
    (hok : chuteOk k (readW s k) = true) (hb : bit (readW s k) 61 = true) (hc : chuteCount (readW s k) < chuteSize (readW s k) + 1) (hh : Unheld s k)
    (hf : Unfenced s k 8) (hf2 : Unfenced s (tailKey s k) 8) (hr : s.me.portChk q = true → Unraced s k 8 true true)
    (hr2 : s.me.portChk q = true → Unraced (s.raced k 8 true true) (tailKey s k) 8 true true) (hp : Unpoisoned s k 8) :
    ∃ t, exec (.chutePush port v) s = .next t ∧
      t.mem = (writeNat (writeNat s (tailKey s k) 8 v.toNat) k 8 (pushWord (readW s k)).toNat).mem ∧ t.me.x = s.me.x := by
  subst hq
  have hpush := pushChute_ready v hok hb hc hh hf hf2 hr hr2 hp
  obtain ⟨u, hu⟩ : ∃ u, u = writeNat (writeNat ((s.racedIf (s.me.portChk ⟨4 + port.toNat, by omega⟩) k 8 true true).racedIf
    (s.me.portChk ⟨4 + port.toNat, by omega⟩) (tailKey s k) 8 true true) (tailKey s k) 8 v.toNat) k 8 (pushWord (readW s k)).toNat := ⟨_, rfl⟩
  have hmem : u.mem = (writeNat (writeNat s (tailKey s k) 8 v.toNat) k 8 (pushWord (readW s k)).toNat).mem := by
    rw [hu]
    exact writeNat_mem_congr (writeNat_mem_congr (by rw [State.racedIf_mem, State.racedIf_mem]) ..) ..
  have hme : u.me = s.me := by rw [hu, writeNat_me, writeNat_me, State.racedIf_eq, State.racedIf_eq]; rfl
  obtain ⟨r, hw⟩ := wakePorts_me u k
  rw [← hu] at hpush
  obtain ⟨t, hrun, htm, -, htx⟩ := runPort_ok hpush
  rw [State.mem_synced, wakePorts_mem, hmem] at htm
  rw [State.me_synced, hw, hme] at htx
  refine ⟨t, ?_, htm, htx⟩
  rw [← hrun]
  show runPort _ s = _
  rw [runPort, runPort, M.bind_getMe, hport]

/-- Settles O28: the binding of a port and its faults, the unbinding, and what passes through a bound port. -/
theorem chuteInstructions : Obligations.ChuteInstructions := by
  refine ⟨fun port g s k chk b hat hh hf hr hp hb hl => ⟨fun hok hport hbit => ?_, fun h => ?_⟩,
    fun port s k b hk hb => ⟨cunbind_waits hk, fun hh h => ?_⟩, fun port s h => cunbind_unbound h,
    fun port q s k hport hlatch hok hbound hc hh hf hf2 hq hr hr2 hp hp2 => ?_, fun port q v s k hport hok hbound hc hh hf hf2 hq hr hr2 hp => ?_⟩
  · subst hb
    obtain ⟨hset, hkeep⟩ := writeBit_reads (s := s.racedIf chk k 8 true true) (k := k) (readW s k) 1 (endBit_lt port.toNat)
    refine ⟨_, cbind_binds hat hh hf hr hp hl hok (by simpa using hport) hbit, hset, hkeep, fun a ha => ?_, fun j => ?_⟩
    · rw [readByte_writeNat_outside _ _ _ _ _ ha]
      exact readByte_of_mem (State.racedIf_mem ..) a
    · rw [writeNat_ctx, State.racedIf_eq]
      rfl
  · subst hb
    exact cbind_faults hat hh hf hr hp hl h
  · subst hb
    have hu := unbindPort_bound (s := s) (c := s.cur) (p := port.toFin) hk
    have hme : (unbindPort s s.cur port.toFin).me = portFreed s.me port.toFin := by
      rw [hu, State.me_eq]
      exact (updCtx_ctx_same ..).trans (by rw [writeNat_ctx]; rfl)
    have hmem : (unbindPort s s.cur port.toFin).mem =
        (writeNat s k 8 (setBits (readW s k) (if port.toNat < 4 then 60 else 61) (if port.toNat < 4 then 60 else 61) 0).toNat).mem := by
      rw [hu]
      exact State.setCtx_mem ..
    obtain ⟨hclear, hkeep⟩ := writeBit_reads (s := s) (k := k) (readW s k) 0 (endBit_lt port.toNat)
    have hlt : port.toNat < 8 := port.isLt
    refine ⟨_, cunbind_frees hk hh h, ?_⟩
    rw [hme, readW_of_mem hmem]
    refine ⟨?_, ?_, ?_, hclear, hkeep, fun a ha => ?_, fun r hr => ?_⟩
    · exact Vector.getElem_set_self ..
    · exact Vector.getElem_set!_self (by omega)
    · simp [portFreed]
    · rw [readByte_of_mem hmem]
      exact readByte_writeNat_outside _ _ _ _ _ ha
    · exact Vector.getElem_set!_ne r.isLt (Ne.symm hr)
  · obtain ⟨t, hx, hmem, hl, hxs⟩ := chutePop_runs hq hport hlatch hok hbound hc hh hf hf2 hr hr2 hp hp2
    refine ⟨t, hx, ?_, ?_, fun a ha => ?_, hxs⟩
    · have hlt : port.toNat < 4 := port.isLt
      rw [hl, List.getD_eq_getElem _ _ (by simpa using hlt), Vector.getElem_toList]
      exact Vector.getElem_set!_self hlt
    · rw [readW_of_mem hmem, readW_writeNat]
      exact (popWord_fields _).1
    · rw [readByte_of_mem hmem]
      exact readByte_writeNat_outside _ _ _ _ _ ha
  · obtain ⟨t, hx, hmem, hxs⟩ := chutePush_runs (v := v) hq hport hok hbound hc hh hf hf2 hr hr2 hp
    refine ⟨t, hx, ?_, ?_, hxs⟩
    · rw [readW_of_mem hmem, readW_writeNat_apart _ _ _ _ _ (by omega)]
      exact readW_writeNat ..
    · rw [readW_of_mem hmem, readW_writeNat]
      exact (pushWord_fields _ hc).1

end Sys2Proof.Machine
end

section
/-! PROOFS. `card`, `gpget`, `gpset` and `grepl` (R206, R367, R470): the request of a context, and the launch unit's answer. -/

namespace Sys2Proof.Machine

/-! ### The request (R206, R367) -/

/-- A syllable without a fault of its own at issue has the outcome of its effect. -/
theorem exec_free {i : Instr} {s : State} {m : M Unit} (hx : exec i s = runSyl i m s) (hi : issuesFreely i = true) :
    exec i s = outcome s (m s) := by
  rw [hx, runSyl, issueFault_free hi]

theorem answerSyncs_eq (r : LaunchReq) (v : W64) : answerSyncs r v = Claims.answerReleases r v := by cases r <;> rfl

/-- An instruction whose effect comes to a request does what the request's state says. -/
theorem asks_of_outcome {i : Instr} {s : State} {d : Reg} {r : LaunchReq} {g : W64} (hx : exec i s = outcome s (askLaunch r g d s)) :
    Claims.Asks i s d r g := by
  refine ⟨fun hw => ?_, fun hw => .of_outcome hx ?_, fun v hw hd => .of_outcome hx ?_, fun hw => .of_outcome hx ?_, fun hw => .of_outcome hx ?_⟩
  · rw [hx, askLaunch, M.bind_getMe, hw]
    rfl
  · rw [askLaunch, M.bind_getMe, hw]
    rfl
  · rw [askLaunch, M.bind_getMe, hw]
    dsimp only
    rw [answerSyncs_eq]
    cases Claims.answerReleases r v with
    | false => exact writeReg_ready v hd
    | true => exact writeReg_ready v hd.synced
  · rw [askLaunch, M.bind_getMe, hw]
    rfl
  · rw [askLaunch, M.bind_getMe, hw]
    rfl

theorem graphArg_names {a : Src} {s : State} (ha : Reads s a.r) (h : (s.val a.r).toNat < 4096) :
    graphArg a s = .ok (((s.val a.r).toNat, s.val a.r), s) := by
  rw [graphArg, M.bind_readSrc ha, M.bind_limit (decide_eq_true h), M.pure_apply]

theorem launchUnitRequests : Claims.LaunchUnitRequests := by
  refine ⟨fun d a s o ha ho => ⟨fun h => traps_free rfl rfl ?_, fun h hf hh => asks_of_outcome ?_⟩,
    fun d a b gp s ha h => ⟨asks_of_outcome ?_, fun hb => asks_of_outcome ?_, asks_of_outcome ?_⟩, fun d k s hd => ends_free rfl rfl ?_⟩
  · subst ho
    rw [M.bind_readSrc ha, M.bind_check_fails (by simpa using h)]
    rfl
  · subst ho
    rw [exec_free (i := .card d a) rfl rfl, M.bind_readSrc ha, M.bind_check (by simpa using h), M.bind_myCore, M.bind_paddockM _ hf, M.bind_quiesceM hh]
  · rw [exec_free (i := .gpgetGp d a gp) rfl rfl, M.bind_ok (graphArg_names ha h)]
  · rw [exec_free (i := .gpset d a b gp) rfl rfl, M.bind_ok (graphArg_names ha h)]
    dsimp only
    rw [M.bind_readSrc hb]
  · rw [exec_free (i := .grepl d a) rfl rfl, M.bind_ok (graphArg_names ha h)]
  · rw [M.bind_getMe]
    exact writeReg_ready _ hd

/-! ### The decision (R206, R331, R367, R470) -/

section
variable {s : State} {c g : Nat}

/-- A graph that is of another function than the context's job (R367). -/
def ForeignGraph (s : State) (c g : Nat) : Prop := (s.graph g).defined = true ∧ (s.graph g).fn ≠ (s.job (s.ctx c).job).fn

theorem foreignGraph_iff (s : State) (c g : Nat) :
    ((s.graph g).defined && (s.graph g).fn != (s.job (s.ctx c).job).fn) = true ↔ ForeignGraph s c g := by
  rw [Bool.and_eq_true, bne_iff_ne, ForeignGraph]

theorem answerOf_gpget (h : ¬ ForeignGraph s c g) (i : Nat) :
    answerOf s c (.gpget g i) = (s, .value (if (s.graph g).defined then (s.graph g).gp.toList.getD i 0 else 0)) :=
  if_neg (mt (foreignGraph_iff s c g).mp h)

theorem answerOf_gpset (h : ¬ ForeignGraph s c g) (hd : (s.graph g).defined = true) (i : Nat) (v : W64) :
    answerOf s c (.gpset g i v) = (s.setGraph g { s.graph g with gp := (s.graph g).gp.set! i v }, .value 0) := by
  refine (if_neg (mt (foreignGraph_iff s c g).mp h)).trans (if_neg ?_)
  rw [hd]
  decide

theorem answerOf_gpset_undefined (hd : (s.graph g).defined = false) (i : Nat) (v : W64) : answerOf s c (.gpset g i v) = (s, .value 3) := by
  refine (if_neg (mt (foreignGraph_iff s c g).mp fun h => ?_)).trans (if_pos ?_)
  · exact absurd (hd ▸ h.1) (by decide)
  · rw [hd]
    rfl

theorem answerOf_cancelled {r : LaunchReq} (hc : (s.job (s.ctx c).job).cancelled = true) (hr : (∃ g, r = .grepl g) ∨ ∃ o, r = .card o) :
    answerOf s c r = (s, .cancelled) := by
  obtain ⟨g, rfl⟩ | ⟨o, rfl⟩ := hr
  · exact if_pos hc
  · exact if_pos hc

theorem answerOf_grepl (hc : (s.job (s.ctx c).job).cancelled = false) : answerOf s c (.grepl g) =
    if ((s.graph g).defined && (s.graph g).fn != (s.job (s.ctx c).job).fn) = true then (s, .rights)
    else ((replayGraph s g none (s.ctx c).job).1, .value (w64 (replayGraph s g none (s.ctx c).job).2)) :=
  if_neg (by rw [hc]; decide)

theorem answerOf_grepl_undefined (hc : (s.job (s.ctx c).job).cancelled = false) (hd : (s.graph g).defined = false) :
    answerOf s c (.grepl g) = (s, .value 3) := by
  have hr : replayGraph s g none (s.ctx c).job = (s, 3) := by rw [replayGraph, hd]; rfl
  rw [answerOf_grepl hc, hd, hr]
  rfl

theorem answerOf_foreign {r : LaunchReq} (h : ForeignGraph s c g)
    (hr : (∃ i, r = .gpget g i) ∨ (∃ i v, r = .gpset g i v) ∨ r = .grepl g ∧ (s.job (s.ctx c).job).cancelled = false) :
    answerOf s c r = (s, .rights) := by
  obtain ⟨i, rfl⟩ | ⟨i, v, rfl⟩ | ⟨rfl, hc⟩ := hr
  · exact if_pos ((foreignGraph_iff s c g).mpr h)
  · exact if_pos ((foreignGraph_iff s c g).mpr h)
  · rw [answerOf_grepl hc, if_pos ((foreignGraph_iff s c g).mpr h)]

theorem decide_rejects (s : State) (q : Submit) (h : cardOk q.card = false) : decide_ s q = .rejected := by
  unfold decide_
  exact if_pos (by rw [h]; rfl)

theorem answerOf_rejected {o : Nat} (hc : (s.job (s.ctx c).job).cancelled = false) (h : cardOk (localCard s (coreOf c) o) = false) :
    answerOf s c (.card o) = (s, .value 0x8000000000000001) := by
  unfold answerOf
  dsimp only
  rw [if_neg (by rw [hc]; decide), decide_rejects]
  exact h

end

/-! ### The answer (R206, R470) -/

/-- A request of a context has its answer in its place. -/
def takeAnswer (r : LaunchReq) (a : Answer) (x : Ctx) : Ctx :=
  { x with waits := x.waits.map fun w => if w = .launch r then .answered a else w }

theorem takeAnswer_wait {r : LaunchReq} {x : Ctx} (a : Answer) (h : x.waits[0] = .launch r) (hl : x.tlevel = 0) :
    (takeAnswer r a x).wait = .answered a := by
  have h0 : x.tlevel.toNat = 0 := by rw [hl]; rfl
  have hw : x.wait = .launch r := by
    rw [Ctx.wait_eq (by rw [h0]; decide)]
    simp only [h0]
    exact h
  rw [takeAnswer, Ctx.wait_map _ (by rw [h0]; decide), hw, if_pos rfl]

section
variable {s t : State} {c : Nat} {r : LaunchReq} {a : Answer} (h : (s.ctx c).waits[0] = .launch r)
include h

theorem launchUnitAnswer_runs (ha : answerOf s c r = (t, a)) : exec (.launchUnitAnswer c) s = .next (t.updCtx c (takeAnswer r a)) := by
  obtain ⟨l, hl⟩ : ∃ l, (s.ctx c).waits.toList = .launch r :: l := by
    cases he : (s.ctx c).waits.toList with
    | nil => exact absurd (congrArg List.length he) (by simp)
    | cons w l =>
      have hw : (s.ctx c).waits.toList[0] = w := by simp only [he, List.getElem_cons_zero]
      rw [Vector.getElem_toList, h] at hw
      exact ⟨l, by rw [hw]⟩
  show execLaunchUnitAnswer c s = _
  rw [execLaunchUnitAnswer, runEvent_modify, hl, List.find?_cons_of_pos rfl]
  dsimp only
  rw [ha]
  rfl

variable (hl : (s.ctx c).tlevel = 0)
include hl

/-- An answer that changes nothing but the context that asked. -/
theorem launchUnitAnswer_only (ha : answerOf s c r = (s, a)) :
    ∃ t : State, exec (.launchUnitAnswer c) s = .next t ∧ OnlyCtx s t c ∧ (t.ctx c).x = (s.ctx c).x ∧ (t.ctx c).wait = .answered a := by
  refine ⟨_, launchUnitAnswer_runs h ha, OnlyCtx.of_sets (SetsCtx.setCtx ..), ?_⟩
  rw [updCtx_ctx_same]
  exact ⟨rfl, takeAnswer_wait a h hl⟩

theorem launchUnitAnswer_waits (ha : answerOf s c r = (s, a)) :
    ∃ t : State, exec (.launchUnitAnswer c) s = .next t ∧ OnlyCtx s t c ∧ (t.ctx c).wait = .answered a := by
  obtain ⟨t, hx, hc, -, hw⟩ := launchUnitAnswer_only h hl ha
  exact ⟨t, hx, hc, hw⟩

end

theorem launchUnitAnswers : Claims.LaunchUnitAnswers := by
  intro s c r h hl _ _ j
  refine ⟨fun g i hr hown => ?_, fun g i v hr hd hown => ?_, fun g i v hr hd => ?_, fun g hd hne hr => ?_, fun g hr hc hd => ?_,
    fun hc hr => launchUnitAnswer_waits h hl (answerOf_cancelled hc hr), fun o hr hc hbad => ?_⟩
  · subst hr
    refine launchUnitAnswer_only h hl (answerOf_gpget (fun hf => ?_) i)
    obtain hd | he := hown
    · exact absurd (hd ▸ hf.1) (by decide)
    · exact hf.2 he
  · subst hr
    refine ⟨_, launchUnitAnswer_runs h (answerOf_gpset (fun hf => hf.2 hown) hd i v), ?_, ?_, rfl⟩
    · rw [State.updCtx, State.graph_setCtx, State.graph_setGraph_same]
    · rw [updCtx_ctx_same, State.ctx_setGraph]
      exact takeAnswer_wait _ h hl
  · subst hr
    exact launchUnitAnswer_waits h hl (answerOf_gpset_undefined hd i v)
  · exact launchUnitAnswer_waits h hl (answerOf_foreign ⟨hd, hne⟩ hr)
  · subst hr
    exact launchUnitAnswer_waits h hl (answerOf_grepl_undefined hc hd)
  · subst hr
    exact launchUnitAnswer_waits h hl (answerOf_rejected hc hbad)

/-- Settles O30: the requests, each in the states of its wait, and the launch unit's answers. -/
theorem launchUnitTraffic : Obligations.LaunchUnitTraffic := ⟨launchUnitRequests, launchUnitAnswers⟩

end Sys2Proof.Machine
end

section
/-! PROOFS. The end of an engine command (R96, R202, R213, R217, R279, R408, R418, R420, R456, R460): how it reaches its number, how it fails, and
what stands between its writes and its number. -/

namespace Sys2Proof.Machine

/-! ### Its number, or its failure (R213, R279, R408, R418, R420) -/

theorem finishCmd_finished (s : State) (core : Nat) {c : Cmd} (hq : c.q < 5) : Claims.Finished s (finishCmd s core c) core c :=
  finishCmd_spec s core c hq

theorem failCmd_failed (s : State) (core : Nat) {c : Cmd} (f : BitVec 8) (v : W64) (hq : c.q < 5) :
    Claims.Failed s (failCmd s core c f v) core c f v := by
  refine ⟨fun h => ?_, fun hquiet hcancel => ?_⟩
  · have hdrop : (c.quiet || (s.job c.job).cancelled) = true := by simpa using h
    rw [failCmd, if_pos hdrop]
    exact finishCmd_finished s core hq
  · obtain ⟨o, hs, hcore, hcores, hctxs⟩ := failCmd_spec s core c f v (by rw [hquiet, hcancel]; rfl)
    exact ⟨o, hs, hcore, hcores, hctxs⟩

/-! ### The arrival (R84, R202, R418, R460) -/

theorem cmdArrives_nothing {s : State} {c : Cmd} (h : c.arv = none ∨ c.quiet = true) : cmdArrives s c = .ok s := by
  unfold cmdArrives
  obtain h | h := h
  · rw [h]
  · cases c.arv with
    | none => rfl
    | some a => exact if_pos h

section
variable {s : State} {c : Cmd} {k : Nat} {gen : BitVec 32} (ha : c.arv = some (k, gen)) (hquiet : c.quiet = false)
include ha hquiet

theorem cmdArrives_paddock (hp : paddockHit s (keyCore k) (keyOff k) 32 c.job = true) : cmdArrives s c = .error (cRights, w64 (keyOff k)) := by
  unfold cmdArrives
  rw [ha]
  dsimp only
  rw [hquiet, if_neg (by decide), if_pos hp]

variable (hp : paddockHit s (keyCore k) (keyOff k) 32 c.job = false)
include hp

theorem cmdArrives_arrives {w : State} (h : arriveAt s c.ctx k gen = .ok w) : cmdArrives s c = .ok w := by
  unfold cmdArrives
  rw [ha]
  dsimp only
  rw [hquiet, hp, if_neg (by decide), if_neg (by decide), h]

theorem cmdArrives_fails {v : W64} (h : arriveAt s c.ctx k gen = .error v) : cmdArrives s c = .error (cBarrier, v) := by
  unfold cmdArrives
  rw [ha]
  dsimp only
  rw [hquiet, hp, if_neg (by decide), if_neg (by decide), h]

end

/-! ### From the writes to the number (R96, R213, R217, R456, R460) -/

/-- The full FIFOs that keep a command from its push: none for one whose push is done. -/
def fullFor (k : Core) (c : Cmd) : Nat := if c.rest = .arrival then 0 else fullFifos k c

/-- The state in which the flags of a command have come to its context. -/
def flagged (s : State) (c : Cmd) : State := orFlags s c.ctx c.vflags c.mflags

/-- The state in which a command has pushed its tokens, where its push is not done. -/
def pushed (s : State) (core : Nat) (c : Cmd) : State :=
  if c.rest = .arrival then flagged s c else (flagged s c).updCore core fun k => pushTokens k c

section
variable {s : State} {core : Nat} {c : Cmd}

/-- A full FIFO fails the command, its push left to be done. -/
theorem completeCmd_full (h : fullFor (s.core core) c ≠ 0) (hq : c.q ≠ 4) (hn : neverFails c.instr = false) :
    completeCmd s core c = failCmd (flagged s c) core { Claims.performed c with rest := .push } cTokens (w64 (fullFor (s.core core) c)) :=
  if_pos ⟨h, hq, by rw [hn]; decide⟩

variable (h : fullFor (s.core core) c = 0 ∨ c.q = 4 ∨ neverFails c.instr = true)
include h

theorem push_passes : ¬ (fullFor (s.core core) c ≠ 0 ∧ c.q ≠ 4 ∧ ¬ neverFails c.instr = true) :=
  fun ⟨h0, h1, h2⟩ => h.elim h0 fun h => h.elim h1 h2

/-- Past its push, a command whose arrival is made reaches its number. -/
theorem completeCmd_ok {w : State} (ha : cmdArrives (pushed s core c) c = .ok w) : completeCmd s core c = finishCmd w core c := by
  rw [pushed, flagged] at ha
  refine (if_neg (push_passes h)).trans ?_
  rw [ha]

/-- Past its push, a command whose arrival fails fails with it. -/
theorem completeCmd_error {f : BitVec 8} {v : W64} (hf : neverFails c.instr = false) (ha : cmdArrives (pushed s core c) c = .error (f, v)) :
    completeCmd s core c = failCmd (pushed s core c) core { Claims.performed c with rest := .arrival } f v := by
  rw [pushed, flagged] at ha
  refine (if_neg (push_passes h)).trans ?_
  rw [ha]
  exact if_neg (by rw [hf]; decide)

end

theorem completeCmd_endsSo (s : State) (core : Nat) {c : Cmd} (hq : c.q < 5) : Claims.EndsSo (.next (completeCmd s core c)) s core c := by
  refine ⟨fun hpush => ⟨fun hnone => ?_, fun k gen ha hquiet hp => ⟨fun w hw => ?_, fun v hv hn => ?_⟩, fun k gen ha hquiet hp hn => ?_⟩,
    fun hfull hq4 hn => ?_⟩
  · exact ⟨_, rfl, by rw [completeCmd_ok hpush (cmdArrives_nothing hnone)]; exact finishCmd_finished _ _ hq⟩
  · exact ⟨_, rfl, by rw [completeCmd_ok hpush (cmdArrives_arrives ha hquiet hp hw)]; exact finishCmd_finished _ _ hq⟩
  · exact ⟨_, rfl, by rw [completeCmd_error hpush hn (cmdArrives_fails ha hquiet hp hv)]; exact failCmd_failed _ _ _ _ hq⟩
  · exact ⟨_, rfl, by rw [completeCmd_error hpush hn (cmdArrives_paddock ha hquiet hp)]; exact failCmd_failed _ _ _ _ hq⟩
  · exact ⟨_, rfl, by rw [completeCmd_full hfull hq4 hn]; exact failCmd_failed _ _ _ _ hq⟩

end Sys2Proof.Machine
end

section
/-! PROOFS. The matrix instructions at the enqueuing bundle (R202, R212, R213, R217, R218, R231 to R241): whose they are, what their operands must
meet, and what the MX queue takes. -/

namespace Sys2Proof.Machine

/-! ### The arrival register (R202) -/

theorem captureArv_names {s : State} {q : Nat} {a : Nat × BitVec 32} (h : Claims.arrival s q = some a) : captureArv q s = .ok (a, s) := by
  unfold Claims.arrival at h
  split at h
  · next hb =>
    obtain ⟨k, hk, rfl⟩ := Option.map_eq_some_iff.mp h
    rw [captureArv, M.bind_get_apply, if_pos hb, hk]
    rfl
  · simp at h

theorem captureArv_fails {s : State} {q : Nat} (h : Claims.arrival s q = none) :
    captureArv q s = .error (.trap cBarrier (s.me.arv.toList.getD q 0)) := by
  unfold Claims.arrival at h
  rw [captureArv, M.bind_get_apply]
  split at h
  · next hb =>
    rw [if_pos hb, Option.map_eq_none_iff.mp h]
    rfl
  · next hb =>
    rw [if_neg hb]
    rfl

/-- An arrival that names its object is captured, and the command goes on to its queue. -/
theorem enqueue_captured {s : State} {c : Cmd} {arv : Bool} (h : arv = false ∨ Claims.arrival s c.q ≠ none) :
    enqueue c arv s = enqTail c (if arv then Claims.arrival s c.q else none) s := by
  cases arv with
  | false => rw [enqueue_false]; rfl
  | true =>
    obtain ⟨a, ha⟩ := Option.ne_none_iff_exists'.mp (h.resolve_left (by decide))
    rw [enqueue_true, M.bind_ok (captureArv_names ha), ha]
    rfl

/-- What a queue with room takes, in the words of `Claims.Takes`. -/
theorem enqTail_takes {s : State} {c : Cmd} {arv : Bool} (h : (s.core (coreOf s.cur)).used c.q < 16) (hq : c.q < 5) (hp : c.phase = .queued) :
    ∃ (t : State) (d : Cmd), enqTail c (if arv then Claims.arrival s c.q else none) s = .ok (d.num, t.synced) ∧ t = { s with cores := t.cores } ∧
      Claims.Takes c.instr s t d c.q arv c.tok c.vals c.ents c.desc ∧ (t.core (coreOf s.cur)).units = (s.core (coreOf s.cur)).units ∧
      d.fresh = c.fresh ∧ d.nth = c.nth := by
  obtain ⟨t, d, hrun, ht, hcores, hqueue, hqueues, hdone, hnum, hnext, hinstr, hdq, hvals, hents, hdesc, htok, hctx, hjob, hlcore, hprof, hphase, harv,
    hfresh, hnth, hunits⟩ := enqTail_ok (a := if arv then Claims.arrival s c.q else none) h hq
  exact ⟨t, d, hrun, ht, ⟨hcores, hqueue, hqueues, hdone, hnum, hnext, hinstr, hdq, hvals, hents, hdesc, htok, hctx, hjob, hlcore, hprof,
    hphase.trans hp, harv⟩, hunits, hfresh, hnth⟩

/-- What a queue has taken stands where the units of its core change. -/
theorem takes_of_units {i : Instr} {s t v : State} {c : Cmd} {q : Nat} {arv : Bool} {tok : BitVec 4} {vals : List W64} {ents : List Layout}
    {desc : List W64} (h : Claims.Takes i s t c q arv tok vals ents desc)
    (hv : ∀ j, ∃ us, v.core j = { t.core j with units := us } ∧ (j ≠ coreOf s.cur → us = (t.core j).units)) :
    Claims.Takes i s v c q arv tok vals ents desc := by
  obtain ⟨hcores, hqueue, hqueues, hdone, hnum, hnext, hcmd⟩ := h
  obtain ⟨us, hcore, -⟩ := hv (coreOf s.cur)
  refine ⟨fun j hj => ?_, ?_⟩
  · obtain ⟨us, hj', hus⟩ := hv j
    rw [hj', hus hj]
    exact hcores j hj
  · rw [hcore]
    exact ⟨hqueue, hqueues, hdone, hnum, hnext, hcmd⟩

/-! ### What the MX queue takes (R213, R217, R218, R240) -/

/-- The unit of the running context has enqueued no matrix command of its task yet. -/
def unitStale (s : State) : Bool :=
  match unitOf s s.cur with
  | some (_, u) => u.stale
  | none => false

/-- The command that a matrix instruction enqueues, before the queue has given it its number. -/
def mxCmd (i : Instr) (e : EArgs) (vals : List W64) (ents : List Layout) (s : State) : Cmd :=
  { instr := i, q := 1, num := 0, ctx := 0, job := 0, lcore := 0, set := 0, tok := tokE e, vals, ents, total := 1, fresh := unitStale s
    nth := mapGet 0 (s.job s.me.job).rrots (coreOf s.cur) }

/-- An `rrot` counts among those that its launch has enqueued on a core; other commands do not. -/
def countRrot (i : Instr) (job core n : Nat) (s : State) : State :=
  if isRrot i then s.updJob job fun j => { j with rrots := mapSet 0 j.rrots core (n + 1) } else s

/-- The unit of the running context has enqueued a matrix command of its task. -/
def unstale (core : Nat) (s : State) : State :=
  match unitOf s s.cur with
  | some (lane, u) => setUnit s core lane (some { u with stale := false })
  | none => s

theorem mxEnqueue_eq (i : Instr) (e : EArgs) (vals : List W64) (ents : List Layout) (s : State) : mxEnqueue i e vals ents s =
    (enqueue (mxCmd i e vals ents s) e.arv >>= fun _ =>
      modify fun t => unstale (coreOf s.cur) (countRrot i s.me.job (coreOf s.cur) (mapGet 0 (s.job s.me.job).rrots (coreOf s.cur)) t)) s := by
  rw [mxEnqueue, M.bind_get_apply]
  refine (M.bind_apply ..).trans (Eq.trans ?_ (M.bind_apply ..).symm)
  cases h : isRrot i with
  | true => simp only [countRrot, h]; rfl
  | false => simp only [countRrot, h]; rfl

theorem unitOf_of_units {s t : State} {c : Nat} (h : (t.core (coreOf c)).units = (s.core (coreOf c)).units) : unitOf t c = unitOf s c := by
  unfold unitOf
  dsimp only
  rw [h]

/-- Of the cores, the mark of a unit changes the units of its own alone. -/
theorem unstale_core (core : Nat) (s : State) (j : Nat) : ∃ us, (unstale core s).core j = { s.core j with units := us } ∧
    (j ≠ core → us = (s.core j).units) := by
  unfold unstale
  split
  · by_cases h : j = core
    · subst h
      exact ⟨_, State.core_setCore_same .., fun h => absurd rfl h⟩
    · exact ⟨_, State.core_setCore_ne _ _ _ _ h, fun _ => rfl⟩
  · exact ⟨_, rfl, fun _ => rfl⟩

theorem unstale_units {core lane : Nat} {s : State} {u : UnitSt} (h : unitOf s s.cur = some (lane, u)) :
    ((unstale core s).core core).units = (s.core core).units.set! lane (some { u with stale := false }) := by
  rw [unstale, h]
  dsimp only
  rw [setUnit, State.updCore, State.core_setCore_same]

theorem unstale_only (core : Nat) (s : State) : ∃ k, unstale core s = { s with cores := k } := by
  unfold unstale
  split
  · exact ⟨_, rfl⟩
  · exact ⟨_, rfl⟩

theorem unstale_synced (core : Nat) (s : State) : unstale core s.synced = (unstale core s).synced := by
  unfold unstale
  rw [show unitOf s.synced s.synced.cur = unitOf s s.cur from rfl]
  split
  · rfl
  · rfl

theorem countRrot_only (i : Instr) (job core n : Nat) (s : State) : ∃ m, countRrot i job core n s = { s with jobs := m } := by
  unfold countRrot
  split
  · exact ⟨_, rfl⟩
  · exact ⟨_, rfl⟩

theorem countRrot_synced (i : Instr) (job core n : Nat) (s : State) : countRrot i job core n s.synced = (countRrot i job core n s).synced := by
  unfold countRrot
  split
  · rfl
  · rfl

section
variable {i : Instr} {e : EArgs} {vals : List W64} {ents : List Layout} {s : State}

theorem mxEnqueue_faults (ha : e.arv = true) (h : Claims.arrival s 1 = none) :
    mxEnqueue i e vals ents s = .error (.trap cBarrier (s.me.arv.toList.getD 1 0)) := by
  rw [mxEnqueue_eq, ha, enqueue_true]
  exact M.bind_error (M.bind_error (captureArv_fails h))

variable (ha : e.arv = false ∨ Claims.arrival s 1 ≠ none)
include ha

theorem mxEnqueue_full (h : 16 ≤ (s.core (coreOf s.cur)).used 1) : mxEnqueue i e vals ents s = .error .wait := by
  rw [mxEnqueue_eq]
  exact M.bind_error ((enqueue_captured (c := mxCmd i e vals ents s) ha).trans (enqTail_full (c := mxCmd i e vals ents s) h))

/-- A queue with room takes the command; the unit has enqueued one of its task, and an `rrot` counts. -/
theorem mxEnqueue_takes (h : (s.core (coreOf s.cur)).used 1 < 16) : ∃ (r : State) (d : Cmd),
    mxEnqueue i e vals ents s = .ok ((), (unstale (coreOf s.cur) (countRrot i s.me.job (coreOf s.cur) (mapGet 0 (s.job s.me.job).rrots (coreOf s.cur)) r)).synced) ∧
      r = { s with cores := r.cores } ∧ Claims.Takes i s r d 1 e.arv (Claims.tokens e) vals ents [] ∧
      (r.core (coreOf s.cur)).units = (s.core (coreOf s.cur)).units ∧ d.fresh = unitStale s ∧
      d.nth = mapGet 0 (s.job s.me.job).rrots (coreOf s.cur) := by
  obtain ⟨r, d, hrun, hr, htakes, hunits, hfresh, hnth⟩ := enqTail_takes (c := mxCmd i e vals ents s) (arv := e.arv) h (by decide : 1 < 5) rfl
  refine ⟨r, d, ?_, hr, htakes, hunits, hfresh, hnth⟩
  rw [mxEnqueue_eq, M.bind_ok ((enqueue_captured (c := mxCmd i e vals ents s) ha).trans hrun), M.modify_apply, countRrot_synced, unstale_synced]

end

/-- A matrix instruction of its owner, whose operands have passed their checks, does with its command what the MX queue does. -/
theorem mxQueues_of_run {i : Instr} {e : EArgs} {vals : List W64} {ents : List Layout} {s : State} {m : M Unit} (hx : exec i s = runSyl i m s)
    (hi : issuesFreely i = true) (hm : m s = mxEnqueue i e vals ents s) : Claims.MxQueues i e s vals ents := by
  refine ⟨fun ha h => traps_free hx hi (hm.trans (mxEnqueue_faults ha h)), fun ha => ⟨fun h => waits_free hx hi (hm.trans (mxEnqueue_full ha h)), fun h => ?_⟩⟩
  obtain ⟨r, d, hrun, hr, htakes, hunits, hfresh, hnth⟩ := mxEnqueue_takes ha h
  obtain ⟨n, hn⟩ : ∃ n, n = mapGet 0 (s.job s.me.job).rrots (coreOf s.cur) := ⟨_, rfl⟩
  rw [← hn] at hrun hnth
  obtain ⟨v, hv⟩ : ∃ v, v = countRrot i s.me.job (coreOf s.cur) n r := ⟨_, rfl⟩
  have hvo : v = { r with jobs := v.jobs } := by
    obtain ⟨m, hm⟩ := countRrot_only i s.me.job (coreOf s.cur) n r
    rw [hv, hm]
  have hvc (j : Nat) : v.core j = r.core j := by rw [hvo]; rfl
  have hunit : unitOf v v.cur = unitOf s s.cur := by
    rw [show v.cur = s.cur by rw [hvo, hr]]
    exact unitOf_of_units (by rw [hvc, hunits])
  rw [← hv] at hrun
  obtain ⟨k, hk⟩ := unstale_only (coreOf s.cur) v
  have hjobs : (unstale (coreOf s.cur) v).jobs = v.jobs := by rw [hk]
  refine ⟨unstale (coreOf s.cur) v, d, ends_free hx hi (hm.trans hrun), ?_, takes_of_units htakes fun j => ?_, fun lane u hu => ⟨?_, ?_⟩, fun hring => ?_,
    fun hring => ?_⟩
  · rw [hk, hvo, hr]
  · rw [← hvc]; exact unstale_core ..
  · rw [hfresh, unitStale, hu]
  · rw [unstale_units (hunit.trans hu), hvc, hunits]
  · rw [hjobs, hv, countRrot, hring, if_neg (by decide), hr]
  · have hrj (j : Nat) : r.job j = s.job j := by rw [hr]; rfl
    have hset : (unstale (coreOf s.cur) v).jobs = (r.updJob s.me.job fun j => { j with rrots := mapSet 0 j.rrots (coreOf s.cur) (n + 1) }).jobs := by
      rw [hjobs, hv, countRrot, hring, if_pos rfl]
    have hjob (j : Nat) : (unstale (coreOf s.cur) v).job j = if j = s.me.job
        then { s.job s.me.job with rrots := mapSet 0 (s.job s.me.job).rrots (coreOf s.cur) (n + 1) } else s.job j := by
      rw [← hrj, ← hrj]
      exact (congrArg (fun m => mapGet _ m j) hset).trans (State.job_setJob ..)
    refine ⟨hnth.trans hn, ?_, fun j hj => ?_⟩
    · rw [hjob, if_pos rfl, hnth]
    · rw [hjob, if_neg hj]

/-! ### The owner (R212) -/

theorem mxOwner_owns {s : State} (h : Claims.Owns s) : mxOwner s = .ok ((), s) := by
  obtain ⟨lane, u, hu, ho⟩ := h
  have hb : (u.triple || lane == 1) = true := by simpa using ho
  rw [mxOwner, M.bind_get_apply, hu]
  dsimp only
  rw [hb]
  rfl

theorem mxOwner_other {s : State} (h : ¬ Claims.Owns s) : ∃ v, mxOwner s = .error (.trap cEngine v) := by
  refine ⟨Config.freeWord s.free, ?_⟩
  rw [mxOwner, M.bind_get_apply]
  cases hu : unitOf s s.cur with
  | none => rfl
  | some p =>
    have hb : (p.2.triple || p.1 == 1) = false := by
      rw [Bool.eq_false_iff]
      exact fun hb => h ⟨p.1, p.2, hu, by simpa using hb⟩
    dsimp only
    rw [hb]
    rfl

/-- A matrix instruction outside the owner faults. -/
theorem traps_of_other {i : Instr} {s : State} {f : Unit → M Unit} (h : ¬ Claims.Owns s) (hx : exec i s = runSyl i (mxOwner >>= f) s)
    (hi : issuesFreely i = true) : ∃ v, Traps i s 0x30 v := by
  obtain ⟨v, hv⟩ := mxOwner_other h
  exact ⟨v, traps_free hx hi (M.bind_error hv)⟩

/-- A matrix instruction of the owner does what follows the test of its owner. -/
theorem mxQueues_of_owner {i : Instr} {e : EArgs} {vals : List W64} {ents : List Layout} {s : State} {f : Unit → M Unit} (h : Claims.Owns s)
    (hx : exec i s = runSyl i (mxOwner >>= f) s) (hi : issuesFreely i = true) (hf : f () s = mxEnqueue i e vals ents s) : Claims.MxQueues i e s vals ents :=
  mxQueues_of_run hx hi ((M.bind_ok (mxOwner_owns h)).trans hf)

/-! ### Operands and their limits (R231, R232, R423) -/

section
variable {s : State}

theorem engine_ok {ok : Bool} (v : W64) (h : ok = true) : engine ok v s = .ok ((), s) := by subst h; rfl
theorem aligned_ok {ok : Bool} (v : W64) (h : ok = true) : aligned ok v s = .ok ((), s) := by subst h; rfl
theorem within_ok {ok : Bool} (v : W64) (h : ok = true) : within ok v s = .ok ((), s) := by subst h; rfl

theorem readPair_ready {a : Reg} (ha : Reads s a) (hb : Reads s (a + 1)) : readPair a s = .ok ((s.val a, s.val (a + 1)), s) := by
  rw [readPair, M.bind_readReg _ ha, M.bind_readReg _ hb]
  rfl

theorem offCheck_ok {v : W64} {al n : Nat} (ha : v.toNat % al = 0) (hn : v.toNat + n ≤ 2 ^ 23) : offCheck v al n s = .ok ((), s) := by
  rw [offCheck, M.bind_ok (aligned_ok _ (by simpa using ha))]
  exact within_ok _ (by simpa using hn)

variable {lo hi : W64} {n len : Nat} (h : Claims.PairOk lo hi n len)
include h

theorem descEngine_ok {rowsOk : Bool} (hr : rowsOk = true) : descEngine (lo, hi) rowsOk s = .ok ((), s) := by
  obtain ⟨hlo, hbit, hhi, hphase, -, -, -⟩ := h
  rw [descEngine, M.bind_ok (engine_ok _ (by rw [hlo, hbit]; rfl))]
  refine engine_ok _ ?_
  rw [hhi, hr, descPhase, decide_eq_true hphase]
  rfl

theorem descAligned_ok : descAligned (lo, hi) s = .ok ((), s) := by
  obtain ⟨-, -, -, -, hbase, hpitch, -⟩ := h
  refine aligned_ok _ ?_
  rw [descBase, descPitch, descQ, hbase, hpitch]
  rfl

theorem descWithin_ok : descWithin (lo, hi) n len s = .ok ((), s) := by
  obtain ⟨-, -, -, -, -, -, hend⟩ := h
  exact within_ok _ (decide_eq_true hend)

theorem descCheck_ok {rowsOk : Bool} (hr : rowsOk = true) : descCheck (lo, hi) rowsOk n len s = .ok ((), s) := by
  rw [descCheck, M.bind_ok (descEngine_ok h hr), M.bind_ok (descAligned_ok h)]
  exact descWithin_ok h

end

section
variable {α β : Type} {p : Prop} [Decidable p] {s : State}

/-- A test that is made only under a condition. -/
theorem M.ite_bind_ok {x : M Unit} {k : Unit → M β} (h : p → x s = .ok ((), s)) : (if p then x >>= k else k ()) s = k () s := by
  split
  · next hp => exact M.bind_ok (h hp)
  · rfl

/-- A value that comes one way under a condition and another way otherwise. -/
theorem M.ite_bind_value {x y : M α} {k : α → M β} {v : α} (ht : p → x s = .ok (v, s)) (hf : ¬ p → y s = .ok (v, s)) :
    (if p then x >>= k else y >>= k) s = k v s := by
  split
  · next hp => exact M.bind_ok (ht hp)
  · next hp => exact M.bind_ok (hf hp)

end

/-! ### The instructions (R233 to R241) -/

section
variable {e : EArgs} {s : State} (h : Claims.Owns s)
include h

theorem mcfg_queues (ha : Reads s e.a) (hal : (s.val e.a).toNat % 64 = 0) (hn : (s.val e.a).toNat + 384 ≤ 2 ^ 23) :
    Claims.MxQueues (.mcfg e) e s [s.val e.a] [] := by
  refine mxQueues_of_owner h rfl rfl ?_
  rw [M.bind_readReg _ ha, M.bind_ok (offCheck_ok hal hn)]

theorem mcfgr_queues (ha : Reads s e.a) : Claims.MxQueues (.mcfgr e) e s [s.val e.a] [] := by
  refine mxQueues_of_owner h rfl rfl ?_
  rw [M.bind_readReg _ ha]

theorem mgo_queues : Claims.MxQueues (.mgo e) e s [BitVec.ofNat 64 (profOff s (s.job s.me.job))] ((List.range 64).map fun l => entryOf s s.cur l) :=
  mxQueues_of_owner h rfl rfl (M.bind_get_apply ..)

/-- An instruction without operands. -/
theorem bare_queues {i : Instr} (hx : exec i s = runSyl i (mxOwner >>= fun _ => mxEnqueue i e []) s) (hi : issuesFreely i = true) :
    Claims.MxQueues i e s [] [] := mxQueues_of_owner h hx hi rfl

theorem acmv_queues {i : Instr} (hx : exec i s = runSyl i (acmvM i e) s) (hi : issuesFreely i = true) (ha : Reads s e.a)
    (hal : (s.val e.a).toNat % 64 = 0) (hn : (s.val e.a).toNat + 65536 ≤ 2 ^ 23) : Claims.MxQueues i e s [s.val e.a] [] := by
  refine mxQueues_of_owner h hx hi ?_
  rw [M.bind_readReg _ ha, M.bind_ok (offCheck_ok hal hn)]

theorem zMove_queues {i : Instr} (hx : exec i s = runSyl i (zMoveM i e) s) (hi : issuesFreely i = true) (ha : Reads s e.a) (hb : Reads s (e.a + 1))
    (hr : 1 ≤ bits (s.val (e.a + 1)) 31 24) (hl : bits (s.val (e.a + 1)) 31 24 * zLen e ≤ 12288)
    (hp : Claims.PairOk (s.val e.a) (s.val (e.a + 1)) (bits (s.val (e.a + 1)) 31 24) (zLen e)) :
    Claims.MxQueues i e s [s.val e.a, s.val (e.a + 1)] [] := by
  refine mxQueues_of_owner h hx hi ?_
  rw [M.bind_ok (readPair_ready ha hb)]
  exact M.bind_ok (descCheck_ok hp (decide_eq_true ⟨hr, hl⟩))

theorem rrot_queues {i : Instr} (hx : exec i s = runSyl i (rrotM i e) s) (hi : issuesFreely i = true) (ha : Reads s e.a) (hb : Reads s e.b)
    (hm : mxHeld s s.me.job (clusterOf s.cur) = 255) (haa : (s.val e.a).toNat % 64 = 0) (hba : (s.val e.b).toNat % 64 = 0)
    (han : (s.val e.a).toNat + rrotLen e ≤ 2 ^ 23) (hbn : (s.val e.b).toNat + rrotLen e ≤ 2 ^ 23) :
    Claims.MxQueues i e s [s.val e.a, s.val e.b] [] := by
  refine mxQueues_of_owner h hx hi ?_
  rw [M.bind_readReg _ ha, M.bind_readReg _ hb, M.bind_get_apply]
  rw [M.bind_ok (engine_ok _ (by rw [hm]; rfl)), M.bind_ok (aligned_ok _ (by simpa using haa)), M.bind_ok (aligned_ok _ (by simpa using hba)),
    M.bind_ok (within_ok _ (decide_eq_true han)), M.bind_ok (within_ok _ (decide_eq_true hbn))]

theorem mtab_queues (ha : Reads s e.a) (hb : Reads s (e.a + 1)) (hr : bits (s.val (e.a + 1)) 31 24 = 192)
    (hp : Claims.PairOk (s.val e.a) (s.val (e.a + 1)) 192 128) : Claims.MxQueues (.mtab e) e s [s.val e.a, s.val (e.a + 1)] [] := by
  refine mxQueues_of_owner h rfl rfl ?_
  rw [M.bind_ok (readPair_ready ha hb)]
  exact M.bind_ok (descCheck_ok hp (by rw [descRows, hr]; rfl))

/-- Each operand of `mma` is a pair from registers, tested, or a tile register, with no pair. -/
theorem mma_queues {alo ahi blo bhi : W64}
    (ha : if Claims.mmaA e then Reads s e.a ∧ Reads s (e.a + 1) ∧ alo = s.val e.a ∧ ahi = s.val (e.a + 1) ∧
        1 ≤ bits ahi 31 24 ∧ bits ahi 31 24 ≤ 64 ∧ Claims.PairOk alo ahi (bits ahi 31 24) (keff (mmaSp e))
      else alo = 0 ∧ ahi = 0)
    (hb : if Claims.mmaB e then Reads s e.b ∧ Reads s (e.b + 1) ∧ blo = s.val e.b ∧ bhi = s.val (e.b + 1) ∧ Claims.PairOk blo bhi 192 (rowB (mmaFmt e))
      else blo = 0 ∧ bhi = 0)
    (hprof : profOk (s.job s.me.job) (min 15 (s.me.prof.toNat + profOff s (s.job s.me.job))) = true) :
    Claims.MxQueues (.mma e) e s [alo, ahi, blo, bhi, BitVec.ofNat 64 (profOff s (s.job s.me.job))] [] := by
  have hat (hs : e.fn.getLsbD 15 = true) : readPair e.a s = .ok ((alo, ahi), s) ∧ (1 ≤ bits ahi 31 24 ∧ bits ahi 31 24 ≤ 64) ∧
      Claims.PairOk alo ahi (bits ahi 31 24) (keff (mmaSp e)) := by
    obtain ⟨hr, hr1, hlo, hhi, h1, h64, hok⟩ := (if_pos hs) ▸ ha
    exact ⟨by rw [hlo, hhi]; exact readPair_ready hr hr1, ⟨h1, h64⟩, hok⟩
  have hbt (hs : e.fn.getLsbD 13 = true) : readPair e.b s = .ok ((blo, bhi), s) ∧ Claims.PairOk blo bhi 192 (rowB (mmaFmt e)) := by
    obtain ⟨hr, hr1, hlo, hhi, hok⟩ := (if_pos hs) ▸ hb
    exact ⟨by rw [hlo, hhi]; exact readPair_ready hr hr1, hok⟩
  refine mxQueues_of_owner h rfl rfl ?_
  refine (M.ite_bind_value (v := (alo, ahi)) (fun hs => (hat hs).1) fun hs => ?_).trans ?_
  · obtain ⟨hlo, hhi⟩ := (if_neg hs) ▸ ha
    rw [hlo, hhi]
    rfl
  refine (M.ite_bind_value (v := (blo, bhi)) (fun hs => (hbt hs).1) fun hs => ?_).trans ?_
  · obtain ⟨hlo, hhi⟩ := (if_neg hs) ▸ hb
    rw [hlo, hhi]
    rfl
  refine (M.bind_get_apply ..).trans ?_
  refine (M.bind_ok (engine_ok _ hprof)).trans ?_
  refine (M.ite_bind_ok fun hs => descEngine_ok (hat hs).2.2 (decide_eq_true (hat hs).2.1)).trans ?_
  refine (M.ite_bind_ok fun hs => descEngine_ok (hbt hs).2 rfl).trans ?_
  refine (M.ite_bind_ok fun hs => descAligned_ok (hat hs).2.2).trans ?_
  refine (M.ite_bind_ok fun hs => descAligned_ok (hbt hs).2).trans ?_
  refine (M.ite_bind_ok fun hs => descWithin_ok (hat hs).2.2).trans ?_
  exact M.ite_bind_ok fun hs => descWithin_ok (hbt hs).2

end

/-- Settles O32: the owner's instructions one by one, each past its limits; outside the owner the first test is what fails. -/
theorem matrixCommands : Obligations.MatrixCommands := by
  refine fun e s => ⟨fun h => ⟨mcfg_queues h, mcfgr_queues h, mgo_queues h, fun _ _ _ _ => mma_queues h, bare_queues h rfl rfl,
    fun ha hal hn => ⟨acmv_queues h rfl rfl ha hal hn, acmv_queues h rfl rfl ha hal hn⟩,
    fun ha hb hr hl hp => ⟨zMove_queues h rfl rfl ha hb hr hl hp, zMove_queues h rfl rfl ha hb hr hl hp⟩, bare_queues h rfl rfl,
    bare_queues h rfl rfl,
    fun ha hb hm haa hba han hbn => ⟨rrot_queues h rfl rfl ha hb hm haa hba han hbn, rrot_queues h rfl rfl ha hb hm haa hba han hbn⟩, mtab_queues h⟩,
    fun h => ?_⟩
  simp only [List.forall_mem_cons]
  exact ⟨traps_of_other h rfl rfl, traps_of_other h rfl rfl, traps_of_other h rfl rfl, traps_of_other h rfl rfl, traps_of_other h rfl rfl,
    traps_of_other h rfl rfl, traps_of_other h rfl rfl, traps_of_other h rfl rfl, traps_of_other h rfl rfl, traps_of_other h rfl rfl,
    traps_of_other h rfl rfl, traps_of_other h rfl rfl, traps_of_other h rfl rfl, traps_of_other h rfl rfl, fun _ h => nomatch h⟩

end Sys2Proof.Machine
end

section
/-! PROOFS. The completion of engine commands (R213, R217, R220, R243, R249, R273, R281, R338, R420): which command completes, and what it leaves behind
besides its tokens, its arrival and its number. -/

namespace Sys2Proof.Machine

/-! ### The matrix engine (R213, R220, R243) -/

/-- What a matrix command leaves of its accumulator (R220). -/
def mxReleased (s : State) (core : Nat) (c : Cmd) : State :=
  match c.instr with
  | .acmvSt e => if e.fn.getLsbD 1 = true ∧ c.rest = .all then Claims.released s core (numC e) c.wr else s
  | _ => s

theorem mxRelease_eq (s : State) (core : Nat) (c : Cmd) : mxRelease s core c = mxReleased s core c := rfl

/-- The array after a command of its own or of a sibling's: in ballast, or with the next. -/
def arrayAfter (w : State) (on : Nat) : Nat := if execMxCommandComplete.follows w on then 2 else 1

theorem arrayAfter_cases (w : State) (on : Nat) : arrayAfter w on = 1 ∨ arrayAfter w on = 2 := by
  unfold arrayAfter
  split
  · exact .inr rfl
  · exact .inl rfl

/-- The array goes idle where the command at the head of its queue is not one for an array. -/
theorem arrayAfter_idle {w : State} {on : Nat} (h : ∀ before h, mxHead w on = some (before, h) → onArray h.instr = false) : arrayAfter w on = 1 := by
  have hf : execMxCommandComplete.follows w on = false := by
    unfold execMxCommandComplete.follows
    cases hw : mxHead w on with
    | none => rfl
    | some p =>
      dsimp only
      rw [h p.1 p.2 hw]
      rfl
  exact if_neg (by rw [hf]; decide)

/-- A matrix command has nothing left to perform. -/
def MxDone (s : State) (c : Cmd) : Prop :=
  c.started = true ∧ c.phase = .running ∧ (c.total ≤ c.done ∨ c.rest ≠ .all ∨ (s.job c.job).cancelled = true)

section
variable {s : State} {core tl : Nat} {c : Cmd} (hc : (s.core core).cmd 1 tl = some c)
include hc

theorem mxCommandComplete_waits (h : ¬ MxDone s c) : exec (.mxCommandComplete core tl) s = .next s := by
  have hb : (c.started && c.phase == .running && (decide (c.total ≤ c.done) || c.rest != .all || (s.job c.job).cancelled)) = false := by
    rw [Bool.eq_false_iff]
    exact fun hb => h (by simpa [MxDone, and_assoc, or_assoc] using hb)
  show execMxCommandComplete core tl s = _
  rw [execMxCommandComplete, runEvent_modify, hc]
  dsimp only
  rw [hb]
  rfl

theorem mxCommandComplete_done (h : MxDone s c) : exec (.mxCommandComplete core tl) s =
    .next (if onArray c.instr && c.rest == .all
      then (completeCmd (mxReleased s core c) core c).updCore (c.runner.getD core) fun k =>
        { k with array := arrayAfter (completeCmd (mxReleased s core c) core c) (c.runner.getD core) }
      else completeCmd (mxReleased s core c) core c) := by
  have hb : (c.started && c.phase == .running && (decide (c.total ≤ c.done) || c.rest != .all || (s.job c.job).cancelled)) = true := by
    simpa [MxDone, and_assoc, or_assoc] using h
  show execMxCommandComplete core tl s = _
  rw [execMxCommandComplete, runEvent_modify, hc]
  dsimp only
  rw [hb]
  rfl

end

/-! ### The vector engine (R220, R249, R271) -/

/-- What a vector command leaves of its accumulator (R220). -/
def vxReleased (s : State) (core : Nat) (c : Cmd) : State :=
  match c.instr with
  | .vepi _ => if c.rest = .all then Claims.released s core (bits (c.vals.getD 1 0) 2 0) c.wr else s
  | _ => s

section
variable {s : State} {core : Nat} {c : Cmd} (hc : headCmd (s.core core) 2 = some c)
include hc

theorem vxCommandComplete_waits (h : c.phase ≠ .running) : exec (.vxCommandComplete core) s = .next s := by
  show execVxCommandComplete core s = _
  rw [execVxCommandComplete, runEvent_modify, hc]
  dsimp only
  rw [if_pos h]

theorem vxCommandComplete_running (h : c.phase = .running) :
    exec (.vxCommandComplete core) s = .next (completeCmd (vldsDeliver (vxReleased s core c) c) core c) := by
  show execVxCommandComplete core s = _
  rw [execVxCommandComplete, runEvent_modify, hc]
  dsimp only
  rw [if_neg (by rw [h]; decide)]
  congr 3
  unfold vxReleased Claims.released
  split
  · next hi hw =>
    rw [hi, hw]
    rfl
  · next hn =>
    split
    · next v hi =>
      split
      · split
        · next k l hw => exact absurd hw (hn v k l hi)
        · rfl
      · rfl
    · rfl

end

/-! ### The copy engines (R273, R281, R420) -/

/-- A copy command of a cancelled job that has started stops where it is. -/
def copyCut (s : State) (c : Cmd) : Bool := (s.job c.job).cancelled && c.started && (c.phase == .running || c.phase == .waiting)

theorem copyCut_iff (s : State) (c : Cmd) :
    copyCut s c = true ↔ (s.job c.job).cancelled = true ∧ c.started = true ∧ (c.phase = .running ∨ c.phase = .waiting) := by
  simp [copyCut, and_assoc]

/-- A copy command completes once its handler has a place. -/
def copyHands (s t : State) (core : Nat) (c : Cmd) : State :=
  match cpHandler t core c with
  | none => completeCmd t core c
  | some (i, a) =>
    match enterArrival t i a with
    | none => s
    | some w => completeCmd w core c

theorem copyHands_alone {s t : State} {core : Nat} {c : Cmd} (h : cpHandler t core c = none) : copyHands s t core c = completeCmd t core c := by
  rw [copyHands, h]

theorem copyHands_full {s t : State} {core i : Nat} {c : Cmd} {a : Arrival} (h : cpHandler t core c = some (i, a)) (he : enterArrival t i a = none) :
    copyHands s t core c = s := by
  rw [copyHands, h]
  dsimp only
  rw [he]

theorem copyHands_enters {s t w : State} {core i : Nat} {c : Cmd} {a : Arrival} (h : cpHandler t core c = some (i, a)) (he : enterArrival t i a = some w) :
    copyHands s t core c = completeCmd w core c := by
  rw [copyHands, h]
  dsimp only
  rw [he]

section
variable {s : State} {core : Nat} {co : Bool} {c : Cmd} (hc : headCmd (s.core core) (if co then 3 else 0) = some c)
include hc

theorem copyCommandComplete_eq : exec (.copyCommandComplete core co) s = .next (
    if (!copyCut s c && (c.phase != .running || c.busy)) = true then s
    else if c.rest ≠ .all ∨ copyCut s c = true then completeCmd s core c
    else copyHands s (cpRecord s c) core c) := by
  show execCopyCommandComplete core co s = _
  rw [execCopyCommandComplete, runEvent_modify, hc]
  rfl

theorem copyCommandComplete_waits (hcut : copyCut s c = false) (h : c.phase ≠ .running ∨ c.busy = true) :
    exec (.copyCommandComplete core co) s = .next s := by
  rw [copyCommandComplete_eq hc, if_pos]
  simpa [hcut] using h

theorem copyCommandComplete_ends (h : copyCut s c = true ∨ c.phase = .running ∧ c.busy = false ∧ c.rest ≠ .all) :
    exec (.copyCommandComplete core co) s = .next (completeCmd s core c) := by
  rw [copyCommandComplete_eq hc, if_neg, if_pos]
  · exact h.symm.imp (fun h => h.2.2) id
  · obtain hcut | ⟨hp, hb, -⟩ := h
    · simp [hcut]
    · simp [hp, hb]

theorem copyCommandComplete_hands (hcut : copyCut s c = false) (hp : c.phase = .running) (hb : c.busy = false) (hr : c.rest = .all) :
    exec (.copyCommandComplete core co) s = .next (copyHands s (cpRecord s c) core c) := by
  rw [copyCommandComplete_eq hc, if_neg, if_neg]
  · simp [hcut, hr]
  · simp [hp, hb]

end

/-! ### The generation engine (R338, R420) -/

/-- The values of a generation command come to cm0 to cm3 of its context. -/
def gxValues (s : State) (c : Cmd) : State :=
  if c.cfg = [] ∨ c.quiet = true ∨ c.rest ≠ .all then s
  else s.updCtx c.ctx fun x => { x with cm := Vector.ofFn fun i : Fin 4 => mapGet 0 c.cfg i.val }

section
variable {s : State} {core : Nat} {c : Cmd} (hc : headCmd (s.core core) 4 = some c)
include hc

theorem gxCommandComplete_eq : exec (.gxCommandComplete core) s = .next (
    if c.phase = .waiting ∧ (s.job c.job).cancelled = true then completeCmd s core { c with quiet := true }
    else if c.phase ≠ .running then s
    else completeCmd (gxValues s c) core c) := by
  show execGxCommandComplete core s = _
  rw [execGxCommandComplete, runEvent_modify, hc]
  rfl

theorem gxCommandComplete_cut (hp : c.phase = .waiting) (hj : (s.job c.job).cancelled = true) :
    exec (.gxCommandComplete core) s = .next (completeCmd s core { c with quiet := true }) := by
  rw [gxCommandComplete_eq hc, if_pos ⟨hp, hj⟩]

theorem gxCommandComplete_waits (hp : c.phase ≠ .running) (hj : ¬ (c.phase = .waiting ∧ (s.job c.job).cancelled = true)) :
    exec (.gxCommandComplete core) s = .next s := by
  rw [gxCommandComplete_eq hc, if_neg hj, if_pos hp]

theorem gxCommandComplete_running (hp : c.phase = .running) : exec (.gxCommandComplete core) s = .next (completeCmd (gxValues s c) core c) := by
  rw [gxCommandComplete_eq hc, if_neg (by rw [hp]; exact fun h => nomatch h.1), if_neg (by rw [hp]; decide)]

end

/-! ### Timelines and tokens (R213, R217) -/

/-- The finished commands at the front leave, and the timeline takes the number of the last of them. -/
theorem drainList_finished (l : List Cmd) {l' : List Cmd} {c : Cmd} (d : Nat) (h : ∀ x ∈ l, x.phase = .finished) (hc : c.phase ≠ .finished) :
    drainList (l ++ c :: l') d = (c :: l', (l.getLast?.map (·.num)).getD d) := by
  induction l generalizing d with
  | nil =>
    rw [List.nil_append, drainList, if_neg hc]
    rfl
  | cons x t ih =>
    rw [List.cons_append, drainList, if_pos (h x List.mem_cons_self), ih x.num fun y hy => h y (List.mem_cons_of_mem _ hy)]
    rw [List.getLast?_cons]
    cases t.getLast? with
    | none => rfl
    | some y => rfl

theorem getD_set!_toList {α : Type} {n : Nat} (v : Vector α n) {i j : Nat} (a d : α) (h : i < n) :
    (v.set! i a).toList.getD j d = if j = i then a else v.toList.getD j d := by
  by_cases hj : j < n
  · rw [List.getD_eq_getElem _ _ (by simpa using hj), List.getD_eq_getElem _ _ (by simpa using hj), Vector.getElem_toList, Vector.getElem_toList]
    by_cases hji : j = i
    · subst hji
      rw [if_pos rfl, Vector.getElem_set!_self hj]
    · rw [if_neg hji, Vector.getElem_set!_ne hj (Ne.symm hji)]
  · rw [List.getD_eq_default _ _ (by simpa using hj), List.getD_eq_default _ _ (by simpa using hj), if_neg (by omega)]

theorem tokens_setTokens (k : Core) {set i j : Nat} (n : Nat) (hs : set < 6) (hi : i < 8) :
    tokens (setTokens k set i n) set j = if j = i then n else tokens k set j := by
  rw [tokens, setTokens, getD_set!_toList _ _ _ hs, if_pos rfl, getD_set!_toList _ _ _ hi]
  rfl

section
variable {k : Core} {c : Cmd} (hq : c.q < 4) (hs : c.set < 6) (ht : c.tok = 0xF)
include hq hs ht

/-- A command with all four token bits pops one token of each of its pop FIFOs. -/
theorem tokens_popTokens (i : Nat) : tokens (popTokens k c) c.set i =
    if i = (c.q + 3) % 4 ∨ i = 4 + c.q then tokens k c.set i - 1 else tokens k c.set i := by
  unfold popTokens fifosOf
  dsimp only
  rw [if_neg (by omega), ht, if_pos (by decide), if_pos (by decide), tokens_setTokens _ _ hs (by omega), tokens_setTokens _ _ hs (by omega),
    tokens_setTokens _ _ hs (by omega)]
  grind

/-- A command with all four token bits pushes one token into each of its push FIFOs that has room. -/
theorem tokens_pushTokens (hf : ∀ i, i < 8 → tokens k c.set i < 8) {i : Nat} : tokens (pushTokens k c) c.set i =
    if i = c.q ∨ i = 4 + (c.q + 3) % 4 then tokens k c.set i + 1 else tokens k c.set i := by
  have hd := hf c.q (by omega)
  have hu := hf (4 + (c.q + 3) % 4) (by omega)
  unfold pushTokens fifosOf
  dsimp only
  rw [if_neg (by omega), ht, if_pos (by decide), if_pos (by decide), tokens_setTokens _ _ hs (by omega), tokens_setTokens _ _ hs (by omega),
    tokens_setTokens _ _ hs (by omega)]
  grind

end

/-! ### The four engines -/

theorem matrixCompletions (core tl : Nat) (c : Cmd) (s : State) (hc : (s.core core).cmd 1 tl = some c) (hq : c.q = 1) (h : MxDone s c) :
    (onArray c.instr = false ∨ c.rest ≠ .all → Claims.EndsSo (exec (.mxCommandComplete core tl) s) (mxReleased s core c) core c) ∧
    (onArray c.instr = true → c.rest = .all → ∃ w a, exec (.mxCommandComplete core tl) s =
        .next (w.updCore (c.runner.getD core) fun k => { k with array := a }) ∧ Claims.EndsSo (.next w) (mxReleased s core c) core c ∧ (a = 1 ∨ a = 2) ∧
        ((∀ before h, mxHead w (c.runner.getD core) = some (before, h) → onArray h.instr = false) → a = 1)) := by
  have hends := completeCmd_endsSo (mxReleased s core c) core (c := c) (by rw [hq]; decide)
  have hdone := mxCommandComplete_done hc h
  refine ⟨fun hport => ?_, fun harray hrest => ⟨_, arrayAfter _ _, ?_, hends, arrayAfter_cases .., arrayAfter_idle⟩⟩
  · rw [hdone, if_neg]
    · exact hends
    · simpa [imp_iff_not_or] using hport
  · rw [hdone, if_pos]
    simp [harray, hrest]

theorem copyCompletions (core : Nat) (co : Bool) (c : Cmd) (s : State) (hc : headCmd (s.core core) (if co then 3 else 0) = some c)
    (hq : c.q = (if co then 3 else 0)) :
    let cut := (s.job c.job).cancelled = true ∧ c.started = true ∧ (c.phase = .running ∨ c.phase = .waiting)
    (¬ cut → c.phase ≠ .running ∨ c.busy = true → exec (.copyCommandComplete core co) s = .next s) ∧
    (cut ∨ c.phase = .running ∧ c.busy = false ∧ c.rest ≠ .all → Claims.EndsSo (exec (.copyCommandComplete core co) s) s core c) ∧
    (¬ cut → c.phase = .running → c.busy = false → c.rest = .all →
      (cpHandler (cpRecord s c) core c = none → Claims.EndsSo (exec (.copyCommandComplete core co) s) (cpRecord s c) core c) ∧
      ∀ at_ a, cpHandler (cpRecord s c) core c = some (at_, a) →
        (enterArrival (cpRecord s c) at_ a = none → exec (.copyCommandComplete core co) s = .next s) ∧
        ∀ w, enterArrival (cpRecord s c) at_ a = some w → Claims.EndsSo (exec (.copyCommandComplete core co) s) w core c) := by
  have hq5 : c.q < 5 := by rw [hq]; split <;> decide
  have hnot {p : Prop} (h : ¬ p) (hp : copyCut s c = true ↔ p) : copyCut s c = false := Bool.eq_false_iff.mpr (mt hp.mp h)
  refine ⟨fun hcut => copyCommandComplete_waits hc (hnot hcut (copyCut_iff s c)), fun h => ?_, fun hcut hp hb hr => ?_⟩
  · rw [copyCommandComplete_ends hc (h.imp_left (copyCut_iff s c).mpr)]
    exact completeCmd_endsSo _ _ hq5
  · rw [copyCommandComplete_hands hc (hnot hcut (copyCut_iff s c)) hp hb hr]
    refine ⟨fun h => ?_, fun i a h => ⟨fun he => by rw [copyHands_full h he], fun w he => ?_⟩⟩
    · rw [copyHands_alone h]
      exact completeCmd_endsSo _ _ hq5
    · rw [copyHands_enters h he]
      exact completeCmd_endsSo _ _ hq5

/-- Settles O36: each engine's completion is the end that `completeCmd_endsSo` gives, in the state that the engine leaves. -/
theorem commandCompletions : Obligations.CommandCompletions := by
  refine ⟨fun core tl c s hc hq => ⟨mxCommandComplete_waits hc, matrixCompletions core tl c s hc hq⟩,
    fun core c s hc hq => ⟨vxCommandComplete_waits hc, fun hp => ?_⟩,
    copyCompletions,
    fun core c s hc hq => ⟨fun hp hj => ?_, gxCommandComplete_waits hc, fun hp => ?_⟩,
    fun l l' c d h hc => drainList_finished l d h hc,
    fun k c hq hs ht _ _ hf i hi => ⟨tokens_popTokens hq hs ht i, tokens_pushTokens hq hs ht hf⟩⟩
  · rw [vxCommandComplete_running hc hp]
    exact completeCmd_endsSo _ _ (by rw [hq]; decide)
  · rw [gxCommandComplete_cut hc hp hj]
    exact completeCmd_endsSo _ _ (by rw [hq]; decide)
  · rw [gxCommandComplete_running hc hp]
    exact completeCmd_endsSo _ _ (by rw [hq]; decide)

end Sys2Proof.Machine
end

section
/-! PROOFS. The start of a vector command (R217, R249, R265, R305, R460, R498): what stops it, and what it writes. -/

namespace Sys2Proof.Machine

/-! ### When it starts -/

section
variable {s : State} {core : Nat}

theorem vxCommandStart_none (h : vxNext s core = none) : exec (.vxCommandStart core) s = .next s := by
  show execVxCommandStart core s = _
  rw [execVxCommandStart, runEvent_modify, h]

variable {c : Cmd} (hc : vxNext s core = some c)
include hc

theorem vxCommandStart_waits (h : vxReady s core c = false) : exec (.vxCommandStart core) s = .next s := by
  show execVxCommandStart core s = _
  rw [execVxCommandStart, runEvent_modify, hc]
  dsimp only
  rw [if_neg (by rw [h]; decide)]

theorem vxCommandStart_starts (h : vxReady s core c = true) : exec (.vxCommandStart core) s = .next (vStart s core c) := by
  show execVxCommandStart core s = _
  rw [execVxCommandStart, runEvent_modify, hc]
  dsimp only
  rw [if_pos h]

end

/-! ### What the start leaves -/

/-- The tile with an uncorrectable error that a `vepi` releases (R498). -/
def vBadTile (k : Core) (c : Cmd) (wr : List Nat) : Option Nat :=
  match c.instr with
  | .vepi _ => wr.find? k.badTiles.contains
  | _ => none

theorem vBadTile_some {k : Core} {c : Cmd} {wr : List Nat} (h : (∃ v, c.instr = .vepi v) ∧ ∃ t ∈ wr, k.badTiles.contains t = true) :
    ∃ t, vBadTile k c wr = some t := by
  obtain ⟨⟨v, hv⟩, ht⟩ := h
  rw [vBadTile, hv]
  exact Option.isSome_iff_exists.mp (List.find?_isSome.mpr ht)

theorem vBadTile_none {k : Core} {c : Cmd} {wr : List Nat} (h : ¬ ((∃ v, c.instr = .vepi v) ∧ ∃ t ∈ wr, k.badTiles.contains t = true)) :
    vBadTile k c wr = none := by
  unfold vBadTile
  split
  · next v hv => exact List.find?_eq_none.mpr fun t ht hb => h ⟨⟨v, hv⟩, t, ht, hb⟩
  · rfl

section
variable {s : State} {core : Nat} {c : Cmd}

theorem vStart_retried (h : c.rest ≠ .all) : vStart s core c = putCmd (Claims.popped s core c) core (Claims.begun c) := if_pos h

variable (hr : c.rest = .all)
include hr

theorem vStart_noPlan {f : BitVec 8} {v : W64} (h : vPlan (Claims.popped s core c) core (Claims.begun c) = .error (f, v)) :
    vStart s core c = failCmd (Claims.popped s core c) core (Claims.begun c) f v := by
  refine (if_neg (not_not.mpr hr)).trans ?_
  rw [Claims.popped, Claims.begun] at h
  rw [h]
  rfl

variable {d : VDo} {wr : List Nat} {foot : List Foot} (h : vPlan (Claims.popped s core c) core (Claims.begun c) = .ok (d, wr, foot))
include h

theorem vStart_plan : vStart s core c =
    match vBadTile ((Claims.popped s core c).core core) c wr with
    | some t => failCmd { Claims.popped s core c with free := s.free + 1 } core { Claims.begun c with foot, wr } cPoison
        (tileNum { Claims.popped s core c with free := s.free + 1 } t)
    | none => match startTests (Claims.popped s core c) core { Claims.begun c with foot, wr } foot true with
      | some (f, v) => failCmd (Claims.popped s core c) core { Claims.begun c with foot, wr } f v
      | none => putCmd (vWrite (Claims.popped s core c) core d) core
          { Claims.begun c with foot, wr, done := c.total, vflags := c.vflags ||| d.fl, value := d.value } := by
  refine (if_neg (not_not.mpr hr)).trans ?_
  rw [Claims.popped, Claims.begun] at h
  rw [h]
  rfl

end

/-! ### What the writes leave alone -/

theorem popped_queue (s : State) (core : Nat) (c : Cmd) (p : Nat) : ((Claims.popped s core c).core core).queue p = (s.core core).queue p := by
  rw [Claims.popped, State.updCore, State.core_setCore_same, popTokens_eq]
  rfl

theorem putCmd_own_queue (s : State) (core : Nat) (c : Cmd) (h : c.q < 5) : ((putCmd s core c).core core).queue c.q =
    ((s.core core).queue c.q).map fun x => if x.num = c.num then c else x := by
  rw [putCmd, State.updCore, State.core_setCore_same, putCmd_queue _ _ _ h, if_pos rfl]

theorem foldl_writeNat_only (core : Nat) (l : List (Nat × Nat × Nat)) (s : State) :
    ∃ m, l.foldl (fun s (o, n, x) => writeNat s (sliceKey core o) n x) s = { s with mem := m } := by
  induction l generalizing s with
  | nil => exact ⟨_, rfl⟩
  | cons p t ih =>
    obtain ⟨m, hm⟩ := ih (writeNat s (sliceKey core p.1) p.2.1 p.2.2)
    exact ⟨m, by rw [List.foldl_cons, hm, writeNat_only]⟩

/-- A command's writes change memory and its core's function tables alone. -/
theorem vWrite_only (s : State) (core : Nat) (d : VDo) :
    (vWrite s core d).ctxs = s.ctxs ∧ ∃ tab, (vWrite s core d).core core = { s.core core with ftab := tab } := by
  obtain ⟨m, hm⟩ := foldl_writeNat_only core d.out s
  unfold vWrite
  rw [hm]
  split
  · exact ⟨rfl, _, State.core_setCore_same ..⟩
  · exact ⟨rfl, _, rfl⟩

/-- Settles O37: a start that is ready takes its tokens, and what follows is what `vStart_plan` gives. -/
theorem vectorStarts : Obligations.VectorStarts := by
  refine fun core s => ⟨vxCommandStart_none, fun c hc hq => ⟨vxCommandStart_waits hc, fun hready => ?_⟩⟩
  have hq5 : c.q < 5 := by rw [hq]; decide
  rw [vxCommandStart_starts hc hready]
  refine ⟨fun hr => by rw [vStart_retried hr], fun hr => ⟨fun f v hp => ⟨_, rfl, ?_⟩, fun d wr foot hp => ⟨fun hbad => ?_, fun hgood => ⟨fun f v ht => ?_, fun ht => ?_⟩⟩⟩⟩
  · rw [vStart_noPlan hr hp]
    exact failCmd_failed _ _ _ _ hq5
  · obtain ⟨t, ht⟩ := vBadTile_some hbad
    rw [vStart_plan hr hp, ht]
    exact ⟨_, _, rfl, failCmd_failed _ _ _ _ hq5⟩
  · rw [vStart_plan hr hp, vBadTile_none hgood]
    dsimp only
    rw [ht]
    exact ⟨_, rfl, failCmd_failed _ _ _ _ hq5⟩
  · rw [vStart_plan hr hp, vBadTile_none hgood]
    dsimp only
    rw [ht]
    obtain ⟨hctxs, tab, hcore⟩ := vWrite_only (Claims.popped s core c) core d
    have hqueue : ((vWrite (Claims.popped s core c) core d).core core).queue 2 = (s.core core).queue 2 := by
      rw [hcore, ← popped_queue s core c]
      rfl
    refine ⟨_, rfl, rfl, hctxs, ?_⟩
    rw [← hqueue, ← hq]
    exact putCmd_own_queue _ _ _ hq5

end Sys2Proof.Machine
end

section
/-! PROOFS. The tile-port instructions when they run (R218, R219, R221, R233 to R239): what each leaves of the matrix state and of memory. -/

namespace Sys2Proof.Machine

@[simp] theorem updMx_mem (s : State) (core : Nat) (f : Mx → Mx) : (updMx s core f).mem = s.mem := rfl

@[simp] theorem updMx_mx (s : State) (core : Nat) (f : Mx → Mx) : ((updMx s core f).core core).mx = f (s.core core).mx := by
  rw [updMx, State.updCore, State.core_setCore_same]

theorem numC_lt (e : EArgs) : numC e < 8 := Nat.mod_lt _ (by decide)

theorem storeBytes_mem (s : State) (k : Nat) (l : List Byte) : (storeBytes s k l).mem = (writeBytes s k l).mem := clearPoison_mem ..

theorem storeBytes_only (s : State) (k : Nat) (l : List Byte) :
    storeBytes s k l = { s with mem := (storeBytes s k l).mem, poison := (storeBytes s k l).poison } := by
  rw [storeBytes, clearPoison_eq, writeBytes_eq]

theorem storeBytes_core (s : State) (k : Nat) (l : List Byte) (j : Nat) : (storeBytes s k l).core j = s.core j := by
  rw [storeBytes_only]
  rfl

/-! ### The configuration (R221, R239) -/

/-- The part of the configuration in which word i stands (R239): a bit of fn. -/
def cfgPart (i : Nat) : Nat := if i < 2 then 0 else if i < 14 then 1 else 2 + (i - 14) / 4

/-- A word at a time, the words below n whose part is named are replaced. -/
theorem mapGet_fold_named (named : Nat → Bool) (w : Nat → W64) (m : List (Nat × W64)) (n i : Nat) :
    mapGet 0 ((List.range n).foldl (fun l j => if named j = true then mapSet 0 l j (w j) else l) m) i =
      if i < n ∧ named i = true then w i else mapGet 0 m i := by
  induction n with
  | zero => rfl
  | succ n ih =>
    rw [List.range_succ, List.foldl_append, List.foldl_cons, List.foldl_nil]
    by_cases hn : named n = true
    · rw [if_pos hn, mapGet_mapSet, ih]
      by_cases hi : i = n
      · rw [if_pos hi, hi, if_pos ⟨Nat.lt_succ_self n, hn⟩]
      · rw [if_neg hi]
        exact if_congr (and_congr_left fun _ => by omega) rfl rfl
    · rw [if_neg hn, ih]
      refine if_congr (and_congr_left fun h => ⟨Nat.lt_succ_of_lt, fun hi => ?_⟩) rfl rfl
      have hne : i ≠ n := fun e => hn (e ▸ h)
      omega

section
variable {e : EArgs} {s : State} {core : Nat} {c : Cmd}

theorem mxEffect_mcfgr (h : c.instr = .mcfgr e) : mxEffect s core core c =
    .ok (updMx s core fun m => { m with shadow := mapSet 0 m.shadow (e.fn.extractLsb' 0 6).toNat (c.vals.getD 0 0) }, 0) := by
  unfold mxEffect
  rw [h]

theorem mxEffect_mcfg (h : c.instr = .mcfg e) : mxEffect s core core c =
    .ok (updMx s core fun m => { m with shadow := (List.range 46).foldl (fun l i =>
      if e.fn.getLsbD (cfgPart i) = true then mapSet 0 l i (sliceW s core ((c.vals.getD 0 0).toNat + 8 * i)) else l) m.shadow }, 0) := by
  unfold mxEffect
  rw [h]
  rfl

/-! ### Tile registers (R218, R237) -/

theorem mxEffect_zclrE (h : c.instr = .zclrE e) : mxEffect s core core c =
    .ok (updMx s core fun m => { m with z := m.z.set! (numC e) { (m.z.toList.getD (numC e) {}) with full := false } }, 0) := by
  unfold mxEffect
  rw [h]

theorem mxEffect_zclrZ (h : c.instr = .zclrZ e) : mxEffect s core core c =
    .ok (updMx s core fun m => { m with z := m.z.set! (numC e) { full := true } }, 0) := by
  unfold mxEffect
  rw [h]

theorem mxEffect_zld (h : c.instr = .zld e) : mxEffect s core core c =
    .ok (updMx s core fun m => { m with z := m.z.set! (numC e) { full := true, img :=
      (readRows s (descStream core (c.vals.getD 0 0) (c.vals.getD 1 0)) (descBase (c.vals.getD 0 0)) (descRows (c.vals.getD 1 0)) (zLen e)).flatMap id } }, 0) := by
  unfold mxEffect
  rw [h]
  rfl

/-! ### Accumulators (R219, R235, R236) -/

theorem mxEffect_acz (h : c.instr = .acz e) : mxEffect s core core c =
    .ok (updMx { s with free := s.free + 1 } core fun m => aczMx m (numC e) (s.free + 1), 0) := by
  unfold mxEffect
  rw [h]

theorem mxEffect_acmvSt (h : c.instr = .acmvSt e) : mxEffect s core core c =
    .ok (storeBytes s (sliceKey core (c.vals.getD 0 0).toNat) ((accElems (oldestTile (s.core core).mx (numC e))).flatMap s64Bytes), 0) := by
  unfold mxEffect
  rw [h]

end

theorem accTiles_setAcc (m : Mx) {a : Nat} (l : List AccTile) (h : a < 8) : accTiles (setAcc m a l) a = l := by
  rw [accTiles, setAcc, getQ_set _ _ _ _ h, if_pos rfl]

theorem accTiles_aczMx (m : Mx) (a id : Nat) (h : a < 8) :
    accTiles (aczMx m a id) a = if (newestTile m a).isOpen then accTiles m a ++ [{ id := id }] else accTiles m a := by
  rw [aczMx]
  split
  · exact accTiles_setAcc _ _ h
  · rfl

/-- Settles O39: the effect of each tile-port instruction, as it stands in the matrix state. -/
theorem tileEffects : Obligations.TileEffects := by
  refine fun e s core c => ⟨fun h => ⟨_, mxEffect_mcfgr h, rfl, fun i => ?_⟩, fun h => ⟨_, mxEffect_mcfg h, rfl, fun i => ?_⟩,
    fun h => ⟨_, mxEffect_zclrE h, rfl, ?_⟩, fun h => ⟨_, mxEffect_zclrZ h, rfl, ?_⟩, fun h => ⟨_, mxEffect_zld h, rfl, ?_⟩,
    fun h => ⟨_, mxEffect_acz h, rfl, ?_⟩, fun h => ⟨_, mxEffect_acmvSt h, ?_, storeBytes_mem ..⟩⟩
  · rw [updMx_mx]
    exact mapGet_mapSet ..
  · rw [updMx_mx]
    exact mapGet_fold_named (fun i => e.fn.getLsbD (cfgPart i)) (fun i => sliceW s core ((c.vals.getD 0 0).toNat + 8 * i)) _ 46 i
  · rw [updMx_mx]
  · rw [updMx_mx]
  · rw [updMx_mx]
    rfl
  · rw [updMx_mx]
    exact accTiles_aczMx _ _ _ (numC_lt e)
  · rw [storeBytes_core]

end Sys2Proof.Machine
end

section
/-! PROOFS. The start of a matrix command (R213 to R219, R221, R226, R230, R243, R305, R378, R498): the array's start token, what a start on the owner's
own resource leaves, and which command starts. -/

namespace Sys2Proof.Machine

/-! ### The start token (R243, R378) -/

/-- From s to u the array of a core has gone busy; memory, the contexts and the other cores stand. -/
def ArrayGoesBusy (s u : State) (core : Nat) : Prop :=
  u.mem = s.mem ∧ u.ctxs = s.ctxs ∧ ∀ j, u.core j = if j = core then { s.core j with array := 2 } else s.core j

theorem arrayGoesBusy_updCore {s v : State} (core : Nat) (hm : v.mem = s.mem) (hx : v.ctxs = s.ctxs) (hk : v.cores = s.cores) :
    ArrayGoesBusy s (v.updCore core fun k => { k with array := 2 }) core := by
  have hc (j : Nat) : v.core j = s.core j := by unfold State.core; rw [hk]
  refine ⟨hm, hx, fun j => ?_⟩
  rw [State.updCore, State.core_setCore, hc, hc]
  split
  · next h => rw [h]
  · rfl

theorem ArrayGoesBusy.own {s u : State} {core : Nat} (h : ArrayGoesBusy s u core) : u.core core = { s.core core with array := 2 } := by
  rw [h.2.2, if_pos rfl]

/-- A start that finds the array idle takes a token of the die's bucket. -/
def tokenTaken (s : State) (core : Nat) : State :=
  ({ s with free := s.free + 1 }.setDie (core / 128) { s.die (core / 128) with bucket := (s.die (core / 128)).bucket - 1 }).updCore core fun k =>
    { k with array := 2 }

theorem tokenTaken_busy (s : State) (core : Nat) : ArrayGoesBusy s (tokenTaken s core) core := arrayGoesBusy_updCore core rfl rfl rfl

theorem tokenTaken_bucket (s : State) (core d : Nat) :
    ((tokenTaken s core).die d).bucket = if d = core / 128 then (s.die d).bucket - 1 else (s.die d).bucket := by
  rw [tokenTaken, State.updCore, State.die_setCore, State.die_setDie]
  split
  · next h => rw [h]
  · rfl

section
variable {s : State} {core : Nat}

theorem arrayToken_running (h : (s.core core).array = 2) : arrayToken s core = some s := if_pos h

theorem arrayToken_idle (h : (s.core core).array = 0) :
    arrayToken s core = if (s.die (core / 128)).bucket = 0 then none else some (tokenTaken s core) := by
  unfold arrayToken
  dsimp only
  rw [if_neg (by rw [h]; decide), if_neg (by rw [h]; exact fun h => nomatch h.1)]
  rfl

/-- An array in ballast may need a token or not: a start waits only where the bucket is empty. -/
theorem arrayToken_ballast (h : (s.core core).array = 1) :
    arrayToken s core = none ∧ (s.die (core / 128)).bucket = 0 ∨ ∃ u, arrayToken s core = some u ∧ ArrayGoesBusy s u core := by
  unfold arrayToken
  dsimp only
  rw [if_neg (by rw [h]; decide)]
  split
  · exact .inr ⟨_, rfl, arrayGoesBusy_updCore core rfl rfl rfl⟩
  · by_cases hb : (s.die (core / 128)).bucket = 0
    · exact .inl ⟨if_pos hb, hb⟩
    · exact .inr ⟨tokenTaken s core, if_neg hb, tokenTaken_busy s core⟩

end

/-! ### What a start leaves (R213 to R226, R305, R498) -/

/-- The state in which a start fails: the command is recorded, and an array that it stood on goes idle. -/
def mxGivenUp (s : State) (core : Nat) (c : Cmd) (array : Bool) : State :=
  if array then (putCmd s core c).updCore core fun k => { k with array := 1 } else putCmd s core c

/-- The start of an `mgo` whose tiles have no error: the configuration, the plan and the races of its footprint, then the nest. -/
def mxNestStart (s : State) (core : Nat) (c : Cmd) : State :=
  let y := takeConfig s core c
  match planOf y.1 core y.2 with
  | none => failCmd (mxGivenUp y.1 core y.2 true) core y.2 cEngine ((cfgBad y.1 y.2).getD 0)
  | some p =>
    let g := { y.2 with foot := mxFoot core (y.1.core core).mx y.2 (some p), total := p.steps }
    match startRace y.1 core g g.foot with
    | some (f, v) => failCmd (mxGivenUp y.1 core g true) core { g with first := p.index g.done } f v
    | none => mxNest (putCmd y.1 core g) core core g p

/-- The start of another command whose tiles have no error: the tests of its footprint, then its effect. -/
def mxPlainStart (s : State) (core : Nat) (c : Cmd) : State :=
  let g := { c with foot := mxFoot core (s.core core).mx c none }
  match startTests s core g g.foot true with
  | some (f, v) => failCmd (mxGivenUp s core g (onArray g.instr)) core g f v
  | none => match mxEffect s core core g with
    | .error (r, f, v) => failCmd (mxGivenUp r core g (onArray g.instr)) core g f v
    | .ok (r, fl) =>
      let w := match c.instr with
        | .acz e => [tileKey (numC e) (newestTile (r.core core).mx (numC e)).id]
        | _ => c.wr
      mendTiles (putCmd r core { g with done := 1, mflags := c.mflags ||| fl, wr := w }) core { g with done := 1, mflags := c.mflags ||| fl, wr := w } w

/-- A command with what it reads and writes among the tiles. -/
def mxTouched (s : State) (core : Nat) (c : Cmd) : Cmd := { c with rd := (touches (s.core core).mx c).1, wr := (touches (s.core core).mx c).2 }

/-- The start of a command once its tokens are popped and its task is open. -/
def mxOpened (s : State) (core : Nat) (c : Cmd) : State :=
  if c.rest ≠ .all then putCmd s core c
  else
    let x := touches (s.core core).mx c
    let b := { c with rd := x.1, wr := x.2 }
    match badTile (s.core core) b (x.1 ++ x.2) with
    | some k => failCmd (mxGivenUp { s with free := s.free + 1 } core b (onArray b.instr)) core b cPoison (tileNum { s with free := s.free + 1 } k)
    | none => match c.instr with
      | .mgo _ => mxNestStart s core b
      | _ => mxPlainStart s core b

/-- The task of a command that starts on its owner's own resource. -/
def mxTask (s : State) (core : Nat) (h : Cmd) : State × Cmd :=
  openTask (Claims.popped s core h) core { Claims.begun h with runner := none }

theorem mxStart_eq (s : State) (core : Nat) (h : Cmd) : mxStart s core core h = mxOpened (mxTask s core h).1 core (mxTask s core h).2 := by
  unfold mxStart
  dsimp only
  rw [if_pos rfl]
  rfl

theorem openTask_cmd (s : State) (core : Nat) (c : Cmd) : ∃ b, (openTask s core c).2 = { c with fresh := b } := by
  unfold openTask
  split
  · exact ⟨_, rfl⟩
  · exact ⟨_, rfl⟩

theorem openTask_state (s : State) (core : Nat) (c : Cmd) : (openTask s core c).1.mem = s.mem ∧ (openTask s core c).1.ctxs = s.ctxs := by
  unfold openTask
  split
  · exact ⟨rfl, rfl⟩
  · exact ⟨rfl, rfl⟩

theorem mxTask_cmd (s : State) (core : Nat) (h : Cmd) : ∃ b, (mxTask s core h).2 = { Claims.begun h with runner := none, fresh := b } :=
  openTask_cmd ..

theorem takeConfig_cmd (s : State) (core : Nat) (c : Cmd) : ∃ cfg, (takeConfig s core c).2 = { c with cfg } := by
  unfold takeConfig
  split
  · exact ⟨_, rfl⟩
  · exact ⟨_, rfl⟩

section
variable {s : State} {core : Nat} {c : Cmd}

theorem mxOpened_retried (h : c.rest ≠ .all) : mxOpened s core c = putCmd s core c := if_pos h

section
variable (hr : c.rest = .all)
include hr

theorem mxOpened_badTile {k : Nat} (h : badTile (s.core core) (mxTouched s core c) ((touches (s.core core).mx c).1 ++ (touches (s.core core).mx c).2) = some k) :
    ∃ a, mxOpened s core c =
      failCmd (mxGivenUp { s with free := s.free + 1 } core (mxTouched s core c) (onArray c.instr)) core (mxTouched s core c) cPoison a := by
  refine ⟨tileNum { s with free := s.free + 1 } k, ?_⟩
  rw [mxTouched] at h
  rw [mxOpened, if_neg (not_not.mpr hr)]
  dsimp only
  rw [h]
  rfl

variable (h : badTile (s.core core) (mxTouched s core c) ((touches (s.core core).mx c).1 ++ (touches (s.core core).mx c).2) = none)
include h

theorem mxOpened_nest {e : EArgs} (hi : c.instr = .mgo e) : mxOpened s core c = mxNestStart s core (mxTouched s core c) := by
  rw [mxTouched] at h
  rw [mxOpened, if_neg (not_not.mpr hr)]
  dsimp only
  rw [h]
  dsimp only
  split
  · rfl
  · next hn => exact absurd hi (hn e)

theorem mxOpened_plain (hi : ∀ e, c.instr ≠ .mgo e) : mxOpened s core c = mxPlainStart s core (mxTouched s core c) := by
  rw [mxTouched] at h
  rw [mxOpened, if_neg (not_not.mpr hr)]
  dsimp only
  rw [h]
  dsimp only
  split
  · next e he => exact absurd he (hi e)
  · rfl

end

/-- A command with the footprint of its tiles and operands. -/
def mxDeclared (s : State) (core : Nat) (c : Cmd) : Cmd := { c with foot := mxFoot core (s.core core).mx c none }

section
variable {f : BitVec 8} {v : W64}

theorem mxPlainStart_tests (h : startTests s core (mxDeclared s core c) (mxDeclared s core c).foot true = some (f, v)) :
    mxPlainStart s core c = failCmd (mxGivenUp s core (mxDeclared s core c) (onArray c.instr)) core (mxDeclared s core c) f v := by
  rw [mxPlainStart]
  dsimp only
  rw [mxDeclared] at h
  rw [h]
  rfl

variable (h : startTests s core (mxDeclared s core c) (mxDeclared s core c).foot true = none)
include h

theorem mxPlainStart_fails {r : State} (he : mxEffect s core core (mxDeclared s core c) = .error (r, f, v)) :
    mxPlainStart s core c = failCmd (mxGivenUp r core (mxDeclared s core c) (onArray c.instr)) core (mxDeclared s core c) f v := by
  rw [mxPlainStart]
  dsimp only
  rw [mxDeclared] at h he
  rw [h]
  dsimp only
  rw [he]
  rfl

theorem mxPlainStart_performs {r : State} {fl : W64} (he : mxEffect s core core (mxDeclared s core c) = .ok (r, fl)) :
    ∃ d w, mxPlainStart s core c = mendTiles (putCmd r core d) core d w := by
  rw [mxDeclared] at h he
  rw [mxPlainStart]
  dsimp only
  rw [h]
  dsimp only
  rw [he]
  exact ⟨_, _, rfl⟩

end

/-- An `mgo` with its footprint and the steps of its plan. -/
def nestDeclared (s : State) (core : Nat) (c : Cmd) (p : Plan) : Cmd := { c with foot := mxFoot core (s.core core).mx c (some p), total := p.steps }

section
variable {y : State × Cmd} (hy : takeConfig s core c = y)
include hy

theorem mxNestStart_noPlan (h : planOf y.1 core y.2 = none) : ∃ a, mxNestStart s core c = failCmd (mxGivenUp y.1 core y.2 true) core y.2 cEngine a := by
  refine ⟨(cfgBad y.1 y.2).getD 0, ?_⟩
  rw [mxNestStart, hy]
  dsimp only
  rw [h]

variable {p : Plan} (h : planOf y.1 core y.2 = some p)
include h

theorem mxNestStart_races {f : BitVec 8} {v : W64}
    (hr : startRace y.1 core (nestDeclared y.1 core y.2 p) (nestDeclared y.1 core y.2 p).foot = some (f, v)) :
    mxNestStart s core c = failCmd (mxGivenUp y.1 core (nestDeclared y.1 core y.2 p) true) core
      { nestDeclared y.1 core y.2 p with first := p.index (nestDeclared y.1 core y.2 p).done } f v := by
  rw [nestDeclared] at hr
  rw [mxNestStart, hy]
  dsimp only
  rw [h]
  dsimp only
  rw [hr]
  rfl

theorem mxNestStart_runs (hr : startRace y.1 core (nestDeclared y.1 core y.2 p) (nestDeclared y.1 core y.2 p).foot = none) :
    mxNestStart s core c = mxNest (putCmd y.1 core (nestDeclared y.1 core y.2 p)) core core (nestDeclared y.1 core y.2 p) p := by
  rw [nestDeclared] at hr
  rw [mxNestStart, hy]
  dsimp only
  rw [h]
  dsimp only
  rw [hr]
  rfl

end

end

/-- A mended tile changes the record of its core's errors alone. -/
theorem mendTiles_only (s : State) (core : Nat) (c : Cmd) (w : List Nat) : (mendTiles s core c w).mem = s.mem ∧ (mendTiles s core c w).ctxs = s.ctxs ∧
    ((mendTiles s core c w).core core).mx = (s.core core).mx := by
  have hkeep (l : List Nat) : ((s.updCore core fun k => { k with badTiles := l }).core core).mx = (s.core core).mx := by
    rw [State.updCore, State.core_setCore_same]
  unfold mendTiles
  split
  · exact ⟨rfl, rfl, hkeep _⟩
  · exact ⟨rfl, rfl, hkeep _⟩
  · exact ⟨rfl, rfl, rfl⟩

theorem putCmd_mx (s : State) (core : Nat) (c : Cmd) : ((putCmd s core c).core core).mx = (s.core core).mx := by
  rw [putCmd, State.updCore, State.core_setCore_same]
  rfl

/-- The start of a matrix command on its owner's own array or tile port. -/
theorem mxStart_runs (s : State) (core : Nat) {h : Cmd} (hq : h.q = 1) : Claims.MxRuns s (mxStart s core core h) core h := by
  rw [mxStart_eq]
  obtain ⟨o, ho⟩ : ∃ o, o = mxTask s core h := ⟨_, rfl⟩
  obtain ⟨b, hb⟩ := mxTask_cmd s core h
  have hi : o.2.instr = h.instr := by rw [ho, hb]; rfl
  have hrest : o.2.rest = h.rest := by rw [ho, hb]; rfl
  have hoq : o.2.q < 5 := by
    rw [ho, hb]
    show h.q < 5
    rw [hq]; decide
  have htaken (c : Cmd) (hc : c.q < 5) : (takeConfig o.1 core c).2.q < 5 := by
    obtain ⟨cfg, hcfg⟩ := takeConfig_cmd o.1 core c
    rw [hcfg]
    exact hc
  have hgive {e : EArgs} (hm : o.2.instr = .mgo e) (v : State) (g : Cmd) : mxGivenUp v core g true = mxGivenUp v core g (onArray o.2.instr) := by
    rw [hm]
    rfl
  unfold Claims.MxRuns
  rw [show openTask (Claims.popped s core h) core { Claims.begun h with runner := none } = o from ho.symm, ← ho, ← hi, ← hrest]
  refine ⟨fun hr => mxOpened_retried hr, fun hr => ⟨fun k hk => ?_, fun hk => ⟨fun hn => ⟨fun f a ht => ?_, fun ht => ⟨fun r f a he => ?_, fun r fl he => ?_⟩⟩,
    fun ⟨e, hm⟩ => ⟨fun hp => ?_, fun p hp => ⟨fun f a hrace => ?_, fun hrace => ?_⟩⟩⟩⟩⟩
  · obtain ⟨a, ha⟩ := mxOpened_badTile hr hk
    exact ⟨a, by rw [ha]; exact failCmd_failed _ _ _ _ hoq⟩
  · rw [mxOpened_plain hr hk hn, mxPlainStart_tests (c := mxTouched o.1 core o.2) ht]
    exact failCmd_failed _ _ _ _ hoq
  · rw [mxOpened_plain hr hk hn, mxPlainStart_fails (c := mxTouched o.1 core o.2) ht he]
    exact failCmd_failed _ _ _ _ hoq
  · obtain ⟨d, w, hd⟩ := mxPlainStart_performs (c := mxTouched o.1 core o.2) ht he
    rw [mxOpened_plain hr hk hn, hd]
    obtain ⟨hmem, hctxs, hmx⟩ := mendTiles_only (putCmd r core d) core d w
    exact ⟨hmem, hctxs, hmx.trans (putCmd_mx ..)⟩
  · obtain ⟨a, ha⟩ := mxNestStart_noPlan (c := mxTouched o.1 core o.2) rfl hp
    refine ⟨a, ?_⟩
    rw [mxOpened_nest hr hk hm, ha, hgive hm]
    exact failCmd_failed _ _ _ _ (htaken (mxTouched o.1 core o.2) hoq)
  · rw [mxOpened_nest hr hk hm, mxNestStart_races (c := mxTouched o.1 core o.2) rfl hp hrace, hgive hm]
    exact failCmd_failed _ _ _ _ (htaken (mxTouched o.1 core o.2) hoq)
  · rw [mxOpened_nest hr hk hm, mxNestStart_runs (c := mxTouched o.1 core o.2) rfl hp hrace]
    rfl

/-! ### Which command starts (R213, R215, R219, R243, R378) -/

/-- The accumulator that a nest appends to. -/
def nestAcc (c : Cmd) : Nat :=
  match c.instr with
  | .mgo e => numC e
  | _ => 0

/-- A nest that waits for a physical tile can go on. -/
def nestGoes (s : State) (core : Nat) (c : Cmd) : Bool :=
  !stopServing s c && !(s.job c.job).cancelled && roomAcz (s.core core).mx (nestAcc c) && roomWrite (s.core core).mx (nestAcc c)

/-- The start of the head of a matrix queue, where it may start. -/
def mxHeadStart (s : State) (core : Nat) : State :=
  match mxHead s core with
  | none => s
  | some (before, h) =>
    if (isRrot h.instr && h.rest == .all) || !mxReady s core core before h || heldFoot s (footNow s core h) then s
    else if onArray h.instr && h.rest == .all then
      match arrayToken s core with
      | none => s
      | some u => mxStart u core core h
    else mxStart s core core h

section
variable {s : State} {core : Nat}

theorem mxCommandStart_eq (s : State) (core : Nat) : exec (.mxCommandStart core) s =
    .next (((stalledNest s core).filter (nestGoes s core)).elim (mxHeadStart s core) (mxResume s core)) := by
  show execMxCommandStart core s = _
  rw [execMxCommandStart, runEvent_modify]
  dsimp only
  show Host.Outcome.next (match (stalledNest s core).filter (nestGoes s core) with | some c => mxResume s core c | none => mxHeadStart s core) = _
  cases (stalledNest s core).filter (nestGoes s core) with
  | none => rfl
  | some c => rfl

theorem mxCommandStart_resumes {c : Cmd} (hc : stalledNest s core = some c) (h : nestGoes s core c = true) :
    exec (.mxCommandStart core) s = .next (mxResume s core c) := by
  rw [mxCommandStart_eq, hc, Option.filter_some, if_pos h]
  rfl

theorem mxCommandStart_heads (h : ∀ c, stalledNest s core = some c → nestGoes s core c = false) :
    exec (.mxCommandStart core) s = .next (mxHeadStart s core) := by
  rw [mxCommandStart_eq, Option.filter_eq_none_iff.mpr fun c hc => by rw [h c hc]; decide]
  rfl

theorem mxHeadStart_none (h : mxHead s core = none) : mxHeadStart s core = s := by rw [mxHeadStart, h]

section
variable {before : List Cmd} {h : Cmd} (hh : mxHead s core = some (before, h))
include hh

theorem mxHeadStart_waits (hw : isRrot h.instr = true ∧ h.rest = .all ∨ mxReady s core core before h = false ∨ heldFoot s (footNow s core h) = true) :
    mxHeadStart s core = s := by
  rw [mxHeadStart, hh]
  dsimp only
  rw [if_pos]
  simpa [or_assoc] using hw

variable (hring : ¬ (isRrot h.instr = true ∧ h.rest = .all)) (hready : mxReady s core core before h = true)
  (hheld : heldFoot s (footNow s core h) = false)
include hring hready hheld

theorem mxHeadStart_ready : mxHeadStart s core =
    if onArray h.instr && h.rest == .all then
      match arrayToken s core with
      | none => s
      | some u => mxStart u core core h
    else mxStart s core core h := by
  rw [mxHeadStart, hh]
  dsimp only
  rw [if_neg]
  simpa [hready, hheld] using hring

theorem mxHeadStart_port (hp : onArray h.instr = false ∨ h.rest ≠ .all) : mxHeadStart s core = mxStart s core core h := by
  rw [mxHeadStart_ready hh hring hready hheld, if_neg]
  simpa [imp_iff_not_or] using hp

variable (harray : onArray h.instr = true) (hrest : h.rest = .all)
include harray hrest

theorem mxHeadStart_noToken (ht : arrayToken s core = none) : mxHeadStart s core = s := by
  rw [mxHeadStart_ready hh hring hready hheld, if_pos (by simp [harray, hrest]), ht]

theorem mxHeadStart_token {u : State} (ht : arrayToken s core = some u) : mxHeadStart s core = mxStart u core core h := by
  rw [mxHeadStart_ready hh hring hready hheld, if_pos (by simp [harray, hrest]), ht]

end

end

theorem matrixHeads : Claims.MatrixHeads := by
  refine fun core s => ⟨fun c hc hg => mxCommandStart_resumes hc hg, fun hstall => ?_⟩
  rw [mxCommandStart_heads hstall]
  refine ⟨fun hn => by rw [mxHeadStart_none hn], fun before h hh hq => ⟨fun hw => by rw [mxHeadStart_waits hh hw], fun hring hready hheld =>
    ⟨fun harray hrest hidle => ⟨fun hb => ?_, fun hb => ?_⟩, fun harray hrest hrun => ?_, fun harray hrest hballast hb => ?_, fun hp => ?_⟩⟩⟩
  · rw [mxHeadStart_noToken hh hring hready hheld harray hrest (by rw [arrayToken_idle hidle, if_pos hb])]
  · have hbusy := tokenTaken_busy s core
    have ⟨hmem, hctxs, _⟩ := hbusy
    rw [mxHeadStart_token hh hring hready hheld harray hrest (by rw [arrayToken_idle hidle, if_neg hb])]
    exact ⟨_, _, rfl, mxStart_runs _ _ hq, hbusy.own, hmem, hctxs, tokenTaken_bucket s core⟩
  · rw [mxHeadStart_token hh hring hready hheld harray hrest (arrayToken_running hrun)]
    exact ⟨_, rfl, mxStart_runs _ _ hq⟩
  · obtain ⟨-, hempty⟩ | ⟨u, hu, hbusy⟩ := arrayToken_ballast hballast
    · exact absurd hempty hb
    · have ⟨hmem, hctxs, _⟩ := hbusy
      rw [mxHeadStart_token hh hring hready hheld harray hrest hu]
      exact ⟨_, _, rfl, mxStart_runs _ _ hq, hbusy.own, hmem, hctxs⟩
  · rw [mxHeadStart_port hh hring hready hheld hp]
    exact ⟨_, rfl, mxStart_runs _ _ hq⟩

end Sys2Proof.Machine
end

section
/-! PROOFS. The events of the arrays (R230, R240, R241, R378): the refill of start tokens, the relocation of a nest to a sibling, and the `rrot`s of a
cluster. -/

namespace Sys2Proof.Machine

/-! ### Refill and relocation (R230, R378) -/

theorem startTokenRefill_fills (die : Nat) (s : State) : ∃ t, exec (.startTokenRefill die) s = .next t ∧ t = { s with dies := t.dies } ∧
    ∀ d, t.die d = if d = die then { s.die d with bucket := min 8 ((s.die d).bucket + 1) } else s.die d := by
  refine ⟨_, rfl, rfl, fun d => ?_⟩
  refine (State.die_setDie ..).trans ?_
  split
  · next h => rw [h]
  · rfl

/-- Core i is nearer to the owner than core j on the ring of their cluster, or as near and lower. -/
abbrev RingNearer (owner i j : Nat) : Prop := ringDist owner i < ringDist owner j ∨ ringDist owner i = ringDist owner j ∧ i < j

/-- A sibling may run the head of an owner's queue, and no nearer sibling may. -/
def Relocatable (s : State) (owner sibling : Nat) (before : List Cmd) (h : Cmd) : Prop :=
  mayTake s owner sibling h = true ∧ (∀ i, i < 8 → mayTake s owner (owner / 8 * 8 + i) h = true → ¬ RingNearer owner (owner / 8 * 8 + i) sibling) ∧
    mxReady s owner sibling before h = true ∧ heldFoot s (footNow s owner h) = false

theorem relocatable_iff (s : State) (owner sibling : Nat) (before : List Cmd) (h : Cmd) :
    (!mayTake s owner sibling h || ((List.range 8).any fun i => decide (RingNearer owner (owner / 8 * 8 + i) sibling) && mayTake s owner (owner / 8 * 8 + i) h) ||
      !mxReady s owner sibling before h || heldFoot s (footNow s owner h)) = false ↔ Relocatable s owner sibling before h := by
  simp only [Relocatable, Bool.or_eq_false_iff, Bool.not_eq_false', List.any_eq_false, List.mem_range, Bool.and_eq_true, decide_eq_true_eq, and_assoc]
  refine and_congr_right fun _ => and_congr_left fun _ => forall₂_congr fun i _ => ?_
  exact ⟨fun hn ht hr => hn ⟨hr, ht⟩, fun hn ⟨hr, ht⟩ => hn ht hr⟩

section
variable {s : State} {owner sibling : Nat}

theorem mgoRelocation_none (h : mxHead s owner = none) : exec (.mgoRelocation owner sibling) s = .next s := by
  show execMgoRelocation owner sibling s = _
  rw [execMgoRelocation, runEvent_modify, h]

variable {before : List Cmd} {h : Cmd} (hh : mxHead s owner = some (before, h))
include hh

theorem mgoRelocation_waits (hg : ¬ Relocatable s owner sibling before h) : exec (.mgoRelocation owner sibling) s = .next s := by
  show execMgoRelocation owner sibling s = _
  rw [execMgoRelocation, runEvent_modify, hh]
  dsimp only
  exact congrArg _ (if_pos (Bool.eq_true_of_not_eq_false (mt (relocatable_iff ..).mp hg)))

theorem mgoRelocation_takes (hg : Relocatable s owner sibling before h) :
    exec (.mgoRelocation owner sibling) s = .next ((arrayToken s sibling).elim s fun u => mxStart u owner sibling h) := by
  show execMgoRelocation owner sibling s = _
  rw [execMgoRelocation, runEvent_modify, hh]
  dsimp only
  refine congrArg _ ((if_neg (Bool.eq_false_iff.mp ((relocatable_iff ..).mpr hg))).trans ?_)
  cases arrayToken s sibling with
  | none => rfl
  | some u => rfl

end

theorem relocates : Claims.Relocates := by
  refine fun owner sibling s => ⟨mgoRelocation_none, fun before h hh => ⟨mgoRelocation_waits hh, fun hg => ?_⟩⟩
  have hrun := mgoRelocation_takes hh hg
  refine ⟨fun ha => ?_, fun ha => ⟨fun hb => ?_, fun hb => ?_⟩, fun ha => ?_⟩
  · rw [hrun, arrayToken_running ha]
    rfl
  · rw [hrun, arrayToken_idle ha, if_pos hb]
    rfl
  · obtain ⟨hmem, hctxs, hcores⟩ := tokenTaken_busy s sibling
    refine ⟨tokenTaken s sibling, ⟨?_, hmem, hctxs, hcores⟩, tokenTaken_bucket s sibling⟩
    rw [hrun, arrayToken_idle ha, if_neg hb]
    rfl
  · obtain ⟨hn, hb⟩ | ⟨u, hu, hmem, hctxs, hcores⟩ := arrayToken_ballast ha
    · exact .inl ⟨by rw [hrun, hn]; rfl, hb⟩
    · exact .inr ⟨u, by rw [hrun, hu]; rfl, hmem, hctxs, hcores⟩

/-! ### The ring (R240, R241) -/

/-- A head of a cluster's matrix queues: its core, the commands before it, and it. -/
abbrev RingHead := Nat × List Cmd × Cmd

/-- The heads of a cluster's matrix queues. -/
def ringHeads (s : State) (cl : Nat) : List RingHead :=
  (List.range 8).filterMap fun i => (mxHead s (8 * cl + i)).map fun h => (8 * cl + i, h.1, h.2)

/-- The heads are the same `rrot` in order of one launch on eight cores, all whole and ready. -/
def RingTogether (s : State) (hs : List RingHead) : Prop :=
  hs.length = 8 ∧ (∀ h ∈ hs, (Claims.ring h.2.2.instr).isSome = true ∧ h.2.2.rest = .all ∧ mxReady s h.1 h.1 h.2.1 h.2.2 = true) ∧
    ∀ h ∈ hs, ∀ g ∈ hs, h.2.2.job = g.2.2.job ∧ h.2.2.nth = g.2.2.nth

/-- Where the region of an `rrot` lies. -/
def ringSrc (core : Nat) (c : Cmd) : Nat := sliceKey core (c.vals.getD 0 0).toNat

/-- Where the region of an `rrot` goes: to the next core of the ring. -/
def ringDst (up : Bool) (core : Nat) (c : Cmd) : Nat :=
  sliceKey (core / 8 * 8 + (core % 8 + (if up then 1 else 7)) % 8) (c.vals.getD 1 0).toNat

/-- The footprint of an `rrot`. -/
def ringFoot (up : Bool) (n core : Nat) (c : Cmd) : List Foot := [⟨ringSrc core c, n, false, true, false⟩, ⟨ringDst up core c, n, true, true, false⟩]

/-- The cause and the faddr of a start test that stops an `rrot`. -/
abbrev RingStop := Option (BitVec 8 × W64)

/-- The start tests of an `rrot`. -/
def ringTest (s : State) (up : Bool) (n core : Nat) (c : Cmd) : RingStop := startTests s core c (ringFoot up n core c) true

/-- An `rrot` whose task is open starts only to fail. -/
def ringFail (core : Nat) (f : BitVec 8) (v : W64) : State × Cmd → State
  | (s, c) => failCmd s core { c with tok := c.tok &&& 0x5, started := true } f v

/-- A head fails where the rings differ. -/
def ringMismatch (s : State) : RingHead → State
  | (core, _, c) =>
    let o := openTask (Claims.popped { s with free := s.free + 1 } core c) core c
    ringFail core cEngine (Config.freeWord (o.1.free - 1)) o

/-- A head that a start test stops fails; another stands. -/
def ringStop (s : State) : Nat × Cmd × RingStop → State
  | (core, c, r) =>
    match r with
    | some (f, v) => ringFail core f v (openTask (Claims.popped s core c) core c)
    | none => s

/-- The bytes of a head's region land at the next core of the ring. -/
def ringStore (up : Bool) (s : State) : Nat × Cmd × List Byte → State
  | (core, c, l) => storeBytes s (ringDst up core c) l

/-- A head whose region has moved has performed. -/
def ringDone (up : Bool) (n : Nat) (s : State) : Nat × Cmd × List Byte → State
  | (core, c, _) =>
    let (s, c) := openTask (Claims.popped s core c) core c
    putCmd s core { c with tok := c.tok &&& 0x5, phase := .running, started := true, done := 1, foot := ringFoot up n core c }

/-- The heads with their start tests. -/
def ringTests (s : State) (up : Bool) (n : Nat) (hs : List RingHead) : List (Nat × Cmd × RingStop) :=
  (hs.map fun (core, _, c) => (core, c)).map fun (core, c) => (core, c, ringTest s up n core c)

/-- The heads with the bytes of their regions. -/
def ringData (s : State) (n : Nat) (hs : List RingHead) : List (Nat × Cmd × List Byte) :=
  hs.map fun (core, _, c) => (core, c, readBytes s (ringSrc core c) n)

/-- The heads once they are together, with one direction and length. -/
def ringTurn (s : State) (up : Bool) (n : Nat) (hs : List RingHead) : State :=
  if hs.any fun (core, _, c) => heldFoot s (ringFoot up n core c) then s
  else if (ringTests s up n hs).any fun r => r.2.2.isSome then (ringTests s up n hs).foldl ringStop s
  else (ringData s n hs).foldl (ringDone up n) ((ringData s n hs).foldl (ringStore up) s)

/-- A head is the same `rrot` in order as c0, whole and ready. -/
def ringSame (s : State) (c0 : Cmd) : RingHead → Bool
  | (core, before, c) =>
    (Claims.ring c.instr).isSome && c.job == c0.job && c.nth == c0.nth && c.rest == .all && mxReady s core core before c

/-- What the heads of a cluster do. -/
def ringStart (s : State) (hs : List RingHead) : State :=
  match hs with
  | (_, _, c0) :: _ =>
    match Claims.ring c0.instr with
    | none => s
    | some (up, n) =>
      if hs.length ≠ 8 ∨ ¬ hs.all (ringSame s c0) then s
      else if hs.any fun (_, _, c) => Claims.ring c.instr != some (up, n) then hs.foldl ringMismatch s
      else ringTurn s up n hs
  | [] => s

theorem rrotCollectiveStart_eq (cl : Nat) (s : State) : exec (.rrotCollectiveStart cl) s = .next (ringStart s (ringHeads s cl)) := by
  show execRrotCollectiveStart cl s = _
  rw [execRrotCollectiveStart, runEvent_modify]
  rfl

section
variable {s : State} {hs : List RingHead}

theorem ringSame_iff {c0 : Cmd} {h : RingHead} : ringSame s c0 h = true ↔ ((Claims.ring h.2.2.instr).isSome = true ∧ h.2.2.rest = .all ∧
    mxReady s h.1 h.1 h.2.1 h.2.2 = true) ∧ h.2.2.job = c0.job ∧ h.2.2.nth = c0.nth := by
  obtain ⟨core, before, c⟩ := h
  simp only [ringSame, Bool.and_eq_true, beq_iff_eq]
  tauto

/-- Heads that are each the same `rrot` as the first are together. -/
theorem ringTogether_iff {h0 : RingHead} {tl : List RingHead} :
    RingTogether s (h0 :: tl) ↔ (h0 :: tl).length = 8 ∧ (h0 :: tl).all (ringSame s h0.2.2) = true := by
  rw [RingTogether, List.all_eq_true]
  refine and_congr_right fun _ => ⟨fun ⟨hready, hsame⟩ h hm => ringSame_iff.mpr ⟨hready h hm, hsame h hm h0 List.mem_cons_self⟩, fun hall => ?_⟩
  have hone (h) (hm : h ∈ h0 :: tl) := ringSame_iff.mp (hall h hm)
  refine ⟨fun h hm => (hone h hm).1, fun h hm g gm => ?_⟩
  obtain ⟨-, hjob, hnth⟩ := hone h hm
  obtain ⟨-, gjob, gnth⟩ := hone g gm
  exact ⟨hjob.trans gjob.symm, hnth.trans gnth.symm⟩

theorem ringStart_apart (h : ¬ RingTogether s hs) : ringStart s hs = s := by
  obtain _ | ⟨h0, tl⟩ := hs
  · rfl
  · rw [ringTogether_iff] at h
    rw [ringStart]
    split
    · rfl
    · exact if_pos (by rwa [ne_eq, ← not_and_or])

section
variable (ht : RingTogether s hs)
include ht

/-- Heads that are together have one ring, or there are two that differ. -/
theorem ringStart_together : ∃ h0 ∈ hs, ∃ up n, Claims.ring h0.2.2.instr = some (up, n) ∧
    ringStart s hs = if hs.any fun h => Claims.ring h.2.2.instr != some (up, n) then hs.foldl ringMismatch s else ringTurn s up n hs := by
  obtain _ | ⟨h0, tl⟩ := hs
  · exact nomatch ht.1
  · obtain ⟨⟨up, n⟩, hring⟩ := Option.isSome_iff_exists.mp (ht.2.1 h0 List.mem_cons_self).1
    obtain ⟨hlen, hall⟩ := ringTogether_iff.mp ht
    refine ⟨h0, List.mem_cons_self, up, n, hring, ?_⟩
    rw [ringStart]
    dsimp only
    rw [hring]
    exact if_neg (by rw [ne_eq, ← not_and_or, not_not]; exact ⟨hlen, hall⟩)

theorem ringStart_differ (hd : ∃ h ∈ hs, ∃ g ∈ hs, Claims.ring h.2.2.instr ≠ Claims.ring g.2.2.instr) : ringStart s hs = hs.foldl ringMismatch s := by
  obtain ⟨h0, -, up, n, -, hrun⟩ := ringStart_together ht
  refine hrun.trans (if_pos (by_contra fun hone => ?_))
  obtain ⟨h, hm, g, gm, hne⟩ := hd
  have hall : ∀ h ∈ hs, Claims.ring h.2.2.instr = some (up, n) := by simpa using hone
  exact hne ((hall h hm).trans (hall g gm).symm)

theorem ringStart_one {up : Bool} {n : Nat} (hone : ∀ h ∈ hs, Claims.ring h.2.2.instr = some (up, n)) : ringStart s hs = ringTurn s up n hs := by
  obtain ⟨h0, hm, up', n', hring, hrun⟩ := ringStart_together ht
  obtain ⟨rfl, rfl⟩ : up = up' ∧ n = n' := by simpa using (hone h0 hm).symm.trans hring
  exact hrun.trans (if_neg (by simpa using hone))

end

/-! ### What comes of the heads (R215, R240, R241) -/

theorem ringFail_failed (s : State) (core : Nat) (c : Cmd) (f : BitVec 8) (v : W64) (hq : c.q = 1) :
    Claims.Failed (openTask s core c).1 (ringFail core f v (openTask s core c)) core
      { (openTask s core c).2 with tok := (openTask s core c).2.tok &&& 0x5, started := true } f v := by
  obtain ⟨b, hb⟩ := openTask_cmd s core c
  have hlt : (openTask s core c).2.q < 5 := by
    rw [hb]
    show c.q < 5
    omega
  exact failCmd_failed _ _ _ _ hlt

theorem ringMismatch_failEach (hq : ∀ h ∈ hs, h.2.2.q = 1) : Claims.FailEach s (hs.foldl ringMismatch s) (hs.map fun h => (h.1, h.2.2, 0x30, none)) := by
  induction hs generalizing s with
  | nil => rfl
  | cons h tl ih =>
    obtain ⟨hhead, htail⟩ := List.forall_mem_cons.mp hq
    exact ⟨ringMismatch s h, _, .inl rfl, ringFail_failed _ _ _ _ _ hhead, ih htail⟩

/-- The heads that their tests stop, each with the cause and the faddr. -/
def ringStops (test : RingHead → RingStop) (hs : List RingHead) : List (Nat × Cmd × BitVec 8 × Option W64) :=
  hs.filterMap fun h => (test h).map fun r => (h.1, h.2.2, r.1, some r.2)

theorem ringStop_failEach (test : RingHead → RingStop) (hq : ∀ h ∈ hs, h.2.2.q = 1) :
    Claims.FailEach s ((hs.map fun h => (h.1, h.2.2, test h)).foldl ringStop s) (ringStops test hs) := by
  induction hs generalizing s with
  | nil => rfl
  | cons h tl ih =>
    obtain ⟨hhead, htail⟩ := List.forall_mem_cons.mp hq
    rw [List.map_cons, List.foldl_cons, ringStops, List.filterMap_cons]
    cases htest : test h with
    | none => exact ih htail
    | some r => exact ⟨_, r.2, .inr rfl, ringFail_failed _ _ _ _ _ hhead, ih htail⟩

theorem ringStops_any (test : RingHead → RingStop) :
    ((hs.map fun h => (h.1, h.2.2, test h)).any fun r => r.2.2.isSome) = true ↔ ringStops test hs ≠ [] := by
  simp [ringStops, List.filterMap_eq_nil_iff, Option.isSome_iff_ne_none]

variable {up : Bool} {n : Nat}

theorem ringTests_eq (s : State) (up : Bool) (n : Nat) (hs : List RingHead) :
    ringTests s up n hs = hs.map fun h => (h.1, h.2.2, ringTest s up n h.1 h.2.2) := List.map_map

theorem ringTests_any : ((ringTests s up n hs).any fun r => r.2.2.isSome) = true ↔ ringStops (fun h => ringTest s up n h.1 h.2.2) hs ≠ [] := by
  rw [ringTests_eq]
  exact ringStops_any fun h => ringTest s up n h.1 h.2.2

theorem ringDone_keeps (s : State) : ∀ d, (ringDone up n s d).mem = s.mem ∧ (ringDone up n s d).ctxs = s.ctxs
  | (core, c, _) => openTask_state (Claims.popped s core c) core c

theorem ringStore_ctxs (s : State) : ∀ d, (ringStore up s d).ctxs = s.ctxs
  | (core, c, l) => by
    rw [ringStore, storeBytes_only]

theorem ringTurn_held (h : ∃ h ∈ hs, heldFoot s (ringFoot up n h.1 h.2.2) = true) : ringTurn s up n hs = s :=
  if_pos (List.any_eq_true.mpr h)

section
variable (hheld : ∀ h ∈ hs, heldFoot s (ringFoot up n h.1 h.2.2) = false)
include hheld

theorem ringTurn_free : ringTurn s up n hs = if (ringTests s up n hs).any fun r => r.2.2.isSome then (ringTests s up n hs).foldl ringStop s
    else (ringData s n hs).foldl (ringDone up n) ((ringData s n hs).foldl (ringStore up) s) :=
  if_neg (by simpa using hheld)

theorem ringTurn_stops (h : ringStops (fun h => ringTest s up n h.1 h.2.2) hs ≠ []) :
    ringTurn s up n hs = (ringTests s up n hs).foldl ringStop s := by
  rw [ringTurn_free hheld, if_pos (ringTests_any.mpr h)]

theorem ringTurn_moves (h : ringStops (fun h => ringTest s up n h.1 h.2.2) hs = []) :
    ringTurn s up n hs = (ringData s n hs).foldl (ringDone up n) ((ringData s n hs).foldl (ringStore up) s) := by
  rw [ringTurn_free hheld, if_neg (mt ringTests_any.mp (not_not.mpr h))]

end

end

theorem rotates : Claims.Rotates := by
  refine fun cl s => ⟨fun ht => ?_, fun ht hq hd => ?_, fun ht up n hone => ⟨fun hheld => ?_, fun hheld => ⟨fun hstops hq => ?_, fun hstops => ?_⟩⟩⟩
  · exact (rrotCollectiveStart_eq cl s).trans (congrArg _ (ringStart_apart ht))
  · exact ⟨_, (rrotCollectiveStart_eq cl s).trans (congrArg _ (ringStart_differ ht hd)), ringMismatch_failEach hq⟩
  · exact (rrotCollectiveStart_eq cl s).trans (congrArg _ ((ringStart_one ht hone).trans (ringTurn_held hheld)))
  · exact ⟨_, (rrotCollectiveStart_eq cl s).trans (congrArg _ ((ringStart_one ht hone).trans (ringTurn_stops hheld hstops))), ringTests_eq s up n _ ▸ ringStop_failEach _ hq⟩
  · refine ⟨_, (rrotCollectiveStart_eq cl s).trans (congrArg _ ((ringStart_one ht hone).trans (ringTurn_moves hheld hstops))), ?_, ?_⟩
    · rw [foldl_keeps State.ctxs _ fun b d => (ringDone_keeps b d).2, foldl_keeps State.ctxs _ ringStore_ctxs]
    · rw [foldl_keeps State.mem _ fun b d => (ringDone_keeps b d).1, ringData, List.foldl_map]
      rfl

theorem arrayEvents : Claims.ArrayEvents := ⟨startTokenRefill_fills, relocates, rotates⟩

/-- Settles O38, by the array's start token, the opened task that every start goes through, and the ring's heads taken as one list. -/
theorem matrixStarts : Obligations.MatrixStarts := ⟨matrixHeads, arrayEvents⟩

end Sys2Proof.Machine
end

section
/-! PROOFS. Copy commands (R217, R273, R275, R278, R279, R285, R288, R290, R390, R448, R502): the start of the head of a queue, and the sectors. -/

namespace Sys2Proof.Machine

/-! ### The start (R217, R273, R275, R279, R290, R305, R460) -/

/-- A copy command that has started, its kept elements to be done first. -/
def copyBegun (c : Cmd) : Cmd := { Claims.begun c with idx := c.pend, stamp := if c.pend = [] then 0 else 1, pend := [], value := 0 }

/-- A copy command that has started and declared its footprint. -/
def copyDeclared (s : State) (core : Nat) (c : Cmd) : Cmd := { copyBegun c with foot := cpFoot (Claims.popped s core c) core (copyBegun c) }

/-- A copy command that the race of its footprint fails. -/
def copyRaced (s : State) (core : Nat) (c : Cmd) : Cmd :=
  let f := copyDeclared s core c
  { f with first := (cpMain f).digits f.done, pend := Claims.firstLeft c, idx := [], stamp := 0 }

theorem left_copyDeclared (s : State) (core : Nat) (c : Cmd) : execCopyCommandStart.left (copyDeclared s core c) = Claims.firstLeft c := by
  unfold execCopyCommandStart.left Claims.firstLeft
  refine if_congr Iff.rfl rfl ?_
  by_cases h : c.pend = [] <;> simp [copyDeclared, copyBegun, Claims.begun, h]

/-- What the start of a copy command leaves. -/
def copyStart (s : State) (core : Nat) (c : Cmd) : State :=
  if c.rest ≠ .all then putCmd (Claims.popped s core c) core (copyBegun c)
  else match c.instr with
    | .cpref _ => putCmd (Claims.popped s core c) core { copyBegun c with done := c.total }
    | _ => match startRace (Claims.popped s core c) core (copyDeclared s core c) (copyDeclared s core c).foot with
      | some (f, v) => failCmd (Claims.popped s core c) core (copyRaced s core c) f v
      | none => putCmd (Claims.popped s core c) core (copyDeclared s core c)

/-- The head of a copy queue may start. -/
def CopyReady (s : State) (core : Nat) (co : Bool) (c : Cmd) : Prop :=
  tokensReady (s.core core) c = true ∧ stopServing s c = false ∧ (s.die (core / 128)).lost = false ∧
    cpPerforming (s.core core) (if co then 3 else 0) < 4

section
variable {s : State} {core : Nat} {co : Bool}

theorem copyCommandStart_none (h : cpHead (s.core core) (if co then 3 else 0) = none) : exec (.copyCommandStart core co) s = .next s := by
  show execCopyCommandStart core co s = _
  rw [execCopyCommandStart, runEvent_modify]
  dsimp only
  rw [h]

variable {c : Cmd} (hc : cpHead (s.core core) (if co then 3 else 0) = some c)
include hc

theorem copyCommandStart_waits (h : ¬ CopyReady s core co c) : exec (.copyCommandStart core co) s = .next s := by
  show execCopyCommandStart core co s = _
  rw [execCopyCommandStart, runEvent_modify]
  dsimp only
  rw [hc]
  dsimp only
  rw [if_pos]
  simpa [CopyReady, or_assoc, imp_iff_not_or] using h

theorem copyCommandStart_starts (h : CopyReady s core co c) : exec (.copyCommandStart core co) s = .next (copyStart s core c) := by
  obtain ⟨htok, hstop, hlost, hfew⟩ := h
  show execCopyCommandStart core co s = _
  rw [execCopyCommandStart, runEvent_modify]
  dsimp only
  rw [hc]
  dsimp only
  rw [if_neg (by simpa [htok, hstop, hlost] using hfew)]
  unfold copyStart copyRaced
  rw [← left_copyDeclared s core c]
  rfl

end

section
variable {s : State} {core : Nat} {c : Cmd}

theorem copyStart_retried (h : c.rest ≠ .all) : copyStart s core c = putCmd (Claims.popped s core c) core (copyBegun c) := if_pos h

variable (hr : c.rest = .all)
include hr

theorem copyStart_cpref {e : EArgs} (h : c.instr = .cpref e) :
    copyStart s core c = putCmd (Claims.popped s core c) core { copyBegun c with done := c.total } := by
  rw [copyStart, if_neg (not_not.mpr hr), h]

variable (h : ∀ e, c.instr ≠ .cpref e)
include h

theorem copyStart_runs (hrace : startRace (Claims.popped s core c) core (copyDeclared s core c) (copyDeclared s core c).foot = none) :
    copyStart s core c = putCmd (Claims.popped s core c) core (copyDeclared s core c) := by
  rw [copyStart, if_neg (not_not.mpr hr)]
  split
  · next e he => exact absurd he (h e)
  · rw [hrace]

theorem copyStart_races {f : BitVec 8} {v : W64}
    (hrace : startRace (Claims.popped s core c) core (copyDeclared s core c) (copyDeclared s core c).foot = some (f, v)) :
    copyStart s core c = failCmd (Claims.popped s core c) core (copyRaced s core c) f v := by
  rw [copyStart, if_neg (not_not.mpr hr)]
  split
  · next e he => exact absurd he (h e)
  · rw [hrace]

end

theorem copyStarts : Claims.CopyStarts := by
  refine fun core co s => ⟨copyCommandStart_none, fun c hc hq => ⟨copyCommandStart_waits hc, fun hready => ?_⟩⟩
  have hq5 : c.q < 5 := by rw [hq]; split <;> decide
  rw [copyCommandStart_starts hc hready]
  refine ⟨fun hr => by rw [copyStart_retried hr]; rfl, fun hr => ⟨fun e he => by rw [copyStart_cpref hr he]; rfl, fun he => ⟨fun hrace => ?_, fun f v hrace => ?_⟩⟩⟩
  · rw [copyStart_runs hr he hrace]
    rfl
  · rw [copyStart_races hr he hrace]
    exact ⟨_, rfl, failCmd_failed _ _ _ _ hq5⟩

/-! ### When a sector performs (R273, R420, R463) -/

/-- The next sector of a copy command may perform. -/
def CopyDue (s : State) (core : Nat) (c : Cmd) : Prop :=
  (c.phase = .running ∨ c.phase = .waiting) ∧ c.busy = true ∧ stopServing s c = false ∧ (s.job c.job).cancelled = false ∧
    cpTurn (s.core core) c = true ∧ heldFoot s c.foot = false

/-- The performance of a sector that is due. -/
def copySector (s : State) (core : Nat) (c : Cmd) : M Unit :=
  match c.instr with
  | .cmsg _ => if migratingTo s c.job (c.vals.getD 3 0).toNat then pure () else cpMessage core c
  | .cgather _ | .cscatter _ => cpScattered core c
  | _ => if waitingReq s (1 + 5 * core + c.q, c.num) then pure () else cpWhole core c

section
variable {s : State} {core tl : Nat} {co : Bool}

theorem copySectorPerform_none (h : (s.core core).cmd (if co then 3 else 0) tl = none) : exec (.copySectorPerform core co tl) s = .next s := by
  show execCopySectorPerform core co tl s = _
  refine runEvent_ok ?_
  rw [M.bind_get_apply, h]
  rfl

variable {c : Cmd} (hc : (s.core core).cmd (if co then 3 else 0) tl = some c)
include hc

theorem copySectorPerform_waits (h : ¬ CopyDue s core c) : exec (.copySectorPerform core co tl) s = .next s := by
  show execCopySectorPerform core co tl s = _
  refine runEvent_ok ?_
  rw [M.bind_get_apply, hc]
  dsimp only
  rw [if_pos]
  · rfl
  · simpa [CopyDue, or_assoc, imp_iff_not_or] using h

theorem copySectorPerform_due (h : CopyDue s core c) {t : State} (ht : copySector s core c s = .ok ((), t)) :
    exec (.copySectorPerform core co tl) s = .next t := by
  obtain ⟨hphase, hbusy, hstop, hcancel, hturn, hheld⟩ := h
  show execCopySectorPerform core co tl s = _
  refine runEvent_ok ?_
  rw [M.bind_get_apply, hc]
  dsimp only
  rw [if_neg]
  · exact ht
  · simpa [hbusy, hstop, hcancel, hturn, hheld, imp_iff_not_or] using hphase

end

/-! ### The sectors (R278, R285, R288, R390, R448, R502) -/

/-- A command that fails at its sector (R279). -/
def sectorFailed (c : Cmd) (pend : List Nat) : Cmd := { c with first := (cpMain c).digits c.done, pend, idx := [], stamp := 0 }

theorem cpFail_apply (core : Nat) (c : Cmd) (pend : List Nat) (f : BitVec 8) (v : W64) (s : State) :
    cpFail core c pend f v s = .ok ((), failCmd s core (sectorFailed c pend) f v) := rfl

section
variable {s : State} {core : Nat} {c : Cmd}

theorem copySector_whole (h : ∀ e, c.instr ≠ .cgather e ∧ c.instr ≠ .cscatter e ∧ c.instr ≠ .cmsg e) :
    copySector s core c = if waitingReq s (1 + 5 * core + c.q, c.num) then pure () else cpWhole core c := by
  unfold copySector
  split
  · next e he => exact absurd he (h e).2.2
  · next e he => exact absurd he (h e).1
  · next e he => exact absurd he (h e).2.1
  · rfl

theorem copySector_scattered (h : ∃ e, c.instr = .cgather e ∨ c.instr = .cscatter e) : copySector s core c = cpScattered core c := by
  obtain ⟨e, he | he⟩ := h
  · rw [copySector, he]
  · rw [copySector, he]

theorem copySector_message (h : ∃ e, c.instr = .cmsg e) :
    copySector s core c = if migratingTo s c.job (c.vals.getD 3 0).toNat then pure () else cpMessage core c := by
  obtain ⟨e, he⟩ := h
  rw [copySector, he]

/-! A sector that performs whole. -/

theorem cpWhole_fails {u : State} {f : BitVec 8} {v : W64}
    (h : sectorCheck core c (rangeFrom c.done (min (cpSector c) (c.total - c.done))) s = .ok (.error (.bad f v), u)) :
    cpWhole core c s = .ok ((), failCmd u core (sectorFailed c []) f v) := M.bind_ok h

theorem cpWhole_misses {u : State} (h : sectorCheck core c (rangeFrom c.done (min (cpSector c) (c.total - c.done))) s = .ok (.error .miss, u)) :
    cpWhole core c s = .ok ((), putCmd u core { c with phase := .waiting }) := M.bind_ok h

/-- A command after a sector of n elements with these flags. -/
def sectorDone (c : Cmd) (n : Nat) (fl : W64) : Cmd := { c with phase := .running, done := c.done + n, vflags := c.vflags ||| fl }

theorem cpWhole_moves {u : State} {ps : List EltPlan}
    (h : sectorCheck core c (rangeFrom c.done (min (cpSector c) (c.total - c.done))) s = .ok (.ok ps, u)) :
    cpWhole core c s = .ok ((), putCmd (if (cpMain c).e.space = spNet ∧ c.total ≤ c.done + min (cpSector c) (c.total - c.done) then
        netPost { (moveElts u c ps).1 with free := (moveElts u c ps).1.free + c.total * cpEs c } ((cpMain c).e.base % 2 ^ 16) c.job
          (cpPayload (moveElts u c ps).1 core c)
      else (moveElts u c ps).1) core (sectorDone c (min (cpSector c) (c.total - c.done)) (moveElts u c ps).2)) := M.bind_ok h

/-! A sector of `cgather` or `cscatter`. -/

/-- What a run of the elements left leaves: those that wait stay, and once none does the command fails with those that failed, or goes on. -/
theorem cpScattered_runs {u : State} {wait : List Nat} {d : Cmd}
    (h : gatherRun core (if c.stamp = 1 then c.idx else List.range (min 64 (c.total - c.done))) [] c s = .ok ((wait, d), u)) :
    cpScattered core c s = .ok ((), if wait ≠ [] then putCmd u core { d with phase := .waiting, idx := wait, stamp := 1 }
      else if d.pend ≠ [] then failCmd u core (sectorFailed d d.pend) d.cause d.faddr
      else putCmd u core { d with phase := .running, done := d.done + min 64 (c.total - c.done), idx := [], stamp := 0 }) := by
  refine (M.bind_ok h).trans ?_
  dsimp only
  split
  · rfl
  · split
    · rfl
    · rfl

/-! The payload of `cmsg`. -/

variable {a b : Foot} (hfoot : cpFoot s core c = [a, b])
include hfoot

theorem cpMessage_fails {v : W64} (h : startPaddock s c [a, b] = some v) : cpMessage core c s = .ok ((), failCmd s core (sectorFailed c []) cRights v) := by
  rw [cpMessage, M.bind_get_apply, hfoot]
  dsimp only
  rw [h]
  rfl

theorem cpMessage_lands (h : startPaddock s c [a, b] = none) : ∃ poison,
    cpMessage core c s = .ok ((), putCmd { storeBytes s b.lo (readBytes s a.lo a.len) with poison } core { c with done := c.total }) := by
  rw [cpMessage, M.bind_get_apply, hfoot]
  dsimp only
  rw [h]
  exact ⟨_, rfl⟩

end

theorem wholeSectors {core tl : Nat} {co : Bool} {s : State} {c : Cmd} (hc : (s.core core).cmd (if co then 3 else 0) tl = some c) (hq : c.q < 5)
    (hdue : CopyDue s core c) (h : ∀ e, c.instr ≠ .cgather e ∧ c.instr ≠ .cscatter e ∧ c.instr ≠ .cmsg e) :
    let n := min (cpSector c) (c.total - c.done)
    (waitingReq s (1 + 5 * core + c.q, c.num) = true → exec (.copySectorPerform core co tl) s = .next s) ∧
    (waitingReq s (1 + 5 * core + c.q, c.num) = false →
      (∀ u f v, sectorCheck core c (rangeFrom c.done n) s = .ok (.error (.bad f v), u) → ∃ t, exec (.copySectorPerform core co tl) s = .next t ∧
        Claims.Failed u t core (sectorFailed c []) f v) ∧
      (∀ u, sectorCheck core c (rangeFrom c.done n) s = .ok (.error .miss, u) →
        exec (.copySectorPerform core co tl) s = .next (putCmd u core { c with phase := .waiting })) ∧
      ∀ u ps, sectorCheck core c (rangeFrom c.done n) s = .ok (.ok ps, u) →
        ((cpMain c).e.space ≠ 5 ∨ c.done + n < c.total →
          exec (.copySectorPerform core co tl) s = .next (putCmd (moveElts u c ps).1 core (sectorDone c n (moveElts u c ps).2))) ∧
        ((cpMain c).e.space = 5 → c.total ≤ c.done + n → let w := (moveElts u c ps).1
          exec (.copySectorPerform core co tl) s = .next (putCmd (netPost { w with free := w.free + c.total * cpEs c } ((cpMain c).e.base % 2 ^ 16) c.job
            (cpPayload w core c)) core (sectorDone c n (moveElts u c ps).2)))) := by
  have hrun {t : State} := copySectorPerform_due (t := t) hc hdue
  rw [copySector_whole h] at hrun
  refine ⟨fun hw => hrun (by rw [if_pos hw]; rfl), fun hw => ?_⟩
  rw [if_neg (by rw [hw]; decide)] at hrun
  refine ⟨fun u f v hs => ⟨_, hrun (cpWhole_fails hs), failCmd_failed _ _ _ _ hq⟩, fun u hs => hrun (cpWhole_misses hs), fun u ps hs => ⟨fun hlocal => ?_, fun hnet hlast => ?_⟩⟩
  · rw [hrun (cpWhole_moves hs), if_neg]
    exact fun ⟨hnet, hlast⟩ => hlocal.elim (· hnet) (Nat.not_lt.mpr hlast)
  · rw [hrun (cpWhole_moves hs), if_pos ⟨hnet, hlast⟩]

theorem copySectors : Claims.CopySectors := by
  refine fun core co tl s => ⟨copySectorPerform_none, fun c hc hq => ⟨copySectorPerform_waits hc, wholeSectors hc hq,
    fun hdue h wait d u hs => ?_, fun hdue h => ⟨fun hm => ?_, fun hm a b hfoot => ⟨fun v hp => ?_, fun hp => ?_⟩⟩⟩⟩
  · rw [copySectorPerform_due hc hdue (by rw [copySector_scattered h]; exact cpScattered_runs hs)]
    refine ⟨fun hw => by rw [if_pos hw], fun hw hpend => ?_, fun hw hpend hdq => ⟨_, rfl, ?_⟩⟩
    · rw [if_neg (not_not.mpr hw), if_neg (not_not.mpr hpend)]
    · rw [if_neg (not_not.mpr hw), if_pos hpend]
      exact failCmd_failed _ _ _ _ hdq
  · exact copySectorPerform_due hc hdue (by rw [copySector_message h, if_pos hm]; rfl)
  · have hsector : copySector s core c = cpMessage core c := by rw [copySector_message h, if_neg (by rw [hm]; decide)]
    exact ⟨_, copySectorPerform_due hc hdue ((congrFun hsector s).trans (cpMessage_fails hfoot hp)), failCmd_failed _ _ _ _ hq⟩
  · have hsector : copySector s core c = cpMessage core c := by rw [copySector_message h, if_neg (by rw [hm]; decide)]
    obtain ⟨poison, hland⟩ := cpMessage_lands hfoot hp
    refine ⟨_, copySectorPerform_due hc hdue ((congrFun hsector s).trans hland), storeBytes_mem .., ?_, ?_⟩
    · rw [storeBytes_only]
      rfl
    · refine (putCmd_own_queue _ _ { c with done := c.total } hq).trans ?_
      rw [storeBytes_only]
      rfl

/-- Settles O40: the start of the head of a queue, and the sectors by the kind of their command. -/
theorem copyPerformance : Obligations.CopyPerformance := ⟨copyStarts, copySectors⟩

end Sys2Proof.Machine
end
